-- ==== Sys2Proof/Word.lean ====
section
/-! DEFINITION. The word types of the spec (R17: bit 0 is the least significant, multi-byte fields are little-endian)
and the sparse maps that hold everything indexed by a number. -/

namespace Sys2Proof

abbrev Byte := BitVec 8
abbrev W16 := BitVec 16
abbrev W32 := BitVec 32
abbrev W64 := BitVec 64

/-- A sparse map from numbers, kept as a list of pairs with rising keys. -/
abbrev NMap (V : Type) := List (Nat × V)

/-- The value at key `k`, if one is listed. -/
def nget {V : Type} (m : NMap V) (k : Nat) : Option V :=
  match m with
  | [] => none
  | (k', v) :: r => if k = k' then some v else nget r k

/-- Lists `v` at key `k`, in place of what was listed there. -/
def nset {V : Type} (m : NMap V) (k : Nat) (v : V) : NMap V :=
  match m with
  | [] => [(k, v)]
  | (k', v') :: r =>
    if k < k' then (k, v) :: (k', v') :: r
    else if k = k' then (k, v) :: r
    else (k', v') :: nset r k v

/-- Unlists key `k`. -/
def ndel {V : Type} (m : NMap V) (k : Nat) : NMap V := m.filter fun e => e.1 != k

/-- The value at `k`, or `d` where none is listed. -/
def ngetD {V : Type} (m : NMap V) (k : Nat) (d : V) : V := (nget m k).getD d

/-- Changes the value at `k` (starting from `d`) by `f`. -/
def nmod {V : Type} (m : NMap V) (k : Nat) (d : V) (f : V → V) : NMap V := nset m k (f (ngetD m k d))

/-- The little-endian number of a byte string. -/
def leNat : List Byte → Nat
  | [] => 0
  | b :: r => b.toNat + 256 * leNat r

/-- The `n` low bytes of a number, least significant first. -/
def leBytes : Nat → Nat → List Byte
  | 0, _ => []
  | n + 1, v => BitVec.ofNat 8 v :: leBytes n (v / 256)

/-- The big-endian number of a byte string. -/
def beNat (l : List Byte) : Nat := leNat l.reverse

/-- The `n` low bytes of a number, most significant first. -/
def beBytes (n v : Nat) : List Byte := (leBytes n v).reverse

/-- Bits `hi` down to `lo` of a number. -/
def bits (v hi lo : Nat) : Nat := (v / 2 ^ lo) % 2 ^ (hi + 1 - lo)

/-- Bit `i` of a number. -/
def bit (v i : Nat) : Bool := v.testBit i

/-- A Boolean as a number. -/
def b2n (b : Bool) : Nat := if b then 1 else 0

/-- Least whole number not below `a / b` (0 where `b` is 0). -/
def ceilDiv (a b : Nat) : Nat := if b = 0 then 0 else (a + b - 1) / b

/-- Number of one bits among the low `n` bits. -/
def popcount : Nat → Nat → Nat
  | 0, _ => 0
  | n + 1, v => v % 2 + popcount n (v / 2)

end Sys2Proof
end

