-- ==== Sys2Proof/Syntax.lean ====
section
/-! DEFINITION. The commands the block takes, one constructor per row of spec/opcode_table.json, and the operand
structures they carry. The table gives no bits, so a command is its row and its operands. -/

namespace Sys2Proof

/-- What a request carries (R53): master ID, requesting function (numbered as in HP_FN_MAP), partition tag, device-wide
marker. -/
structure Req where
  mst  : BitVec 8
  fn   : BitVec 7
  part : BitVec 4
  dev  : Bool
deriving DecidableEq, Repr

/-- A request from PF0 through the host port. -/
def Req.pf0 : Req := ⟨0x90, 0, 0, true⟩

/-- How an outside access ends where its outcome is decided by the other end. -/
inductive Answer where | ok | refused | poisoned | timeout
deriving DecidableEq, Repr

/-- The two base address registers of R394 that reach the device window. -/
inductive Bar where | bar0 | bar2
deriving DecidableEq, Repr

/-- What the lay image says of one partition (R368, R374 and the registers whose reset column reads "from lay image"). -/
structure PartPlan where
  enable    : Bool
  slotBase  : Nat
  slotCount : Nat
  descBase  : Nat
  clsBase   : Nat
  clsCount  : Nat
  meterBase : Nat
  meterCount : Nat
  qlimit    : Nat
  rings     : List (Nat × Nat)
  shares    : List Nat          -- LINK, SPLICE, HITCH, HOST
  channels  : List Nat
  freeRuns  : List (Nat × Nat)  -- T1 pages free when laid: first page number, count
  spillBase : Nat
  spillKib  : Nat
  spillPool : Nat
  nodeMax   : Nat
  pfxCeil   : Nat
  groups    : List Nat          -- Lathe groups 4d+g
  adze      : List Nat
  text      : List Nat          -- text engines 4d+i
  btCtx     : Nat
  gramCeil  : Nat
  progMax   : Nat
  ringCeil  : Nat
  billetCeil : List Nat
  pageCeil  : List Nat
  idxMax    : Nat
  mergeBase : Nat
  mergePages : Nat
  ownerPreset : Option Nat      -- SHA-384 hash of the owner key the image names
  conf      : Bool
deriving DecidableEq, Repr

/-- A vocabulary slot's binding (R233). -/
structure VocPlan where
  part : Nat
  dies : Nat
  ceil : Nat
deriving DecidableEq, Repr

/-- Role of a SerDes quad (R368). -/
inductive QuadRole where | off | harah | eth
deriving DecidableEq, Repr

/-- What a lay image says (R366-R368). -/
structure Lay where
  serial   : Nat
  digest   : Nat
  conduct  : Nat
  parts    : NMap PartPlan
  quads    : NMap QuadRole
  perstReset : Bool
  fns      : NMap Nat           -- function (numbered as in HP_FN_MAP) -> partition
  grpDom   : NMap Nat           -- Lanyard sleep group -> mask of domains
  farMode  : Bool               -- false root port, true CXL
  bifur    : Nat
  exported : List Nat           -- exported Billet banks
  carve    : List Nat           -- carve-out Billet banks
  bankOf   : NMap Nat           -- carve-out or exported bank -> partition
  ways     : NMap Nat           -- cache way 16 b + w of bank b -> partition
  ax       : NMap W32           -- initial access-table entries, key 256 t + m
  axCeil   : NMap Nat
  voc      : NMap VocPlan
  reserve  : List Nat           -- text-group engines reserved as spares (R252): kind*16 + e
deriving DecidableEq, Repr

/-- What Heartwood finds of a lay image beside its documented header (R366-R369): the standard primitives' verdicts and
the decoded section bodies, whose encoding the spec does not document. -/
structure LayImg where
  readable : Bool     -- the image can be read whole
  wellFormed : Bool   -- MAGIC, VERSION, TOTAL, directory
  keySlot  : Nat
  sig      : Bool     -- the ECDSA signature verifies under the enrolled key
  uidOk    : Bool     -- DEVICE_UID is 0 or this device's
  serial   : Nat
  conduct  : Nat
  raise    : Bool     -- FLAGS.RAISE_FLOOR
  rules    : Bool     -- the rules on what this record does not show hold (R80, R133, R202)
  lay      : Lay
deriving DecidableEq, Repr

/-- What Heartwood finds of a firmware image (R465, R533, R558): whether Efdanu's signature verifies, its SVN, the journal
level a spine image declares, its SHA-384. -/
structure FwImg where
  sig     : Bool
  svn     : Nat
  journal : Nat
  digest  : Nat
deriving DecidableEq, Repr

/-- A key of the operator key store (R479): its permission nibble and its P-384 public key, x then y, as a number. -/
structure OpKey where
  perms : Nat
  key   : Nat
deriving DecidableEq, Repr

/-- What a boot-flash chip's regions hold (R556): the images of its slot, its Lanyard bank, and the key store copy whose MAC
verifies, with its version. -/
structure FlashChip where
  hw     : FwImg
  ly     : FwImg
  spine  : FwImg
  serdes : FwImg
  lay    : LayImg
  store  : Option (Nat × NMap OpKey)
deriving DecidableEq, Repr

/-- What the board presents when standby power comes (R540, R546): the mean and spread of the CFG_SEL readings, and the two
flash chips where they have been programmed while the device was without power. -/
structure Start where
  mean   : BitVec 12
  spread : BitVec 12
  chips  : Option (FlashChip × FlashChip)
deriving DecidableEq, Repr

/-- A tile whose destination answers: one of a session move (slot, entry, tile) or of a COPY or ZERO (ring, descriptor, tile). -/
inductive TileRef where
  | move (slot e t : Nat)
  | job (ring : Nat) (d : BitVec 512) (t : Nat)
deriving DecidableEq, Repr

/-- A slot that changes state as vocabulary slots do (R235): a vocabulary slot; grammar slot g, program slot k or index slot k
of partition p (R261, R302, R316). -/
inductive ImgRef where
  | voc (v : Fin 16)
  | gram (p g : Fin 16)
  | prog (p : Fin 16) (k : BitVec 8)
  | idx (p : Fin 16) (k : Fin 64)
deriving DecidableEq, Repr

/-- The kinds of engine (R52). -/
inductive EngKind where | lathe | adze | whittle | cleat | bight | skein | splice
deriving DecidableEq, Repr

/-- The units whose DRAIN bit UNIT_DRAIN_WRITE writes (R587); HW_PART_CTL has a row of its own. -/
inductive DrainUnit where | ht | sp | la | wh | cl | bt | ad | sk | cp
deriving DecidableEq, Repr

/-- What DETECTED_FAULT strikes (R376, R381, R382). -/
inductive Struck where
  | engine (b : EngKind) (e : BitVec 9)                -- a datapath error
  | correctable (t : BitVec 8) (row : Nat)             -- a correctable error in a row of a channel
  | line (a : BitVec 48)                               -- an uncorrectable error in a line that no structure below holds
  | block (slot : BitVec 24) (e : Nat)                 -- a block of a session's table
  | descriptor (slot : BitVec 24)                      -- a session descriptor or block-table page
  | page (n : BitVec 32)                               -- a page descriptor
  | image (x : ImgRef) (die : Fin 4)                   -- a copy in a slot
  | structure (p : Fin 16)                             -- a partition-wide structure
  | channel (t : BitVec 8)                             -- a channel controller
  | hitch                                              -- the active Hitch unit
  | capstan
  | heartwood
  | lanyard
deriving DecidableEq, Repr

/-- The transports an SPDM requester uses (R471): the DOE mailbox of PF0, MCTP over I3C or SMBus, the management port. -/
inductive Via where | doe | mctp | mgmt
deriving DecidableEq, Repr

/-- Who is at the other end of a Harah link, as its HELLO says (R431): device ID where assigned, quad, unique ID, span name. -/
structure Peer where
  dev  : Option (BitVec 16)
  quad : Fin 12
  uid  : BitVec 128
  name : W64
deriving DecidableEq, Repr

/-- Header and birth slot of a Harah request (R437), and whether it comes on an escape channel (R435). -/
structure HfHdr where
  part  : BitVec 4
  src   : BitVec 16
  dst   : BitVec 16
  off   : BitVec 48
  tag   : BitVec 16
  birth : BitVec 16
  esc   : Bool
deriving DecidableEq, Repr

/-- Header and birth slot of a Harah response (R438). -/
structure HfRsp where
  st    : BitVec 8
  src   : BitVec 16
  dst   : BitVec 16
  det   : BitVec 24
  tag   : BitVec 16
  birth : BitVec 16
deriving DecidableEq, Repr

/-- The shard of a rotation whose last stripe a RING_DATA packet is (R225, R458). -/
structure ShardEnd where
  c      : Fin 8
  layer  : BitVec 16
  pass   : BitVec 16
  origin : BitVec 16
  tokens : W32
  log    : BitVec 8
deriving DecidableEq, Repr

/-- The unit messages of R440 with their fields. -/
inductive UnitMsg where
  | reserve (h : W64) (p : Fin 16) (pages : W32) (pol : W64) (tokens : W32)
  | arrived (h : W64)
  | release (h dst : W64)
  | ask (h : W64)
  | digest (ringId : BitVec 16) (dg : W64)
  | work (ringId layer step : BitVec 16) (d : BitVec 512) (tok : W32) (q : List Byte) (par : List Nat) (k v : List Byte)
  | state (ringId layer step rank fl : BitVec 16) (data : List Byte)
  | commit (ringId step : BitVec 16) (tok : W32) (rows : List Nat)
  | cancel (ringId step : BitVec 16)
  | down (ringId : BitVec 16)
deriving DecidableEq, Repr

/-- Discovery and route messages (R441-R443). -/
inductive DiscMsg where
  | links (uid : BitVec 128) (id : Option (BitVec 16)) (prio : BitVec 8) (es : List (Fin 12 × BitVec 128 × Fin 12 × Bool))
                                                      -- a device and its links: quad, peer, peer quad, border
  | gone (uid : BitVec 128) (quad : Fin 12)           -- a link of a device is lost
  | marshal (uid : BitVec 128) (id : BitVec 16)       -- the marshal is alive
  | handover                                          -- the marshal yields to the standby
  | routes (uid : BitVec 128) (es : List (BitVec 16 × BitVec 16))   -- route entries for a device
  | answer                                            -- the peer answers this device's discovery message
deriving DecidableEq, Repr

/-- IEEE 1588 messages a slave meets (R454), with the times they carry in nanoseconds. -/
inductive PtpMsg where
  | sync (t1 : Option (BitVec 80))                    -- one-step carries its departure; two-step does not
  | followUp (t1 : BitVec 80)
  | delayResp (t4 : BitVec 80)
  | pdelayResp (t2 t3 : BitVec 80)
deriving DecidableEq, Repr

/-- The sensors a PLDM platform command reads (R527): a filter's output, a compute die's or a stack's temperature, power. -/
inductive LySensor where
  | filter (f : Fin 64)
  | die (d : Fin 4)
  | stack (n : Fin 8)
  | power
deriving DecidableEq, Repr

/-- The RS counters of the register chapters (R43). -/
inductive Ct where
  | HT_CMD_CNT | HT_STEP_ADMIT_CNT | HT_REFUSED_CNT | HT_STALE_CNT | HT_OWN_FAULT_CNT | HT_PAGE_FREE_REJ_CNT
  | HT_MOVE_ABANDON_CNT | HT_DEMOTE_CNT | HT_FAULTED_CNT | HT_CACHE_HIT_CNT | HT_CACHE_MISS_CNT | HT_FAILOVER_CNT
  | HT_EPOCH_DROP_CNT | SP_BYTES_RD | SP_BYTES_WR | SP_MOVE_CNT | SP_MOVE_FAIL_CNT | SP_MOVE_RESTART_CNT
  | SP_LATE_TILE_CNT | SP_CHEAP_PATH_CNT | SP_EVICT_CNT | SP_EVICT_SKIP_CNT | SP_SEAL_FAIL_CNT
  | SP_ZR64_SAVED_BYTES | SP_TORN_CNT | SP_SCRUB_CNT | SP_T2_RETIRED_CNT | SP_NOTICE_DROP_CNT | HM_CE_CNT
  | HM_UE_CNT | HM_RD_BYTES | HM_WR_BYTES | HM_ROW_SPARE_CNT | HM_SR_ENTRY_CNT | HT_PFX_LOOKUP_CNT
  | HT_PFX_HIT_CHUNK_CNT | HT_PFX_PUBLISH_CNT | HT_PFX_INSERT_CNT | HT_PFX_ADOPT_CNT | HT_PFX_EVICT_CNT
  | HT_PFX_COLLISION_CNT | HT_COW_COPY_CNT | HT_WINDOW_CONVERT_CNT | HT_SHADOW_CNT | LA_REQ_CNT | LA_ROW_CNT
  | LA_UNIT_CNT | LA_KV_BYTES | LA_STAGED_BYTES | LA_SHADOW_UNIT_CNT | LA_ABANDON_UNIT_CNT | LA_SAT_CNT
  | LA_NONFINITE_CNT | LA_RESTART_CNT | LA_CANCEL_CNT | LA_POISON_CNT | LG_PREEMPT_CNT | LG_SPILL_BILLET_CNT
  | LG_SPILL_POOL_CNT | LG_SPILL_MOVE_CNT | LG_RESUME_CNT | LG_PREEMPT_MAX_NS | LG_CHAIN_HOP_CNT
  | LG_SPN_GATHER_CNT | LG_SPN_FILL_CNT | LG_SPN_SHARD_TX_BYTES | LG_SPN_STATE_TX_CNT | LG_SPN_SLIP_CNT
  | LG_SPN_STALL_CNT | LG_SPN_DOWN_CNT | WH_TOK_CMD_CNT | WH_TOK_IN_BYTES | WH_TOK_OUT_CNT | WH_DETOK_TOKEN_CNT
  | WH_DETOK_OUT_BYTES | WH_BYTE_FALLBACK_CNT | WH_UNK_CNT | WH_ILLFORMED_IN_CNT | WH_REPLACEMENT_CNT
  | WH_CONTROL_TEXT_CNT | WH_LIMIT_CNT | WH_XCACHE_HIT_CNT | WH_XCACHE_MISS_CNT | WH_XCACHE_MISMATCH_CNT
  | WH_LOAD_CNT | WH_LOAD_FAIL_CNT | WH_RESTART_CNT | CL_MASK_CNT | CL_GRAM_STEP_CNT | CL_DEAD_END_CNT
  | CL_LOAD_CNT | CL_LOAD_FAIL_CNT | CL_RESTART_CNT | BT_GEN_OPEN_CNT | BT_STEP_CNT | BT_DRAW_CNT
  | BT_COMMIT_TOKEN_CNT | BT_ACCEPT_ROW_CNT | BT_WALK_WINDOW_STOP_CNT | BT_CANCEL_BEFORE_CNT | BT_CANCEL_AFTER_CNT
  | BT_CANCEL_LATE_CNT | BT_CANCEL_IDLE_CNT | BT_NONFINITE_CNT | BT_DEGENERATE_CNT | BT_RESTART_CNT | AD_LOAD_CNT
  | AD_LOAD_REFUSED_CNT | AD_LOAD_FAIL_CNT | AD_RUN_CNT | AD_RUN_FAIL_CNT | AD_PREEMPT_CNT | AD_RESUME_CNT
  | AD_PREEMPT_MAX_NS | AD_WEIGHT_TILE_CNT | AD_WEIGHT_TAG_FAIL_CNT | AD_DRAFT_CNT | AD_DRAFT_LATE_CNT
  | AD_DRAFT_MIXED_CNT | AD_RESTART_CNT | AD_ORDER_MISS_CNT | SK_SEARCH_CNT | SK_QUERY_CNT | SK_EVAL_CNT
  | SK_EXHAUSTIVE_CNT | SK_EVAL_LIMIT_CNT | SK_SHORT_CNT | SK_WIDEN_CNT | SK_FILTER_TEST_CNT
  | SK_FILTER_REJECT_CNT | SK_SHARD_SENT_CNT | SK_SHARD_MISSING_CNT | SK_SHARD_LATE_CNT | SK_BAD_EDGE_CNT
  | SK_NONFINITE_CNT | SK_OPEN_CNT | SK_OPEN_FAIL_CNT | SK_INDEX_WRITE_CNT | SK_POISON_CNT | SK_RESTART_CNT
  | CP_ADMIT_GREEN_CNT | CP_ADMIT_YELLOW_CNT | CP_UNMETERED_CNT | CP_REFUSE_CNT | CP_DEFERRED_CNT
  | CP_YELLOW_TIMEOUT_CNT | CP_GATE_HOLD_CNT | CP_SHAPE_HOLD_CNT | CP_PREEMPT_REQ_CNT | CP_CHARGE_SUM
  | CP_QUEUE_CANCEL_CNT | CP_WHEEL_LATE_CNT | PM_EPOCH_DROP_CNT | PM_INST_RESET_CNT | PM_FENCE_CNT | PM_SUBST_CNT
  | HW_LAY_APPLY_CNT | HW_LAY_REFUSE_CNT | HW_PART_TEARDOWN_CNT | HM_CH_SPARE_CNT | HP_RX_BYTES | HP_TX_BYTES
  | HP_DOORBELL_CNT | HP_OVERRUN_CNT | HP_DEFER_SKIP_CNT | HP_RECORD_DROP_CNT | HP_DMA_FAIL_CNT | HP_SEAL_FAIL_CNT
  | HP_SEAL_REPLAY_CNT | HP_ROCE_RX_PKT_CNT | HP_ROCE_NAK_CNT | HP_CNP_TX_CNT | HP_ETH_DROP_CNT | FP_RX_BYTES
  | FP_TX_BYTES | FP_POISON_CNT | FP_LINK_DOWN_CNT | HF_RD_CNT | HF_ST_CNT | HF_AT_CNT | HF_MSG_CNT | HF_IN_RD_CNT
  | HF_IN_ST_CNT | HF_IN_AT_CNT | HF_RD_BYTES | HF_ST_BYTES | HF_FWD_PKT_CNT | HF_E2E_TMO_CNT | HF_AGE_DROP_CNT
  | HF_IN_REFUSED_CNT | HF_ESCAPE_MOVE_CNT | HF_ROUTE_HOLD_CNT | HF_LK_TRAIN_FAIL_CNT | HF_LK_WIDTH_CHG_CNT
  | HF_LK_DOWN_CNT | HF_LK_CRC_FAIL_CNT | HF_LK_FEC_UNCORR_CNT | HF_TIME_LOSS_CNT | HW_RELEASE_CNT
  | HW_RELEASE_REFUSE_CNT | HW_REVOKE_CNT | HW_SPDM_SESSION_CNT | HW_CMD_CNT | HW_CMD_REFUSE_CNT
  | HW_CONF_DENIED_CNT | HW_DRBG_RESEED_CNT | HW_RESTART_CNT | CK_START_CNT | CK_COMMIT_CNT | CK_FAIL_CNT
  | CK_WARN_SKIP_CNT | CK_BYTES_WRITTEN | CK_BYTES_READ | CK_SHARD_RETRY_CNT | CK_SHARD_LOST_CNT
  | CK_VERIFY_FAIL_CNT | CK_RESTORE_CNT | CK_GROUP_REBUILT_CNT | CK_GROUP_LOST_CNT | CK_SESSION_LOST_CNT
  | LY_SAMPLE_CNT | LY_TRIP_CNT | LY_WARN_CNT | LY_WAKE_CNT | LY_WATCH_ENTRY_CNT | LY_DEMOTE_REQ_CNT
  | LY_DEMOTE_SKIP_CNT | LY_IN_EVENT_CNT | LY_IN_OVF_CNT | LY_EVT_CNT | LY_EVT_SUPPRESSED_CNT | LY_JOURNAL_CNT
  | LY_FW_ACTIVATE_CNT | LY_FW_REVERT_CNT | PM_START_CNT | PM_FAILED_START_CNT | PM_RECOVERY_CNT
  | PM_CORE_RESET_CNT | PM_ESCALATE_CNT | PM_SYS_RST_N_REJECT_CNT | PM_THROTTLE_US | PM_POWER_CAP_US
  | PM_DOM_ON_CNT | PM_POWER_REQ_REFUSED_CNT
deriving DecidableEq, Repr

/-- What REGISTER_READ names: an offset in register space, or an RS counter by name and index (the spec gives the counters
no offsets). -/
inductive RegSel where
  | off (o : BitVec 26)
  | counter (c : Ct) (i : BitVec 16)
deriving DecidableEq, Repr


/-- The commands, one constructor per row of spec/opcode_table.json. -/
inductive Instr where
  /-- DB_SW_IDX_WRITE (R398). Software writes its owned ring index to the doorbell page; the write is accepted or discarded as an overrun. -/
  | dbSwIdxWrite (q : Req) (r : BitVec 16) (v : W32)
  /-- DESCRIPTOR_FETCH (R399). The ring block fetches the next submitted descriptor once P differs from C and a completion entry can be reserved. -/
  | descriptorFetch (r : BitVec 16)
  /-- SERVER_DISPATCH (R357). When a server can accept an item, WF2Q+ selects a queue head and dispatches it. -/
  | serverDispatch (p : Fin 16) (srv : Fin 18)
  /-- SHAPER_RELEASE (R349). A shaped head item reaches its release time on the calendar wheel and becomes dispatchable. -/
  | shaperRelease (item : Nat)
  /-- GATE_OPENING (R352). A gate opens and work held for it becomes dispatchable. -/
  | gateOpening (p : Fin 16)
  /-- GCL_LIST_SWITCH (R351). At the boundary BASE plus n times CYCLE, the pending gate list replaces the active one. -/
  | gclListSwitch (p : Fin 16)
  /-- DEFERRAL_TIMER (R359). An undispatched item reaches DEFER_US, and one interim DEFERRED record is written. -/
  | deferralTimer (item : Nat)
  /-- YELLOW_TIMEOUT (R360). An undispatched yellow item reaches YELLOW_MAX_US and is withdrawn with its charge returned. -/
  | yellowTimeout (item : Nat)
  /-- BUDGET_REFILL (R344). An account refill event fires and raises the balance toward CAP. -/
  | budgetRefill (a : BitVec 16)
  /-- PREEMPT_WAIT_EXPIRY (R362). A green item has waited PREEMPT_WAIT_NS, and Capstan requests preemption of lower-level work. -/
  | preemptWaitExpiry (item : Nat) (srv : Fin 18)
  /-- ACCOUNT_CREDIT (R344). A write of CP_ACCT_CREDIT adds a signed value to the balance at once. -/
  | accountCredit (q : Req) (hi : W32)
  /-- REFILL_PERIOD_WRITE (R344). Enabling the budget, or writing REFILL_MS, restarts the refill phase. -/
  | refillPeriodWrite (q : Req) (period : Bool) (v : W32)
  /-- METER_CONFIG_WRITE (R347). A write to CIR, CBS, PIR or PBS clips the buckets to the new sizes. -/
  | meterConfigWrite (q : Req) (w : Fin 4) (v : W32)
  /-- METER_PLACEMENT_WRITE (R345). A write of METER_BASE or CLASS_MASK is accepted, or discarded if it leaves the partition's range. -/
  | meterPlacementWrite (q : Req) (base : Bool) (v : W32)
  /-- RING_CLASS_BIND (R335). A write of CP_RING_CFG binds a ring to a class and account, or is discarded across partitions. -/
  | ringClassBind (q : Req) (r : BitVec 16) (v : W32)
  /-- GCL_COMMIT (R351). COMMIT copies the staged gate list to pending if its durations sum to CYCLE. -/
  | gclCommit (q : Req) (p : Fin 16) (v : W32)
  /-- RING_ENABLE (R402). ENABLE written 1 enables a ring with both indices set to 0, or is refused for a misaligned base. -/
  | ringEnable (q : Req) (r : BitVec 16) (v : W32)
  /-- RING_DRAIN (R402). DRAIN puts a ring in DRAINING, and later producer writes are discarded. -/
  | ringDrain (q : Req) (r : BitVec 16)
  /-- RING_ABORT (R402). ABORT, or ENABLE written 0 without DRAIN, disables a ring and fails its unfetched and undispatched work. -/
  | ringAbort (q : Req) (r : BitVec 16)
  /-- MSIX_COALESCE_TIMER (R403). TIME_US passes after the first unsignalled entry, and an MSI-X interrupt is sent. -/
  | msixCoalesceTimer (r : BitVec 16)
  /-- FLR (R396). A function-level reset aborts every ring of the function within 100 ms. -/
  | flr (f : BitVec 7)
  /-- HOST_LINK_DOWN (R396). A hot reset or link down raises the host-port epoch and fails outstanding device requests with TARGET_RESET. -/
  | hostLinkDown
  /-- PERST_N_ASSERT (R396). PERST_N either acts as a host-port reset or, when bound, causes a system reset. -/
  | perstNAssert
  /-- HOST_PORT_ACCESS (R394). A TLP through BAR 0 or BAR 2 is checked under R35 and performed, or refused with a normal completion. -/
  | hostPortAccess (f : BitVec 7) (bar : Bar) (off : W64) (len : Nat) (wr : Option (List Byte))
  /-- HOST_DMA_COMPLETION_ERROR (R406). A device request to a host address receives UR, CA or poisoned data and fails its command. -/
  | hostDmaCompletionError (id : Nat) (poison : Bool)
  /-- HOST_DMA_TIMEOUT (R406). A device request to the host receives no completion within HP_CPL_TMO. -/
  | hostDmaTimeout (id : Nat)
  /-- RDMA_WRITE (R417). A RoCEv2 RDMA WRITE is checked against its region, key and access table, and performed. -/
  | rdmaWrite (qp : BitVec 12) (psn : BitVec 24) (rkey : W32) (va : W64) (data : List Byte) (ecn : Bool)
  /-- RDMA_WRITE_IMM (R417). A WRITE with Immediate is performed, and its immediate is applied as the ring's new producer index. -/
  | rdmaWriteImm (qp : BitVec 12) (psn : BitVec 24) (rkey : W32) (va : W64) (data : List Byte) (imm : W32) (ecn : Bool)
  /-- RDMA_READ (R415). A RoCEv2 RDMA READ request is checked and answered with read data. -/
  | rdmaRead (qp : BitVec 12) (psn : BitVec 24) (rkey : W32) (va : W64) (len : Nat) (ecn : Bool)
  /-- ROCE_UNSUPPORTED_OP (R418). SEND, an atomic or another unsupported opcode is NAKed and puts the QP in ERROR. -/
  | roceUnsupportedOp (qp : BitVec 12) (psn : BitVec 24) (ecn : Bool)
  /-- ARP_REQUEST (R414). The Ethernet port answers ARP or IPv6 neighbour solicitation for its own addresses. -/
  | arpRequest (n : Fin 2) (v6 : Bool) (addr : BitVec 128)
  /-- QP_LOAD (R416). LOAD in HP_QP_CMD copies a QP context into the device, or leaves the QP in ERROR. -/
  | qpLoad (q : Req) (qp : BitVec 12)
  /-- QP_RESET (R424). RESET in HP_QP_CMD returns the QP to RESET. -/
  | qpReset (q : Req) (qp : BitVec 12)
  /-- FP_SUBPORT_TRAIN (R421). A far-port sub-port trains, and the device enumerates and programs its Type 3 device. -/
  | fpSubportTrain (n : Fin 4) (dvsec : Bool) (active : Bool) (decoder : Bool) (pages : Nat) (speed : BitVec 2) (width : BitVec 5)
  /-- MEM_ACTIVE_TIMEOUT (R421). Memory_Active does not come within FP_MEM_ACTIVE_TMO, and ENUM_FAILED is set. -/
  | memActiveTimeout (n : Fin 4)
  /-- FAR_PORT_LINK_LOSS (R422). Data Link Layer Link Active clears on a sub-port and starts the surprise-removal sequence. -/
  | farPortLinkLoss (n : Fin 4)
  /-- FAR_PORT_PRESENCE_CHANGE (R422). A filtered FP_PRSNT_N change starts the surprise-removal sequence. -/
  | farPortPresenceChange (n : Fin 4) (present : Bool)
  /-- FP_RP_CFG_READ (R426). READ in FP_RP_CFG_CTL issues a downstream configuration read. -/
  | fpRpCfgRead (q : Req) (a : Answer) (v : W32)
  /-- FP_RP_CFG_WRITE (R426). WRITE in FP_RP_CFG_CTL issues a downstream configuration write. -/
  | fpRpCfgWrite (q : Req) (a : Answer)
  /-- DOWNSTREAM_REQUEST (R423). A root-port downstream request to the device window is admitted as master 0x91 and checked. -/
  | downstreamRequest (off : W64) (len : Nat) (wr : Option (List Byte))
  /-- CREATE (R83). CREATE allocates a FREE slot and writes its descriptor from the policy record. -/
  | create (r : BitVec 16) (d : BitVec 512)
  /-- FORK_FROM_NODE (R175). FORK takes references on a prefix-tree path into a new session. -/
  | forkFromNode (r : BitVec 16) (d : BitVec 512)
  /-- FORK_FROM_SESSION (R88). FORK with SRC_SESSION shares the parent's full blocks and copies its tail block. -/
  | forkFromSession (r : BitVec 16) (d : BitVec 512)
  /-- PARK (R83). PARK moves a session to T1 parked state or starts a move to a colder tier. -/
  | park (r : BitVec 16) (d : BitVec 512)
  /-- REVIVE (R83). REVIVE activates a hot session or starts a move into T1. -/
  | revive (r : BitVec 16) (d : BitVec 512)
  /-- MIGRATE (R94). MIGRATE starts copying a session to a slot reserved by a destination Hitch. -/
  | migrate (r : BitVec 16) (d : BitVec 512)
  /-- MIGRATE_FORCE_ADOPT (R95). MIGRATE with FORCE_ADOPT makes the destination adopt a held copy whose source is unreachable. -/
  | migrateForceAdopt (r : BitVec 16) (d : BitVec 512)
  /-- FREE (R83). FREE releases a session's pages and references and advances its generation. -/
  | free (r : BitVec 16) (d : BitVec 512)
  /-- QUERY (R92). QUERY writes a report of the slot as of its last commit. -/
  | query (r : BitVec 16) (d : BitVec 512)
  /-- HITCH_FAILOVER (R101). FAILOVER makes the standby Hitch take over and complete the journal. -/
  | hitchFailover (q : Req)
  /-- HITCH_HEARTBEAT_MISS (R101). The standby misses the heartbeat for 2 µs, or the active watchdog expires, and the standby takes over. -/
  | hitchHeartbeatMiss
  /-- HITCH_REINSTATE (R103). REINSTATE resets and self-tests the fenced Hitch instance, which then resynchronises as standby. -/
  | hitchReinstate (q : Req) (pass : Bool)
  /-- HITCH_JOURNAL_ACK (R100). The standby acknowledges a journal record, and the active instance applies the commit. -/
  | hitchJournalAck
  /-- HT_RESERVE (R440). A destination Hitch receives a reservation request for a migrating session and reserves a slot. -/
  | htReserve (src tag : BitVec 16) (h : W64) (p : Fin 16) (pages : W32) (pol : W64) (tokens : W32)
  /-- HT_ARRIVED (R94). The destination confirms every block has arrived, and the source releases and journals the release. -/
  | htArrived (src tag : BitVec 16) (h : W64)
  /-- HT_RELEASE (R94). The release notice reaches the destination, which activates its slot. -/
  | htRelease (src tag : BitVec 16) (h dst : W64)
  /-- HT_ASK (R95). The source answers whether a migrated handle's generation has been released. -/
  | htAsk (src tag : BitVec 16) (h : W64)
  /-- MIG_RETRY_TIMER (R95). HT_MIG_RETRY expires at a destination holding a complete copy, and it asks the source again. -/
  | migRetryTimer (slot : BitVec 24)
  /-- MOVE_COMMIT (R83). Every tile of a session move is durably acknowledged, and Hitch commits the move. -/
  | moveCommit (slot : BitVec 24)
  /-- STEP_END (R188). A step ends, its verified rows are spliced, and held commands proceed. -/
  | stepEnd (slot : BitVec 24)
  /-- DEADLINE_EXPIRY (R128). A step's deadline expires, and late blocks take their shadow or the step runs under R89. -/
  | deadlineExpiry (slot : BitVec 24)
  /-- DEMOTION_DUE (R522). The head of an age queue reaches its idle threshold, and Lanyard asks Hitch to demote slots. -/
  | demotionDue (p : Fin 16) (warm : Bool)
  /-- COPY (R122). Splice COPY moves bytes between tiers, sealing anything leaving the package. -/
  | copy (r : BitVec 16) (d : BitVec 512)
  /-- ZERO (R122). Splice ZERO writes LENGTH zero bytes to the destination. -/
  | zero (r : BitVec 16) (d : BitVec 512)
  /-- SWAP_POST (R133). SWAP_POST adds host extents to the partition's swap pool. -/
  | swapPost (r : BitVec 16) (d : BitVec 512)
  /-- SPLICE_TILE_ACK (R124). A destination durably acknowledges a tile write. -/
  | spliceTileAck (x : TileRef) (rd : List Byte)
  /-- T2_WRITE_TIMEOUT (R137). A T2 write's acknowledgement times out or reports an error, and its page is marked TORN. -/
  | t2WriteTimeout (x : TileRef) (error : Bool)
  /-- TORN_SCRUB (R138). Hitch scrubs a TORN page with ZERO and releases it, or retires it after three failures. -/
  | tornScrub (page : Nat) (ok : Bool)
  /-- T2_EVICT (R138). EVICT stops far-port device n accepting and parks its sessions elsewhere. -/
  | t2Evict (q : Req) (n : Fin 4)
  /-- T2_EVICT_DONE (R138). The device holds nothing authoritative, REMOVING clears, and T2_EVICTED is posted. -/
  | t2EvictDone (n : Fin 4)
  /-- T2_ADMIT (R140). ADMIT frees every page descriptor of a far-port device and builds its free lists. -/
  | t2Admit (q : Req) (n : Fin 4)
  /-- SURPRISE_WALK_END (R139). The page-descriptor walk of a lost device ends, WALKING clears, and held commands proceed. -/
  | surpriseWalkEnd (n : Fin 4)
  /-- PERSIST_ACK (R134). The runtime writes PERSIST_ID to SP_PART_PERSIST_ACK, and the T5 move commits. -/
  | persistAck (q : Req) (p : Fin 16) (id : W64)
  /-- PERSIST_TIMEOUT (R134). No persistence acknowledgement comes within SP_PART_PERSIST_TMO, and the move is abandoned. -/
  | persistTimeout (slot : BitVec 24)
  /-- SPILL_AREA_LOW (R202). Billet spill free space falls below LG_SPILL_LOW, and Splice moves the oldest records to T1. -/
  | spillAreaLow (p : Fin 16)
  /-- LOOKUP (R173). LOOKUP returns the longest verified prefix path and sets LAST_USE on it. -/
  | lookup (r : BitVec 16) (d : BitVec 512)
  /-- PUBLISH (R174). PUBLISH adds a session's first chunks to the prefix tree, adopting or inserting nodes. -/
  | publish (r : BitVec 16) (d : BitVec 512)
  /-- DROP (R178). DROP dooms a node and every node below it. -/
  | drop (r : BitVec 16) (d : BitVec 512)
  /-- PFX_REKEY (R178). A write of HT_PFX_REKEY regenerates a share group's key and dooms its nodes. -/
  | pfxRekey (q : Req) (v : W32)
  /-- ATTEND (R182). An attention request stages new K/V and folds the session's KV for its query rows. -/
  | attend (r : BitVec 16) (d : BitVec 512)
  /-- ATTEND_OUTPUT_ACK (R184). Every output byte is acknowledged at OUT, and the completion record is written. -/
  | attendOutputAck (r : BitVec 16) (d : BitVec 512)
  /-- FILL (R224). A FILL descriptor runs one layer pass of a Spindle ring fill by rotation. -/
  | fill (r : BitVec 16) (d : BitVec 512)
  /-- FILL_COMMIT (R226). Every rank reports DONE for its final request, and the fill commits TOKENS at the home. -/
  | fillCommit (c : Fin 8)
  /-- LATHE_PREEMPT (R201). A preemption request makes Lathe engines finish begun folds and spill lane state. -/
  | lathePreempt (g : Fin 16) (ns : Nat)
  /-- LATHE_RESUME (R204). An engine is granted to a preempted request, which resumes from its spill records. -/
  | latheResume (r : BitVec 16) (d : BitVec 512)
  /-- SPN_ARM (R218). ARM starts ring formation checks and the digest exchange. -/
  | spnArm (q : Req) (c : Fin 8)
  /-- SPN_DISARM (R219). DISARM refuses new work and takes the ring context DOWN once admitted work finishes. -/
  | spnDisarm (q : Req) (c : Fin 8)
  /-- SPN_ABORT (R219). ABORT takes the ring context DOWN at once. -/
  | spnAbort (q : Req) (c : Fin 8)
  /-- SPN_DIGEST (R218). A neighbour's ring digest arrives, and the context goes UP when both neighbours agree. -/
  | spnDigest (src tag ringId : BitVec 16) (dg : W64)
  /-- SPN_FORM_TIMEOUT (R219). LG_SPN_FORM_TMO expires during formation, and the context goes DOWN. -/
  | spnFormTimeout (c : Fin 8)
  /-- SPN_NEIGHBOUR_SILENT (R219). A neighbour stays silent for 20 µs, and the ring goes DOWN. -/
  | spnNeighbourSilent (c : Fin 8) (pred : Bool)
  /-- SPN_STALL_TIMEOUT (R228). A ring request makes no progress for LG_SPN_STALL_TMO and completes FAULT_CONTEXT. -/
  | spnStallTimeout (c : Fin 8)
  /-- SPN_GATE_BOUNDARY (R225). At a gate boundary, a rank sends a held shard to its successor or counts a slip. -/
  | spnGateBoundary (c : Fin 8)
  /-- SPN_WORK (R221). A rank receives queries from the home and computes its shard states. -/
  | spnWork (src tag ringId layer step : BitVec 16) (d : BitVec 512) (tok : W32) (q : List Byte) (par : List Nat) (k v : List Byte)
  /-- SPN_STATE (R221). A rank receives a child's subtree state and combines it toward the home. -/
  | spnState (src tag ringId layer step rank fl : BitVec 16) (data : List Byte)
  /-- SPN_CTL_COMMIT (R222). The tail rank is notified of commit, splices verified rows and acknowledges. -/
  | spnCtlCommit (src tag ringId step : BitVec 16) (tok : W32) (rows : List Nat)
  /-- SPN_CTL_CANCEL (R223). A rank receives a forwarded cancel and abandons its slices within 2 µs. -/
  | spnCtlCancel (src tag ringId step : BitVec 16)
  /-- SPN_CTL_DOWN (R219). A neighbour reports DOWN, and the context goes DOWN and reports onward. -/
  | spnCtlDown (src tag ringId : BitVec 16)
  /-- TOKENIZE (R244). TOKENIZE segments UTF-8 text into token IDs by the lattice order. -/
  | tokenize (r : BitVec 16) (d : BitVec 512)
  /-- DETOKENIZE (R247). DETOKENIZE turns token IDs into bytes through the stream record. -/
  | detokenize (r : BitVec 16) (d : BitVec 512)
  /-- VOCAB_LOAD (R235). VOCAB_LOAD copies a vocabulary image to each die and checks and indexes it. -/
  | vocabLoad (r : BitVec 16) (d : BitVec 512)
  /-- VOCAB_LOAD_DONE (R235). Every copy is checked and indexed, the slot goes READY, and Heartwood records the digest. -/
  | vocabLoadDone (x : ImgRef)
  /-- VOCAB_UNLOAD (R235). VOCAB_UNLOAD puts a slot in DRAINING and refuses new requests naming it. -/
  | vocabUnload (r : BitVec 16) (d : BitVec 512)
  /-- STREAM_CHUNK_ACK (R252). A text chunk is acknowledged, and Whittle advances the stream record. -/
  | streamChunkAck (slot : BitVec 24)
  /-- GEN_OPEN (R254). GEN_OPEN starts a generation with a copied sampling record. -/
  | genOpen (r : BitVec 16) (d : BitVec 512)
  /-- SAMPLE (R274). SAMPLE walks the step's tree, drawing tokens from each row's logits. -/
  | sample (r : BitVec 16) (d : BitVec 512)
  /-- COMMIT_POINT (R277). Bight writes the step's token record once LAST is done and the ring has room, committing and billing tokens. -/
  | commitPoint (slot : BitVec 24)
  /-- CANCEL (R280). A CANCEL descriptor sets the generation's cancel bit and completes DONE. -/
  | cancel (r : BitVec 16) (d : BitVec 512)
  /-- BT_CANCEL_WRITE (R280). A write of BT_CANCEL_HI sets the cancel bit of the handle's generation. -/
  | btCancelWrite (q : Req) (p : Fin 16) (lo : Option W32) (hi : W32)
  /-- GRAM_LOAD (R261). GRAM_LOAD copies a grammar image to each die of the partition. -/
  | gramLoad (r : BitVec 16) (d : BitVec 512)
  /-- GRAM_UNLOAD (R261). GRAM_UNLOAD drains a grammar slot once its open generations end. -/
  | gramUnload (r : BitVec 16) (d : BitVec 512)
  /-- LOAD (R298). LOAD checks, copies, decrypts and admits a program container into a slot. -/
  | load (r : BitVec 16) (d : BitVec 512)
  /-- UNLOAD (R303). UNLOAD releases a program's pages, carve-out and rings after its last RUN. -/
  | unload (r : BitVec 16) (d : BitVec 512)
  /-- RUN (R304). RUN runs a program's stages on one replica and writes its outputs. -/
  | run (r : BitVec 16) (d : BitVec 512)
  /-- DRAFT_RUN (R309). RUN with DRAFT proposes a candidate tree for a session's step. -/
  | draftRun (r : BitVec 16) (d : BitVec 512)
  /-- DRAFT_TILE_LATE (R311). A pending staged tile passes its deadline, and the draft completes with NO_SPECULATION. -/
  | draftTileLate (r : BitVec 16) (d : BitVec 512)
  /-- ADZE_PREEMPT (R308). Adze engines run to the next declared boundary, spill and release. -/
  | adzePreempt (r : BitVec 16) (d : BitVec 512) (ns : Nat)
  /-- ADZE_RESUME (R306). Engines are granted on the same replica, and a preempted RUN resumes. -/
  | adzeResume (r : BitVec 16) (d : BitVec 512)
  /-- SEARCH (R323). SEARCH runs the graph traversal for each query and writes results. -/
  | search (r : BitVec 16) (d : BitVec 512)
  /-- SEARCH_EXHAUSTIVE (R325). SEARCH with EXHAUSTIVE evaluates every node and returns the exact first K. -/
  | searchExhaustive (r : BitVec 16) (d : BitVec 512)
  /-- SEARCH_SHARDED (R329). SEARCH with SHARDED sends the search to each shard and merges the answers. -/
  | searchSharded (r : BitVec 16) (d : BitVec 512)
  /-- SHARD_ANSWER (R329). A shard's completion arrives at the answer ring, and the home reads its blocks. -/
  | shardAnswer (p : Fin 16) (serial : BitVec 16) (shard : Fin 64) (st : BitVec 8) (blocks : Option (List Byte))
  /-- SHARD_TIMEOUT (R329). SHARD_TMO_US passes, and the home merges without the missing shards. -/
  | shardTimeout (p : Fin 16) (serial : BitVec 16)
  /-- SHARD_HOLD_EXPIRY (R329). A remote releases its held result blocks after SK_PART_HOLD_US. -/
  | shardHoldExpiry (p : Fin 16) (serial : BitVec 16)
  /-- INDEX_OPEN (R316). INDEX_OPEN checks index copies on each die and makes the slot READY. -/
  | indexOpen (r : BitVec 16) (d : BitVec 512)
  /-- INDEX_CLOSE (R317). INDEX_CLOSE closes a slot once every search naming it is done. -/
  | indexClose (r : BitVec 16) (d : BitVec 512)
  /-- ENGINE_ENABLE (R386). ENABLE written to an engine enables it, or aborts it when written 0. -/
  | engineEnable (q : Req) (b : EngKind) (e : BitVec 9) (v : Bool)
  /-- ENGINE_DRAIN (R386). DRAIN stops an engine taking new work while in-flight work finishes. -/
  | engineDrain (q : Req) (b : EngKind) (e : BitVec 9)
  /-- ENGINE_ABORT (R386). ABORT fails an engine's queued and in-flight work and disables it. -/
  | engineAbort (q : Req) (b : EngKind) (e : BitVec 9)
  /-- UNIT_DRAIN_WRITE (R587). A unit's DRAIN bit is written, and new work for the unit is refused or again accepted. -/
  | unitDrainWrite (q : Req) (u : DrainUnit) (v : Bool)
  /-- REGISTER_PARITY_FAULT (R40). A register fails its parity check, and the owning unit is fenced. -/
  | registerParityFault (off : BitVec 26) (inj : Option (Fin 64))
  /-- DETECTED_FAULT (R376). A detector reports a datapath or uncorrectable error, which tears down its smallest scope. -/
  | detectedFault (x : Struck) (inj : Option (Fin 64))
  /-- ENGINE_FENCE (R378). A faulted engine is fenced, its epoch raised, and its work restarted or failed. -/
  | engineFence (b : EngKind) (e : BitVec 9)
  /-- PM_INST_RESET (R380). A write of PM_INST_RESET resets one fenced instance and starts its self-test. -/
  | pmInstReset (q : Req) (block : BitVec 8) (inst : BitVec 12)
  /-- INST_SELFTEST_DONE (R380). An instance's self-test ends; it goes DISABLED on a pass or is retired on a fail. -/
  | instSelftestDone (pass : Bool)
  /-- HM_SPARE (R381). SPARE in HM_SPARE_CMD starts copying a channel to a spare channel. -/
  | hmSpare (q : Req) (t : BitVec 8)
  /-- SPARE_COPY_DONE (R381). The sparing copy ends, and the spare takes the channel's index. -/
  | spareCopyDone (t : BitVec 8) (readable : Bool) (bad : List (BitVec 25))
  /-- PATROL_SCRUB_PERIOD (R142). A patrol-scrub period elapses, and the stack is scrubbed again. -/
  | patrolScrubPeriod (n : Fin 8)
  /-- RESPONSE_TIMEOUT (R384). PM_RSP_TMO passes for a response owed to a unit under an earlier epoch. -/
  | responseTimeout (b : Fin 21)
  /-- AX_COMMIT (R57). COMMIT raises a target's epoch and makes its staged entries active. -/
  | axCommit (q : Req) (t : BitVec 9)
  /-- AX_RESTAGE (R56). RESTAGE copies a target's active entries back to its stage. -/
  | axRestage (q : Req) (t : BitVec 9)
  /-- LAY_APPLY (R371). APPLY runs a per-partition lay application from host memory. -/
  | layApply (q : Req) (p : Fin 16) (img : LayImg)
  /-- PART_TEARDOWN (R377). TEARDOWN in HW_PART_CTL tears down a partition. -/
  | partTeardown (q : Req) (p : Fin 16)
  /-- PART_DRAIN (R389). DRAIN in HW_PART_CTL limits a partition to unmetered work, MIGRATE and cold PARK. -/
  | partDrain (q : Req) (p : Fin 16) (v : Bool)
  /-- INJ_ARM (R70). ARM arms an injection slot while injection is authorised. -/
  | injArm (q : Req) (k : Fin 64)
  /-- INJ_DISARM (R70). DISARM disarms an injection slot. -/
  | injDisarm (q : Req) (k : Fin 64)
  /-- INJ_EXPIRY (R484). Span time reaches EXPIRY or 86,400 s elapse, ACTIVE falls, and every slot disarms. -/
  | injExpiry
  /-- SNAP_CAPTURE (R43). CAPTURE in XX_SNAP copies a unit's counters into the caller's bank. -/
  | snapCapture (q : Req) (b : Fin 21)
  /-- PM_SNAP_ALL (R43). A write of PM_SNAP_ALL arms a device-wide capture at span time T. -/
  | pmSnapAll (q : Req)
  /-- SNAP_ALL_CAPTURE (R43). Span time reaches T, and each unit captures its counters. -/
  | snapAllCapture
  /-- HW_ACTIVATE (R467). ACTIVATE restarts Heartwood alone from the named firmware slot. -/
  | hwActivate (q : Req) (slot : Bool)
  /-- HW_CMD_ENROL (R482). A signed ENROL installs a key in an operator key-store slot. -/
  | hwCmdEnrol (q : Req) (sig : Bool)
  /-- HW_CMD_FRESH_ENROL (R480). An unsigned ENROL from PF0 enrols slot 0 in a fresh store. -/
  | hwCmdFreshEnrol (q : Req)
  /-- HW_CMD_REMOVE (R482). A signed REMOVE empties an operator key-store slot. -/
  | hwCmdRemove (q : Req) (sig : Bool)
  /-- INJ_AUTHORISE (R484). A signed INJ_AUTHORISE sets INJ_AUTH_STAT.ACTIVE until its expiry. -/
  | injAuthorise (q : Req) (sig : Bool)
  /-- INJ_REVOKE (R484). A signed INJ_REVOKE ends injection authorisation. -/
  | injRevoke (q : Req) (sig : Bool)
  /-- HEARTWOOD_WATCHDOG (R468). Heartwood's firmware watchdog expires and causes a system reset. -/
  | heartwoodWatchdog
  /-- GET_VERSION (R471). SPDM GET_VERSION is answered. -/
  | getVersion (v : Via)
  /-- GET_CAPABILITIES (R471). SPDM GET_CAPABILITIES is answered. -/
  | getCapabilities (v : Via)
  /-- NEGOTIATE_ALGORITHMS (R471). SPDM NEGOTIATE_ALGORITHMS is answered. -/
  | negotiateAlgorithms (v : Via) (offered : Bool)
  /-- GET_DIGESTS (R471). SPDM GET_DIGESTS returns the certificate chain digest. -/
  | getDigests (v : Via)
  /-- GET_CERTIFICATE (R466). SPDM GET_CERTIFICATE returns the slot 0 chain. -/
  | getCertificate (v : Via) (slot : BitVec 4) (off len : W16) (buf : Nat)
  /-- CHALLENGE (R471). SPDM CHALLENGE is answered with an Alias-key signature. -/
  | challenge (v : Via) (slot : BitVec 4) (nonce : BitVec 256)
  /-- GET_MEASUREMENTS (R469). Signed GET_MEASUREMENTS returns the measurement blocks. -/
  | getMeasurements (v : Via) (idx : Option (BitVec 8)) (nonce : BitVec 256) (buf : Nat)
  /-- KEY_EXCHANGE (R471). SPDM KEY_EXCHANGE starts a session, mutually authenticated if asked. -/
  | keyExchange (v : Via)
  /-- FINISH (R471). SPDM FINISH completes session establishment. -/
  | finish (v : Via) (sid : W32) (ok : Bool) (leaf : Option (BitVec 768))
  /-- HEARTBEAT (R471). SPDM HEARTBEAT keeps a session alive. -/
  | heartbeat (v : Via) (sid : W32)
  /-- KEY_UPDATE (R471). SPDM KEY_UPDATE updates a session's keys. -/
  | keyUpdate (v : Via) (sid : W32)
  /-- END_SESSION (R471). SPDM END_SESSION closes a session. -/
  | endSession (v : Via) (sid : W32)
  /-- CHUNK_SEND (R471). SPDM CHUNK_SEND carries a chunk of a large request. -/
  | chunkSend (v : Via) (data : List Byte) (last : Bool)
  /-- CHUNK_GET (R471). SPDM CHUNK_GET returns a chunk of a large response. -/
  | chunkGet (v : Via) (n : Nat)
  /-- KEY_RELEASE (R473). A broker's KEY_RELEASE is checked against the owner and log and installs a key. -/
  | keyRelease (v : Via) (sid : W32) (r : List Byte) (key : Option (BitVec 256))
  /-- KEY_REVOKE (R474). The owner's KEY_REVOKE destroys a key and drains slots loaded under it. -/
  | keyRevoke (v : Via) (sid : W32) (r : List Byte)
  /-- GET_PART_LOG (R470). GET_PART_LOG returns the held records of a partition log. -/
  | getPartLog (v : Via) (sid : W32) (r : List Byte)
  /-- FILTER_SAMPLE (R512). A filter's sample period expires, and it reads its source and updates its output. -/
  | filterSample (f : Fin 64) (x : BitVec 32)
  /-- FILTER_CFG_WRITE (R513). A write of LY_FLT_CFG reseeds the filter and takes a new baseline. -/
  | filterCfgWrite (q : Req) (f : Fin 64) (v : W32)
  /-- TELEMETRY_CAPTURE (R532). Every LY_TELE_PERIOD_MS, Lanyard writes a telemetry record. -/
  | telemetryCapture (power : W32)
  /-- WAKE_AT_EXPIRY (R519). LY_WAKE_AT for a partition expires, and its groups wake. -/
  | wakeAtExpiry (p : Fin 16)
  /-- DOORBELL_SAMPLE (R519). Every 500 ns, Lanyard samples summary bits and wakes sleeping groups with pending work. -/
  | doorbellSample
  /-- GROUP_IDLE_EXPIRY (R516). A group idle for LY_WATCH_IDLE_US starts draining its engines to sleep. -/
  | groupIdleExpiry (g : Fin 16)
  /-- GROUP_DRAINS_COMPLETE (R516). A sleeping group's drains complete, idleness is retested, and domains power off. -/
  | groupDrainsComplete (g : Fin 16)
  /-- WATCH_MODE_ENTRY (R518). All groups sleep and HBM is untouched for the idle time, so the device enters watch mode. -/
  | watchModeEntry
  /-- DOMAIN_READY (R520). A woken domain becomes ready, and Lanyard re-enables its drained engines. -/
  | domainReady (k : Fin 48)
  /-- GPIO_INPUT_CHANGE (R524). A conditioned GPIO input changes debounced level and raises an event. -/
  | gpioInputChange (n : Fin 24) (level : Bool)
  /-- INPUT_STUCK (R524). An input stays active for STUCK_MS and is masked. -/
  | inputStuck (n : Fin 24)
  /-- RATE_WINDOW_END (R524). A 100 ms rate window ends, and coalesced events are logged as INPUT_RATE_LIMITED. -/
  | rateWindowEnd
  /-- PIN_CFG_WRITE (R525). A write of LY_PIN_CFG switches a pin's function through its fuse state. -/
  | pinCfgWrite (q : Req) (n : Fin 24) (v : W32)
  /-- LY_FW_ACTIVATE (R533). FW_ACTIVATE moves both Lanyard cores to the new code bank. -/
  | lyFwActivate (q : Req)
  /-- LY_FW_REVERTED (R534). New Lanyard firmware fails its self-check within 10 s, and the cores revert. -/
  | lyFwReverted
  /-- LANYARD_WATCHDOG (R509). A Lanyard core watchdog expires and causes a system reset. -/
  | lanyardWatchdog (core : Fin 2)
  /-- LOG_SUPPRESSED (R529). Each second, a block over its log rate gets one LOG_SUPPRESSED entry. -/
  | logSuppressed
  /-- PLDM_DISCOVERY (R527). A PLDM base discovery command is answered. -/
  | pldmDiscovery (v : Via) (sid : Option W32)
  /-- PLDM_SENSOR_READ (R527). A PLDM platform command reads filter outputs, temperatures or power. -/
  | pldmSensorRead (v : Via) (sid : Option W32) (x : LySensor)
  /-- PLDM_EVENT_LOG_READ (R527). A PLDM platform command reads the event log in a management session. -/
  | pldmEventLogRead (v : Via) (sid : Option W32) (seq : W32)
  /-- PLDM_FRU_READ (R527). A PLDM FRU command returns unique ID, stepping and ordering code. -/
  | pldmFruRead (v : Via) (sid : Option W32)
  /-- PLDM_FW_STAGE (R533). PLDM firmware update stages an image into flash. -/
  | pldmFwStage (v : Via) (sid : Option W32) (f : FwImg)
  /-- PLDM_OEM_RESET (R527). An Efdanu OEM command requests a reset. -/
  | pldmOemReset (v : Via) (sid : Option W32)
  /-- PLDM_OEM_FLASH_WRITE (R557). An Efdanu OEM command writes boot flash. -/
  | pldmOemFlashWrite (v : Via) (sid : Option W32) (erase : Bool) (chip : Bool) (off : BitVec 24) (len : Nat) (data : List Byte) (c : FlashChip)
  /-- PLDM_OEM_SIGNED_CMD (R481). An Efdanu OEM command carries a signed command to Heartwood. -/
  | pldmOemSignedCmd (v : Via) (sid : Option W32) (op : BitVec 8) (c : List Byte) (sig : Bool)
  /-- MGMT_POWER_OFF (R577). A management power-off drops MAIN_PWR_EN into Lanyard-only standby. -/
  | mgmtPowerOff (v : Via) (sid : Option W32)
  /-- MGMT_POWER_ON (R577). A power-on command leaves standby and starts as after a system reset. -/
  | mgmtPowerOn (v : Via)
  /-- STBY_POWER_LOSS (R537). The standby rail falls or STBY_PWR_OK goes low, causing a power-on reset. -/
  | stbyPowerLoss
  /-- STBY_PWR_OK_RISE (R574). STBY_PWR_OK rises, and step 1 of the release sequence runs. -/
  | stbyPwrOkRise (st : Start)
  /-- MAIN_PWR_OK_RISE (R574). MAIN_PWR_OK rises, and Heartwood is released. -/
  | mainPwrOkRise
  /-- MAIN_PWR_OK_FALL (R576). MAIN_PWR_OK falls, causing a system reset and dropping MAIN_PWR_EN. -/
  | mainPwrOkFall
  /-- MAIN_PWR_TIMEOUT (R575). MAIN_PWR_OK has not risen within 500 ms of MAIN_PWR_EN, and the timeout is logged. -/
  | mainPwrTimeout
  /-- SYS_RST_N_PULSE (R542). A low pulse of 100 ns or longer on SYS_RST_N starts a system reset. -/
  | sysRstNPulse (ns : Nat) (held : Bool)
  /-- SYS_RESET_WRITE (R537). SYS_RESET in PM_BOOT_CTL causes a system reset. -/
  | sysResetWrite (q : Req)
  /-- CORE_RESET_WRITE (R544). CORE_RESET in PM_BOOT_CTL runs a core reset while HBM keeps state. -/
  | coreResetWrite (q : Req)
  /-- SPINE_WATCHDOG (R539). The spine watchdog expires and causes a core reset. -/
  | spineWatchdog
  /-- THERMTRIP (R566). A sensor reaches 125 °C, THERMTRIP_N goes low, and every domain but Lanyard switches off. -/
  | thermtrip
  /-- THERMTRIP_COOLED (R566). Every die sensor reads 95 °C or below, and the held system reset proceeds. -/
  | thermtripCooled
  /-- BOOT_GOOD (R551). BOOT_GOOD clears the failed-start count and records the last good slot. -/
  | bootGood (q : Req)
  /-- RECOVERY_DONE (R553). RECOVERY_DONE sets the pending bit so the next system reset clears the count. -/
  | recoveryDone (q : Req)
  /-- SPINE_ACTIVATE (R558). SPINE_ACTIVATE rolls new spine firmware through Hitch, Splice, Capstan and ring blocks. -/
  | spineActivate (q : Req) (slot : Bool) (fail : Option (Fin 4))
  /-- SERDES_ACTIVATE (R559). SERDES_ACTIVATE loads new SerDes firmware at each link's next training. -/
  | serdesActivate (q : Req) (slot : Bool)
  /-- ETH_RETRAIN (R559). ETH_RETRAIN retrains the Ethernet ports onto new SerDes firmware. -/
  | ethRetrain (q : Req)
  /-- FLASH_ERASE (R557). ERASE in PM_FLASH_CMD erases 64 KiB sectors of boot flash. -/
  | flashErase (q : Req)
  /-- FLASH_PROGRAM (R557). PROGRAM writes erased flash bytes from host memory and verifies each page. -/
  | flashProgram (q : Req) (c : FlashChip)
  /-- FLASH_READ (R557). READ copies boot flash to host memory. -/
  | flashRead (q : Req)
  /-- DOMAIN_REQUEST (R562). A write of PM_DOM_REQ requests a domain off, on or low power under the dependency rules. -/
  | domainRequest (q : Req) (k : Fin 48) (v : BitVec 2)
  /-- THROTTLE_SAMPLE (R564). Every 100 µs, each compute die compares its hottest sensor and adjusts its throttle level. -/
  | throttleSample (d : Fin 4) (c : Int)
  /-- POWER_LIMIT_SAMPLE (R565). Each millisecond, Lanyard compares the power means with the limits and raises or lowers throttling. -/
  | powerLimitSample (m10 m1000 : Nat)
  /-- BYPASS (R580). TAP instruction BYPASS. -/
  | bypass (tdi : List Bool)
  /-- SAMPLE_PRELOAD (R580). TAP instruction SAMPLE/PRELOAD. -/
  | samplePreload (cap tdi : List Bool)
  /-- IDCODE (R580). TAP instruction IDCODE reads the stepping, part and manufacturer code. -/
  | idcode (tdi : List Bool)
  /-- EXTEST (R580). TAP instruction EXTEST on digital and single-ended pins. -/
  | extest (cap tdi : List Bool)
  /-- CLAMP (R580). TAP instruction CLAMP. -/
  | clamp (tdi : List Bool)
  /-- HIGHZ (R580). TAP instruction HIGHZ. -/
  | highz (tdi : List Bool)
  /-- EXTEST_PULSE (R580). TAP instruction EXTEST_PULSE on AC-coupled pairs. -/
  | extestPulse (cap tdi : List Bool)
  /-- EXTEST_TRAIN (R580). TAP instruction EXTEST_TRAIN on AC-coupled pairs. -/
  | extestTrain (cap tdi : List Bool)
  /-- LINK_PACKET_RX (R429). A Harah link packet arrives and is accepted, acknowledged again as a duplicate, or NAKed. -/
  | linkPacketRx (k : Fin 12) (crc : Bool) (kind : Fin 4) (seq ack : BitVec 12) (nak : Bool) (cvc : Fin 8) (credits : BitVec 12)
  /-- REPLAY_TIMEOUT (R430). ACK has not advanced for 4 µs, and the sender replays unacknowledged packets. -/
  | replayTimeout (k : Fin 12)
  /-- NAK_RESEND_TIMER (R429). Every 2 µs, the receiver resends NAK until the expected packet arrives. -/
  | nakResendTimer (k : Fin 12)
  /-- ACK_TIMER (R429). ACK is sent at least every 100 ns while a data packet is unacknowledged. -/
  | ackTimer (k : Fin 12)
  /-- CONTROL_REPEAT_TIMER (R428). An unanswered control message is repeated every 2 µs. -/
  | controlRepeatTimer (k : Fin 12)
  /-- LINK_ENABLE (R431). ENABLE in HF_LK_CTL starts link training, or aborts the link when written 0. -/
  | linkEnable (q : Req) (k : Fin 12) (v : Bool)
  /-- LINK_DRAIN (R431). DRAIN stops routing onto a link while queued packets are sent and acknowledged. -/
  | linkDrain (q : Req) (k : Fin 12)
  /-- LINK_ABORT (R431). ABORT takes a link DISABLED at once. -/
  | linkAbort (q : Req) (k : Fin 12)
  /-- LINK_RETRAIN (R431). RETRAIN retrains a link and keeps sequence state. -/
  | linkRetrain (q : Req) (k : Fin 12)
  /-- TRAINING_DONE (R431). A width of at least MIN_WIDTH is good at both ends, and the link goes UP. -/
  | trainingDone (k : Fin 12) (good : BitVec 4) (theirs : BitVec 4) (x : Peer) (credits : BitVec 12) (rtt : BitVec 16)
  /-- TRAINING_TIMEOUT (R431). Training has not succeeded in 10 ms and is retried. -/
  | trainingTimeout (k : Fin 12)
  /-- LINK_DOWN_TIMEOUT (R431). HF_LK_DOWN_MS passes while retraining, and the link goes DOWN. -/
  | linkDownTimeout (k : Fin 12)
  /-- DOWN_RETRY_TIMER (R431). Every 1 ms, a DOWN link returns to TRAINING. -/
  | downRetryTimer (k : Fin 12)
  /-- LANE_FAILURE (R432). A receive lane fails, and the end sends WIDTH_REQ. -/
  | laneFailure (k : Fin 12) (lost : BitVec 4) (uncorr : BitVec 8)
  /-- WIDTH_REQ (R432). A received WIDTH_REQ negotiates a new link width, with ties decided by ID. -/
  | widthReq (k : Fin 12) (mask : BitVec 4) (dev : Option (BitVec 16)) (uid : BitVec 128) (answer : Bool)
  /-- WIDTH_CHANGE_DONE (R431). The new width comes up, and the link replays from ACK + 1. -/
  | widthChangeDone (k : Fin 12)
  /-- RETRAIN_REQ (R434). A received RETRAIN_REQ starts a retrain and takes precedence over width changes. -/
  | retrainReq (k : Fin 12) (dev : Option (BitVec 16)) (uid : BitVec 128) (answer : Bool)
  /-- ADAPTIVE_ESCAPE_TIMEOUT (R436). A packet waits 1 µs for adaptive credits and moves to the escape VC. -/
  | adaptiveEscapeTimeout (k : Fin 12)
  /-- HARAH_READ (R447). A READ request is checked at its destination and answered with data. -/
  | harahRead (k : Fin 12) (h : HfHdr) (len : Nat)
  /-- HARAH_STORE (R447). A STORE request is checked at its destination, performed and acknowledged. -/
  | harahStore (k : Fin 12) (h : HfHdr) (data : List Byte)
  /-- HARAH_ATOMIC (R448). An ATOMIC operates on a 64-bit word in Billet and returns the old value. -/
  | harahAtomic (k : Fin 12) (h : HfHdr) (aop : BitVec 4) (x cmp : W64)
  /-- HARAH_RING_DATA (R458). A RING_DATA packet places its bytes in the receiver's ring buffer and is acknowledged. -/
  | harahRingData (k : Fin 12) (h : HfHdr) (data : List Byte) (shard : Option ShardEnd)
  /-- HARAH_UNIT_MSG (R447). A UNIT_MSG is checked at target 384 and delivered to its unit. -/
  | harahUnitMsg (k : Fin 12) (h : HfHdr) (m : UnitMsg)
  /-- HARAH_RESPONSE (R438). A response arrives at the originator and completes its request. -/
  | harahResponse (r : HfRsp) (data : List Byte)
  /-- E2E_TIMEOUT (R452). A request has no response within the end-to-end timeout and completes TARGET_RESET. -/
  | e2eTimeout (tag : BitVec 16)
  /-- ROUTE_HOLD_RELEASE (R444). Old-route requests are all answered or timed out, and held ordered requests use the new route. -/
  | routeHoldRelease (d : BitVec 16)
  /-- DISCOVERY_MESSAGE (R441). A discovery or route CTL message is relayed and processed. -/
  | discoveryMessage (k : Fin 12) (m : DiscMsg)
  /-- ROUTE_UPDATE (R443). The marshal installs recomputed route entries on a device. -/
  | routeUpdate (es : List (BitVec 16 × BitVec 16))
  /-- ID_ASSIGN (R445). The marshal assigns a device its ID, which may change it. -/
  | idAssign (id : BitVec 16)
  /-- MARSHAL_SILENCE (R442). The marshal is silent for 10 ms, and the standby takes over. -/
  | marshalSilence
  /-- REDISCOVER (R459). REDISCOVER makes the marshal recompute every route. -/
  | rediscover (q : Req)
  /-- YIELD (R442). YIELD makes the marshal hand over to the standby. -/
  | yieldMarshal (q : Req)
  /-- RESTEP (R455). RESTEP steps span time once more to its source. -/
  | restep (q : Req)
  /-- TIME_SYNC (R454). Every 125 µs, a TIME_SYNC exchange across the parent link measures offset and delay. -/
  | timeSync (k : Fin 12) (t1 : BitVec 80) (rtt : W32)
  /-- PTP_MESSAGE (R454). A PTP message is timestamped and processed by the slave clock. -/
  | ptpMessage (port : Fin 3) (m : PtpMsg)
  /-- PPS_IN_EDGE (R457). A rising edge of PPS_IN is timestamped in span time. -/
  | ppsInEdge
  /-- PPS_OUT_SECOND (R457). At each whole second while LOCKED, PPS_OUT rises for 1 ms. -/
  | ppsOutSecond
  /-- HF_RA_READ (R461). The remote-access mailbox issues a Harah read. -/
  | hfRaRead (q : Req) (p : Fin 16) (size8 : Bool)
  /-- HF_RA_STORE (R461). The remote-access mailbox issues a Harah store. -/
  | hfRaStore (q : Req) (p : Fin 16) (size8 : Bool)
  /-- HF_RA_ATOMIC (R461). The remote-access mailbox issues a Harah atomic. -/
  | hfRaAtomic (q : Req) (p : Fin 16) (aop : BitVec 4)
  /-- HF_RA_FENCE (R451). The remote-access mailbox issues a FENCE, completing when earlier stores are acknowledged. -/
  | hfRaFence (q : Req) (p : Fin 16)
  /-- CK_START (R488). START in CK_CTL begins a checkpoint of a partition. -/
  | ckStart (q : Req) (p : Fin 16) (verify : Bool)
  /-- CK_EVACUATE (R489). START with EVACUATE begins an evacuation that stops the partition's sessions. -/
  | ckEvacuate (q : Req) (p : Fin 16) (verify : Bool)
  /-- CK_RESTORE (R502). RESTORE in CK_CTL checks a manifest and restores sessions group by group. -/
  | ckRestore (q : Req) (p : Fin 16) (man : List Byte) (sig : Bool)
  /-- CK_ABORT (R500). ABORT in CK_CTL abandons a checkpoint or restore. -/
  | ckAbort (q : Req) (p : Fin 16)
  /-- CK_SHARD_DURABLE (R496). A shard write is durably acknowledged. -/
  | ckShardDurable (p : Fin 16) (g : Nat) (k : Fin 10)
  /-- CK_SHARD_FAIL (R496). A shard write fails and is retried once or marked LOST. -/
  | ckShardFail (p : Fin 16) (x : Option (Nat × Fin 10))
  /-- CK_READBACK_DONE (R497). A shard's read-back completes and is checked against its digest. -/
  | ckReadbackDone (p : Fin 16) (g : Nat) (k : Fin 10) (digest : BitVec 384)
  /-- CK_MANIFEST_DURABLE (R499). Every manifest copy is durable, and the checkpoint commits. -/
  | ckManifestDurable (p : Fin 16)
  /-- CK_RESTORE_READ_DONE (R503). A restore's shard reads of a group complete, and it is rebuilt from parity or lost. -/
  | ckRestoreReadDone (p : Fin 16) (g : Nat) (rd : List (Fin 10 × Option (List Byte)))
  /-- REGISTER_WRITE (R49). A write to a register with no behaviour of its own is applied or discarded under the size rules. -/
  | registerWrite (q : Req) (off : BitVec 26) (data : List Byte)
  /-- REGISTER_READ (R45). A register read latches the higher words of a latched-high register into per-master shadows, or returns zeros and logs READ_SIZE_VIOLATION when badly sized. -/
  | registerRead (q : Req) (src : RegSel) (len : Nat)
  /-- PCIE_CONFIG_REQUEST (R541). A PCIe configuration request to a host-port function is answered with Request Retry Status before step 8, or else acts on configuration space, including NumVFs, FLR and Retrain Link. -/
  | pcieConfigRequest (f : BitVec 7) (reg : BitVec 10) (be : BitVec 4) (wr : Option W32)
  /-- HOST_LINK_UP (R396). The host-port link returns or retrains, held records are written, fetches resume, and new SerDes firmware is taken. -/
  | hostLinkUp (speed : BitVec 2) (width : BitVec 5)
  /-- ETHERNET_LINK_CHANGE (R559). An Ethernet port gains or loses link, updating LINK_UP; at a loss the port takes pending SerDes firmware. -/
  | ethernetLinkChange (n : Fin 2) (up : Bool)
  /-- PFC_PAUSE_FRAME (R414). An IEEE 802.1Qbb PFC frame on the configured priority pauses or resumes transmission, and PAUSED changes. -/
  | pfcPauseFrame (n : Fin 2) (prio : BitVec 3) (pause : Bool)
  /-- CXL_EVENT_RECORD (R421). A Type 3 device signals event records, which the device reads through its mailbox and logs as CXL_EVENT. -/
  | cxlEventRecord (n : Fin 4) (rec : List Byte)
  /-- SYS_RST_N_RELEASE (R581). SYS_RST_N rises, the TAP enters Test-Logic-Reset, pins pass through their fuse state, and the release sequence of R540 begins. -/
  | sysRstNRelease
  /-- SLOT_VERIFY_DONE (R235). A slot in VERIFYING after a core reset finishes checking its copies and goes READY, or goes EMPTY with VOCAB_LOST. -/
  | slotVerifyDone (x : ImgRef)
  /-- HITCH_RESYNC_DONE (R103). The reinstated Hitch instance finishes copying the active cache and journal position, becomes standby, RESYNC clears and STANDBY_IN_STEP sets. -/
  | hitchResyncDone
  /-- HEARTWOOD_RESTART_DONE (R467). A Heartwood restart ends, the new firmware takes up retained keys, and the requests waiting for Heartwood proceed. -/
  | heartwoodRestartDone
  /-- WAKE_STAGGER (R520). LY_WAKE_STAGGER_NS after the previous start, a waking group starts its next domain in wake order. -/
  | wakeStagger (g : Fin 16)
deriving DecidableEq, Repr

end Sys2Proof
end

