-- ==== Sys2Proof/Decode.lean ====
section
/-! DEFINITION. Commands as bits. spec/opcode_table.json gives no row any bits: a command of this block is its row with its
operands (log 1), so no word spells one. -/

namespace Sys2Proof

/-- The command a word spells by the table's bits: the table gives none. -/
def decodeTableWord (_nbits _w : Nat) : Option Instr := none

end Sys2Proof
end

