-- ==== Sys2Proof/Machine/Sha.lean ====
section
/-! DEFINITION. SHA-256 and SHA-384 (FIPS 180-4, the standards that R169, R230, R469 and others name) and HMAC-SHA-256, on
byte strings; words are numbers. -/

namespace Sys2Proof.Machine

/-- The round constants. -/
def k256 : List Nat :=
  [0x428A2F98, 0x71374491, 0xB5C0FBCF, 0xE9B5DBA5, 0x3956C25B, 0x59F111F1, 0x923F82A4, 0xAB1C5ED5, 0xD807AA98,
   0x12835B01, 0x243185BE, 0x550C7DC3, 0x72BE5D74, 0x80DEB1FE, 0x9BDC06A7, 0xC19BF174, 0xE49B69C1, 0xEFBE4786,
   0x0FC19DC6, 0x240CA1CC, 0x2DE92C6F, 0x4A7484AA, 0x5CB0A9DC, 0x76F988DA, 0x983E5152, 0xA831C66D, 0xB00327C8,
   0xBF597FC7, 0xC6E00BF3, 0xD5A79147, 0x06CA6351, 0x14292967, 0x27B70A85, 0x2E1B2138, 0x4D2C6DFC, 0x53380D13,
   0x650A7354, 0x766A0ABB, 0x81C2C92E, 0x92722C85, 0xA2BFE8A1, 0xA81A664B, 0xC24B8B70, 0xC76C51A3, 0xD192E819,
   0xD6990624, 0xF40E3585, 0x106AA070, 0x19A4C116, 0x1E376C08, 0x2748774C, 0x34B0BCB5, 0x391C0CB3, 0x4ED8AA4A,
   0x5B9CCA4F, 0x682E6FF3, 0x748F82EE, 0x78A5636F, 0x84C87814, 0x8CC70208, 0x90BEFFFA, 0xA4506CEB, 0xBEF9A3F7,
   0xC67178F2]

/-- The round constants of the 64-bit hashes, first half. -/
def k512a : List Nat :=
  [0x428A2F98D728AE22, 0x7137449123EF65CD, 0xB5C0FBCFEC4D3B2F, 0xE9B5DBA58189DBBC, 0x3956C25BF348B538,
   0x59F111F1B605D019, 0x923F82A4AF194F9B, 0xAB1C5ED5DA6D8118, 0xD807AA98A3030242, 0x12835B0145706FBE,
   0x243185BE4EE4B28C, 0x550C7DC3D5FFB4E2, 0x72BE5D74F27B896F, 0x80DEB1FE3B1696B1, 0x9BDC06A725C71235,
   0xC19BF174CF692694, 0xE49B69C19EF14AD2, 0xEFBE4786384F25E3, 0x0FC19DC68B8CD5B5, 0x240CA1CC77AC9C65,
   0x2DE92C6F592B0275, 0x4A7484AA6EA6E483, 0x5CB0A9DCBD41FBD4, 0x76F988DA831153B5, 0x983E5152EE66DFAB,
   0xA831C66D2DB43210, 0xB00327C898FB213F, 0xBF597FC7BEEF0EE4, 0xC6E00BF33DA88FC2, 0xD5A79147930AA725,
   0x06CA6351E003826F, 0x142929670A0E6E70, 0x27B70A8546D22FFC, 0x2E1B21385C26C926, 0x4D2C6DFC5AC42AED,
   0x53380D139D95B3DF, 0x650A73548BAF63DE, 0x766A0ABB3C77B2A8, 0x81C2C92E47EDAEE6, 0x92722C851482353B]

/-- Second half. -/
def k512b : List Nat :=
  [0xA2BFE8A14CF10364, 0xA81A664BBC423001, 0xC24B8B70D0F89791, 0xC76C51A30654BE30, 0xD192E819D6EF5218,
   0xD69906245565A910, 0xF40E35855771202A, 0x106AA07032BBD1B8, 0x19A4C116B8D2D0C8, 0x1E376C085141AB53,
   0x2748774CDF8EEB99, 0x34B0BCB5E19B48A8, 0x391C0CB3C5C95A63, 0x4ED8AA4AE3418ACB, 0x5B9CCA4F7763E373,
   0x682E6FF3D6B2B8A3, 0x748F82EE5DEFB2FC, 0x78A5636F43172F60, 0x84C87814A1F0AB72, 0x8CC702081A6439EC,
   0x90BEFFFA23631E28, 0xA4506CEBDE82BDE9, 0xBEF9A3F7B2C67915, 0xC67178F2E372532B, 0xCA273ECEEA26619C,
   0xD186B8C721C0C207, 0xEADA7DD6CDE0EB1E, 0xF57D4F7FEE6ED178, 0x06F067AA72176FBA, 0x0A637DC5A2C898A6,
   0x113F9804BEF90DAE, 0x1B710B35131C471B, 0x28DB77F523047D84, 0x32CAAB7B40C72493, 0x3C9EBE0A15C9BEBC,
   0x431D67C49C100D4C, 0x4CC5D4BECB3E42B6, 0x597F299CFC657E2A, 0x5FCB6FAB3AD6FAEC, 0x6C44198C4A475817]

/-- Initial values. -/
def h256 : List Nat :=
  [0x6A09E667, 0xBB67AE85, 0x3C6EF372, 0xA54FF53A, 0x510E527F, 0x9B05688C, 0x1F83D9AB, 0x5BE0CD19]

def h384 : List Nat :=
  [0xCBBB9D5DC1059ED8, 0x629A292A367CD507, 0x9159015A3070DD17, 0x152FECD8F70E5939, 0x67332667FFC00B31,
   0x8EB44A8768581511, 0xDB0C2E0D64F98FA7, 0x47B5481DBEFA4FA4]

/-- Rotation right of a `w`-bit word. -/
def rotr (w x n : Nat) : Nat := ((x >>> n) ||| (x <<< (w - n))) % 2 ^ w

/-- The rotation amounts of a hash: the big sigmas, then the small ones (two rotations and a shift each). -/
structure ShaP where
  w  : Nat
  s0 : Nat × Nat × Nat
  s1 : Nat × Nat × Nat
  m0 : Nat × Nat × Nat
  m1 : Nat × Nat × Nat

def sha256P : ShaP := ⟨32, (2, 13, 22), (6, 11, 25), (7, 18, 3), (17, 19, 10)⟩
def sha512P : ShaP := ⟨64, (28, 34, 39), (14, 18, 41), (1, 8, 7), (19, 61, 6)⟩

def bigSig (w : Nat) (r : Nat × Nat × Nat) (x : Nat) : Nat := rotr w x r.1 ^^^ rotr w x r.2.1 ^^^ rotr w x r.2.2
def smallSig (w : Nat) (r : Nat × Nat × Nat) (x : Nat) : Nat := rotr w x r.1 ^^^ rotr w x r.2.1 ^^^ (x >>> r.2.2)

/-- The message schedule, newest word first: `n` more words. -/
def shaSched (p : ShaP) : Nat → List Nat → List Nat
  | 0, ws => ws
  | n + 1, ws =>
    let x := (smallSig p.w p.m1 (ws.getD 1 0) + ws.getD 6 0 + smallSig p.w p.m0 (ws.getD 14 0) + ws.getD 15 0) % 2 ^ p.w
    shaSched p n (x :: ws)

/-- The working variables a..h. -/
structure Sha8 where
  a : Nat
  b : Nat
  c : Nat
  d : Nat
  e : Nat
  f : Nat
  g : Nat
  h : Nat

/-- One round with constant plus schedule word `kw`. -/
def shaRound (p : ShaP) (v : Sha8) (kw : Nat) : Sha8 :=
  let ones := 2 ^ p.w - 1
  let ch := (v.e &&& v.f) ^^^ ((ones ^^^ v.e) &&& v.g)
  let t1 := v.h + bigSig p.w p.s1 v.e + ch + kw
  let mj := (v.a &&& v.b) ^^^ (v.a &&& v.c) ^^^ (v.b &&& v.c)
  let t2 := bigSig p.w p.s0 v.a + mj
  ⟨(t1 + t2) % 2 ^ p.w, v.a, v.b, v.c, (v.d + t1) % 2 ^ p.w, v.e, v.f, v.g⟩

def sha8Of (l : List Nat) : Sha8 :=
  ⟨l.getD 0 0, l.getD 1 0, l.getD 2 0, l.getD 3 0, l.getD 4 0, l.getD 5 0, l.getD 6 0, l.getD 7 0⟩

/-- One block of sixteen words. -/
def shaBlock (p : ShaP) (ks : List Nat) (hs ws : List Nat) : List Nat :=
  let sched := (shaSched p (ks.length - 16) ws.reverse).reverse
  let v := (ks.zip sched).foldl (fun v k => shaRound p v (k.1 + k.2)) (sha8Of hs)
  (hs.zip [v.a, v.b, v.c, v.d, v.e, v.f, v.g, v.h]).map fun x => (x.1 + x.2) % 2 ^ p.w

/-- The padded message: a one bit, zeros, the length in bits (16 or 8 bytes, big-endian). -/
def shaPad (blk lenBytes : Nat) (m : List Byte) : List Byte :=
  let z := (blk - (m.length + 1 + lenBytes) % blk) % blk
  m ++ [0x80] ++ leBytes z 0 ++ beBytes lenBytes (8 * m.length)

/-- Big-endian words of `k` bytes each; `n` of them. -/
def beWords (k : Nat) : Nat → List Byte → List Nat
  | 0, _ => []
  | n + 1, m => beNat (m.take k) :: beWords k n (m.drop k)

/-- All blocks of a padded message. -/
def shaFold (p : ShaP) (ks : List Nat) : Nat → List Nat → List Byte → List Nat
  | 0, hs, _ => hs
  | n + 1, hs, m =>
    let k := p.w / 8
    shaFold p ks n (shaBlock p ks hs (beWords k 16 m)) (m.drop (16 * k))

def sha256 (m : List Byte) : List Byte :=
  let x := shaPad 64 8 m
  ((shaFold sha256P k256 (x.length / 64) h256 x).map (beBytes 4)).flatten

def sha384 (m : List Byte) : List Byte :=
  let x := shaPad 128 16 m
  (((shaFold sha512P (k512a ++ k512b) (x.length / 128) h384 x).take 6).map (beBytes 8)).flatten

/-- HMAC-SHA-256 under a 32-byte key. -/
def hmac256 (key m : List Byte) : List Byte :=
  let k := key ++ leBytes (64 - key.length) 0
  sha256 ((k.map fun b => b ^^^ 0x5c) ++ sha256 ((k.map fun b => b ^^^ 0x36) ++ m))

end Sys2Proof.Machine
end

