-- ==== Sys2Proof/Machine/Aes.lean ====
section
/-! DEFINITION. AES-256 with the two constructions the spec names: GCM (R116, R295, R412, R495) and the key wrap of RFC 3394
(R489). The cipher is FIPS 197's and the modes are their standards'; the spec names them and does not repeat them (log 10).
A key or a nonce is a number whose byte i is its bits [8i+7:8i] (R17). -/

namespace Sys2Proof.Machine

/-- The substitution table, two rows of 16 a line: the entry of byte x is its byte 255 - x. -/
def aesSub : Nat :=
  0x637c777bf26b6fc53001672bfed7ab76ca82c97dfa5947f0add4a2af9ca472c0 <<< 1792 |||
  0xb7fd9326363ff7cc34a5e5f171d8311504c723c31896059a071280e2eb27b275 <<< 1536 |||
  0x09832c1a1b6e5aa0523bd6b329e32f8453d100ed20fcb15b6acbbe394a4c58cf <<< 1280 |||
  0xd0efaafb434d338545f9027f503c9fa851a3408f929d38f5bcb6da2110fff3d2 <<< 1024 |||
  0xcd0c13ec5f974417c4a77e3d645d197360814fdc222a908846eeb814de5e0bdb <<< 768 |||
  0xe0323a0a4906245cc2d3ac629195e479e7c8376d8dd54ea96c56f4ea657aae08 <<< 512 |||
  0xba78252e1ca6b4c6e8dd741f4bbd8b8a703eb5664803f60e613557b986c11d9e <<< 256 |||
  0xe1f8981169d98e949b1e87e9ce5528df8ca1890dbfe6426841992d0fb054bb16 <<< 0

/-- The inverse table, laid out alike. -/
def aesInvSub : Nat :=
  0x52096ad53036a538bf40a39e81f3d7fb7ce339829b2fff87348e4344c4dee9cb <<< 1792 |||
  0x547b9432a6c2233dee4c950b42fac34e082ea16628d924b2765ba2496d8bd125 <<< 1536 |||
  0x72f8f66486689816d4a45ccc5d65b6926c704850fdedb9da5e154657a78d9d84 <<< 1280 |||
  0x90d8ab008cbcd30af7e45805b8b34506d02c1e8fca3f0f02c1afbd0301138a6b <<< 1024 |||
  0x3a9111414f67dcea97f2cfcef0b4e67396ac7422e7ad3585e2f937e81c75df6e <<< 768 |||
  0x47f11a711d29c5896fb7620eaa18be1bfc563e4bc6d279209adbc0fe78cd5af4 <<< 512 |||
  0x1fdda8338807c731b11210592780ec5f60517fa919b54a0d2de57a9f93c99cef <<< 256 |||
  0xa0e03b4dae2af5b0c8ebbb3c83539961172b047eba77d626e169146355210c7d <<< 0

/-- Entry x of a substitution table. -/
def aesLook (t x : Nat) : Nat := t >>> (2040 - 8 * x) % 256

/-- A block is a number of 128 bits, its byte 0 the highest. Every byte substituted, byte i of the result from byte p_i. -/
def aesBytes (t : Nat) : List Nat → Nat → Nat → Nat
  | [], _, y => y
  | p :: ps, x, y => aesBytes t ps x (256 * y + aesLook t (x >>> (120 - 8 * p) % 256))

/-- Which byte the row shift brings to each place, and its inverse. -/
def aesShift : List Nat := [0, 5, 10, 15, 4, 9, 14, 3, 8, 13, 2, 7, 12, 1, 6, 11]
def aesUnshift : List Nat := [0, 13, 10, 7, 4, 1, 14, 11, 8, 5, 2, 15, 12, 9, 6, 3]

/-- Every byte of a block doubled in the field of the cipher. -/
def aesDbl (x : Nat) : Nat :=
  (x &&& 0x7F7F7F7F7F7F7F7F7F7F7F7F7F7F7F7F) <<< 1 ^^^ 0x1B * (x >>> 7 &&& 0x01010101010101010101010101010101)

/-- Every column of a block with its bytes moved up one row, and two. -/
def aesUp1 (x : Nat) : Nat :=
  (x &&& 0x00FFFFFF00FFFFFF00FFFFFF00FFFFFF) <<< 8 ||| (x >>> 24 &&& 0x000000FF000000FF000000FF000000FF)
def aesUp2 (x : Nat) : Nat :=
  (x &&& 0x0000FFFF0000FFFF0000FFFF0000FFFF) <<< 16 ||| (x >>> 16 &&& 0x0000FFFF0000FFFF0000FFFF0000FFFF)

/-- The column mix, rows 2 3 1 1: 2(x + y) + y + z with y one row up and z = (x + y) two rows up. -/
def aesMix (x : Nat) : Nat := aesDbl (x ^^^ aesUp1 x) ^^^ aesUp1 x ^^^ aesUp2 (x ^^^ aesUp1 x)

/-- Its inverse, rows 14 11 13 9: the mix after x + 4(x + x two rows up). -/
def aesUnmix (x : Nat) : Nat := aesMix (x ^^^ aesDbl (aesDbl (x ^^^ aesUp2 x)))

/-- Half a key-schedule step: each word of `a` xored with the one before it, the first with `t`. -/
def aesChain (t a : Nat) : Nat :=
  let w0 := a >>> 96 ^^^ t
  let w1 := a >>> 64 % 2 ^ 32 ^^^ w0
  let w2 := a >>> 32 % 2 ^ 32 ^^^ w1
  w0 <<< 96 ||| w1 <<< 64 ||| w2 <<< 32 ||| (a % 2 ^ 32 ^^^ w2)

/-- The round keys that follow the pair (a, b), two per step; `rc` is the round constant. -/
def aesKeysFrom : Nat → Nat → Nat → Nat → List Nat
  | 0, _, _, _ => []
  | n + 1, rc, a, b =>
    let a1 := aesChain (aesBytes aesSub [13, 14, 15, 12] b 0 ^^^ rc <<< 24) a
    let b1 := aesChain (aesBytes aesSub [12, 13, 14, 15] a1 0) b
    a1 :: b1 :: aesKeysFrom n (2 * rc) a1 b1

/-- The lowest `n` bytes of a number in the opposite order. -/
def flipBytes : Nat → Nat → Nat → Nat
  | 0, _, y => y
  | n + 1, x, y => flipBytes n (x / 256) (256 * y + x % 256)

/-- The 15 round keys of AES-256. -/
def aesKeys (key : Nat) : List Nat :=
  let a := flipBytes 16 key 0
  let b := flipBytes 16 (key >>> 128) 0
  a :: b :: (aesKeysFrom 7 1 a b).take 13

/-- The rounds after the first key: the last one mixes no columns. -/
def aesRounds : List Nat → Nat → Nat
  | [], x => x
  | [k], x => aesBytes aesSub aesShift x 0 ^^^ k
  | k :: ks, x => aesRounds ks (aesMix (aesBytes aesSub aesShift x 0) ^^^ k)

/-- One block enciphered under round keys. -/
def aesEnc (ks : List Nat) (x : Nat) : Nat := aesRounds (ks.drop 1) (x ^^^ ks.headD 0)

/-- The rounds of the inverse cipher, keys last to first. -/
def aesUnrounds : List Nat → Nat → Nat
  | [], x => x
  | [k], x => aesBytes aesInvSub aesUnshift x 0 ^^^ k
  | k :: ks, x => aesUnrounds ks (aesUnmix (aesBytes aesInvSub aesUnshift x 0 ^^^ k))

/-- One block deciphered under round keys, given last to first. -/
def aesDec (ks : List Nat) (x : Nat) : Nat := aesUnrounds (ks.drop 1) (x ^^^ ks.headD 0)

/-! ### GCM (SP 800-38D) -/

/-- Byte i of a 16-byte block. -/
def blockByte (x i : Nat) : Byte := BitVec.ofNat 8 (x >>> (120 - 8 * i))

/-- First `n` keystream bytes: the blocks of the nonce's counter from 2 on. -/
def gcmStream (key nonce n : Nat) : List Byte :=
  let ks := aesKeys key
  let iv := flipBytes 12 nonce 0 <<< 32
  (((List.range ((n + 15) / 16)).map fun i =>
    let x := aesEnc ks (iv + (i + 2) % 2 ^ 32)
    (List.range 16).map (blockByte x)).flatten).take n

/-- AES-256-GCM in counter mode: plaintext and keystream, byte by byte; enciphers and deciphers. -/
def gcmXor (key nonce : Nat) (bs : List Byte) : List Byte := List.zipWith (· ^^^ ·) bs (gcmStream key nonce bs.length)

/-- Product in the field of GHASH: `n` bits of x are still to come, v is y times their place, z the sum so far. -/
def ghMul : Nat → Nat → Nat → Nat → Nat
  | 0, _, _, z => z
  | n + 1, x, v, z =>
    ghMul n x (v >>> 1 ^^^ v % 2 * (0xE1 <<< 120)) (z ^^^ x >>> n % 2 * v)

/-- GHASH over `n` blocks of 16 bytes, the last one padded with zeros. -/
def ghash : Nat → Nat → Nat → List Byte → Nat
  | 0, _, y, _ => y
  | n + 1, h, y, bs => ghash n h (ghMul 128 (y ^^^ beNat (bs.take 16 ++ leBytes (16 - bs.length) 0)) h 0) (bs.drop 16)

/-- The tag over additional data and ciphertext, as the number whose byte i is the tag's byte i. -/
def gcmTag (key nonce : Nat) (aad ct : List Byte) : Nat :=
  let ks := aesKeys key
  let h := aesEnc ks 0
  let y := ghash ((ct.length + 15) / 16) h (ghash ((aad.length + 15) / 16) h 0 aad) ct
  let y := ghMul 128 (y ^^^ (8 * aad.length) <<< 64 ^^^ 8 * ct.length) h 0
  flipBytes 16 (aesEnc ks (flipBytes 12 nonce 0 <<< 32 + 1) ^^^ y) 0

/-! ### Key wrap (RFC 3394) -/

/-- The steps of the wrap, `n` of 24 still to come: the register A and the four 64-bit blocks, the next one first. -/
def wrapSteps (ks : List Nat) : Nat → Nat → List Nat → Nat × List Nat
  | 0, a, rs => (a, rs)
  | n + 1, a, rs =>
    let b := aesEnc ks (a <<< 64 ||| rs.headD 0)
    wrapSteps ks n (b >>> 64 ^^^ (24 - n)) (rs.drop 1 ++ [b % 2 ^ 64])

/-- Undoes the steps, the last block first; `ks` last to first. -/
def unwrapSteps (ks : List Nat) : Nat → Nat → List Nat → Nat × List Nat
  | 0, a, rs => (a, rs)
  | n + 1, a, rs =>
    let b := aesDec ks ((a ^^^ (n + 1)) <<< 64 ||| rs.headD 0)
    unwrapSteps ks n (b >>> 64) (rs.drop 1 ++ [b % 2 ^ 64])

/-- The 64-bit parts of `n` bytes' worth of a number, the highest first. -/
def parts64 (n x : Nat) : List Nat := (List.range n).map fun i => x >>> (64 * (n - 1 - i)) % 2 ^ 64

/-- The 40 bytes of a 256-bit key wrapped under a key-encryption key. -/
def keyWrap (kek key : Nat) : List Byte :=
  let r := wrapSteps (aesKeys kek) 24 0xA6A6A6A6A6A6A6A6 (parts64 4 (flipBytes 32 key 0))
  beBytes 40 (r.2.foldl (fun x y => x <<< 64 ||| y) r.1)

/-- The key that 40 wrapped bytes hold, where they unwrap under the key-encryption key. -/
def keyUnwrap (kek : Nat) (w : List Byte) : Option Nat :=
  let r := unwrapSteps (aesKeys kek).reverse 24 (beNat (w.take 8)) (parts64 4 (beNat ((w.drop 8).take 32))).reverse
  if r.1 = 0xA6A6A6A6A6A6A6A6 then some (flipBytes 32 (r.2.foldr (fun y x => x <<< 64 ||| y) 0) 0) else none

end Sys2Proof.Machine
end

