-- ==== Sys2Proof/Machine/Fp.lean ====
section
/-! DEFINITION. The pinned arithmetic: exact dyadic values, correct rounding to FP32, BF16 and FP8 E4M3 (R143, R144, R189),
sum16 (R190), and the correctly rounded exponential and logarithm (R192, R267). Bit patterns are held as numbers. -/

namespace Sys2Proof.Machine

/-- An exact dyadic value m * 2^e, with the sign a zero carries. -/
structure Dy where
  m   : Int
  e   : Int
  neg : Bool
deriving DecidableEq, Repr

def dy0 : Dy := ⟨0, 0, false⟩

/-- Exact product; a zero takes the exclusive or of the signs. -/
def dyMul (a b : Dy) : Dy := ⟨a.m * b.m, a.e + b.e, a.neg != b.neg⟩

/-- Exact sum; an exact 0 is +0 (R189). -/
def dyAdd (a b : Dy) : Dy :=
  let e := min a.e b.e
  let m := a.m * 2 ^ (a.e - e).toNat + b.m * 2 ^ (b.e - e).toNat
  ⟨m, e, decide (m < 0)⟩

def dyNeg (a : Dy) : Dy := ⟨-a.m, a.e, !a.neg⟩

def dyLt (a b : Dy) : Bool := decide ((dyAdd a (dyNeg b)).m < 0)

/-- Value of a finite FP32 pattern. -/
def f32Val (b : Nat) : Dy :=
  let neg := bit b 31
  let ex := bits b 30 23
  let fr := bits b 22 0
  let mag : Nat := if ex = 0 then fr else 2 ^ 23 + fr
  ⟨if neg then -(mag : Int) else mag, if ex = 0 then -149 else (ex : Int) - 150, neg⟩

def f32IsNan (b : Nat) : Bool := bits b 30 23 == 255 && bits b 22 0 != 0
def f32IsInf (b : Nat) : Bool := bits b 30 23 == 255 && bits b 22 0 == 0
def f32Finite (b : Nat) : Bool := bits b 30 23 != 255

/-- Value of a BF16 pattern: the upper half of an FP32 (R143). -/
def bf16Val (b : Nat) : Dy := f32Val (b * 65536)

/-- Value of an FP8 E4M3 pattern that is not a NaN (R143). -/
def f8Val (b : Nat) : Dy :=
  let neg := bit b 7
  let ex := bits b 6 3
  let fr := bits b 2 0
  let mag : Nat := if ex = 0 then fr else 8 + fr
  ⟨if neg then -(mag : Int) else mag, if ex = 0 then -9 else (ex : Int) - 10, neg⟩

/-- R144: a NaN becomes +0, an infinity the largest finite BF16 of its sign. Answers the pattern and whether it changed. -/
def bf16Clean (b : Nat) : Nat × Bool :=
  if bits b 14 7 = 255 then (if bits b 6 0 ≠ 0 then 0 else bits b 15 15 * 32768 + 0x7F7F, true) else (b, false)

/-- R144 for FP8 E4M3, whose only special values are the NaNs. -/
def f8Clean (b : Nat) : Nat × Bool := if bits b 6 0 = 0x7F then (0, true) else (b, false)

/-- Rounds the magnitude m * 2^e to p bits, no finer than 2^emin, to nearest, ties to even: significand and exponent. -/
def rndMag (m : Nat) (e : Int) (p : Nat) (emin : Int) : Nat × Int :=
  if m = 0 then (0, emin)
  else
    let x : Int := max (e + (Nat.log2 m + 1 : Nat) - p) emin
    if x ≤ e then (m * 2 ^ (e - x).toNat, x)
    else
      let sh := (x - e).toNat
      let q := m / 2 ^ sh
      let r := m % 2 ^ sh
      let half := 2 ^ (sh - 1)
      if half < r ∨ (r = half ∧ q % 2 = 1) then (q + 1, x) else (q, x)

/-- FP32 nearest to an exact value (RNE); a value beyond the finite range gives `big`. -/
def f32Of (big : Nat) (a : Dy) : Nat :=
  let r := rndMag a.m.natAbs a.e 24 (-149)
  let q := if r.1 = 2 ^ 24 then 2 ^ 23 else r.1
  let x := if r.1 = 2 ^ 24 then r.2 + 1 else r.2
  let s := if a.neg then 2 ^ 31 else 0
  if q < 2 ^ 23 then s + q
  else if 104 < x then s + big
  else s + (x + 150).toNat * 2 ^ 23 + (q - 2 ^ 23)

def f32Max : Nat := 0x7F7FFFFF
def f32Inf : Nat := 0x7F800000

/-- FP32 nearest to an exact value, saturating at the largest finite (R191). -/
def f32Sat (a : Dy) : Nat := f32Of f32Max a

def f32Add (a b : Nat) : Nat := f32Sat (dyAdd (f32Val a) (f32Val b))
def f32Mul (a b : Nat) : Nat := f32Sat (dyMul (f32Val a) (f32Val b))
def f32Sub (a b : Nat) : Nat := f32Sat (dyAdd (f32Val a) (dyNeg (f32Val b)))

/-- Whether rounding an exact value saturates (counted by R191). -/
def f32Over (a : Dy) : Bool := f32Of f32Inf a % 2 ^ 31 == f32Inf

/-- FP32 quotient, RNE, saturating; the divisor is not 0. The quotient is rounded from 80 bits with a sticky bit. -/
def f32Div (a b : Nat) : Nat :=
  let x := f32Val a
  let y := f32Val b
  let n := x.m.natAbs * 2 ^ 80
  let d := y.m.natAbs
  let q := 2 * (n / d) + (if n % d = 0 then 0 else 1)
  let neg := x.neg != y.neg
  f32Sat ⟨if neg then -(q : Int) else q, x.e - y.e - 81, neg⟩

/-- FP8 E4M3 nearest to an exact value, saturating at 448; a zero keeps its sign (R144). -/
def f8Of (a : Dy) : Nat :=
  let r := rndMag a.m.natAbs a.e 4 (-9)
  let q := if r.1 = 16 then 8 else r.1
  let x := if r.1 = 16 then r.2 + 1 else r.2
  let s := if a.neg then 128 else 0
  if q < 8 then s + q
  else if 5 < x ∨ (x = 5 ∧ 14 < q) then s + 0x7E
  else s + (x + 10).toNat * 8 + (q - 8)

/-- BF16 nearest to an exact value, RNE, saturating at the largest finite. -/
def bf16Of (a : Dy) : Nat :=
  let r := rndMag a.m.natAbs a.e 8 (-133)
  let q := if r.1 = 256 then 128 else r.1
  let x := if r.1 = 256 then r.2 + 1 else r.2
  let s := if a.neg then 2 ^ 15 else 0
  if q < 128 then s + q
  else if 120 < x then s + 0x7F7F
  else s + (x + 134).toNat * 128 + (q - 128)

/-- Whether one FP32 exceeds another, both finite. -/
def f32Lt (a b : Nat) : Bool := dyLt (f32Val a) (f32Val b)

/-- Group results of sum16: the exact sum of each group 16j..16j+15 rounded once (R190), in ascending j. -/
def sum16Groups (l : List (Nat × Dy)) : List Nat :=
  let top := l.foldl (fun t e => max t (e.1 / 16 + 1)) 0
  (List.range top).map fun j => f32Sat ((l.filter fun e => e.1 / 16 == j).foldl (fun s e => dyAdd s e.2) dy0)

/-- sum16 of an indexed list (R190). A missing member is exact 0. -/
def sum16 (l : List (Nat × Dy)) : Nat := (sum16Groups l).foldl f32Add 0

/-! ### Correctly rounded exponential and logarithm

Both are evaluated in fixed point with 160 fraction bits; the truncation error stays below 2^-140, far finer than any FP32
argument's distance from a rounding boundary. -/

/-- ln 2 * 2^160, truncated. -/
def ln2Fix : Nat := 1013035739299659071135698605846798551586536899366

/-- Taylor sum of exp(t) with t in 160-bit fixed point, `n` terms from term `k`. -/
def expFix (t : Nat) : Nat → Nat → Nat → Nat
  | 0, _, _ => 0
  | n + 1, k, term => term + expFix t n (k + 1) (term * t / 2 ^ 160 / (k + 1))

/-- 2^f for f in [0,1), in 160-bit fixed point. -/
def exp2Fix (f : Nat) : Nat := expFix (f * ln2Fix / 2 ^ 160) 60 0 (2 ^ 160)

/-- exp2_cr (R192) of an exact value at most 0: 2^y correctly rounded to FP32, subnormal results included. -/
def exp2Cr (y : Dy) : Nat :=
  if y.m = 0 then 0x3F800000
  else
    let mag := y.m.natAbs
    let fx : Nat := if 0 ≤ y.e then mag * 2 ^ (y.e.toNat + 160) else
      (let sh : Int := y.e + 160
       if 0 ≤ sh then mag * 2 ^ sh.toNat else mag / 2 ^ (-sh).toNat)
    let n := (fx + (2 ^ 160 - 1)) / 2 ^ 160
    if 200 < n then 0
    else if fx = 0 then 0x3F800000
    else
      let f := n * 2 ^ 160 - fx
      let v := exp2Fix f
      f32Sat ⟨if f = 0 then v else 2 * v + 1, -(n : Int) - (if f = 0 then 160 else 161), false⟩

/-- The odd series atanh(z) * 2 / ln 2 in fixed point. -/
def atanhFix (z z2 : Nat) : Nat → Nat → Nat
  | 0, _ => 0
  | n + 1, k => z / (2 * k + 1) + atanhFix (z * z2 / 2 ^ 160) z2 n (k + 1)

/-- log2 of a positive exact value, correctly rounded to FP32 (R267). -/
def log2Cr (x : Dy) : Nat :=
  let m := x.m.natAbs
  let l := Nat.log2 m
  let ex : Int := x.e + l
  if m = 2 ^ l then f32Sat ⟨ex, 0, decide (ex < 0)⟩
  else
    -- mantissa in [1, 2): v = m / 2^l; z = (v - 1) / (v + 1)
    let num := (m - 2 ^ l) * 2 ^ 160
    let z := num / (m + 2 ^ l)
    let at2 := atanhFix z (z * z / 2 ^ 160) 220 0
    let fr : Nat := 2 * at2 * 2 ^ 160 / ln2Fix
    let tot : Int := ex * ((2 ^ 160 : Nat) : Int) + (fr : Int)
    f32Sat ⟨2 * tot + (if tot < 0 then -1 else 1), -161, decide (tot < 0)⟩

end Sys2Proof.Machine
end

