-- ==== Sys2Proof/Machine/Kv.lean ====
section
/-! DEFINITION. The KV formats (R143-R152, R160): encoding and decoding of one token vector, the place of a vector in a
segment, and pooling of a coarse shadow. Formats: 0 BF16, 1 FP8, 2 KVB4. -/

namespace Sys2Proof.Machine

/-- Not above, in magnitude. -/
def magLe (a b : Dy) : Bool := !dyLt ⟨b.m.natAbs, b.e, false⟩ ⟨a.m.natAbs, a.e, false⟩

/-- First index of greatest magnitude (R148: ties to the lower index), with its value. -/
def maxMag : List (Nat × Dy) → Option (Nat × Dy)
  | [] => none
  | x :: r => match maxMag r with
    | none => some x
    | some y => if magLe y.2 x.2 then some x else some y

def enum0 {α : Type} (l : List α) : List (Nat × α) := (List.range l.length).zip l

/-- The outlier slots (R148): at most two elements, empty where the chosen magnitude is 0. -/
def kvOutliers (x : List Dy) : List (Nat × Dy) :=
  match maxMag (enum0 x) with
  | none => []
  | some a =>
    if a.2.m = 0 then []
    else match maxMag ((enum0 x).filter fun e => e.1 != a.1) with
      | none => [a]
      | some b => if b.2.m = 0 then [a] else [a, b]

/-- floor(log2 |a|) of a non-zero value. -/
def dyExp (a : Dy) : Int := (Nat.log2 a.m.natAbs : Nat) + a.e

/-- Scale byte of a group from its non-outlier elements (R149). -/
def kvScale (g : List Dy) : Nat :=
  match maxMag (enum0 g) with
  | none => 0
  | some a => if a.2.m = 0 then 0 else (max (-127) (min 127 (dyExp a.2 - 2)) + 127).toNat

/-- Element code of R150 for scale byte `sc`: sign in bit 3, E2M1 magnitude code below; magnitude 0 is 0b0000. -/
def kvCode (x : Dy) (sc : Nat) : Nat :=
  let v : Dy := ⟨x.m.natAbs, x.e - ((sc : Int) - 127), false⟩
  let le (n : Int) : Bool := magLe v ⟨n, -2, false⟩      -- |v| <= n / 4
  let lt (n : Int) : Bool := dyLt v ⟨n, -2, false⟩
  let c := if le 1 then 0 else if lt 3 then 1 else if le 5 then 2 else if lt 7 then 3
    else if le 10 then 4 else if lt 14 then 5 else if le 20 then 6 else 7
  if c = 0 then 0 else if x.m < 0 then 8 + c else c

/-- Halves of the E2M1 magnitudes. -/
def e2m1Half (c : Nat) : Nat := match c with | 0 => 0 | 1 => 1 | 2 => 2 | 3 => 3 | 4 => 4 | 5 => 6 | 6 => 8 | _ => 12

/-- KVB4 encoding of one vector (R148-R151): element bytes, scale bytes, and the 30-bit outlier record in four bytes. -/
def kvb4Enc (x : List Dy) : List Byte :=
  let out := kvOutliers x
  let isOut (i : Nat) : Bool := out.any fun o => o.1 == i
  let ix := enum0 x
  let groups := x.length / 32
  let scales := (List.range groups).map fun g =>
    kvScale ((ix.filter fun e => e.1 / 32 == g && !isOut e.1).map (·.2))
  let code (i : Nat) : Nat :=
    match x[i]? with
    | some v => if isOut i || scales.getD (i / 32) 0 == 0 && v.m == 0 then 0 else kvCode v (scales.getD (i / 32) 0)
    | none => 0
  let elems := (List.range (x.length / 2)).map fun k => BitVec.ofNat 8 (code (2 * k) + 16 * code (2 * k + 1))
  let slot (o : Nat × Dy) : Nat := o.1 % 128 + 128 * f8Of o.2
  let record := match out with
    | [] => 0
    | [a] => slot a
    | a :: b :: _ => slot a + 2 ^ 15 * slot b
  elems ++ scales.map (BitVec.ofNat 8) ++ leBytes 4 record

/-- What decoding a vector yields: the values, whether an element left the FP32 range, whether an outlier index was bad. -/
structure Dec where
  v   : List Dy
  sat : Bool
  bad : Bool
deriving DecidableEq, Repr

/-- Replaces element `i`. -/
def putAt (l : List Dy) (i : Nat) (v : Dy) : List Dy := l.set i v

/-- One element of a KVB4 vector, saturated at the FP32 range (R152). -/
def kvElem (code sc : Nat) : Dy × Bool :=
  let sc := if sc = 255 then 254 else sc
  let h := e2m1Half (code % 8)
  let neg := code / 8 % 2 == 1
  let v : Dy := ⟨if neg then -(h : Int) else h, (sc : Int) - 128, neg⟩
  if f32Over v then (f32Val (f32Max + if neg then 2 ^ 31 else 0), true) else (v, false)

/-- Decodes the stored form of a vector of `hd` elements (R145, R146, R152). -/
def kvDec (fmt hd : Nat) (bs : List Byte) : Dec :=
  let byte (i : Nat) : Nat := (bs.getD i 0).toNat
  match fmt with
  | 0 => ⟨(List.range hd).map fun i => bf16Val (byte (2 * i) + 256 * byte (2 * i + 1)), false, false⟩
  | 1 => ⟨(List.range hd).map fun i => f8Val (byte i), false, false⟩
  | _ =>
    let el := (List.range hd).map fun i =>
      kvElem (byte (i / 2) / (if i % 2 = 0 then 1 else 16) % 16) (byte (hd / 2 + i / 32))
    let o := hd / 2 + hd / 32
    let record := byte o + 256 * byte (o + 1) + 65536 * byte (o + 2) + 16777216 * byte (o + 3)
    let ap (d : Dec) (slot : Nat) : Dec :=
      if slot = 0 then d
      else if hd ≤ slot % 128 then { d with bad := true }
      else { d with v := putAt d.v (slot % 128) (f8Val (slot / 128)) }
    ap (ap ⟨el.map (·.1), el.any (·.2), false⟩ (record % 2 ^ 15)) (record / 2 ^ 15 % 2 ^ 15)

/-- Encodes a cleaned vector into a format (R144, R157): BF16 and FP8 element by element, KVB4 whole. -/
def kvEnc (fmt : Nat) (x : List Dy) : List Byte :=
  match fmt with
  | 0 => (x.map fun v => leBytes 2 (bf16Of v)).flatten
  | 1 => x.map fun v => BitVec.ofNat 8 (f8Of v)
  | _ => kvb4Enc x

/-- A new K/V or query vector as submitted (format 0 BF16, 1 FP8), cleaned under R144: values, and whether any was not
finite. -/
def rawVec (fmt hd : Nat) (bs : List Byte) : List Dy × Bool :=
  let byte (i : Nat) : Nat := (bs.getD i 0).toNat
  let cl := (List.range hd).map fun i =>
    if fmt = 0 then bf16Clean (byte (2 * i) + 256 * byte (2 * i + 1)) else f8Clean (byte i)
  (cl.map fun c => if fmt = 0 then bf16Val c.1 else f8Val c.1, cl.any (·.2))

/-- The pieces of a segment in which token `t`'s vector lies: (offset, length) of whole bytes (R145, R146). -/
def vecPieces (fmt hd t : Nat) : List (Nat × Nat) :=
  match fmt with
  | 0 => [(2 * t * hd, 2 * hd)]
  | 1 => [(t * hd, hd)]
  | _ => [(t * hd / 2, hd / 2), (64 * hd + t * hd / 32, hd / 32)]

/-- First byte of the outlier plane that token `t`'s record touches, and its bit there (R146). -/
def outlierByte (hd t : Nat) : Nat := 68 * hd + 30 * t / 8
def outlierBit (t : Nat) : Nat := 30 * t % 8

/-- The stored form of token `t`'s vector from the bytes of a segment, given by a reader of its bytes. -/
def segVec (rd : Nat → Byte) (fmt hd t : Nat) : List Byte :=
  let whole := (vecPieces fmt hd t).map fun p => (List.range p.2).map fun i => rd (p.1 + i)
  if fmt = 2 then
    let w := leNat ((List.range 5).map fun i => rd (outlierByte hd t + i))
    whole.flatten ++ leBytes 4 (w / 2 ^ outlierBit t % 2 ^ 30)
  else whole.flatten

/-- The bytes to write so that token `t`'s vector is `bs`: (offset, bytes) pairs; the outlier record keeps its
neighbours' bits. -/
def segPatch (rd : Nat → Byte) (fmt hd t : Nat) (bs : List Byte) : List (Nat × List Byte) :=
  if fmt = 2 then
    let o := outlierByte hd t
    let b := outlierBit t
    let w := leNat ((List.range 5).map fun i => rd (o + i))
    let record := leNat ((bs.drop (hd / 2 + hd / 32)).take 4) % 2 ^ 30
    let w' := w % 2 ^ b + record * 2 ^ b + (w / 2 ^ (b + 30)) * 2 ^ (b + 30)
    [(t * hd / 2, bs.take (hd / 2)), (64 * hd + t * hd / 32, (bs.drop (hd / 2)).take (hd / 32)), (o, leBytes 5 w')]
  else (vecPieces fmt hd t).map fun p => (p.1, bs)

/-- One pooled element of a coarse shadow (R160): the mean of the committed tokens' values, in FP8. -/
def poolElem (vs : List Dy) : Nat :=
  let sum := vs.foldl (fun a v => f32Add a (f32Sat v)) 0
  let n := vs.length
  if n = 16 then f8Of (dyMul (f32Val sum) ⟨1, -4, false⟩)
  else if n = 0 then 0
  else f8Of (f32Val (f32Div sum (f32Sat ⟨n, 0, false⟩)))

end Sys2Proof.Machine
end

