-- ==== Sys2Proof/Config.lean ====
section
/-! DEFINITION. What an implementation fixes, and the free values: constants with no body, of which no proof can know a
value. Each is named in the assumption log. -/

namespace Sys2Proof

/-- The n-th free value of a run: whatever number the device puts where the spec states none (log 5). -/
opaque Config.free : Nat → Nat

/-- The upper 64 nonce bits of a COPY's seal, per partition: the spec gives only the lower 32 (R119; log 17). -/
opaque Config.copySerial : Nat → Nat

/-- Where Hitch places a slot's block-table directory page and its shadow directory (R77; the lay image's choice, log 11). -/
opaque Config.hitchTable : Nat → Nat → Nat

/-- Unicode normalisation of a run of well-formed UTF-8, by NORM (1 NFC, 2 NFKC) under Unicode 15.1.0 (R232): each code point
with the input bytes it comes from, first and end. The standard's data is not in the spec (log 26). -/
opaque Config.unicodeNorm : Nat → List (BitVec 8) → List (BitVec 21 × Nat × Nat)

/-- Bytes of the argument block a container's undocumented table asks for (R293 IO_OFF, R304; log 27). -/
opaque Config.argBytes : List (BitVec 8) → BitVec 32

/-- The output bytes of a RUN, how many and which: container, arguments, index (R290, R304: code and tables are not
documented; log 27). -/
opaque Config.runOutLen : List (BitVec 8) → List (BitVec 8) → BitVec 32
opaque Config.runOutByte : List (BitVec 8) → List (BitVec 8) → Nat → BitVec 8

/-- The candidates of a draft RUN, as (parent, token) pairs: container, staged section, arguments, session state (log 27). -/
opaque Config.draftOut : List (BitVec 8) → List (BitVec 8) → List (BitVec 8) → List (BitVec 8) → List (Nat × Nat)

/-- The session state a draft RUN leaves: same operands (R309; log 27). -/
opaque Config.draftState : List (BitVec 8) → List (BitVec 8) → List (BitVec 8) → List (BitVec 8) → List (BitVec 8)

/-- First of the ring numbers a partition's programs hold (R299 kind 4, R313 RING; log 28). -/
opaque Config.progRings : Nat → Nat

/-- The fused stepping (R37 STEPPING): 0x00 is A0 (log 12). -/
def Config.stepping : Nat := 0x00

/-- The conduct levels the fuses record (R10): this stepping's own (log 12). -/
def Config.conductSet : List Nat := [0x00]

/-- The fused 128-bit unique ID (R459 HF_UID; log 12). -/
opaque Config.uid : BitVec 128

/-- Spare rows fused per channel (R142 ROW_SPARES_LEFT; log 12). -/
opaque Config.rowSpares : Nat → Nat

/-- Spare channels fused per stack (R381). -/
def Config.spareChannels : Nat := 2

/-- SHA-384 of the boot ROM (R469 index 1; log 30). -/
opaque Config.romDigest : Nat

/-- The fused SVN floor (R465, HW_FW_SVN.FLOOR; log 12). -/
opaque Config.svnFloor : Nat

/-- The certificate chain of SPDM slot 0, by the digest of the Heartwood firmware whose Alias key it ends in (R466; log 30). -/
opaque Config.certChain : Nat → List (BitVec 8)

/-- An ECDSA P-384 signature with the Alias key of a Heartwood firmware: firmware digest, bytes signed (log 30). -/
opaque Config.aliasSign : Nat → List (BitVec 8) → List (BitVec 8)

/-- Efdanu's JEDEC manufacturer code (R580 IDCODE; log 12). -/
opaque Config.jedec : BitVec 11

/-- Bytes another device or a host's store holds where this device reads T3 or T5: number of the read, index (log 31). -/
opaque Config.remoteByte : Nat → Nat → BitVec 8

/-- The DeviceID certificate (false) and the Alias certificate (true) of a Heartwood firmware digest (R498; log 30). -/
opaque Config.cert : Nat → Bool → List (BitVec 8)

/-- Index of an event in the firmware's event table (R528: not pinned), by the event's place in the model's list (log 33). -/
opaque Config.evtIndex : Nat → BitVec 8

/-- Whether the external PHY of the management port reports link (R535 LY_MGMT_STAT; log 33). -/
opaque Config.phyUp : Bool

/-- Level of GPIO pin n in alternate A where the spec gives its driver no level (PHY_RST_N; R572; log 33). -/
opaque Config.altLevel : Nat → Bool

/-- Bytes of the boot flash that the device has neither erased nor programmed by PM_FLASH_CMD: key chip * 2^24 + offset (log 34). -/
opaque Config.flashInit : Nat → BitVec 8

/-- What a raw register write finds where its own command carries an operand: the lay image in host memory, a flash chip's
images after PROGRAM, the manifest a restore reads (by number of free value; log 35). -/
opaque Config.layAt : Nat → Option LayImg
opaque Config.chipAt : Nat → Option FlashChip
opaque Config.manifestAt : Nat → List Byte

/-- PCIe configuration space (R42: the PCIe Base Specification's): dword numbers of SR-IOV's VF count (0), Device Control (1)
and Link Control (2) in a function; what a dword first reads; which bits of it a write changes; which are RW1C (log 36). -/
opaque Config.pciDword : Nat → Nat → Nat
opaque Config.pciInit : Nat → BitVec 32
opaque Config.pciMask : Nat → BitVec 32
opaque Config.pciW1c : Nat → BitVec 32

/-- A captured value of a counter for which the spec gives no counting rule: counter, bank, capture (log 37). -/
opaque Config.openCtr : Nat → Nat → Nat → Nat

/-- A byte that a poisoned line gives a host-port read: number of the read, index (log 38). -/
opaque Config.poisonByte : Nat → Nat → BitVec 8

end Sys2Proof
end

