-- ==== Sys2Proof/Machine/Flags.lean ====
section
/-! DEFINITION. Status codes, completion flags and DETAIL values (R63-R67), and the status classes of R65. -/

namespace Sys2Proof.Machine

def stDone : Nat := 0x00
def stDoneLimit : Nat := 0x01
def stDeferred : Nat := 0x02
def stRefusedBudget : Nat := 0x10
def stRefusedRed : Nat := 0x11
def stRefusedCapacity : Nat := 0x12
def stRefusedLoad : Nat := 0x13
def stRefusedGate : Nat := 0x14
def stCancelledBefore : Nat := 0x20
def stCancelledAfter : Nat := 0x21
def stFaultContext : Nat := 0x30
def stFaultStateLost : Nat := 0x31
def stFaultAccess : Nat := 0x32
def stFaultOwnership : Nat := 0x33
def stStaleHandle : Nat := 0x34
def stTargetReset : Nat := 0x35
def stAddressHole : Nat := 0x36

/-- The class of a status: its high nibble (R65). -/
def stClass (st : Nat) : Nat := st / 16

/-- Flag bits of R63. -/
def flDegraded : Nat := 1
def flNoSpec : Nat := 2
def flPreempted : Nat := 4
def flYellow : Nat := 8
def flRevived : Nat := 16
def flPrefixHit : Nat := 32
def flCancelLate : Nat := 64
def flDeadEnd : Nat := 128

/-- The hint that no retry can succeed without an action outside the command (R86, R587). -/
def hintNever : Nat := 0xFFFFFF

/-- DETAIL of FAULT_ACCESS and ADDRESS_HOLE: the target index, 0x1FF outside every target (R66). -/
def detTarget (t : Option Nat) : Nat := t.getD 0x1FF

/-- DETAIL of TARGET_RESET: target index and epoch after the reset (R66). -/
def detReset (t : Option Nat) (ep : BitVec 4) : Nat := t.getD 0x1FF + 512 * ep.toNat

/-- DETAIL of a hint in microseconds, saturating (R66). -/
def detHint (us : Nat) : Nat := min us 0xFFFFFF

/-- DETAIL of REFUSED_LOAD (R66, R67): kind, MORE, amount short. -/
def detLoad (kind : Nat) (more : Bool) (short : Nat) : Nat := kind + 8 * b2n more + 16 * min short 0xFFFFF

/-- A flag if a condition holds. -/
def flIf (b : Bool) (f : Nat) : Nat := if b then f else 0

/-- The 32 bytes of a completion record (R61). -/
def recBytes (st fl com bil ts hdl tag det : Nat) : List Byte :=
  leBytes 1 st ++ leBytes 2 fl ++ leBytes 3 com ++ leBytes 3 bil ++ leBytes 10 ts ++ leBytes 8 hdl ++ leBytes 2 tag ++
  leBytes 3 det

end Sys2Proof.Machine
end

