-- ==== Sys2Proof/Machine/Operands.lean ====
section
/-! DEFINITION. The operand forms: fields of the 64-byte descriptors by byte offset, the common header (R404), the session
handle and the policy record (R79). -/

namespace Sys2Proof.Machine

/-- `len` bytes of a descriptor from byte `off`, as a number (R17: little-endian). -/
def fld (d : BitVec 512) (off len : Nat) : Nat := (d.toNat / 2 ^ (8 * off)) % 2 ^ (8 * len)

/-- The TAG (bytes 0-1). -/
def dTag (d : BitVec 512) : Nat := fld d 0 2
/-- CTL: NOTIFY. -/
def dNotify (d : BitVec 512) : Bool := bit (fld d 2 1) 0
/-- CTL: SEALED. -/
def dSealed (d : BitVec 512) : Bool := bit (fld d 2 1) 1
def dVersion (d : BitVec 512) : Nat := fld d 3 1
def dSealCtx (d : BitVec 512) : Nat := fld d 4 2
/-- OP, byte 16 (R405). -/
def dOp (d : BitVec 512) : Nat := fld d 16 1

/-- The OP values of R405's table. -/
def opKnown (op : Nat) : Bool :=
  (0x01 ≤ op && op ≤ 0x07) || (0x10 ≤ op && op ≤ 0x12) || (0x20 ≤ op && op ≤ 0x22) || (0x30 ≤ op && op ≤ 0x31) ||
  (0x40 ≤ op && op ≤ 0x43) || (0x50 ≤ op && op ≤ 0x54) || (0x60 ≤ op && op ≤ 0x62) || (0x70 ≤ op && op ≤ 0x72)

/-- The reserved part of the common header is zero: CTL [7:2], bytes 6-15, and SEAL_CTX unless SEALED (R404). -/
def hdrClean (d : BitVec 512) : Bool :=
  fld d 2 1 / 4 == 0 && fld d 6 10 == 0 && (dSealed d || dSealCtx d == 0)

/-- Handle fields (chapter 3). -/
def hHome (h : Nat) : Nat := bits h 63 48
def hPart (h : Nat) : Nat := bits h 47 40
def hSlot (h : Nat) : Nat := bits h 39 16
def hGen (h : Nat) : Nat := bits h 15 0
def mkHandle (home part slot gen : Nat) : Nat := home * 2 ^ 48 + part * 2 ^ 40 + slot * 2 ^ 16 + gen

/-- Policy record fields (R79). -/
def pLayers (p : BitVec 512) : Nat := fld p 0 2
def pHeads (p : BitVec 512) : Nat := fld p 2 1
def pHd (p : BitVec 512) : Nat := 16 * fld p 3 1
def pBody (p : BitVec 512) : Nat := fld p 4 1
def pWin (p : BitVec 512) : Nat := fld p 5 1
def pWinTokens (p : BitVec 512) : Nat := if fld p 8 4 = 0 then 4096 else fld p 8 4
def pDeadline (p : BitVec 512) : Nat := fld p 12 4
def pMask (p : BitVec 512) : Nat := fld p 16 1
def pKeepShadow (p : BitVec 512) : Bool := bit (fld p 17 1) 0
def pAutoRevive (p : BitVec 512) : Bool := bit (fld p 17 1) 1
def pNoDemote (p : BitVec 512) : Bool := bit (fld p 17 1) 2
def pAccount (p : BitVec 512) : Nat := fld p 18 2
def pProgram (p : BitVec 512) : Nat := fld p 20 2

/-- Bytes per KV segment in each format (R112). -/
def segBytes (fmt hd : Nat) : Nat :=
  if fmt = 0 then 256 * hd else if fmt = 1 then 128 * hd else 16 * (4 * hd + 8 * hd / 32 + 30)

/-- Payload of a block in a format (R112). -/
def blkBytes (p : BitVec 512) (fmt : Nat) : Nat := 2 * pHeads p * segBytes fmt (pHd p)

/-- Pages of a block in a format (R113). -/
def blkPages (p : BitVec 512) (fmt : Nat) : Nat := ceilDiv (blkBytes p fmt) 65536

end Sys2Proof.Machine
end

