-- ==== Sys2Proof/Machine/Regs.lean ====
section
/-! DEFINITION. The register tables of the spec as data: one identifier per register, and for each its place in register
space (R36 and the offset rules of each chapter), its index strides, its read/write bits, their reset value and whether it
is the low half of a designated 64-bit pair (R49). -/

namespace Sys2Proof.Machine

/-- The registers of the register tables. -/
inductive RegId where
  | XX_BLOCK_ID | XX_STAT | XX_EPOCH | XX_PAR_LOC | XX_SNAP | XX_SNAP_SEQ | XX_SNAP_TS | AX_STAGE | AX_ACTIVE 
  | AX_CTL | AX_STAT | AX_CEIL | INJ_AUTH_STAT | INJ_AUTH_EXPIRY | INJ_CTL | INJ_ARM | INJ_STAT | INJ_FIRED 
  | HT_CTL | HT_STAT | HT_JOURNAL_LAG | HT_MOVE_LIMIT | HT_MIG_RETRY | HT_PART_SLOT_BASE | HT_PART_SLOT_COUNT 
  | HT_PART_DESC_BASE_LO | HT_PART_DESC_BASE_HI | HT_PART_LIVE | HT_PART_MOVING | SP_CTL | SP_LOOKAHEAD 
  | SP_T2_WR_TMO | SP_ENG_CTL | SP_ENG_STAT | SP_PART_CFG | SP_PART_VICTIM_AGE | SP_PART_NOTICE_RING 
  | SP_PART_PERSIST_TMO | SP_PART_PERSIST_ACK_LO | SP_PART_PERSIST_ACK_HI | SP_PART_SWAP_PAGES | SP_PART_SWAP_LOW 
  | SP_T2_STAT | SP_T2_CTL | SP_T2_CAP | HM_SCRUB_CFG | HM_STACK_STAT | HM_STACK_TEMP | HM_CH_STAT 
  | HT_PFX_MEMBER_SEL | HT_PFX_MEMBER_LO | HT_PFX_MEMBER_HI | HT_PFX_REKEY | HT_PFX_CFG | HT_PFX_PAGES_CEIL 
  | HT_PFX_PAGES_MAX | HT_PFX_PAGES | HT_PFX_NODES_MAX | HT_PFX_NODES | HT_PFX_STAT | LA_CTL | LA_ENG_CTL 
  | LA_ENG_STAT | LA_STRAND_CFG | LA_ENG_MAP | LG_PREEMPT_CTL | LG_PREEMPT_BOUND | LG_GRP_STAT | LG_GRP_SPILLS 
  | LG_SPILL_BASE_LO | LG_SPILL_BASE_HI | LG_SPILL_SIZE | LG_SPILL_USED | LG_SPILL_POOL | LG_SPILL_POOL_USED 
  | LG_SPILL_LOW | LG_SPN_CTL | LG_SPN_STAT | LG_SPN_TABLE_LO | LG_SPN_TABLE_HI | LG_SPN_PART | LG_SPN_DIGEST_LO 
  | LG_SPN_DIGEST_HI | LG_SPN_FORM_TMO | LG_SPN_STALL_TMO | LG_SPN_SLIP_LIMIT | LG_SPN_BUF_LO | LG_SPN_BUF_HI 
  | LG_SPN_BUF_SIZE | LG_SPN_FAIL | WH_CTL | WH_ENG_CTL | WH_ENG_STAT | WH_ENG_MAP | WH_VOC_STAT | WH_VOC_MAP 
  | WH_VOC_CEIL | WH_VOC_USED | WH_VOC_DIGEST | WH_XCACHE_CFG | WH_XCACHE_STAT | WH_PART_CFG | CL_CTL | CL_ENG_CTL 
  | CL_ENG_STAT | CL_ENG_MAP | CL_GRAM_STAT | CL_GRAM_PAGES | CL_GRAM_OPEN | CL_PART_GRAM_CEIL | CL_PART_GRAM_USED 
  | BT_CTL | BT_ENG_CTL | BT_ENG_STAT | BT_ENG_MAP | BT_PART_CFG | BT_PART_CTX_MAX | BT_PART_CTX_LIVE 
  | BT_PART_CANCELS | BT_CANCEL_LO | BT_CANCEL_HI | AD_CTL | AD_ENG_CTL | AD_ENG_STAT | AD_ENG_MAP | AD_PART_CFG 
  | AD_PART_PROG_MAX | AD_PART_RING_CEIL | AD_PART_RING_USED | AD_PART_BILLET_CEIL | AD_PART_BILLET_USED 
  | AD_PART_PAGE_CEIL | AD_PART_PAGE_USED | AD_PROG_STAT | AD_PROG_RUNS | AD_PROG_KEY | AD_PROG_RING_BASE 
  | AD_PROG_PLACE | SK_CTL | SK_ENG_CTL | SK_ENG_STAT | SK_ENG_MAP | SK_IDX_STAT | SK_IDX_NODES | SK_IDX_SHAPE 
  | SK_IDX_SEARCHES | SK_PART_CFG | SK_PART_IDX_MAX | SK_PART_MERGE_LO | SK_PART_MERGE_HI | SK_PART_MERGE_SIZE 
  | SK_PART_MERGE_USED | SK_PART_ANSWER_RING | SK_PART_HOLD_US | CP_CTL | CP_STAT | CP_QUEUED | CP_ACCT_SEL 
  | CP_ACCT_CFG | CP_ACCT_METER_BASE | CP_ACCT_BALANCE_LO | CP_ACCT_BALANCE_HI | CP_ACCT_CREDIT_LO 
  | CP_ACCT_CREDIT_HI | CP_ACCT_REFILL | CP_ACCT_REFILL_MS | CP_ACCT_CAP | CP_ACCT_BILLED_LO | CP_ACCT_BILLED_HI 
  | CP_METER_SEL | CP_METER_CIR | CP_METER_CBS | CP_METER_PIR | CP_METER_PBS | CP_METER_TC | CP_METER_TP 
  | CP_CLASS_CFG | CP_CLASS_WEIGHT | CP_CLASS_DEFER_US | CP_CLASS_YELLOW_MAX_US | CP_CLASS_SHAPE_RATE 
  | CP_CLASS_QUEUED | CP_CLASS_STAT | CP_PART_CLASS | CP_PART_METER_BASE | CP_PART_METER_COUNT | CP_PART_QLIMIT 
  | CP_PART_QUEUED | CP_PART_PREEMPT_WAIT_NS | CP_RING_CFG | CP_GCL_CTL | CP_GCL_STAT | CP_GCL_COUNT | CP_GCL_BASE 
  | CP_GCL_CYCLE | CP_GCL_CHANGE | CP_GCL_STAGE_DUR | CP_GCL_STAGE_OPEN | CP_GCL_ACTIVE | HW_LAY_CTL | HW_LAY_STAT 
  | HW_LAY_ADDR_LO | HW_LAY_ADDR_HI | HW_LAY_LEN | HW_LAY_SERIAL_LO | HW_LAY_SERIAL_HI | HW_LAY_FLOOR_LO 
  | HW_LAY_FLOOR_HI | HW_LAY_DIGEST | HW_PART_CTL | HW_PART_STAT | HW_PART_SHARE | PM_INST_RESET | PM_INST_STAT 
  | PM_RSP_TMO | HM_SPARE_CMD | HM_ROW_SPARE_THR | HM_SPARE_STAT | HP_LINK_STAT | HP_CPL_TMO | HP_FN_MAP 
  | HP_QP_TABLE_LO | HP_QP_TABLE_HI | HP_QP_CMD | HP_QP_SEL | HP_QP_STAT | HP_ETH_STAT | HP_ETH_PFC_PRIO 
  | HP_ETH_MAC_LO | HP_ETH_MAC_HI | HP_ETH_IP4 | HP_ETH_IP6_SEL | HP_ETH_IP6 | HP_SEAL_STAT | HP_DB_SUMMARY 
  | DB_SW_IDX | DB_HW_IDX | DB_STAT | DB_BASE_LO | DB_BASE_HI | DB_CFG | DB_CQ | DB_IRQ | DB_OWNER | DB_SHADOW_LO 
  | DB_SHADOW_HI | FP_CFG | FP_MEM_ACTIVE_TMO | FP_SUB_STAT | FP_RP_CFG_ADDR | FP_RP_CFG_DATA | FP_RP_CFG_CTL 
  | FP_RP_PART | HF_CTL | HF_STAT | HF_DEVICE_ID | HF_MARSHAL_ID | HF_UID | HF_SPAN_NAME_LO | HF_SPAN_NAME_HI 
  | HF_SPAN_RANGE | HF_MARSHAL_PRIO | HF_IDMAP_LO | HF_IDMAP_HI | HF_IDMAP_COUNT | HF_TIME_CFG | HF_TIME_LOCK_NS 
  | HF_TIME_STAT | HF_TIME_OFFSET | HF_SPAN_LO | HF_SPAN_MID | HF_SPAN_HI | HF_PPS_IN_TS | HF_E2E_TMO | HF_LIFE_US 
  | HF_REPLAY_LIMIT | HF_RING_FLOOR | HF_RT_SEL | HF_RT_ENTRY | HF_LK_CTL | HF_LK_STAT | HF_LK_PEER 
  | HF_LK_SER_LIMIT | HF_LK_DOWN_MS | HF_LK_UNACKED | HF_LK_RTT_NS | HF_LK_TX_LO | HF_LK_TX_HI | HF_LK_RX_LO 
  | HF_LK_RX_HI | HF_LK_REPLAY_LO | HF_LK_REPLAY_HI | HF_RA_ADDR_LO | HF_RA_ADDR_HI | HF_RA_DATA_LO 
  | HF_RA_DATA_HI | HF_RA_CMP_LO | HF_RA_CMP_HI | HF_RA_CMD | HF_RA_STAT | HF_RA_RESULT_LO | HF_RA_RESULT_HI 
  | HF_IN_RANGE | HW_STAT | HW_FW_SVN | HW_FW_CTL | HW_STORE_VER | HW_CMD_ADDR_LO | HW_CMD_ADDR_HI | HW_CMD_CTL 
  | HW_CMD_STAT | HW_NONCE | HW_SLOT_STAT | HW_MEAS_SEL | HW_MEAS | HW_SPDM_STAT | HW_PART_SEC | HW_PART_KEYS 
  | HW_PART_LOG | CK_CTL | CK_STAT | CK_PLAN_LO | CK_PLAN_HI | CK_RESTORE_LO | CK_RESTORE_HI | CK_CFG 
  | CK_SERIAL_LO | CK_SERIAL_HI | CK_PROGRESS | LY_CTL | LY_STAT | LY_UPTIME_LO | LY_UPTIME_HI | LY_WATCH_IDLE_US 
  | LY_WAKE_ORDER | LY_WAKE_STAGGER_NS | LY_TELE_PERIOD_MS | LY_TELE_HEAD | LY_MGMT_TCP | LY_MGMT_STAT 
  | LY_GRP_STAT | LY_GRP_DOM_LO | LY_GRP_DOM_HI | LY_DEMOTE_HOT_MS | LY_DEMOTE_WARM_MS | LY_WAKE_AT_LO 
  | LY_WAKE_AT_HI | LY_FLT_SRC | LY_FLT_CFG | LY_FLT_SEED | LY_FLT_SEED_X | LY_FLT_HI | LY_FLT_LO | LY_FLT_OUT 
  | LY_FLT_STAT | LY_IN_CFG | LY_IN_RATE | LY_IN_STAT | LY_PIN_CFG | LY_PIN_STAT | PM_RESET_CAUSE | PM_BOOT_STAT 
  | PM_BOOT_CTL | PM_CFG_SEL_CODE | PM_CORE_LIMIT | PM_SPINE_WDT_MS | PM_THROTTLE_C | PM_POWER_CAP_W 
  | PM_THERM_STAT | PM_RST_HIST_HEAD | PM_SNAP_AT | PM_SNAP_ALL | PM_FLASH_ADDR | PM_FLASH_SRC_LO 
  | PM_FLASH_SRC_HI | PM_FLASH_LEN | PM_FLASH_CMD | PM_FLASH_STAT | PM_FW_CTL | PM_FW_STAT | PM_DOM_REQ 
  | PM_DOM_STAT | PM_BACKUP_LO | PM_BACKUP_HI | LY_EVT_HEAD 
deriving DecidableEq, Repr

/-- What a register's first index names; it decides who may see it in a partition view (R38). -/
inductive RegIdx where | none | part | lathe | grp | text | adze | voc | cls | ring | chan | shared
deriving DecidableEq, Repr

/-- One row of a register table. `base` is the offset from the base of register space; `d1` to `d3` are (stride, count) of
the indices, (0, 1) where there is none; `dw` says that every write needs the device-wide marker. -/
structure RegRow where
  base : Nat
  d1   : Nat × Nat
  d2   : Nat × Nat
  d3   : Nat × Nat
  rw   : Nat
  rst  : Nat
  pair : Bool
  idx  : RegIdx
  dw   : Bool
deriving DecidableEq, Repr

/-- The row of each register (the header registers XX_* at the offsets R37 gives within a block). -/
def regRow : RegId → RegRow
  | .XX_BLOCK_ID => ⟨0x0, (0, 1), (0, 1), (0, 1), 0x0, 0x0, false, .none, false⟩
  | .XX_STAT => ⟨0x4, (0, 1), (0, 1), (0, 1), 0x0, 0x0, false, .none, false⟩
  | .XX_EPOCH => ⟨0x8, (0, 1), (0, 1), (0, 1), 0x0, 0x0, false, .none, false⟩
  | .XX_PAR_LOC => ⟨0xC, (0, 1), (0, 1), (0, 1), 0x0, 0x0, false, .none, false⟩
  | .XX_SNAP => ⟨0x10, (0, 1), (0, 1), (0, 1), 0x0, 0x0, false, .none, false⟩
  | .XX_SNAP_SEQ => ⟨0x14, (0, 1), (0, 1), (0, 1), 0x0, 0x0, false, .none, false⟩
  | .XX_SNAP_TS => ⟨0x18, (4, 3), (0, 1), (0, 1), 0x0, 0x0, false, .none, false⟩
  | .AX_STAGE => ⟨0x1410000, (2048, 389), (4, 256), (0, 1), 0xFFFFFFFF, 0x0, false, .shared, true⟩
  | .AX_ACTIVE => ⟨0x1410400, (2048, 389), (4, 256), (0, 1), 0x0, 0x0, false, .shared, true⟩
  | .AX_CTL => ⟨0x14E0000, (16, 389), (0, 1), (0, 1), 0x0, 0x0, false, .shared, true⟩
  | .AX_STAT => ⟨0x14E0004, (16, 389), (0, 1), (0, 1), 0x0, 0x0, false, .shared, true⟩
  | .AX_CEIL => ⟨0x14E0008, (16, 389), (0, 1), (0, 1), 0x0, 0x0, false, .shared, true⟩
  | .INJ_AUTH_STAT => ⟨0x1200100, (0, 1), (0, 1), (0, 1), 0x0, 0x0, false, .none, true⟩
  | .INJ_AUTH_EXPIRY => ⟨0x1200104, (4, 3), (0, 1), (0, 1), 0x0, 0x0, false, .none, true⟩
  | .INJ_CTL => ⟨0x1201000, (16, 64), (0, 1), (0, 1), 0xFFFFFFFF, 0x0, false, .shared, true⟩
  | .INJ_ARM => ⟨0x1201004, (16, 64), (0, 1), (0, 1), 0x0, 0x0, false, .shared, true⟩
  | .INJ_STAT => ⟨0x1201008, (16, 64), (0, 1), (0, 1), 0x0, 0x0, false, .shared, true⟩
  | .INJ_FIRED => ⟨0x120100C, (16, 64), (0, 1), (0, 1), 0x0, 0x0, false, .shared, true⟩
  | .HT_CTL => ⟨0x200100, (0, 1), (0, 1), (0, 1), 0x1, 0x0, false, .none, false⟩
  | .HT_STAT => ⟨0x200104, (0, 1), (0, 1), (0, 1), 0x0, 0x0, false, .none, false⟩
  | .HT_JOURNAL_LAG => ⟨0x200108, (0, 1), (0, 1), (0, 1), 0x0, 0x0, false, .none, false⟩
  | .HT_MOVE_LIMIT => ⟨0x20010C, (0, 1), (0, 1), (0, 1), 0x3FFFF, 0x20000, false, .none, false⟩
  | .HT_MIG_RETRY => ⟨0x200110, (0, 1), (0, 1), (0, 1), 0xFFFF, 0x3E8, false, .none, false⟩
  | .HT_PART_SLOT_BASE => ⟨0x200200, (32, 16), (0, 1), (0, 1), 0x0, 0x0, false, .part, false⟩
  | .HT_PART_SLOT_COUNT => ⟨0x200204, (32, 16), (0, 1), (0, 1), 0x0, 0x0, false, .part, false⟩
  | .HT_PART_DESC_BASE_LO => ⟨0x200208, (32, 16), (0, 1), (0, 1), 0x0, 0x0, true, .part, false⟩
  | .HT_PART_DESC_BASE_HI => ⟨0x20020C, (32, 16), (0, 1), (0, 1), 0x0, 0x0, false, .part, false⟩
  | .HT_PART_LIVE => ⟨0x200210, (32, 16), (0, 1), (0, 1), 0x0, 0x0, false, .part, false⟩
  | .HT_PART_MOVING => ⟨0x200214, (32, 16), (0, 1), (0, 1), 0x0, 0x0, false, .part, false⟩
  | .SP_CTL => ⟨0x400100, (0, 1), (0, 1), (0, 1), 0x1, 0x0, false, .none, false⟩
  | .SP_LOOKAHEAD => ⟨0x400104, (0, 1), (0, 1), (0, 1), 0xF, 0x4, false, .none, false⟩
  | .SP_T2_WR_TMO => ⟨0x400108, (0, 1), (0, 1), (0, 1), 0xFFFF, 0x32, false, .none, false⟩
  | .SP_ENG_CTL => ⟨0x400400, (16, 34), (0, 1), (0, 1), 0x1, 0x1, false, .shared, false⟩
  | .SP_ENG_STAT => ⟨0x400404, (16, 34), (0, 1), (0, 1), 0x0, 0x0, false, .shared, false⟩
  | .SP_PART_CFG => ⟨0x401000, (64, 16), (0, 1), (0, 1), 0xF7, 0xF2, false, .part, false⟩
  | .SP_PART_VICTIM_AGE => ⟨0x401004, (64, 16), (0, 1), (0, 1), 0xFFFFFFFF, 0x186A0, false, .part, false⟩
  | .SP_PART_NOTICE_RING => ⟨0x401008, (64, 16), (0, 1), (0, 1), 0xFFFF, 0xFFFF, false, .part, false⟩
  | .SP_PART_PERSIST_TMO => ⟨0x40100C, (64, 16), (0, 1), (0, 1), 0xFFFF, 0x1388, false, .part, false⟩
  | .SP_PART_PERSIST_ACK_LO => ⟨0x401010, (64, 16), (0, 1), (0, 1), 0x0, 0x0, true, .part, false⟩
  | .SP_PART_PERSIST_ACK_HI => ⟨0x401014, (64, 16), (0, 1), (0, 1), 0x0, 0x0, false, .part, false⟩
  | .SP_PART_SWAP_PAGES => ⟨0x401018, (64, 16), (0, 1), (0, 1), 0x0, 0x0, false, .part, false⟩
  | .SP_PART_SWAP_LOW => ⟨0x40101C, (64, 16), (0, 1), (0, 1), 0xFFFFFFFF, 0x0, false, .part, false⟩
  | .SP_T2_STAT => ⟨0x402000, (16, 4), (0, 1), (0, 1), 0x0, 0x0, false, .shared, false⟩
  | .SP_T2_CTL => ⟨0x402004, (16, 4), (0, 1), (0, 1), 0x0, 0x0, false, .shared, false⟩
  | .SP_T2_CAP => ⟨0x402008, (16, 4), (0, 1), (0, 1), 0x0, 0x0, false, .shared, false⟩
  | .HM_SCRUB_CFG => ⟨0x1300100, (0, 1), (0, 1), (0, 1), 0xFFFF, 0x18, false, .none, false⟩
  | .HM_STACK_STAT => ⟨0x1300200, (64, 8), (0, 1), (0, 1), 0x0, 0x0, false, .shared, false⟩
  | .HM_STACK_TEMP => ⟨0x1300204, (64, 8), (0, 1), (0, 1), 0x0, 0x0, false, .shared, false⟩
  | .HM_CH_STAT => ⟨0x1301000, (4, 256), (0, 1), (0, 1), 0x0, 0x0, false, .chan, false⟩
  | .HT_PFX_MEMBER_SEL => ⟨0x200120, (0, 1), (0, 1), (0, 1), 0xFFFF, 0x0, false, .none, false⟩
  | .HT_PFX_MEMBER_LO => ⟨0x200128, (0, 1), (0, 1), (0, 1), 0xFFFFFFFF, 0x0, true, .none, false⟩
  | .HT_PFX_MEMBER_HI => ⟨0x20012C, (0, 1), (0, 1), (0, 1), 0xFFFFFFFF, 0x0, false, .none, false⟩
  | .HT_PFX_REKEY => ⟨0x200130, (0, 1), (0, 1), (0, 1), 0x0, 0x0, false, .none, false⟩
  | .HT_PFX_CFG => ⟨0x200400, (32, 16), (0, 1), (0, 1), 0x1, 0x0, false, .part, false⟩
  | .HT_PFX_PAGES_CEIL => ⟨0x200404, (32, 16), (0, 1), (0, 1), 0x0, 0x0, false, .part, false⟩
  | .HT_PFX_PAGES_MAX => ⟨0x200408, (32, 16), (0, 1), (0, 1), 0x3FFFFFF, 0x0, false, .part, false⟩
  | .HT_PFX_PAGES => ⟨0x20040C, (32, 16), (0, 1), (0, 1), 0x0, 0x0, false, .part, false⟩
  | .HT_PFX_NODES_MAX => ⟨0x200410, (32, 16), (0, 1), (0, 1), 0x0, 0x0, false, .part, false⟩
  | .HT_PFX_NODES => ⟨0x200414, (32, 16), (0, 1), (0, 1), 0x0, 0x0, false, .part, false⟩
  | .HT_PFX_STAT => ⟨0x200418, (32, 16), (0, 1), (0, 1), 0x0, 0x0, false, .part, false⟩
  | .LA_CTL => ⟨0x600100, (0, 1), (0, 1), (0, 1), 0x1, 0x0, false, .none, false⟩
  | .LA_ENG_CTL => ⟨0x600400, (16, 272), (0, 1), (0, 1), 0x1, 0x1, false, .lathe, false⟩
  | .LA_ENG_STAT => ⟨0x600404, (16, 272), (0, 1), (0, 1), 0x0, 0x0, false, .lathe, false⟩
  | .LA_STRAND_CFG => ⟨0x600408, (16, 272), (0, 1), (0, 1), 0x7F, 0x40, false, .lathe, false⟩
  | .LA_ENG_MAP => ⟨0x60040C, (16, 272), (0, 1), (0, 1), 0x0, 0x0, false, .lathe, false⟩
  | .LG_PREEMPT_CTL => ⟨0x700100, (0, 1), (0, 1), (0, 1), 0x1, 0x1, false, .none, true⟩
  | .LG_PREEMPT_BOUND => ⟨0x700104, (0, 1), (0, 1), (0, 1), 0x0, 0x0, false, .none, false⟩
  | .LG_GRP_STAT => ⟨0x700200, (32, 16), (0, 1), (0, 1), 0x0, 0x0, false, .grp, false⟩
  | .LG_GRP_SPILLS => ⟨0x700204, (32, 16), (0, 1), (0, 1), 0x0, 0x0, false, .grp, false⟩
  | .LG_SPILL_BASE_LO => ⟨0x700400, (32, 16), (0, 1), (0, 1), 0x0, 0x0, true, .part, false⟩
  | .LG_SPILL_BASE_HI => ⟨0x700404, (32, 16), (0, 1), (0, 1), 0x0, 0x0, false, .part, false⟩
  | .LG_SPILL_SIZE => ⟨0x700408, (32, 16), (0, 1), (0, 1), 0x0, 0x0, false, .part, false⟩
  | .LG_SPILL_USED => ⟨0x70040C, (32, 16), (0, 1), (0, 1), 0x0, 0x0, false, .part, false⟩
  | .LG_SPILL_POOL => ⟨0x700410, (32, 16), (0, 1), (0, 1), 0x0, 0x0, false, .part, false⟩
  | .LG_SPILL_POOL_USED => ⟨0x700414, (32, 16), (0, 1), (0, 1), 0x0, 0x0, false, .part, false⟩
  | .LG_SPILL_LOW => ⟨0x700418, (32, 16), (0, 1), (0, 1), 0x3FFFF, 0x1000, false, .part, false⟩
  | .LG_SPN_CTL => ⟨0x701000, (256, 8), (0, 1), (0, 1), 0x0, 0x0, false, .shared, true⟩
  | .LG_SPN_STAT => ⟨0x701004, (256, 8), (0, 1), (0, 1), 0x0, 0x0, false, .shared, true⟩
  | .LG_SPN_TABLE_LO => ⟨0x701008, (256, 8), (0, 1), (0, 1), 0xFFFFFFFF, 0x0, true, .shared, true⟩
  | .LG_SPN_TABLE_HI => ⟨0x70100C, (256, 8), (0, 1), (0, 1), 0xFFFF, 0x0, false, .shared, true⟩
  | .LG_SPN_PART => ⟨0x701010, (256, 8), (0, 1), (0, 1), 0xF, 0x0, false, .shared, true⟩
  | .LG_SPN_DIGEST_LO => ⟨0x701014, (256, 8), (0, 1), (0, 1), 0x0, 0x0, true, .shared, true⟩
  | .LG_SPN_DIGEST_HI => ⟨0x701018, (256, 8), (0, 1), (0, 1), 0x0, 0x0, false, .shared, true⟩
  | .LG_SPN_FORM_TMO => ⟨0x70101C, (256, 8), (0, 1), (0, 1), 0xFFFFFF, 0x2710, false, .shared, true⟩
  | .LG_SPN_STALL_TMO => ⟨0x701020, (256, 8), (0, 1), (0, 1), 0xFFFFFF, 0xC350, false, .shared, true⟩
  | .LG_SPN_SLIP_LIMIT => ⟨0x701024, (256, 8), (0, 1), (0, 1), 0xFFFF, 0x10, false, .shared, true⟩
  | .LG_SPN_BUF_LO => ⟨0x701028, (256, 8), (0, 1), (0, 1), 0xFFFFFFFF, 0x0, true, .shared, true⟩
  | .LG_SPN_BUF_HI => ⟨0x70102C, (256, 8), (0, 1), (0, 1), 0xFFFF, 0x0, false, .shared, true⟩
  | .LG_SPN_BUF_SIZE => ⟨0x701030, (256, 8), (0, 1), (0, 1), 0x3FFFFFF, 0x0, false, .shared, true⟩
  | .LG_SPN_FAIL => ⟨0x701034, (256, 8), (0, 1), (0, 1), 0x0, 0x0, false, .shared, true⟩
  | .WH_CTL => ⟨0x900100, (0, 1), (0, 1), (0, 1), 0x1, 0x0, false, .none, false⟩
  | .WH_ENG_CTL => ⟨0x900400, (16, 16), (0, 1), (0, 1), 0x1, 0x1, false, .text, false⟩
  | .WH_ENG_STAT => ⟨0x900404, (16, 16), (0, 1), (0, 1), 0x0, 0x0, false, .text, false⟩
  | .WH_ENG_MAP => ⟨0x900408, (16, 16), (0, 1), (0, 1), 0x0, 0x0, false, .text, false⟩
  | .WH_VOC_STAT => ⟨0x900800, (64, 16), (0, 1), (0, 1), 0x0, 0x0, false, .voc, false⟩
  | .WH_VOC_MAP => ⟨0x900804, (64, 16), (0, 1), (0, 1), 0x0, 0x0, false, .voc, false⟩
  | .WH_VOC_CEIL => ⟨0x900808, (64, 16), (0, 1), (0, 1), 0x0, 0x0, false, .voc, false⟩
  | .WH_VOC_USED => ⟨0x90080C, (64, 16), (0, 1), (0, 1), 0x0, 0x0, false, .voc, false⟩
  | .WH_VOC_DIGEST => ⟨0x900810, (64, 16), (4, 12), (0, 1), 0x0, 0x0, false, .voc, false⟩
  | .WH_XCACHE_CFG => ⟨0x900C00, (16, 4), (0, 1), (0, 1), 0xFFFF, 0x40, false, .shared, true⟩
  | .WH_XCACHE_STAT => ⟨0x900C04, (16, 4), (0, 1), (0, 1), 0x0, 0x0, false, .shared, false⟩
  | .WH_PART_CFG => ⟨0x900D00, (16, 16), (0, 1), (0, 1), 0x3, 0x1, false, .part, false⟩
  | .CL_CTL => ⟨0xA00100, (0, 1), (0, 1), (0, 1), 0x1, 0x0, false, .none, false⟩
  | .CL_ENG_CTL => ⟨0xA00400, (16, 16), (0, 1), (0, 1), 0x1, 0x1, false, .text, false⟩
  | .CL_ENG_STAT => ⟨0xA00404, (16, 16), (0, 1), (0, 1), 0x0, 0x0, false, .text, false⟩
  | .CL_ENG_MAP => ⟨0xA00408, (16, 16), (0, 1), (0, 1), 0x0, 0x0, false, .text, false⟩
  | .CL_GRAM_STAT => ⟨0xA00800, (256, 16), (16, 16), (0, 1), 0x0, 0x0, false, .part, false⟩
  | .CL_GRAM_PAGES => ⟨0xA00804, (256, 16), (16, 16), (0, 1), 0x0, 0x0, false, .part, false⟩
  | .CL_GRAM_OPEN => ⟨0xA00808, (256, 16), (16, 16), (0, 1), 0x0, 0x0, false, .part, false⟩
  | .CL_PART_GRAM_CEIL => ⟨0xA01800, (16, 16), (0, 1), (0, 1), 0x0, 0x0, false, .part, false⟩
  | .CL_PART_GRAM_USED => ⟨0xA01804, (16, 16), (0, 1), (0, 1), 0x0, 0x0, false, .part, false⟩
  | .BT_CTL => ⟨0xB00100, (0, 1), (0, 1), (0, 1), 0x1, 0x0, false, .none, false⟩
  | .BT_ENG_CTL => ⟨0xB00400, (16, 16), (0, 1), (0, 1), 0x1, 0x1, false, .text, false⟩
  | .BT_ENG_STAT => ⟨0xB00404, (16, 16), (0, 1), (0, 1), 0x0, 0x0, false, .text, false⟩
  | .BT_ENG_MAP => ⟨0xB00408, (16, 16), (0, 1), (0, 1), 0x0, 0x0, false, .text, false⟩
  | .BT_PART_CFG => ⟨0xB00800, (32, 16), (0, 1), (0, 1), 0xF, 0xF, false, .part, true⟩
  | .BT_PART_CTX_MAX => ⟨0xB00804, (32, 16), (0, 1), (0, 1), 0x0, 0x0, false, .part, false⟩
  | .BT_PART_CTX_LIVE => ⟨0xB00808, (32, 16), (0, 1), (0, 1), 0x0, 0x0, false, .part, false⟩
  | .BT_PART_CANCELS => ⟨0xB0080C, (32, 16), (0, 1), (0, 1), 0x0, 0x0, false, .part, false⟩
  | .BT_CANCEL_LO => ⟨0xB00810, (32, 16), (0, 1), (0, 1), 0xFFFFFFFF, 0x0, true, .part, false⟩
  | .BT_CANCEL_HI => ⟨0xB00814, (32, 16), (0, 1), (0, 1), 0x0, 0x0, false, .part, false⟩
  | .AD_CTL => ⟨0x800100, (0, 1), (0, 1), (0, 1), 0x3, 0x2, false, .none, false⟩
  | .AD_ENG_CTL => ⟨0x800400, (16, 36), (0, 1), (0, 1), 0x1, 0x1, false, .adze, false⟩
  | .AD_ENG_STAT => ⟨0x800404, (16, 36), (0, 1), (0, 1), 0x0, 0x0, false, .adze, false⟩
  | .AD_ENG_MAP => ⟨0x800408, (16, 36), (0, 1), (0, 1), 0x0, 0x0, false, .adze, false⟩
  | .AD_PART_CFG => ⟨0x800800, (128, 16), (0, 1), (0, 1), 0x1, 0x0, false, .part, true⟩
  | .AD_PART_PROG_MAX => ⟨0x800804, (128, 16), (0, 1), (0, 1), 0x0, 0x0, false, .part, false⟩
  | .AD_PART_RING_CEIL => ⟨0x800808, (128, 16), (0, 1), (0, 1), 0x0, 0x0, false, .part, false⟩
  | .AD_PART_RING_USED => ⟨0x80080C, (128, 16), (0, 1), (0, 1), 0x0, 0x0, false, .part, false⟩
  | .AD_PART_BILLET_CEIL => ⟨0x800810, (128, 16), (4, 4), (0, 1), 0x0, 0x0, false, .part, false⟩
  | .AD_PART_BILLET_USED => ⟨0x800820, (128, 16), (4, 4), (0, 1), 0x0, 0x0, false, .part, false⟩
  | .AD_PART_PAGE_CEIL => ⟨0x800830, (128, 16), (4, 4), (0, 1), 0x0, 0x0, false, .part, false⟩
  | .AD_PART_PAGE_USED => ⟨0x800840, (128, 16), (4, 4), (0, 1), 0x0, 0x0, false, .part, false⟩
  | .AD_PROG_STAT => ⟨0x810000, (4096, 16), (16, 256), (0, 1), 0x0, 0x0, false, .part, false⟩
  | .AD_PROG_RUNS => ⟨0x810004, (4096, 16), (16, 256), (0, 1), 0x0, 0x0, false, .part, false⟩
  | .AD_PROG_KEY => ⟨0x810008, (4096, 16), (16, 256), (0, 1), 0x0, 0x0, false, .part, false⟩
  | .AD_PROG_RING_BASE => ⟨0x81000C, (4096, 16), (16, 256), (0, 1), 0x0, 0x0, false, .part, false⟩
  | .AD_PROG_PLACE => ⟨0x820000, (4096, 16), (16, 256), (4, 4), 0x0, 0x0, false, .part, false⟩
  | .SK_CTL => ⟨0xC00100, (0, 1), (0, 1), (0, 1), 0x1, 0x0, false, .none, false⟩
  | .SK_ENG_CTL => ⟨0xC00400, (16, 16), (0, 1), (0, 1), 0x1, 0x1, false, .text, false⟩
  | .SK_ENG_STAT => ⟨0xC00404, (16, 16), (0, 1), (0, 1), 0x0, 0x0, false, .text, false⟩
  | .SK_ENG_MAP => ⟨0xC00408, (16, 16), (0, 1), (0, 1), 0x0, 0x0, false, .text, false⟩
  | .SK_IDX_STAT => ⟨0xC00800, (1024, 16), (16, 64), (0, 1), 0x0, 0x0, false, .part, false⟩
  | .SK_IDX_NODES => ⟨0xC00804, (1024, 16), (16, 64), (0, 1), 0x0, 0x0, false, .part, false⟩
  | .SK_IDX_SHAPE => ⟨0xC00808, (1024, 16), (16, 64), (0, 1), 0x0, 0x0, false, .part, false⟩
  | .SK_IDX_SEARCHES => ⟨0xC0080C, (1024, 16), (16, 64), (0, 1), 0x0, 0x0, false, .part, false⟩
  | .SK_PART_CFG => ⟨0xC05000, (64, 16), (0, 1), (0, 1), 0x3, 0x2, false, .part, true⟩
  | .SK_PART_IDX_MAX => ⟨0xC05004, (64, 16), (0, 1), (0, 1), 0x0, 0x0, false, .part, false⟩
  | .SK_PART_MERGE_LO => ⟨0xC05008, (64, 16), (0, 1), (0, 1), 0x0, 0x0, true, .part, false⟩
  | .SK_PART_MERGE_HI => ⟨0xC0500C, (64, 16), (0, 1), (0, 1), 0x0, 0x0, false, .part, false⟩
  | .SK_PART_MERGE_SIZE => ⟨0xC05010, (64, 16), (0, 1), (0, 1), 0x0, 0x0, false, .part, false⟩
  | .SK_PART_MERGE_USED => ⟨0xC05014, (64, 16), (0, 1), (0, 1), 0x0, 0x0, false, .part, false⟩
  | .SK_PART_ANSWER_RING => ⟨0xC05018, (64, 16), (0, 1), (0, 1), 0xFFFF, 0xFFFF, false, .part, false⟩
  | .SK_PART_HOLD_US => ⟨0xC0501C, (64, 16), (0, 1), (0, 1), 0xFFFFFF, 0x2710, false, .part, false⟩
  | .CP_CTL => ⟨0x300100, (0, 1), (0, 1), (0, 1), 0x1, 0x0, false, .none, true⟩
  | .CP_STAT => ⟨0x300104, (0, 1), (0, 1), (0, 1), 0x0, 0x0, false, .none, true⟩
  | .CP_QUEUED => ⟨0x300108, (0, 1), (0, 1), (0, 1), 0x0, 0x0, false, .none, true⟩
  | .CP_ACCT_SEL => ⟨0x300140, (0, 1), (0, 1), (0, 1), 0xFFFF, 0x0, false, .none, true⟩
  | .CP_ACCT_CFG => ⟨0x300144, (0, 1), (0, 1), (0, 1), 0x3FFFFF, 0x0, false, .none, true⟩
  | .CP_ACCT_METER_BASE => ⟨0x300148, (0, 1), (0, 1), (0, 1), 0x3FFFF, 0x0, false, .none, true⟩
  | .CP_ACCT_BALANCE_LO => ⟨0x300150, (0, 1), (0, 1), (0, 1), 0x0, 0x0, true, .none, true⟩
  | .CP_ACCT_BALANCE_HI => ⟨0x300154, (0, 1), (0, 1), (0, 1), 0x0, 0x0, false, .none, true⟩
  | .CP_ACCT_CREDIT_LO => ⟨0x300158, (0, 1), (0, 1), (0, 1), 0xFFFFFFFF, 0x0, true, .none, true⟩
  | .CP_ACCT_CREDIT_HI => ⟨0x30015C, (0, 1), (0, 1), (0, 1), 0x0, 0x0, false, .none, true⟩
  | .CP_ACCT_REFILL => ⟨0x300160, (0, 1), (0, 1), (0, 1), 0xFFFFFFFF, 0x0, false, .none, true⟩
  | .CP_ACCT_REFILL_MS => ⟨0x300164, (0, 1), (0, 1), (0, 1), 0xFFFF, 0x0, false, .none, true⟩
  | .CP_ACCT_CAP => ⟨0x300168, (0, 1), (0, 1), (0, 1), 0xFFFFFFFF, 0x0, false, .none, true⟩
  | .CP_ACCT_BILLED_LO => ⟨0x300170, (0, 1), (0, 1), (0, 1), 0x0, 0x0, true, .none, true⟩
  | .CP_ACCT_BILLED_HI => ⟨0x300174, (0, 1), (0, 1), (0, 1), 0x0, 0x0, false, .none, true⟩
  | .CP_METER_SEL => ⟨0x300180, (0, 1), (0, 1), (0, 1), 0x3FFFF, 0x0, false, .none, true⟩
  | .CP_METER_CIR => ⟨0x300184, (0, 1), (0, 1), (0, 1), 0xFFFFFFFF, 0x0, false, .none, true⟩
  | .CP_METER_CBS => ⟨0x300188, (0, 1), (0, 1), (0, 1), 0xFFFFFFFF, 0x0, false, .none, true⟩
  | .CP_METER_PIR => ⟨0x30018C, (0, 1), (0, 1), (0, 1), 0xFFFFFFFF, 0x0, false, .none, true⟩
  | .CP_METER_PBS => ⟨0x300190, (0, 1), (0, 1), (0, 1), 0xFFFFFFFF, 0x0, false, .none, true⟩
  | .CP_METER_TC => ⟨0x300194, (0, 1), (0, 1), (0, 1), 0x0, 0x0, false, .none, true⟩
  | .CP_METER_TP => ⟨0x300198, (0, 1), (0, 1), (0, 1), 0x0, 0x0, false, .none, true⟩
  | .CP_CLASS_CFG => ⟨0x301000, (64, 64), (0, 1), (0, 1), 0xF, 0x2, false, .cls, true⟩
  | .CP_CLASS_WEIGHT => ⟨0x301004, (64, 64), (0, 1), (0, 1), 0xFFFF, 0x1, false, .cls, true⟩
  | .CP_CLASS_DEFER_US => ⟨0x301008, (64, 64), (0, 1), (0, 1), 0xFFFFFF, 0x3E8, false, .cls, true⟩
  | .CP_CLASS_YELLOW_MAX_US => ⟨0x30100C, (64, 64), (0, 1), (0, 1), 0xFFFFFF, 0x186A0, false, .cls, true⟩
  | .CP_CLASS_SHAPE_RATE => ⟨0x301010, (64, 64), (0, 1), (0, 1), 0xFFFFFFFF, 0x0, false, .cls, true⟩
  | .CP_CLASS_QUEUED => ⟨0x301014, (64, 64), (0, 1), (0, 1), 0x0, 0x0, false, .cls, true⟩
  | .CP_CLASS_STAT => ⟨0x301018, (64, 64), (0, 1), (0, 1), 0x0, 0x0, false, .cls, true⟩
  | .CP_PART_CLASS => ⟨0x302000, (64, 16), (0, 1), (0, 1), 0x0, 0x0, false, .part, true⟩
  | .CP_PART_METER_BASE => ⟨0x302004, (64, 16), (0, 1), (0, 1), 0x0, 0x0, false, .part, true⟩
  | .CP_PART_METER_COUNT => ⟨0x302008, (64, 16), (0, 1), (0, 1), 0x0, 0x0, false, .part, true⟩
  | .CP_PART_QLIMIT => ⟨0x30200C, (64, 16), (0, 1), (0, 1), 0x0, 0x0, false, .part, true⟩
  | .CP_PART_QUEUED => ⟨0x302010, (64, 16), (0, 1), (0, 1), 0x0, 0x0, false, .part, true⟩
  | .CP_PART_PREEMPT_WAIT_NS => ⟨0x302014, (64, 16), (0, 1), (0, 1), 0xFFFF, 0x7D0, false, .part, true⟩
  | .CP_RING_CFG => ⟨0x340000, (4, 65536), (0, 1), (0, 1), 0xFFFF007F, 0x0, false, .ring, true⟩
  | .CP_GCL_CTL => ⟨0x308000, (2048, 16), (0, 1), (0, 1), 0x1, 0x0, false, .part, true⟩
  | .CP_GCL_STAT => ⟨0x308004, (2048, 16), (0, 1), (0, 1), 0x0, 0x0, false, .part, true⟩
  | .CP_GCL_COUNT => ⟨0x308008, (2048, 16), (0, 1), (0, 1), 0x7F, 0x1, false, .part, true⟩
  | .CP_GCL_BASE => ⟨0x308010, (2048, 16), (4, 3), (0, 1), 0xFFFFFFFF, 0x0, false, .part, true⟩
  | .CP_GCL_CYCLE => ⟨0x30801C, (2048, 16), (0, 1), (0, 1), 0xFFFFFFFF, 0x0, false, .part, true⟩
  | .CP_GCL_CHANGE => ⟨0x308020, (2048, 16), (4, 3), (0, 1), 0xFFFFFFFF, 0x0, false, .part, true⟩
  | .CP_GCL_STAGE_DUR => ⟨0x308200, (2048, 16), (8, 64), (0, 1), 0xFFFFFFFF, 0x0, true, .part, true⟩
  | .CP_GCL_STAGE_OPEN => ⟨0x308204, (2048, 16), (8, 64), (0, 1), 0xFFFF, 0x0, false, .part, true⟩
  | .CP_GCL_ACTIVE => ⟨0x308400, (2048, 16), (8, 64), (4, 2), 0x0, 0x0, false, .part, true⟩
  | .HW_LAY_CTL => ⟨0x108000, (0, 1), (0, 1), (0, 1), 0xF, 0x0, false, .none, true⟩
  | .HW_LAY_STAT => ⟨0x108004, (0, 1), (0, 1), (0, 1), 0x0, 0x0, false, .none, true⟩
  | .HW_LAY_ADDR_LO => ⟨0x108008, (0, 1), (0, 1), (0, 1), 0xFFFFFFFF, 0x0, true, .none, true⟩
  | .HW_LAY_ADDR_HI => ⟨0x10800C, (0, 1), (0, 1), (0, 1), 0xFFFFFFFF, 0x0, false, .none, true⟩
  | .HW_LAY_LEN => ⟨0x108010, (0, 1), (0, 1), (0, 1), 0x1FFFFF, 0x0, false, .none, true⟩
  | .HW_LAY_SERIAL_LO => ⟨0x108018, (0, 1), (0, 1), (0, 1), 0x0, 0x0, true, .none, true⟩
  | .HW_LAY_SERIAL_HI => ⟨0x10801C, (0, 1), (0, 1), (0, 1), 0x0, 0x0, false, .none, true⟩
  | .HW_LAY_FLOOR_LO => ⟨0x108020, (0, 1), (0, 1), (0, 1), 0x0, 0x0, true, .none, true⟩
  | .HW_LAY_FLOOR_HI => ⟨0x108024, (0, 1), (0, 1), (0, 1), 0x0, 0x0, false, .none, true⟩
  | .HW_LAY_DIGEST => ⟨0x108030, (4, 12), (0, 1), (0, 1), 0x0, 0x0, false, .none, true⟩
  | .HW_PART_CTL => ⟨0x108100, (16, 16), (0, 1), (0, 1), 0x1, 0x0, false, .part, true⟩
  | .HW_PART_STAT => ⟨0x108104, (16, 16), (0, 1), (0, 1), 0x0, 0x0, false, .part, true⟩
  | .HW_PART_SHARE => ⟨0x108108, (16, 16), (0, 1), (0, 1), 0x0, 0x0, false, .part, true⟩
  | .PM_INST_RESET => ⟨0x1080000, (0, 1), (0, 1), (0, 1), 0x0, 0x0, false, .none, true⟩
  | .PM_INST_STAT => ⟨0x1080004, (0, 1), (0, 1), (0, 1), 0x0, 0x0, false, .none, true⟩
  | .PM_RSP_TMO => ⟨0x1080008, (0, 1), (0, 1), (0, 1), 0xFFFF, 0x64, false, .none, true⟩
  | .HM_SPARE_CMD => ⟨0x1300800, (0, 1), (0, 1), (0, 1), 0x0, 0x0, false, .none, false⟩
  | .HM_ROW_SPARE_THR => ⟨0x1300804, (0, 1), (0, 1), (0, 1), 0xFF, 0x4, false, .none, false⟩
  | .HM_SPARE_STAT => ⟨0x1300810, (4, 8), (0, 1), (0, 1), 0x0, 0x0, false, .shared, false⟩
  | .HP_LINK_STAT => ⟨0xE00100, (0, 1), (0, 1), (0, 1), 0x0, 0x0, false, .none, false⟩
  | .HP_CPL_TMO => ⟨0xE00104, (0, 1), (0, 1), (0, 1), 0xFFFF, 0x2710, false, .none, true⟩
  | .HP_FN_MAP => ⟨0xE00200, (4, 65), (0, 1), (0, 1), 0x0, 0x0, false, .shared, false⟩
  | .HP_QP_TABLE_LO => ⟨0xE00400, (0, 1), (0, 1), (0, 1), 0xFFFFFFFF, 0x0, true, .none, true⟩
  | .HP_QP_TABLE_HI => ⟨0xE00404, (0, 1), (0, 1), (0, 1), 0xFFFF, 0x0, false, .none, true⟩
  | .HP_QP_CMD => ⟨0xE00408, (0, 1), (0, 1), (0, 1), 0x0, 0x0, false, .none, true⟩
  | .HP_QP_SEL => ⟨0xE0040C, (0, 1), (0, 1), (0, 1), 0xFFF, 0x0, false, .none, true⟩
  | .HP_QP_STAT => ⟨0xE00410, (0, 1), (0, 1), (0, 1), 0x0, 0x0, false, .none, true⟩
  | .HP_ETH_STAT => ⟨0xE00500, (32, 2), (0, 1), (0, 1), 0x0, 0x0, false, .shared, true⟩
  | .HP_ETH_PFC_PRIO => ⟨0xE00504, (32, 2), (0, 1), (0, 1), 0x7, 0x3, false, .shared, true⟩
  | .HP_ETH_MAC_LO => ⟨0xE00508, (32, 2), (0, 1), (0, 1), 0xFFFFFFFF, 0x0, true, .shared, true⟩
  | .HP_ETH_MAC_HI => ⟨0xE0050C, (32, 2), (0, 1), (0, 1), 0xFFFF, 0x0, false, .shared, true⟩
  | .HP_ETH_IP4 => ⟨0xE00510, (32, 2), (0, 1), (0, 1), 0xFFFFFFFF, 0x0, false, .shared, true⟩
  | .HP_ETH_IP6_SEL => ⟨0xE00514, (32, 2), (0, 1), (0, 1), 0x3, 0x0, false, .shared, true⟩
  | .HP_ETH_IP6 => ⟨0xE00518, (32, 2), (0, 1), (0, 1), 0xFFFFFFFF, 0x0, false, .shared, true⟩
  | .HP_SEAL_STAT => ⟨0xE02000, (4, 4096), (0, 1), (0, 1), 0x0, 0x0, false, .shared, false⟩
  | .HP_DB_SUMMARY => ⟨0xE10000, (4, 2048), (0, 1), (0, 1), 0x0, 0x0, false, .shared, false⟩
  | .DB_SW_IDX => ⟨0x2000000, (512, 65536), (0, 1), (0, 1), 0xFFFFFFFF, 0x0, false, .ring, false⟩
  | .DB_HW_IDX => ⟨0x2000004, (512, 65536), (0, 1), (0, 1), 0x0, 0x0, false, .ring, false⟩
  | .DB_STAT => ⟨0x2000008, (512, 65536), (0, 1), (0, 1), 0x0, 0x0, false, .ring, false⟩
  | .DB_BASE_LO => ⟨0x2000040, (512, 65536), (0, 1), (0, 1), 0xFFFFFFFF, 0x0, true, .ring, false⟩
  | .DB_BASE_HI => ⟨0x2000044, (512, 65536), (0, 1), (0, 1), 0xFFFFFFFF, 0x0, false, .ring, false⟩
  | .DB_CFG => ⟨0x2000048, (512, 65536), (0, 1), (0, 1), 0x7F9, 0x80, false, .ring, false⟩
  | .DB_CQ => ⟨0x200004C, (512, 65536), (0, 1), (0, 1), 0xFFFF, 0x0, false, .ring, false⟩
  | .DB_IRQ => ⟨0x2000050, (512, 65536), (0, 1), (0, 1), 0xFFFF3FFF, 0x10000, false, .ring, false⟩
  | .DB_OWNER => ⟨0x2000054, (512, 65536), (0, 1), (0, 1), 0x7F, 0x0, false, .ring, false⟩
  | .DB_SHADOW_LO => ⟨0x2000058, (512, 65536), (0, 1), (0, 1), 0xFFFFFFFF, 0x0, true, .ring, false⟩
  | .DB_SHADOW_HI => ⟨0x200005C, (512, 65536), (0, 1), (0, 1), 0xFFFFFFFF, 0x0, false, .ring, false⟩
  | .FP_CFG => ⟨0xF00100, (0, 1), (0, 1), (0, 1), 0x0, 0x0, false, .none, true⟩
  | .FP_MEM_ACTIVE_TMO => ⟨0xF00104, (0, 1), (0, 1), (0, 1), 0xFFFF, 0x3E8, false, .none, true⟩
  | .FP_SUB_STAT => ⟨0xF00200, (16, 4), (0, 1), (0, 1), 0x0, 0x0, false, .shared, true⟩
  | .FP_RP_CFG_ADDR => ⟨0xF00300, (0, 1), (0, 1), (0, 1), 0xFFFFFFFF, 0x0, false, .none, true⟩
  | .FP_RP_CFG_DATA => ⟨0xF00304, (0, 1), (0, 1), (0, 1), 0xFFFFFFFF, 0x0, false, .none, true⟩
  | .FP_RP_CFG_CTL => ⟨0xF00308, (0, 1), (0, 1), (0, 1), 0x0, 0x0, false, .none, true⟩
  | .FP_RP_PART => ⟨0xF0030C, (0, 1), (0, 1), (0, 1), 0xF, 0x0, false, .none, true⟩
  | .HF_CTL => ⟨0xD00100, (0, 1), (0, 1), (0, 1), 0x0, 0x0, false, .none, true⟩
  | .HF_STAT => ⟨0xD00104, (0, 1), (0, 1), (0, 1), 0x0, 0x0, false, .none, true⟩
  | .HF_DEVICE_ID => ⟨0xD00108, (0, 1), (0, 1), (0, 1), 0x0, 0x0, false, .none, true⟩
  | .HF_MARSHAL_ID => ⟨0xD0010C, (0, 1), (0, 1), (0, 1), 0x0, 0x0, false, .none, true⟩
  | .HF_UID => ⟨0xD00110, (4, 4), (0, 1), (0, 1), 0x0, 0x0, false, .none, true⟩
  | .HF_SPAN_NAME_LO => ⟨0xD00120, (0, 1), (0, 1), (0, 1), 0xFFFFFFFF, 0x0, true, .none, true⟩
  | .HF_SPAN_NAME_HI => ⟨0xD00124, (0, 1), (0, 1), (0, 1), 0xFFFFFFFF, 0x0, false, .none, true⟩
  | .HF_SPAN_RANGE => ⟨0xD00128, (0, 1), (0, 1), (0, 1), 0xFFFFFFFF, 0x7FFF0000, false, .none, true⟩
  | .HF_MARSHAL_PRIO => ⟨0xD0012C, (0, 1), (0, 1), (0, 1), 0xFF, 0x0, false, .none, true⟩
  | .HF_IDMAP_LO => ⟨0xD00130, (0, 1), (0, 1), (0, 1), 0xFFFFFFFF, 0x0, true, .none, true⟩
  | .HF_IDMAP_HI => ⟨0xD00134, (0, 1), (0, 1), (0, 1), 0xFFFF, 0x0, false, .none, true⟩
  | .HF_IDMAP_COUNT => ⟨0xD00138, (0, 1), (0, 1), (0, 1), 0xFFFF, 0x0, false, .none, true⟩
  | .HF_TIME_CFG => ⟨0xD00140, (0, 1), (0, 1), (0, 1), 0xF, 0x4, false, .none, true⟩
  | .HF_TIME_LOCK_NS => ⟨0xD00144, (0, 1), (0, 1), (0, 1), 0xFFFF, 0x64, false, .none, true⟩
  | .HF_TIME_STAT => ⟨0xD00148, (0, 1), (0, 1), (0, 1), 0x0, 0x0, false, .none, true⟩
  | .HF_TIME_OFFSET => ⟨0xD0014C, (0, 1), (0, 1), (0, 1), 0x0, 0x0, false, .none, true⟩
  | .HF_SPAN_LO => ⟨0xD00150, (0, 1), (0, 1), (0, 1), 0x0, 0x0, false, .none, true⟩
  | .HF_SPAN_MID => ⟨0xD00154, (0, 1), (0, 1), (0, 1), 0x0, 0x0, false, .none, true⟩
  | .HF_SPAN_HI => ⟨0xD00158, (0, 1), (0, 1), (0, 1), 0x0, 0x0, false, .none, true⟩
  | .HF_PPS_IN_TS => ⟨0xD0015C, (4, 3), (0, 1), (0, 1), 0x0, 0x0, false, .none, true⟩
  | .HF_E2E_TMO => ⟨0xD00170, (0, 1), (0, 1), (0, 1), 0xFFFF, 0x2710, false, .none, true⟩
  | .HF_LIFE_US => ⟨0xD00174, (0, 1), (0, 1), (0, 1), 0x3FFF, 0xFA0, false, .none, true⟩
  | .HF_REPLAY_LIMIT => ⟨0xD00178, (0, 1), (0, 1), (0, 1), 0xF, 0x8, false, .none, true⟩
  | .HF_RING_FLOOR => ⟨0xD0017C, (0, 1), (0, 1), (0, 1), 0x7, 0x1, false, .none, true⟩
  | .HF_RT_SEL => ⟨0xD00180, (0, 1), (0, 1), (0, 1), 0xFFFF, 0x0, false, .none, true⟩
  | .HF_RT_ENTRY => ⟨0xD00184, (0, 1), (0, 1), (0, 1), 0x0, 0x0, false, .none, true⟩
  | .HF_LK_CTL => ⟨0xD00400, (64, 12), (0, 1), (0, 1), 0x31, 0x1, false, .shared, false⟩
  | .HF_LK_STAT => ⟨0xD00404, (64, 12), (0, 1), (0, 1), 0x0, 0x0, false, .shared, false⟩
  | .HF_LK_PEER => ⟨0xD00408, (64, 12), (0, 1), (0, 1), 0x0, 0x0, false, .shared, false⟩
  | .HF_LK_SER_LIMIT => ⟨0xD0040C, (64, 12), (0, 1), (0, 1), 0xFFFF, 0x1000, false, .shared, false⟩
  | .HF_LK_DOWN_MS => ⟨0xD00410, (64, 12), (0, 1), (0, 1), 0xFF, 0xA, false, .shared, false⟩
  | .HF_LK_UNACKED => ⟨0xD00414, (64, 12), (0, 1), (0, 1), 0x0, 0x0, false, .shared, false⟩
  | .HF_LK_RTT_NS => ⟨0xD00418, (64, 12), (0, 1), (0, 1), 0x0, 0x0, false, .shared, false⟩
  | .HF_LK_TX_LO => ⟨0xD00420, (64, 12), (0, 1), (0, 1), 0x0, 0x0, false, .shared, false⟩
  | .HF_LK_TX_HI => ⟨0xD00424, (64, 12), (0, 1), (0, 1), 0x0, 0x0, false, .shared, false⟩
  | .HF_LK_RX_LO => ⟨0xD00428, (64, 12), (0, 1), (0, 1), 0x0, 0x0, false, .shared, false⟩
  | .HF_LK_RX_HI => ⟨0xD0042C, (64, 12), (0, 1), (0, 1), 0x0, 0x0, false, .shared, false⟩
  | .HF_LK_REPLAY_LO => ⟨0xD00430, (64, 12), (0, 1), (0, 1), 0x0, 0x0, false, .shared, false⟩
  | .HF_LK_REPLAY_HI => ⟨0xD00434, (64, 12), (0, 1), (0, 1), 0x0, 0x0, false, .shared, false⟩
  | .HF_RA_ADDR_LO => ⟨0xD02000, (64, 16), (0, 1), (0, 1), 0xFFFFFFFF, 0x0, true, .part, false⟩
  | .HF_RA_ADDR_HI => ⟨0xD02004, (64, 16), (0, 1), (0, 1), 0xFFFFFFFF, 0x0, false, .part, false⟩
  | .HF_RA_DATA_LO => ⟨0xD02008, (64, 16), (0, 1), (0, 1), 0xFFFFFFFF, 0x0, true, .part, false⟩
  | .HF_RA_DATA_HI => ⟨0xD0200C, (64, 16), (0, 1), (0, 1), 0xFFFFFFFF, 0x0, false, .part, false⟩
  | .HF_RA_CMP_LO => ⟨0xD02010, (64, 16), (0, 1), (0, 1), 0xFFFFFFFF, 0x0, true, .part, false⟩
  | .HF_RA_CMP_HI => ⟨0xD02014, (64, 16), (0, 1), (0, 1), 0xFFFFFFFF, 0x0, false, .part, false⟩
  | .HF_RA_CMD => ⟨0xD02018, (64, 16), (0, 1), (0, 1), 0x0, 0x0, false, .part, false⟩
  | .HF_RA_STAT => ⟨0xD0201C, (64, 16), (0, 1), (0, 1), 0x0, 0x0, false, .part, false⟩
  | .HF_RA_RESULT_LO => ⟨0xD02020, (64, 16), (0, 1), (0, 1), 0x0, 0x0, true, .part, false⟩
  | .HF_RA_RESULT_HI => ⟨0xD02024, (64, 16), (0, 1), (0, 1), 0x0, 0x0, false, .part, false⟩
  | .HF_IN_RANGE => ⟨0xD03000, (16, 16), (4, 4), (0, 1), 0xFFFFFFFF, 0x0, false, .part, true⟩
  | .HW_STAT => ⟨0x100100, (0, 1), (0, 1), (0, 1), 0x0, 0x0, false, .none, true⟩
  | .HW_FW_SVN => ⟨0x100104, (0, 1), (0, 1), (0, 1), 0x0, 0x0, false, .none, true⟩
  | .HW_FW_CTL => ⟨0x100108, (0, 1), (0, 1), (0, 1), 0x0, 0x0, false, .none, true⟩
  | .HW_STORE_VER => ⟨0x10010C, (0, 1), (0, 1), (0, 1), 0x0, 0x0, false, .none, true⟩
  | .HW_CMD_ADDR_LO => ⟨0x100110, (0, 1), (0, 1), (0, 1), 0xFFFFFFFF, 0x0, true, .none, true⟩
  | .HW_CMD_ADDR_HI => ⟨0x100114, (0, 1), (0, 1), (0, 1), 0xFFFFFFFF, 0x0, false, .none, true⟩
  | .HW_CMD_CTL => ⟨0x100118, (0, 1), (0, 1), (0, 1), 0x0, 0x0, false, .none, true⟩
  | .HW_CMD_STAT => ⟨0x10011C, (0, 1), (0, 1), (0, 1), 0x0, 0x0, false, .none, true⟩
  | .HW_NONCE => ⟨0x100120, (4, 8), (0, 1), (0, 1), 0x0, 0x0, false, .none, true⟩
  | .HW_SLOT_STAT => ⟨0x100140, (4, 8), (0, 1), (0, 1), 0x0, 0x0, false, .shared, true⟩
  | .HW_MEAS_SEL => ⟨0x100160, (0, 1), (0, 1), (0, 1), 0xFF, 0x1, false, .none, true⟩
  | .HW_MEAS => ⟨0x100164, (4, 12), (0, 1), (0, 1), 0x0, 0x0, false, .none, true⟩
  | .HW_SPDM_STAT => ⟨0x1001A0, (0, 1), (0, 1), (0, 1), 0x0, 0x0, false, .none, true⟩
  | .HW_PART_SEC => ⟨0x100400, (32, 16), (0, 1), (0, 1), 0x0, 0x0, false, .part, true⟩
  | .HW_PART_KEYS => ⟨0x100404, (32, 16), (0, 1), (0, 1), 0x0, 0x0, false, .part, true⟩
  | .HW_PART_LOG => ⟨0x100408, (32, 16), (0, 1), (0, 1), 0x0, 0x0, false, .part, true⟩
  | .CK_CTL => ⟨0x404000, (64, 16), (0, 1), (0, 1), 0x0, 0x0, false, .part, false⟩
  | .CK_STAT => ⟨0x404004, (64, 16), (0, 1), (0, 1), 0x0, 0x0, false, .part, false⟩
  | .CK_PLAN_LO => ⟨0x404008, (64, 16), (0, 1), (0, 1), 0xFFFFFFFF, 0x0, true, .part, false⟩
  | .CK_PLAN_HI => ⟨0x40400C, (64, 16), (0, 1), (0, 1), 0xFFFF, 0x0, false, .part, false⟩
  | .CK_RESTORE_LO => ⟨0x404010, (64, 16), (0, 1), (0, 1), 0xFFFFFFFF, 0x0, true, .part, false⟩
  | .CK_RESTORE_HI => ⟨0x404014, (64, 16), (0, 1), (0, 1), 0xFFFF, 0x0, false, .part, false⟩
  | .CK_CFG => ⟨0x404018, (64, 16), (0, 1), (0, 1), 0x7, 0x1, false, .part, true⟩
  | .CK_SERIAL_LO => ⟨0x40401C, (64, 16), (0, 1), (0, 1), 0x0, 0x0, true, .part, false⟩
  | .CK_SERIAL_HI => ⟨0x404020, (64, 16), (0, 1), (0, 1), 0x0, 0x0, false, .part, false⟩
  | .CK_PROGRESS => ⟨0x404024, (64, 16), (0, 1), (0, 1), 0x0, 0x0, false, .part, false⟩
  | .LY_CTL => ⟨0x100, (0, 1), (0, 1), (0, 1), 0x1, 0x1, false, .none, true⟩
  | .LY_STAT => ⟨0x104, (0, 1), (0, 1), (0, 1), 0x0, 0x0, false, .none, true⟩
  | .LY_UPTIME_LO => ⟨0x108, (0, 1), (0, 1), (0, 1), 0x0, 0x0, false, .none, true⟩
  | .LY_UPTIME_HI => ⟨0x10C, (0, 1), (0, 1), (0, 1), 0x0, 0x0, false, .none, true⟩
  | .LY_WATCH_IDLE_US => ⟨0x110, (0, 1), (0, 1), (0, 1), 0xFFFFFF, 0x1388, false, .none, true⟩
  | .LY_WAKE_ORDER => ⟨0x114, (0, 1), (0, 1), (0, 1), 0xFF, 0xE4, false, .none, true⟩
  | .LY_WAKE_STAGGER_NS => ⟨0x118, (0, 1), (0, 1), (0, 1), 0xFFFF, 0x7D0, false, .none, true⟩
  | .LY_TELE_PERIOD_MS => ⟨0x11C, (0, 1), (0, 1), (0, 1), 0xFFFF, 0x3E8, false, .none, true⟩
  | .LY_TELE_HEAD => ⟨0x120, (0, 1), (0, 1), (0, 1), 0x0, 0x0, false, .none, true⟩
  | .LY_MGMT_TCP => ⟨0x124, (0, 1), (0, 1), (0, 1), 0xFFFF, 0x0, false, .none, true⟩
  | .LY_MGMT_STAT => ⟨0x128, (0, 1), (0, 1), (0, 1), 0x0, 0x0, false, .none, true⟩
  | .LY_GRP_STAT => ⟨0x200, (16, 16), (0, 1), (0, 1), 0x0, 0x0, false, .shared, true⟩
  | .LY_GRP_DOM_LO => ⟨0x204, (16, 16), (0, 1), (0, 1), 0x0, 0x0, true, .shared, true⟩
  | .LY_GRP_DOM_HI => ⟨0x208, (16, 16), (0, 1), (0, 1), 0x0, 0x0, false, .shared, true⟩
  | .LY_DEMOTE_HOT_MS => ⟨0x400, (16, 16), (0, 1), (0, 1), 0xFFFFFFFF, 0x7D0, false, .part, true⟩
  | .LY_DEMOTE_WARM_MS => ⟨0x404, (16, 16), (0, 1), (0, 1), 0xFFFFFFFF, 0xEA60, false, .part, true⟩
  | .LY_WAKE_AT_LO => ⟨0x408, (16, 16), (0, 1), (0, 1), 0xFFFFFFFF, 0x0, true, .part, true⟩
  | .LY_WAKE_AT_HI => ⟨0x40C, (16, 16), (0, 1), (0, 1), 0xFFFFFFFF, 0x0, false, .part, true⟩
  | .LY_FLT_SRC => ⟨0x800, (32, 64), (0, 1), (0, 1), 0xFFFFFFFF, 0x3E80000, false, .shared, true⟩
  | .LY_FLT_CFG => ⟨0x804, (32, 64), (0, 1), (0, 1), 0xFFFF7FFF, 0xFFFF0800, false, .shared, true⟩
  | .LY_FLT_SEED => ⟨0x808, (32, 64), (0, 1), (0, 1), 0xFFFFFFFF, 0x0, false, .shared, true⟩
  | .LY_FLT_SEED_X => ⟨0x80C, (32, 64), (0, 1), (0, 1), 0xFFFFFFFF, 0x0, false, .shared, true⟩
  | .LY_FLT_HI => ⟨0x810, (32, 64), (0, 1), (0, 1), 0xFFFFFFFF, 0x7FFFFFFF, false, .shared, true⟩
  | .LY_FLT_LO => ⟨0x814, (32, 64), (0, 1), (0, 1), 0xFFFFFFFF, 0x0, false, .shared, true⟩
  | .LY_FLT_OUT => ⟨0x818, (32, 64), (0, 1), (0, 1), 0x0, 0x0, false, .shared, true⟩
  | .LY_FLT_STAT => ⟨0x81C, (32, 64), (0, 1), (0, 1), 0xFFFF0000, 0x0, false, .shared, true⟩
  | .LY_IN_CFG => ⟨0x1000, (16, 24), (0, 1), (0, 1), 0xFFFFFFFF, 0x0, false, .shared, true⟩
  | .LY_IN_RATE => ⟨0x1004, (16, 24), (0, 1), (0, 1), 0xFFFF, 0x0, false, .shared, true⟩
  | .LY_IN_STAT => ⟨0x1008, (16, 24), (0, 1), (0, 1), 0x0, 0x0, false, .shared, true⟩
  | .LY_PIN_CFG => ⟨0x1400, (4, 24), (0, 1), (0, 1), 0x3F, 0x0, false, .shared, true⟩
  | .LY_PIN_STAT => ⟨0x1500, (4, 24), (0, 1), (0, 1), 0x0, 0x0, false, .shared, true⟩
  | .PM_RESET_CAUSE => ⟨0x1000100, (0, 1), (0, 1), (0, 1), 0x0, 0x0, false, .none, true⟩
  | .PM_BOOT_STAT => ⟨0x1000104, (0, 1), (0, 1), (0, 1), 0x0, 0x0, false, .none, true⟩
  | .PM_BOOT_CTL => ⟨0x1000108, (0, 1), (0, 1), (0, 1), 0x0, 0x0, false, .none, true⟩
  | .PM_CFG_SEL_CODE => ⟨0x100010C, (0, 1), (0, 1), (0, 1), 0x0, 0x0, false, .none, true⟩
  | .PM_CORE_LIMIT => ⟨0x1000110, (0, 1), (0, 1), (0, 1), 0xFF, 0x8, false, .none, true⟩
  | .PM_SPINE_WDT_MS => ⟨0x1000114, (0, 1), (0, 1), (0, 1), 0xFFFF, 0x64, false, .none, true⟩
  | .PM_THROTTLE_C => ⟨0x1000118, (0, 1), (0, 1), (0, 1), 0xFF, 0x64, false, .none, true⟩
  | .PM_POWER_CAP_W => ⟨0x100011C, (0, 1), (0, 1), (0, 1), 0xFFF, 0x5AA, false, .none, true⟩
  | .PM_THERM_STAT => ⟨0x1000120, (0, 1), (0, 1), (0, 1), 0x0, 0x0, false, .none, true⟩
  | .PM_RST_HIST_HEAD => ⟨0x1000124, (0, 1), (0, 1), (0, 1), 0x0, 0x0, false, .none, true⟩
  | .PM_SNAP_AT => ⟨0x1000140, (4, 3), (0, 1), (0, 1), 0xFFFFFFFF, 0x0, false, .none, true⟩
  | .PM_SNAP_ALL => ⟨0x100014C, (0, 1), (0, 1), (0, 1), 0x0, 0x0, false, .none, true⟩
  | .PM_FLASH_ADDR => ⟨0x1000180, (0, 1), (0, 1), (0, 1), 0x1FFFFFF, 0x0, false, .none, true⟩
  | .PM_FLASH_SRC_LO => ⟨0x1000184, (0, 1), (0, 1), (0, 1), 0xFFFFFFFF, 0x0, true, .none, true⟩
  | .PM_FLASH_SRC_HI => ⟨0x1000188, (0, 1), (0, 1), (0, 1), 0xFFFFFFFF, 0x0, false, .none, true⟩
  | .PM_FLASH_LEN => ⟨0x100018C, (0, 1), (0, 1), (0, 1), 0xFFFFFF, 0x0, false, .none, true⟩
  | .PM_FLASH_CMD => ⟨0x1000190, (0, 1), (0, 1), (0, 1), 0x0, 0x0, false, .none, true⟩
  | .PM_FLASH_STAT => ⟨0x1000194, (0, 1), (0, 1), (0, 1), 0x0, 0x0, false, .none, true⟩
  | .PM_FW_CTL => ⟨0x10001A0, (0, 1), (0, 1), (0, 1), 0x0, 0x0, false, .none, true⟩
  | .PM_FW_STAT => ⟨0x10001A4, (0, 1), (0, 1), (0, 1), 0x0, 0x0, false, .none, true⟩
  | .PM_DOM_REQ => ⟨0x1000200, (4, 48), (0, 1), (0, 1), 0x3, 0x1, false, .shared, true⟩
  | .PM_DOM_STAT => ⟨0x1000300, (4, 48), (0, 1), (0, 1), 0x0, 0x0, false, .shared, true⟩
  | .PM_BACKUP_LO => ⟨0x1000400, (8, 16), (0, 1), (0, 1), 0xFFFFFFFF, 0x0, true, .shared, true⟩
  | .PM_BACKUP_HI => ⟨0x1000404, (8, 16), (0, 1), (0, 1), 0xFFFFFFFF, 0x0, false, .shared, true⟩
  | .LY_EVT_HEAD => ⟨0x1100100, (0, 1), (0, 1), (0, 1), 0x0, 0x0, false, .none, false⟩

/-- The header registers of R37. -/
def hdrRegs : List RegId := [.XX_BLOCK_ID, .XX_STAT, .XX_EPOCH, .XX_PAR_LOC, .XX_SNAP, .XX_SNAP_SEQ, .XX_SNAP_TS]

/-- The registers of one doorbell page (R425). -/
def dbRegs : List RegId := [.DB_SW_IDX, .DB_HW_IDX, .DB_STAT, .DB_BASE_LO, .DB_BASE_HI, .DB_CFG, .DB_CQ, .DB_IRQ, .DB_OWNER, .DB_SHADOW_LO, .DB_SHADOW_HI]

/-- The registers of the block at offset 0x00_0000 (R36). -/
def regsB00 : List RegId :=
  [.LY_CTL, .LY_STAT, .LY_UPTIME_LO, .LY_UPTIME_HI, .LY_WATCH_IDLE_US, .LY_WAKE_ORDER, .LY_WAKE_STAGGER_NS, 
   .LY_TELE_PERIOD_MS, .LY_TELE_HEAD, .LY_MGMT_TCP, .LY_MGMT_STAT, .LY_GRP_STAT, .LY_GRP_DOM_LO, 
   .LY_GRP_DOM_HI, .LY_DEMOTE_HOT_MS, .LY_DEMOTE_WARM_MS, .LY_WAKE_AT_LO, .LY_WAKE_AT_HI, .LY_FLT_SRC, 
   .LY_FLT_CFG, .LY_FLT_SEED, .LY_FLT_SEED_X, .LY_FLT_HI, .LY_FLT_LO, .LY_FLT_OUT, .LY_FLT_STAT, 
   .LY_IN_CFG, .LY_IN_RATE, .LY_IN_STAT, .LY_PIN_CFG, .LY_PIN_STAT]

/-- The registers of the block at offset 0x10_0000 (R36). -/
def regsB01 : List RegId :=
  [.HW_LAY_CTL, .HW_LAY_STAT, .HW_LAY_ADDR_LO, .HW_LAY_ADDR_HI, .HW_LAY_LEN, .HW_LAY_SERIAL_LO, 
   .HW_LAY_SERIAL_HI, .HW_LAY_FLOOR_LO, .HW_LAY_FLOOR_HI, .HW_LAY_DIGEST, .HW_PART_CTL, .HW_PART_STAT, 
   .HW_PART_SHARE, .HW_STAT, .HW_FW_SVN, .HW_FW_CTL, .HW_STORE_VER, .HW_CMD_ADDR_LO, .HW_CMD_ADDR_HI, 
   .HW_CMD_CTL, .HW_CMD_STAT, .HW_NONCE, .HW_SLOT_STAT, .HW_MEAS_SEL, .HW_MEAS, .HW_SPDM_STAT, 
   .HW_PART_SEC, .HW_PART_KEYS, .HW_PART_LOG]

/-- The registers of the block at offset 0x20_0000 (R36). -/
def regsB02 : List RegId :=
  [.HT_CTL, .HT_STAT, .HT_JOURNAL_LAG, .HT_MOVE_LIMIT, .HT_MIG_RETRY, .HT_PART_SLOT_BASE, 
   .HT_PART_SLOT_COUNT, .HT_PART_DESC_BASE_LO, .HT_PART_DESC_BASE_HI, .HT_PART_LIVE, .HT_PART_MOVING, 
   .HT_PFX_MEMBER_SEL, .HT_PFX_MEMBER_LO, .HT_PFX_MEMBER_HI, .HT_PFX_REKEY, .HT_PFX_CFG, 
   .HT_PFX_PAGES_CEIL, .HT_PFX_PAGES_MAX, .HT_PFX_PAGES, .HT_PFX_NODES_MAX, .HT_PFX_NODES, .HT_PFX_STAT]

/-- The registers of the block at offset 0x30_0000 (R36). -/
def regsB03 : List RegId :=
  [.CP_CTL, .CP_STAT, .CP_QUEUED, .CP_ACCT_SEL, .CP_ACCT_CFG, .CP_ACCT_METER_BASE, .CP_ACCT_BALANCE_LO, 
   .CP_ACCT_BALANCE_HI, .CP_ACCT_CREDIT_LO, .CP_ACCT_CREDIT_HI, .CP_ACCT_REFILL, .CP_ACCT_REFILL_MS, 
   .CP_ACCT_CAP, .CP_ACCT_BILLED_LO, .CP_ACCT_BILLED_HI, .CP_METER_SEL, .CP_METER_CIR, .CP_METER_CBS, 
   .CP_METER_PIR, .CP_METER_PBS, .CP_METER_TC, .CP_METER_TP, .CP_CLASS_CFG, .CP_CLASS_WEIGHT, 
   .CP_CLASS_DEFER_US, .CP_CLASS_YELLOW_MAX_US, .CP_CLASS_SHAPE_RATE, .CP_CLASS_QUEUED, .CP_CLASS_STAT, 
   .CP_PART_CLASS, .CP_PART_METER_BASE, .CP_PART_METER_COUNT, .CP_PART_QLIMIT, .CP_PART_QUEUED, 
   .CP_PART_PREEMPT_WAIT_NS, .CP_RING_CFG, .CP_GCL_CTL, .CP_GCL_STAT, .CP_GCL_COUNT, .CP_GCL_BASE, 
   .CP_GCL_CYCLE, .CP_GCL_CHANGE, .CP_GCL_STAGE_DUR, .CP_GCL_STAGE_OPEN, .CP_GCL_ACTIVE]

/-- The registers of the block at offset 0x40_0000 (R36). -/
def regsB04 : List RegId :=
  [.SP_CTL, .SP_LOOKAHEAD, .SP_T2_WR_TMO, .SP_ENG_CTL, .SP_ENG_STAT, .SP_PART_CFG, .SP_PART_VICTIM_AGE, 
   .SP_PART_NOTICE_RING, .SP_PART_PERSIST_TMO, .SP_PART_PERSIST_ACK_LO, .SP_PART_PERSIST_ACK_HI, 
   .SP_PART_SWAP_PAGES, .SP_PART_SWAP_LOW, .SP_T2_STAT, .SP_T2_CTL, .SP_T2_CAP, .CK_CTL, .CK_STAT, 
   .CK_PLAN_LO, .CK_PLAN_HI, .CK_RESTORE_LO, .CK_RESTORE_HI, .CK_CFG, .CK_SERIAL_LO, .CK_SERIAL_HI, 
   .CK_PROGRESS]

/-- The registers of the block at offset 0x60_0000 (R36). -/
def regsB06 : List RegId :=
  [.LA_CTL, .LA_ENG_CTL, .LA_ENG_STAT, .LA_STRAND_CFG, .LA_ENG_MAP]

/-- The registers of the block at offset 0x70_0000 (R36). -/
def regsB07 : List RegId :=
  [.LG_PREEMPT_CTL, .LG_PREEMPT_BOUND, .LG_GRP_STAT, .LG_GRP_SPILLS, .LG_SPILL_BASE_LO, .LG_SPILL_BASE_HI, 
   .LG_SPILL_SIZE, .LG_SPILL_USED, .LG_SPILL_POOL, .LG_SPILL_POOL_USED, .LG_SPILL_LOW, .LG_SPN_CTL, 
   .LG_SPN_STAT, .LG_SPN_TABLE_LO, .LG_SPN_TABLE_HI, .LG_SPN_PART, .LG_SPN_DIGEST_LO, .LG_SPN_DIGEST_HI, 
   .LG_SPN_FORM_TMO, .LG_SPN_STALL_TMO, .LG_SPN_SLIP_LIMIT, .LG_SPN_BUF_LO, .LG_SPN_BUF_HI, 
   .LG_SPN_BUF_SIZE, .LG_SPN_FAIL]

/-- The registers of the block at offset 0x80_0000 (R36). -/
def regsB08 : List RegId :=
  [.AD_CTL, .AD_ENG_CTL, .AD_ENG_STAT, .AD_ENG_MAP, .AD_PART_CFG, .AD_PART_PROG_MAX, .AD_PART_RING_CEIL, 
   .AD_PART_RING_USED, .AD_PART_BILLET_CEIL, .AD_PART_BILLET_USED, .AD_PART_PAGE_CEIL, .AD_PART_PAGE_USED, 
   .AD_PROG_STAT, .AD_PROG_RUNS, .AD_PROG_KEY, .AD_PROG_RING_BASE, .AD_PROG_PLACE]

/-- The registers of the block at offset 0x90_0000 (R36). -/
def regsB09 : List RegId :=
  [.WH_CTL, .WH_ENG_CTL, .WH_ENG_STAT, .WH_ENG_MAP, .WH_VOC_STAT, .WH_VOC_MAP, .WH_VOC_CEIL, .WH_VOC_USED, 
   .WH_VOC_DIGEST, .WH_XCACHE_CFG, .WH_XCACHE_STAT, .WH_PART_CFG]

/-- The registers of the block at offset 0xA0_0000 (R36). -/
def regsB0A : List RegId :=
  [.CL_CTL, .CL_ENG_CTL, .CL_ENG_STAT, .CL_ENG_MAP, .CL_GRAM_STAT, .CL_GRAM_PAGES, .CL_GRAM_OPEN, 
   .CL_PART_GRAM_CEIL, .CL_PART_GRAM_USED]

/-- The registers of the block at offset 0xB0_0000 (R36). -/
def regsB0B : List RegId :=
  [.BT_CTL, .BT_ENG_CTL, .BT_ENG_STAT, .BT_ENG_MAP, .BT_PART_CFG, .BT_PART_CTX_MAX, .BT_PART_CTX_LIVE, 
   .BT_PART_CANCELS, .BT_CANCEL_LO, .BT_CANCEL_HI]

/-- The registers of the block at offset 0xC0_0000 (R36). -/
def regsB0C : List RegId :=
  [.SK_CTL, .SK_ENG_CTL, .SK_ENG_STAT, .SK_ENG_MAP, .SK_IDX_STAT, .SK_IDX_NODES, .SK_IDX_SHAPE, 
   .SK_IDX_SEARCHES, .SK_PART_CFG, .SK_PART_IDX_MAX, .SK_PART_MERGE_LO, .SK_PART_MERGE_HI, 
   .SK_PART_MERGE_SIZE, .SK_PART_MERGE_USED, .SK_PART_ANSWER_RING, .SK_PART_HOLD_US]

/-- The registers of the block at offset 0xD0_0000 (R36). -/
def regsB0D : List RegId :=
  [.HF_CTL, .HF_STAT, .HF_DEVICE_ID, .HF_MARSHAL_ID, .HF_UID, .HF_SPAN_NAME_LO, .HF_SPAN_NAME_HI, 
   .HF_SPAN_RANGE, .HF_MARSHAL_PRIO, .HF_IDMAP_LO, .HF_IDMAP_HI, .HF_IDMAP_COUNT, .HF_TIME_CFG, 
   .HF_TIME_LOCK_NS, .HF_TIME_STAT, .HF_TIME_OFFSET, .HF_SPAN_LO, .HF_SPAN_MID, .HF_SPAN_HI, .HF_PPS_IN_TS, 
   .HF_E2E_TMO, .HF_LIFE_US, .HF_REPLAY_LIMIT, .HF_RING_FLOOR, .HF_RT_SEL, .HF_RT_ENTRY, .HF_LK_CTL, 
   .HF_LK_STAT, .HF_LK_PEER, .HF_LK_SER_LIMIT, .HF_LK_DOWN_MS, .HF_LK_UNACKED, .HF_LK_RTT_NS, .HF_LK_TX_LO, 
   .HF_LK_TX_HI, .HF_LK_RX_LO, .HF_LK_RX_HI, .HF_LK_REPLAY_LO, .HF_LK_REPLAY_HI, .HF_RA_ADDR_LO, 
   .HF_RA_ADDR_HI, .HF_RA_DATA_LO, .HF_RA_DATA_HI, .HF_RA_CMP_LO, .HF_RA_CMP_HI, .HF_RA_CMD, .HF_RA_STAT, 
   .HF_RA_RESULT_LO, .HF_RA_RESULT_HI, .HF_IN_RANGE]

/-- The registers of the block at offset 0xE0_0000 (R36). -/
def regsB0E : List RegId :=
  [.HP_LINK_STAT, .HP_CPL_TMO, .HP_FN_MAP, .HP_QP_TABLE_LO, .HP_QP_TABLE_HI, .HP_QP_CMD, .HP_QP_SEL, 
   .HP_QP_STAT, .HP_ETH_STAT, .HP_ETH_PFC_PRIO, .HP_ETH_MAC_LO, .HP_ETH_MAC_HI, .HP_ETH_IP4, 
   .HP_ETH_IP6_SEL, .HP_ETH_IP6, .HP_SEAL_STAT, .HP_DB_SUMMARY]

/-- The registers of the block at offset 0xF0_0000 (R36). -/
def regsB0F : List RegId :=
  [.FP_CFG, .FP_MEM_ACTIVE_TMO, .FP_SUB_STAT, .FP_RP_CFG_ADDR, .FP_RP_CFG_DATA, .FP_RP_CFG_CTL, .FP_RP_PART]

/-- The registers of the block at offset 0x100_0000 (R36). -/
def regsB10 : List RegId :=
  [.PM_INST_RESET, .PM_INST_STAT, .PM_RSP_TMO, .PM_RESET_CAUSE, .PM_BOOT_STAT, .PM_BOOT_CTL, 
   .PM_CFG_SEL_CODE, .PM_CORE_LIMIT, .PM_SPINE_WDT_MS, .PM_THROTTLE_C, .PM_POWER_CAP_W, .PM_THERM_STAT, 
   .PM_RST_HIST_HEAD, .PM_SNAP_AT, .PM_SNAP_ALL, .PM_FLASH_ADDR, .PM_FLASH_SRC_LO, .PM_FLASH_SRC_HI, 
   .PM_FLASH_LEN, .PM_FLASH_CMD, .PM_FLASH_STAT, .PM_FW_CTL, .PM_FW_STAT, .PM_DOM_REQ, .PM_DOM_STAT, 
   .PM_BACKUP_LO, .PM_BACKUP_HI]

/-- The registers of the block at offset 0x110_0000 (R36). -/
def regsB11 : List RegId :=
  [.LY_EVT_HEAD]

/-- The registers of the block at offset 0x120_0000 (R36). -/
def regsB12 : List RegId :=
  [.INJ_AUTH_STAT, .INJ_AUTH_EXPIRY, .INJ_CTL, .INJ_ARM, .INJ_STAT, .INJ_FIRED]

/-- The registers of the block at offset 0x130_0000 (R36). -/
def regsB13 : List RegId :=
  [.HM_SCRUB_CFG, .HM_STACK_STAT, .HM_STACK_TEMP, .HM_CH_STAT, .HM_SPARE_CMD, .HM_ROW_SPARE_THR, 
   .HM_SPARE_STAT]

/-- The registers of the block at offset 0x140_0000 (R36). -/
def regsB14 : List RegId :=
  [.AX_STAGE, .AX_ACTIVE, .AX_CTL, .AX_STAT, .AX_CEIL]

/-- The registers a block implements beyond its header. -/
def regsOf (b : Nat) : List RegId :=
  match b with
  | 0x0 => regsB00
  | 0x1 => regsB01
  | 0x2 => regsB02
  | 0x3 => regsB03
  | 0x4 => regsB04
  | 0x6 => regsB06
  | 0x7 => regsB07
  | 0x8 => regsB08
  | 0x9 => regsB09
  | 0xA => regsB0A
  | 0xB => regsB0B
  | 0xC => regsB0C
  | 0xD => regsB0D
  | 0xE => regsB0E
  | 0xF => regsB0F
  | 0x10 => regsB10
  | 0x11 => regsB11
  | 0x12 => regsB12
  | 0x13 => regsB13
  | 0x14 => regsB14
  | _ => []

/-- The indices by which offset `r` (from the register's base) names an element of the register, if it does. -/
def regIndex (row : RegRow) (r : Nat) : Option (Nat × Nat × Nat) :=
  let i := if row.d1.1 = 0 then 0 else r / row.d1.1
  let r1 := if row.d1.1 = 0 then r else r % row.d1.1
  let j := if row.d2.1 = 0 then 0 else r1 / row.d2.1
  let r2 := if row.d2.1 = 0 then r1 else r1 % row.d2.1
  let k := if row.d3.1 = 0 then 0 else r2 / row.d3.1
  let r3 := if row.d3.1 = 0 then r2 else r2 % row.d3.1
  if r3 = 0 ∧ i < row.d1.2 ∧ j < row.d2.2 ∧ k < row.d3.2 then some (i, j, k) else none

/-- A register with its indices. -/
structure RegAt where
  id  : RegId
  i   : Nat
  j   : Nat
  k   : Nat
deriving DecidableEq, Repr

/-- Looks an offset up among registers whose bases count from `org`. -/
def regFind (org : Nat) (off : Nat) : List RegId → Option RegAt
  | [] => none
  | id :: r =>
    let row := regRow id
    if off < org + row.base then regFind org off r
    else match regIndex row (off - (org + row.base)) with
      | some (i, j, k) => some ⟨id, i, j, k⟩
      | none => regFind org off r

/-- The register whose 32-bit word lies at a word-aligned offset of register space (R36, R37, R425). -/
def regDecode (off : Nat) : Option RegAt :=
  if off % 4 ≠ 0 then none
  else if 0x2000000 ≤ off then regFind 0 off dbRegs
  else if off < 0x1500000 then
    let b := off / 0x100000
    if off % 0x100000 < 0x24 then regFind (b * 0x100000) off hdrRegs
    else regFind 0 off (regsOf b)
  else none

/-- The offset of a register's word. -/
def regOff (id : RegId) (i j k : Nat) : Nat :=
  let row := regRow id
  row.base + i * row.d1.1 + j * row.d2.1 + k * row.d3.1

end Sys2Proof.Machine
end

