-- ==== Sys2Proof/Machine/State.lean ====
section
/-! DEFINITION. The state: every register, queue, table, mode and pin the spec gives the block, as plain data; the faults
and refusals a step can end in; and the state right after power-on reset. -/

namespace Sys2Proof.Machine

/-- The event-log entries the spec names (R528 leaves their numeric codes to the firmware). -/
inductive Ev where
  | ACCESS_VIOLATION | ACCOUNT_NOT_HELD | ACC_CEILING_CLIPPED | ACC_COMMIT_BUSY | ADDRESS_HOLE | ATTN_NONFINITE
  | ATTN_SATURATED | ATTN_SHARED_POISON | BOOT_GOOD_REFUSED | CANCEL_REJECTED | CFG_SEL_UNSTABLE | CKPT_BUSY
  | CKPT_COMMITTED | CKPT_RESTORED | CKPT_WARN_SKIPPED | CONF_DENIED | CONTROL_TEXT_FOUND | CORE_RESET_IGNORED
  | CP_CLASS_CEILING | CXL_EVENT | DOORBELL_OVERRUN | ENGINE_FENCED | FAILURE_WARNING | FILTER_TRIPPED
  | FLASH_PROTECTED | FP_ENUM_FAILED | FP_SURPRISE_REMOVAL | FW_ACTIVATED | FW_CHECK_FAILED | FW_REFUSED
  | GCL_INVALID | GRAMMAR_DEAD_END | HARAH_ATOMIC_TARGET | HARAH_WIDTH_CHANGE | HF_ID_CHANGED | HF_RA_BUSY
  | HOST_DMA_POISON | HOST_DMA_REFUSED | HOST_DMA_TIMEOUT | HOST_SEAL_MISMATCH | HOST_SEAL_REPLAY
  | HW_UPDATE_FAILED | INJ_UNAUTHORISED | INPUT_EVENT | INPUT_POISON | INPUT_RATE_LIMITED | INPUT_STUCK
  | INST_RESET_DENIED | INST_RETIRED | IRQ_VECTOR_INVALID | KEY_RELEASED | KEY_REVOKED | KV_BAD_OUTLIER
  | KV_DECODE_SATURATED | KV_NONFINITE | LAY_APPLIED | LAY_BUSY | LAY_REFUSED | LOGITS_NONFINITE | LOG_SUPPRESSED
  | LY_FW_REVERTED | MAIN_PWR_TIMEOUT | METER_RANGE | NOTICE_OVERFLOW | OWNER_BOUND | PAGE_FREE_REJECTED
  | PARTITION_TORN_DOWN | POWER_REQ_DEP | POWER_REQ_NOT_DRAINED | PREFIX_HASH_COLLISION | PROG_DIGEST_MISMATCH
  | PROG_KEY_ABSENT | PROG_WEIGHT_MISMATCH | READ_SIZE_VIOLATION | RECORD_DROPPED | REG_PARITY | RING_CFG_BUSY
  | RING_CFG_INVALID | RING_CQ_INVALID | RING_DISABLED | RING_DRAINING | RING_UNBOUND | SAMPLE_DEGENERATE
  | SEAL_MISMATCH | SESSION_DEMOTED | SESSION_DOUBLE_FREE | SESSION_EVICTED | SESSION_NONOWNER_FREE
  | SHADOW_SKIPPED | SKEIN_BAD_EDGE | SKEIN_INDEX_POISON | SKEIN_INDEX_WRITE | SKEIN_NONFINITE
  | SPINDLE_FORM_FAILED | SPINDLE_SLOW | SPINDLE_STALL | STUCK_CLEARED | T2_ADMIT_REFUSED | T2_PAGE_RETIRED
  | THERMAL_HOT | TIER_POISON | VOCAB_LOST | VOCAB_PAGE_MISMATCH | WRITE_DURING_RESET | WRITE_SIZE_VIOLATION
deriving DecidableEq, Repr

/-- The block that logs an event (R528 CODE [15:8]). -/
def Ev.blk : Ev → Nat
  | .ACCESS_VIOLATION => 0x14
  | .ACCOUNT_NOT_HELD => 0x3
  | .ACC_CEILING_CLIPPED => 0x14
  | .ACC_COMMIT_BUSY => 0x14
  | .ADDRESS_HOLE => 0x14
  | .ATTN_NONFINITE => 0x6
  | .ATTN_SATURATED => 0x6
  | .ATTN_SHARED_POISON => 0x6
  | .CANCEL_REJECTED => 0xB
  | .CKPT_BUSY => 0x4
  | .CKPT_COMMITTED => 0x4
  | .CKPT_RESTORED => 0x4
  | .CKPT_WARN_SKIPPED => 0x4
  | .CONF_DENIED => 0x1
  | .CONTROL_TEXT_FOUND => 0x9
  | .CP_CLASS_CEILING => 0x3
  | .CXL_EVENT => 0xF
  | .DOORBELL_OVERRUN => 0xE
  | .FAILURE_WARNING => 0x0
  | .FILTER_TRIPPED => 0x0
  | .FP_ENUM_FAILED => 0xF
  | .FP_SURPRISE_REMOVAL => 0xF
  | .FW_ACTIVATED => 0x0
  | .FW_REFUSED => 0x0
  | .GCL_INVALID => 0x3
  | .HARAH_ATOMIC_TARGET => 0xD
  | .HARAH_WIDTH_CHANGE => 0xD
  | .HF_ID_CHANGED => 0xD
  | .HF_RA_BUSY => 0xD
  | .HOST_DMA_POISON => 0xE
  | .HOST_DMA_REFUSED => 0xE
  | .HOST_DMA_TIMEOUT => 0xE
  | .HOST_SEAL_MISMATCH => 0xE
  | .HOST_SEAL_REPLAY => 0xE
  | .HW_UPDATE_FAILED => 0x1
  | .INJ_UNAUTHORISED => 0x12
  | .INPUT_EVENT => 0x0
  | .INPUT_RATE_LIMITED => 0x0
  | .INPUT_STUCK => 0x0
  | .IRQ_VECTOR_INVALID => 0xE
  | .KEY_RELEASED => 0x1
  | .KEY_REVOKED => 0x1
  | .KV_BAD_OUTLIER => 0x6
  | .KV_DECODE_SATURATED => 0x6
  | .KV_NONFINITE => 0x6
  | .LAY_APPLIED => 0x1
  | .LAY_BUSY => 0x1
  | .LAY_REFUSED => 0x1
  | .LOGITS_NONFINITE => 0xB
  | .LOG_SUPPRESSED => 0x0
  | .LY_FW_REVERTED => 0x0
  | .METER_RANGE => 0x3
  | .NOTICE_OVERFLOW => 0x4
  | .OWNER_BOUND => 0x1
  | .PAGE_FREE_REJECTED => 0x2
  | .PREFIX_HASH_COLLISION => 0x2
  | .PROG_DIGEST_MISMATCH => 0x8
  | .PROG_KEY_ABSENT => 0x8
  | .PROG_WEIGHT_MISMATCH => 0x8
  | .RECORD_DROPPED => 0xE
  | .RING_CFG_BUSY => 0xE
  | .RING_CFG_INVALID => 0xE
  | .RING_CQ_INVALID => 0xE
  | .RING_DISABLED => 0xE
  | .RING_DRAINING => 0xE
  | .RING_UNBOUND => 0xE
  | .SAMPLE_DEGENERATE => 0xB
  | .SEAL_MISMATCH => 0x4
  | .SESSION_DEMOTED => 0x2
  | .SESSION_DOUBLE_FREE => 0x2
  | .SESSION_EVICTED => 0x2
  | .SESSION_NONOWNER_FREE => 0x2
  | .SHADOW_SKIPPED => 0x4
  | .SKEIN_BAD_EDGE => 0xC
  | .SKEIN_INDEX_POISON => 0xC
  | .SKEIN_INDEX_WRITE => 0xC
  | .SKEIN_NONFINITE => 0xC
  | .SPINDLE_FORM_FAILED => 0x7
  | .SPINDLE_SLOW => 0x7
  | .SPINDLE_STALL => 0x7
  | .STUCK_CLEARED => 0x0
  | .T2_ADMIT_REFUSED => 0x4
  | .T2_PAGE_RETIRED => 0x4
  | .TIER_POISON => 0x4
  | .VOCAB_LOST => 0x9
  | .VOCAB_PAGE_MISMATCH => 0x9
  | _ => 0x10

/-- Whether an event is of a PERSIST class (R530: every fault, fence, retirement, failure warning and reset cause). -/
def Ev.persist : Ev → Bool
  | .ENGINE_FENCED => true
  | .FAILURE_WARNING => true
  | .FP_SURPRISE_REMOVAL => true
  | .INST_RETIRED => true
  | .PARTITION_TORN_DOWN => true
  | .REG_PARITY => true
  | .T2_PAGE_RETIRED => true
  | .THERMAL_HOT => true
  | .VOCAB_LOST => true
  | _ => false

/-- The kinds of message the device sends outward. -/
inductive Mk where
  | arpReply | cfgData | cfgDone | cfgRetry | cnp | downData | drs | harahAck | harahAnswer | harahDiscovery
  | harahForward | harahHello | harahReplay | harahReport | harahReq | harahRetrainAnswer | harahRetrainReq
  | harahRoutes | harahRsp | harahStore | harahWidthAnswer | harahWidthReq | hostData | localReq | msix | pldm
  | ptpDelayReq | regData | roceAck | roceNak | roceRead | rpCfg | spdm | tdo
deriving DecidableEq, Repr

/-- The block whose capture copies a counter (R43). -/
def Ct.blk : Ct → Nat
  | .HT_CMD_CNT => 0x2
  | .HT_STEP_ADMIT_CNT => 0x2
  | .HT_REFUSED_CNT => 0x2
  | .HT_STALE_CNT => 0x2
  | .HT_OWN_FAULT_CNT => 0x2
  | .HT_PAGE_FREE_REJ_CNT => 0x2
  | .HT_MOVE_ABANDON_CNT => 0x2
  | .HT_DEMOTE_CNT => 0x2
  | .HT_FAULTED_CNT => 0x2
  | .HT_CACHE_HIT_CNT => 0x2
  | .HT_CACHE_MISS_CNT => 0x2
  | .HT_FAILOVER_CNT => 0x2
  | .HT_EPOCH_DROP_CNT => 0x2
  | .SP_BYTES_RD => 0x4
  | .SP_BYTES_WR => 0x4
  | .SP_MOVE_CNT => 0x4
  | .SP_MOVE_FAIL_CNT => 0x4
  | .SP_MOVE_RESTART_CNT => 0x4
  | .SP_LATE_TILE_CNT => 0x4
  | .SP_CHEAP_PATH_CNT => 0x4
  | .SP_EVICT_CNT => 0x4
  | .SP_EVICT_SKIP_CNT => 0x4
  | .SP_SEAL_FAIL_CNT => 0x4
  | .SP_ZR64_SAVED_BYTES => 0x4
  | .SP_TORN_CNT => 0x4
  | .SP_SCRUB_CNT => 0x4
  | .SP_T2_RETIRED_CNT => 0x4
  | .SP_NOTICE_DROP_CNT => 0x4
  | .HM_CE_CNT => 0x13
  | .HM_UE_CNT => 0x13
  | .HM_RD_BYTES => 0x13
  | .HM_WR_BYTES => 0x13
  | .HM_ROW_SPARE_CNT => 0x13
  | .HM_SR_ENTRY_CNT => 0x13
  | .HT_PFX_LOOKUP_CNT => 0x2
  | .HT_PFX_HIT_CHUNK_CNT => 0x2
  | .HT_PFX_PUBLISH_CNT => 0x2
  | .HT_PFX_INSERT_CNT => 0x2
  | .HT_PFX_ADOPT_CNT => 0x2
  | .HT_PFX_EVICT_CNT => 0x2
  | .HT_PFX_COLLISION_CNT => 0x2
  | .HT_COW_COPY_CNT => 0x2
  | .HT_WINDOW_CONVERT_CNT => 0x2
  | .HT_SHADOW_CNT => 0x2
  | .LA_REQ_CNT => 0x6
  | .LA_ROW_CNT => 0x6
  | .LA_UNIT_CNT => 0x6
  | .LA_KV_BYTES => 0x6
  | .LA_STAGED_BYTES => 0x6
  | .LA_SHADOW_UNIT_CNT => 0x6
  | .LA_ABANDON_UNIT_CNT => 0x6
  | .LA_SAT_CNT => 0x6
  | .LA_NONFINITE_CNT => 0x6
  | .LA_RESTART_CNT => 0x6
  | .LA_CANCEL_CNT => 0x6
  | .LA_POISON_CNT => 0x6
  | .LG_PREEMPT_CNT => 0x7
  | .LG_SPILL_BILLET_CNT => 0x7
  | .LG_SPILL_POOL_CNT => 0x7
  | .LG_SPILL_MOVE_CNT => 0x7
  | .LG_RESUME_CNT => 0x7
  | .LG_PREEMPT_MAX_NS => 0x7
  | .LG_CHAIN_HOP_CNT => 0x7
  | .LG_SPN_GATHER_CNT => 0x7
  | .LG_SPN_FILL_CNT => 0x7
  | .LG_SPN_SHARD_TX_BYTES => 0x7
  | .LG_SPN_STATE_TX_CNT => 0x7
  | .LG_SPN_SLIP_CNT => 0x7
  | .LG_SPN_STALL_CNT => 0x7
  | .LG_SPN_DOWN_CNT => 0x7
  | .WH_TOK_CMD_CNT => 0x9
  | .WH_TOK_IN_BYTES => 0x9
  | .WH_TOK_OUT_CNT => 0x9
  | .WH_DETOK_TOKEN_CNT => 0x9
  | .WH_DETOK_OUT_BYTES => 0x9
  | .WH_BYTE_FALLBACK_CNT => 0x9
  | .WH_UNK_CNT => 0x9
  | .WH_ILLFORMED_IN_CNT => 0x9
  | .WH_REPLACEMENT_CNT => 0x9
  | .WH_CONTROL_TEXT_CNT => 0x9
  | .WH_LIMIT_CNT => 0x9
  | .WH_XCACHE_HIT_CNT => 0x9
  | .WH_XCACHE_MISS_CNT => 0x9
  | .WH_XCACHE_MISMATCH_CNT => 0x9
  | .WH_LOAD_CNT => 0x9
  | .WH_LOAD_FAIL_CNT => 0x9
  | .WH_RESTART_CNT => 0x9
  | .CL_MASK_CNT => 0xA
  | .CL_GRAM_STEP_CNT => 0xA
  | .CL_DEAD_END_CNT => 0xA
  | .CL_LOAD_CNT => 0xA
  | .CL_LOAD_FAIL_CNT => 0xA
  | .CL_RESTART_CNT => 0xA
  | .BT_GEN_OPEN_CNT => 0xB
  | .BT_STEP_CNT => 0xB
  | .BT_DRAW_CNT => 0xB
  | .BT_COMMIT_TOKEN_CNT => 0xB
  | .BT_ACCEPT_ROW_CNT => 0xB
  | .BT_WALK_WINDOW_STOP_CNT => 0xB
  | .BT_CANCEL_BEFORE_CNT => 0xB
  | .BT_CANCEL_AFTER_CNT => 0xB
  | .BT_CANCEL_LATE_CNT => 0xB
  | .BT_CANCEL_IDLE_CNT => 0xB
  | .BT_NONFINITE_CNT => 0xB
  | .BT_DEGENERATE_CNT => 0xB
  | .BT_RESTART_CNT => 0xB
  | .AD_LOAD_CNT => 0x8
  | .AD_LOAD_REFUSED_CNT => 0x8
  | .AD_LOAD_FAIL_CNT => 0x8
  | .AD_RUN_CNT => 0x8
  | .AD_RUN_FAIL_CNT => 0x8
  | .AD_PREEMPT_CNT => 0x8
  | .AD_RESUME_CNT => 0x8
  | .AD_PREEMPT_MAX_NS => 0x8
  | .AD_WEIGHT_TILE_CNT => 0x8
  | .AD_WEIGHT_TAG_FAIL_CNT => 0x8
  | .AD_DRAFT_CNT => 0x8
  | .AD_DRAFT_LATE_CNT => 0x8
  | .AD_DRAFT_MIXED_CNT => 0x8
  | .AD_RESTART_CNT => 0x8
  | .AD_ORDER_MISS_CNT => 0x8
  | .SK_SEARCH_CNT => 0xC
  | .SK_QUERY_CNT => 0xC
  | .SK_EVAL_CNT => 0xC
  | .SK_EXHAUSTIVE_CNT => 0xC
  | .SK_EVAL_LIMIT_CNT => 0xC
  | .SK_SHORT_CNT => 0xC
  | .SK_WIDEN_CNT => 0xC
  | .SK_FILTER_TEST_CNT => 0xC
  | .SK_FILTER_REJECT_CNT => 0xC
  | .SK_SHARD_SENT_CNT => 0xC
  | .SK_SHARD_MISSING_CNT => 0xC
  | .SK_SHARD_LATE_CNT => 0xC
  | .SK_BAD_EDGE_CNT => 0xC
  | .SK_NONFINITE_CNT => 0xC
  | .SK_OPEN_CNT => 0xC
  | .SK_OPEN_FAIL_CNT => 0xC
  | .SK_INDEX_WRITE_CNT => 0xC
  | .SK_POISON_CNT => 0xC
  | .SK_RESTART_CNT => 0xC
  | .CP_ADMIT_GREEN_CNT => 0x3
  | .CP_ADMIT_YELLOW_CNT => 0x3
  | .CP_UNMETERED_CNT => 0x3
  | .CP_REFUSE_CNT => 0x3
  | .CP_DEFERRED_CNT => 0x3
  | .CP_YELLOW_TIMEOUT_CNT => 0x3
  | .CP_GATE_HOLD_CNT => 0x3
  | .CP_SHAPE_HOLD_CNT => 0x3
  | .CP_PREEMPT_REQ_CNT => 0x3
  | .CP_CHARGE_SUM => 0x3
  | .CP_QUEUE_CANCEL_CNT => 0x3
  | .CP_WHEEL_LATE_CNT => 0x3
  | .PM_EPOCH_DROP_CNT => 0x10
  | .PM_INST_RESET_CNT => 0x10
  | .PM_FENCE_CNT => 0x10
  | .PM_SUBST_CNT => 0x10
  | .HW_LAY_APPLY_CNT => 0x1
  | .HW_LAY_REFUSE_CNT => 0x1
  | .HW_PART_TEARDOWN_CNT => 0x1
  | .HM_CH_SPARE_CNT => 0x13
  | .HP_RX_BYTES => 0xE
  | .HP_TX_BYTES => 0xE
  | .HP_DOORBELL_CNT => 0xE
  | .HP_OVERRUN_CNT => 0xE
  | .HP_DEFER_SKIP_CNT => 0xE
  | .HP_RECORD_DROP_CNT => 0xE
  | .HP_DMA_FAIL_CNT => 0xE
  | .HP_SEAL_FAIL_CNT => 0xE
  | .HP_SEAL_REPLAY_CNT => 0xE
  | .HP_ROCE_RX_PKT_CNT => 0xE
  | .HP_ROCE_NAK_CNT => 0xE
  | .HP_CNP_TX_CNT => 0xE
  | .HP_ETH_DROP_CNT => 0xE
  | .FP_RX_BYTES => 0xF
  | .FP_TX_BYTES => 0xF
  | .FP_POISON_CNT => 0xF
  | .FP_LINK_DOWN_CNT => 0xF
  | .HF_RD_CNT => 0xD
  | .HF_ST_CNT => 0xD
  | .HF_AT_CNT => 0xD
  | .HF_MSG_CNT => 0xD
  | .HF_IN_RD_CNT => 0xD
  | .HF_IN_ST_CNT => 0xD
  | .HF_IN_AT_CNT => 0xD
  | .HF_RD_BYTES => 0xD
  | .HF_ST_BYTES => 0xD
  | .HF_FWD_PKT_CNT => 0xD
  | .HF_E2E_TMO_CNT => 0xD
  | .HF_AGE_DROP_CNT => 0xD
  | .HF_IN_REFUSED_CNT => 0xD
  | .HF_ESCAPE_MOVE_CNT => 0xD
  | .HF_ROUTE_HOLD_CNT => 0xD
  | .HF_LK_TRAIN_FAIL_CNT => 0xD
  | .HF_LK_WIDTH_CHG_CNT => 0xD
  | .HF_LK_DOWN_CNT => 0xD
  | .HF_LK_CRC_FAIL_CNT => 0xD
  | .HF_LK_FEC_UNCORR_CNT => 0xD
  | .HF_TIME_LOSS_CNT => 0xD
  | .HW_RELEASE_CNT => 0x1
  | .HW_RELEASE_REFUSE_CNT => 0x1
  | .HW_REVOKE_CNT => 0x1
  | .HW_SPDM_SESSION_CNT => 0x1
  | .HW_CMD_CNT => 0x1
  | .HW_CMD_REFUSE_CNT => 0x1
  | .HW_CONF_DENIED_CNT => 0x1
  | .HW_DRBG_RESEED_CNT => 0x1
  | .HW_RESTART_CNT => 0x1
  | .CK_START_CNT => 0x4
  | .CK_COMMIT_CNT => 0x4
  | .CK_FAIL_CNT => 0x4
  | .CK_WARN_SKIP_CNT => 0x4
  | .CK_BYTES_WRITTEN => 0x4
  | .CK_BYTES_READ => 0x4
  | .CK_SHARD_RETRY_CNT => 0x4
  | .CK_SHARD_LOST_CNT => 0x4
  | .CK_VERIFY_FAIL_CNT => 0x4
  | .CK_RESTORE_CNT => 0x4
  | .CK_GROUP_REBUILT_CNT => 0x4
  | .CK_GROUP_LOST_CNT => 0x4
  | .CK_SESSION_LOST_CNT => 0x4
  | .PM_START_CNT => 0x10
  | .PM_FAILED_START_CNT => 0x10
  | .PM_RECOVERY_CNT => 0x10
  | .PM_CORE_RESET_CNT => 0x10
  | .PM_ESCALATE_CNT => 0x10
  | .PM_SYS_RST_N_REJECT_CNT => 0x10
  | .PM_THROTTLE_US => 0x10
  | .PM_POWER_CAP_US => 0x10
  | .PM_DOM_ON_CNT => 0x10
  | .PM_POWER_REQ_REFUSED_CNT => 0x10
  | _ => 0

/-- One entry of the event log (R528). The firmware's numeric codes are not pinned; the entry holds the event's name. -/
structure EvEntry where
  seq     : Nat
  time    : Nat
  ev      : Ev
  mst     : Nat
  part    : Nat
  dev     : Bool
  inj     : Bool
  persist : Bool
  pay     : Nat
deriving DecidableEq, Repr

/-- One message the device has sent outward: a packet, a response, an interrupt, read data. -/
structure Msg where
  kind : Mk
  args : List Nat
  data : List Byte
deriving DecidableEq, Repr

/-- One completion record as written (R61), beside the ring it was written for. -/
structure Rec where
  ring    : Nat
  tag     : Nat
  status  : Nat
  flags   : Nat
  com     : Nat
  billed  : Nat
  handle  : Nat
  detail  : Nat
deriving DecidableEq, Repr

/-! Engines: every engine, of whatever kind, has the states of R386 and R378. -/

inductive EngSt where | disabled | enabled | draining | fenced
deriving DecidableEq, Repr

/-- One engine instance (R125, R207, R252, R285, R306, R327, R378-R380). -/
structure Eng where
  st      : EngSt
  work    : Nat        -- work in flight on it (moves, strands, commands, queries)
  subst   : Bool       -- a spare serves its master ID
  serves  : Nat        -- the engine whose master ID it carries
  retired : Bool       -- failed self-test: never enabled again (R380)
  epoch   : BitVec 4
  preempting : Bool
deriving DecidableEq, Repr

/-- The access tables and injection slots (R55-R60, R68-R71), the holding banks (R43, R44) and the LH shadows (R46). -/
structure AxState where
  active  : NMap W32          -- entries in force, key 256 t + m
  epoch   : NMap (BitVec 4)   -- target epochs
  out     : NMap (List TileRef)   -- per target: the tiles under way at its last COMMIT
  injOn   : Bool              -- INJ_AUTH_STAT.ACTIVE
  injExp  : Nat               -- EXPIRY, span time
  injLclk : Nat               -- elapsed-time deadline of R484
  armed   : NMap Nat          -- armed slots: injections still to be made (0 = until disarmed)
  fired   : NMap Nat          -- injections made per slot
  firedCap : NMap Nat         -- as of the last capture (RS)
  capSeq  : NMap W32          -- XX_SNAP_SEQ, key 32 block + bank
  capTs   : NMap Nat          -- XX_SNAP_TS, same key
  capVal  : NMap (List (Nat × Nat))  -- captured counters: bank key -> (counter key, value)
  snapAll : Option Nat        -- armed PM_SNAP_ALL time
  shadow  : NMap W32          -- LH shadows: key of (register offset, master, function)
  parity  : NMap Nat          -- parity-fault marks: block -> lowest failing offset
  parInst : NMap Nat          -- instances fenced by a parity fault: key 4096 block + instance -> register offset
  unitEp  : NMap (BitVec 4)   -- XX_EPOCH of each block
  inReset : List Nat          -- blocks in reset
  unitFenced : List Nat       -- blocks fenced as a whole
  owed    : NMap (Nat × Nat)  -- responses owed under an earlier epoch, per block, and since when (R384)
deriving DecidableEq, Repr

/-- Session states (R77 codes 0-8). -/
inductive SlotSt where
  | free | active | stepping | parkedHot | parkedWarm | parkedCold | moving | evacuated | faulted
deriving DecidableEq, Repr

/-- Direction of a move (R77 DIR). -/
inductive MvDir where | none | out | inn | migrate
deriving DecidableEq, Repr

/-- A seal record (R117). -/
structure SealRec where
  tag    : Nat
  serial : Nat
  len    : Nat
  zr64   : Bool
deriving DecidableEq, Repr

/-- A block entry (R78) with its seal record, its shadow and whether it is shared (R164). -/
structure Blk where
  tier   : Nat
  torn   : Bool
  npages : Nat           -- pages minus 1
  addr   : Nat           -- address of the first page >> 16
  shr    : Bool
  sealr  : Option SealRec
  shadow : Option Nat    -- T1 offset of the coarse shadow (R162)
  pgen   : List Nat      -- PAGE_GEN of each of its pages, as the table holds it (R97)
deriving DecidableEq, Repr

/-- One layer's staged rows of a step: encoded K and V vectors, row by row, head by head (R157, R186). -/
structure Staged where
  layer : Nat
  base  : Nat
  rows  : Nat
  par   : List Nat          -- parent row of each row, 0xFFFF for the committed context
  bytes : List (List (List Byte))   -- row -> segment (2 head + K/V) -> token vector bytes
deriving DecidableEq, Repr

/-- A step in progress (R84, R186-R188). -/
structure Step where
  serial   : Nat
  rows     : Nat
  last     : Bool
  verify   : Bool
  cancel   : Bool
  deadline : Option Nat
  degraded : Bool
  noSpec   : Bool
  preempted : Bool
  staged   : List Staged
  newBlks  : List (Nat × Blk)      -- block entries opened for the step: entry index, pages as STAGING
  shadowed : NMap (List Byte)      -- entries whose path is the shadow for this step, with the shadow's bytes (R128, R129)
  accept   : Option (List Nat)     -- rows Bight accepted, root first
  failed   : Bool
  tree     : Bool                  -- tree step (R186)
  redo     : List (Nat × Nat)      -- (layer, BASE) that may be reissued after TARGET_RESET (R208)
  reported : List Ev               -- once-per-step events already logged
deriving DecidableEq, Repr

/-- A slot and its session descriptor (R73, R77). -/
structure Slot where
  st      : SlotSt
  dir     : MvDir
  migHeld : Bool
  tier    : Nat
  cause   : Nat
  gen     : Nat
  prevGen : Nat
  part    : Nat
  acct    : Nat
  tokens  : Nat
  node    : Nat
  chunks  : Nat
  blks    : List Blk
  last    : Nat
  home    : Nat
  policy  : BitVec 512
  step    : Option Step
  lastSerial : Option Nat      -- serial of the last ended step (R84)
  held    : List (Nat × BitVec 512)   -- held commands: ring, descriptor
  before  : SlotSt             -- state before the move
  revived : Bool               -- an AUTO_REVIVE preceded the step's service
  stepAt  : Option Nat         -- when the first request of a held step was admitted (R128)
  frozen  : Bool               -- captured by an evacuation that has not ended (R492)
deriving DecidableEq, Repr

/-- A page descriptor (R96) without its links. -/
inductive PgSt where | free | allocated | staging | torn | retired
deriving DecidableEq, Repr

structure Page where
  st   : PgSt
  part : Nat
  slot : Nat
  gen  : Nat
  pgen : Nat
deriving DecidableEq, Repr

/-- Why a move runs. -/
inductive MvWhy where | command | demotion | eviction | evacuation
deriving DecidableEq, Repr

/-- A session move in progress (R83, R124). -/
structure Move where
  slot   : Nat
  dir    : MvDir
  why    : MvWhy
  tier   : Nat                       -- destination tier
  dev    : Nat                       -- far-port device, or destination device of a migration
  serial : Nat
  eng    : Nat
  cmd    : Option (Nat × BitVec 512) -- ring and descriptor served
  also   : List (Nat × BitVec 512)   -- coalesced commands
  dst    : List (Nat × Blk)          -- entries as they will be at the destination
  pend   : List (Nat × Nat)          -- tiles without durable acknowledgement: entry, tile
  exts   : List (Nat × Nat)          -- extents of the list: address, pages
  path   : Bool                      -- T5 via Harah
  persist : Option Nat               -- PERSIST_ID asked for
  asked  : Option Nat                -- span time PERSIST_REQUEST was posted
  since  : Nat
deriving DecidableEq, Repr

/-- A migration at its destination (R94, R95). -/
structure MigIn where
  slot   : Nat      -- reserved slot here
  src    : Nat      -- source device
  old    : Nat      -- migrated handle
  complete : Bool
  askAt  : Nat      -- next HT_MIG_RETRY instant
deriving DecidableEq, Repr

/-- A migration at its source. -/
structure MigOut where
  slot  : Nat
  dev   : Nat
  part  : Nat
  rslot : Nat
  rgen  : Nat
  reserved : Bool
deriving DecidableEq, Repr

/-- A journal record not yet acknowledged (R100): what it commits is applied already only where it is an acceptance. -/
structure JRec where
  n    : Nat
  slot : Nat
deriving DecidableEq, Repr

/-- Hitch (chapter 3). -/
structure HtState where
  slots   : NMap Slot
  slotNext : NMap Nat           -- per partition: slots never yet taken start here (R74)
  freeQ   : NMap (List Nat)     -- per partition: freed slots, head first
  pages   : NMap Page
  runs    : NMap (List (Nat × Nat))   -- free runs: key 16 p + stack, or 16 p + 8 + far-port device
  share   : NMap Nat            -- share counts, by first page (R164)
  moves   : List Move
  mserial : Nat
  migOut  : List MigOut
  migIn   : List MigIn
  activeA : Bool
  aFenced : Bool
  bFenced : Bool
  inStep  : Bool
  resync  : Bool
  epoch   : BitVec 4
  journal : List JRec
  jnext   : Nat
  hot     : NMap (List (Nat × Nat))   -- age queue of PARKED_HOT slots per partition: slot, age origin (R522)
  warm    : NMap (List (Nat × Nat))
  waiting : List (Nat × BitVec 512)   -- commands held while evictions run (R132): ring, descriptor
deriving DecidableEq, Repr

/-- A COPY or ZERO in progress (R122, R124). -/
structure SpJob where
  ring  : Nat
  desc  : BitVec 512
  part  : Nat
  eng   : Nat
  pend  : List Nat     -- tiles without acknowledgement
  late  : Bool
  since : Nat
deriving DecidableEq, Repr

/-- Far-port device n as T2 (R136-R140). -/
structure FarDev where
  present : Bool
  accepting : Bool
  removing : Bool
  walking : Bool
  gone    : Bool
  admitted : Bool
  pages   : Nat
  faulted : Nat    -- sessions faulted by the walk in progress
  torn    : Nat
deriving DecidableEq, Repr

/-- A stack controller (R142, R518). -/
structure Stack where
  ready : Bool
  selfRefresh : Bool
  throttled : Bool
  fenced : Bool
  temp  : Int
  lastScrub : Nat
deriving DecidableEq, Repr

/-- Splice and the tiers (chapter 4). -/
structure SpState where
  jobs   : List SpJob
  swap   : NMap (List (Nat × Nat))     -- swap pool per partition: host address, pages
  heldNotes : NMap (List (List Byte))  -- notices held per partition
  far    : NMap FarDev
  scrubFail : NMap Nat                 -- failed scrubs of a TORN page
  tierKey : NMap Nat
  hbm : NMap Stack
  revOrder : NMap (List Nat)           -- learned layer order per program (R127)
deriving DecidableEq, Repr

/-- A prefix-tree node (R168). -/
structure Node where
  gen     : Nat
  parent  : Nat
  hash    : Nat
  ctx     : Nat
  depth   : Nat
  refs    : Nat
  kids    : Nat
  layers  : Nat
  heads   : Nat
  hd16    : Nat
  fmt     : Nat
  group   : Nat
  doomed  : Bool
  lastUse : Nat
  toks    : List Nat
  blks    : List Blk
deriving DecidableEq, Repr

/-- The prefix tree of the partitions (chapter 5). -/
structure PfxState where
  nodes  : NMap Node        -- live nodes: key partition * 2^24 + index
  gens   : NMap Nat         -- generations of freed indices
  freeQ  : NMap (List Nat)  -- freed indices, oldest first, per partition
  fresh  : NMap Nat         -- next index never used, per partition
  keys   : NMap Nat         -- share-group keys: partition * 64 + group (256 bits)
  member : NMap Nat         -- membership mask of each account
deriving DecidableEq, Repr

/-- A lane, residue or shard state of R194: the maximum (none is -infinity), the sum and the output vector, in FP32. -/
structure LSt where
  m : Option Nat
  l : Nat
  o : List Nat
deriving DecidableEq, Repr

/-- States of an attention request that hold it (R206); QUEUED is the time before it has engines. -/
inductive AqSt where | queued | running | preempted | combining
deriving DecidableEq, Repr

/-- An attention request inside Lathe (R206). -/
structure AReq where
  ring : Nat
  desc : BitVec 512
  slot : Nat
  part : Nat
  st   : AqSt
  engs : List Nat        -- engines holding its lanes
  out  : List Byte       -- the output bytes, once folded
  fl   : Nat             -- DEGRADED_KV, PREEMPTED, REVIVED so far
  since : Nat
deriving DecidableEq, Repr

/-- A spill record (R202): its owner, the group it came from, where it lies, its size. -/
structure Spill where
  ring   : Nat
  desc   : BitVec 512
  part   : Nat
  group  : Nat
  billet : Bool
  kib    : Nat
deriving DecidableEq, Repr

/-- Lathe (chapter 6). -/
structure LaState where
  reqs   : List AReq
  spills : List Spill     -- oldest first
deriving DecidableEq, Repr

/-- A gather request at a rank (R221): own shard subtree, children's states as they arrive. -/
structure SpnReq where
  layer : Nat
  step  : Nat
  desc  : BitVec 512
  ring  : Nat                      -- the home's ring
  tokens : Nat
  par   : List Nat                 -- parents of the step's staged rows so far
  own   : List LSt                 -- state per row and query head
  got   : NMap (List LSt)          -- by rank
  need  : List Nat                 -- child ranks still to report
  fl    : Nat
  since : Nat
deriving DecidableEq, Repr

/-- One FILL request at a rank (R224, R225): shard states so far, origins still to arrive. -/
structure FillReq where
  ring  : Nat
  desc  : BitVec 512
  parts : NMap (List LSt)          -- by global shard number
  need  : List Nat                 -- origin ranks still to arrive, in order
  done  : Bool
  since : Nat
deriving DecidableEq, Repr

/-- A ring context (R211-R229). -/
structure SpnCtx where
  st    : Nat                      -- 0 DOWN, 1 FORMING, 2 UP
  rank  : Nat
  n     : Nat
  sw    : Nat                      -- log2
  spm   : Nat                      -- log2
  slot  : Nat                      -- member slot on this device
  ringId : Nat
  table : List Nat                 -- handles by rank
  period : Nat
  t0    : Nat
  digest : Nat
  dPred : Option Nat
  dSucc : Option Nat
  formAt : Nat
  predAt : Nat                     -- when each neighbour was last heard
  succAt : Nat
  slow  : Bool
  slips : Nat                      -- consecutive
  disarm : Bool
  failRank : Nat
  failCause : Nat
  reqs  : List SpnReq
  fills : List FillReq
  rx    : Nat                      -- bytes of the incoming layer shard received
  held  : List (Nat × Nat × Nat)   -- shards to send: layer, pass, origin
  sent  : Nat                      -- shards sent whose buffers are not yet free
deriving DecidableEq, Repr

/-- States of a resident image slot: a vocabulary or grammar slot (R235, R261). -/
inductive ImgSt where | empty | loading | ready | draining | verifying
deriving DecidableEq, Repr

/-- A vocabulary or grammar slot. -/
structure ImgSlot where
  st      : ImgSt
  pages   : Nat                 -- pages per die in use
  copies  : NMap (List Nat)     -- die -> the T1 pages of its copy and index, image first
  len     : Nat                 -- bytes of the image
  digest  : List Byte
  entries : Nat
  vocab   : Nat                 -- of a grammar: the vocabulary slot bound
  owner   : Nat                 -- partition
  cmd     : Option (Nat × BitVec 512)   -- the load or unload in progress
  failed  : Bool                -- a copy failed
deriving DecidableEq, Repr

/-- A die's external cache (R237). -/
structure XCache where
  addr  : Nat                   -- host address of the image whose pages it holds
  table : List Byte             -- its page digest table, once checked
  pages : List (Nat × List Byte)   -- checked pages, oldest first
deriving DecidableEq, Repr

/-- A text chunk on its way (R250): its entry, the stream record once it is acknowledged, whether it has been written. -/
structure Chunk where
  bytes   : List Byte
  record  : Option (List Byte)
  written : Bool
deriving DecidableEq, Repr

/-- The stream of an open generation (R250, R252). -/
structure Strm where
  addr   : Nat                  -- T1 offset of the stream record
  ring   : Nat
  voc    : Nat
  die    : Nat
  eng    : Nat
  cur    : List Byte            -- the record as it will be after every chunk
  chunks : List Chunk           -- not yet acknowledged, oldest first
  closed : Bool
deriving DecidableEq, Repr

/-- Whittle (chapter 8). -/
structure WhState where
  voc     : NMap ImgSlot
  xc      : NMap XCache
  streams : NMap Strm           -- by session slot
deriving DecidableEq, Repr

/-- The SAMPLE in progress of a generation (R274-R277). -/
structure SampleRun where
  ring   : Nat
  desc   : BitVec 512
  out    : List (Nat × Nat)     -- tokens drawn, with LOGP2
  rows   : List Nat             -- rows the walk stood on, root first
  passed : Bool                 -- past its commit point
  eng    : Nat                  -- Bight engine
  cleat  : Nat                  -- Cleat engine
  endSt  : Option (Nat × Nat)   -- end condition met at the last token: status, flags
  gq     : Nat                  -- grammar position after the last token
  stack  : List Nat
  counts : NMap Nat
deriving DecidableEq, Repr

/-- An open generation: Bight's context (R254-R284). -/
structure Gen where
  ring   : Nat
  desc   : BitVec 512
  part   : Nat
  handle : Nat
  die    : Nat
  acct   : Nat
  param  : List Byte            -- the sampling record, as copied
  allow  : List Nat
  counts : NMap Nat             -- token -> count
  gq     : Nat
  stack  : List Nat             -- grammar stack, top first
  last   : Nat                  -- the generation's last token
  com    : Nat                  -- tokens committed
  cancel : Bool
  run    : Option SampleRun
  endSt  : Option (Nat × Nat)   -- status and flags of the generation record
  natural : Bool                -- the final token is committed
  fl     : Nat
deriving DecidableEq, Repr

/-- Cleat and Bight (chapter 9). -/
structure BtState where
  gram   : NMap ImgSlot         -- key 16 p + g
  gens   : NMap Gen             -- by session slot
  lastCancel : List Nat         -- handles whose last generation ended by a cancel
deriving DecidableEq, Repr

/-- A program slot (R291-R303). Its states are those of a vocabulary slot (R302). -/
structure Prog where
  st      : ImgSt
  mask    : Nat                 -- dies of the LOAD
  cont    : List Byte           -- the container, as copied
  copies  : NMap (List Nat)     -- die -> T1 pages of its stage's sections
  staged  : NMap Nat            -- die -> first page of its staged section
  ringBase : Nat
  owner   : Nat
  cmd     : Option (Nat × BitVec 512)   -- the LOAD or UNLOAD in progress
deriving DecidableEq, Repr

/-- States of a RUN (R306). -/
inductive RunSt where | queued | running | preempted
deriving DecidableEq, Repr

/-- A RUN that is admitted and not complete (R304-R312). -/
structure Run where
  ring   : Nat
  desc   : BitVec 512
  part   : Nat
  k      : Nat
  rep    : Nat                  -- replica
  st     : RunSt
  engs   : List Nat
  args   : List Byte
  start  : Nat
  draft  : Option Nat           -- the session's slot
  mixed  : Bool                 -- a COPY accepted after its start has overwritten a staged tile (R311)
  pre    : Bool
deriving DecidableEq, Repr

/-- Adze (chapter 10). -/
structure AdState where
  progs  : NMap Prog            -- key 256 p + k
  runs   : List Run             -- oldest first
  noSpec : List (Nat × Nat)     -- steps marked NO_SPECULATION: session slot, serial (R312)
deriving DecidableEq, Repr

/-- An index slot (R316); LOADING stands for OPENING. -/
structure IdxSlot where
  st     : ImgSt
  mask   : Nat                  -- dies with a usable copy
  verify : Bool
  copies : List Nat             -- offset of the copy on each die, 0 outside the mask
  hdr    : List Byte
  owner  : Nat
  cmd    : Option (Nat × BitVec 512)
deriving DecidableEq, Repr

/-- A sharded SEARCH at its home (R329). -/
structure ShardRun where
  ring    : Nat
  desc    : BitVec 512
  part    : Nat
  serial  : Nat
  n       : Nat
  k       : Nat
  queries : Nat
  tmo     : Nat                 -- microseconds
  start   : Nat
  eng     : Nat
  bytes   : Nat                 -- merge space reserved
  status  : NMap Nat            -- status byte of each shard that has answered
  blocks  : NMap (List Byte)    -- blocks read, by shard
deriving DecidableEq, Repr

/-- Result blocks a remote holds in its merge area (R329). -/
structure MergeHold where
  part   : Nat
  serial : Nat
  bytes  : Nat
  since  : Nat
deriving DecidableEq, Repr

/-- Skein (chapter 11). -/
structure SkState where
  idx    : NMap IdxSlot         -- key 64 p + slot
  runs   : List ShardRun
  holds  : List MergeHold
  serial : Nat
deriving DecidableEq, Repr

/-- An account's run-time (R342-R344, R364). -/
structure Acct where
  cfg     : W32
  base    : Nat
  balance : Int
  creditLo : W32
  refill  : Nat
  ms      : Nat
  cap     : Nat
  billed  : Nat
  next    : Nat     -- next refill instant
deriving DecidableEq, Repr

/-- A meter (R346); bucket contents in micro-units. -/
structure Meter where
  cir : Nat
  cbs : Nat
  pir : Nat
  pbs : Nat
  tc  : Nat
  tp  : Nat
  last : Nat
  used : Bool
deriving DecidableEq, Repr

/-- One share of a queued item: the server it is queued on (R354). -/
structure Share where
  srv    : Nat
  charge : Nat
  sent   : Bool
  tagS   : Nat    -- S and F it was dispatched with
  tagF   : Nat
deriving DecidableEq, Repr

/-- A fetched descriptor inside the device, from admission to its record (R340, R356-R362). -/
structure Item where
  id      : Nat
  ring    : Nat
  desc    : BitVec 512
  part    : Nat
  acct    : Nat
  cls     : Nat
  charge  : Nat
  yellow  : Bool
  metered : Bool
  meter   : Option Nat
  admAt   : Nat
  deferred : Bool
  shares  : List Share
  gateHeld : Bool
  stepHeld : Bool       -- held under R84 for a later step
  release : Option Nat  -- shaper release time, once at the head (R349)
  released : Bool
  preempted : Bool
  sentAt  : Nat
deriving DecidableEq, Repr

/-- Tags of one queue (server, class, colour): the head's S and the last F (R356). -/
structure QTag where
  s : Nat
  f : Nat
  fLast : Nat
  head : Option Nat   -- the item whose S and F they are
deriving DecidableEq, Repr

/-- A gate list (R350). -/
structure Gcl where
  entries : List (Nat × Nat)   -- duration ns, open mask
  base    : Nat
  cycle   : Nat
deriving DecidableEq, Repr

/-- Gate lists of a partition (R351). -/
structure GclRt where
  active  : Option Gcl
  pending : Option (Gcl × Nat)  -- with its switch time
deriving DecidableEq, Repr

/-- Capstan (chapter 12). -/
structure CpState where
  accts  : NMap Acct
  meters : NMap Meter
  items  : List Item
  nextId : Nat
  vt     : NMap Nat       -- virtual times: server * 2 + tier
  tags   : NMap QTag      -- queues: (server * 64 + class) * 2 + tier
  ePrev  : NMap Nat       -- shaper state per class
  gcl    : NMap GclRt
  accSel : NMap Nat       -- CP_ACCT_SEL per requester
  mtrSel : NMap Nat       -- CP_METER_SEL per requester
  served : List Nat       -- servers that have completed an item since the last reset
  preempt : NMap Nat      -- preemption in flight per server -> item
deriving DecidableEq, Repr

/-- Run-time of one partition (R377, R389, R390). -/
structure PartRt where
  faulted  : Bool
  applying : Bool
  drained  : Bool   -- the clean-up of a teardown has finished
deriving DecidableEq, Repr

/-- The lay image in force and the partitions (chapter 13). -/
structure LayState where
  laid     : Bool
  img      : Lay
  floor    : Nat
  cause    : Nat
  busy     : Bool
  part     : NMap PartRt
  instBusy : Option (Nat × Nat)  -- instance under self-test: block, instance
  instRes  : Nat
  spareLeft : NMap Nat           -- spare channels left per stack (fused 2)
  copying  : List Nat            -- channels being copied to a spare
  spared   : List Nat
  chFenced : List Nat
  rowsSpared : NMap Nat
  rowsLeft : NMap Nat
  rowCe    : NMap Nat            -- correctable errors per row: key channel * 2^20 + row
  retired  : List (Nat × Nat)    -- retirement list: block, instance
  poison   : List (Nat × Nat)    -- runs of poisoned 64-byte lines: first line number (address / 64), count
  scrubbing : List Nat
deriving DecidableEq, Repr

inductive RingSt where | disabled | enabled | draining
deriving DecidableEq, Repr

/-- The run-time of one ring (R398-R403); its configuration is in the register file. -/
structure Ring where
  st      : RingSt
  p       : W32
  c       : W32
  resv    : Nat                      -- entries reserved in it for descriptors
  stalled : Bool
  cqLog   : Bool                     -- RING_CQ_INVALID logged for the present wait
  irqAcc  : Nat                      -- entries accrued, not signalled
  irqAt   : Nat                      -- span time of the first of them
  held    : List (Bool × List Byte)  -- entries held while the host link is down (NOTIFY, bytes)
deriving DecidableEq, Repr

/-- A sealed context (R410). -/
structure Seal where
  part : Nat
  key  : Nat
  out  : Nat
  high : Nat
  seen : List Nat
deriving DecidableEq, Repr

inductive QpSt where | reset | ready | error
deriving DecidableEq, Repr

/-- A queue pair (R416, R424). -/
structure Qp where
  st    : QpSt
  cause : Nat
  epsn  : Nat
  ctx   : List Byte
deriving DecidableEq, Repr

/-- An Ethernet port (R414). -/
structure Eth where
  up     : Bool
  paused : Bool
  ip6    : Nat
  serdes : Bool     -- new SerDes firmware pending
deriving DecidableEq, Repr

/-- A far-port sub-port (R421, R422, R426). -/
structure SubPort where
  prsnt  : Bool
  up     : Bool
  speed  : Nat
  width  : Nat
  enumd  : Bool
  failed : Bool
  wait   : Option Nat   -- waiting for Memory_Active since
  cap    : Nat          -- reported capacity in pages, of the device that is training
deriving DecidableEq, Repr

/-- A request of the device's to a host-port address that has no completion yet (R406). -/
structure Dma where
  id    : Nat
  ring  : Nat
  desc  : BitVec 512   -- the descriptor whose request it is
  slot  : Option Nat   -- or the session whose move it serves
  start : Nat
deriving DecidableEq, Repr

/-- Host port, rings, Ethernet and far port (chapter 14). -/
structure HpState where
  up      : Bool
  speed   : Nat
  width   : Nat
  serdes  : Bool
  epoch   : BitVec 4
  rings   : NMap Ring
  numVfs  : Nat
  cfg     : NMap W32        -- PCIe configuration space written: key function * 1024 + dword
  seals   : NMap Seal
  qps     : NMap Qp
  eth     : NMap Eth
  dma     : List Dma
  dmaNext : Nat
  subs    : NMap SubPort
  rpBusy  : Bool
  rpRes   : Nat
  flrDone : List Nat        -- functions that have been reset and not yet used again
deriving DecidableEq, Repr

/-- Link states, with the codes of HF_LK_STAT (R460). -/
inductive LkSt where | disabled | training | up | widthChange | retraining | down | draining
deriving DecidableEq, Repr

/-- A transaction packet waiting at, or sent on, a link: virtual channel, link packets it takes, tag of this device's own
request (none: a response, or another device's packet), time it began to wait for credits. -/
structure HPkt where
  vc    : Nat
  n     : Nat
  tag   : Option Nat
  since : Nat
  dst   : Nat       -- destination device, for a move to the escape route
deriving DecidableEq, Repr

/-- One Harah link (R427-R436, R460). -/
structure HLink where
  st     : LkSt
  width  : Nat               -- 0 none, 1 x1, 2 x2, 3 x4
  lanes  : Nat               -- lanes in use
  good   : Nat               -- own receive-good mask
  border : Bool
  fenced : Bool
  epoch  : BitVec 4
  peer   : Nat               -- peer device ID
  peerQuad : Nat
  peerUid : Nat
  txSeq  : Nat               -- SEQ of the next data packet
  rxSeq  : Nat               -- SEQ expected
  naking : Bool
  unacked : List HPkt        -- one entry per link packet, oldest first
  wait   : List HPkt
  credit : NMap Nat          -- slots held per virtual channel
  tx     : Nat
  rx     : Nat
  replayed : Nat
  runs   : Nat               -- replays in a row without ACK advancing
  since  : Nat               -- time of entry into the present state
  ackAt  : Nat               -- time ACK last advanced
  owed   : Bool              -- a data packet is unacknowledged by this end
  owedAt : Nat               -- since when
  nakAt  : Nat               -- when NAK was last sent
  ctlAt  : Nat               -- when the control messages were last sent
  ownReq : Option Nat        -- own unanswered request: 0 width, 1 retrain
  again  : Option Nat        -- request to make again after the winner's
  want   : Option (Nat × Nat)  -- width and lanes being changed to
  ctl    : List Msg          -- control messages not yet answered
  rtt    : Nat
deriving DecidableEq, Repr

/-- What a Harah request was sent for. -/
inductive HfWhat where
  | mailbox (p : Nat)
  | reserve (slot : Nat)                    -- HT_RESERVE
  | copy (slot : Nat)                       -- a session move's tiles
  | arrived (slot : Nat)
  | release (slot : Nat)
  | ask (slot : Nat)
  | job (ring : Nat) (desc : BitVec 512)    -- the tiles of a COPY
  | ring (ctx : Nat) (kind : Nat) (step : Nat)
  | shard (search : Nat) (k : Nat)
deriving DecidableEq, Repr

/-- A request of this device's without a response (R437, R452). -/
structure HfReq where
  tag   : Nat
  dst   : Nat
  ty    : Nat       -- TYPE of R437
  part  : Nat
  birth : Nat       -- span time of issue
  quad  : Nat
  off   : Nat
  len   : Nat
  what  : HfWhat
  held  : Bool      -- held for a route change (R444)
  aop   : Nat
  data  : List Byte -- data of a held request
deriving DecidableEq, Repr

/-- A link of the span as the marshal knows it: lower end first is not required; both directions are kept. -/
structure HEdge where
  a  : Nat          -- unique IDs
  qa : Nat
  b  : Nat
  qb : Nat
  border : Bool
deriving DecidableEq, Repr

/-- A device of the span as discovery tells of it. -/
structure HNode where
  uid  : Nat
  id   : Option Nat
  prio : Nat
deriving DecidableEq, Repr

/-- Time following (R453-R457). -/
structure HfTime where
  locked  : Bool
  stepped : Bool
  everLock : Bool
  inRow   : Nat      -- consecutive measurements within the bound
  outRow  : Nat      -- consecutive measurements beyond four times the bound
  last    : Int      -- last measured offset
  slew    : Int      -- correction still to be slewed
  stopped : Bool     -- offset beyond 1 ms since first lock: waits for RESTEP
  ppsTs   : Nat
  ppsOut  : Bool
  ppsAt   : Nat
  t1      : Option Int   -- PTP: the last Sync's departure, arrival, and the last Delay_Req's departure
  t2      : Int
  t3      : Int
  path    : Int          -- measured path delay
  coarse  : Option Int   -- SRC 5: offset of the time of day from PTP
deriving DecidableEq, Repr

/-- A remote-access mailbox (R461). -/
structure HfBox where
  busy   : Bool
  status : Nat
  result : Nat
  fence  : Option (List Nat)   -- tags a FENCE in progress still waits for
deriving DecidableEq, Repr

/-- Harah (chapter 15). -/
structure HfState where
  idValid : Bool
  devId   : Nat               -- the backup register that retains the ID (R445)
  links   : NMap HLink
  routes  : NMap Nat          -- route entry per destination ID; unlisted: 0x000F
  routed  : Bool
  holdDst : List Nat          -- destinations whose ordered requests are held (R444)
  marshal : Bool
  standby : Bool
  marshalId : Nat
  marshalAt : Nat             -- when the marshal was last heard
  nodes   : List HNode
  edges   : List HEdge
  time    : HfTime
  box     : NMap HfBox
  reqs    : List HfReq
  tagNext : Nat

deriving DecidableEq, Repr

/-- A partition's measurement log (R470): its value, the records held (the last 1,024), whether records were dropped. -/
structure PartLog where
  l    : List Byte
  recs : List (List Byte)
  excess : Bool
deriving DecidableEq, Repr

/-- Requests that wait for a restart of Heartwood to end (R467). -/
inductive HwHeld where
  | lay (p : Nat) (x : LayImg)
  | command (op : Nat) (pf0 : Bool) (c : List Byte) (sig : Bool)
deriving DecidableEq, Repr

/-- An SPDM session (R471, R483): its number, whether FINISH has completed it, the requester's leaf public key where it has
authenticated, whether that key is a management credential, the transport. -/
structure HwSess where
  id   : Nat
  live : Bool
  leaf : Option Nat
  mgmt : Bool
  via  : Nat
deriving DecidableEq, Repr

/-- Heartwood (chapter 16). -/
structure HwState where
  ready   : Bool
  restarting : Option Nat      -- the firmware slot named by ACTIVATE
  fwSlot  : Nat
  fw      : FwImg              -- running images, measured (R469 indices 2, 4, 5, 6)
  ly      : FwImg
  spine   : FwImg
  serdes  : FwImg
  fuses   : Nat                -- the fused unary counter (R479)
  store   : NMap OpKey
  storeOk : Bool
  nonce   : Nat
  cmdRes  : Nat
  keys    : NMap Nat           -- partition keys (R476, R477)
  scratch : Nat
  keep    : List Nat           -- weight keys released with KEEP_ON_UPDATE, keyed as wkeys
  keepCtx : List Nat           -- sealed contexts released so
  owner   : NMap Nat           -- SHA-384 of the leaf key bound to a partition (R474)
  sess    : List HwSess
  sessNext : Nat
  stage   : NMap Nat           -- per transport: 0 nothing, 1 version, 2 capabilities, 3 algorithms negotiated
  chunk   : NMap (List Byte)   -- bytes of a large request received by CHUNK_SEND so far, per transport
  chunkOut : NMap (List Byte)   -- the rest of a large response, for CHUNK_GET
  held    : List HwHeld
  injDigest : Nat              -- SHA-384 of the command that authorised injection
deriving DecidableEq, Repr

/-- A power domain (R560-R562): 0 off, 1 on, 2 low power; changing; ready; a request deferred until its dependency is ready. -/
structure Dom where
  st    : Nat
  goal    : Option Nat     -- the state it changes to
  ready : Bool
  defer : Bool
deriving DecidableEq, Repr

/-- A compute die's thermal state (R564). -/
structure Therm where
  level  : Nat
  temp   : Int
  coolAt : Nat           -- since when the hottest sensor has been 3 degrees below the limit, or the level last fell
deriving DecidableEq, Repr

/-- Reset, power and boot (chapter 19) and the pins behind them. -/
structure PmState where
  stbyOk  : Bool
  mainOk  : Bool
  mainEn  : Bool
  rstLow  : Bool         -- SYS_RST_N held low
  enAt    : Nat          -- uptime at which MAIN_PWR_EN rose, or MAIN_PWR_TIMEOUT was last logged
  offHold : Bool         -- held at the end of step 1 by a management power-off
  tripLow : Bool         -- THERMTRIP_N driven low
  step    : Nat          -- steps of R540 finished; 11: READY
  level   : Nat
  source  : Nat
  multiple : Bool
  trigs   : Nat          -- triggers since the last READY
  mean    : Nat
  spread  : Nat
  band    : Nat
  slot    : Nat
  role    : Nat
  mgmt    : Nat
  recovery : Bool
  romRec  : Bool
  good    : Bool
  lyDead  : Bool         -- neither Lanyard bank passes (R554)
  ringsOff : Bool        -- no spine image passes in recovery (R554)
  sdDead  : Bool         -- no SerDes image passes (R554)
  chipA   : FlashChip
  chipB   : FlashChip
  flash   : List Host.Cell   -- bytes programmed by PM_FLASH_CMD: key chip * 2^24 + offset
  erased  : List (Nat × Nat) -- ranges of keys erased since manufacture: first, count
  flashRes : Nat
  backup  : NMap Nat     -- backup registers 0-7 (R548)
  coreCnt : Nat          -- core resets in the present window of R543, and its start
  coreWin : Nat
  ret     : NMap W32     -- the lower half of retained memory, by word
  hist    : List (List Byte)   -- the newest 1,024 reset-history records, oldest first
  histHead : Nat
  fwRes   : Nat
  sdNext  : Option FwImg -- new SerDes firmware that not every port runs yet
  sdPend  : List Nat     -- quads laid as Harah, and 13 for the far port, that have not taken it
  lowTo   : Nat          -- uptime until which MAIN_PWR_EN is held low (R576)
  doms    : NMap Dom
  therm   : NMap Therm
  excess    : Bool         -- a power limit of R565 is exceeded
deriving DecidableEq, Repr

/-- A shard of a checkpoint (R487, R496, R497): state 0 writing, 1 reading back, 2 done. -/
structure CkShard where
  tgt    : Nat
  lost   : Bool
  st     : Nat
  tries  : Nat          -- failed writes
  vfails : Nat          -- failed read-backs
  at0    : Nat          -- byte of the target's extents at which it begins
  bytes  : List Byte
deriving DecidableEq, Repr

/-- A group (R494): kind 0 tree, 1 ring, 2 shared, 3 session. -/
structure CkGroup where
  kind   : Nat
  u      : Nat
  first  : Nat          -- first session index
  count  : Nat          -- sessions
  shards : List CkShard
deriving DecidableEq, Repr

/-- A captured session (R490, R498): its descriptor, its entries (0 private with payload bytes, 1 tree node index, 2 first page
of a shared block) and its private payloads; where its record begins. -/
structure CkSess where
  handle : Nat
  active : Bool
  desc   : List Byte
  ents   : List (Nat × Nat)
  pay    : List Byte
  group  : Nat
  count  : Nat
  off    : Nat
deriving DecidableEq, Repr

/-- A target of a plan (R486): tier, Harah path, PERSIST_ID, the shard extents, the manifest extents. -/
structure CkTarget where
  tier  : Nat
  path  : Bool
  pid   : Nat
  exts  : List (Nat × Nat)
  man   : Option (List (Nat × Nat))
deriving DecidableEq, Repr

/-- A plan (R486). -/
structure CkPlan where
  key  : Nat
  gib  : Nat
  tgts : List CkTarget
deriving DecidableEq, Repr

/-- A restore in progress (R502-R505). -/
structure CkRestore where
  man    : List Byte
  plan   : CkPlan
  report : Nat × Nat             -- offset and size of the report buffer
  ckk    : Nat
  next   : Nat                   -- group to be restored next
  plain  : NMap (List Byte)      -- opened groups still needed
  nodes  : NMap Nat              -- captured node ID -> node ID here
  shared : NMap (Nat × Nat × List Nat)  -- record index -> first page, pages, their PAGE_GENs
  recIx  : Nat                   -- records of the stream met so far
  rings  : Nat                   -- ring records met so far
  ents   : List (Nat × Nat × Nat)    -- report: captured handle, restored handle, cause
  rebuilt : Nat
  lost   : List Nat              -- lost groups
deriving DecidableEq, Repr

/-- A partition's checkpoint engine (R488-R507). Phase 0 idle, 1 capturing, 2 writing, 3 manifest, 4 restoring. -/
structure Ck where
  phase  : Nat
  result : Nat
  evac   : Bool
  verify : Bool
  serial : Nat
  last   : Nat                   -- CK_SERIAL
  ckk    : Nat
  plan   : Option CkPlan
  start  : Nat
  wait   : List Nat              -- slots still to be captured
  nodes  : NMap (List Byte)      -- records of tree nodes by index, of shared blocks by first page
  shr    : NMap (List Byte)
  rings  : List (List Byte)
  sess   : List CkSess
  groups : List CkGroup
  progress : Nat
  manifest : List Byte
  restore : Option CkRestore
deriving DecidableEq, Repr

/-- A filter (R510-R514): state, previous sample, the counter's baseline, HOLD count, next sample time (span). -/
structure LyFilter where
  y    : Int
  p    : Int
  base : Option Nat
  baseline : Bool        -- BASELINE: the last sample took the baseline only
  run  : Nat             -- consecutive samples at or above HI
  tripped : Bool
  due  : Nat
deriving DecidableEq, Repr

/-- A sleep group (R515-R520): 0 AWAKE, 1 DRAINING, 2 ASLEEP, 3 WAKING. -/
structure LyGroup where
  st      : Nat
  drained : List (Nat × Nat)   -- engines Lanyard drained: block, engine
  idleAt  : Option Nat         -- idle since
  queue   : List Nat           -- domains still to start, in wake order
  lastAt  : Nat                -- when the last domain was started
deriving DecidableEq, Repr

/-- A conditioned input (R524). -/
structure LyInput where
  level : Bool      -- debounced pad level
  since : Nat       -- uptime of its last change
  stuck : Bool
  cnt   : Nat       -- events passed in the present window
  excess  : Nat       -- events beyond MAX in it
deriving DecidableEq, Repr

/-- A GPIO pin (R525, R572): a function switch since this uptime, the write held during it. -/
structure LyPin where
  sw   : Option Nat
  held : Option W32
deriving DecidableEq, Repr

/-- Lanyard (chapter 18). -/
structure LyState where
  flt   : NMap LyFilter
  grp   : NMap LyGroup
  watch : Bool
  hbmAt : Nat               -- when a move, a Hitch command or Harah ingress last touched HBM
  tele  : NMap (List Byte)  -- the last 256 telemetry records, by number mod 256
  teleHead : Nat
  teleAt : Nat
  bankB : Bool              -- code bank in use: B
  upd   : Option (Nat × FwImg)   -- new firmware entered at this uptime, in place of this image
  ins   : NMap LyInput
  win   : Nat               -- number of the present 100 ms window of uptime
  secAt : Nat               -- uptime at which the present second of log rates ends
  pins  : NMap LyPin
  slotPwr : Nat             -- FP_SLOT_PWR_EN[3:0]
  power : Nat               -- the last power estimate, in units of 2^-8 W
deriving DecidableEq, Repr

/-- Instructions of the test access port (R580); none is loaded in Test-Logic-Reset. -/
inductive TapIns where | bypass | samplePreload | idcode | extest | clamp | highz | extestPulse | extestTrain
deriving DecidableEq, Repr

/-- The test access port (R580-R582): the instruction loaded and the boundary register's cells, by ball. -/
structure TapState where
  ins   : Option TapIns
  cells : List Bool
deriving DecidableEq, Repr

/-- The whole machine. -/
structure State where
  pending : List Instr          -- commands waiting, first in first out (the model's queue)
  span    : BitVec 80           -- span time (R18, R453)
  uptime  : Nat                 -- nanoseconds since power-on (R535 counts microseconds of it)
  fv      : Nat                 -- the model's own count of free values used
  regs    : NMap W32            -- register file: words written, by offset in register space
  ctr     : NMap Nat            -- RS counters (R43), key of counter, index and partition
  mem     : List Host.Cell      -- device window: HBM, Billet export, far-port memory
  hmem    : List Host.Cell      -- host memory, by host address
  evts    : List EvEntry        -- the event log, oldest first (R529)
  evtSeq  : Nat
  evtRate : NMap Nat            -- entries this second, per block
  evtSupp : NMap Nat            -- entries suppressed this second, per block
  journal : List EvEntry        -- the flash journal (R530)
  tx      : List Msg            -- messages sent outward
  recs    : List Rec            -- completion records written
  ax      : AxState
  lay     : LayState
  hp      : HpState
  cp      : CpState
  ht      : HtState
  pfx     : PfxState
  sp      : SpState
  engs    : NMap Eng             -- engines: key 1024 * block + engine number
  la      : LaState
  spn     : NMap SpnCtx
  wh      : WhState
  bt      : BtState
  ad      : AdState
  sk      : SkState
  hf      : HfState
  plog    : NMap PartLog
  wkeys   : NMap Nat             -- released weight keys: partition * 2^32 + KEY_ID (R473)
  hw      : HwState
  pm      : PmState
  ck      : NMap Ck
  evacBy  : NMap Nat             -- serial under which a slot was evacuated (R504)
  ly      : LyState
  tap     : TapState
deriving DecidableEq, Repr

/-- Why a step ends in a fault. -/
inductive Fault where
  /-- Raised by nobody: every failure the spec describes is a status, a record, a log entry or a fence, and the machine goes on;
  safe. -/
  | noSuchMemory
deriving DecidableEq, Repr

/-- Why a step has no meaning. -/
inductive Refusal where
  /-- Raised by an arm of exec whose command has no meaning yet (none is left); safe. -/
  | notModelled (mnemonic : String)
deriving DecidableEq, Repr

/-- Every block is in reset until the release sequence of R540 has released it. -/
def axReset : AxState :=
  { active := [], epoch := [], out := [], injOn := false, injExp := 0, injLclk := 0, armed := [],
    fired := [], firedCap := [], capSeq := [], capTs := [], capVal := [], snapAll := none, shadow := [], parity := [],
    parInst := [], unitEp := [], inReset := List.range 21, unitFenced := [], owed := [] }

def emptyLay : Lay :=
  { serial := 0, digest := 0, conduct := 0, parts := [], quads := [], perstReset := false, fns := [], grpDom := [],
    farMode := false, bifur := 0, exported := [], carve := [], bankOf := [], ways := [], ax := [], axCeil := [], voc := [], reserve := [] }

/-- Two spare channels are fused for each stack (R381). -/
def layReset : LayState :=
  { laid := false, img := emptyLay, floor := 0, cause := 0, busy := false, part := [], instBusy := none, instRes := 0,
    spareLeft := [], copying := [], spared := [], chFenced := [], rowsSpared := [], rowsLeft := [], rowCe := [],
    retired := [], poison := [], scrubbing := [] }

def hpReset : HpState :=
  { up := false, speed := 0, width := 0, serdes := false, epoch := 0, rings := [], numVfs := 0, cfg := [], seals := [],
    qps := [], eth := [], dma := [], dmaNext := 0, subs := [], rpBusy := false, rpRes := 0, flrDone := [] }

/-- R363: every virtual time and tag 0, every meter full at first use, every account disabled with balance 0. -/
def cpReset : CpState :=
  { accts := [], meters := [], items := [], nextId := 0, vt := [], tags := [], ePrev := [], gcl := [], accSel := [],
    mtrSel := [], served := [], preempt := [] }

/-- R100: after system reset Hitch A is active and a standby is in step (HT_STAT). -/
def htReset : HtState :=
  { slots := [], slotNext := [], freeQ := [], pages := [], runs := [], share := [], moves := [], mserial := 0, migOut := [],
    migIn := [], activeA := true, aFenced := false, bFenced := false, inStep := true, resync := false, epoch := 0,
    journal := [], jnext := 0, hot := [], warm := [], waiting := [] }

/-- R180: the tree is empty. -/
def pfxReset : PfxState :=
  { nodes := [], gens := [], freeQ := [], fresh := [], keys := [], member := [] }

def spReset : SpState :=
  { jobs := [], swap := [], heldNotes := [], far := [], scrubFail := [], tierKey := [], hbm := [], revOrder := [] }

/-- R431: every link DISABLED until the lay is applied; R455: span time free-running from 0; R443: every destination
unreachable. -/
def hfReset : HfState :=
  { idValid := false, devId := 0, links := [], routes := [], routed := false, holdDst := [], marshal := false,
    standby := false, marshalId := 0, marshalAt := 0, nodes := [], edges := [],
    time := { locked := false, stepped := false, everLock := false, inRow := 0, outRow := 0, last := 0, slew := 0,
              stopped := false, ppsTs := 0, ppsOut := false, ppsAt := 0, t1 := none, t2 := 0, t3 := 0, path := 0,
              coarse := none },
    box := [], reqs := [], tagNext := 0 }

def fw0 : FwImg := ⟨false, 0, 0, 0⟩

/-- R479, R480: as manufactured the fuse counter is 0 and the store fresh. -/
def hwReset : HwState :=
  { ready := false, restarting := none, fwSlot := 0, fw := fw0, ly := fw0, spine := fw0, serdes := fw0, fuses := 0, store := [],
    storeOk := false, nonce := 0, cmdRes := 0, keys := [], scratch := 0, keep := [], keepCtx := [], owner := [], sess := [],
    sessNext := 0, stage := [], chunk := [], chunkOut := [], held := [], injDigest := 0 }

def lay0Img : LayImg :=
  { readable := false, wellFormed := false, keySlot := 0, sig := false, uidOk := false, serial := 0, conduct := 0, raise := false,
    rules := false, lay := emptyLay }

/-- An erased boot-flash chip. -/
def chip0 : FlashChip := ⟨fw0, fw0, fw0, fw0, lay0Img, none⟩

/-- R567: level 1, source 0x01; backup registers and retained memory clear. -/
def pmReset : PmState :=
  { stbyOk := false, mainOk := false, mainEn := false, rstLow := false, enAt := 0, offHold := false, tripLow := false, step := 0,
    level := 1, source := 1, multiple := false, trigs := 0, mean := 0, spread := 0, band := 0, slot := 0, role := 0, mgmt := 0,
    recovery := false, romRec := false, good := false, lyDead := false, ringsOff := false, sdDead := false, chipA := chip0,
    chipB := chip0, flash := [], erased := [], flashRes := 0, backup := [], coreCnt := 0, coreWin := 0, ret := [], hist := [], histHead := 0,
    fwRes := 0, sdNext := none, sdPend := [], lowTo := 0, doms := [], therm := [], excess := false }

/-- R513, R535: filters unseeded until power-on; every group awake; the log second and window from uptime 0. -/
def lyReset : LyState :=
  { flt := [], grp := [], watch := false, hbmAt := 0, tele := [], teleHead := 0, teleAt := 0, bankB := false, upd := none, ins := [],
    win := 0, secAt := 1000000000, pins := [], slotPwr := 0, power := 0 }

/-- The machine right after power-on, before step 1 of the release sequence (R537, R540, R567). -/
def State.reset : State :=
  { pending := [], span := 0, uptime := 0, fv := 0, regs := [], ctr := [], mem := [], hmem := [], evts := [], evtSeq := 0,
    evtRate := [], evtSupp := [], journal := [], tx := [], recs := [], engs := [],
    ax := axReset, lay := layReset, hp := hpReset, cp := cpReset, ht := htReset, pfx := pfxReset, sp := spReset, la := { reqs := [], spills := [] }, spn := [], wh := { voc := [], xc := [], streams := [] }, bt := { gram := [], gens := [], lastCancel := [] }, ad := { progs := [], runs := [], noSpec := [] }, sk := { idx := [], runs := [], holds := [], serial := 0 }, plog := [], wkeys := [], hf := hfReset, hw := hwReset, pm := pmReset, ck := [], evacBy := [], ly := lyReset,
    tap := { ins := none, cells := [] } }

end Sys2Proof.Machine
end

