-- ==== Sys2Proof/Machine/Ops.lean ====
section
/-! DEFINITION. The named operations every meaning is built from: time, free values, counters, the event log, outgoing
messages, memory and its checks, registers, rings and completion records. The state is each operation's last argument. -/

namespace Sys2Proof.Machine

/-- What a command answers when it has an effect. -/
abbrev Result := Host.Outcome State Fault Refusal

/-! ### Time, free values, counters -/

/-- Span time in nanoseconds. -/
def now (s : State) : Nat := s.span.toNat

/-- Takes the next free value. -/
def fresh (s : State) : Nat × State := (Config.free s.fv, { s with fv := s.fv + 1 })

/-- The next free value, as a hint of R86, R360 (an estimate R9 does not pin). -/
def hintOf (s : State) : Nat := Config.free s.fv % 0x1000000

/-- Counts that a free value has been used. -/
def useFree (s : State) : State := { s with fv := s.fv + 1 }

/-- Key of a counter: its name, its index and the partition whose share it is (16 is the device-wide figure). -/
def ctrKey (c : Ct) (i p : Nat) : Nat := c.ctorIdx * 2 ^ 24 + (i % 2 ^ 16) * 32 + p % 32

/-- A 64-bit counter as partition `p`'s bank shows it (R43, R44). -/
def ctrGet (c : Ct) (i p : Nat) (s : State) : Nat := ngetD s.ctr (ctrKey c i p) 0

/-- Adds to a counter, for a partition and for the device. -/
def ctrAdd (c : Ct) (i p n : Nat) (s : State) : State :=
  let m := nmod s.ctr (ctrKey c i 16) 0 fun v => (v + n) % 2 ^ 64
  { s with ctr := if p < 16 then nmod m (ctrKey c i p) 0 fun v => (v + n) % 2 ^ 64 else m }

/-- Raises a counter by one for partition `p`. -/
def ctr (c : Ct) (p : Nat) (s : State) : State := ctrAdd c 0 p 1 s

/-- Sets a counter that holds a maximum (R210 LG_PREEMPT_MAX_NS, R313 AD_PREEMPT_MAX_NS). -/
def ctrMax (c : Ct) (p n : Nat) (s : State) : State :=
  let m := nmod s.ctr (ctrKey c 0 16) 0 (max n)
  { s with ctr := if p < 16 then nmod m (ctrKey c 0 p) 0 (max n) else m }

/-! ### The event log (R528-R530) and outgoing messages -/

/-- Appends an entry. A block that has logged 1,024 entries this second only counts further ones (R529); the log holds
4,096 entries; PERSIST classes go to the journal of 65,536 (R530). -/
def evtAs (e : Ev) (inj : Bool) (q : Req) (pay : Nat) (s : State) : State :=
  let n := ngetD s.evtRate e.blk 0
  if 1024 ≤ n then
    { s with evtSupp := nmod s.evtSupp e.blk 0 (· + 1)
             ctr := nmod s.ctr (ctrKey .LY_EVT_SUPPRESSED_CNT 0 16) 0 (· + 1) }
  else
    let x : EvEntry := ⟨s.evtSeq, now s, e, q.mst.toNat, q.part.toNat, q.dev, inj, e.persist, pay⟩
    { s with evts := (s.evts ++ [x]).drop (s.evts.length + 1 - 4096)
             evtSeq := (s.evtSeq + 1) % 2 ^ 32
             evtRate := nset s.evtRate e.blk (n + 1)
             journal := if e.persist then (s.journal ++ [x]).drop (s.journal.length + 1 - 65536) else s.journal
             ctr := nmod (if e.persist then nmod s.ctr (ctrKey .LY_JOURNAL_CNT 0 16) 0 (· + 1) else s.ctr)
               (ctrKey .LY_EVT_CNT 0 16) 0 (· + 1) }

/-- Appends an entry without the injected marker. -/
def evt (e : Ev) (q : Req) (pay : Nat) (s : State) : State := evtAs e false q pay s

/-- The requester of what a unit does by itself: its master ID, for partition `p`. -/
def unitReq (mst : BitVec 8) (p : Nat) : Req := ⟨mst, 0, BitVec.ofNat 4 p, false⟩

def hitchReq (s : State) (p : Nat) : Req := unitReq (if s.ht.activeA then 0xA0 else 0xA1) p

/-- Sends a message outward. -/
def send (k : Mk) (args : List Nat) (data : List Byte) (s : State) : State := { s with tx := s.tx ++ [⟨k, args, data⟩] }

/-! ### Memory: canonical sparse bytes; an unlisted byte reads 0 -/

def memGet (m : List Host.Cell) (a : Nat) : Byte := ngetD m a 0

def memPut (m : List Host.Cell) (a : Nat) (b : Byte) : List Host.Cell := if b = 0 then ndel m a else nset m a b

def memRead (m : List Host.Cell) (a : Nat) : Nat → List Byte
  | 0 => []
  | n + 1 => memGet m a :: memRead m (a + 1) n

def memWrite (m : List Host.Cell) (a : Nat) : List Byte → List Host.Cell
  | [] => m
  | b :: r => memWrite (memPut m a b) (a + 1) r

/-- A host-port address has bit 63 set (R106, R394). -/
def isHost (a : Nat) : Bool := bit a 63

/-- The host address a host-port address names. -/
def hostAddr (a : Nat) : Nat := a % 2 ^ 63

/-- `n` bytes at a device-window offset or host-port address. -/
def rdBytes (s : State) (a n : Nat) : List Byte :=
  if isHost a then memRead s.hmem (hostAddr a) n else memRead s.mem a n

/-- The little-endian number in `n` bytes. -/
def rdNat (s : State) (a n : Nat) : Nat := leNat (rdBytes s a n)

/-- Takes the lines `lo` to `hi - 1` out of a run. -/
def cutRun (lo hi : Nat) (r : Nat × Nat) : List (Nat × Nat) :=
  [(r.1, min (r.1 + r.2) lo - r.1), (max r.1 hi, r.1 + r.2 - max r.1 hi)].filter fun x => x.2 != 0

/-- Clears the poison of every 64-byte line a write covers whole (R381). -/
def unpoison (ps : List (Nat × Nat)) (a n : Nat) : List (Nat × Nat) :=
  let lo := ceilDiv a 64
  let hi := (a + n) / 64
  if hi ≤ lo then ps else (ps.map (cutRun lo hi)).flatten

/-- Writes bytes at a device-window offset or host-port address. -/
def wrBytes (a : Nat) (bs : List Byte) (s : State) : State :=
  if isHost a then { s with hmem := memWrite s.hmem (hostAddr a) bs }
  else { s with mem := memWrite s.mem a bs, lay.poison := unpoison s.lay.poison a bs.length }

/-- Whether any 64-byte line of a range is poisoned (R381). -/
def poisoned (s : State) (a n : Nat) : Bool :=
  !isHost a && s.lay.poison.any fun l => a < 64 * (l.1 + l.2) && 64 * l.1 < a + n

/-! ### The device window (R33, R34, R54, R585) -/

def hbmEnd : Nat := 0x6000000000
def billetBase : Nat := 0x8000000000
def billetEnd : Nat := 0x8010000000
def farBase : Nat := 0x100000000000
def farEnd : Nat := 0x200000000000
def regBase : Nat := 0xFFFF00000000
def regEnd : Nat := 0xFFFF04000000

/-- Stack of an HBM offset (R585). -/
def stackOf (a : Nat) : Nat := a / 0xC00000000
/-- Channel index (target) of an HBM offset (R585). -/
def chanOf (a : Nat) : Nat := 32 * (a / 0xC00000000) + (a % 0xC00000000) / 0x60000000
/-- First offset of a channel. -/
def chanBase (t : Nat) : Nat := (t / 32) * 0xC00000000 + (t % 32) * 0x60000000
/-- Compute die that owns a stack (two stacks each, R3). -/
def dieOfStack (st : Nat) : Nat := st / 2
/-- First offset of far-port device n (R136). -/
def farStart (n : Nat) : Nat := farBase + n * 0x40000000000

def farDev0 : FarDev := ⟨false, false, false, false, false, false, 0, 0, 0⟩

/-- Where a window offset leads (R33, R54). -/
inductive Place where
  | hole
  | target (t : Nat)
  | void            -- register-space offsets of no block: read 0, writes discarded (R36)
deriving DecidableEq, Repr

def placeOf (s : State) (a : Nat) : Place :=
  if a < hbmEnd then .target (chanOf a)
  else if a < billetBase then .hole
  else if a < billetEnd then
    let b := (a - billetBase) / 0x400000
    if s.lay.img.exported.contains b then .target (256 + b) else .hole
  else if a < farBase then .hole
  else if a < farEnd then
    let n := (a - farBase) / 0x40000000000
    let d := ngetD s.sp.far n farDev0
    if s.lay.img.farMode && d.present && !d.gone && (a - farStart n) / 65536 < d.pages then .target (385 + n) else .hole
  else if a < regBase then .hole
  else if a < regEnd then
    let o := a - regBase
    if 0x2000000 ≤ o then .target (320 + (o - 0x2000000) / 0x200 / 2048)
    else if o < 0x1500000 then .target (352 + o / 0x100000)
    else .void
  else .hole

/-- The offsets at which an access of `n` bytes is looked at: every 4 MiB, and its last byte. -/
def probes (a n : Nat) : List Nat := ((List.range ((n - 1) / 0x400000 + 1)).map fun i => a + i * 0x400000) ++ [a + n - 1]

/-- Kind of an access at an access table (R55). -/
inductive Acc where | rd | wr | at
deriving DecidableEq, Repr

/-- The entry in force for a master at a target (R55). -/
def axEntry (s : State) (t m : Nat) : W32 :=
  (nget s.ax.active (256 * t + m)).getD (ngetD s.lay.img.ax (256 * t + m) 0)

/-- Step 2 of R35. An unlaid device has no tables; only PF0 serves it, and only in register space (R370). -/
def axAdmits (s : State) (q : Req) (k : Acc) (t : Nat) : Bool :=
  if !s.lay.laid then q.dev && 320 ≤ t && t < 384
  else
    let e := (axEntry s t q.mst.toNat).toNat
    (match k with | .rd => bit e 16 | .wr => bit e 17 | .at => bit e 18) &&
    (if q.dev then bit e 19 else bit e q.part.toNat)

/-- The block that a target belongs to, for its resets (R60). -/
def tgtBlock (t : Nat) : Nat :=
  if t < 256 then 0x13 else if t < 320 then 0x05 else if t < 352 then 0x0E else if t < 373 then t - 352
  else if t = 384 then 0x0D else 0x0F

/-- A target's present epoch. -/
def axEpochOf (s : State) (t : Nat) : BitVec 4 := ngetD s.ax.epoch t 0

/-- A status with its DETAIL; status 0 is DONE. -/
structure Verdict where
  st  : Nat
  det : Nat
deriving DecidableEq, Repr

def okV : Verdict := ⟨0, 0⟩

/-- First failing step of R35 over the probed offsets: any hole first, then any refusal, then any target in reset. -/
def accessCheck (s : State) (q : Req) (k : Acc) (a n : Nat) : Verdict :=
  if n = 0 then okV
  else
    let ps := (probes a n).map (placeOf s)
    let ts := ps.filterMap fun | .target t => some t | _ => none
    if ps.contains .hole then ⟨stAddressHole, detTarget none⟩
    else match ts.find? fun t => !axAdmits s q k t with
      | some t => ⟨stFaultAccess, detTarget (some t)⟩
      | none => match ts.find? fun t => s.ax.inReset.contains (tgtBlock t) with
        | some t => ⟨stTargetReset, detReset (some t) (axEpochOf s t)⟩
        | none => okV

/-- The outcome of a device access to a host-port address while the link is down: TARGET_RESET (R396, R406). -/
def anyCheck (s : State) (q : Req) (k : Acc) (a n : Nat) : Verdict :=
  if isHost a then (if s.hp.up then okV else ⟨stTargetReset, detReset none s.hp.epoch⟩) else accessCheck s q k a n

/-! ### Partitions as the lay image draws them -/

def partPlan (s : State) (p : Nat) : Option PartPlan :=
  match nget s.lay.img.parts p with
  | some x => if s.lay.laid && x.enable then some x else none
  | none => none

def partRt (s : State) (p : Nat) : PartRt := ngetD s.lay.part p ⟨false, false, false⟩

/-- A partition that the lay image makes confidential (R478). -/
def isConf (s : State) (p : Nat) : Bool := match partPlan s p with | some pl => pl.conf | none => false

/-- The partition a ring belongs to (R425). -/
def ringPart (s : State) (r : Nat) : Option Nat :=
  if s.lay.laid then
    (s.lay.img.parts.find? fun e => e.2.enable && e.2.rings.any fun x => x.1 ≤ r && r ≤ x.2).map (·.1)
  else none

/-- The partition a function is bound to (R395). -/
def fnPart (s : State) (f : Nat) : Option Nat := if s.lay.laid then nget s.lay.img.fns f else none

/-- The partition a Capstan class belongs to (R334). -/
def classPart (s : State) (c : Nat) : Option Nat :=
  if s.lay.laid then
    (s.lay.img.parts.find? fun e => e.2.enable && e.2.clsBase ≤ c && c < e.2.clsBase + e.2.clsCount).map (·.1)
  else none

/-- Stacks on which a partition owns a channel, as a mask (R79). -/
def ownStacks (pl : PartPlan) : Nat :=
  (List.range 8).foldl (fun m st => if pl.channels.any (fun c => c / 32 == st) then m + 2 ^ st else m) 0

/-! ### The register file -/

/-- RW bits of a register word, with the few that depend on the index (R43 span times of 80 bits, R567 backup registers). -/
def rwMask (ra : RegAt) : Nat :=
  match ra.id with
  | .CP_GCL_BASE | .CP_GCL_CHANGE => if ra.k = 0 ∧ ra.j = 2 then 0xFFFF else (regRow ra.id).rw
  | .AX_STAGE => 0xFFFFF
  | .PM_SNAP_AT => if ra.i = 2 then 0xFFFF else (regRow ra.id).rw
  | .PM_BACKUP_LO | .PM_BACKUP_HI => if ra.i < 8 then 0 else (regRow ra.id).rw
  | id => (regRow id).rw

/-- Reset value of a register's RW bits (the tables' Reset column). -/
def rwReset (s : State) (ra : RegAt) : Nat :=
  match ra.id with
  | .HF_IN_RANGE => if ra.j = 0 then 0xFFFF0000 else 0x0000FFFF
  | .HT_PFX_PAGES_MAX => match partPlan s ra.i with | some pl => pl.pfxCeil | none => 0
  | .LY_MGMT_TCP => 4815
  | .AX_STAGE => (axEntry s ra.i ra.j).toNat
  | id => (regRow id).rst

/-- The function a confidential partition's rings are fixed to (R478): the one bound to it. -/
def confFn (s : State) (r : Nat) : Option Nat :=
  match ringPart s r with
  | some p => if isConf s p then (s.lay.img.fns.find? fun e => e.2 == p).map (·.1) else none
  | none => none

/-- The RW bits of a register as they stand. -/
def regRw (s : State) (ra : RegAt) : Nat :=
  match (if ra.id = .DB_OWNER then confFn s ra.i else none) with
  | some f => f
  | none =>
    match nget s.regs (regOff ra.id ra.i ra.j ra.k) with
    | some v => v.toNat
    | none => rwReset s ra

/-- Short form: a register by its indices. -/
def rg (s : State) (id : RegId) (i : Nat := 0) (j : Nat := 0) (k : Nat := 0) : Nat := regRw s ⟨id, i, j, k⟩

/-- Stores the RW bits of a register. -/
def regPut (ra : RegAt) (v : Nat) (s : State) : State :=
  { s with regs := nset s.regs (regOff ra.id ra.i ra.j ra.k) (BitVec.ofNat 32 v &&& BitVec.ofNat 32 (rwMask ra)) }

/-- Short form of `regPut`. -/
def rp (id : RegId) (i j k : Nat) (v : Nat) (s : State) : State := regPut ⟨id, i, j, k⟩ v s

/-- A 64-bit value held in a LO/HI pair of registers. -/
def rg64 (s : State) (lo hi : RegId) (i : Nat) : Nat := rg s lo i + 2 ^ 32 * rg s hi i

/-- An 80-bit span time held in three words. -/
def rg80 (s : State) (id : RegId) (i : Nat) (last : Bool) : Nat :=
  if last then rg s id i 0 + 2 ^ 32 * rg s id i 1 + 2 ^ 64 * rg s id i 2
  else rg s id 0 + 2 ^ 32 * rg s id 1 + 2 ^ 64 * rg s id 2

/-- Sets or clears one bit of a register's RW bits. -/
def regSetBit (id : RegId) (i bitNo : Nat) (v : Bool) (s : State) : State :=
  let x := rg s id i
  rp id i 0 0 (if v then x ||| 2 ^ bitNo else x - (if bit x bitNo then 2 ^ bitNo else 0)) s

/-- The block a register lies in. -/
def regBlock (id : RegId) : Nat := (regRow id).base / 0x100000

/-- Whether partition `p` sees a register in its view (R38): the block's table grants it, and the instance is not another
partition's. -/
def viewSees (s : State) (p : Nat) (ra : RegAt) : Bool :=
  let b := regBlock ra.id
  let mine (l : PartPlan → List Nat) (x : Nat) : Bool :=
    match partPlan s p with | some pl => (l pl).contains x | none => false
  !(b = 0x12 || b = 0x14 || b = 0x01 || b = 0x10) &&
  (match (regRow ra.id).idx with
   | .none | .shared => true
   | .part => ra.i = p
   | .lathe => mine (·.groups) (if ra.i < 256 then ra.i / 16 else ra.i - 256)
   | .grp => mine (·.groups) ra.i
   | .text => mine (·.text) ra.i
   | .adze => mine (·.adze) ra.i || 32 ≤ ra.i
   | .voc => match nget s.lay.img.voc ra.i with | some v => v.part = p | none => false
   | .cls => classPart s ra.i == some p
   | .ring => ringPart s ra.i == some p
   | .chan => mine (·.channels) ra.i)

/-- The target whose access table checks a register (R54): the ring block of a doorbell page, else the register block. -/
def regTarget (ra : RegAt) : Nat :=
  if 0x2000000 ≤ (regRow ra.id).base then 320 + ra.i / 2048 else 352 + regBlock ra.id

/-- Whether a write by `q` to a register is allowed (R35, R38, R40, R51 and the chapters' marker rules). -/
def regWritable (s : State) (q : Req) (ra : RegAt) : Bool :=
  axAdmits s q .wr (regTarget ra) &&
  (q.dev || (!(regRow ra.id).dw && (regRow ra.id).idx != .none && viewSees s q.part.toNat ra))

/-- The block is in reset, or the instance is (R51). -/
def regInReset (s : State) (ra : RegAt) : Bool :=
  let b := regBlock ra.id
  s.ax.inReset.contains b || s.lay.instBusy == some (b, ra.i) && (regRow ra.id).idx != .none

/-- Payload of an access event: the offset in register space. -/
def regPay (ra : RegAt) : Nat := regOff ra.id ra.i ra.j ra.k

/-- A register write's guard: `f` is what an allowed write does. A write without the right is discarded and logged as
ACCESS_VIOLATION (R38); one during reset as WRITE_DURING_RESET (R51). -/
def regGuard (q : Req) (ra : RegAt) (f : State → State) (s : State) : State :=
  if !regWritable s q ra then evt Ev.ACCESS_VIOLATION q (regPay ra) s
  else if regInReset s ra then evt Ev.WRITE_DURING_RESET q (regPay ra) s
  else f s

/-! ### Rings (R397-R403) -/

def ring0 : Ring := ⟨.disabled, 0, 0, 0, false, false, 0, 0, []⟩

def ringOf (s : State) (r : Nat) : Ring := ngetD s.hp.rings r ring0

def setRing (r : Nat) (x : Ring) (s : State) : State := { s with hp.rings := nset s.hp.rings r x }

/-- KIND: 0 SUBMIT, 1 COMPLETE, 2 STREAM, 3 NOTICE (R397). -/
def ringKind (s : State) (r : Nat) : Nat := bits (rg s .DB_CFG r) 4 3

/-- LOG2 in effect: values outside 4-16 act as the nearer bound (R397). -/
def ringLog2 (s : State) (r : Nat) : Nat := max 4 (min 16 (bits (rg s .DB_CFG r) 9 5))

def ringSize (s : State) (r : Nat) : Nat := 2 ^ ringLog2 s r

/-- Entry size in bytes, by kind (R397). -/
def ringEntry (s : State) (r : Nat) : Nat := match ringKind s r with | 0 => 64 | 1 => 32 | 2 => 64 | _ => 32

def ringBase (s : State) (r : Nat) : Nat := rg64 s .DB_BASE_LO .DB_BASE_HI r

/-- Entries a ring holds: (P - C) mod 2^32 (R398). -/
def ringCount (x : Ring) : Nat := (x.p - x.c).toNat

/-- Free entries that are not reserved. -/
def ringRoom (s : State) (r : Nat) : Nat := ringSize s r - ringCount (ringOf s r) - (ringOf s r).resv - (ringOf s r).held.length

/-- A usable ring of a kind, in a partition: what a command field must name (R397). -/
def ringOk (s : State) (r kind p : Nat) : Bool := r < 65536 && ringKind s r = kind && ringPart s r == some p

/-- The completion ring of a SUBMIT ring (R399). -/
def cqOf (s : State) (r : Nat) : Nat := if bit (rg s .DB_CFG r) 10 then r ^^^ 1 else rg s .DB_CQ r

/-- MSI-X vectors of a function (R394). -/
def fnVectors (f : Nat) : Nat := if f = 0 then 64 else if f = 1 then 2048 else 256

/-- Sends a ring's interrupt, or logs a vector beyond the function's count (R403). -/
def sendIrq (r : Nat) (s : State) : State :=
  let f := bits (rg s .DB_OWNER r) 6 0
  let v := bits (rg s .DB_IRQ r) 11 0
  let s := setRing r { ringOf s r with irqAcc := 0 } s
  if v < fnVectors f then send Mk.msix [f, v] [] s else evt Ev.IRQ_VECTOR_INVALID (unitReq 0x90 16) r s

/-- Interrupt accounting after an entry is written (R403): COUNT entries accrued send at once. -/
def accrueIrq (r : Nat) (notify : Bool) (s : State) : State :=
  let irq := rg s .DB_IRQ r
  let mode := bits irq 13 12
  if mode = 2 ∨ (mode = 1 ∧ notify) then
    let x := ringOf s r
    let s := setRing r { x with irqAcc := x.irqAcc + 1, irqAt := if x.irqAcc = 0 then now s else x.irqAt } s
    if max 1 (bits irq 23 16) ≤ x.irqAcc + 1 then sendIrq r s else s
  else s

/-- Address of slot `i mod size` of a ring (R398). -/
def ringSlot (s : State) (r : Nat) (i : W32) : Nat := ringBase s r + (i.toNat % ringSize s r) * ringEntry s r

/-- The requester of a ring block's own accesses (R53): its master ID and the ring's partition tag, never the marker. -/
def ringReq (s : State) (r : Nat) : Req := unitReq (if r < 32768 then 0xA3 else 0xA4) ((ringPart s r).getD 0)

/-- A ring block's write in the device window is checked under R35 (R53) and discarded where it is refused; in host memory it
is made while the link is up. -/
def ringWrite (r a : Nat) (bs : List Byte) (s : State) : State :=
  if isHost a then (if s.hp.up then wrBytes a bs s else s)
  else if (accessCheck s (ringReq s r) .wr a bs.length).st = 0 then wrBytes a bs s else s

/-- Writes the shadow of a ring's device index (R401, R425). -/
def writeShadow (r : Nat) (i : W32) (s : State) : State :=
  let sh := rg64 s .DB_SHADOW_LO .DB_SHADOW_HI r
  if sh = 0 then s else ringWrite r sh (leBytes 4 i.toNat) s

/-- Writes an entry at the device's index, then the index, its shadow, then the interrupt (R401). -/
def putEntry (r : Nat) (notify : Bool) (bs : List Byte) (s : State) : State :=
  let x := ringOf s r
  let s := ringWrite r (ringSlot s r x.p) bs s
  accrueIrq r notify (writeShadow r (x.p + 1) (setRing r { x with p := x.p + 1 } s))

/-- Writes entries held for a ring, oldest first, while its link is up and it has a free slot (R396, R401). -/
def flushHeld (r : Nat) : Nat → State → State
  | 0, s => s
  | n + 1, s =>
    let x := ringOf s r
    match x.held with
    | [] => s
    | e :: rest =>
      if (isHost (ringBase s r) && !s.hp.up) || ringSize s r ≤ ringCount x then s
      else flushHeld r n (putEntry r e.1 e.2 (setRing r { x with held := rest } s))

/-- An entry for a device-produced ring: dropped while the ring is DISABLED (R402), held while its buffer lies in host
memory and the link is down (R396) or while the ring is full. -/
def pushEntry (r : Nat) (notify : Bool) (bs : List Byte) (s : State) : State :=
  let x := ringOf s r
  if x.st = .disabled then
    evt Ev.RECORD_DROPPED (unitReq 0xA3 ((ringPart s r).getD 16)) r (ctr .HP_RECORD_DROP_CNT ((ringPart s r).getD 16) s)
  else flushHeld r (x.held.length + 1) (setRing r { x with held := x.held ++ [(notify, bs)] } s)

/-! ### Items and completion records (R61, R340) -/

/-- The fetched descriptor of a ring that a unit command completes: the first that Capstan has dispatched. -/
def itemOf (s : State) (ring : Nat) (d : BitVec 512) : Option Item :=
  s.cp.items.find? fun i => i.ring == ring && i.desc == d && (i.preempted || i.shares.all (·.sent))

/-- Unlists one item. -/
def dropItem (id : Nat) (s : State) : State := { s with cp.items := s.cp.items.filter fun i => i.id != id }

/-- A submit ring that drains goes DISABLED once it has fetched everything and nothing of it is left (R402); it sets its own
ENABLE to 0 (R387). A device-produced ring does so once no entry of it is reserved and no live SUBMIT ring feeds it. -/
def ringDrainDone (r : Nat) (s : State) : State :=
  let x := ringOf s r
  if x.st = .draining ∧
      (if ringKind s r = 0 then x.p = x.c ∧ (s.cp.items.any fun i => i.ring == r) = false
       else x.resv = 0 ∧ (s.hp.rings.any fun e => e.2.st != .disabled && ringKind s e.1 == 0 && cqOf s e.1 == r) = false) then
    regSetBit .DB_CFG r 0 false (setRing r { x with st := .disabled, stalled := false } s)
  else s

/-- Writes a record for a descriptor that holds no reservation or item of its own. -/
def writeRecord (ring tag : Nat) (notify : Bool) (st fl com bil hdl det : Nat) (s : State) : State :=
  let s' := pushEntry (cqOf s ring) notify (recBytes st fl com bil (now s) hdl tag det) s
  { s' with recs := s'.recs ++ [⟨ring, tag, st, fl, com, bil, hdl, det⟩] }

/-- Completes a command: the record carries YELLOW and PREEMPTED as its item says (R63), the reservation and the item are
released, and the server has completed an item (R361). -/
def complete (ring : Nat) (d : BitVec 512) (st fl com bil hdl det : Nat) (s : State) : State :=
  let it := itemOf s ring d
  let fl := fl ||| flIf (it.any (·.yellow)) flYellow ||| flIf (it.any (·.preempted)) flPreempted
  let cq := cqOf s ring
  let s := match it with
    | some i =>
      let s := setRing cq { ringOf s cq with resv := (ringOf s cq).resv - 1 } (dropItem i.id s)
      { s with cp.served := s.cp.served ++ (i.shares.map fun x => i.part * 18 + x.srv).filter fun v => !s.cp.served.contains v }
    | none => s
  ringDrainDone cq (ringDrainDone ring (writeRecord ring (dTag d) (dNotify d) st fl com bil hdl det s))

/-- Completes with a status alone: COMMITTED, BILLED and HANDLE 0. -/
def finish (ring : Nat) (d : BitVec 512) (st det : Nat) (s : State) : State := complete ring d st 0 0 0 0 det s

/-! ### Notices (R135) -/

def noticeBytes (ty n pages addr hdl t : Nat) : List Byte :=
  leBytes 1 ty ++ leBytes 1 n ++ leBytes 2 0 ++ leBytes 4 pages ++ leBytes 8 addr ++ leBytes 8 hdl ++ leBytes 8 t

/-- Posts a notice to the partition's notice ring: held when the ring is full (at most 4,096), counted as dropped when there
is no ring of the right kind. -/
def notice (p ty n pages addr hdl : Nat) (s : State) : State :=
  let r := rg s .SP_PART_NOTICE_RING p
  let bs := noticeBytes ty n pages addr hdl (now s)
  if !ringOk s r 3 p || (ringOf s r).st = .disabled then ctr .SP_NOTICE_DROP_CNT p s
  else
    let h := ngetD s.sp.heldNotes p []
    if h = [] ∧ 0 < ringRoom s r then pushEntry r false bs s
    else if h.length < 4096 ∨ ty = 4 then { s with sp.heldNotes := nset s.sp.heldNotes p (h ++ [bs]) }
    else evt Ev.NOTICE_OVERFLOW (hitchReq s p) r (ctr .SP_NOTICE_DROP_CNT p s)

/-- Writes held notices while the ring has room. -/
def flushNotices (p r : Nat) : Nat → State → State
  | 0, s => s
  | n + 1, s =>
    match ngetD s.sp.heldNotes p [] with
    | [] => s
    | b :: rest =>
      if 0 < ringRoom s r then flushNotices p r n (pushEntry r false b { s with sp.heldNotes := nset s.sp.heldNotes p rest })
      else s

/-! ### Engines (R378-R387): key 1024 * block + engine number -/

def eng0 (e : Nat) : Eng := ⟨.enabled, 0, false, e, false, 0, false⟩

def engOf (s : State) (b e : Nat) : Eng := ngetD s.engs (1024 * b + e) (eng0 e)

def putEng (b e : Nat) (x : Eng) (s : State) : State := { s with engs := nset s.engs (1024 * b + e) x }

/-- The ENG_CTL register of an engine of block `b`. -/
def engCtl (b : Nat) : RegId :=
  match b with
  | 0x4 => .SP_ENG_CTL | 0x6 => .LA_ENG_CTL | 0x8 => .AD_ENG_CTL | 0x9 => .WH_ENG_CTL | 0xA => .CL_ENG_CTL
  | 0xB => .BT_ENG_CTL | _ => .SK_ENG_CTL

/-- Session moves on a Splice engine with tiles outstanding. -/
def engMoves (s : State) (b e : Nat) : Bool := b == 4 && s.ht.moves.any fun m => m.eng == e && m.pend != []

/-- A draining engine whose last work has finished goes DISABLED and sets its own ENABLE to 0 (R387); a substituting spare
returns to reserve, and the engine it served is SUBSTITUTED no longer (R380). -/
def engSettle (b e : Nat) (s : State) : State :=
  let x := engOf s b e
  if x.st = .draining ∧ x.work = 0 ∧ !engMoves s b e then
    if x.serves = e then regSetBit (engCtl b) e 0 false (putEng b e { x with st := .disabled } s)
    else putEng b e { x with st := .enabled, serves := e } (putEng b x.serves { engOf s b x.serves with subst := false } s)
  else s

/-- The engines that drain, looked at again. -/
def settleEngines (s : State) : State :=
  (s.engs.filter fun x => x.2.st == .draining).foldl (fun s x => engSettle (x.1 / 1024) (x.1 % 1024) s) s

/-- Work is assigned to an engine. -/
def engTake (b e : Nat) (s : State) : State := putEng b e { engOf s b e with work := (engOf s b e).work + 1 } s

/-- Work on an engine ends. -/
def engDone (b e : Nat) (s : State) : State :=
  engSettle b e (putEng b e { engOf s b e with work := (engOf s b e).work - 1 } s)

/-- The engines of a list that take work: ENABLED ones. -/
def engFree (s : State) (b : Nat) (l : List Nat) : Option Nat := l.find? fun e => (engOf s b e).st == .enabled

/-- Splice engines in the order work is given out: 0-31, then a substituting spare (R121, R378). -/
def spliceEngines (s : State) : List Nat :=
  List.range 32 ++ [32, 33].filter fun e => (engOf s 4 e).serves != e

/-- Registers an outstanding request of the device's to a host-port address (R406). -/
def dmaAdd (ring : Nat) (d : BitVec 512) (slot : Option Nat) (s : State) : State :=
  { s with hp.dma := s.hp.dma ++ [⟨s.hp.dmaNext, ring, d, slot, now s⟩], hp.dmaNext := s.hp.dmaNext + 1 }

/-- The requests of a command, or of a session's move, have completed. -/
def dmaDrop (ring : Nat) (d : BitVec 512) (slot : Option Nat) (s : State) : State :=
  { s with hp.dma := s.hp.dma.filter fun x => !(x.ring == ring && x.desc == d && x.slot == slot) }

end Sys2Proof.Machine
end

