-- ==== Sys2Proof/Machine/Pages.lean ====
section
/-! DEFINITION. Pages (R96-R98): page descriptors, free runs, taking and releasing; share counts (R164); and the home stack of
a block (R110). Pages are named by device-window offset >> 16. -/

namespace Sys2Proof.Machine

def page0 : Page := ⟨.free, 0, 0, 0, 0⟩

def pageOf (s : State) (n : Nat) : Page := ngetD s.ht.pages n page0

/-- Key of a free list: a stack of T1, or a far-port device. -/
def runKey1 (p st : Nat) : Nat := 16 * p + st
/-- One list per far-port device serves every partition (log 13). -/
def runKey2 (_p n : Nat) : Nat := 256 + n

/-- The first run of at least `n` pages, taken from its place; any remainder goes to the tail (R97). -/
def takeRun (n : Nat) : List (Nat × Nat) → Option (Nat × List (Nat × Nat))
  | [] => none
  | (f, len) :: r =>
    if n ≤ len then some (f, if n = len then r else r ++ [(f + n, len - n)])
    else match takeRun n r with
      | some (x, r') => some (x, (f, len) :: r')
      | none => none

/-- Sets the descriptors of `n` consecutive pages, keeping each page's PAGE_GEN. -/
def setPages (f n : Nat) (st : PgSt) (part slot gen : Nat) (s : State) : State :=
  { s with ht.pages := (List.range n).foldl (fun m i =>
      nset m (f + i) { st := st, part := part, slot := slot, gen := gen, pgen := (ngetD m (f + i) page0).pgen }) s.ht.pages }

/-- Takes `n` contiguous pages from one free list (R97). -/
def takeFrom (key n : Nat) (st : PgSt) (part slot gen : Nat) (s : State) : Option (Nat × State) :=
  match takeRun n (ngetD s.ht.runs key []) with
  | some (f, rest) => some (f, setPages f n st part slot gen { s with ht.runs := nset s.ht.runs key rest })
  | none => none

def slotShared : Nat := 0xFFFFFF

/-- Which free list a page returns to. -/
def keyOfPage (p n : Nat) : Nat :=
  let a := n * 65536
  if a < hbmEnd then runKey1 p (stackOf a) else runKey2 p ((a - farBase) / 0x40000000000)

/-- Whether the releasing context's owner fields match on every page (R97). -/
def releaseOk (s : State) (f n part slot gen : Nat) (pgen : List Nat) : Bool :=
  (List.range n).all fun i =>
    let x := pageOf s (f + i)
    (x.st == .allocated || x.st == .staging || x.st == .torn) && x.part == part && x.slot == slot && x.gen == gen &&
    some x.pgen == pgen[i]?

/-- Releases consecutive pages: FREE, PAGE_GEN incremented, appended to the tail as one run; or rejected whole (R97). -/
def releasePages (f n part slot gen : Nat) (pgen : List Nat) (s : State) : State :=
  if n = 0 then s
  else if releaseOk s f n part slot gen pgen then
    let k := keyOfPage part f
    { s with
      ht.pages := (List.range n).foldl (fun m i =>
        nset m (f + i) { page0 with pgen := ((ngetD m (f + i) page0).pgen + 1) % 65536 }) s.ht.pages
      ht.runs := nset s.ht.runs k (ngetD s.ht.runs k [] ++ [(f, n)]) }
  else evt Ev.PAGE_FREE_REJECTED (hitchReq s part) (f * 65536) (ctr .HT_PAGE_FREE_REJ_CNT part s)

/-- Releases the pages of a block entry that lie in T1 or T2; a shared block only loses one reference (R98, R164). -/
def releaseBlk (part slot gen : Nat) (b : Blk) (s : State) : State :=
  if b.tier ≠ 1 ∧ b.tier ≠ 2 then s
  else if b.shr then
    match nget s.ht.share b.addr with
    | some n =>
      if n ≤ 1 then releasePages b.addr (b.npages + 1) part slotShared 0 b.pgen { s with ht.share := ndel s.ht.share b.addr }
      else { s with ht.share := nset s.ht.share b.addr (n - 1) }
    | none => s      -- a tree block: its node counts it
  else releasePages b.addr (b.npages + 1) part slot gen b.pgen s

/-- PAGE_GENs of consecutive pages. -/
def gensOf (s : State) (f n : Nat) : List Nat := (List.range n).map fun i => (pageOf s (f + i)).pgen

/-- Set bits of an 8-bit mask, lowest first. -/
def setBits (m : Nat) : List Nat := (List.range 8).filter fun i => bit m i

/-- Stacks in the order block (l, b) tries them: the home stack, then the next set bits, wrapping round (R110). -/
def homeOrder (mask b l : Nat) : List Nat :=
  let bs := setBits mask
  if bs.length = 0 then [] else
  let k := (b + l) % bs.length
  bs.drop k ++ bs.take k

/-- Takes pages for a block in T1 at the first stack of its order that has a run (R110). -/
def takeT1 (p slot gen n : Nat) (st : PgSt) (order : List Nat) (s : State) : Option (Nat × State) :=
  match order with
  | [] => none
  | k :: r => match takeFrom (runKey1 p k) n st p slot gen s with
    | some x => some x
    | none => takeT1 p slot gen n st r s

/-- The stack mask that applies: the REVIVE mask if non-zero, else STACK_MASK, else every stack of the partition (R110). -/
def maskOf (s : State) (p revMask polMask : Nat) : Nat :=
  if revMask ≠ 0 then revMask
  else if polMask ≠ 0 then polMask
  else match partPlan s p with | some pl => ownStacks pl | none => 0

/-- Passes pages from one owner to another without releasing them (R98, R174). -/
def passPages (f n part slot gen : Nat) (s : State) : State := setPages f n .allocated part slot gen s

/-- Free T1 pages of a partition on the stacks of a mask. -/
def freeT1 (s : State) (p mask : Nat) : Nat :=
  (setBits mask).foldl (fun t k => t + ((ngetD s.ht.runs (runKey1 p k) []).foldl (fun a r => a + r.2) 0)) 0

end Sys2Proof.Machine
end

