-- ==== Sys2Proof/Machine/Hitch.lean ====
section
/-! DEFINITION. Hitch's shared operations (chapter 3): slots, handle checks, commits and their write-through, session moves
and their abandonment, evictions, frees, faults; with the seals, compression and shadows of chapters 4 and 5 that a move
applies. -/

namespace Sys2Proof.Machine

/-! ### Slots and handles -/

/-- A slot as it is when its partition is laid (R73). -/
def slot0 : Slot :=
  { st := .free, dir := .none, migHeld := false, tier := 1, cause := 0, gen := 1, prevGen := 0, part := 0, acct := 0,
    tokens := 0, node := 0, chunks := 0, blks := [], last := 0, home := 0, policy := 0, step := none, lastSerial := none,
    held := [], before := .free, revived := false, stepAt := none, frozen := false }

def slotOf (s : State) (n : Nat) : Slot := ngetD s.ht.slots n slot0

/-- The slot lies in partition p's range (R72). -/
def slotIn (s : State) (p n : Nat) : Bool :=
  match partPlan s p with
  | some pl => pl.slotBase ≤ n && n < pl.slotBase + pl.slotCount
  | none => false

/-- The device's own ID (R76). -/
def ownId (s : State) : Nat := if s.hf.idValid then s.hf.devId else 0

/-- The handle a slot is known by (R76). -/
def handleOf (n : Nat) (x : Slot) : Nat := mkHandle x.home x.part n x.gen

/-- Checks 1 to 4 of R75 for a request of partition `p` (or with the marker); DONE where they pass. -/
def handleCheck (s : State) (p : Nat) (dev : Bool) (free : Bool) (h : Nat) : Nat :=
  let x := slotOf s (hSlot h)
  if !((hHome h == ownId s || (hHome h == 0 && x.home == 0)) && hPart h ≤ 15 && slotIn s (hPart h) (hSlot h) && hGen h != 0)
  then stStaleHandle
  else if hPart h ≠ p ∧ !dev then (if free then stFaultOwnership else stStaleHandle)
  else if free ∧ hGen h = x.prevGen then stFaultOwnership
  else if hGen h ≠ x.gen ∨ x.st = .free then stStaleHandle
  else stDone

/-- State code of R77. -/
def slotCode (x : SlotSt) : Nat :=
  match x with
  | .free => 0 | .active => 1 | .stepping => 2 | .parkedHot => 3 | .parkedWarm => 4 | .parkedCold => 5 | .moving => 6
  | .evacuated => 7 | .faulted => 8

def dirCode (x : MvDir) : Nat := match x with | .none => 0 | .out => 1 | .inn => 2 | .migrate => 3

/-- The STATE byte of the descriptor (R77). -/
def stateByte (x : Slot) : Nat := slotCode x.st + 16 * dirCode x.dir + 64 * b2n x.migHeld

/-- The 128-byte session descriptor (R77). -/
def descBytes (n : Nat) (x : Slot) : List Byte :=
  leBytes 1 (stateByte x) ++ leBytes 1 x.tier ++ leBytes 1 x.cause ++ leBytes 1 0 ++ leBytes 2 x.gen ++ leBytes 2 x.prevGen ++
  leBytes 4 (x.part + 16 * x.acct) ++ leBytes 4 x.tokens ++ leBytes 8 x.node ++ leBytes 4 x.chunks ++ leBytes 4 x.blks.length ++
  leBytes 8 (if x.blks = [] then 0 else Config.hitchTable n 0) ++
  leBytes 8 (if x.blks.any (·.shadow.isSome) then Config.hitchTable n 1 else 0) ++
  leBytes 10 x.last ++ leBytes 2 x.home ++ leBytes 4 0 ++ leBytes 64 x.policy.toNat

/-- Where a slot's descriptor lies (R77). -/
def descAddr (s : State) (n : Nat) : Option Nat :=
  (s.lay.img.parts.find? fun e => e.2.enable && e.2.slotBase ≤ n && n < e.2.slotBase + e.2.slotCount).map fun e =>
    e.2.descBase + 128 * (n - e.2.slotBase)

/-- The context that is not DOWN and has slot n as its member here (R220). -/
def memberCtx (s : State) (n : Nat) : Option (Nat × SpnCtx) := s.spn.find? fun e => e.2.st != 0 && e.2.slot == n

/-- Removes a slot from the age queues of its partition and appends it where its new state waits (R522). -/
def requeue (n : Nat) (x : Slot) (s : State) : State :=
  let drop (m : NMap (List (Nat × Nat))) := nset m x.part ((ngetD m x.part []).filter fun e => e.1 != n)
  let add (m : NMap (List (Nat × Nat))) := nset m x.part (ngetD m x.part [] ++ [(n, x.last)])
  let hot := drop s.ht.hot
  let warm := drop s.ht.warm
  { s with
    ht.hot := if x.st = .parkedHot ∧ !pNoDemote x.policy ∧ (memberCtx s n).isNone then add hot else hot
    ht.warm := if x.st = .parkedWarm ∧ !pNoDemote x.policy then add warm else warm }

/-- A change to a slot that its descriptor does not show. -/
def putSlot (n : Nat) (x : Slot) (s : State) : State := { s with ht.slots := nset s.ht.slots n x }

/-- A journal record for the standby, while it is in step (R100). -/
def journal (n : Nat) (s : State) : State :=
  if s.ht.inStep then { s with ht.journal := s.ht.journal ++ [⟨s.ht.jnext, n⟩], ht.jnext := s.ht.jnext + 1 } else s

/-- A commit on a slot (R82): LAST_CHANGE, the journal record, the descriptor written through to HBM (R81). -/
def commitSlot (n : Nat) (x : Slot) (s : State) : State :=
  let x := { x with last := now s }
  let s := requeue n x (journal n (putSlot n x s))
  match descAddr s n with
  | some a => { s with mem := memWrite s.mem a (descBytes n x) }
  | none => s

/-- The head of the partition's list of free slots (R74): slots not yet taken, in ascending order, then freed ones. -/
def freeSlot (s : State) (p : Nat) : Option Nat :=
  match partPlan s p with
  | none => none
  | some pl =>
    let n := ngetD s.ht.slotNext p 0
    if n < pl.slotCount then some (pl.slotBase + n) else (ngetD s.ht.freeQ p []).head?

/-- Takes the head of the list. -/
def popFree (p : Nat) (s : State) : State :=
  match partPlan s p with
  | none => s
  | some pl =>
    let n := ngetD s.ht.slotNext p 0
    if n < pl.slotCount then { s with ht.slotNext := nset s.ht.slotNext p (n + 1) }
    else { s with ht.freeQ := nset s.ht.freeQ p (ngetD s.ht.freeQ p []).tail }

/-- The next generation, which skips 0 (R73). -/
def nextGen (g : Nat) : Nat := if g = 0xFFFF then 1 else g + 1

/-- Slots of a partition that are not FREE (HT_PART_LIVE), and those in MOVING. -/
def liveSlots (s : State) (p : Nat) : Nat := (s.ht.slots.filter fun e => e.2.st != .free && e.2.part == p).length
def movingSlots (s : State) (p : Nat) : Nat := (s.ht.slots.filter fun e => e.2.st == .moving && e.2.part == p).length
def movingAll (s : State) : Nat := (s.ht.slots.filter fun e => e.2.st == .moving).length

/-- HT_STAT.MOVE_FULL (R105). -/
def moveFull (s : State) : Bool := rg s .HT_MOVE_LIMIT ≤ movingAll s

/-! ### Policy records (R79) -/

def acct0 : Acct := ⟨0, 0, 0, 0, 0, 0, 0, 0, 0⟩
def acctOf (s : State) (a : Nat) : Acct := ngetD s.cp.accts a acct0

/-- Partition p holds the account (R337). -/
def acctHeld (s : State) (p a : Nat) : Bool :=
  bit (acctOf s a).cfg.toNat 4 && bits (acctOf s a).cfg.toNat 3 0 == p

/-- A geometry the device accepts (R79, R113, R147, R154, R185). -/
def policyGeom (r : BitVec 512) : Bool :=
  1 ≤ pLayers r && 1 ≤ pHeads r && pHeads r ≤ 64 && 64 ≤ pHd r && pHd r ≤ 256 && pBody r ≤ 2 && pWin r ≤ 2 &&
  pWin r ≤ pBody r && fld r 8 4 % 128 == 0 && blkPages r (pBody r) ≤ 4 && blkPages r (pWin r) ≤ 4 &&
  (((pBody r != 2) && (pWin r != 2)) || (pHd r % 32 == 0 && pHd r ≤ 128))

/-- A well-formed policy record for partition p (R79). -/
def policyOk (s : State) (p : Nat) (r : BitVec 512) : Bool :=
  policyGeom r && fld r 6 2 == 0 && fld r 17 1 / 8 == 0 && fld r 22 42 == 0 &&
  (match partPlan s p with
   | some pl => (List.range 8).all fun k => !bit (pMask r) k || bit (ownStacks pl) k
   | none => false) && acctHeld s p (pAccount r)

/-! ### Reading what a runtime supplies (R586) -/

/-- Access check, then poison, of an input. -/
def inCheck (s : State) (q : Req) (a n : Nat) : Verdict :=
  let v := anyCheck s q .rd a n
  if v.st ≠ 0 then v else if poisoned s a n then ⟨stFaultContext, 0⟩ else okV

/-- The log entry of a failed input. -/
def inFail (q : Req) (a : Nat) (v : Verdict) (s : State) : State :=
  if v.st = stFaultContext then evt Ev.INPUT_POISON q a s else s

/-! ### Block formats and bytes -/

/-- First window block index of a session (R153). -/
def winStart (x : Slot) : Nat := x.tokens / 128 - pWinTokens x.policy / 128

/-- Format of block index b (R153): the prefix chunks of a node are in the node's format, which is BODY_FMT. -/
def fmtAt (x : Slot) (b : Nat) : Nat :=
  if b < x.chunks then pBody x.policy else if winStart x ≤ b then pWin x.policy else pBody x.policy

/-- Block index and layer of entry e (R78). -/
def entB (x : Slot) (e : Nat) : Nat := e / pLayers x.policy
def entL (x : Slot) (e : Nat) : Nat := e % pLayers x.policy

/-- Committed tokens in block index b. -/
def blkToks (x : Slot) (b : Nat) : Nat := min 128 (x.tokens - 128 * b)

/-- Payload bytes of entry e, rounded up to 64 (R115). -/
def entBytes (x : Slot) (e : Nat) : Nat := ceilDiv (blkBytes x.policy (fmtAt x (entB x e))) 64 * 64

/-- Plaintext of a T1 block's payload. -/
def t1Payload (s : State) (x : Slot) (e : Nat) (b : Blk) : List Byte := memRead s.mem (b.addr * 65536) (entBytes x e)

/-! ### Sealing and compression (R116-R120) -/

/-- Nonce: move serial in [95:32], entry index in [31:0] (R116). -/
def sealNonce (serial e : Nat) : Nat := serial % 2 ^ 64 * 2 ^ 32 + e % 2 ^ 32

/-- Additional authenticated data: handle, entry index, destination tier (R116). -/
def sealAad (hdl e tier : Nat) : List Byte := leBytes 8 hdl ++ leBytes 4 e ++ leBytes 1 tier

def tierKeyOf (s : State) (p : Nat) : Nat := ngetD s.sp.tierKey p 0

/-- The lines of a tile that hold a non-zero byte (R120). -/
def zrLines (tile : List Byte) : List (Nat × List Byte) :=
  ((List.range (ceilDiv tile.length 64)).map fun i => (i, (tile.drop (64 * i)).take 64)).filter fun l => l.2.any (· != 0)

/-- ZR64 of one tile: 32-byte mask, then the non-zero lines (R120). -/
def zrTile (tile : List Byte) : List Byte :=
  leBytes 32 ((zrLines tile).foldl (fun m l => m + 2 ^ l.1) 0) ++ ((zrLines tile).map (·.2)).flatten

def tileBytes : Nat := 16384

/-- Consecutive 16 KiB tiles (R115). -/
def tilesOf (bs : List Byte) : List (List Byte) :=
  (List.range (ceilDiv bs.length tileBytes)).map fun i => (bs.drop (tileBytes * i)).take tileBytes

/-- ZR64 of a block (R120). -/
def zrEncode (bs : List Byte) : List Byte := ((tilesOf bs).map zrTile).flatten

/-- Undoes ZR64: the lines a mask names, zero elsewhere; `n` bytes are still to come. -/
def zrDecode : Nat → Nat → List Byte → List Byte
  | 0, _, _ => []
  | fuel + 1, n, bs =>
    if n = 0 then [] else
    let len := min n tileBytes
    let mask := leNat (bs.take 32)
    let k := popcount 256 mask
    let body := bs.drop 32
    let tile := (List.range (ceilDiv len 64)).map fun i =>
      if bit mask i then (body.drop (64 * popcount i mask)).take 64 else leBytes 64 0
    tile.flatten.take len ++ zrDecode fuel (n - len) (body.drop (64 * k))

/-- What is stored of a plaintext at T2-T5: compressed or not, sealed; with its seal record (R116-R120). -/
def storeForm (s : State) (p hdl e tier serial : Nat) (plain : List Byte) : List Byte × SealRec :=
  let z := zrEncode plain
  let useZ := bit (rg s .SP_PART_CFG p) 0 && (tier = 4 || tier = 5) && z.length < plain.length
  let body := if useZ then z else plain
  let ct := gcmXor (tierKeyOf s p) (sealNonce serial e) body
  (ct, { tag := gcmTag (tierKeyOf s p) (sealNonce serial e) (sealAad hdl e tier) ct
         serial := serial, len := ct.length, zr64 := useZ })

/-- Bytes of a stored block: T2 in the window, T4 in host memory, T3 and T5 as the carrying path returned them. -/
def storedBytes (s : State) (b : Blk) (remote : List Byte) : List Byte :=
  let n := match b.sealr with | some r => r.len | none => 0
  match b.tier with
  | 2 => memRead s.mem (b.addr * 65536) n
  | 4 => memRead s.hmem (b.addr * 65536) n
  | _ => remote.take n

/-- The tag check of R118. -/
def tagOk (s : State) (p hdl e : Nat) (b : Blk) (ct : List Byte) : Bool :=
  match b.sealr with
  | some r => gcmTag (tierKeyOf s p) (sealNonce r.serial e) (sealAad hdl e b.tier) ct == r.tag
  | none => false

/-- Plaintext of a stored block of `n` payload bytes. -/
def openForm (s : State) (p e n : Nat) (b : Blk) (ct : List Byte) : List Byte :=
  match b.sealr with
  | some r =>
    let body := gcmXor (tierKeyOf s p) (sealNonce r.serial e) ct
    if r.zr64 then zrDecode (n / tileBytes + 1) n body else body.take n
  | none => []

/-! ### Coarse shadows (R160-R163) -/

/-- Shadow size Z and shadows per page S (R162). -/
def shadowSize (r : BitVec 512) : Nat := 16 * pHeads r * pHd r
def shadowsPerPage (r : BitVec 512) : Nat := 65536 / shadowSize r

/-- Decoded vector of a T1 block: segment `g` (2 head + K/V), token t. -/
def blkVec (s : State) (x : Slot) (e : Nat) (b : Blk) (g t : Nat) : Dec :=
  let fmt := fmtAt x (entB x e)
  let hd := pHd x.policy
  kvDec fmt hd (segVec (fun i => memGet s.mem (b.addr * 65536 + g * segBytes fmt hd + i)) fmt hd t)

/-- The bytes of a block's shadow (R160, R161). -/
def shadowBytes (s : State) (x : Slot) (e : Nat) (b : Blk) : List Byte :=
  let n := blkToks x (entB x e)
  let hd := pHd x.policy
  ((List.range (2 * pHeads x.policy)).map fun g =>
    ((List.range 8).map fun j =>
      let vs := (List.range (min 16 (n - 16 * j))).map fun t => (blkVec s x e b g (16 * j + t)).v
      (List.range hd).map fun i => BitVec.ofNat 8 (poolElem (vs.map fun v => v.getD i dy0))).flatten).flatten

/-- Shadow pages a session holds. -/
def shadowPages (bl : List Blk) : List Nat := (bl.filterMap fun b => b.shadow.map (· / 65536)).eraseDups

/-- Releases all of a session's shadow pages (R163). -/
def dropShadows (n : Nat) (x : Slot) (s : State) : State :=
  (shadowPages x.blks).foldl (fun s pg => releasePages pg 1 x.part n x.gen (gensOf s pg 1) s) s

/-- Places the shadow of entry e: in the page that already holds its neighbours, or a new page of the block's home stack or
the next that has one (R162). -/
def placeShadow (n : Nat) (x : Slot) (bl : List Blk) (e : Nat) (s : State) : Option (Nat × State) :=
  let k := shadowsPerPage x.policy
  let r := e % k * shadowSize x.policy
  match (enum0 bl).find? fun i => i.1 / k == e / k && i.2.shadow.isSome with
  | some i => some ((i.2.shadow.getD 0) / 65536 * 65536 + r, s)
  | none =>
    match takeT1 x.part n x.gen 1 .allocated (homeOrder (maskOf s x.part 0 (pMask x.policy)) (entB x e) (entL x e)) s with
    | some (pg, s) => some (pg * 65536 + r, s)
    | none => none

/-! ### Session references to the tree -/

def nodeKey (p idx : Nat) : Nat := p * 2 ^ 24 + idx

/-- Changes REFS of every node on the path from `id` up (R175, R176). -/
def refPath (p : Nat) (up : Bool) : Nat → Nat → State → State
  | 0, _, s => s
  | fuel + 1, id, s =>
    if id = 0 then s
    else match nget s.pfx.nodes (nodeKey p (hSlot id)) with
      | none => s
      | some nd =>
        refPath p up fuel nd.parent
          { s with pfx.nodes := nset s.pfx.nodes (nodeKey p (hSlot id)) { nd with refs := if up then nd.refs + 1 else nd.refs - 1 } }

/-! ### Releasing a session -/

/-- Releases every page and reference of a session (FREE, FAULTED; R83, R98, R176). -/
def releaseAll (n : Nat) (x : Slot) (s : State) : State :=
  let s := dropShadows n x s
  let s := x.blks.foldl (fun s b => releaseBlk x.part n x.gen b s) s
  let s := match x.step with
    | some st => st.newBlks.foldl (fun s e => releaseBlk x.part n x.gen e.2 s) s
    | none => s
  refPath x.part false (x.chunks + 1) x.node s

/-- Extents in T3-T5 that a session's blocks occupied are reported to the runtime (R83, R133). -/
def reportExtents (n : Nat) (x : Slot) (s : State) : State :=
  x.blks.foldl (fun s b =>
    if 3 ≤ b.tier then notice x.part 1 b.tier (b.npages + 1) (b.addr * 65536) (handleOf n x) s else s) s

/-- Completes a command of Hitch's with COMMITTED and BILLED 0 (R90). -/
def hdone (ring : Nat) (d : BitVec 512) (st fl hdl det : Nat) (s : State) : State := complete ring d st fl 0 0 hdl det s

/-- Completes every command of a list with one status. -/
def doneAll (cs : List (Nat × BitVec 512)) (st fl hdl det : Nat) (s : State) : State :=
  cs.foldl (fun s c => hdone c.1 c.2 st fl hdl det s) s

/-- Removes a session's move. -/
def dropMove (n : Nat) (s : State) : State := { s with ht.moves := s.ht.moves.filter fun m => m.slot != n }

def moveOf (s : State) (n : Nat) : Option Move := s.ht.moves.find? fun m => m.slot == n

/-- The destination pages of a move return to their free lists, and its extents to the runtime or the swap pool (R87, R134). -/
def reclaim (x : Slot) (m : Move) (s : State) : State :=
  let s := m.dst.foldl (fun s e => releaseBlk x.part m.slot x.gen e.2 s) s
  if m.why = .command then
    m.exts.foldl (fun s e => notice x.part 1 m.tier e.2 (e.1 * 65536) (handleOf m.slot x) s) s
  else if m.tier = 4 then { s with sp.swap := nset s.sp.swap x.part (ngetD s.sp.swap x.part [] ++ m.exts) }
  else s

/-- A move is abandoned or fails: the copy is reclaimed, the slot returns to its state before the move, and the commands it
served complete with `st` (R83, R87, R588). -/
def endMove (n : Nat) (st det : Nat) (s : State) : State :=
  match moveOf s n with
  | none => s
  | some m =>
    let x := slotOf s n
    let s := reclaim x m (dropMove n s)
    let s := ctr .HT_MOVE_ABANDON_CNT x.part s
    let s := commitSlot n { x with st := x.before, dir := .none, revived := false } s
    doneAll ((match m.cmd with | some c => [c] | none => []) ++ m.also) st 0 (handleOf n x) det s

/-- A session goes to FAULTED (R83): every page is released, pending commands complete, a notice is posted unless `quiet`. -/
def faultSlot (n cause : Nat) (quiet : Bool) (s : State) : State :=
  let x := slotOf s n
  if x.st = .free ∨ x.st = .faulted then s
  else
    let st := if cause = 1 ∨ cause = 2 then stFaultStateLost else stFaultContext
    let s := match moveOf s n with
      | some m =>
        let s := m.dst.foldl (fun s e => releaseBlk x.part n x.gen e.2 s) (dropMove n s)
        doneAll ((match m.cmd with | some c => [c] | none => []) ++ m.also) st 0 (handleOf n x) 0 s
      | none => s
    let s := reportExtents n x (releaseAll n x s)
    let s := doneAll x.held st 0 (handleOf n x) 0 s
    let s := ctr .HT_FAULTED_CNT x.part s
    let s := commitSlot n { x with st := .faulted, dir := .none, cause := cause, blks := [], step := none, held := [],
                                   node := 0, chunks := 0 } s
    if quiet then s else notice x.part 2 0 0 0 (handleOf n x) s

/-! ### Moves -/

/-- A block moves with its session only if it is private (R166). -/
def movable (b : Blk) : Bool := !b.shr

/-- A block lies on far-port device n. -/
def onFar (n : Nat) (b : Blk) : Bool := b.tier == 2 && (b.addr * 65536 - farBase) / 0x40000000000 == n

/-- Entries a move to a tier, and for T2 to device `dev`, carries: the private blocks not already there. -/
def carriedTo (x : Slot) (tier dev : Nat) : List (Nat × Blk) :=
  (enum0 x.blks).filter fun e => movable e.2 && (if tier = 2 then !onFar dev e.2 else e.2.tier != tier)

/-- Entries of a session that a move to `tier` carries: the private blocks not already there. -/
def carried (x : Slot) (tier : Nat) : List (Nat × Blk) := (enum0 x.blks).filter fun e => movable e.2 && e.2.tier != tier

/-- Takes a run on far-port device `n` for every block, or none (R91). -/
def takeT2 (p slot gen dev : Nat) : List (Nat × Blk) → State → Option (List (Nat × Blk) × State)
  | [], s => some ([], s)
  | e :: r, s =>
    match takeFrom (runKey2 p dev) (e.2.npages + 1) .staging p slot gen s with
    | none => none
    | some (f, s) =>
      match takeT2 p slot gen dev r s with
      | none => none
      | some (l, s) =>
        some ((e.1, { e.2 with tier := 2, addr := f, torn := false, shadow := none, pgen := gensOf s f (e.2.npages + 1) }) :: l, s)

/-- Places one block in the first extent from the cursor on that can hold it whole. -/
def placeOne (n : Nat) : List (Nat × Nat) → Option (Nat × List (Nat × Nat))
  | [] => none
  | (a, len) :: ex => if n ≤ len then some (a, (a + n, len - n) :: ex) else placeOne n ex

/-- Places blocks of given page counts into extents in order; a block never straddles two (R134). Answers page addresses. -/
def fitExtents : List Nat → List (Nat × Nat) → Option (List Nat)
  | [], _ => some []
  | n :: r, ex =>
    match placeOne n ex with
    | none => none
    | some (a, ex) => match fitExtents r ex with | some l => some (a :: l) | none => none

/-- Tiles of a block. -/
def tileCount (n : Nat) : Nat := ceilDiv n tileBytes

/-- All (entry, tile) pairs of the carried blocks. -/
def pendTiles (x : Slot) (l : List (Nat × Blk)) : List (Nat × Nat) :=
  (l.map fun e => (List.range (max 1 (tileCount (entBytes x e.1)))).map fun t => (e.1, t)).flatten

/-- Starts a move: the slot shows MOVING and the tiles are issued (R83, R124). The serial is Heartwood's next (R116). -/
def beginMove (n : Nat) (x : Slot) (m : Move) (s : State) : State :=
  let s := { s with ht.moves := s.ht.moves ++ [{ m with serial := s.ht.mserial, since := now s, eng := (engFree s 4 (spliceEngines s)).getD 0 }], ht.mserial := s.ht.mserial + 1 }
  commitSlot n { x with st := .moving, dir := m.dir, before := x.st } s

def move0 (n : Nat) : Move :=
  { slot := n, dir := .out, why := .command, tier := 1, dev := 0, serial := 0, eng := 0, cmd := none, also := [], dst := [], pend := [],
    exts := [], path := false, persist := none, asked := none, since := 0 }

/-- Far-port devices a partition may use under a mask, lowest first, that are accepting (R91, R136). -/
def farChoices (s : State) (p mask : Nat) : List Nat :=
  (List.range 4).filter fun n =>
    bit mask n && bit (bits (rg s .SP_PART_CFG p) 7 4) n && (ngetD s.sp.far n farDev0).accepting

/-- The plaintext of a block wherever its authoritative copy lies, for a copy made by this device. -/
def plainOf (s : State) (x : Slot) (e : Nat) (b : Blk) : List Byte :=
  if b.tier = 1 then t1Payload s x e b else openForm s x.part e (entBytes x e) b (storedBytes s b [])
  -- T3 and T5 copies are read back through their paths; their bytes come with the acknowledgement (log 15)

/-- Starts a move out to T2 on the first device that can take the whole session; none where no device can (R91, R131). -/
def outToT2 (n : Nat) (x : Slot) (why : MvWhy) (cmd : Option (Nat × BitVec 512)) : List Nat → State → Option State
  | [], _ => none
  | dev :: r, s =>
    match takeT2 x.part n x.gen dev (carriedTo x 2 dev) s with
    | some (dst, s') =>
      let dst := dst.map fun e =>
        (e.1, { e.2 with sealr := some (storeForm s x.part (handleOf n x) e.1 2 s.ht.mserial
          (plainOf s x e.1 (x.blks.getD e.1 e.2))).2 })
      some (beginMove n x { move0 n with why := why, tier := 2, dev := dev, cmd := cmd, dst := dst,
                                         pend := pendTiles x (carriedTo x 2 dev) } s')
    | none => outToT2 n x why cmd r s

/-- Pages a stored form of `len` bytes needs, minus one. -/
def storedPages (len : Nat) : Nat := ceilDiv len 65536 - 1

/-- Starts a move out to T3-T5 into extents: refused (none) where they cannot hold the uncompressed blocks (R134). -/
def outToExt (n : Nat) (x : Slot) (why : MvWhy) (cmd : Option (Nat × BitVec 512)) (tier : Nat) (path : Bool)
    (persist : Option Nat) (exts : List (Nat × Nat)) (s : State) : Option State :=
  let l := carried x tier
  match fitExtents (l.map fun e => ceilDiv (entBytes x e.1) 65536) exts with
  | none => none
  | some addrs =>
    let dst := (l.zip addrs).map fun ea =>
      let f := storeForm s x.part (handleOf n x) ea.1.1 tier s.ht.mserial (plainOf s x ea.1.1 ea.1.2)
      (ea.1.1, { ea.1.2 with tier := tier, addr := ea.2 + (if tier = 5 && path then 2 ^ 55 else 0), torn := false, shadow := none,
                             npages := storedPages f.1.length, sealr := some f.2, pgen := [] })
    some (beginMove n x { move0 n with why := why, tier := tier, cmd := cmd, dst := dst, pend := pendTiles x l, exts := exts,
                                       path := path, persist := persist } s)

/-- The partition's swap pool, taken from its head (R133). -/
def swapOf (s : State) (p : Nat) : List (Nat × Nat) := ngetD s.sp.swap p []

/-- Extents from the head of the pool until `pages` pages are in hand. -/
def takeSwap (pages : Nat) : List (Nat × Nat) → List (Nat × Nat) × List (Nat × Nat)
  | [] => ([], [])
  | e :: r => if pages = 0 then ([], e :: r) else let t := takeSwap (pages - e.2) r; (e :: t.1, t.2)

def swapPages (s : State) (p : Nat) : Nat := (swapOf s p).foldl (fun t e => t + e.2) 0

/-- SWAP_LOW is posted when the pool falls below its threshold (R135). -/
def swapLow (p before : Nat) (s : State) : State :=
  if rg s .SP_PART_SWAP_LOW p ≤ before ∧ swapPages s p < rg s .SP_PART_SWAP_LOW p then notice p 5 4 (swapPages s p) 0 0 s else s

/-- Starts a move out to T4 into the swap pool (R131, R522). -/
def outToSwap (n : Nat) (x : Slot) (why : MvWhy) (s : State) : Option State :=
  let need := ((carried x 4).map fun e => ceilDiv (entBytes x e.1) 65536).foldl (· + ·) 0
  let before := swapPages s x.part
  let t := takeSwap need (swapOf s x.part)
  match outToExt n x why none 4 false none t.1 s with
  | none => none
  | some s' => some (swapLow x.part before { s' with sp.swap := nset s'.sp.swap x.part t.2 })

/-! ### Eviction (R130-R132) -/

/-- A candidate's rank: parked first, then age, then slot number. -/
def victimLt (a b : Nat × Slot) : Bool :=
  let r (x : Slot) : Nat := if x.st = .parkedHot then 0 else 1
  if r a.2 ≠ r b.2 then r a.2 < r b.2 else if a.2.last ≠ b.2.last then a.2.last < b.2.last else a.1 < b.1

def insertVictim (v : Nat × Slot) : List (Nat × Slot) → List (Nat × Slot)
  | [] => [v]
  | x :: r => if victimLt v x then v :: x :: r else x :: insertVictim v r

/-- Candidates of partition p in the order of R130, without the session the command names. -/
def victims (s : State) (p except : Nat) : List (Nat × Slot) :=
  let ok (e : Nat × Slot) : Bool :=
    e.2.part == p && e.1 != except && !e.2.frozen && !pNoDemote e.2.policy &&
    (e.2.st == .parkedHot ||
     (e.2.st == .active && e.2.last + 1000 * rg s .SP_PART_VICTIM_AGE p < now s))
  (s.ht.slots.filter ok).foldl (fun l v => insertVictim v l) []

/-- T1 pages a session gives back on the stacks of a mask. -/
def t1Pages (x : Slot) (mask : Nat) : Nat :=
  ((x.blks.filter fun b => b.tier == 1 && !b.shr && bit mask (stackOf (b.addr * 65536))).map fun b => b.npages + 1).foldl (· + ·) 0

/-- Starts one eviction where a destination can take the whole session (R131). -/
def evictOne (v : Nat × Slot) (s : State) : Option State :=
  let cfg := rg s .SP_PART_CFG v.2.part
  let t2 := if bit cfg 1 then outToT2 v.1 v.2 .eviction none (farChoices s v.2.part 0xF) s else none
  match t2 with
  | some s => some s
  | none => if bit cfg 2 then outToSwap v.1 v.2 .eviction s else none

/-- Starts evictions in order until `need` pages will come free; answers the pages found. -/
def evictSome (mask need : Nat) : List (Nat × Slot) → State → Nat × State
  | [], s => (0, s)
  | v :: r, s =>
    if need = 0 then (0, s)
    else match evictOne v s with
      | none => let t := evictSome mask need r (ctr .SP_EVICT_SKIP_CNT v.2.part s); t
      | some s =>
        let k := t1Pages v.2 mask
        let t := evictSome mask (need - k) r (ctr .SP_EVICT_CNT v.2.part s)
        (k + t.1, t.2)

/-- A command that wants T1 pages it cannot take: held while evictions run, or refused when no candidate is left (R132).
Pages that evictions already in flight will free count as found. -/
def wantPages (ring : Nat) (d : BitVec 512) (p except mask need hdl : Nat) (s : State) : State :=
  let coming := ((s.ht.moves.filter fun m => m.why == .eviction && (slotOf s m.slot).part == p).map fun m =>
    t1Pages (slotOf s m.slot) mask).foldl (· + ·) 0
  let short := need - coming
  let t := evictSome mask short (victims s p except) s
  if short ≤ t.1 ∧ 0 < coming + t.1 then { t.2 with ht.waiting := t.2.ht.waiting ++ [(ring, d)] }
  else hdone ring d stRefusedCapacity 0 hdl hintNever (ctr .HT_REFUSED_CNT p t.2)

end Sys2Proof.Machine
end

