-- ==== Sys2Proof/Machine/HitchCmd.lean ====
section
/-! DEFINITION. Session commands (chapter 3): CREATE, FORK, PARK, REVIVE, FREE, QUERY, what a command does that meets
unfinished work (R87), and the commit of a move (R83). -/

namespace Sys2Proof.Machine

/-- Fields of a Hitch command (R90). -/
def hOpt (d : BitVec 512) : Nat := fld d 17 1
def hHandle (d : BitVec 512) : Nat := fld d 24 8
def hArg0 (d : BitVec 512) : Nat := fld d 32 8
def hArg1 (d : BitVec 512) : Nat := fld d 40 8
def hArg2 (d : BitVec 512) : Nat := fld d 48 8

/-- Reserved fields of a Hitch command are 0 (R90). -/
def hClean (d : BitVec 512) : Bool := fld d 18 6 == 0 && fld d 56 8 == 0

/-- REFUSED_CAPACITY with a hint, counted (R86). -/
def hrefuse (ring : Nat) (d : BitVec 512) (p hdl hint : Nat) (s : State) : State :=
  hdone ring d stRefusedCapacity 0 hdl hint (ctr .HT_REFUSED_CNT p s)

/-- REFUSED_CAPACITY with Hitch's estimate, a free value (R86, R9). -/
def hrefuseEst (ring : Nat) (d : BitVec 512) (p hdl : Nat) (s : State) : State :=
  useFree (hrefuse ring d p hdl (hintOf s) s)

/-- Malformed: FAULT_CONTEXT, nothing changed. -/
def hbad (ring : Nat) (d : BitVec 512) (hdl : Nat) (s : State) : State := hdone ring d stFaultContext 0 hdl 0 s

/-- The partition of a command's ring; a ring of no partition is refused (R370). -/
def hitchEntry (ring : Nat) (d : BitVec 512) (f : Nat → State → State) (s : State) : State :=
  match ringPart s ring with
  | none => finish ring d stRefusedCapacity hintNever s
  | some p => f p s

/-- The arrival of a command at Hitch: its OP is the row's, it is counted, and HT_CTL.DRAIN refuses all but FREE and QUERY
(R90, R105, R587). -/
def hitchArrive (op ring : Nat) (d : BitVec 512) (drainOk : Bool) (f : State → State) (s : State) : State :=
  hitchEntry ring d (fun p s =>
    if dOp d ≠ op then hbad ring d 0 s
    else
      let s := ctrAdd .HT_CMD_CNT op p 1 s
      if bit (rg s .HT_CTL) 0 ∧ !drainOk then hrefuse ring d p 0 hintNever s else f s) s

/-- Log entries of a rejected FREE (R99). -/
def freeRejected (q : Req) (h st : Nat) (p : Nat) (s : State) : State :=
  if st = stFaultOwnership then
    let e := if hPart h ≠ p then Ev.SESSION_NONOWNER_FREE else Ev.SESSION_DOUBLE_FREE
    evt e q h (ctr .HT_OWN_FAULT_CNT p s)
  else ctr .HT_STALE_CNT p s

/-- Runs `f` on the slot a handle names, or completes with the status of R75. -/
def withSlot (ring : Nat) (d : BitVec 512) (p h : Nat) (free : Bool) (f : Nat → Slot → State → State) (s : State) : State :=
  let st := handleCheck s p false free h
  if st = stDone then f (hSlot h) (slotOf s (hSlot h)) s
  else
    let s := if free then freeRejected (unitReq 0xA3 p) h st p s else ctr .HT_STALE_CNT p s
    hdone ring d st 0 0 0 s

/-- R85: what FAULTED and EVACUATED answer to anything but FREE and QUERY; a session captured by an evacuation is refused until
its commit (R492). -/
def deadState (ring : Nat) (d : BitVec 512) (p h : Nat) (x : Slot) (f : State → State) (s : State) : State :=
  if x.st = .faulted then
    hdone ring d (if x.cause = 1 ∨ x.cause = 2 then stFaultStateLost else stFaultContext) 0 h 0 s
  else if x.st = .evacuated then hrefuse ring d p h hintNever s
  else if x.frozen then hrefuseEst ring d p h s
  else f s

/-! ### CREATE and FORK -/

/-- The slot as CREATE or FORK writes it (R83). -/
def newSlot (s : State) (n p : Nat) (pol : BitVec 512) : Slot :=
  let x := slotOf s n
  { slot0 with st := .active, gen := x.gen, prevGen := x.prevGen, part := p, acct := pAccount pol, home := ownId s, policy := pol }

/-- Reads the policy record at `a`; `f` gets a well-formed one (R79). -/
def withPolicy (ring : Nat) (d : BitVec 512) (p a : Nat) (f : BitVec 512 → State → State) (s : State) : State :=
  let q := hitchReq s p
  let v := inCheck s q a 64
  if v.st ≠ 0 then hdone ring d v.st 0 0 v.det (inFail q a v s)
  else
    let r := BitVec.ofNat 512 (rdNat s a 64)
    if policyOk s p r then f r s else hbad ring d 0 s

/-- CREATE (R83). -/
def createOp (ring : Nat) (d : BitVec 512) (s : State) : State :=
  hitchEntry ring d (fun p s =>
    if !(hClean d && hOpt d == 0 && hHandle d == 0 && hArg1 d == 0 && hArg2 d == 0) then hbad ring d 0 s
    else withPolicy ring d p (hArg0 d) (fun r s =>
      match freeSlot s p with
      | none => hrefuse ring d p 0 hintNever s
      | some n =>
        let x := newSlot s n p r
        hdone ring d stDone 0 (handleOf n x) 0 (commitSlot n x (popFree p s))) s) s

/-- The account is a member of a share group (R171). -/
def memberOf (s : State) (a g : Nat) : Bool := bit (ngetD s.pfx.member a 0) g

/-- The node an ID names, if the ID is current (R167). -/
def nodeOf (s : State) (p id : Nat) : Option Node :=
  if hHome id = 0 ∧ hPart id = p then
    (nget s.pfx.nodes (nodeKey p (hSlot id))).bind fun nd => if nd.gen = hGen id ∧ id ≠ 0 then some nd else none
  else none

def nodeId (p idx : Nat) (nd : Node) : Nat := mkHandle 0 p idx nd.gen

/-- The path that ends at a node, root first. -/
def pathOf (s : State) (p : Nat) : Nat → Nat → List (Nat × Node)
  | 0, _ => []
  | fuel + 1, id =>
    if id = 0 then [] else
    match nget s.pfx.nodes (nodeKey p (hSlot id)) with
    | none => []
    | some nd => pathOf s p fuel nd.parent ++ [(hSlot id, nd)]

/-- Sets LAST_USE on nodes (R173, R175). -/
def touchNodes (p : Nat) (l : List (Nat × Node)) (s : State) : State :=
  { s with pfx.nodes := l.foldl (fun m e => match nget m (nodeKey p e.1) with
      | some nd => nset m (nodeKey p e.1) { nd with lastUse := now s }
      | none => m) s.pfx.nodes }

/-- The prefix blocks of a path: entry b * LAYERS + l (R78), shared. -/
def pathBlks (l : List (Nat × Node)) : List Blk := (l.map fun e => e.2.blks).flatten

/-- FORK from a node (R175). -/
def forkNodeOp (ring : Nat) (d : BitVec 512) (s : State) : State :=
  hitchEntry ring d (fun p s =>
    if !(hClean d && hOpt d == 0 && hHandle d == 0) then hbad ring d 0 s
    else match nodeOf s p (hArg0 d) with
    | none => hdone ring d stStaleHandle 0 0 0 s
    | some nd => withPolicy ring d p (hArg1 d) (fun r s =>
      let path := pathOf s p (nd.depth + 1) (hArg0 d)
      let k := if hArg2 d = 0 then path.length else hArg2 d
      if path.length < k ∨ (path.any fun e => e.2.doomed) ∨ !memberOf s (pAccount r) nd.group ∨ pLayers r ≠ nd.layers ∨
          pHeads r ≠ nd.heads ∨ pHd r ≠ 16 * nd.hd16 ∨ pBody r ≠ nd.fmt then hbad ring d 0 s
      else match freeSlot s p with
        | none => hrefuse ring d p 0 hintNever s
        | some n =>
          let taken := path.take k
          let last := match taken.getLast? with | some e => nodeId p e.1 e.2 | none => 0
          let x := { newSlot s n p r with tokens := 128 * k, node := last, chunks := k, blks := pathBlks taken }
          let s := touchNodes p taken (refPath p true (k + 1) last s)
          hdone ring d stDone flPrefixHit (handleOf n x) 0 (commitSlot n x (popFree p s))) s) s

/-- A full block that a FORK shares: its pages pass to the shared owner with a count of two, or the count rises (R164). -/
def shareBlk (x : Slot) (b : Blk) (s : State) : Blk × State :=
  if b.shr then
    (b, match nget s.ht.share b.addr with
        | some k => { s with ht.share := nset s.ht.share b.addr (k + 1) }
        | none => s)
  else ({ b with shr := true },
        { passPages b.addr (b.npages + 1) x.part slotShared 0 s with ht.share := nset s.ht.share b.addr 2 })

/-- Shares blocks in order; answers them as both tables will hold them. -/
def shareBlks (x : Slot) : List Blk → State → List Blk × State
  | [], s => ([], s)
  | b :: r, s =>
    let t := shareBlk x b s
    let u := shareBlks x r t.2
    (t.1 :: u.1, u.2)

/-- Copies the parent's partial tail blocks into pages of the child, or answers none where a page is wanting (R88). -/
def copyTails (x : Slot) (n gen mask : Nat) : List (Nat × Blk) → State → Option (List Blk × State)
  | [], s => some ([], s)
  | e :: r, s =>
    match takeT1 x.part n gen (e.2.npages + 1) .allocated (homeOrder mask (entB x e.1) (entL x e.1)) s with
    | none => none
    | some (f, s) =>
      let s := wrBytes (f * 65536) (t1Payload s x e.1 e.2) (ctr .HT_COW_COPY_CNT x.part s)
      match copyTails x n gen mask r s with
      | none => none
      | some (l, s) =>
        some ({ e.2 with addr := f, shr := false, shadow := none, sealr := none, pgen := gensOf s f (e.2.npages + 1) } :: l, s)

/-- Same geometry, formats and window (R88). -/
def sameGeom (a b : BitVec 512) : Bool :=
  pLayers a == pLayers b && pHeads a == pHeads b && pHd a == pHd b && pBody a == pBody b && pWin a == pWin b &&
  fld a 8 4 == fld b 8 4

/-- FORK from a session (R88). -/
def forkSessOp (ring : Nat) (d : BitVec 512) (s : State) : State :=
  hitchEntry ring d (fun p s =>
    if !(hClean d && hOpt d == 1 && hHandle d == 0 && hArg2 d == 0) then hbad ring d 0 s
    else withSlot ring d p (hArg0 d) false (fun pn x s => deadState ring d p 0 x (fun s =>
      if x.st = .moving ∧ x.dir = .out ∧ (moveOf s pn).any (·.why != .command) ∧ x.tier = 1 then
        -- a demotion or eviction is abandoned; the fork is then applied (R87)
        forkFrom pn p (endMove pn stCancelledBefore 0 s)
      else if (x.st = .active ∨ x.st = .stepping ∨ x.st = .parkedHot) ∧ x.tier = 1 then forkFrom pn p s
      else hrefuse ring d p 0 hintNever s) s) s) s
where
  /-- Takes everything or nothing. -/
  forkFrom (pn p : Nat) (s : State) : State :=
    withPolicy ring d p (hArg1 d) (fun r s =>
      let x := slotOf s pn
      if !sameGeom r x.policy then hbad ring d 0 s
      else match freeSlot s p with
      | none => hrefuse ring d p 0 hintNever s
      | some n =>
        let full := x.tokens / 128 * pLayers x.policy
        let gen := (slotOf s n).gen
        let tails := (enum0 x.blks).drop full
        let mask := maskOf s p 0 (pMask r)
        match copyTails x n gen mask tails s with
        | none => wantPages ring d p pn mask ((tails.map fun e => e.2.npages + 1).foldl (· + ·) 0) 0 s
        | some (copied, s) =>
          let sh := shareBlks x (x.blks.take full) s
          let s := commitSlot pn { x with blks := sh.1 ++ x.blks.drop full, last := x.last } sh.2
          let y := { newSlot s n p r with tokens := x.tokens, node := x.node, chunks := x.chunks, blks := sh.1 ++ copied }
          let s := refPath p true (x.chunks + 1) x.node s
          hdone ring d stDone flPrefixHit (handleOf n y) 0 (commitSlot n y (popFree p s))) s

/-! ### PARK, REVIVE -/

/-- A parked or active session's tier as a park ranks it: 1 hot ... 5 cold. -/
def coldness (x : Slot) : Nat := if x.st = .active then 0 else x.tier

/-- An extent list in T1 (R134): tier, Harah path, PERSIST_ID, entries as (page address, pages); none where malformed. -/
def extentList (s : State) (a tier : Nat) : Option (Bool × Nat × List (Nat × Nat)) :=
  let n := rdNat s (a + 4) 4
  let path := bit (rdNat s (a + 1) 1) 0
  let pid := rdNat s (a + 8) 8
  let ents := (List.range n).map fun i => (rdNat s (a + 16 + 16 * i) 8, rdNat s (a + 16 + 16 * i + 8) 4, rdNat s (a + 16 + 16 * i + 12) 4)
  if rdNat s a 1 = tier ∧ rdNat s (a + 1) 1 / 2 = 0 ∧ rdNat s (a + 2) 2 = 0 ∧ (path → tier = 5) ∧ (tier ≠ 5 → pid = 0) ∧
      (ents.all fun e => e.1 % 65536 == 0 && e.2.2 == 0 && ((tier == 3 || path) || !bit e.1 63)) = true
  then some (path, pid, ents.map fun e => (e.1 / 65536, e.2.1)) else none

/-- Reads an extent list; `f` gets a well-formed one. -/
def withExtents (ring : Nat) (d : BitVec 512) (p h a tier : Nat) (f : Bool → Nat → List (Nat × Nat) → State → State)
    (s : State) : State :=
  let q := hitchReq s p
  let v := inCheck s q a 16
  if v.st ≠ 0 then hdone ring d v.st 0 h v.det (inFail q a v s)
  else
    let w := inCheck s q a (16 + 16 * rdNat s (a + 4) 4)
    if w.st ≠ 0 then hdone ring d w.st 0 h w.det (inFail q a w s)
    else match extentList s a tier with
      | some (path, pid, l) => f path pid l s
      | none => hbad ring d h s

/-- PARK applied to a session at rest in T1, T2 or colder (R83, R85, R91, R134). -/
def parkFrom (ring : Nat) (d : BitVec 512) (n p : Nat) (s : State) : State :=
  let x := slotOf s n
  let h := handleOf n x
  let tier := hArg0 d
  if x.st ≠ .active ∧ tier ≤ coldness x then hdone ring d stDone 0 h 0 s
  else if tier = 1 then hdone ring d stDone 0 h 0 (commitSlot n { x with st := .parkedHot } s)
  else if x.st = .parkedCold then hrefuse ring d p h hintNever s      -- R83 has no such row (log 16)
  else if moveFull s then hrefuseEst ring d p h s
  else if tier = 2 then
    let mask := if hArg1 d = 0 then 0xF else hArg1 d
    match outToT2 n x .command (some (ring, d)) (farChoices s p mask) s with
    | some s => s
    | none => hrefuse ring d p h hintNever s
  else withExtents ring d p h (hArg1 d) tier (fun path pid l s =>
    match outToExt n x .command (some (ring, d)) tier path (if tier = 5 then some pid else none) l s with
    | some s => s
    | none => hrefuse ring d p h hintNever s) s

/-- PARK's fields are in range (R90). -/
def parkOk (d : BitVec 512) : Bool :=
  hClean d && hOpt d == 0 && 1 ≤ hArg0 d && hArg0 d ≤ 5 && hArg2 d == 0 &&
  (match hArg0 d with | 1 => hArg1 d == 0 | 2 => hArg1 d < 16 | _ => true)

/-- Holds a command on its slot until the unfinished work ends (R87). -/
def holdCmd (ring : Nat) (d : BitVec 512) (n : Nat) (s : State) : State :=
  let x := slotOf s n
  putSlot n { x with held := x.held ++ [(ring, d)] } s

/-- Joins a command to the move in progress: both complete together (R87). -/
def coalesce (ring : Nat) (d : BitVec 512) (n : Nat) (s : State) : State :=
  { s with ht.moves := s.ht.moves.map fun m => if m.slot == n then { m with also := m.also ++ [(ring, d)] } else m }

/-- PARK (R83, R85, R87). -/
def parkOp (ring : Nat) (d : BitVec 512) (s : State) : State :=
  hitchEntry ring d (fun p s =>
    if !parkOk d then hbad ring d (hHandle d) s
    else withSlot ring d p (hHandle d) false (fun n x s => deadState ring d p (hHandle d) x (fun s =>
      let h := hHandle d
      match x.st with
      | .stepping => holdCmd ring d n s
      | .moving =>
        match x.dir, moveOf s n with
        | .migrate, _ => hrefuseEst ring d p h s
        | .inn, _ => parkFrom ring d n p (endMove n stCancelledBefore 0 s)
        | _, some m =>
          if m.why ≠ .command then parkFrom ring d n p (endMove n stCancelledBefore 0 s)
          else if m.tier < hArg0 d then holdCmd ring d n s
          else if m.tier = hArg0 d then coalesce ring d n s
          else parkFrom ring d n p (endMove n stCancelledBefore 0 s)
        | _, none => hrefuseEst ring d p h s
      | _ => parkFrom ring d n p s) s) s) s

/-- Takes STAGING pages in T1 for every block that is to come in (R83, R110). -/
def takeIn (x : Slot) (n mask : Nat) : List (Nat × Blk) → State → Option (List (Nat × Blk) × State)
  | [], s => some ([], s)
  | e :: r, s =>
    let k := blkPages x.policy (fmtAt x (entB x e.1))
    match takeT1 x.part n x.gen k .staging (homeOrder mask (entB x e.1) (entL x e.1)) s with
    | none => none
    | some (f, s) =>
      match takeIn x n mask r s with
      | none => none
      | some (l, s) =>
        some ((e.1, { e.2 with tier := 1, addr := f, npages := k - 1, torn := false, sealr := none, shadow := none,
                               pgen := gensOf s f k }) :: l, s)

/-- Pages a session needs to come into T1. -/
def needIn (x : Slot) : Nat := ((carried x 1).map fun e => blkPages x.policy (fmtAt x (entB x e.1))).foldl (· + ·) 0

/-- A revive whose policy names a program that is not READY is counted (R296); program ID k + 1 is slot k. -/
def orderMiss (x : Slot) (s : State) : State :=
  let k := pProgram x.policy
  if k ≠ 0 ∧ !((nget s.ad.progs (256 * x.part + (k - 1))).any fun g => g.st == .ready) then ctr .AD_ORDER_MISS_CNT x.part s else s

/-- Starts a move in (R83); none where a page is wanting. -/
def beginIn (n : Nat) (x : Slot) (mask : Nat) (cmd : Option (Nat × BitVec 512)) (s : State) : Option State :=
  match takeIn x n mask (carried x 1) s with
  | none => none
  | some (dst, s) =>
    some (orderMiss x
      (beginMove n x { move0 n with dir := .inn, tier := 1, cmd := cmd, dst := dst, pend := pendTiles x (carried x 1) } s))

/-- REVIVE applied to a session at rest (R83, R85). -/
def reviveFrom (ring : Nat) (d : BitVec 512) (n p : Nat) (s : State) : State :=
  let x := slotOf s n
  let h := handleOf n x
  match x.st with
  | .active => hdone ring d stDone 0 h 0 s
  | .parkedHot => hdone ring d stDone flRevived h 0 (commitSlot n { x with st := .active } s)
  | _ =>
    if moveFull s then hrefuseEst ring d p h s
    else
      let mask := maskOf s p (hArg0 d) (pMask x.policy)
      match beginIn n x mask (some (ring, d)) s with
      | some s => s
      | none => wantPages ring d p n mask (needIn x) h s

/-- A REVIVE mask names only stacks on which the partition owns a channel (R90). -/
def reviveMaskOk (s : State) (p m : Nat) : Bool :=
  m < 256 && (match partPlan s p with
    | some pl => (List.range 8).all fun k => !bit m k || bit (ownStacks pl) k
    | none => false)

/-- REVIVE (R83, R85, R87). -/
def reviveOp (ring : Nat) (d : BitVec 512) (s : State) : State :=
  hitchEntry ring d (fun p s =>
    if !(hClean d && hOpt d == 0 && hArg1 d == 0 && hArg2 d == 0 && reviveMaskOk s p (hArg0 d)) then hbad ring d (hHandle d) s
    else withSlot ring d p (hHandle d) false (fun n x s => deadState ring d p (hHandle d) x (fun s =>
      match x.st with
      | .stepping => hdone ring d stDone 0 (hHandle d) 0 s
      | .moving =>
        match x.dir with
        | .migrate => hrefuseEst ring d p (hHandle d) s
        | .inn => coalesce ring d n s
        | _ => reviveFrom ring d n p (endMove n stCancelledBefore 0 s)
      | _ => reviveFrom ring d n p s) s) s) s

/-! ### FREE and QUERY -/

/-- The slot as FREE leaves it (R73). -/
def freedSlot (x : Slot) : Slot := { slot0 with gen := nextGen x.gen, prevGen := x.gen, part := x.part }

/-- The free itself: pages and references released, the generation advanced, the slot at the tail of the list (R73, R74, R83). -/
def freeSlotNow (n : Nat) (s : State) : State :=
  let x := slotOf s n
  let s := reportExtents n x (releaseAll n x s)
  let s := commitSlot n (freedSlot x) s
  { s with ht.freeQ := nset s.ht.freeQ x.part (ngetD s.ht.freeQ x.part [] ++ [n]) }

/-- FREE applied to a session that is not stepping. -/
def freeNow (ring : Nat) (d : BitVec 512) (n : Nat) (s : State) : State :=
  let x := slotOf s n
  let h := handleOf n x
  let s := if x.st = .moving then endMove n stCancelledBefore 0 s else s
  let x := slotOf s n
  let s := doneAll x.held stFaultContext 0 h 0 (putSlot n { x with held := [] } s)
  hdone ring d stDone 0 h 0 (freeSlotNow n s)

/-- FREE (R83, R87, R99): a STEPPING session's step is cancelled first, and the free commits when it has ended. -/
def freeOp (ring : Nat) (d : BitVec 512) (s : State) : State :=
  hitchEntry ring d (fun p s =>
    if !(hClean d && hOpt d == 0 && hArg0 d == 0 && hArg1 d == 0 && hArg2 d == 0) then hbad ring d (hHandle d) s
    else withSlot ring d p (hHandle d) true (fun n x s =>
      match x.st, x.step with
      | .stepping, some st =>
        putSlot n { x with step := some { st with cancel := true }, held := x.held ++ [(ring, d)] } s
      | _, _ => freeNow ring d n s) s) s

/-- The 64-byte QUERY report (R92). -/
def reportBytes (s : State) (n : Nat) (x : Slot) : List Byte :=
  let mig := match s.ht.migOut.find? fun m => m.slot == n with
    | some m => m.dev + 65536 * m.rslot
    | none => 0
  leBytes 1 (stateByte x) ++ leBytes 1 x.tier ++ leBytes 1 x.cause ++ leBytes 1 0 ++ leBytes 4 x.tokens ++
  leBytes 4 x.blks.length ++ leBytes 4 (x.blks.filter fun b => b.tier == 1).length ++ leBytes 8 (handleOf n x) ++
  leBytes 10 x.last ++ leBytes 2 x.acct ++ leBytes 4 x.chunks ++ leBytes 8 x.node ++
  leBytes 8 (if x.dir = .migrate then mig else 0) ++ leBytes 8 0

/-- QUERY (R87: answered at once in any state; R92). -/
def queryOp (ring : Nat) (d : BitVec 512) (s : State) : State :=
  hitchEntry ring d (fun p s =>
    if !(hClean d && hOpt d == 0 && hArg1 d == 0 && hArg2 d == 0) then hbad ring d (hHandle d) s
    else withSlot ring d p (hHandle d) false (fun n x s =>
      let v := anyCheck s (hitchReq s p) .wr (hArg0 d) 64
      if v.st ≠ 0 then hdone ring d v.st 0 (hHandle d) v.det s
      else hdone ring d stDone 0 (hHandle d) 0 (wrBytes (hArg0 d) (reportBytes s n x) s)) s) s

/-! ### The commit of a move (R83) -/

/-- Replaces the entries a move carries. -/
def switchBlks (bl : List Blk) (dst : List (Nat × Blk)) : List Blk := dst.foldl (fun l e => l.set e.1 e.2) bl

/-- Writes the shadows of the blocks that leave T1 (R160, R162); answers the table with shadows, and the number skipped. -/
def writeShadows (n : Nat) (x : Slot) : List (Nat × Blk) → List Blk → State → List Blk × Nat × State
  | [], bl, s => (bl, 0, s)
  | e :: r, bl, s =>
    if e.2.tier ≠ 1 then writeShadows n x r bl s
    else match placeShadow n x bl e.1 s with
      | none => let t := writeShadows n x r bl s; (t.1, t.2.1 + 1, t.2.2)
      | some (a, s) =>
        let s := ctr .HT_SHADOW_CNT x.part (wrBytes a (shadowBytes s x e.1 e.2) s)
        writeShadows n x r (bl.modify e.1 fun b => { b with shadow := some a }) s

/-- The pages of a committed move become ALLOCATED. -/
def settle (n : Nat) (x : Slot) (dst : List (Nat × Blk)) (s : State) : State :=
  dst.foldl (fun s e => if e.2.tier ≤ 2 then setPages e.2.addr (e.2.npages + 1) .allocated x.part n x.gen s else s) s

/-- Extents of the list left unused at commit are returned by notice (R134). -/
def unusedExtents (m : Move) : List (Nat × Nat) :=
  m.exts.filter fun e => !(m.dst.any fun b => e.1 ≤ b.2.addr % 2 ^ 48 && b.2.addr % 2 ^ 48 < e.1 + e.2)

/-- Commit of a move out (R83): shadows, the switch of the table, the source pages, the records and log entries. -/
def commitOut (n : Nat) (m : Move) (s : State) : State :=
  let x := slotOf s n
  let old := carriedTo x m.tier m.dev
  let w := if pKeepShadow x.policy then writeShadows n x old x.blks s else (x.blks, 0, s)
  let s := if w.2.1 = 0 then w.2.2 else evt Ev.SHADOW_SKIPPED (hitchReq s x.part) w.2.1 w.2.2
  let dst := m.dst.map fun e => (e.1, { e.2 with shadow := (w.1.getD e.1 { e.2 with shadow := none }).shadow })
  let s := old.foldl (fun s e => releaseBlk x.part n x.gen e.2 s) (dropMove n s)
  let s := (old.filter fun e => 3 ≤ e.2.tier).foldl (fun s e =>
    notice x.part 1 e.2.tier (e.2.npages + 1) (e.2.addr * 65536) (handleOf n x) s) s
  let s := settle n x m.dst s
  let y := { x with st := if m.tier ≤ 3 then .parkedWarm else .parkedCold, dir := .none, tier := m.tier,
                    blks := switchBlks w.1 dst }
  let y := if m.why = .evacuation then { y with st := .evacuated } else y
  let s := commitSlot n y s
  let s := if m.why = .command then (unusedExtents m).foldl (fun s e => notice x.part 1 m.tier e.2 (e.1 * 65536) (handleOf n x) s) s
    else if m.tier = 4 then { s with sp.swap := nset s.sp.swap x.part (unusedExtents m ++ swapOf s x.part) } else s
  let s := match m.why with
    | .demotion => evt Ev.SESSION_DEMOTED (hitchReq s x.part) (handleOf n x) (ctr .HT_DEMOTE_CNT x.part s)
    | .eviction => evt Ev.SESSION_EVICTED (hitchReq s x.part) (handleOf n x) s
    | _ => s
  doneAll ((match m.cmd with | some c => [c] | none => []) ++ m.also) stDone 0 (handleOf n x) 0 s

/-- Commit of a move in (R83, R163): source pages in T2 freed, T3-T5 extents reported, shadows released; REVIVED. -/
def commitIn (n : Nat) (m : Move) (s : State) : State :=
  let x := slotOf s n
  let s := dropShadows n x (dropMove n s)
  let old := carried x 1
  let s := old.foldl (fun s e => releaseBlk x.part n x.gen e.2 s) s
  let s := (old.filter fun e => 3 ≤ e.2.tier).foldl (fun s e =>
    notice x.part 1 e.2.tier (e.2.npages + 1) (e.2.addr * 65536) (handleOf n x) s) s
  let s := settle n x m.dst s
  let bl := (switchBlks x.blks m.dst).map fun b => { b with shadow := none }
  -- a step that ran at its deadline (R89) keeps STEPPING
  let st : SlotSt := if x.step.isSome then .stepping else .active
  let s := commitSlot n { x with st := st, dir := .none, tier := 1, blks := bl } s
  doneAll ((match m.cmd with | some c => [c] | none => []) ++ m.also) stDone flRevived (handleOf n x) 0 s

/-- Commits a move whose every tile is acknowledged; a T5 move waits for its persistence acknowledgement (R124, R134). -/
def commitMove (n : Nat) (s : State) : State :=
  match moveOf s n with
  | none => s
  | some m =>
    if m.pend ≠ [] ∨ m.persist.isSome then s
    else
      let s := ctr .SP_MOVE_CNT (slotOf s n).part s
      match m.dir with
      | .out => commitOut n m s
      | .inn => commitIn n m s
      | _ => s

end Sys2Proof.Machine
end

