-- ==== Sys2Proof/Machine/PartLog.lean ====
section
/-! DEFINITION. The measurement log of a partition (R470). -/

namespace Sys2Proof.Machine

def plog0 : PartLog := ⟨[], [], false⟩

/-- An 80-byte record (R470). -/
def plogRec (ty slot id : Nat) (digest : List Byte) (build : Nat) : List Byte :=
  leBytes 1 ty ++ leBytes 1 slot ++ leBytes 2 0 ++ leBytes 4 id ++ (digest ++ leBytes 48 0).take 48 ++ leBytes 16 build ++
  leBytes 8 0

/-- The log of a partition as it is laid (R470). -/
def plogStart (p : Nat) (layDigest : Nat) (conf : Bool) (s : State) : State :=
  { s with plog := nset s.plog p ⟨sha384 (beBytes 48 layDigest ++ leBytes 1 p ++ leBytes 1 (b2n conf)), [], false⟩ }

/-- An event extends the log; 1,024 records are held (R470). -/
def plogExtend (p : Nat) (r : List Byte) (s : State) : State :=
  let x := ngetD s.plog p plog0
  let y : PartLog := ⟨sha384 (x.l ++ r), (x.recs ++ [r]).drop (x.recs.length + 1 - 1024), x.excess || 1024 ≤ x.recs.length⟩
  { s with plog := nset s.plog p y }

end Sys2Proof.Machine
end

