-- ==== Sys2Proof/Machine/Seals.lean ====
section
/-! DEFINITION. Inputs and outputs at device-window offsets and host-port addresses (R586, R407), sealed where the
descriptor says so (R410-R413). -/

namespace Sys2Proof.Machine

/-- Bytes a sealed region of `n` plaintext bytes takes (R412). -/
def sealedLen (n : Nat) : Nat := 64 + n + 16 * ceilDiv n tileBytes

def seal0 : Seal := ⟨0, 0, 0, 0, []⟩

/-- The tags of a region pass, tile by tile (R412). -/
def sealTagsOk (key ctr : Nat) (hdr ct tags : List Byte) : Bool :=
  (enum0 (tilesOf ct)).all fun t =>
    gcmTag key (sealNonce ctr t.1) (hdr.take 16) t.2 == leNat ((tags.drop (16 * t.1)).take 16)

/-- Tile by tile under its own nonce (R412). -/
def sealXor (key ctr : Nat) (bs : List Byte) : List Byte :=
  ((enum0 (tilesOf bs)).map fun t => gcmXor key (sealNonce ctr t.1) t.2).flatten

/-- Opens an inbound sealed region (R413): the plaintext, or the verdict of the failed check. -/
def openSealed (p ctx a n : Nat) (s : State) : Verdict × List Byte × State :=
  let x := ngetD s.hp.seals ctx seal0
  let hdr := rdBytes s a 64
  let c := leNat (hdr.take 8)
  let ct := rdBytes s (a + 64) n
  let tags := rdBytes s (a + 64 + n) (16 * ceilDiv n tileBytes)
  let q := unitReq 0x90 p
  let bad (e : Ev) (k : Ct) : Verdict × List Byte × State := (⟨stFaultContext, 0⟩, [], evt e q a (ctr k p s))
  if bit c 63 ∨ leNat ((hdr.drop 8).take 4) ≠ n then bad Ev.HOST_SEAL_MISMATCH .HP_SEAL_FAIL_CNT
  else if x.seen.contains c ∨ c + 1023 < x.high then bad Ev.HOST_SEAL_REPLAY .HP_SEAL_REPLAY_CNT
  else if !sealTagsOk x.key c hdr ct tags then bad Ev.HOST_SEAL_MISMATCH .HP_SEAL_FAIL_CNT
  else
    let high := max x.high c
    let x := { x with high := high, seen := (c :: x.seen).filter fun k => high ≤ k + 1023 }
    (okV, sealXor x.key c ct, { s with hp.seals := nset s.hp.seals ctx x })

/-- Reads an input of a command: access check, poison, seal (R586, R406, R411). Answers the verdict, the bytes and the state
with what the reading logged. -/
def readInput (d : BitVec 512) (q : Req) (p a n : Nat) (s : State) : Verdict × List Byte × State :=
  let v := inCheck s q a n
  if v.st ≠ 0 then (v, [], inFail q a v s)
  else if dSealed d && isHost a then openSealed p (dSealCtx d) a n s
  else (okV, rdBytes s a n, s)

/-- Reads an input that no descriptor seals. -/
def readPlain (q : Req) (a n : Nat) (s : State) : Verdict × List Byte × State :=
  let v := inCheck s q a n
  if v.st ≠ 0 then (v, [], inFail q a v s) else (okV, rdBytes s a n, s)

/-- Seals a region outward under the context's next outbound counter (R412, R413). -/
def putSealed (ctx a : Nat) (bs : List Byte) (s : State) : State :=
  let x := ngetD s.hp.seals ctx seal0
  let c := 2 ^ 63 + x.out % 2 ^ 63
  let hdr := leBytes 8 c ++ leBytes 4 bs.length ++ leBytes 52 0
  let ct := sealXor x.key c bs
  let tags := ((enum0 (tilesOf ct)).map fun t => leBytes 16 (gcmTag x.key (sealNonce c t.1) (hdr.take 16) t.2)).flatten
  wrBytes a (hdr ++ ct ++ tags) { s with hp.seals := nset s.hp.seals ctx { x with out := x.out + 1 } }

/-- Writes an output of a command, sealed where the descriptor says so and the place is a host-port address. -/
def writeOutput (d : BitVec 512) (a : Nat) (bs : List Byte) (s : State) : State :=
  if dSealed d && isHost a then putSealed (dSealCtx d) a bs s else wrBytes a bs s

/-- Writing `n` bytes at `a` is admitted. -/
def outCheck (s : State) (q : Req) (a n : Nat) : Verdict := anyCheck s q .wr a n

end Sys2Proof.Machine
end

