-- ==== Sys2Proof/Machine/Utf8.lean ====
section
/-! DEFINITION. UTF-8 as R242 and R247 use it: well-formed characters, ill-formed maximal subparts, and the trailing prefix of a
character. -/

namespace Sys2Proof.Machine

/-- Ranges that the bytes after a first byte may take; none where no character starts so. -/
def u8Tail (b : Nat) : Option (List (Nat × Nat)) :=
  let c : Nat × Nat := (0x80, 0xBF)
  if b < 0x80 then some []
  else if 0xC2 ≤ b ∧ b ≤ 0xDF then some [c]
  else if b = 0xE0 then some [(0xA0, 0xBF), c]
  else if b = 0xED then some [(0x80, 0x9F), c]
  else if 0xE1 ≤ b ∧ b ≤ 0xEF then some [c, c]
  else if b = 0xF0 then some [(0x90, 0xBF), c, c]
  else if 0xF1 ≤ b ∧ b ≤ 0xF3 then some [c, c, c]
  else if b = 0xF4 then some [(0x80, 0x8F), c, c]
  else none

/-- How many of the ranges the bytes meet in turn. -/
def u8Match : List (Nat × Nat) → List Byte → Nat
  | [], _ => 0
  | _, [] => 0
  | (lo, hi) :: r, b :: bs => if lo ≤ b.toNat ∧ b.toNat ≤ hi then 1 + u8Match r bs else 0

/-- What stands at the head of a byte string: a character, an ill-formed maximal subpart, or a prefix of a character that the
string ends in; with its length. -/
inductive U8 where
  | char (n : Nat)
  | ill (n : Nat)
  | part (n : Nat)
deriving DecidableEq, Repr

def u8Head (bs : List Byte) : U8 :=
  match bs with
  | [] => .part 0
  | b :: r =>
    match u8Tail b.toNat with
    | none => .ill 1
    | some rs =>
      let k := u8Match rs r
      if k = rs.length then .char (k + 1) else if r.length = k then .part (k + 1) else .ill (k + 1)

/-- A whole string is well-formed UTF-8; `fuel` is its length. -/
def u8Ok : Nat → List Byte → Bool
  | 0, bs => bs == []
  | fuel + 1, bs =>
    if bs = [] then true
    else match u8Head bs with
      | .char n => u8Ok fuel (bs.drop n)
      | _ => false

/-- The UTF-8 form of a code point. -/
def u8Enc (c : Nat) : List Byte :=
  let t (k : Nat) : Byte := BitVec.ofNat 8 (0x80 + c / 2 ^ (6 * k) % 64)
  if c < 0x80 then [BitVec.ofNat 8 c]
  else if c < 0x800 then [BitVec.ofNat 8 (0xC0 + c / 64), t 0]
  else if c < 0x10000 then [BitVec.ofNat 8 (0xE0 + c / 4096), t 1, t 0]
  else [BitVec.ofNat 8 (0xF0 + c / 262144), t 2, t 1, t 0]

/-- U+2581, the space mark. -/
def spaceMark : List Byte := [0xE2, 0x96, 0x81]
/-- U+FFFD, the replacement character. -/
def replChar : List Byte := [0xEF, 0xBF, 0xBD]

/-- Splits bytes into characters (true) and single ill-formed bytes (false); the trailing prefix of a character is ill-formed
too (R242 step 1). -/
def u8Cells : Nat → List Byte → List (Bool × List Byte)
  | 0, _ => []
  | fuel + 1, bs =>
    if bs = [] then []
    else match u8Head bs with
      | .char n => (true, bs.take n) :: u8Cells fuel (bs.drop n)
      | .ill n | .part n => (bs.take n).map (fun b => (false, [b])) ++ u8Cells fuel (bs.drop n)

/-- The bytes of HOLD and a token's, emitted as R247 step 4 says: each with a mark where it belongs to a substituted U+FFFD, and
what stays in HOLD. -/
def u8Emit : Nat → List Byte → List (Byte × Bool) × List Byte
  | 0, _ => ([], [])
  | fuel + 1, bs =>
    if bs = [] then ([], [])
    else match u8Head bs with
      | .char n => let r := u8Emit fuel (bs.drop n); ((bs.take n).map (fun b => (b, false)) ++ r.1, r.2)
      | .ill n => let r := u8Emit fuel (bs.drop n); (replChar.map (fun b => (b, true)) ++ r.1, r.2)
      | .part _ => ([], bs)

end Sys2Proof.Machine
end

