-- ==== Sys2Proof/Machine/Vocab.lean ====
section
/-! DEFINITION. Vocabulary images (R230-R232), the preparation of text (R242), the lattice and its best path (R243, R244), and
what a token yields (R247). -/

namespace Sys2Proof.Machine

/-- A signed 32-bit field. -/
def s32 (v : Nat) : Int := if v < 2 ^ 31 then (v : Int) else (v : Int) - 2 ^ 32

/-- Bytes `off` to `off + n - 1` of a byte string, as a number. -/
def bAt (bs : List Byte) (off n : Nat) : Nat := leNat ((bs.drop off).take n)

/-- A byte string of zeros. -/
def allZero (bs : List Byte) : Bool := bs.all (· == 0)

structure VocEnt where
  score   : Int
  str     : List Byte
  control : Bool
  decOnly : Bool
deriving DecidableEq, Repr

/-- A decoded vocabulary image. -/
structure Voc where
  entries : Nat
  norm    : Nat
  prefSp  : Bool
  spMark  : Bool
  byteFb  : Bool
  byteBase : Nat
  unkId   : Nat
  byteScore : Int
  unkScore : Int
  ents    : List VocEnt
deriving DecidableEq, Repr

/-- Size of an image from its header (R234). -/
def vocImage (h : List Byte) : Nat := 256 + 16 * bAt h 8 4 + bAt h 32 4

/-- Pages per die that a load needs (R234). -/
def vocPages (h : List Byte) : Nat := ceilDiv (vocImage h) 65536 + ceilDiv (32 * bAt h 8 4 + 8 * bAt h 32 4) 65536

/-- The header keeps R230 and R232. -/
def vocHeadOk (h : List Byte) : Bool :=
  bAt h 0 4 == 0x5748564F && bAt h 4 4 == 1 && 1 ≤ bAt h 8 4 && bAt h 8 4 ≤ 1048576 && bAt h 12 1 ≤ 2 && bAt h 13 1 < 8 &&
  bAt h 14 2 == 0 && bAt h 36 2 == 0x0F01 && allZero ((h.drop 38).take 10) && allZero ((h.drop 96).take 160)

/-- Entry `i` of an image. -/
def vocEnt (img : List Byte) (i : Nat) : VocEnt :=
  let e := (img.drop (256 + 16 * i)).take 16
  let pool := 256 + 16 * bAt img 8 4
  ⟨s32 (bAt e 0 4), (img.drop (pool + bAt e 4 4)).take (bAt e 8 2), bit (bAt e 10 1) 0, bit (bAt e 10 1) 1⟩

/-- Entry `i` stands for a byte (R230). -/
def byteTok (img : List Byte) (i : Nat) : Bool := bit (bAt img 13 1) 2 && bAt img 16 4 ≤ i && i < bAt img 16 4 + 256

/-- Entry `i` keeps R231 (byte tokens are exempt from the rules of their strings). -/
def vocEntOk (img : List Byte) (i : Nat) : Bool :=
  let e := (img.drop (256 + 16 * i)).take 16
  bAt e 10 1 < 4 && allZero (e.drop 11) &&
  (byteTok img i ||
    (1 ≤ bAt e 8 2 && bAt e 8 2 ≤ 256 && bAt e 4 4 + bAt e 8 2 ≤ bAt img 32 4 && u8Ok (bAt e 8 2) (vocEnt img i).str))

/-- No two entries that text can match have one string (R231). -/
def vocUnique (img : List Byte) (n : Nat) : Bool :=
  let l := ((List.range n).filter fun i => !byteTok img i && !(vocEnt img i).decOnly).map fun i => (vocEnt img i).str
  l.eraseDups.length == l.length

/-- A well-formed image, decoded (R230-R232); its digest is checked apart. -/
def parseVoc (img : List Byte) : Option Voc :=
  let n := bAt img 8 4
  if 256 ≤ img.length ∧ vocHeadOk img ∧ img.length = vocImage img ∧ (List.range n).all (vocEntOk img) ∧ vocUnique img n then
    some { entries := n, norm := bAt img 12 1, prefSp := bit (bAt img 13 1) 0, spMark := bit (bAt img 13 1) 1,
           byteFb := bit (bAt img 13 1) 2, byteBase := bAt img 16 4, unkId := bAt img 20 4, byteScore := s32 (bAt img 24 4),
           unkScore := s32 (bAt img 28 4), ents := (List.range n).map (vocEnt img) }
  else none

/-- Token `i` of a decoded image stands for a byte. -/
def Voc.isByte (v : Voc) (i : Nat) : Bool := v.byteFb && v.byteBase ≤ i && i < v.byteBase + 256

/-! ### Prepared text (R242) -/

/-- A character or ill-formed byte of a prepared segment, and the input bytes [src, fin) it comes from. `raw`: its bytes are
those of the input, one for one. -/
structure Cell where
  bytes : List Byte
  src   : Nat
  fin   : Nat
  ill   : Bool
  raw   : Bool
deriving DecidableEq, Repr

/-- Characters of a run as cells, from input offset `at_`. -/
def rawCells (at_ : Nat) : List (List Byte) → List Cell
  | [] => []
  | b :: r => ⟨b, at_, at_ + b.length, false, true⟩ :: rawCells (at_ + b.length) r

/-- A run of well-formed text under NORM; text that is wholly ASCII is its own normal form (R242 step 2; log 26). -/
def normRun (norm at_ : Nat) (chars : List (List Byte)) : List Cell :=
  if norm = 0 ∨ chars.all (fun c => c.length == 1) then rawCells at_ chars
  else (Config.unicodeNorm norm chars.flatten).map fun e =>
    ⟨u8Enc e.1.toNat, at_ + e.2.1, at_ + e.2.2, false, false⟩

/-- Groups a segment into runs of characters and ill-formed bytes; `acc` is the run being gathered, `at_` its offset. -/
def normCells (norm : Nat) (acc : List (List Byte)) (at_ : Nat) : List (Bool × List Byte) → List Cell
  | [] => normRun norm at_ acc
  | (true, c) :: r => normCells norm (acc ++ [c]) at_ r
  | (false, c) :: r =>
    let e := at_ + acc.flatten.length
    normRun norm at_ acc ++ ⟨c, e, e + 1, true, true⟩ :: normCells norm [] (e + 1) r

/-- A prepared segment that starts at input offset `at_` (R242). -/
def prepare (v : Voc) (at_ : Nat) (spacer : Bool) (text : List Byte) : List Cell :=
  let cs := normCells v.norm [] at_ (u8Cells text.length text)
  let cs := if v.spMark then cs.map (fun c => if c.bytes = [0x20] ∧ !c.ill then { c with bytes := spaceMark, raw := false } else c) else cs
  if spacer then ⟨if v.spMark then spaceMark else [0x20], at_, at_, false, false⟩ :: cs else cs

/-! ### The lattice (R243, R244) -/

inductive EdgeKind where | entry | byte | unk
deriving DecidableEq, Repr

/-- A candidate: the total score, the token count, the last edge's length, token and start. -/
structure Cand where
  score : Int
  n     : Nat
  len   : Nat
  id    : Nat
  start : Nat
  kind  : EdgeKind
deriving DecidableEq, Repr

/-- R244's order: `a` ranks before `b`. -/
def candLt (a b : Cand) : Bool :=
  if a.score ≠ b.score then decide (b.score < a.score)
  else if a.n ≠ b.n then a.n < b.n
  else if a.len ≠ b.len then b.len < a.len
  else a.id < b.id

/-- Offers a candidate at a position. -/
def offer (best : NMap Cand) (pos : Nat) (c : Cand) : NMap Cand :=
  match nget best pos with
  | some b => if candLt c b then nset best pos c else best
  | none => nset best pos c

/-- The edge from position `i`, whose best is `b`. -/
def edge (b : Cand) (i len id : Nat) (sc : Int) (k : EdgeKind) : Cand := ⟨b.score + sc, b.n + 1, len, id, i, k⟩

/-- Entries that may match in a segment and whose string the bytes begin with (R243). -/
def matches_ (v : Voc) (trusted : Bool) (rest : List Byte) : List (Nat × VocEnt) :=
  (enum0 v.ents).filter fun e => !v.isByte e.1 && !e.2.decOnly && (trusted || !e.2.control) && e.2.str.isPrefixOf rest

/-- A chain of byte tokens over a character from position `i` (R243). -/
def byteChain (v : Voc) : Nat → List Byte → NMap Cand → NMap Cand
  | _, [], best => best
  | i, x :: r, best =>
    match nget best i with
    | none => best
    | some b => byteChain v (i + 1) r (offer best (i + 1) (edge b i 1 (v.byteBase + x.toNat) v.byteScore .byte))

/-- The edges that leave the start of a cell. -/
def cellEdges (v : Voc) (trusted : Bool) (i : Nat) (c : Cell) (rest : List Byte) (best : NMap Cand) : NMap Cand :=
  match nget best i with
  | none => best
  | some b =>
    let ms := if c.ill then [] else matches_ v trusted rest
    if ms ≠ [] then ms.foldl (fun m e => offer m (i + e.2.str.length) (edge b i e.2.str.length e.1 e.2.score .entry)) best
    else if v.byteFb then byteChain v i c.bytes best
    else offer best (i + c.bytes.length) (edge b i c.bytes.length v.unkId v.unkScore .unk)

/-- The best candidates of every position, cells ascending. -/
def lattice (v : Voc) (trusted : Bool) : Nat → List Cell → NMap Cand → NMap Cand
  | _, [], best => best
  | i, c :: r, best =>
    lattice v trusted (i + c.bytes.length) r
      (cellEdges v trusted i c (((c :: r).map (·.bytes)).flatten) best)

/-- Tokens of the best path, last first; `fuel` bounds their number. -/
def backtrack (best : NMap Cand) : Nat → Nat → List Cand
  | 0, _ => []
  | fuel + 1, pos =>
    if pos = 0 then []
    else match nget best pos with
      | none => []
      | some c => c :: backtrack best fuel c.start

/-- The cell that holds a byte position of the prepared segment, and the place in it. -/
def cellAt (pos : Nat) : List Cell → Option (Cell × Nat)
  | [] => none
  | c :: r => if pos < c.bytes.length then some (c, pos) else cellAt (pos - c.bytes.length) r

/-- A token as TOKENIZE writes it: its ID, the first input byte it comes from, the end of the last one, its kind. -/
structure Tok where
  id   : Nat
  off  : Nat
  fin  : Nat
  kind : EdgeKind
deriving DecidableEq, Repr

/-- The first and end input offsets of the edge [start, start + len) (R240, R241; log 23). -/
def tokOf (cs : List Cell) (c : Cand) : Tok :=
  let a := match cellAt c.start cs with
    | some (x, k) => if x.raw then x.src + k else x.src
    | none => 0
  let b := match cellAt (c.start + c.len - 1) cs with
    | some (x, k) => if x.raw then x.src + k + 1 else x.fin
    | none => 0
  ⟨c.id, a, b, c.kind⟩

/-- The tokens of a prepared segment (R244). -/
def segment (v : Voc) (trusted : Bool) (cs : List Cell) : List Tok :=
  let n := ((cs.map (·.bytes)).flatten).length
  let best := lattice v trusted 0 cs [(0, ⟨0, 0, 0, 0, 0, .entry⟩)]
  ((backtrack best n n).reverse).map (tokOf cs)

/-- Byte positions of prepared text at which the string of a CONTROL entry begins (R245). -/
def controlHits (v : Voc) (cs : List Cell) : Nat :=
  let all := (cs.map (·.bytes)).flatten
  ((List.range all.length).filter fun i =>
    (enum0 v.ents).any fun e => !v.isByte e.1 && e.2.control && e.2.str.isPrefixOf (all.drop i)).length

/-! ### What a token yields (R247) -/

/-- U+2581 replaced by U+0020 in a string. -/
def unmark : Nat → List Byte → List Byte
  | 0, bs => bs
  | fuel + 1, bs =>
    match bs with
    | [] => []
    | b :: r => if spaceMark.isPrefixOf bs then 0x20 :: unmark fuel (bs.drop 3) else b :: unmark fuel r

/-- Bytes of a token, before HOLD (R247 steps 1-3). -/
def tokYield (v : Voc) (showCtl : Bool) (id : Nat) : List Byte :=
  if v.isByte id then [BitVec.ofNat 8 (id - v.byteBase)]
  else match v.ents[id]? with
    | none => []
    | some e =>
      if e.control then (if showCtl then e.str else [])
      else if v.spMark then unmark e.str.length e.str else e.str

/-- A stream record (R246). -/
structure SRec where
  opened  : Bool
  started : Bool
  ended   : Bool
  hold    : List Byte
  voc     : Nat
  show_   : Bool
  emitted : Nat
  tokens  : Nat
  repl    : Nat
deriving DecidableEq, Repr

def srecOf (bs : List Byte) : SRec :=
  { opened := bit (bAt bs 0 1) 0, started := bit (bAt bs 0 1) 1, ended := bit (bAt bs 0 1) 2
    hold := (bs.drop 2).take (min 3 (bAt bs 1 1)), voc := bAt bs 5 1, show_ := bit (bAt bs 6 1) 0
    emitted := bAt bs 8 8, tokens := bAt bs 16 4, repl := bAt bs 20 4 }

def srecBytes (r : SRec) : List Byte :=
  leBytes 1 (b2n r.opened + 2 * b2n r.started + 4 * b2n r.ended) ++ leBytes 1 r.hold.length ++ (r.hold ++ leBytes 3 0).take 3 ++
  leBytes 1 r.voc ++ leBytes 1 (b2n r.show_) ++ leBytes 1 0 ++ leBytes 8 r.emitted ++ leBytes 4 r.tokens ++
  leBytes 4 r.repl ++ leBytes 40 0

/-- Emits bytes on a stream: the dropped first space, the counts (R247 step 5). -/
def srecEmit (v : Voc) (r : SRec) (em : List (Byte × Bool)) : List (Byte × Bool) × SRec :=
  let out := if v.prefSp ∧ !r.started ∧ (em.head?.map (·.1)) = some 0x20 then em.drop 1 else em
  (out, { r with started := r.started || em ≠ [], emitted := r.emitted + out.length
                 repl := r.repl + (em.filter (·.2)).length / 3 })

/-- One token through the stream (R247). -/
def srecToken (v : Voc) (r : SRec) (id : Nat) : List (Byte × Bool) × SRec :=
  let all := r.hold ++ tokYield v r.show_ id
  let e := u8Emit all.length all
  srecEmit v { r with hold := e.2, tokens := r.tokens + 1 } e.1

/-- Closing a stream: HOLD becomes one U+FFFD, ENDED is set (R248). -/
def srecClose (v : Voc) (r : SRec) : List (Byte × Bool) × SRec :=
  let e := if r.hold = [] then ([], r) else srecEmit v { r with hold := [] } (replChar.map fun b => (b, true))
  (e.1, { e.2 with ended := true })

end Sys2Proof.Machine
end

