-- ==== Sys2Proof/Machine/Whittle.lean ====
section
/-! DEFINITION. Whittle (chapter 8): vocabulary slots, TOKENIZE, DETOKENIZE, the external path and the streams of open
generations. -/

namespace Sys2Proof.Machine

/-! ### Text engines and resident images -/

/-- Engine `e` of a text-group kind (block 9 Whittle, 0xA Cleat, 0xB Bight, 0xC Skein) is reserved as its group's spare (R252). -/
def reservedEng (s : State) (blk e : Nat) : Bool := s.lay.img.reserve.contains (16 * (blk - 9) + e)

/-- Engines of a kind that partition p has on a die: those not reserved, and a spare that serves a fenced one (R252). -/
def textEngines (s : State) (p blk die : Nat) : List Nat :=
  match partPlan s p with
  | some pl => (List.range 16).filter fun e => e / 4 == die &&
      (if reservedEng s blk e then (engOf s blk e).serves != e && pl.text.contains (engOf s blk e).serves else pl.text.contains e)
  | none => []

/-- A die of the list on which the partition has a free engine of a kind, with the engine. -/
def textOn (s : State) (p blk : Nat) (dies : List Nat) : Option (Nat × Nat) :=
  match dies with
  | [] => none
  | d :: r => match engFree s blk (textEngines s p blk d) with
    | some e => some (d, e)
    | none => textOn s p blk r

def whReq (e p : Nat) : Req := unitReq (BitVec.ofNat 8 (0x30 + e)) p

/-- A load's reads are made by the Splice engine that takes the copy (R52, R235). -/
def spliceReqOf (s : State) (p : Nat) : Req := unitReq (BitVec.ofNat 8 (0x70 + (engFree s 4 (spliceEngines s)).getD 0)) p

def dieBits (m : Nat) : List Nat := (List.range 4).filter fun i => bit m i

def img0 : ImgSlot := ⟨.empty, 0, [], 0, [], 0, 0, 0, none, false⟩

def vocOf (s : State) (v : Nat) : ImgSlot := ngetD s.wh.voc v img0
def putVoc (v : Nat) (x : ImgSlot) (s : State) : State := { s with wh.voc := nset s.wh.voc v x }

/-- The slot is bound to partition p (R233). -/
def vocBound (s : State) (p v : Nat) : Option VocPlan :=
  match nget s.lay.img.voc v with
  | some pl => if pl.part = p then some pl else none
  | none => none

/-- Bytes of a die's copy. -/
def copyBytes (s : State) (x : ImgSlot) (die : Nat) : List Byte :=
  (((ngetD x.copies die []).map fun pg => memRead s.mem (65536 * pg) 65536).flatten).take x.len

/-- A die's copy holds poison in the bytes of the image. -/
def copyPoison (s : State) (x : ImgSlot) (die : Nat) : Bool :=
  ((ngetD x.copies die []).take (ceilDiv x.len 65536)).any fun pg => poisoned s (65536 * pg) 65536

/-- Takes `n` single pages of a partition on a die for a loaded image. -/
def takeCopy (p die : Nat) : Nat → State → Option (List Nat × State)
  | 0, s => some ([], s)
  | n + 1, s =>
    match takeT1 p slotShared 0 1 .allocated [2 * die, 2 * die + 1] s with
    | none => none
    | some (f, s) => match takeCopy p die n s with
      | some (l, s) => some (f :: l, s)
      | none => none

/-- Releases the pages of a slot's copies. -/
def dropCopies (x : ImgSlot) (s : State) : State :=
  (x.copies.map (·.2)).flatten.foldl (fun s pg => releasePages pg 1 x.owner slotShared 0 (gensOf s pg 1) s) s

/-- Splice copies an image to each die (R235): the slot with its copies; `failed` where a die has no pages for it. -/
def copyImage (p need : Nat) (img : List Byte) (x : ImgSlot) : List Nat → State → ImgSlot × State
  | [], s => (x, s)
  | d :: r, s =>
    match takeCopy p d need s with
    | none => ({ x with failed := true }, s)
    | some (l, s) =>
      let m := (enum0 (l.take (ceilDiv img.length 65536))).foldl (fun m e =>
        memWrite m (65536 * e.2) ((img.drop (65536 * e.1)).take 65536)) s.mem
      copyImage p need img { x with copies := nset x.copies d l } r { s with mem := m }

/-- The answer to a command that names a slot not in the state it needs (R236). -/
def imgRefuse (ring : Nat) (d : BitVec 512) (st : ImgSt) (s : State) : State :=
  match st with
  | .loading | .verifying => finish ring d stRefusedCapacity (hintOf s) (useFree s)
  | _ => finish ring d stRefusedCapacity hintNever s

/-- What every Whittle command meets first (R238, R253, R370, R587). -/
def whEntry (op ring : Nat) (d : BitVec 512) (f : Nat → State → State) (s : State) : State :=
  match ringPart s ring with
  | none => finish ring d stRefusedCapacity hintNever s
  | some p =>
    if dOp d ≠ op then hbad ring d 0 s
    else if bit (rg s .WH_CTL) 0 then finish ring d stRefusedCapacity hintNever s
    else f p s

/-! ### VOCAB_LOAD and VOCAB_UNLOAD (R234-R236, R238) -/

/-- VOCAB_LOAD. -/
def vocabLoadOp (ring : Nat) (d : BitVec 512) (s : State) : State :=
  whEntry 0x42 ring d (fun p s =>
    let v := fld d 17 1
    let tier := fld d 18 1
    let len := fld d 20 4
    let a := if tier = 4 then 2 ^ 63 + fld d 24 8 % 2 ^ 63 else fld d 24 8
    if !(v < 16 && (tier == 1 || tier == 4) && fld d 19 1 == 0 && fld d 32 32 == 0) then hbad ring d 0 s
    else match vocBound s p v with
      | none => hbad ring d 0 s
      | some pl =>
        if (vocOf s v).st ≠ .empty then imgRefuse ring d (vocOf s v).st s
        else
          let q := spliceReqOf s p
          let c := inCheck s q a len
          if c.st ≠ 0 then finish ring d c.st c.det (ctr .WH_LOAD_FAIL_CNT p (inFail q a c s))
          else if len < 256 then hbad ring d 0 (ctr .WH_LOAD_FAIL_CNT p s)
          else
            let img := rdBytes s a len
            let need := vocPages img
            if pl.ceil < need then finish ring d stRefusedLoad (detLoad 3 false (need - pl.ceil)) (ctr .WH_LOAD_FAIL_CNT p s)
            else
              let x : ImgSlot := { img0 with st := .loading, pages := need, len := len, owner := p, cmd := some (ring, d),
                                             entries := bAt img 8 4, digest := (img.drop 48).take 48 }
              let r := copyImage p need img x (dieBits pl.dies) s
              putVoc v r.1 r.2) s

/-- Every copy of a vocabulary slot passes its digest and is well formed (R235). -/
def vocCopiesOk (s : State) (x : ImgSlot) : Bool :=
  !x.failed && x.copies.all fun c =>
    let img := copyBytes s x c.1
    !copyPoison s x c.1 && sha384 (img.drop 256) == (img.drop 48).take 48 && (parseVoc img).isSome

/-- VOCAB_LOAD_DONE for a vocabulary slot (R235). -/
def vocabDone (v : Nat) (s : State) : State :=
  let x := vocOf s v
  match x.st, x.cmd with
  | .loading, some (ring, d) =>
    if vocCopiesOk s x then
      finish ring d stDone 0 (ctr .WH_LOAD_CNT x.owner (plogExtend x.owner (plogRec 1 v 0 x.digest 0)
        (putVoc v { x with st := .ready, cmd := none } s)))
    else finish ring d stFaultContext 0 (ctr .WH_LOAD_FAIL_CNT x.owner (putVoc v img0 (dropCopies x s)))
  | _, _ => s

/-- A generation's sampling record names: vocabulary slot; grammar slot, if one is used (R256). -/
def gVoc (g : Gen) : Nat := bAt g.param 1 1 % 16
def gUsesGram (g : Gen) : Bool := bit (bAt g.param 2 1) 7
def gGram (g : Gen) : Nat := bAt g.param 2 1 % 16

/-- A request names the vocabulary slot: a stream, an open generation, or a grammar slot bound to it (R235, R261). -/
def vocBusy (s : State) (v : Nat) : Bool :=
  s.wh.streams.any (fun e => e.2.voc == v) || s.bt.gens.any (fun e => gVoc e.2 == v) ||
  s.bt.gram.any (fun e => e.2.st != .empty && e.2.vocab == v)

/-- The last request naming a draining slot has completed (R235). -/
def vocDrained (v : Nat) (s : State) : State :=
  let x := vocOf s v
  match x.st, x.cmd with
  | .draining, some (ring, d) =>
    if vocBusy s v then s else finish ring d stDone 0 (putVoc v img0 (dropCopies x s))
  | _, _ => s

/-- VOCAB_UNLOAD. -/
def vocabUnloadOp (ring : Nat) (d : BitVec 512) (s : State) : State :=
  whEntry 0x43 ring d (fun p s =>
    let v := fld d 17 1
    if !(v < 16 && fld d 18 46 == 0 && (vocBound s p v).isSome) then hbad ring d 0 s
    else if (vocOf s v).st ≠ .ready then imgRefuse ring d (vocOf s v).st s
    else vocDrained v (putVoc v { vocOf s v with st := .draining, cmd := some (ring, d) } s)) s

/-- SLOT_VERIFY_DONE for a vocabulary slot (R235). -/
def vocabVerify (v : Nat) (s : State) : State :=
  let x := vocOf s v
  if x.st ≠ .verifying then s
  else if vocCopiesOk s x then putVoc v { x with st := .ready } s
  else putVoc v img0 (dropCopies x (evt Ev.VOCAB_LOST (whReq 0 x.owner) v s))

/-! ### The external path (R237) -/

def xc0 : XCache := ⟨0, [], []⟩

/-- One page of an external image through a die's cache: its bytes, or none where its digest fails. -/
def xcPage (die p a n i : Nat) (s : State) : Option (List Byte) × State :=
  let x := ngetD s.wh.xc die xc0
  match x.pages.find? fun e => e.1 == i with
  | some e => (some e.2, ctr .WH_XCACHE_HIT_CNT p s)
  | none =>
    let bs := memRead s.hmem (hostAddr a + 65536 * i) (min 65536 (n - 65536 * i))
    let s := ctr .WH_XCACHE_MISS_CNT p s
    if sha384 bs = (x.table.drop (48 * i)).take 48 then
      let cap := bits (rg s .WH_XCACHE_CFG die) 15 0
      let l := x.pages ++ [(i, bs)]
      (some bs, { s with wh.xc := nset s.wh.xc die { x with pages := l.drop (l.length - cap) } })
    else (none, evt Ev.VOCAB_PAGE_MISMATCH (whReq (4 * die) p) (2 ^ 63 + hostAddr a + 65536 * i) (ctr .WH_XCACHE_MISMATCH_CNT p s))

/-- Pages `i` onward of an external image. -/
def xcPages (die p a n : Nat) : List Nat → State → Option (List Byte) × State
  | [], s => (some [], s)
  | i :: r, s =>
    match xcPage die p a n i s with
    | (none, s) => (none, s)
    | (some b, s) => match xcPages die p a n r s with
      | (some l, s) => (some (b ++ l), s)
      | (none, s) => (none, s)

/-- An external image: the verdict, its bytes, the state with what the reading logged and cached. The page digest table
stands behind the image and is checked once against the header's DIGEST (log 24). -/
def xcImage (die eng p a : Nat) (s : State) : Verdict × List Byte × State :=
  let q := whReq eng p
  let bad : Verdict := ⟨stFaultContext, 0⟩
  let c := inCheck s q a 256
  if c.st ≠ 0 then (c, [], inFail q a c s)
  else
    let s := if (ngetD s.wh.xc die xc0).addr = a then s else { s with wh.xc := nset s.wh.xc die ⟨a, [], []⟩ }
    let x := ngetD s.wh.xc die xc0
    let h := match x.pages.find? fun e => e.1 == 0 with
      | some e => e.2.take 256
      | none => rdBytes s a 256
    let n := vocImage h
    let k := ceilDiv n 65536
    let c := inCheck s q a (n + 48 * k)
    if c.st ≠ 0 then (c, [], inFail q a c s)
    else
      let t := if x.table = [] then rdBytes s (a + n) (48 * k) else x.table
      if x.table = [] ∧ sha384 t ≠ (h.drop 48).take 48 then
        (bad, [], evt Ev.VOCAB_PAGE_MISMATCH q (a + n) (ctr .WH_XCACHE_MISMATCH_CNT p s))
      else
        match xcPages die p a n (List.range k) { s with wh.xc := nset s.wh.xc die { x with table := t } } with
        | (none, s) => (bad, [], s)
        | (some img, s) => (okV, img, s)

/-! ### The image a command works on -/

/-- Runs `f` on the engine, the slot code and the decoded vocabulary that TOKENIZE or DETOKENIZE names (R236-R238, R253). -/
def withVoc (ring : Nat) (d : BitVec 512) (p : Nat) (f : Nat → Voc → State → State) (s : State) : State :=
  let c := fld d 17 1
  let v := c % 16
  if bits c 6 4 ≠ 0 then hbad ring d 0 s
  else if bit c 7 then
    if !bit (rg s .WH_PART_CFG p) 1 ∨ v ≠ 0 then hbad ring d 0 s
    else match textOn s p 9 [0, 1, 2, 3] with
      | none => finish ring d stRefusedCapacity hintNever s
      | some (die, e) =>
        match xcImage die e p (2 ^ 63 + hostAddr (fld d 48 8)) s with
        | (c, img, s) =>
          if c.st ≠ 0 then finish ring d c.st c.det s
          else match parseVoc img with
            | none => hbad ring d 0 s
            | some w => f e w s
  else if fld d 48 8 ≠ 0 then hbad ring d 0 s
  else match vocBound s p v with
    | none => hbad ring d 0 s
    | some pl =>
      let x := vocOf s v
      if x.st ≠ .ready then imgRefuse ring d x.st s
      else match textOn s p 9 (dieBits pl.dies) with
        | none => finish ring d stRefusedCapacity hintNever s
        | some (die, e) =>
          if copyPoison s x die then hbad ring d 0 s
          else match parseVoc (copyBytes s x die) with
            | none => hbad ring d 0 s
            | some w => f e w s

/-! ### TOKENIZE (R238-R245) -/

/-- A segment-list entry (R239). -/
structure Segm where
  addr    : Nat
  len     : Nat
  trusted : Bool
  literal : Bool
deriving DecidableEq, Repr

def segmOf (bs : List Byte) : Segm := ⟨bAt bs 0 8, bAt bs 8 4, bit (bAt bs 12 1) 0, bit (bAt bs 12 1) 1⟩

/-- Entries of a segment list are in form (R239). -/
def segmOk (entries : Nat) (allow : Bool) (bs : List Byte) : Bool :=
  let g := segmOf bs
  bAt bs 12 1 < 4 && bAt bs 13 3 == 0 && (!g.literal || (g.trusted && g.len == 0 && g.addr % 2 ^ 32 < entries)) &&
  (!g.trusted || allow)

/-- TOKENIZE's own fields are in range (R238). -/
def tokForm (d : BitVec 512) : Bool :=
  fld d 18 1 < 16 && bits (fld d 18 1) 2 1 ≤ 2 && fld d 19 1 == 0 && 1 ≤ fld d 20 4 && fld d 20 4 ≤ 4096 &&
  fld d 32 8 % 64 == 0 && 1 ≤ fld d 40 4 && fld d 40 4 ≤ 4194304 && fld d 44 4 == 0

/-- Text of a confidential partition at a host-port address is sealed (R478). -/
def confText (s : State) (d : BitVec 512) (p a : Nat) : Bool := isConf s p && isHost a && !dSealed d

/-- Reads the text of each segment (R239, R411). -/
def readSegs (d : BitVec 512) (q : Req) (p : Nat) : List Segm → State → Verdict × List (Segm × List Byte) × State
  | [], s => (okV, [], s)
  | g :: r, s =>
    match (if g.literal ∨ g.len = 0 then (okV, [], s)
      else if confText s d p g.addr then (⟨stFaultContext, 0⟩, [], s) else readInput d q p g.addr g.len s) with
    | (v, bs, s) =>
      if v.st ≠ 0 then (v, [], s)
      else match readSegs d q p r s with
        | (v, l, s) => (v, (g, bs) :: l, s)

/-- The full segmentation of a command: tokens, control strings in untrusted text, ill-formed bytes. `first` says that no text
segment has come yet; `at_` is the input offset. -/
def segAll (v : Voc) (noPref : Bool) : Bool → Nat → List (Segm × List Byte) → List Tok × Nat × Nat
  | _, _, [] => ([], 0, 0)
  | first, at_, (g, bs) :: r =>
    if g.literal then
      let t := segAll v noPref first at_ r
      (⟨g.addr % 2 ^ 32, at_, at_, .entry⟩ :: t.1, t.2)
    else
      let cs := prepare v at_ (v.prefSp && !noPref && first) bs
      let t := segAll v noPref false (at_ + bs.length) r
      (segment v g.trusted cs ++ t.1, (if g.trusted then 0 else controlHits v cs) + t.2.1, (cs.filter (·.ill)).length + t.2.2)

/-- The 32-byte result (R240). -/
def tokResult (n consumed ctl ill byt unk : Nat) : List Byte :=
  leBytes 4 n ++ leBytes 4 consumed ++ leBytes 4 ctl ++ leBytes 4 ill ++ leBytes 4 byt ++ leBytes 4 unk ++ leBytes 8 0

/-- Writes the tokens, the offsets and the result, and completes (R240, R241). -/
def tokWrite (ring : Nat) (d : BitVec 512) (q : Req) (p total : Nat) (toks : List Tok) (ctl ill : Nat) (s : State) : State :=
  let max := fld d 40 4
  let out := toks.take max
  let cut := max < toks.length
  let consumed := if cut then (out.getLast?.map (·.fin)).getD 0 else total
  let ids := (out.map fun t => leBytes 4 t.id).flatten
  let offs := (out.map fun t => leBytes 4 t.off).flatten
  let hasOff := bit (fld d 18 1) 0
  let a := fld d 32 8
  let region := if hasOff then ids ++ leBytes (4 * max - ids.length) 0 ++ offs else ids
  let c := outCheck s q a (if dSealed d && isHost a then sealedLen region.length else region.length)
  let c2 := outCheck s q (fld d 56 8) 32
  if c.st ≠ 0 then finish ring d c.st c.det s
  else if c2.st ≠ 0 then finish ring d c2.st c2.det s
  else
    let byt := (out.filter fun t => t.kind == .byte).length
    let unk := (out.filter fun t => t.kind == .unk).length
    let s :=
      if dSealed d && isHost a then writeOutput d a region s
      else if hasOff then wrBytes (a + 4 * max) offs (wrBytes a ids s) else wrBytes a ids s
    let s := wrBytes (fld d 56 8) (tokResult out.length consumed ctl ill byt unk) s
    let s := ctrAdd .WH_TOK_OUT_CNT 0 p out.length (ctrAdd .WH_BYTE_FALLBACK_CNT 0 p byt (ctrAdd .WH_UNK_CNT 0 p unk s))
    if cut then finish ring d stDoneLimit 0 (ctr .WH_LIMIT_CNT p s) else finish ring d stDone 0 s

/-- TOKENIZE. -/
def tokenizeOp (ring : Nat) (d : BitVec 512) (s : State) : State :=
  whEntry 0x40 ring d (fun p s =>
    if !tokForm d then hbad ring d 0 s
    else withVoc ring d p (fun eng v s =>
      let q := whReq eng p
      match readPlain q (fld d 24 8) (16 * fld d 20 4) s with
      | (c, list, s) =>
        if c.st ≠ 0 then finish ring d c.st c.det s
        else
          let raws := (List.range (fld d 20 4)).map fun i => (list.drop (16 * i)).take 16
          let gs := raws.map segmOf
          let total := ((gs.filter fun g => !g.literal).map (·.len)).foldl (· + ·) 0
          if !(raws.all (segmOk v.entries (bit (rg s .WH_PART_CFG p) 0)) && total ≤ 16777216) then hbad ring d 0 s
          else match readSegs d q p gs s with
            | (c, segs, s) =>
              if c.st ≠ 0 then finish ring d c.st c.det s
              else
                let r := segAll v (bit (fld d 18 1) 3) true 0 segs
                let esc := bits (fld d 18 1) 2 1
                let ctl := if esc = 0 then 0 else r.2.1
                let s := ctr .WH_TOK_CMD_CNT p (ctrAdd .WH_TOK_IN_BYTES 0 p total (ctrAdd .WH_ILLFORMED_IN_CNT 0 p r.2.2
                  (ctrAdd .WH_CONTROL_TEXT_CNT 0 p ctl s)))
                if esc = 2 ∧ 0 < ctl then
                  let c2 := outCheck s q (fld d 56 8) 32
                  if c2.st ≠ 0 then finish ring d c2.st c2.det s
                  else finish ring d stFaultContext 0 (wrBytes (fld d 56 8) (tokResult 0 0 ctl r.2.2 0 0) s)
                else
                  let s := if 0 < ctl then evt Ev.CONTROL_TEXT_FOUND q ctl s else s
                  tokWrite ring d q p total r.1 ctl r.2.2 s) s) s

/-! ### DETOKENIZE (R246-R249) -/

/-- Tokens through a stream until the limit or an ID outside the vocabulary: the bytes, the record, the tokens left. -/
def detokRun (v : Voc) (max : Nat) : List Nat → List (Byte × Bool) → SRec → List (Byte × Bool) × SRec × List Nat
  | [], out, r => (out, r, [])
  | id :: rest, out, r =>
    if v.entries ≤ id then (out, r, id :: rest)
    else
      let e := srecToken v r id
      if max < out.length + e.1.length then (out, r, id :: rest)
      else detokRun v max rest (out ++ e.1) e.2

/-- DETOKENIZE's own fields are in range (R238). -/
def detokForm (d : BitVec 512) : Bool :=
  fld d 18 1 < 8 && fld d 19 1 == 0 && fld d 20 4 ≤ 65536 && fld d 32 8 % 64 == 0 && 64 ≤ fld d 40 4 &&
  fld d 40 4 ≤ 16777216 && fld d 44 4 == 0

/-- A record as FIRST leaves it (R246). -/
def srecNew (d : BitVec 512) : SRec := ⟨true, false, false, [], fld d 17 1, bit (fld d 18 1) 2, 0, 0, 0⟩

/-- Writes bytes and record, and completes. -/
def detokWrite (ring : Nat) (d : BitVec 512) (q : Req) (p : Nat) (out : List (Byte × Bool)) (r0 r : SRec) (st : Nat) (s : State) : State :=
  let bs := out.map (·.1)
  let a := fld d 32 8
  let c := outCheck s q a (if dSealed d && isHost a then sealedLen bs.length else bs.length)
  if c.st ≠ 0 then finish ring d c.st c.det s
  else
    let s := if bs = [] ∧ !dSealed d then s else writeOutput d a bs s
    let s := wrBytes (fld d 56 8) (srecBytes r) s
    let s := ctrAdd .WH_DETOK_TOKEN_CNT 0 p (r.tokens - r0.tokens) (ctrAdd .WH_DETOK_OUT_BYTES 0 p bs.length
      (ctrAdd .WH_REPLACEMENT_CNT 0 p (r.repl - r0.repl) s))
    finish ring d st 0 (if st = stDoneLimit then ctr .WH_LIMIT_CNT p s else s)

/-- DETOKENIZE. -/
def detokenizeOp (ring : Nat) (d : BitVec 512) (s : State) : State :=
  whEntry 0x41 ring d (fun p s =>
    if !detokForm d then hbad ring d 0 s
    else withVoc ring d p (fun eng v s =>
      let q := whReq eng p
      let first := bit (fld d 18 1) 0
      let max := fld d 40 4
      match readPlain q (fld d 24 8) (4 * fld d 20 4) s with
      | (c, ids, s) =>
        if c.st ≠ 0 then finish ring d c.st c.det s
        else match (if first then (okV, [], s) else readPlain q (fld d 56 8) 64 s) with
          | (c, rec, s) =>
            let w := outCheck s q (fld d 56 8) 64
            if c.st ≠ 0 then finish ring d c.st c.det s
            else if w.st ≠ 0 then finish ring d w.st w.det s
            else
              let r0 := if first then srecNew d else srecOf rec
              if r0.ended then hbad ring d 0 s
              else
                let toks := (List.range (fld d 20 4)).map fun i => bAt ids (4 * i) 4
                let r0 := { r0 with opened := true }
                let e := detokRun v max toks [] r0
                match e.2.2 with
                | id :: _ => detokWrite ring d q p e.1 r0 e.2.1 (if v.entries ≤ id then stFaultContext else stDoneLimit) s
                | [] =>
                  if bit (fld d 18 1) 1 then
                    let z := srecClose v e.2.1
                    if max < e.1.length + z.1.length then detokWrite ring d q p e.1 r0 e.2.1 stDoneLimit s
                    else detokWrite ring d q p (e.1 ++ z.1) r0 z.2 stDone s
                  else detokWrite ring d q p e.1 r0 e.2.1 stDone s) s) s

/-! ### Streams of open generations (R250, R252) -/

/-- The vocabulary a stream's die reads. -/
def strmVoc (s : State) (x : Strm) : Option Voc := parseVoc (copyBytes s (vocOf s x.voc) x.die)

/-- Writes the chunks that wait, in order, while the text ring has room. -/
def flushStrm (n : Nat) : Nat → State → State
  | 0, s => s
  | fuel + 1, s =>
    match nget s.wh.streams n with
    | none => s
    | some x =>
      match x.chunks.find? fun c => !c.written with
      | none => s
      | some c =>
        if 0 < ringRoom s x.ring then
          let done := (x.chunks.takeWhile (·.written)).length
          flushStrm n fuel (pushEntry x.ring false c.bytes
            { s with wh.streams := nset s.wh.streams n { x with chunks := x.chunks.set done { c with written := true } } })
        else s

/-- One 64-byte chunk (R250). -/
def chunkBytes (text : List (Byte × Bool)) (fin : Bool) (tokens handle : Nat) : List Byte :=
  leBytes 2 text.length ++ leBytes 1 (b2n fin + 2 * b2n (text.any (·.2))) ++ leBytes 1 0 ++ leBytes 4 tokens ++
  leBytes 8 handle ++ ((text.map (·.1)) ++ leBytes 48 0).take 48

/-- Chunks of at most 48 bytes for one token's bytes: the record changes with the last of them (R250, R252; log 25). -/
def chunksOf (before after : SRec) (handle : Nat) : Nat → List (Byte × Bool) → List Chunk
  | 0, _ => []
  | fuel + 1, t =>
    if t.length ≤ 48 then
      (if t = [] then [] else [⟨chunkBytes t false after.tokens handle, some (srecBytes after), false⟩])
    else ⟨chunkBytes (t.take 48) false before.tokens handle, none, false⟩ :: chunksOf before after handle fuel (t.drop 48)

/-- Streams one committed token (R250). -/
def strmToken (n id : Nat) (s : State) : State :=
  match nget s.wh.streams n, nget s.bt.gens n with
  | some x, some g =>
    match strmVoc s x with
    | none => s
    | some v =>
      let r := srecOf x.cur
      let e := srecToken v r id
      let cs := chunksOf r e.2 g.handle (e.1.length / 48 + 1) e.1
      let s := ctrAdd .WH_DETOK_TOKEN_CNT 0 g.part 1 (ctrAdd .WH_DETOK_OUT_BYTES 0 g.part e.1.length
        (ctrAdd .WH_REPLACEMENT_CNT 0 g.part (e.2.repl - r.repl) s))
      { s with wh.streams := nset s.wh.streams n { x with cur := srecBytes e.2, chunks := x.chunks ++ cs } }
  | _, _ => s

/-- Closes a stream (R248): its holdback, then END. -/
def strmClose (n : Nat) (s : State) : State :=
  match nget s.wh.streams n, nget s.bt.gens n with
  | some x, some g =>
    if x.closed then s
    else match strmVoc s x with
      | none => { s with wh.streams := nset s.wh.streams n { x with closed := true } }
      | some v =>
        let r := srecOf x.cur
        let e := srecClose v r
        let c : Chunk := ⟨chunkBytes e.1 true e.2.tokens g.handle, some (srecBytes e.2), false⟩
        let s := ctrAdd .WH_DETOK_OUT_BYTES 0 g.part e.1.length (ctrAdd .WH_REPLACEMENT_CNT 0 g.part (e.2.repl - r.repl) s)
        flushStrm n 2 { s with wh.streams := nset s.wh.streams n { x with cur := srecBytes e.2, chunks := x.chunks ++ [c], closed := true } }
  | _, _ => s

/-- STREAM_CHUNK_ACK: the oldest written chunk of the session's stream is acknowledged (R250, R252). -/
def chunkAck (n : Nat) (s : State) : State :=
  match nget s.wh.streams n with
  | none => s
  | some x =>
    match x.chunks with
    | [] => s
    | c :: r =>
      if !c.written then s
      else
        let s := match c.record with | some bs => wrBytes x.addr bs s | none => s
        flushStrm n (r.length + 1) { s with wh.streams := nset s.wh.streams n { x with chunks := r } }

/-- A stream whose last chunk is acknowledged (or that never was). -/
def strmDone (s : State) (n : Nat) : Bool :=
  match nget s.wh.streams n with
  | none => true
  | some x => x.closed && x.chunks == []

/-- Ends a stream: its engine is released. -/
def dropStrm (n : Nat) (s : State) : State :=
  match nget s.wh.streams n with
  | none => s
  | some x => engDone 9 x.eng { s with wh.streams := ndel s.wh.streams n }

/-- A fence of a Whittle engine: its streams move to another engine of the partition, from the record (R252). -/
def whittleFence (e : Nat) (s : State) : State :=
  (s.wh.streams.filter fun x => x.2.eng == e).foldl (fun s x =>
    let p := (vocOf s x.2.voc).owner
    match textOn s p 9 [x.2.die] with
    | some (_, k) =>
      ctr .WH_RESTART_CNT p (engDone 9 e (engTake 9 k { s with wh.streams := nset s.wh.streams x.1 { x.2 with eng := k } }))
    | none => s) s

end Sys2Proof.Machine
end

