-- ==== Sys2Proof/Machine/Cleat.lean ====
section
/-! DEFINITION. Cleat (chapter 9): grammar images, grammar positions and masks (R259-R264), grammar slots (R261). -/

namespace Sys2Proof.Machine

/-! ### Grammar images (R259, R260) -/

def gramEntries (img : List Byte) : Nat := bAt img 8 4
def gramStates (img : List Byte) : Nat := bAt img 12 4
def gramEdges (img : List Byte) : Nat := bAt img 16 4
def gramStart (img : List Byte) : Nat := bAt img 20 4
def gramStackMax (img : List Byte) : Nat := bAt img 24 1

def up64' (n : Nat) : Nat := ceilDiv n 64 * 64

def gramStateAt (img : List Byte) : Nat := 256 + up64' (2 * gramEntries img)
def gramEdgeAt (img : List Byte) : Nat := gramStateAt img + up64' (8 * gramStates img)
/-- The image's exact size (R261). -/
def gramSize (img : List Byte) : Nat := gramEdgeAt img + 8 * gramEdges img
def gramPages (img : List Byte) : Nat := ceilDiv (gramSize img) 65536

def gramClass (img : List Byte) (t : Nat) : Nat := bAt img (256 + 2 * t) 2

/-- A state: first edge, edge count, flags. -/
structure GState where
  base  : Nat
  count : Nat
  flags : Nat
deriving DecidableEq, Repr

def gramState (img : List Byte) (q : Nat) : GState :=
  let a := gramStateAt img + 8 * q
  ⟨bAt img a 4, bAt img (a + 4) 2, bAt img (a + 6) 2⟩

structure GEdge where
  cls  : Nat
  op   : Nat
  sym  : Nat
  next : Nat
deriving DecidableEq, Repr

def gramEdge (img : List Byte) (i : Nat) : GEdge :=
  let a := gramEdgeAt img + 8 * i
  ⟨bAt img a 2, bAt img (a + 2) 1, bAt img (a + 3) 1, bAt img (a + 4) 4⟩

/-- The edges of a state. -/
def edgesOf (img : List Byte) (q : Nat) : List GEdge :=
  let x := gramState img q
  (List.range x.count).map fun i => gramEdge img (x.base + i)

def edgeOk (img : List Byte) (e : GEdge) : Bool :=
  e.op ≤ 2 && e.next < gramStates img && (if e.op = 0 then e.sym == 0 else 1 ≤ e.sym)

/-- Sorted by CLASS, then OP, then SYM; a class has one edge with OP 0 or 1, or pops with distinct SYM (R260). -/
def edgePairOk (a b : GEdge) : Bool :=
  if a.cls ≠ b.cls then a.cls < b.cls else a.op == 2 && b.op == 2 && a.sym < b.sym

def sortedBy {α : Type} (r : α → α → Bool) : List α → Bool
  | a :: b :: l => r a b && sortedBy r (b :: l)
  | _ => true

def stateOk (img : List Byte) (q : Nat) : Bool :=
  let x := gramState img q
  x.flags ≤ 1 && x.base + x.count ≤ gramEdges img && (edgesOf img q).all (edgeOk img) && sortedBy edgePairOk (edgesOf img q)

/-- A well-formed image for a vocabulary of `entries` tokens with digest `vd` (R259, R260). -/
def gramOk (img : List Byte) (entries : Nat) (vd : List Byte) : Bool :=
  256 ≤ img.length && bAt img 0 4 == 0x434C4154 && bAt img 4 4 == 1 && gramEntries img == entries && 1 ≤ gramStates img &&
  gramStates img ≤ 16777216 && gramEdges img ≤ 268435456 && gramStart img < gramStates img && 1 ≤ gramStackMax img &&
  gramStackMax img ≤ 64 && bAt img 25 7 == 0 && (img.drop 32).take 48 == vd && allZero ((img.drop 128).take 128) &&
  img.length == gramSize img && sha384 (img.drop 256) == (img.drop 80).take 48 && (List.range (gramStates img)).all (stateOk img)

/-! ### Positions and masks (R262-R264) -/

/-- An edge applies to a stack (R262). -/
def edgeApplies (img : List Byte) (st : List Nat) (e : GEdge) : Bool :=
  match e.op with
  | 0 => true
  | 1 => st.length < gramStackMax img
  | _ => st.head? == some e.sym

/-- The position a token leads to, if an edge applies (R262). -/
def gramStep (img : List Byte) (q : Nat) (st : List Nat) (t : Nat) : Option (Nat × List Nat) :=
  ((edgesOf img q).find? fun e => e.cls == gramClass img t && edgeApplies img st e).map fun e =>
    (e.next, match e.op with | 0 => st | 1 => e.sym :: st | _ => st.tail)

def accepts (img : List Byte) (q : Nat) (st : List Nat) : Bool := bit (gramState img q).flags 0 && st == []

/-- A final position with an empty stack. -/
def gramFinal (img : List Byte) (q : Nat) (st : List Nat) : Bool := accepts img q st && (gramState img q).count == 0

/-- What decides a generation's masks: the vocabulary's size, the grammar image (none without USE_GRAMMAR), allow-list, stops. -/
structure MaskCtx where
  entries : Nat
  gram    : Option (List Byte)
  allow   : List Nat
  stops   : List Nat

/-- Token `t` is admitted at a position (R262, R263). -/
def admitted (c : MaskCtx) (q : Nat) (st : List Nat) (t : Nat) : Bool :=
  (match c.gram with
   | some img => (gramStep img q st t).isSome || (accepts img q st && c.stops.contains t)
   | none => true) &&
  (c.allow == [] || c.allow.contains t || c.stops.contains t)

/-- The mask of a position (R263). -/
def maskAt (c : MaskCtx) (q : Nat) (st : List Nat) : List Nat := (List.range c.entries).filter (admitted c q st)

/-- The position after committing a token; a stop token leaves it (R262). -/
def gramNext (c : MaskCtx) (q : Nat) (st : List Nat) (t : Nat) : Nat × List Nat :=
  match c.gram with
  | none => (q, st)
  | some img => if c.stops.contains t then (q, st) else (gramStep img q st t).getD (q, st)

/-- A position is a dead end (R264). -/
def deadEnd (c : MaskCtx) (q : Nat) (st : List Nat) : Bool :=
  match c.gram with
  | none => false
  | some img => !gramFinal img q st && maskAt c q st == []

/-! ### Grammar slots (R261) -/

def gramOf (s : State) (p g : Nat) : ImgSlot := ngetD s.bt.gram (16 * p + g) img0
def putGram (p g : Nat) (x : ImgSlot) (s : State) : State := { s with bt.gram := nset s.bt.gram (16 * p + g) x }

/-- Pages per die that a partition's grammar slots use (CL_PART_GRAM_USED). -/
def gramUsed (s : State) (p : Nat) : Nat :=
  ((s.bt.gram.filter fun e => e.1 / 16 == p && e.2.st != .empty).map (·.2.pages)).foldl (· + ·) 0

/-- Dies that hold Cleat engines of the partition. -/
def cleatDies (s : State) (p : Nat) : List Nat := (List.range 4).filter fun d => !(textEngines s p 0xA d).isEmpty

/-- What a Cleat or Bight command meets first: its ring, its OP, the DRAIN bit that refuses it (R587). -/
def btEntry (op ring : Nat) (d : BitVec 512) (drain : Bool) (f : Nat → State → State) (s : State) : State :=
  match ringPart s ring with
  | none => finish ring d stRefusedCapacity hintNever s
  | some p =>
    if dOp d ≠ op then hbad ring d 0 s
    else if drain then finish ring d stRefusedCapacity hintNever s
    else f p s

/-- GRAM_LOAD (R255, R261). -/
def gramLoadOp (ring : Nat) (d : BitVec 512) (s : State) : State :=
  btEntry 0x53 ring d (bit (rg s .CL_CTL) 0) (fun p s =>
    let g := fld d 17 1
    let tier := fld d 18 1
    let v := fld d 19 1
    let len := fld d 32 8
    let a := if tier = 4 then 2 ^ 63 + fld d 24 8 % 2 ^ 63 else fld d 24 8
    if !(g < 16 && (tier == 1 || tier == 4) && v < 16 && fld d 20 4 == 0 && fld d 40 24 == 0 && (vocBound s p v).isSome) then
      hbad ring d 0 s
    else if (gramOf s p g).st ≠ .empty then imgRefuse ring d (gramOf s p g).st s
    else if (vocOf s v).st ≠ .ready then imgRefuse ring d (vocOf s v).st s
    else
      let q := spliceReqOf s p
      let c := inCheck s q a (min len (2 ^ 40))
      if c.st ≠ 0 then finish ring d c.st c.det (ctr .CL_LOAD_FAIL_CNT p (inFail q a c s))
      else if len < 256 then hbad ring d 0 (ctr .CL_LOAD_FAIL_CNT p s)
      else
        let need := gramPages (rdBytes s a 256)
        let room := (match partPlan s p with | some pl => pl.gramCeil | none => 0) - gramUsed s p
        if room < need then finish ring d stRefusedLoad (detLoad 3 false (need - room)) (ctr .CL_LOAD_FAIL_CNT p s)
        else
          let img := rdBytes s a len
          let x : ImgSlot := { img0 with st := .loading, pages := need, len := len, owner := p, cmd := some (ring, d),
                                         entries := bAt img 8 4, digest := (img.drop 80).take 48, vocab := v }
          let x := if need * 65536 < len then { x with failed := true } else x
          let r := copyImage p need (img.take (need * 65536)) x (cleatDies s p) s
          putGram p g r.1 r.2) s

/-- Every copy of a grammar slot is well formed (R259-R261). -/
def gramCopiesOk (s : State) (x : ImgSlot) : Bool :=
  let v := vocOf s x.vocab
  !x.failed && x.copies.all fun c => !copyPoison s x c.1 && gramOk (copyBytes s x c.1) v.entries v.digest

/-- VOCAB_LOAD_DONE for a grammar slot: no measurement is recorded (R261). -/
def gramDone (p g : Nat) (s : State) : State :=
  let x := gramOf s p g
  match x.st, x.cmd with
  | .loading, some (ring, d) =>
    if gramCopiesOk s x then finish ring d stDone 0 (ctr .CL_LOAD_CNT p (putGram p g { x with st := .ready, cmd := none } s))
    else finish ring d stFaultContext 0 (ctr .CL_LOAD_FAIL_CNT p (putGram p g img0 (dropCopies x s)))
  | _, _ => s

/-- Open generations that name a grammar slot. -/
def gramGens (s : State) (p g : Nat) : Nat :=
  (s.bt.gens.filter fun e => e.2.part == p && gUsesGram e.2 && gGram e.2 == g).length

/-- The last open generation naming a draining grammar slot has ended (R261). -/
def gramDrained (p g : Nat) (s : State) : State :=
  let x := gramOf s p g
  match x.st, x.cmd with
  | .draining, some (ring, d) =>
    if gramGens s p g ≠ 0 then s else finish ring d stDone 0 (putGram p g img0 (dropCopies x s))
  | _, _ => s

/-- GRAM_UNLOAD. -/
def gramUnloadOp (ring : Nat) (d : BitVec 512) (s : State) : State :=
  btEntry 0x54 ring d false (fun p s =>
    let g := fld d 17 1
    if !(g < 16 && fld d 18 46 == 0) then hbad ring d 0 s
    else if (gramOf s p g).st ≠ .ready then imgRefuse ring d (gramOf s p g).st s
    else gramDrained p g (putGram p g { gramOf s p g with st := .draining, cmd := some (ring, d) } s)) s

/-- SLOT_VERIFY_DONE for a grammar slot (R235, R261). -/
def gramVerify (p g : Nat) (s : State) : State :=
  let x := gramOf s p g
  if x.st ≠ .verifying then s
  else if gramCopiesOk s x then putGram p g { x with st := .ready } s
  else putGram p g img0 (dropCopies x (evt Ev.VOCAB_LOST (unitReq 0x40 p) (256 + 16 * p + g) s))

/-- Every draining slot that nothing names any longer goes EMPTY (R235, R261): grammars first, as a vocabulary waits for them. -/
def settleImages (s : State) : State :=
  let s := (s.bt.gram.filter fun e => e.2.st == .draining).foldl (fun s e => gramDrained (e.1 / 16) (e.1 % 16) s) s
  (s.wh.voc.filter fun e => e.2.st == .draining).foldl (fun s e => vocDrained e.1 s) s

end Sys2Proof.Machine
end

