-- ==== Sys2Proof/Machine/Draw.lean ====
section
/-! DEFINITION. Bight's arithmetic (R265-R273): logits, penalties, weights, truncation, the draw, LOGP2, the generator. FP32
values are bit patterns; the only infinity that occurs is -infinity. -/

namespace Sys2Proof.Machine

def f32NegInf : Nat := 0xFF800000

/-- A logit as Bight reads it, and whether it was not finite in the sense of R265. -/
def cleanLogit (b : Nat) : Nat × Bool :=
  if f32IsNan b then (f32NegInf, true) else if b = f32Inf then (f32Max, true) else (b, false)

/-- a < b, with -infinity least. -/
def flt (a b : Nat) : Bool := if b = f32NegInf then false else if a = f32NegInf then true else f32Lt a b

def f32OfNat (n : Nat) : Nat := f32Sat ⟨n, 0, false⟩

/-- The penalties of a token whose count is not 0 (R266). -/
def penalise (rep pres freq : Nat) (c z : Nat) : Nat :=
  if z = f32NegInf then z
  else
    let z := if rep = 0x3F800000 then z else if flt 0 z then f32Div z rep else f32Mul z rep
    let z := f32Sub z (f32Mul freq (f32OfNat c))
    f32Sub z pres

/-- Insertion by an order. -/
def insertBy {α : Type} (lt : α → α → Bool) (x : α) : List α → List α
  | [] => [x]
  | y :: r => if lt x y then x :: y :: r else y :: insertBy lt x r

def sortBy {α : Type} (lt : α → α → Bool) (l : List α) : List α := l.foldl (fun r x => insertBy lt x r) []

/-- Rank order: tempered logit descending, then ID ascending. -/
def rankLt (a b : Nat × Nat) : Bool := flt b.2 a.2 || (!flt a.2 b.2 && a.1 < b.1)

/-- The greatest of a list of tempered logits. -/
def maxZ (l : List (Nat × Nat)) : Nat := l.foldl (fun m e => if flt m e.2 then e.2 else m) f32NegInf

/-- Tempered logits (R267). -/
def temper (inv : Nat) (l : List (Nat × Nat)) : List (Nat × Nat) :=
  l.map fun e => (e.1, if e.2 = f32NegInf then e.2 else f32Mul e.2 inv)

/-- Weights of tempered logits, by token (R267). -/
def weights (l : List (Nat × Nat)) : List (Nat × Nat) :=
  let m := maxZ l
  l.map fun e =>
    (e.1, if e.2 = f32NegInf then 0 else exp2Cr (f32Val (f32Mul (f32Sub e.2 m) 0x3FB8AA3B)))

/-- sum16 of weights by token ID (R190, R268). -/
def sumW (l : List (Nat × Nat)) : Nat := sum16 (l.map fun e => (e.1, f32Val e.2))

/-- The tokens kept by TOP_P: those up to and including the first at which the running sum reaches `thr`. -/
def topPWalk (thr : Nat) : Nat → List (Nat × Nat) → Option (List (Nat × Nat))
  | _, [] => none
  | a, e :: r =>
    let a := f32Add a e.2
    if !f32Lt a thr then some [e] else (topPWalk thr a r).map (e :: ·)

/-- Truncation (R268): tokens and weights in rank order in, tokens kept out. -/
def truncate (topK topP minP : Nat) (ranked : List (Nat × Nat)) : List (Nat × Nat) :=
  let f := ranked.filter fun e => e.2 % 2 ^ 31 != 0
  let f := if topK = 0 then f else f.take topK
  let f := f.filter fun e => !f32Lt e.2 minP
  if f32Lt topP 0x3F800000 then (topPWalk (f32Mul topP (sumW f)) 0 f).getD f else f

/-- The walk of R269 in ascending ID. -/
def drawWalk (rr : Nat) : Nat → List (Nat × Nat) → Option Nat
  | _, [] => none
  | a, e :: r =>
    let a := f32Add a e.2
    if f32Lt rr a then some e.1 else drawWalk rr a r

/-- The token drawn from F with generator word `g` (R269). -/
def drawFrom (g : Nat) (f : List (Nat × Nat)) : Nat :=
  let asc := sortBy (fun a b => a.1 < b.1) f
  let rr := f32Mul (f32Sat ⟨g / 256, -24, false⟩) (sumW f)
  (drawWalk rr 0 asc).getD ((asc.getLast?.map (·.1)).getD 0)

/-- One round of the generator, n more to go (R272). -/
def genRounds : Nat → Nat → Nat → Nat → Nat → Nat → Nat → Nat
  | 0, _, _, c0, _, _, _ => c0
  | n + 1, k0, k1, c0, c1, c2, c3 =>
    let p0 := 0xD2511F53 * c0
    let p1 := 0xCD9E8D57 * c2
    genRounds n ((k0 + 0x9E3779B9) % 2 ^ 32) ((k1 + 0xBB67AE85) % 2 ^ 32)
      ((p1 / 2 ^ 32) ^^^ c1 ^^^ k0) (p1 % 2 ^ 32) ((p0 / 2 ^ 32) ^^^ c3 ^^^ k1) (p0 % 2 ^ 32)

/-- The counter-based generator (R272). -/
def genWord (seed pos purpose : Nat) : Nat := genRounds 10 (seed % 2 ^ 32) (seed / 2 ^ 32) (pos % 2 ^ 32) 0 purpose 0

/-- What a generation's sampling record sets for every draw (R256). -/
structure DrawCfg where
  seed : Nat
  inv  : Nat
  topK : Nat
  topP : Nat
  minP : Nat
  rep  : Nat
  pres : Nat
  freq : Nat
  logp : Bool
deriving DecidableEq, Repr

/-- LOGP2 of a token over all admitted ones (R271). -/
def logp2 (c : DrawCfg) (z : List (Nat × Nat)) (y : Nat) : Nat :=
  let w := weights (temper (if c.inv % 2 ^ 31 = 0 then 0x3F800000 else c.inv) z)
  let wy := ((w.find? fun e => e.1 == y).map (·.2)).getD 0
  let r := f32Div wy (sumW w)
  if r % 2 ^ 31 = 0 then f32NegInf else log2Cr (f32Val r)

/-- One draw (R265-R271): `z` are the admitted tokens' logits with penalties applied, `pos` the position drawn. None where it
is degenerate. -/
def drawToken (c : DrawCfg) (pos : Nat) (z : List (Nat × Nat)) : Option (Nat × Nat) :=
  if maxZ z = f32NegInf then none
  else
    let greedy := c.inv % 2 ^ 31 = 0
    let zt := if greedy then z else temper c.inv z
    let ranked := sortBy rankLt zt
    let y :=
      if greedy then (ranked.head?.map (·.1)).getD 0
      else
        let w := weights zt
        drawFrom (genWord c.seed pos 1)
          (truncate c.topK c.topP c.minP (ranked.map fun e => (e.1, ((w.find? fun x => x.1 == e.1).map (·.2)).getD 0)))
    some (y, if c.logp then logp2 c z y else 0)

end Sys2Proof.Machine
end

