-- ==== Sys2Proof/Machine/Attn.lean ====
section
/-! DEFINITION. The pinned arithmetic of decode attention (R189-R198, R215): scores, unit folds, lanes, residues, the final
combine and the output. Each rounding answers its value with the number of saturations met (R191). -/

namespace Sys2Proof.Machine

/-- A rounding to FP32 with the count of R191. -/
def rsat (a : Dy) : Nat × Nat := (f32Sat a, b2n (f32Over a))

def addC (a b : Nat) : Nat × Nat := rsat (dyAdd (f32Val a) (f32Val b))
def mulC (a b : Nat) : Nat × Nat := rsat (dyMul (f32Val a) (f32Val b))
def subC (a b : Nat) : Nat × Nat := rsat (dyAdd (f32Val a) (dyNeg (f32Val b)))

/-- sum16 (R190) over members with indices below 256, with the count. -/
def sum16C (l : List (Nat × Dy)) : Nat × Nat :=
  ((List.range 16).map fun j => rsat ((l.filter fun e => e.1 / 16 == j).foldl (fun s e => dyAdd s e.2) dy0)).foldl
    (fun a g => let r := addC a.1 g.1; (r.1, a.2 + g.2 + r.2)) (0, 0)

/-- The score of one query vector against one key (R191). -/
def score (q k : List Dy) (scale : Nat) : Nat × Nat :=
  let d := sum16C (enum0 ((q.zip k).map fun e => dyMul e.1 e.2))
  let r := mulC d.1 scale
  (r.1, d.2 + r.2)

/-- One visible position of a unit: its index there, its score, the tokens it stands for (R198), its value vector. -/
structure Seen where
  i : Nat
  s : Nat
  w : Nat
  v : List Dy

def lst0 : LSt := ⟨none, 0, []⟩

/-- The larger of two FP32 values. -/
def f32Max2 (a b : Nat) : Nat := if f32Lt a b then b else a

/-- Folding a unit into a lane (R194, R198); a unit with nothing visible changes nothing. -/
def foldUnit (hd : Nat) (a : LSt) (ps : List Seen) : LSt × Nat :=
  match ps with
  | [] => (a, 0)
  | p :: r =>
    let mu := r.foldl (fun m x => f32Max2 m x.s) p.s
    let mn := match a.m with | none => mu | some m => f32Max2 m mu
    let da := match a.m with | none => (0, 0) | some m => subC m mn
    let al := if a.m.isNone then 0 else exp2Cr (f32Val da.1)
    let ph := ps.map fun x =>
      let d := subC x.s mn
      (x, f8Val (f8Of (dyMul (f32Val (exp2Cr (f32Val d.1))) ⟨1, 8, false⟩)), d.2)
    let wt (e : Seen × Dy × Nat) : Dy := dyMul ⟨e.1.w, 0, false⟩ e.2.1
    let lu := sum16C (ph.map fun e => (e.1.i, wt e))
    let l1 := mulC a.l al
    let l2 := addC l1.1 lu.1
    let os := (List.range hd).map fun i =>
      let ou := sum16C (ph.map fun e => (e.1.i, dyMul (wt e) (e.1.v.getD i dy0)))
      let o1 := mulC (a.o.getD i 0) al
      let o2 := addC o1.1 ou.1
      (o2.1, ou.2 + o1.2 + o2.2)
    (⟨some mn, l2.1, os.map (·.1)⟩,
     da.2 + (ph.map fun e => e.2.2).foldl (· + ·) 0 + lu.2 + l1.2 + l2.2 + (os.map (·.2)).foldl (· + ·) 0)

/-- Combining state `b` after state `a` (R195). -/
def combine (hd : Nat) (a b : LSt) : LSt × Nat :=
  match a.m, b.m with
  | none, _ => (b, 0)
  | _, none => (a, 0)
  | some ma, some mb =>
    let mn := f32Max2 ma mb
    let da := subC ma mn
    let db := subC mb mn
    let aa := exp2Cr (f32Val da.1)
    let ab := exp2Cr (f32Val db.1)
    let mix (x y : Nat) : Nat × Nat :=
      let p := mulC x aa
      let q := mulC y ab
      let r := addC p.1 q.1
      (r.1, p.2 + q.2 + r.2)
    let l := mix a.l b.l
    let os := (List.range hd).map fun i => mix (a.o.getD i 0) (b.o.getD i 0)
    (⟨some mn, l.1, os.map (·.1)⟩, da.2 + db.2 + l.2 + (os.map (·.2)).foldl (· + ·) 0)

/-- Folds states from the empty one, in order. -/
def combineAll (hd : Nat) (l : List (LSt × Nat)) : LSt × Nat :=
  l.foldl (fun a x => let r := combine hd a.1 x.1; (r.1, a.2 + x.2 + r.2)) (lst0, 0)

/-- The three stages of R193 over the given units (ascending), each by its visible positions. -/
def stages (hd : Nat) (units : List Nat) (seen : Nat → List Seen) : LSt × Nat :=
  let lane (k : Nat) : LSt × Nat :=
    (units.filter fun u => u % 64 == k).foldl (fun a u => let r := foldUnit hd a.1 (seen u); (r.1, a.2 + r.2)) (lst0, 0)
  combineAll hd ((List.range 8).map fun r => combineAll hd ((List.range 8).map fun j => lane (r + 8 * j)))

/-- The output elements of one row and query head (R196): OFMT 0 BF16, 1 FP32. -/
def outBytes (hd ofmt : Nat) (a : LSt) : List Byte :=
  ((List.range hd).map fun i =>
    let v := f32Div (a.o.getD i 0) a.l
    if ofmt = 0 then leBytes 2 (bf16Of (f32Val v)) else leBytes 4 v).flatten

/-- Nodes 2j and 2j + 1 of a level combined (R215). -/
def pairUp (hd : Nat) : List (LSt × Nat) → List (LSt × Nat)
  | a :: b :: r => (let c := combine hd a.1 b.1; (c.1, a.2 + b.2 + c.2)) :: pairUp hd r
  | l => l

/-- The shard tree of R215 over a list of shard states. -/
def shardTree (hd : Nat) : Nat → List (LSt × Nat) → LSt × Nat
  | _, [] => (lst0, 0)
  | _, [a] => a
  | 0, a :: _ => a
  | n + 1, l => shardTree hd n (pairUp hd l)

/-- Depth of a staged row (R187): parents by staging index, 0xFFFF for the last committed token. -/
def rowDepth (par : List Nat) : Nat → Nat → Nat
  | 0, _ => 0
  | fuel + 1, i =>
    let p := par.getD i 0xFFFF
    if p = 0xFFFF then 0 else rowDepth par fuel p + 1

/-- Ancestors of a row and itself, nearest the root first, as staging indices. -/
def rowPath (par : List Nat) : Nat → Nat → List Nat
  | 0, i => [i]
  | fuel + 1, i =>
    let p := par.getD i 0xFFFF
    (if p = 0xFFFF then [] else rowPath par fuel p) ++ [i]

end Sys2Proof.Machine
end

