-- ==== Sys2Proof/Machine/GenState.lean ====
section
/-! DEFINITION. The open generation of a session, and what a request that needs one meets without it (R254, R282). -/

namespace Sys2Proof.Machine

def genOf (s : State) (n : Nat) : Option Gen := nget s.bt.gens n
def putGen (n : Nat) (g : Gen) (s : State) : State := { s with bt.gens := nset s.bt.gens n g }

/-- The session has an open generation (R254): one that has not ended. -/
def genOpenNow (s : State) (n : Nat) : Bool := match genOf s n with | some g => g.endSt.isNone | none => false

/-- What a VERIFY request, a SAMPLE or a draft meets where no generation is open (R282). -/
def noGenStatus (s : State) (n h : Nat) : Nat :=
  let byCancel := match genOf s n with
    | some g => g.endSt == some (stCancelledBefore, 0) || g.endSt == some (stCancelledAfter, 0)
    | none => s.bt.lastCancel.contains h
  if byCancel then stCancelledBefore else stFaultContext

/-- The session's step fails (R83): it ends at its STEP_END. -/
def failStep (n : Nat) (s : State) : State :=
  let x := slotOf s n
  match x.step with
  | some st => putSlot n { x with step := some { st with failed := true } } s
  | none => s

/-- The flag of a SAMPLE whose step a draft left without candidates (R312). -/
def noSpecFlag (s : State) (n serial : Nat) : Nat := flIf (s.ad.noSpec.contains (n, serial)) flNoSpec

end Sys2Proof.Machine
end

