-- ==== Sys2Proof/Machine/HarahOps.lean ====
section
/-! DEFINITION. Harah's shared operations (chapter 15): links and their packets (R428-R433), routes (R443, R444), requests
and responses (R437-R439, R446-R452). -/

namespace Sys2Proof.Machine

/-! ### Links -/

def link0 : HLink :=
  { st := .disabled, width := 0, lanes := 0, good := 0, border := false, fenced := false, epoch := 0, peer := 0, peerQuad := 0,
    peerUid := 0, txSeq := 0, rxSeq := 0, naking := false, unacked := [], wait := [], credit := [], tx := 0, rx := 0,
    replayed := 0, runs := 0, since := 0, ackAt := 0, owed := false, owedAt := 0, nakAt := 0, ctlAt := 0, ownReq := none, again := none, want := none, ctl := [],
    rtt := 0 }

def linkOf (s : State) (q : Nat) : HLink := ngetD s.hf.links q link0

def putLink (q : Nat) (l : HLink) (s : State) : State := { s with hf.links := nset s.hf.links q l }

/-- The quad is laid as Harah (R368, R427). -/
def isHarah (s : State) (q : Nat) : Bool := s.lay.laid && (nget s.lay.img.quads q) == some QuadRole.harah

def linkReq (q : Nat) : Req := unitReq (BitVec.ofNat 8 (0x92 + q)) 16

/-- Slots that fit one link packet (R428). -/
def pktSlots : Nat := 15

/-- The state in which data packets leave (R431). -/
def linkSends (l : HLink) : Bool := l.st == .up || l.st == .draining

/-- A draining link sends what was queued before the drain (R431). -/
def mayGo (l : HLink) (p : HPkt) : Bool := linkSends l && (l.st == .up || p.since ≤ l.since)

/-- Sends the waiting packets of a link in order, while the window (R429) and the credits (R435) allow; a transaction packet
may span link packets. Every header carries ACK. -/
def flushFuel : Nat → HLink → HLink
  | 0, l => l
  | n + 1, l =>
    match l.wait with
    | [] => l
    | p :: r =>
      let k := min p.n (min (2047 - l.unacked.length) (ngetD l.credit p.vc 0 / pktSlots))
      if mayGo l p ∧ 0 < k then
        let l := { l with wait := if k = p.n then r else { p with n := p.n - k } :: r,
                          unacked := l.unacked ++ List.replicate k { p with n := 1 }, txSeq := (l.txSeq + k) % 4096,
                          tx := l.tx + k, credit := nmod l.credit p.vc 0 (· - k * pktSlots), owed := false }
        if k = p.n then flushFuel n l else l
      else l

/-- Data packets leave; a draining link with nothing left goes DISABLED and sets its ENABLE to 0 (R387, R431). -/
def linkFlush (q : Nat) (s : State) : State :=
  let l := linkOf s q
  let l := flushFuel l.wait.length l
  if l.st = .draining ∧ l.unacked = [] ∧ (l.wait.any (mayGo l)) = false then
    regSetBit .HF_LK_CTL q 0 false (putLink q { l with st := .disabled, since := now s } s)
  else putLink q l s

/-- Queues a transaction of `slots` slots to device `dst` on a link. -/
def linkSend (q vc slots dst : Nat) (tag : Option Nat) (s : State) : State :=
  let l := linkOf s q
  linkFlush q (putLink q { l with wait := l.wait ++ [⟨vc, ceilDiv slots pktSlots, tag, now s, dst⟩] } s)

/-- Sends a control message over a link and keeps it for repetition until answered (R428). -/
def ctlSend (q : Nat) (k : Mk) (args : List Nat) (s : State) : State :=
  let l := linkOf s q
  let m : Msg := ⟨k, args, []⟩
  putLink q { l with ctl := (l.ctl.filter fun x => x.kind != k) ++ [m], ctlAt := now s } { s with tx := s.tx ++ [m] }

/-- A control message has been answered. -/
def ctlDone (q : Nat) (k : Mk) (s : State) : State :=
  putLink q { linkOf s q with ctl := (linkOf s q).ctl.filter fun m => m.kind != k } s

/-- Sends ACK, or NAK from ACK + 1, for what was accepted. -/
def sendAck (q : Nat) (nak : Bool) (s : State) : State :=
  let l := linkOf s q
  putLink q { l with owed := false, nakAt := if nak then now s else l.nakAt } (send Mk.harahAck [q, (l.rxSeq + 4095) % 4096, b2n nak] [] s)

/-- This device's identity in a control message: its ID, where it has one, and its unique ID (R434). -/
def ctlId (s : State) : List Nat := [b2n s.hf.idValid, s.hf.devId, Config.uid.toNat]

/-- The link goes to RETRAINING; sequence state and replay buffer are kept (R431). An own width request gives way (R434). -/
def linkRetrain (q : Nat) (s : State) : State :=
  let l := linkOf s q
  if l.st = .up ∨ l.st = .widthChange then
    ctlSend q Mk.harahRetrainReq (q :: ctlId s)
      (putLink q { l with st := .retraining, since := now s, ownReq := some 1, want := none, runs := 0,
                          ctl := l.ctl.filter fun m => m.kind != Mk.harahWidthReq } s)
  else s

/-- Every unacknowledged packet is sent again in order from ACK + 1, and counted (R430). -/
def replayAll (q : Nat) (s : State) : State :=
  let l := linkOf s q
  if l.unacked = [] then s
  else putLink q { l with replayed := l.replayed + l.unacked.length, ackAt := now s, owed := false }
    (send Mk.harahReplay [q, (l.txSeq + 4096 - l.unacked.length) % 4096, l.unacked.length] [] s)

/-- A replay on NAK or timeout; HF_REPLAY_LIMIT of them in a row without ACK advancing retrain the link (R430). -/
def linkReplay (q : Nat) (s : State) : State :=
  if (linkOf s q).unacked = [] then s
  else
    let s := replayAll q s
    let l := linkOf s q
    let s := putLink q { l with runs := l.runs + 1 } s
    if max 1 (rg s .HF_REPLAY_LIMIT) ≤ l.runs + 1 then linkRetrain q s else s

/-- ACK advances to `ack` (R429): packets up to it leave the replay buffer. -/
def linkAck (q ack : Nat) (s : State) : State :=
  let l := linkOf s q
  let base := (l.txSeq + 4096 - l.unacked.length) % 4096
  let k := (ack + 1 + 4096 - base) % 4096
  if 0 < k ∧ k ≤ l.unacked.length then
    linkFlush q (putLink q { l with unacked := l.unacked.drop k, ackAt := now s, runs := 0 } s)
  else s

/-! ### Routes -/

/-- The route entry for a destination (R443). -/
def routeOf (s : State) (d : Nat) : Nat := ngetD s.hf.routes d 0x000F
def escQuad (s : State) (d : Nat) : Nat := bits (routeOf s d) 3 0
/-- The adaptive quads whose links are UP (R444). -/
def adaptQuads (s : State) (d : Nat) : List Nat :=
  (List.range 12).filter fun q => bit (bits (routeOf s d) 15 4) q && (linkOf s q).st == .up

def routeWithdrawn (s : State) (d : Nat) : Bool := routeOf s d == 0x000F

/-- The quad with the most free credits, the lower at a tie (R444). -/
def mostCredit (s : State) (vc : Nat) : List Nat → Option Nat
  | [] => none
  | q :: r => match mostCredit s vc r with
    | none => some q
    | some b => if ngetD (linkOf s b).credit vc 0 ≤ ngetD (linkOf s q).credit vc 0 then some q else some b

/-- A member of its span: LOCKED with a valid ID (R456). -/
def hfMember (s : State) : Bool := s.hf.time.locked && s.hf.idValid

/-- TYPE values of R437. -/
def tyRead : Nat := 1
def tyStore : Nat := 2
def tyAtomic : Nat := 3
def tyRing : Nat := 4
def tyMsg : Nat := 5

/-- Types that keep order (R450). -/
def ordered (ty : Nat) : Bool := ty == 2 || ty == 3 || ty == 5

/-- The egress and virtual channel of a request (R435, R444, R458). -/
def egress (s : State) (ty d tag : Nat) : Nat × Nat :=
  let e := escQuad s d
  if ty = 1 then match mostCredit s 1 (adaptQuads s d) with | some q => (q, 1) | none => (e, 0)
  else if ty = 4 then
    let qs := adaptQuads s d
    let qs := if qs.contains e then qs else e :: qs
    (qs.getD (tag % qs.length) e, 4)
  else (e, 0)

/-- Requests a transfer of `len` bytes takes (R439). -/
def hfCuts (ty len : Nat) : Nat := if ty = 3 ∨ ty = 5 then 1 else max 1 (ceilDiv len 4096)

/-- Slots of a request's packets: header and birth slot each, and the data a TYPE carries (R437). -/
def hfSlots (ty len : Nat) : Nat :=
  2 * hfCuts ty len + (if ty = 1 then 0 else if ty = 3 then 1 else ceilDiv len 16)

/-- Puts a request on its link. -/
def hfLaunch (r : HfReq) (s : State) : State :=
  let e := egress s r.ty r.dst r.tag
  let s := { s with hf.reqs := s.hf.reqs ++ [{ r with quad := e.1, held := false, data := [] }] }
  let m : Msg := ⟨Mk.harahReq, [r.ty, r.part, r.aop, r.dst, r.off, r.len, r.tag, (r.birth / 1024) % 65536], r.data⟩
  linkSend e.1 e.2 (hfSlots r.ty r.len) r.dst (some r.tag) { s with tx := s.tx ++ [m] }

/-- Counts requests issued (R461). -/
def hfCount (ty p len : Nat) (s : State) : State :=
  match ty with
  | 1 => ctrAdd .HF_RD_BYTES 0 p len (ctrAdd .HF_RD_CNT 0 p (hfCuts ty len) s)
  | 2 => ctrAdd .HF_ST_BYTES 0 p len (ctrAdd .HF_ST_CNT 0 p (hfCuts ty len) s)
  | 3 => ctr .HF_AT_CNT p s
  | 5 => ctr .HF_MSG_CNT p s
  | _ => s

/-- Issues a request to another device; none when it is unreachable or this device is not a member (R443, R456). An ordered
request to a destination whose route is changing is held (R444). One to this device itself uses no link (R446). -/
def hfIssue (ty dst p off len aop : Nat) (data : List Byte) (what : HfWhat) (s : State) : Option State :=
  let r : HfReq := ⟨s.hf.tagNext, dst, ty, p, now s, 0xF, off, len, what, false, aop, data⟩
  let s := { s with hf.tagNext := (s.hf.tagNext + 1) % 65536 }
  if s.hf.idValid ∧ dst = s.hf.devId then
    some (send Mk.localReq [ty, p, aop, dst, off, len, r.tag] data { s with hf.reqs := s.hf.reqs ++ [{ r with data := [] }] })
  else if escQuad s dst = 0xF ∨ !hfMember s then none
  else
    let s := hfCount ty p len s
    if s.hf.holdDst.contains dst ∧ ordered ty then
      some (ctr .HF_ROUTE_HOLD_CNT p { s with hf.reqs := s.hf.reqs ++ [{ r with held := true }] })
    else some (hfLaunch r s)

/-- Answers a request (R438): status, DETAIL and data to the originator, under the request's tag. -/
def hfRespond (ty dst tag st det : Nat) (data : List Byte) (s : State) : State :=
  let s := send Mk.harahRsp [ty, st, dst, det, tag] data s
  match mostCredit s 3 (adaptQuads s dst) with
  | some q => linkSend q 3 (2 + ceilDiv data.length 16) dst none s
  | none => if escQuad s dst = 0xF then s else linkSend (escQuad s dst) 2 (2 + ceilDiv data.length 16) dst none s

/-- The request with a tag. -/
def reqOf (s : State) (tag : Nat) : Option HfReq := s.hf.reqs.find? fun r => r.tag == tag

def dropReq (tag : Nat) (s : State) : State := { s with hf.reqs := s.hf.reqs.filter fun r => r.tag != tag }

/-- The timeout in force, in nanoseconds (R452). -/
def e2eNs (s : State) : Nat := max (1000 * rg s .HF_E2E_TMO) (2 * 1024 * rg s .HF_LIFE_US + 100000)

/-- The end-to-end failure: TARGET_RESET with target 384 and epoch 0 (R452). -/
def e2eVerdict : Verdict := ⟨stTargetReset, 384⟩

/-! ### Remote-access mailboxes (R461) -/

def boxOf (s : State) (p : Nat) : HfBox := ngetD s.hf.box p ⟨false, 0, 0, none⟩

/-- The mailbox's request ends. -/
def boxDone (p st res : Nat) (s : State) : State :=
  { s with hf.box := nset s.hf.box p { boxOf s p with busy := false, status := st, result := res, fence := none } }

/-- FENCEs complete once every store and atomic that was outstanding to their destination when they were issued has been
acknowledged (R451). -/
def fencesDone (s : State) : State :=
  { s with hf.box := s.hf.box.map fun e =>
      match e.2.fence with
      | some tags =>
        if s.hf.reqs.any fun r => tags.contains r.tag then e
        else (e.1, { e.2 with busy := false, status := stDone, fence := none })
      | none => e }

/-- The stores and atomics outstanding to a destination, by tag. -/
def storesTo (s : State) (d : Nat) : List Nat :=
  (s.hf.reqs.filter fun r => r.dst == d && (r.ty == 2 || r.ty == 3)).map (·.tag)

end Sys2Proof.Machine
end

