-- ==== Sys2Proof/Machine/Prefix.lean ====
section
/-! DEFINITION. The prefix tree (R167-R180): keys and verification, LOOKUP, PUBLISH, DROP, eviction of nodes, re-keying. -/

namespace Sys2Proof.Machine

/-- Fields of a prefix command (R172). -/
def xGroup (d : BitVec 512) : Nat := fld d 17 1 % 64
def xAccount (d : BitVec 512) : Nat := fld d 20 2
def xTarget (d : BitVec 512) : Nat := fld d 24 8
def xTokens (d : BitVec 512) : Nat := fld d 32 8
def xCount (d : BitVec 512) : Nat := fld d 40 4
def xContext (d : BitVec 512) : Nat := fld d 48 8
def xResult (d : BitVec 512) : Nat := fld d 56 8

/-- Reserved bytes 18-19, 22-23, 44-47 and the two top bits of byte 17 are 0 (R172). -/
def xClean (d : BitVec 512) : Bool := fld d 17 1 < 64 && fld d 18 2 == 0 && fld d 22 2 == 0 && fld d 44 4 == 0

/-- The 128 token IDs of chunk i at T1 offset a. -/
def chunkToks (s : State) (a i : Nat) : List Nat := (List.range 128).map fun k => rdNat s (a + 512 * i + 4 * k) 4

def groupKey (s : State) (p g : Nat) : Nat := ngetD s.pfx.keys (64 * p + g) 0

/-- The key of a chunk (R169): the first 16 bytes of HMAC-SHA-256. -/
def chunkKey (s : State) (p g prev ctx : Nat) (toks : List Nat) : Nat :=
  leNat ((hmac256 (leBytes 32 (groupKey s p g)) (leBytes 16 prev ++ leBytes 8 ctx ++ (toks.map (leBytes 4)).flatten)).take 16)

/-- Nodes of a partition with a key: the candidates, by index (R170). -/
def candidates (s : State) (p hash : Nat) : List (Nat × Node) :=
  (s.pfx.nodes.filter fun e => e.1 / 2 ^ 24 == p && e.2.hash == hash).map fun e => (e.1 % 2 ^ 24, e.2)

/-- A candidate's token IDs, PARENT, CONTEXT and GROUP are the command's (R170). -/
def sameNode (toks : List Nat) (parent ctx g : Nat) (nd : Node) : Bool :=
  nd.toks == toks && nd.parent == parent && nd.ctx == ctx && nd.group == g

/-- Tries candidates: the first verified one that `want` accepts; collisions are logged (R170). -/
def verify (p : Nat) (toks : List Nat) (parent ctx g : Nat) (want : Node → Bool) :
    List (Nat × Node) → State → Option (Nat × Node) × State
  | [], s => (none, s)
  | e :: r, s =>
    if sameNode toks parent ctx g e.2 then
      if !e.2.doomed ∧ want e.2 then (some e, s) else verify p toks parent ctx g want r s
    else verify p toks parent ctx g want r (evt Ev.PREFIX_HASH_COLLISION (hitchReq s p) (nodeId p e.1 e.2) (ctr .HT_PFX_COLLISION_CNT p s))

/-- The longest verified path over at most `n` chunks (R173). -/
def longestPath (p g ctx a : Nat) : Nat → Nat → Nat → Nat → State → List (Nat × Node) × State
  | 0, _, _, _, s => ([], s)
  | n + 1, i, prev, parent, s =>
    let toks := chunkToks s a i
    let h := chunkKey s p g prev ctx toks
    match verify p toks parent ctx g (fun _ => true) (candidates s p h) s with
    | (some e, s) =>
      let t := longestPath p g ctx a n (i + 1) h (nodeId p e.1 e.2) s
      (e :: t.1, t.2)
    | (none, s) => ([], s)

/-- The 64-byte result (R172). -/
def pfxResult (node len adopted inserted : Nat) : List Byte :=
  leBytes 8 node ++ leBytes 4 len ++ leBytes 4 adopted ++ leBytes 4 inserted ++ leBytes 44 0

/-- Partition p's tree is enabled (HT_PFX_CFG). -/
def pfxOn (s : State) (p : Nat) : Bool := bit (rg s .HT_PFX_CFG p) 0

/-- Writes the result after its access check, then completes. -/
def pfxDone (ring : Nat) (d : BitVec 512) (p fl hdl : Nat) (res : List Byte) (s : State) : State :=
  let v := anyCheck s (hitchReq s p) .wr (xResult d) 64
  if v.st ≠ 0 then hdone ring d v.st 0 hdl v.det s
  else hdone ring d stDone fl hdl 0 (wrBytes (xResult d) res s)

/-- LOOKUP (R173). -/
def lookupOp (ring : Nat) (d : BitVec 512) (s : State) : State :=
  hitchEntry ring d (fun p s =>
    let s := ctr .HT_PFX_LOOKUP_CNT p s
    if !(xClean d && xTarget d == 0 && 1 ≤ xCount d && xCount d ≤ 1048576 && pfxOn s p && acctHeld s p (xAccount d) &&
        memberOf s (xAccount d) (xGroup d)) then hbad ring d 0 s
    else
      let v := inCheck s (hitchReq s p) (xTokens d) (512 * xCount d)
      if v.st ≠ 0 then hdone ring d v.st 0 0 v.det (inFail (hitchReq s p) (xTokens d) v s)
      else
        let t := longestPath p (xGroup d) (xContext d) (xTokens d) (xCount d) 0 0 0 s
        let s := ctrAdd .HT_PFX_HIT_CHUNK_CNT 0 p t.1.length (touchNodes p t.1 t.2)
        let node := match t.1.getLast? with | some e => nodeId p e.1 e.2 | none => 0
        pfxDone ring d p (flIf (t.1 ≠ []) flPrefixHit) 0 (pfxResult node t.1.length 0 0) s) s

/-! ### Node pool -/

/-- Pages of a node's blocks. -/
def nodePages (nd : Node) : Nat := (nd.blks.map fun b => b.npages + 1).foldl (· + ·) 0

def treeNodes (s : State) (p : Nat) : List (Nat × Node) :=
  (s.pfx.nodes.filter fun e => e.1 / 2 ^ 24 == p).map fun e => (e.1 % 2 ^ 24, e.2)

/-- HT_PFX_PAGES and HT_PFX_NODES (R181). -/
def treePages (s : State) (p : Nat) : Nat := ((treeNodes s p).map fun e => nodePages e.2).foldl (· + ·) 0

def nodesMax (s : State) (p : Nat) : Nat := match partPlan s p with | some pl => pl.nodeMax | none => 0

/-- Frees a node: its pages are released, its generation advances, its parent loses a child (R177). -/
def freeNode (p idx : Nat) (nd : Node) (s : State) : State :=
  let s := nd.blks.foldl (fun s b => releasePages b.addr (b.npages + 1) p slotShared 0 b.pgen s) s
  let k := nodeKey p idx
  let nodes := ndel s.pfx.nodes k
  let nodes := match nget nodes (nodeKey p (hSlot nd.parent)) with
    | some par => if nd.parent = 0 then nodes else nset nodes (nodeKey p (hSlot nd.parent)) { par with kids := par.kids - 1 }
    | none => nodes
  ctr .HT_PFX_EVICT_CNT p
    { s with pfx.nodes := nodes, pfx.gens := nset s.pfx.gens k (nextGen nd.gen)
             pfx.freeQ := nset s.pfx.freeQ p (ngetD s.pfx.freeQ p [] ++ [idx]) }

def evictable (nd : Node) : Bool := nd.refs == 0 && nd.kids == 0

/-- The order of R177: evictable DOOMED nodes first, then oldest LAST_USE, ties to the lower index. -/
def nodeBefore (a b : Nat × Node) : Bool :=
  if a.2.doomed != b.2.doomed then a.2.doomed
  else if !a.2.doomed && a.2.lastUse ≠ b.2.lastUse then a.2.lastUse < b.2.lastUse else a.1 < b.1

def firstNode : List (Nat × Node) → Option (Nat × Node)
  | [] => none
  | e :: r => match firstNode r with
    | none => some e
    | some x => if nodeBefore e x then some e else some x

/-- Frees every evictable DOOMED node, and parents that become so (R178). -/
def sweepDoomed (p : Nat) : Nat → State → State
  | 0, s => s
  | n + 1, s =>
    match (treeNodes s p).find? fun e => e.2.doomed && evictable e.2 with
    | some e => sweepDoomed p n (freeNode p e.1 e.2 s)
    | none => s

/-- Evicts in order until the tree has room for `nodes` more records and `pages` more pages; none if it cannot (R177). -/
def evictNodes (p nodes pages : Nat) : Nat → State → Option State
  | fuel, s =>
    if (treeNodes s p).length + nodes ≤ nodesMax s p ∧ treePages s p + pages ≤ rg s .HT_PFX_PAGES_MAX p then some s
    else match fuel with
      | 0 => none
      | fuel + 1 =>
        match firstNode ((treeNodes s p).filter fun e => evictable e.2) with
        | none => none
        | some e => evictNodes p nodes pages fuel (freeNode p e.1 e.2 s)

/-- A free node index with its generation: freed ones first in first out (R74, R167), after those never used. -/
def freshNode (s : State) (p : Nat) : Option (Nat × Nat) :=
  let n := ngetD s.pfx.fresh p 0
  if n < nodesMax s p then some (n, 1)
  else match ngetD s.pfx.freeQ p [] with
    | i :: _ => some (i, ngetD s.pfx.gens (nodeKey p i) 1)
    | [] => none

def popNode (p : Nat) (s : State) : State :=
  let n := ngetD s.pfx.fresh p 0
  if n < nodesMax s p then { s with pfx.fresh := nset s.pfx.fresh p (n + 1) }
  else { s with pfx.freeQ := nset s.pfx.freeQ p (ngetD s.pfx.freeQ p []).tail }

/-! ### PUBLISH (R174) -/

/-- The block entries of chunk i in a session's table. -/
def chunkBlks (x : Slot) (i : Nat) : List Blk := (x.blks.drop (i * pLayers x.policy)).take (pLayers x.policy)

/-- The nodes a session holds, by chunk. -/
def heldPath (s : State) (x : Slot) : List (Nat × Node) := pathOf s x.part (x.chunks + 1) x.node

/-- Chunk i is eligible (R174): blocks in T1, whole, in BODY_FMT, and private or the held node's. -/
def eligible (s : State) (x : Slot) (i : Nat) : Bool :=
  let bl := chunkBlks x i
  bl.length == pLayers x.policy && 128 * (i + 1) ≤ x.tokens && bl.all (fun b => b.tier == 1 && !b.torn) &&
  (fmtAt x i == pBody x.policy) &&
  (if i < x.chunks then (match (heldPath s x)[i]? with | some e => !e.2.doomed | none => false)
   else bl.all fun b => !b.shr)

/-- What publication of one chunk does to the session: kept, adopted or inserted. -/
structure PubAcc where
  s    : State
  x    : Slot
  prev : Nat
  parent : Nat
  adopted : Nat
  inserted : Nat
  hit  : Bool
  ok   : Bool

def nodeGeom (x : Slot) (nd : Node) : Bool :=
  nd.layers == pLayers x.policy && nd.heads == pHeads x.policy && 16 * nd.hd16 == pHd x.policy && nd.fmt == pBody x.policy

/-- Replaces the entries of chunk i. -/
def putChunk (x : Slot) (i : Nat) (bl : List Blk) : Slot :=
  { x with blks := x.blks.take (i * pLayers x.policy) ++ bl ++ x.blks.drop ((i + 1) * pLayers x.policy) }

/-- One chunk of a publication (R174). -/
def pubChunk (n : Nat) (p g ctx a : Nat) (acc : PubAcc) (i : Nat) : PubAcc :=
  if !acc.ok then acc
  else
    let x := acc.x
    let toks := chunkToks acc.s a i
    let h := chunkKey acc.s p g acc.prev ctx toks
    if i < x.chunks then
      -- the held node must be the verified hit
      match (heldPath acc.s x)[i]? with
      | some e =>
        if sameNode toks acc.parent ctx g e.2 && e.2.hash == h then
          { acc with prev := h, parent := nodeId p e.1 e.2, hit := true }
        else { acc with ok := false }
      | none => { acc with ok := false }
    else
      let v := verify p toks acc.parent ctx g (nodeGeom x) (candidates acc.s p h) acc.s
      match v.1 with
      | some e =>
        -- adopt: the entries are repointed and the session's own pages released
        let s := (chunkBlks x i).foldl (fun s b => releaseBlk p n x.gen b s) v.2
        let s := { s with pfx.nodes := nset s.pfx.nodes (nodeKey p e.1) { e.2 with refs := e.2.refs + 1, lastUse := now s } }
        { acc with s := ctr .HT_PFX_ADOPT_CNT p s, x := putChunk x i e.2.blks, prev := h, parent := nodeId p e.1 e.2
                   adopted := acc.adopted + 1, hit := true }
      | none =>
        match freshNode v.2 p with
        | none => { acc with ok := false }
        | some (idx, gen) =>
          let bl := (chunkBlks x i).map fun b => { b with shr := true }
          let s := (chunkBlks x i).foldl (fun s b => passPages b.addr (b.npages + 1) p slotShared 0 s) (popNode p v.2)
          let nd : Node := { gen := gen, parent := acc.parent, hash := h, ctx := ctx, depth := i, refs := 1, kids := 0
                             layers := pLayers x.policy, heads := pHeads x.policy, hd16 := pHd x.policy / 16
                             fmt := pBody x.policy, group := g, doomed := false, lastUse := now s, toks := toks, blks := bl }
          let nodes := match nget s.pfx.nodes (nodeKey p (hSlot acc.parent)) with
            | some par => if acc.parent = 0 then s.pfx.nodes
                          else nset s.pfx.nodes (nodeKey p (hSlot acc.parent)) { par with kids := par.kids + 1 }
            | none => s.pfx.nodes
          { acc with s := ctr .HT_PFX_INSERT_CNT p { s with pfx.nodes := nset nodes (nodeKey p idx) nd }
                     x := putChunk x i bl, prev := h, parent := mkHandle 0 p idx gen, inserted := acc.inserted + 1 }

/-- Node records and pages a publication would add: chunks beyond the held path with no verified node. -/
def pubNeed (s : State) (x : Slot) (p g ctx a : Nat) : Nat → Nat → Nat → Nat → Nat × Nat
  | 0, _, _, _ => (0, 0)
  | n + 1, i, prev, parent =>
    let toks := chunkToks s a i
    let h := chunkKey s p g prev ctx toks
    match (verify p toks parent ctx g (nodeGeom x) (candidates s p h) s).1 with
    | some e => pubNeed s x p g ctx a n (i + 1) h (nodeId p e.1 e.2)
    | none => ((n + 1), ((x.blks.drop (i * pLayers x.policy)).take ((n + 1) * pLayers x.policy)).foldl (fun t b => t + b.npages + 1) 0)

/-- PUBLISH on a session at rest. -/
def publishOn (ring : Nat) (d : BitVec 512) (n p : Nat) (s : State) : State :=
  let x := slotOf s n
  let k := xCount d
  let a := xTokens d
  if k ≤ x.chunks then pfxDone ring d p 0 (xTarget d) (pfxResult x.node x.chunks 0 0) s
  else
    let v := inCheck s (hitchReq s p) a (512 * k)
    if v.st ≠ 0 then hdone ring d v.st 0 (xTarget d) v.det (inFail (hitchReq s p) a v s)
    else if !((List.range k).all (eligible s x)) then hbad ring d (xTarget d) s
    else
      let start : PubAcc := { s := s, x := x, prev := 0, parent := 0, adopted := 0, inserted := 0, hit := false, ok := true }
      let held := (List.range x.chunks).foldl (pubChunk n p (xGroup d) (xContext d) a) start
      if !held.ok then hbad ring d (xTarget d) s
      else
        let need := pubNeed s x p (xGroup d) (xContext d) a (k - x.chunks) x.chunks held.prev held.parent
        match evictNodes p need.1 need.2 (treeNodes s p).length s with
        | none => hrefuse ring d p (xTarget d) hintNever s
        | some s =>
          let r := (List.range k).foldl (pubChunk n p (xGroup d) (xContext d) a) { start with s := s }
          if !r.ok then hrefuse ring d p (xTarget d) hintNever s
          else
            let x' := { r.x with node := r.parent, chunks := k, last := x.last }
            let s := ctr .HT_PFX_PUBLISH_CNT p (commitSlot n x' r.s)
            pfxDone ring d p (flIf r.hit flPrefixHit) (xTarget d) (pfxResult r.parent k r.adopted r.inserted) s

/-- PUBLISH (R174): held while STEPPING; refused in any state but ACTIVE and PARKED_HOT. -/
def publishOp (ring : Nat) (d : BitVec 512) (s : State) : State :=
  hitchEntry ring d (fun p s =>
    if !(xClean d && xAccount d == 0 && 1 ≤ xCount d && xCount d ≤ 1048576 && pfxOn s p) then hbad ring d (xTarget d) s
    else withSlot ring d p (xTarget d) false (fun n x s => deadState ring d p (xTarget d) x (fun s =>
      if !memberOf s x.acct (xGroup d) then hbad ring d (xTarget d) s
      else match x.st with
      | .active | .parkedHot => publishOn ring d n p s
      | .stepping => holdCmd ring d n s
      | .moving =>
        if x.dir = .out ∧ (moveOf s n).any (·.why != .command) ∧ x.tier = 1 then
          publishOn ring d n p (endMove n stCancelledBefore 0 s)
        else hrefuseEst ring d p (xTarget d) s
      | _ => hrefuse ring d p (xTarget d) hintNever s) s) s) s

/-! ### DROP and REKEY (R178) -/

/-- The node lies at or below `root`. -/
def below (s : State) (p root : Nat) (e : Nat × Node) : Bool :=
  (pathOf s p (e.2.depth + 1) (nodeId p e.1 e.2)).any fun f => f.1 == root

/-- Sets DOOMED on nodes that a test picks, then frees those that are evictable. -/
def doom (p : Nat) (pick : Nat × Node → Bool) (s : State) : State :=
  let nodes := s.pfx.nodes.map fun e =>
    if e.1 / 2 ^ 24 == p && pick (e.1 % 2 ^ 24, e.2) then (e.1, { e.2 with doomed := true }) else e
  sweepDoomed p s.pfx.nodes.length { s with pfx.nodes := nodes }

/-- DROP (R178). -/
def dropOp (ring : Nat) (d : BitVec 512) (s : State) : State :=
  hitchEntry ring d (fun p s =>
    if !(xClean d && xGroup d == 0 && xAccount d == 0 && xTokens d == 0 && xCount d == 0 && xContext d == 0 && xResult d == 0)
    then hbad ring d 0 s
    else match nodeOf s p (xTarget d) with
      | none => hdone ring d stStaleHandle 0 0 0 s
      | some _ => hdone ring d stDone 0 0 0 (doom p (below s p (hSlot (xTarget d))) s)) s

/-- A write of HT_PFX_REKEY: the group's key is regenerated (a free value) and its nodes doomed (R169, R178). -/
def rekeyOp (v : Nat) (s : State) : State :=
  let g := bits v 5 0
  let p := bits v 11 8
  let k := fresh s
  doom p (fun e => e.2.group == g) { k.2 with pfx.keys := nset k.2.pfx.keys (64 * p + g) (k.1 % 2 ^ 256) }

/-- HT_PFX_PAGES_MAX lowered: evicts what R177 permits. -/
def shrinkTree (p : Nat) : Nat → State → State
  | 0, s => s
  | n + 1, s =>
    if treePages s p ≤ rg s .HT_PFX_PAGES_MAX p then s
    else match firstNode ((treeNodes s p).filter fun e => evictable e.2) with
      | none => s
      | some e => shrinkTree p n (freeNode p e.1 e.2 s)

end Sys2Proof.Machine
end

