-- ==== Sys2Proof/Machine/Splice.lean ====
section
/-! DEFINITION. Splice (chapter 4): COPY, ZERO, SWAP_POST, tile acknowledgements, failed writes, scrubs, far-port
devices as T2, persistence, demotion. -/

namespace Sys2Proof.Machine

/-! ### Runtime commands (R122) -/

def sXform (d : BitVec 512) : Nat := fld d 17 1
def sSrcTier (d : BitVec 512) : Nat := bits (fld d 18 1) 2 0
def sDstTier (d : BitVec 512) : Nat := bits (fld d 18 1) 5 3
def sHarah (d : BitVec 512) : Bool := bit (fld d 18 1) 6
def sCheap (d : BitVec 512) : Nat := fld d 19 1
def sLen (d : BitVec 512) : Nat := fld d 20 4
def sSrc (d : BitVec 512) : Nat := fld d 24 8
def sDst (d : BitVec 512) : Nat := fld d 32 8
def sDeadline (d : BitVec 512) : Nat := fld d 40 4

/-- Where a tier's bytes are: 0 the device window, 1 Harah, 2 the host (R106). -/
def tierPath (t : Nat) (harah : Bool) : Nat := if t ≤ 2 then 0 else if t = 3 ∨ (t = 5 ∧ harah) then 1 else 2

/-- The place of an address of a tier, as the rest of the model addresses it: host memory has bit 63 set. -/
def tierAddr (t a : Nat) (harah : Bool) : Nat := if tierPath t harah = 2 then 2 ^ 63 + a % 2 ^ 63 else a

/-- A well-formed COPY or ZERO (R122, R411). -/
def copyOk (d : BitVec 512) : Bool :=
  fld d 44 20 == 0 && sXform d < 2 && fld d 18 1 < 128 && sSrcTier d ≤ 5 && sDstTier d ≤ 5 && sCheap d ≤ 1 &&
  sLen d % 64 == 0 && sLen d ≤ 16777216 && (sXform d == 0 || 2 ≤ sSrcTier d) &&
  (dOp d == 0x11 || 2 < sSrcTier d || sSrc d < 2 ^ 48) && (2 < sDstTier d || sDst d < 2 ^ 48) &&
  (!dSealed d || (sDstTier d ≤ 1 && sXform d == 0))

/-- What each Splice command meets first (R141, R370, R587). -/
def spliceEntry (op ring : Nat) (d : BitVec 512) (f : Nat → State → State) (s : State) : State :=
  match ringPart s ring with
  | none => finish ring d stRefusedCapacity hintNever s
  | some p =>
    if dOp d ≠ op then hbad ring d 0 s
    else if bit (rg s .SP_CTL) 0 then finish ring d stRefusedCapacity hintNever s
    else f p s

/-- Length of what a COPY reads: OPEN reads the tags behind the object (R119). -/
def copySrcLen (d : BitVec 512) : Nat :=
  if sXform d = 1 then sLen d + 16 * tileCount (sLen d)
  else if dSealed d && tierPath (sSrcTier d) (sHarah d) == 2 then sealedLen (sLen d) else sLen d

/-- A COPY from T0 or T1 to T2-T5 is sealed (R119). -/
def copySeals (d : BitVec 512) : Bool := dOp d == 0x10 && sSrcTier d ≤ 1 && 2 ≤ sDstTier d

def copyDstLen (d : BitVec 512) : Nat := if copySeals d then sLen d + 16 * tileCount (sLen d) else sLen d

/-- An open Skein copy that a destination overlaps (R317): (slot, base, length) of the open copies. -/
def overlaps (a n b m : Nat) : Bool := a < b + m && b < a + n

/-- The access checks of a COPY or ZERO, source first (R35, R122, R586). -/
def copyCheck (s : State) (q : Req) (d : BitVec 512) : Verdict :=
  let src := tierAddr (sSrcTier d) (sSrc d) (sHarah d)
  let dst := tierAddr (sDstTier d) (sDst d) (sHarah d)
  let v := if dOp d = 0x11 ∨ tierPath (sSrcTier d) (sHarah d) = 1 then okV else inCheck s q src (copySrcLen d)
  if v.st ≠ 0 then v
  else if tierPath (sDstTier d) (sHarah d) = 1 then okV else anyCheck s q .wr dst (copyDstLen d)

/-- COPY or ZERO is accepted: its tiles are issued on an engine (R121, R124); with LENGTH 0 it is done. -/
def startJob (ring : Nat) (d : BitVec 512) (p : Nat) (s : State) : State :=
  if sLen d = 0 then finish ring d stDone 0 s
  else match engFree s 4 (spliceEngines s) with
    | none => finish ring d stRefusedCapacity hintNever s
    | some e =>
      let host := tierPath (sDstTier d) (sHarah d) = 2 ∨ (dOp d ≠ 0x11 ∧ tierPath (sSrcTier d) (sHarah d) = 2)
      let s := if host then dmaAdd ring d none s else s
      engTake 4 e { s with sp.jobs := s.sp.jobs ++ [⟨ring, d, p, e, List.range (tileCount (sLen d)), false, now s⟩] }

/-- COPY and ZERO (R122). `idx` lists the open index copies (base, length) of R317. -/
def copyOp (op ring : Nat) (d : BitVec 512) (idx : List (Nat × Nat)) (s : State) : State :=
  spliceEntry op ring d (fun p s =>
    if !copyOk d then hbad ring d 0 s
    else
      let q := unitReq 0x70 p
      let v := copyCheck s q d
      if v.st ≠ 0 then finish ring d v.st v.det (inFail q (sSrc d) v s)
      else if sDstTier d = 1 ∧ idx.any (fun x => overlaps (sDst d) (sLen d) x.1 x.2) then
        hbad ring d 0 (evt Ev.SKEIN_INDEX_WRITE q (sDst d) (ctr .SK_INDEX_WRITE_CNT p s))
      else if dOp d = 0x10 ∧ dSealed d ∧ tierPath (sSrcTier d) (sHarah d) = 2 then
        let r := openSealed p (dSealCtx d) (tierAddr (sSrcTier d) (sSrc d) (sHarah d)) (sLen d) s
        if r.1.st ≠ 0 then finish ring d r.1.st r.1.det r.2.2 else startJob ring d p r.2.2
      else startJob ring d p s) s

/-- SWAP_POST (R122, R133, R134). -/
def swapPostOp (ring : Nat) (d : BitVec 512) (s : State) : State :=
  spliceEntry 0x12 ring d (fun p s =>
    if !(fld d 44 20 == 0 && fld d 17 3 == 0 && sDst d == 0 && sDeadline d == 0 && sSrc d < 2 ^ 48) then hbad ring d 0 s
    else
      let q := unitReq 0x70 p
      let v := inCheck s q (sSrc d) (16 + 16 * sLen d)
      if v.st ≠ 0 then finish ring d v.st v.det (inFail q (sSrc d) v s)
      else match extentList s (sSrc d) 4 with
        | none => hbad ring d 0 s
        | some (_, _, l) =>
          if l.length ≠ sLen d then hbad ring d 0 s
          else finish ring d stDone 0 { s with sp.swap := nset s.sp.swap p (swapOf s p ++ l) }) s

/-! ### Acknowledged tiles (R124) -/

/-- Plaintext or stored bytes of a job's tile t, with what the source's seal says; none where an OPEN tag fails. -/
def jobTile (s : State) (j : SpJob) (t : Nat) (rd : List Byte) : Option (List Byte) :=
  let d := j.desc
  let n := min tileBytes (sLen d - t * tileBytes)
  let src := tierAddr (sSrcTier d) (sSrc d) (sHarah d)
  let remote := tierPath (sSrcTier d) (sHarah d) = 1
  if dOp d = 0x11 then some (leBytes n 0)
  else if dSealed d && isHost src then
    let x := ngetD s.hp.seals (dSealCtx d) seal0
    some (gcmXor x.key (sealNonce (rdNat s src 8) t) (rdBytes s (src + 64 + t * tileBytes) n))
  else
    let bs := if remote then rd.take n else rdBytes s (src + t * tileBytes) n
    if sXform d = 1 then
      let tag := if remote then leNat ((rd.drop n).take 16) else rdNat s (src + sLen d + 16 * t) 16
      let key := tierKeyOf s j.part
      let nonce := sealNonce (Config.copySerial j.part) t
      if gcmTag key nonce [] bs = tag then some (gcmXor key nonce bs) else none
    else some bs

/-- Writes a job's tile at its destination, sealed where R119 says so. -/
def putJobTile (j : SpJob) (t : Nat) (bs : List Byte) (s : State) : State :=
  let d := j.desc
  let dst := tierAddr (sDstTier d) (sDst d) (sHarah d)
  let key := tierKeyOf s j.part
  let nonce := sealNonce (Config.copySerial j.part) t
  let ct := if copySeals d then gcmXor key nonce bs else bs
  let tag := if copySeals d then leBytes 16 (gcmTag key nonce [] ct) else []
  let s := ctrAdd .SP_BYTES_WR (sDstTier d) j.part bs.length (ctrAdd .SP_BYTES_RD (sSrcTier d) j.part bs.length s)
  if tierPath (sDstTier d) (sHarah d) = 1 then
    send Mk.harahStore [dst + t * tileBytes] ct (if tag = [] then s else send Mk.harahStore [dst + sLen d + 16 * t] tag s)
  else
    let s := wrBytes (dst + t * tileBytes) ct s
    if tag = [] then s else wrBytes (dst + sLen d + 16 * t) tag s

/-- A job ends with a status. -/
def endJob (j : SpJob) (st det : Nat) (s : State) : State :=
  finish j.ring j.desc st det (engDone 4 j.eng (dmaDrop j.ring j.desc none
    { s with sp.jobs := s.sp.jobs.filter fun x => !(x.ring == j.ring && x.desc == j.desc) }))

def jobOf (s : State) (ring : Nat) (d : BitVec 512) : Option SpJob := s.sp.jobs.find? fun j => j.ring == ring && j.desc == d

/-- A tile of a COPY or ZERO is durable; the last completes it (R124). Poison met in the source fails it (R586); so does a
failed tag of an OPEN (log 17). -/
def ackJobTile (j : SpJob) (t : Nat) (rd : List Byte) (s : State) : State :=
  if !j.pend.contains t then s
  else
    let src := tierAddr (sSrcTier j.desc) (sSrc j.desc) (sHarah j.desc) + t * tileBytes
    let q := unitReq (BitVec.ofNat 8 (0x70 + j.eng)) j.part
    if dOp j.desc = 0x10 ∧ tierPath (sSrcTier j.desc) (sHarah j.desc) = 0 ∧ poisoned s src (min tileBytes (sLen j.desc - t * tileBytes)) then
      endJob j stFaultContext 0 (evt Ev.INPUT_POISON q src s)
    else match jobTile s j t rd with
      | none => endJob j stFaultContext 0 (evt Ev.SEAL_MISMATCH q src (ctr .SP_SEAL_FAIL_CNT j.part s))
      | some bs =>
        let s := putJobTile j t bs s
        let j' := { j with pend := j.pend.filter (· != t) }
        let s := { s with sp.jobs := s.sp.jobs.map fun x => if x.ring == j.ring && x.desc == j.desc then j' else x }
        if j'.pend = [] then endJob j' stDone 0 s else s

def putMove (m : Move) (s : State) : State := { s with ht.moves := s.ht.moves.map fun x => if x.slot == m.slot then m else x }

/-- The block a session reads is unreadable (R118): TORN, the log entry, FAULTED with cause 2. -/
def unreadable (n : Nat) (e : Nat) (poison : Bool) (s : State) : State :=
  let x := slotOf s n
  let q := unitReq 0x70 x.part
  let s := putSlot n { x with blks := x.blks.modify e fun b => { b with torn := true } } s
  let s := ctr .SP_MOVE_FAIL_CNT x.part s
  let s := if poison then evt Ev.TIER_POISON q (handleOf n x) s else evt Ev.SEAL_MISMATCH q (handleOf n x) (ctr .SP_SEAL_FAIL_CNT x.part s)
  faultSlot n 2 false s

/-- The slice of a stored form that tile t carries. -/
def tileSlice (bs : List Byte) (t : Nat) : List Byte := (bs.drop (t * tileBytes)).take tileBytes

/-- A tile of a session's move out is durable. -/
def ackOut (n : Nat) (m : Move) (e t : Nat) (rd : List Byte) (s : State) : State :=
  let x := slotOf s n
  let b := x.blks.getD e ⟨1, false, 0, 0, false, none, none, []⟩
  let dst := ((m.dst.find? fun y => y.1 == e).map (·.2)).getD b
  let src := b.addr * 65536
  if (b.tier = 1 ∧ poisoned s src (entBytes x e)) ∨ (b.tier = 2 ∧ poisoned s src (storedBytes s b rd).length) then unreadable n e true s
  else if b.tier ≠ 1 ∧ !tagOk s x.part (handleOf n x) e b (storedBytes s b rd) then unreadable n e false s
  else
    let f := storeForm s x.part (handleOf n x) e m.tier m.serial (plainOf s x e b)
    let bs := tileSlice f.1 t
    let a := dst.addr % 2 ^ 48 * 65536 + t * tileBytes
    let s := ctrAdd .SP_BYTES_WR m.tier x.part bs.length (ctrAdd .SP_BYTES_RD b.tier x.part bs.length s)
    let s := if t = 0 ∧ f.2.zr64 then ctrAdd .SP_ZR64_SAVED_BYTES 0 x.part (entBytes x e - f.1.length) s else s
    match tierPath m.tier m.path with
    | 0 => wrBytes a bs s
    | 1 => send Mk.harahStore [a] bs s
    | _ => wrBytes (2 ^ 63 + a) bs s

/-- A tile of a session's move in is durable; the block is opened with its first tile (R118; log 15). -/
def ackIn (n : Nat) (m : Move) (e t : Nat) (rd : List Byte) (s : State) : State :=
  let x := slotOf s n
  let b := x.blks.getD e ⟨2, false, 0, 0, false, none, none, []⟩
  let dst := ((m.dst.find? fun y => y.1 == e).map (·.2)).getD b
  let ct := storedBytes s b rd
  if b.tier = 2 ∧ poisoned s (b.addr * 65536) ct.length then unreadable n e true s
  else if t ≠ 0 then s
  else if !tagOk s x.part (handleOf n x) e b ct then unreadable n e false s
  else
    let bs := openForm s x.part e (entBytes x e) b ct
    wrBytes (dst.addr * 65536) bs
      (ctrAdd .SP_BYTES_WR 1 x.part bs.length (ctrAdd .SP_BYTES_RD b.tier x.part ct.length s))

/-- After the last acknowledgement of a T5 move the persistence request is posted (R134). -/
def askPersist (n : Nat) (s : State) : State :=
  match moveOf s n with
  | some m =>
    if m.pend = [] ∧ m.persist.isSome ∧ m.asked.isNone then
      putMove { m with asked := some (now s) }
        (notice (slotOf s n).part 4 5 0 (m.persist.getD 0) (handleOf n (slotOf s n)) s)
    else s
  | none => s

/-- SPLICE_TILE_ACK for a session's move. -/
def ackMoveTile (n e t : Nat) (rd : List Byte) (s : State) : State :=
  match moveOf s n with
  | none => s
  | some m =>
    if !m.pend.contains (e, t) then s
    else
      let s := match m.dir with
        | .out => ackOut n m e t rd s
        | .inn => ackIn n m e t rd s
        | _ => s
      match moveOf s n with
      | none => s
      | some m => askPersist n (putMove { m with pend := m.pend.filter (· != (e, t)) } s)

/-! ### Failed writes (R137, R138, R588) -/

/-- The pages behind a failed T2 write of a tile become TORN (R137). -/
def tearPages (first : Nat) (t : Nat) (s : State) : State :=
  let pg := first + t * tileBytes / 65536
  ctr .SP_TORN_CNT (pageOf s pg).part
    { s with ht.pages := nset s.ht.pages pg { pageOf s pg with st := .torn } }

/-- A runtime PARK, demotion or eviction whose write failed ends: the slot returns to its state before the move, TORN pages
stay until they are scrubbed, and a PARK completes with the status of the write (R137, R588). -/
def failOut (n st det : Nat) (s : State) : State :=
  match moveOf s n with
  | none => s
  | some m =>
    let x := slotOf s n
    let keep := m.dst.filter fun e => (List.range (e.2.npages + 1)).any fun i => (pageOf s (e.2.addr + i)).st == .torn
    -- whole pages of a torn block wait for the scrub; the rest go back at once
    let s := putMove { m with dst := m.dst.filter fun e => !keep.any fun k => k.1 == e.1 } s
    let s := keep.foldl (fun s e => (List.range (e.2.npages + 1)).foldl (fun s i =>
      if (pageOf s (e.2.addr + i)).st = .torn ∨ e.2.tier ≠ 2 then s
      else releasePages (e.2.addr + i) 1 x.part n x.gen (gensOf s (e.2.addr + i) 1) s) s) s
    endMove n st det (ctr .SP_MOVE_FAIL_CNT x.part s)

/-- T2_WRITE_TIMEOUT: no acknowledgement within SP_T2_WR_TMO, or an error (R137, R588). -/
def t2WriteFail (x : TileRef) (error : Bool) (s : State) : State :=
  match x with
  | .move n e t =>
    match moveOf s n with
    | some m =>
      if m.dir = .out ∧ m.tier = 2 ∧ m.pend.contains (e, t) ∧ (error ∨ m.since + 1000 * rg s .SP_T2_WR_TMO ≤ now s) then
        let first := ((m.dst.find? fun y => y.1 == e).map (·.2.addr)).getD 0
        let tg := some (385 + m.dev)
        failOut n (if error then stFaultAccess else stTargetReset)
          (if error then detTarget tg else detReset tg (axEpochOf s (385 + m.dev))) (tearPages first t s)
      else s
    | none => s
  | .job r d t =>
    match jobOf s r d with
    | some j =>
      if sDstTier d = 2 ∧ j.pend.contains t ∧ (error ∨ j.since + 1000 * rg s .SP_T2_WR_TMO ≤ now s) then
        let tg := 385 + (sDst d - farBase) / 0x40000000000
        endJob j (if error then stFaultAccess else stTargetReset) (if error then detTarget (some tg) else detReset (some tg) (axEpochOf s tg))
          (tearPages (sDst d / 65536) t s)
      else s
    | none => s

/-- TORN_SCRUB (R138): the ZERO of a TORN page is acknowledged and the page released, or fails; the third failure retires it. -/
def scrubPage (pg : Nat) (ok : Bool) (s : State) : State :=
  let x := pageOf s pg
  if x.st ≠ .torn then s
  else
    let s := ctr .SP_SCRUB_CNT x.part s
    if ok then
      releasePages pg 1 x.part x.slot x.gen [x.pgen]
        { s with mem := memWrite s.mem (pg * 65536) (leBytes 65536 0), sp.scrubFail := ndel s.sp.scrubFail pg }
    else
      let k := ngetD s.sp.scrubFail pg 0 + 1
      if 3 ≤ k then
        evt Ev.T2_PAGE_RETIRED (hitchReq s x.part) pg (ctr .SP_T2_RETIRED_CNT x.part
          { s with ht.pages := nset s.ht.pages pg { x with st := .retired }, sp.scrubFail := ndel s.sp.scrubFail pg })
      else { s with sp.scrubFail := nset s.sp.scrubFail pg k }

/-! ### Persistence (R134) -/

/-- PERSIST_ACK: the T5 moves of a partition that asked for this ID commit. -/
def persistAckOp (p id : Nat) (s : State) : State :=
  let ok (m : Move) : Bool := m.asked.isSome && m.persist == some id && (slotOf s m.slot).part == p
  (s.ht.moves.filter ok).foldl (fun s m => commitMove m.slot (putMove { m with persist := none } s)) s

/-- PERSIST_TIMEOUT: the move is abandoned, its PARK REFUSED_CAPACITY with the hint that only the runtime can help. -/
def persistTimeoutOp (n : Nat) (s : State) : State :=
  match moveOf s n with
  | some m => match m.asked with
    | some t => if t + 1000000 * rg s .SP_PART_PERSIST_TMO (slotOf s n).part ≤ now s then endMove n stRefusedCapacity hintNever s else s
    | none => s
  | none => s

/-! ### Far-port memory (R136-R140, R590) -/

def farOf (s : State) (n : Nat) : FarDev := ngetD s.sp.far n farDev0
def putFar (n : Nat) (x : FarDev) (s : State) : State := { s with sp.far := nset s.sp.far n x }

/-- Sessions with blocks on device n, or moves to it. -/
def farSlots (s : State) (n : Nat) : List (Nat × Slot) := s.ht.slots.filter fun e => e.2.blks.any (onFar n)

/-- Starts a park of an evicted device's session to another destination under R131. -/
def evictFrom (s : State) (v : Nat × Slot) : State :=
  if v.2.st = .parkedWarm then (evictOne v s).getD (ctr .SP_EVICT_SKIP_CNT v.2.part s) else s

/-- EVICT (R138): accepting ends, and Hitch parks each of the device's sessions elsewhere. -/
def t2EvictOp (n : Nat) (s : State) : State :=
  let x := farOf s n
  if !x.admitted then s
  else
    let s := putFar n { x with accepting := false, removing := true } s
    (farSlots s n).foldl evictFrom s

/-- The device holds nothing authoritative (R138): REMOVING clears, T2_EVICTED is posted to every laid partition,
FP_SLOT_PWR_EN[n] falls (R572). -/
def t2EvictDoneOp (n : Nat) (s : State) : State :=
  let x := farOf s n
  if x.removing ∧ (farSlots s n).isEmpty ∧ (s.ht.moves.any fun m => m.tier == 2 && m.dev == n) = false then
    let s := putFar n { x with removing := false, admitted := false } s
    let s := { s with ly.slotPwr := s.ly.slotPwr - (if bit s.ly.slotPwr n then 2 ^ n else 0) }
    s.lay.img.parts.foldl (fun s e => if e.2.enable then notice e.1 6 n 0 0 0 s else s) s
  else s

/-- ADMIT (R140): every page descriptor of the capacity FREE, PAGE_GEN incremented, one free run. -/
def t2AdmitOp (q : Req) (n : Nat) (s : State) : State :=
  let x := farOf s n
  if x.present ∧ !x.admitted ∧ !x.walking ∧ !x.removing then
    let f := farStart n / 65536
    let bumped := s.ht.pages.map fun e =>
      if f ≤ e.1 ∧ e.1 < f + x.pages ∧ e.2.st ≠ .retired then (e.1, { page0 with pgen := (e.2.pgen + 1) % 65536 }) else e
    let runs := stretches f x.pages
    putFar n { x with gone := false, accepting := true, admitted := true }
      { s with ht.pages := bumped, ht.runs := nset s.ht.runs (runKey2 0 n) runs }
  else evt Ev.T2_ADMIT_REFUSED q n s
where
  /-- Maximal stretches of pages not RETIRED: the retired ones are few, so the stretches lie between them. -/
  stretches (f n : Nat) : List (Nat × Nat) :=
    let dead := (s.ht.pages.filter fun e => f ≤ e.1 && e.1 < f + n && e.2.st == .retired).map (·.1)
    let cut := dead.foldl (fun (acc : Nat × List (Nat × Nat)) k => (k + 1, if acc.1 < k then acc.2 ++ [(acc.1, k - acc.1)] else acc.2)) (f, [])
    if cut.1 < f + n then cut.2 ++ [(cut.1, f + n - cut.1)] else cut.2

/-- Steps 1 to 4 of R139: the device is lost without EVICT. -/
def farLostOp (n : Nat) (s : State) : State :=
  let x := farOf s n
  if !x.present ∨ x.gone then s
  else
    let outs := s.ht.moves.filter fun m => m.dir == .out && m.tier == 2 && m.dev == n
    let s := outs.foldl (fun s m =>
      let s := m.pend.foldl (fun s t => tearPages (((m.dst.find? fun y => y.1 == t.1).map (·.2.addr)).getD 0) (t.2) s) s
      failOut m.slot stTargetReset (detReset (some (385 + n)) (axEpochOf s (385 + n))) s) s
    let js := s.sp.jobs.filter fun j => sDstTier j.desc == 2 && (sDst j.desc - farBase) / 0x40000000000 == n
    let s := js.foldl (fun s j =>
      endJob j stTargetReset (detReset (some (385 + n)) (axEpochOf s (385 + n))) (j.pend.foldl (fun s t => tearPages (sDst j.desc / 65536) t s) s)) s
    -- reads in progress return poison (R139 step 2)
    let rs := s.sp.jobs.filter fun j => dOp j.desc == 0x10 && sSrcTier j.desc == 2 && (sSrc j.desc - farBase) / 0x40000000000 == n
    let s := rs.foldl (fun s j => endJob j stFaultContext 0 (evt Ev.INPUT_POISON (unitReq 0x70 j.part) (sSrc j.desc) s)) s
    let f := farStart n / 65536
    let torn := (s.ht.pages.filter fun e => f ≤ e.1 && e.1 < f + x.pages && e.2.st == .torn).length
    let parts := ((s.ht.pages.filter fun e => f ≤ e.1 && e.1 < f + x.pages && e.2.st != .free).map fun e => e.2.part).eraseDups
    let s := { s with ht.runs := nset s.ht.runs (runKey2 0 n) [] }
    let s := putFar n { farOf s n with present := false, accepting := false, removing := false, gone := true, walking := true,
                                       admitted := false, faulted := 0, torn := torn } s
    parts.foldl (fun s p => notice p 3 n 0 0 0 s) s

/-- Steps 5 to 7 of R139: each session with a page on the device goes to FAULTED with cause 1. -/
def walkEndOp (n : Nat) (s : State) : State :=
  let x := farOf s n
  if !x.walking then s
  else
    let lost := (s.ht.slots.filter fun e => e.2.st != .free && e.2.st != .faulted && e.2.blks.any (onFar n)).map (·.1)
    let s := lost.foldl (fun s k => faultSlot k 1 false s) s
    let s := putFar n { farOf s n with walking := false } s
    evt Ev.FP_SURPRISE_REMOVAL (unitReq 0x91 16) (n + 4 * lost.length + 2 ^ 40 * x.torn) s

/-! ### Demotion (R522, R523) -/

/-- Idle threshold of a stage, ns; 0 disables it. -/
def demoteAfter (s : State) (warm : Bool) : Nat :=
  1000000 * (if warm then rg s .LY_DEMOTE_WARM_MS else rg s .LY_DEMOTE_HOT_MS)

/-- Demotes one slot, or requeues it at the tail and counts the skip (R523). -/
def demoteOne (warm : Bool) (n : Nat) (s : State) : State :=
  let x := slotOf s n
  let r := if moveFull s ∨ x.frozen then none
    else if warm then outToSwap n x .demotion s
    else outToT2 n x .demotion none (farChoices s x.part 0xF) s
  match r with
  | some s => s
  | none =>
    let q := if warm then s.ht.warm else s.ht.hot
    let q := nset q x.part (((ngetD q x.part []).filter fun e => e.1 != n) ++ [(n, now s)])
    ctr .LY_DEMOTE_SKIP_CNT x.part (if warm then { s with ht.warm := q } else { s with ht.hot := q })

/-- DEMOTION_DUE: every slot at the head idle for the threshold, at most 256 of them. -/
def demoteOp (p : Nat) (warm : Bool) (s : State) : State :=
  let t := demoteAfter s warm
  let q := ngetD (if warm then s.ht.warm else s.ht.hot) p []
  let due := (q.takeWhile fun e => t ≠ 0 && e.2 + t ≤ now s).take 256
  if due = [] then s
  else (due.map (·.1)).foldl (fun s n => demoteOne warm n s) (ctrAdd .LY_DEMOTE_REQ_CNT 0 p 1 s)

end Sys2Proof.Machine
end

