-- ==== Sys2Proof/Machine/Migrate.lean ====
section
/-! DEFINITION. Migration between devices (R94, R95, R440) and the two Hitch instances (R100-R103). -/

namespace Sys2Proof.Machine

/-! ### At the source -/

/-- Fields of MIGRATE (R90). -/
def gDev (d : BitVec 512) : Nat := bits (hArg0 d) 15 0
def gPart (d : BitVec 512) : Nat := bits (hArg0 d) 19 16

/-- Private pages of a session, as HT_RESERVE states them. -/
def privatePages (x : Slot) : Nat :=
  (((enum0 x.blks).filter fun e => movable e.2).map fun e => blkPages x.policy (fmtAt x (entB x e.1))).foldl (· + ·) 0

/-- Every tile of the session's private blocks. -/
def allTiles (x : Slot) : List (Nat × Nat) := pendTiles x ((enum0 x.blks).filter fun e => movable e.2)

/-- MIGRATE on a session at rest (R83, R94): the reservation is asked for. -/
def migrateFrom (ring : Nat) (d : BitVec 512) (n p : Nat) (s : State) : State :=
  let x := slotOf s n
  let h := handleOf n x
  if isConf s p then hdone ring d stFaultAccess 0 h (detTarget none) (ctr .HW_CONF_DENIED_CNT p s)
  else if !s.hf.idValid then hbad ring d h s
  else if moveFull s then hrefuseEst ring d p h s
  else
    let msg := leBytes 8 h ++ leBytes 1 (gPart d) ++ leBytes 3 0 ++ leBytes 4 (privatePages x) ++ leBytes 8 (hArg1 d)
    match hfIssue tyMsg (gDev d) p 0x01 24 0 msg (.reserve n) s with
    | none => hdone ring d stAddressHole 0 h (detTarget none) s
    | some s =>
      let s := { s with ht.migOut := s.ht.migOut ++ [⟨n, gDev d, gPart d, 0, 0, false⟩] }
      beginMove n x { move0 n with dir := .migrate, dev := gDev d, cmd := some (ring, d) } s

/-- MIGRATE (R87, R90, R94). -/
def migrateSrc (ring : Nat) (d : BitVec 512) (s : State) : State :=
  hitchEntry ring d (fun p s =>
    withSlot ring d p (hHandle d) false (fun n x s => deadState ring d p (hHandle d) x (fun s =>
      match x.st with
      | .stepping => holdCmd ring d n s
      | .moving =>
        match x.dir with
        | .migrate => hrefuseEst ring d p (hHandle d) s
        | .inn => holdCmd ring d n s
        | _ => if (moveOf s n).any (·.why == .command) then holdCmd ring d n s
               else migrateFrom ring d n p (endMove n stCancelledBefore 0 s)
      | _ => migrateFrom ring d n p s) s) s) s

def dropMigOut (n : Nat) (s : State) : State := { s with ht.migOut := s.ht.migOut.filter fun m => m.slot != n }

/-- The reply to HT_RESERVE: the tiles are issued, or the migration completes with the destination's status (R83, R94). -/
def reserveReply (n st det : Nat) (data : List Byte) (s : State) : State :=
  match s.ht.migOut.find? (fun m => m.slot == n), moveOf s n with
  | some o, some m =>
    if st ≠ stDone then endMove n st det (dropMigOut n s)
    else
      let h := leNat (data.take 8)
      let s := { s with ht.migOut := s.ht.migOut.map fun y =>
                   if y.slot == n then { o with rslot := hSlot h, rgen := hGen h, reserved := true } else y }
      putMove { m with pend := allTiles (slotOf s n), exts := [(h, 0)] } s
  | _, _ => s

/-- HT_ARRIVED at the source: the release, which is the commit (R94). -/
def htArrivedOp (src tag h : Nat) (s : State) : State :=
  let n := hSlot h
  let x := slotOf s n
  match s.ht.migOut.find? (fun m => m.slot == n && m.reserved), moveOf s n with
  | some o, some m =>
    if handleOf n x ≠ h ∨ o.dev ≠ src then hfRespond 0x84 src tag stStaleHandle 0 [] s
    else
      let dh := mkHandle o.dev o.part o.rslot o.rgen
      let s := hfRespond 0x84 src tag stDone 0 [] (dropMigOut n (dropMove n s))
      let s := (hfIssue tyMsg src x.part 0x03 16 0 (leBytes 8 h ++ leBytes 8 dh) (.release n) s).getD s
      let s := doneAll (m.also) stDone 0 dh 0 s
      let s := freeSlotNow n s
      match m.cmd with | some c => hdone c.1 c.2 stDone 0 dh 0 s | none => s
  | _, _ => hfRespond 0x84 src tag stStaleHandle 0 [] s

/-- HT_ASK at the source: released means the handle's generation is now the slot's previous generation (R95). -/
def htAskOp (src tag h : Nat) (s : State) : State :=
  hfRespond 0x84 src tag stDone 0 (leBytes 1 (b2n ((slotOf s (hSlot h)).prevGen == hGen h && hGen h != 0))) s

/-! ### At the destination -/

/-- Block entries of a session of `tokens` committed tokens, with pages still to be taken. -/
def plainTable (pol : BitVec 512) (tokens : Nat) : List (Nat × Blk) :=
  enum0 (List.replicate (ceilDiv tokens 128 * pLayers pol) ⟨1, false, 0, 0, false, none, none, []⟩)

/-- HT_RESERVE at the destination: a slot and its pages are reserved, or the reply says why not (R94). -/
def htReserveOp (src tag h p pages pol tokens : Nat) (s : State) : State :=
  let q := hitchReq s p
  let no (st det : Nat) (s : State) : State := hfRespond 0x84 src tag st det [] s
  if bit (rg s .HT_CTL) 0 ∨ (partPlan s p).isNone ∨ moveFull s ∨ isConf s p then no stRefusedCapacity hintNever s
  else
    let v := inCheck s q pol 64
    if v.st ≠ 0 then no v.st v.det (inFail q pol v s)
    else
      let r := BitVec.ofNat 512 (rdNat s pol 64)
      match freeSlot s p with
      | none => no stRefusedCapacity hintNever s
      | some n =>
        let x := { newSlot s n p r with tokens := tokens }
        if !policyOk s p r then no stFaultContext 0 s
        else match takeIn x n (maskOf s p 0 (pMask r)) (plainTable r tokens) s with
          | none => no stRefusedCapacity hintNever s
          | some (dst, s) =>
            let a := Config.hitchTable n 2
            let ents := (dst.map fun e => leBytes 8 (ownId s * 2 ^ 48 + e.2.addr * 65536) ++ leBytes 4 (e.2.npages + 1) ++ leBytes 4 0).flatten
            let s := wrBytes a (leBytes 4 3 ++ leBytes 4 dst.length ++ leBytes 8 0 ++ ents) s
            let x := { x with st := .moving, dir := .inn, blks := dst.map (·.2) }
            let tiles := pendTiles x dst
            let s := { s with
              ht.migIn := s.ht.migIn ++ [⟨n, src, h, pages = 0 ∨ tiles = [], now s + 1000 * rg s .HT_MIG_RETRY⟩]
              ht.moves := s.ht.moves ++ [{ move0 n with dir := .inn, why := .evacuation, dev := src, dst := dst, pend := tiles, since := now s }] }
            hfRespond 0x84 src tag stDone 0 (leBytes 8 (handleOf n x) ++ leBytes 8 a) (commitSlot n x (popFree p s))

/-- A tile of a migrating session has arrived; with the last, the destination confirms (R94). -/
def migTile (n e t : Nat) (rd : List Byte) (s : State) : State :=
  match s.ht.migIn.find? (fun m => m.slot == n), moveOf s n with
  | some i, some m =>
    if !m.pend.contains (e, t) then s
    else
      let dst := ((m.dst.find? fun y => y.1 == e).map (·.2.addr)).getD 0
      let m := { m with pend := m.pend.filter (· != (e, t)) }
      let s := putMove m (wrBytes (dst * 65536 + t * tileBytes) (rd.take tileBytes) s)
      if m.pend = [] then
        let s := { s with ht.migIn := s.ht.migIn.map fun y => if y.slot == n then { i with complete := true } else y }
        (hfIssue tyMsg i.src (slotOf s n).part 0x02 8 0 (leBytes 8 i.old) (.arrived n) s).getD s
      else s
  | _, _ => s

def dropMigIn (n : Nat) (s : State) : State := { s with ht.migIn := s.ht.migIn.filter fun m => m.slot != n }

/-- The destination activates its slot (R94). -/
def migActivate (n : Nat) (s : State) : State :=
  match moveOf s n with
  | some m =>
    let x := slotOf s n
    commitSlot n { x with st := .active, dir := .none, tier := 1 } (settle n x m.dst (dropMigIn n (dropMove n s)))
  | none => s

/-- The reserved slot is freed: the release did not happen (R95). -/
def migFree (n : Nat) (s : State) : State :=
  freeSlotNow n (dropMigIn n (dropMove n s))

/-- HT_RELEASE at the destination (R94). -/
def htReleaseOp (src tag h : Nat) (s : State) : State :=
  match s.ht.migIn.find? fun m => m.old == h && m.src == src && m.complete with
  | some m => hfRespond 0x84 src tag stDone 0 [] (migActivate m.slot s)
  | none => hfRespond 0x84 src tag stStaleHandle 0 [] s

/-- MIG_RETRY_TIMER: the source is asked again (R95); where no route leads to it, the copy is held. -/
def migRetryOp (n : Nat) (s : State) : State :=
  match s.ht.migIn.find? fun m => m.slot == n with
  | some i =>
    if i.complete ∧ i.askAt ≤ now s then
      let s := { s with ht.migIn := s.ht.migIn.map fun y =>
                   if y.slot == n then { i with askAt := now s + 1000 * rg s .HT_MIG_RETRY } else y }
      (hfIssue tyMsg i.src (slotOf s n).part 0x04 8 0 (leBytes 8 i.old) (.ask n) s).getD s
    else s
  | none => s

/-- The answer to HT_ASK (R95); a failed exchange is asked again at the next interval. -/
def askReply (n st : Nat) (data : List Byte) (s : State) : State :=
  if st ≠ stDone ∨ (s.ht.migIn.any fun m => m.slot == n) = false then s
  else if leNat (data.take 1) = 1 then migActivate n s else migFree n s

/-- MIGRATE with FORCE_ADOPT at the destination (R95): allowed where every route to the source is withdrawn. -/
def forceAdopt (ring : Nat) (d : BitVec 512) (s : State) : State :=
  hitchEntry ring d (fun p s =>
    match s.ht.migIn.find? fun m => m.old == hHandle d && m.complete && (slotOf s m.slot).part == p with
    | none => hdone ring d stStaleHandle 0 0 0 s
    | some i =>
      if !routeWithdrawn s i.src then hrefuseEst ring d p (hHandle d) s
      else
        let h := handleOf i.slot (slotOf s i.slot)
        hdone ring d stDone 0 h 0 (migActivate i.slot s)) s

/-- MIGRATE in either form (R90). -/
def migrateOp (ring : Nat) (d : BitVec 512) (s : State) : State :=
  if !(hClean d && hOpt d < 2 && hArg0 d < 2 ^ 20 && hArg2 d == 0) then hitchEntry ring d (fun _ s => hbad ring d (hHandle d) s) s
  else if hOpt d = 1 then forceAdopt ring d s else migrateSrc ring d s

/-! ### Two instances (R100-R103) -/

/-- A standby is there to take over. -/
def hasStandby (s : State) : Bool := s.ht.inStep && !(if s.ht.activeA then s.ht.bFenced else s.ht.aFenced)

/-- A move begins again from its start (R101, R125): every tile is outstanding; a migration goes on. -/
def restartMove (s : State) (m : Move) : Move :=
  if m.dir = .migrate ∨ (s.ht.migIn.any fun i => i.slot == m.slot) then m
  else { m with pend := pendTiles (slotOf s m.slot) (if m.dir = .out then carriedTo (slotOf s m.slot) m.tier m.dev else carried (slotOf s m.slot) 1)
                asked := none }

/-- The standby takes over (R101): the epoch is raised, the old instance fenced, uncommitted moves restart. -/
def takeover (s : State) : State :=
  if !hasStandby s then s
  else
    let a := s.ht.activeA
    let s := ctr .HT_FAILOVER_CNT 16 s
    let s := ctrAdd .SP_MOVE_RESTART_CNT 0 16 s.ht.moves.length s
    let late := (s.ht.moves.map fun m => m.pend.length).foldl (· + ·) 0   -- responses that will carry the old epoch
    let s := if late = 0 then s else { s with ax.owed := nset s.ax.owed 2 ((ngetD s.ax.owed 2 (0, 0)).1 + late, now s) }
    { s with ht.activeA := !a, ht.aFenced := a || s.ht.aFenced, ht.bFenced := !a || s.ht.bFenced, ht.inStep := false
             ht.epoch := s.ht.epoch + 1, ht.journal := [], ht.moves := s.ht.moves.map (restartMove s) }

/-- REINSTATE (R103): the fenced instance is reset and self-tested; on a pass it resynchronises. -/
def reinstate (pass : Bool) (s : State) : State :=
  if (s.ht.aFenced ∨ s.ht.bFenced) ∧ !s.ht.resync ∧ pass then { s with ht.resync := true } else s

/-- The resynchronisation ends. -/
def resyncDone (s : State) : State :=
  if s.ht.resync then { s with ht.resync := false, ht.inStep := true, ht.aFenced := false, ht.bFenced := false } else s

/-- The standby acknowledges the oldest record (R100; log 18). -/
def journalAck (s : State) : State := { s with ht.journal := s.ht.journal.drop 1 }

end Sys2Proof.Machine
end

