-- ==== Sys2Proof/Machine/Queue.lean ====
section
/-! DEFINITION. Capstan's queues (R353, R356): one for each server, class and colour of a partition, their tags, and what
leaves or returns to them outside a dispatch. -/

namespace Sys2Proof.Machine

/-- The items of a queue, head first. -/
def queueOf (s : State) (p srv cls : Nat) (yel : Bool) : List Item :=
  s.cp.items.filter fun i => i.part == p && i.cls == cls && i.yellow == yel && !i.stepHeld &&
    i.shares.any fun x => x.srv == srv && !x.sent

def qKey (p srv cls : Nat) (yel : Bool) : Nat := ((p * 18 + srv) * 64 + cls) * 2 + b2n yel
def vKey (p srv : Nat) (yel : Bool) : Nat := (p * 18 + srv) * 2 + b2n yel

def qTag (s : State) (p srv cls : Nat) (yel : Bool) : QTag := ngetD s.cp.tags (qKey p srv cls yel) ⟨0, 0, 0, none⟩
def putTag (p srv cls : Nat) (yel : Bool) (t : QTag) (s : State) : State :=
  { s with cp.tags := nset s.cp.tags (qKey p srv cls yel) t }

/-- The scheduling charge of an item on a server (R354). -/
def shareCharge (i : Item) (srv : Nat) : Nat := match i.shares.find? fun x => x.srv == srv with | some x => x.charge | none => 0

/-- A class's weight; 0 acts as 1 (R356). -/
def weightOf (s : State) (c : Nat) : Nat := max 1 (rg s .CP_CLASS_WEIGHT c)

/-- Sum of the weights of a partition's enabled classes. -/
def wTotal (s : State) (p : Nat) : Nat :=
  match partPlan s p with
  | none => 1
  | some pl => max 1 ((((List.range pl.clsCount).map (pl.clsBase + ·)).filter fun c => bit (rg s .CP_CLASS_CFG c) 0).foldl
      (fun n c => n + weightOf s c) 0)

/-- Tags are compared as differences modulo 2^64, read as signed (R356). -/
def tagLe (a b : Nat) : Bool := (b + 2 ^ 64 - a % 2 ^ 64) % 2 ^ 64 < 2 ^ 63
def tagMax (a b : Nat) : Nat := if tagLe a b then b else a

/-- F of a head whose S is given. -/
def tagF (s : State) (cls st charge : Nat) : Nat := (st + charge * 65536 / weightOf s cls) % 2 ^ 64

/-- A queue's key taken apart: partition, server, class, colour. -/
def keyParts (k : Nat) : Nat × Nat × Nat × Bool := (k / 2304, k / 128 % 18, k / 2 % 64, k % 2 == 1)

def keyHead (s : State) (k : Nat) : Option Item :=
  let q := keyParts k
  (queueOf s q.1 q.2.1 q.2.2.1 q.2.2.2).head?

/-- A head that has left its queue without dispatch (R356): the next head takes its S; an empty queue keeps it as its last F. -/
def settleTag (s : State) (k : Nat) (t : QTag) : QTag :=
  match t.head, keyHead s k with
  | some a, some i => if a = i.id then t else { t with f := tagF s i.cls t.s (shareCharge i (keyParts k).2.1), head := some i.id }
  | some _, none => { t with fLast := t.s, head := none }
  | none, _ => t

def settleTags (s : State) : State := { s with cp.tags := s.cp.tags.map fun e => (e.1, settleTag s e.1 e.2) }

/-- Release times of shaped heads (R349): computed when an item reaches the head of a queue. -/
def shapeHeads (s : State) : State :=
  s.cp.tags.foldl (fun s e =>
    match keyHead s e.1 with
    | none => s
    | some i =>
      let rate := rg s .CP_CLASS_SHAPE_RATE i.cls
      if rate = 0 ∨ i.release.isSome then s
      else
        let t := max (now s) (ngetD s.cp.ePrev i.cls 0) + ceilDiv (i.charge * 1000000) rate
        ctr .CP_SHAPE_HOLD_CNT i.part
          { s with cp.ePrev := nset s.cp.ePrev i.cls t
                   cp.items := s.cp.items.map fun x => if x.id == i.id then { x with release := some t } else x }) s

/-- An item joins the queue of one of its servers (R356): behind no virtual time, with no banked credit. -/
def joinQueue (i : Item) (x : Share) (s : State) : State :=
  match queueOf s i.part x.srv i.cls i.yellow with
  | [] =>
    let t := qTag s i.part x.srv i.cls i.yellow
    let st := tagMax (ngetD s.cp.vt (vKey i.part x.srv i.yellow) 0) t.fLast
    putTag i.part x.srv i.cls i.yellow { t with s := st, f := tagF s i.cls st x.charge, head := some i.id } s
  | _ => s

/-- An item joins its queues and the list. -/
def enqueue (i : Item) (s : State) : State :=
  let s := i.shares.foldl (fun s x => joinQueue i x s) (settleTags s)
  shapeHeads { s with cp.items := s.cp.items ++ [i] }

/-- Preempted work returns to the head of its queue on a server, with its tags and its colour (R362). -/
def requeueItem (ring : Nat) (d : BitVec 512) (srv : Nat) (s : State) : State :=
  match s.cp.items.find? fun i => i.ring == ring && i.desc == d with
  | none => s
  | some i =>
    match i.shares.find? fun x => x.srv == srv && x.sent with
    | none => { s with cp.items := s.cp.items.map fun x => if x.id == i.id then { x with preempted := true } else x }
    | some x =>
      let i' := { i with preempted := true, shares := i.shares.map fun y => if y == x then { y with sent := false } else y }
      let s := settleTags s
      let t := qTag s i.part srv i.cls i.yellow
      putTag i.part srv i.cls i.yellow { t with s := x.tagS, f := x.tagF, head := some i.id }
        { s with cp.items := i' :: s.cp.items.filter fun y => y.id != i.id }

/-- Items queued or held: device-wide and per partition (R340, R364). -/
def queuedItem (i : Item) : Bool := i.metered && (i.stepHeld || i.shares.any fun x => !x.sent)
def queuedAll (s : State) : Nat := (s.cp.items.filter queuedItem).length
def queuedIn (s : State) (p : Nat) : Nat := (s.cp.items.filter fun i => queuedItem i && i.part == p).length

/-- The session handle a descriptor names (R336, R340 step 1): the parent of a FORK from a session is in ARG0. MIGRATE with
FORCE_ADOPT names a session of another device, which R95 resolves. -/
def namedHandle (d : BitVec 512) : Option Nat :=
  let op := dOp d
  if op = 0x02 then (if bit (fld d 17 1) 0 then some (fld d 32 8) else none)
  else if op = 0x05 ∧ bit (fld d 17 1) 0 then none
  else if [0x03, 0x04, 0x05, 0x06, 0x07, 0x21, 0x30, 0x31, 0x50, 0x51, 0x52].contains op then some (fld d 24 8)
  else if op = 0x62 ∧ bit (fld d 18 1) 0 then some (fld d 24 8)
  else none

/-- An item that no unit has leaves Capstan with a record (R360, R361, R402). -/
def dropQueued (i : Item) (st det : Nat) (s : State) : State :=
  let cq := cqOf s i.ring
  let s := setRing cq { ringOf s cq with resv := (ringOf s cq).resv - 1 } (dropItem i.id s)
  let h := (namedHandle i.desc).getD 0
  ringDrainDone cq (ringDrainDone i.ring
    (writeRecord i.ring (dTag i.desc) (dNotify i.desc) st (flIf i.yellow flYellow) 0 0 h det s))

/-- The descriptor still waits in Capstan, in whole or in part: no unit has it. -/
def waiting (s : State) (ring : Nat) (d : BitVec 512) : Bool :=
  s.cp.items.any fun i => i.ring == ring && i.desc == d && !i.preempted && (i.stepHeld || i.shares.any fun x => !x.sent)

/-- What a unit does with a descriptor that Capstan has given it (R340, R353): nothing while the descriptor waits. -/
def atUnit (ring : Nat) (d : BitVec 512) (f : State → State) (s : State) : State := if waiting s ring d then s else f s

/-- Preempted work that Capstan has not granted again. -/
def ungranted (s : State) (ring : Nat) (d : BitVec 512) : Bool :=
  s.cp.items.any fun i => i.ring == ring && i.desc == d && i.shares.any fun x => !x.sent

/-! ### Sleep (R517) -/

def dom0 : Dom := ⟨0, none, false, false⟩
def domOf (s : State) (i : Nat) : Dom := ngetD s.pm.doms i dom0

/-- Power domains a server of a partition runs in (R560). -/
def srvDomains (pl : PartPlan) (srv : Nat) : List Nat :=
  if srv < 4 then (pl.groups.filter fun g => g / 4 == srv).map fun g => 8 * (g / 4) + g % 4
  else if srv < 16 then (if pl.text.any fun e => e / 4 == srv % 4 then [8 * (srv % 4) + 7] else [])
  else if srv = 16 then (pl.adze.map fun e => 8 * (e / 8) + 4).eraseDups
  else []

/-- A domain of the server belongs to a group that drains or sleeps, or is not ready yet: its work is held (R517). -/
def srvAsleep (s : State) (p srv : Nat) : Bool :=
  match partPlan s p with
  | none => false
  | some pl => (srvDomains pl srv).any fun i => s.lay.img.grpDom.any fun g => bit g.2 i &&
      (match nget s.ly.grp g.1 with
       | some x => x.st == 1 || x.st == 2 || (x.st == 3 && !(domOf s i).ready)
       | none => false)

end Sys2Proof.Machine
end

