-- ==== Sys2Proof/Machine/Lathe.lean ====
section
/-! DEFINITION. Lathe (chapter 6): the attention request, staging, the fold over a session's KV, the output, preemption and
its spills, the end of a step (R84, R155-R159, R182-R210). -/

namespace Sys2Proof.Machine

/-! ### Fields of the request (R182, R183) -/

def aCtl (d : BitVec 512) : Nat := fld d 17 1
def aLast (d : BitVec 512) : Bool := bit (aCtl d) 0
def aVerify (d : BitVec 512) : Bool := bit (aCtl d) 1
def aTree (d : BitVec 512) : Bool := bit (aCtl d) 2
def aQfmt (d : BitVec 512) : Nat := bits (fld d 18 1) 1 0
def aNewFmt (d : BitVec 512) : Nat := bits (fld d 18 1) 3 2
def aOfmt (d : BitVec 512) : Nat := bits (fld d 18 1) 4 4
def aRows (d : BitVec 512) : Nat := fld d 19 1
def aGq (d : BitVec 512) : Nat := fld d 20 1
def aLayer (d : BitVec 512) : Nat := fld d 22 2
def aHandle (d : BitVec 512) : Nat := fld d 24 8
def aIn (d : BitVec 512) : Nat := fld d 32 8
def aOut (d : BitVec 512) : Nat := fld d 40 8
def aScale (d : BitVec 512) : Nat := fld d 48 4
def aWindow (d : BitVec 512) : Nat := fld d 52 4
def aBase (d : BitVec 512) : Nat := fld d 56 2
def aStep (d : BitVec 512) : Nat := fld d 58 2

def esz (fmt : Nat) : Nat := if fmt = 0 then 2 else 1
def up64 (n : Nat) : Nat := ceilDiv n 64 * 64

/-- Sizes of the Q, K_NEW (and V_NEW) and PARENT regions for `rows` rows. -/
def qBytes (d : BitVec 512) (pol : BitVec 512) (rows : Nat) : Nat := rows * pHeads pol * aGq d * pHd pol * esz (aQfmt d)
def kBytes (d : BitVec 512) (pol : BitVec 512) (rows : Nat) : Nat := rows * pHeads pol * pHd pol * esz (aNewFmt d)

/-- Bytes of the whole input payload (R183). -/
def inBytes (d : BitVec 512) (pol : BitVec 512) : Nat :=
  up64 (qBytes d pol (aRows d)) + 2 * up64 (kBytes d pol (aRows d)) + (if aTree d then 2 * aRows d else 0)

/-- Bytes of the output (R184). -/
def outLen (d : BitVec 512) (pol : BitVec 512) : Nat :=
  aRows d * pHeads pol * aGq d * pHd pol * (if aOfmt d = 0 then 2 else 4)

/-- Positive and finite FP32. -/
def posFinite (b : Nat) : Bool := f32Finite b && !bit b 31 && b != 0

/-- The descriptor is well formed for a policy (R182, R185); FILL leaves out what it does not share. -/
def attendForm (d : BitVec 512) (pol : BitVec 512) : Bool :=
  aQfmt d ≤ 1 && aNewFmt d ≤ 1 && fld d 18 1 < 32 && 1 ≤ aGq d && aGq d ≤ 16 && fld d 21 1 == 0 && aLayer d < pLayers pol &&
  posFinite (aScale d) && aIn d % 64 == 0 && aIn d < billetEnd && aOut d % 64 == 0 && policyGeom pol && pHeads pol * aGq d ≤ 128

def attendOk (d : BitVec 512) (pol : BitVec 512) : Bool :=
  attendForm d pol && aCtl d < 8 && 1 ≤ aRows d && aRows d ≤ 64 && fld d 60 4 == 0 && aBase d ≤ 8191

/-! ### A step's staged rows (R186, R187) -/

def step0 (serial : Nat) : Step :=
  { serial := serial, rows := 0, last := false, verify := false, cancel := false, deadline := none, degraded := false,
    noSpec := false, preempted := false, staged := [], newBlks := [], shadowed := [], accept := none, failed := false,
    tree := false, redo := [], reported := [] }

/-- Rows a layer has staged. -/
def stagedRows (st : Step) (l : Nat) : Nat := ((st.staged.filter fun g => g.layer == l).map (·.rows)).foldl (· + ·) 0

/-- Parents of a layer's staged rows, by staging index. -/
def stagedPar (st : Step) (l : Nat) : List Nat := ((st.staged.filter fun g => g.layer == l).map (·.par)).flatten

/-- Stored bytes of staged row k's vector in segment g of a layer. -/
def stagedVec (st : Step) (l g k : Nat) : List Byte :=
  match st.staged.find? fun x => x.layer == l && x.base ≤ k && k < x.base + x.rows with
  | some x => ((x.bytes.getD (k - x.base) []).getD g [])
  | none => []

/-- Longest context (R185). -/
def maxContext (pol : BitVec 512) : Nat := 128 * (67108864 / pLayers pol)

/-- Parents a request gives its rows: chain steps are i - 1 (R186). -/
def reqParents (s : State) (d : BitVec 512) (pol : BitVec 512) : List Nat :=
  if aTree d then
    let a := aIn d + up64 (qBytes d pol (aRows d)) + 2 * up64 (kBytes d pol (aRows d))
    (List.range (aRows d)).map fun r => rdNat s (a + 2 * r) 2
  else (List.range (aRows d)).map fun r => if aBase d + r = 0 then 0xFFFF else aBase d + r - 1

/-- What a request adds to a step keeps R186 and the limits of R185. -/
def stageOk (d : BitVec 512) (pol : BitVec 512) (st : Step) (par : List Nat) (tokens : Nat) : Bool :=
  let rows := aRows d
  let all := stagedPar st (aLayer d) ++ par
  aBase d == stagedRows st (aLayer d) &&
  (st.staged == [] || st.tree == aTree d) &&
  (enum0 par).all (fun e => e.2 == 0xFFFF || e.2 < aBase d + e.1) &&
  (aBase d + rows ≤ if aTree d then 64 else 8192) &&
  (!aTree d || (List.range rows).all fun r => rowDepth all 17 (aBase d + r) ≤ 15) &&
  (aLayer d == 0 || (aBase d + rows ≤ stagedRows st 0 && ((stagedPar st 0).drop (aBase d)).take rows == par)) &&
  tokens + aBase d + rows ≤ maxContext pol

/-- Encodes the new K/V of a request's rows (R157): per row, per segment, in the format of the block the row joins; and
whether any input was not finite (R144). -/
def encodeRows (d : BitVec 512) (pol : BitVec 512) (rows : Nat) (k v : List Byte) (fmtOf : Nat → Nat) : List (List (List Byte)) × Bool :=
  let hd := pHd pol
  let sz := hd * esz (aNewFmt d)
  let one (bs : List Byte) (r h : Nat) : List Dy × Bool := rawVec (aNewFmt d) hd ((bs.drop ((r * pHeads pol + h) * sz)).take sz)
  let all := (List.range rows).map fun r => ((List.range (pHeads pol)).map fun h => [(r, one k r h), (r, one v r h)]).flatten
  (all.map fun row => row.map fun e => kvEnc (fmtOf e.1) e.2.1, all.any fun row => row.any fun e => e.2.2)

/-- Bytes of K_NEW and V_NEW at IN. -/
def newKv (s : State) (d : BitVec 512) (pol : BitVec 512) : List Byte × List Byte :=
  let a := aIn d + up64 (qBytes d pol (aRows d))
  let n := kBytes d pol (aRows d)
  (rdBytes s a n, rdBytes s (a + up64 n) n)

/-- Blocks (entry indices) that positions up to `pos` need in a layer and that neither the table nor the step holds. -/
def wantEntries (x : Slot) (st : Step) (base l lo hi : Nat) : List Nat :=
  (((List.range (hi / 128 + 1)).filter fun b => lo / 128 ≤ b).map fun b => (b - base) * pLayers x.policy + l).filter fun e =>
    x.blks.length ≤ e && !(st.newBlks.any fun y => y.1 == e)

/-- Takes staging pages for new block entries (R83, R110, R114). -/
def openBlks (n : Nat) (x : Slot) : List Nat → State → Option (List (Nat × Blk) × State)
  | [], s => some ([], s)
  | e :: r, s =>
    let k := blkPages x.policy (fmtAt x (entB x e))
    match takeT1 x.part n x.gen k .staging (homeOrder (maskOf s x.part 0 (pMask x.policy)) (entB x e) (entL x e)) s with
    | none => none
    | some (f, s) =>
      match openBlks n x r s with
      | none => none
      | some (l, s) => some ((e, ⟨1, false, k - 1, f, false, none, none, gensOf s f k⟩) :: l, s)

/-- Logs an event once per session and step. -/
def onceStep (e : Ev) (n : Nat) (s : State) : State :=
  let x := slotOf s n
  match x.step with
  | some st =>
    if st.reported.contains e then s
    else evt e (hitchReq s x.part) (handleOf n x) (putSlot n { x with step := some { st with reported := st.reported ++ [e] } } s)
  | none => s

/-! ### The fold over a session (R187, R191-R198) -/

/-- What a rank folds: the slot, the first block index its table holds, the committed positions held here, the whole
committed length, late entries with the shadows read in their place. -/
structure AView where
  x    : Slot
  base : Nat
  lo   : Nat
  hi   : Nat
  tok  : Nat
  late : NMap (List Byte)

def plainView (x : Slot) : AView := ⟨x, 0, 0, x.tokens, x.tokens, []⟩

def vBlk (v : AView) (e : Nat) : Blk := v.x.blks.getD e ⟨1, false, 0, 0, false, none, none, []⟩

def vEntry (v : AView) (l b : Nat) : Nat := (b - v.base) * pLayers v.x.policy + l

/-- Decoded committed vector: segment g, position p of layer l. -/
def kvVec (s : State) (v : AView) (l g p : Nat) : Dec :=
  blkVec s v.x (vEntry v l (p / 128)) (vBlk v (vEntry v l (p / 128))) g (p % 128)

/-- Pooled vector j of a late block (R161, R198). -/
def poolVec (v : AView) (e g j : Nat) : List Dy :=
  let hd := pHd v.x.policy
  (((ngetD v.late e []).drop ((g * 8 + j) * hd)).take hd).map fun b => f8Val b.toNat

/-- Committed tokens that pooled position j of block b covers. -/
def poolCount (v : AView) (b j : Nat) : Nat := min 16 (min v.hi (128 * b + 128) - (128 * b + 16 * j))

/-- One row of a request as the fold sees it: its position, its path of staged rows with their positions, its window. -/
structure ARow where
  pos  : Nat
  path : List (Nat × Nat)
  w    : Nat

def rowLo (r : ARow) : Nat := if r.w = 0 then 0 else r.pos + 1 - r.w

/-- Visible positions of a unit for one row and query head, with the saturation count of their scores (R187, R191, R198). -/
def seenUnit (s : State) (v : AView) (st : Step) (l h scale : Nat) (q : List Dy) (r : ARow) (u : Nat) : List Seen × Nat :=
  let hd := pHd v.x.policy
  let mk (i w : Nat) (k vv : List Dy) : Seen × Nat := (let sc := score q k scale; (⟨i, sc.1, w, vv⟩, sc.2))
  let e := vEntry v l u
  let inRow (p : Nat) : Bool := rowLo r ≤ p && p ≤ r.pos
  let com :=
    if (nget v.late e).isSome then
      ((List.range 8).filter fun j => v.lo ≤ 128 * u + 16 * j && 128 * u + 16 * j < v.hi && inRow (128 * u + 16 * j)).map fun j =>
        mk j (poolCount v u j) (poolVec v e (2 * h) j) (poolVec v e (2 * h + 1) j)
    else
      ((List.range 128).filter fun i => v.lo ≤ 128 * u + i && 128 * u + i < v.hi && inRow (128 * u + i)).map fun i =>
        mk i 1 (kvVec s v l (2 * h) (128 * u + i)).v (kvVec s v l (2 * h + 1) (128 * u + i)).v
  let own := (r.path.filter fun e => e.2 / 128 == u && inRow e.2).map fun e =>
    let f := fmtAt v.x (u - v.base)
    mk (e.2 % 128) 1 (kvDec f hd (stagedVec st l (2 * h) e.1)).v (kvDec f hd (stagedVec st l (2 * h + 1) e.1)).v
  let all := com ++ own
  (all.map (·.1), (all.map (·.2)).foldl (· + ·) 0)

/-- A query vector of the Q region: row r, query head h; and whether an element was not finite (R191). -/
def qVec (d : BitVec 512) (pol : BitVec 512) (q : List Byte) (r h : Nat) : List Dy × Bool :=
  let sz := pHd pol * esz (aQfmt d)
  rawVec (aQfmt d) (pHd pol) ((q.drop ((r * pHeads pol * aGq d + h) * sz)).take sz)

/-- Units a set of rows can see, among those held here and those staged here. -/
def unitsOf (v : AView) (rows : List ARow) (lo hi : Nat) : List Nat :=
  let top := rows.foldl (fun t r => max t (r.pos / 128 + 1)) 0
  (List.range top).filter fun u =>
    lo ≤ u && u < hi &&
    ((v.lo < v.hi && v.lo / 128 ≤ u && u ≤ (v.hi - 1) / 128) || rows.any fun r => r.path.any fun e => e.2 / 128 == u)

/-- The states of a request's rows over the given units, row by row, query head by query head. -/
def foldStates (s : State) (v : AView) (st : Step) (d : BitVec 512) (q : List Byte) (rows : List ARow) (units : List Nat) :
    List (LSt × Nat) :=
  let pol := v.x.policy
  ((enum0 rows).map fun r => (List.range (pHeads pol * aGq d)).map fun h =>
    let qv := (qVec d pol q r.1 h).1
    let see := seenUnit s v st (aLayer d) (h / aGq d) (aScale d) qv r.2
    let a := stages (pHd pol) units (fun u => (see u).1)
    (a.1, a.2 + (units.map fun u => (see u).2).foldl (· + ·) 0)).flatten

/-- The rows of a request with their positions and ancestors (R187). -/
def aRowsOf (d : BitVec 512) (tok : Nat) (par : List Nat) (base rows : Nat) : List ARow :=
  (List.range rows).map fun r =>
    let i := base + r
    let n := par.length + 1
    ⟨tok + rowDepth par n i, (rowPath par n i).map (fun k => (k, tok + rowDepth par n k)), aWindow d⟩

/-- Whether decoding any committed vector the rows read saturates, or meets a bad outlier index (R152). -/
def decodeFlags (s : State) (v : AView) (l : Nat) (rows : List ARow) (units : List Nat) : Bool × Bool :=
  let ps := (units.filter fun u => (nget v.late (vEntry v l u)).isNone).map fun u =>
    ((List.range 128).map fun i => 128 * u + i).filter fun p => v.lo ≤ p && p < v.hi && rows.any fun r => rowLo r ≤ p && p ≤ r.pos
  let ds := ps.flatten.map fun p => (List.range (2 * pHeads v.x.policy)).map fun g => kvVec s v l g p
  (ds.flatten.any (·.sat), ds.flatten.any (·.bad))

/-- A block read by the fold that holds poison (R208). -/
def poisonedEntry (s : State) (v : AView) (l : Nat) (rows : List ARow) (units : List Nat) : Option Nat :=
  let us := units.filter fun u => v.lo < v.hi && v.lo / 128 ≤ u && u ≤ (v.hi - 1) / 128 &&
    rows.any fun r => rowLo r < 128 * u + 128 && 128 * u ≤ r.pos
  ((us.map (vEntry v l)).filter fun e => (nget v.late e).isNone).find? fun e => poisoned s ((vBlk v e).addr * 65536) (entBytes v.x e)

/-! ### Requests inside Lathe (R206) -/

def areqOf (s : State) (ring : Nat) (d : BitVec 512) : Option AReq := s.la.reqs.find? fun r => r.ring == ring && r.desc == d

def putAreq (r : AReq) (s : State) : State :=
  { s with la.reqs := s.la.reqs.map fun x => if x.ring == r.ring && x.desc == r.desc then r else x }

/-- Removes a request, its spills and its share of the engines. -/
def dropAreq (r : AReq) (s : State) : State :=
  let s := { s with la.reqs := s.la.reqs.filter fun x => !(x.ring == r.ring && x.desc == r.desc)
                    la.spills := s.la.spills.filter fun x => !(x.ring == r.ring && x.desc == r.desc) }
  dmaDrop r.ring r.desc none (r.engs.foldl (fun s e => engDone 6 e s) s)

/-- A request ends with a status and no output. -/
def endAreq (r : AReq) (st det : Nat) (s : State) : State :=
  complete r.ring r.desc st r.fl 0 0 (aHandle r.desc) det (dropAreq r s)

/-- Engines of a Lathe group 4d + g: the 16 active ones, then its spare where it substitutes (R209). -/
def groupEngines (s : State) (g : Nat) : List Nat :=
  ((List.range 16).map fun i => 16 * g + i) ++ (if (engOf s 6 (256 + g)).serves = 256 + g then [] else [256 + g])

/-- An engine of the partition on a die (R206, R379): the first enabled. -/
def latheOn (s : State) (p die : Nat) : Option Nat :=
  match partPlan s p with
  | none => none
  | some pl => engFree s 6 (((pl.groups.filter fun g => g / 4 == die).map (groupEngines s)).flatten)

/-- Group of a Lathe engine. -/
def engGroup (e : Nat) : Nat := if e < 256 then e / 16 else e - 256

/-- Dies that hold the units a request folds. -/
def diesOf (s : State) (v : AView) (st : Step) (l : Nat) (units : List Nat) : List Nat :=
  (units.map fun u =>
    let e := vEntry v l u
    let b := match v.x.blks[e]? with
      | some b => if b.tier = 1 then b.addr else ((homeOrder (maskOf s v.x.part 0 (pMask v.x.policy)) u l).head?.getD 0) * 0xC0000
      | none => ((st.newBlks.find? fun y => y.1 == e).map (·.2.addr)).getD 0
    dieOfStack (stackOf (b * 65536))).eraseDups

/-- Passes of a lane's state between dies (R197): of the units of each lane in fold order, the neighbours on different dies, for
each row and query head. -/
def chainHops (s : State) (v : AView) (st : Step) (d : BitVec 512) (rows : List ARow) (units : List Nat) : Nat :=
  let dieOne (u : Nat) : Nat := ((diesOf s v st (aLayer d) [u]).head?).getD 0
  let lane (r : ARow) (j : Nat) : Nat :=
    let l := ((units.filter fun u => u % 64 == j && (unitsOf v [r] 0 (2 ^ 32)).contains u)).map dieOne
    ((l.zip (l.drop 1)).filter fun e => e.1 != e.2).length
  ((rows.map fun r => ((List.range 64).map (lane r)).foldl (· + ·) 0).foldl (· + ·) 0) * pHeads v.x.policy * aGq d

/-- Counts them. -/
def countHops (v : AView) (st : Step) (d : BitVec 512) (rows : List ARow) (s : State) : State :=
  ctrAdd .LG_CHAIN_HOP_CNT 0 v.x.part (chainHops s v st d rows (unitsOf v rows 0 (2 ^ 32))) s

/-- Engines for every die, or none where one has no enabled engine (R379). -/
def enginesFor (s : State) (p : Nat) : List Nat → Option (List Nat)
  | [] => some []
  | d :: r => match latheOn s p d, enginesFor s p r with
    | some e, some l => some (e :: l)
    | _, _ => none

/-! ### Serving a request -/

/-- Stages the request's rows on the session's step: pages for new blocks and the encoded K/V (R157, R186). Answers none
where a page is wanting. -/
def stageRows (n : Nat) (d : BitVec 512) (base : Nat) (par : List Nat) (k v : List Byte) (tok : Nat) (s : State) : Option State :=
  let x := slotOf s n
  let st := x.step.getD (step0 (aStep d))
  let l := aLayer d
  let all := stagedPar st l ++ par
  let pos := (List.range (aRows d)).map fun r => tok + rowDepth all (all.length + 1) (aBase d + r)
  let hi := pos.foldl max tok
  match openBlks n x (wantEntries x st base l (tok - tok % 128) hi) s with
  | none => none
  | some (nb, s) =>
    let enc := encodeRows d x.policy (aRows d) k v (fun r => fmtAt x ((pos.getD r tok) / 128 - base))
    let g : Staged := ⟨l, aBase d, aRows d, par, enc.1⟩
    let st := { st with staged := st.staged ++ [g], newBlks := st.newBlks ++ nb, rows := max st.rows (aBase d + aRows d),
                        tree := aTree d }
    let s := ctrAdd .LA_STAGED_BYTES 0 x.part (2 * kBytes d x.policy (aRows d)) (putSlot n { x with step := some st } s)
    some (if enc.2 then onceStep Ev.KV_NONFINITE n s else s)

/-- A poisoned block: the session's, or a tree node's (R208). -/
def poisonStop (ring : Nat) (d : BitVec 512) (n e : Nat) (s : State) : State :=
  let x := slotOf s n
  let b := e / pLayers x.policy
  let s := ctr .LA_POISON_CNT x.part s
  if b < x.chunks then
    match (heldPath s x)[b]? with
    | some nd =>
      let s := evt Ev.ATTN_SHARED_POISON (hitchReq s x.part) (nodeId x.part nd.1 nd.2) s
      complete ring d stFaultStateLost 0 0 0 (aHandle d) 0 (doom x.part (below s x.part nd.1) s)
    | none => complete ring d stFaultStateLost 0 0 0 (aHandle d) 0 s
  else complete ring d stFaultStateLost 0 0 0 (aHandle d) 0 (faultSlot n 2 false s)

/-- Counts and logs what a fold met (R152, R191, R209). -/
def foldNotes (n : Nat) (d : BitVec 512) (v : AView) (rows : List ARow) (units : List Nat) (sat : Nat) (q : List Byte) (s : State) : State :=
  let p := v.x.part
  let nonf := (List.range (aRows d)).any fun r => (List.range (pHeads v.x.policy * aGq d)).any fun h => (qVec d v.x.policy q r h).2
  let fl := decodeFlags s v (aLayer d) rows units
  let late := units.filter fun u => (nget v.late (vEntry v (aLayer d) u)).isSome
  let s := ctrAdd .LA_UNIT_CNT 0 p units.length (ctrAdd .LA_ROW_CNT 0 p (aRows d) (ctr .LA_REQ_CNT p s))
  let s := ctrAdd .LA_KV_BYTES 0 p ((units.map fun u => blkBytes v.x.policy (fmtAt v.x (u - v.base))).foldl (· + ·) 0) s
  let s := ctrAdd .LA_SHADOW_UNIT_CNT 0 p late.length s
  let s := if sat = 0 then s else onceStep Ev.ATTN_SATURATED n (ctrAdd .LA_SAT_CNT 0 p sat s)
  let s := if nonf then onceStep Ev.ATTN_NONFINITE n (ctr .LA_NONFINITE_CNT p s) else s
  let s := if fl.1 then onceStep Ev.KV_DECODE_SATURATED n s else s
  if fl.2 then onceStep Ev.KV_BAD_OUTLIER n s else s

/-- Folds a staged request of a single-device session and leaves it waiting for its output's acknowledgement (R206). -/
def serveFold (ring : Nat) (d : BitVec 512) (n : Nat) (v : AView) (fl : Nat) (s : State) : State :=
  let st := (slotOf s n).step.getD (step0 (aStep d))
  let pol := v.x.policy
  let q := rdBytes s (aIn d) (qBytes d pol (aRows d))
  let rows := aRowsOf d v.tok (stagedPar st (aLayer d)) (aBase d) (aRows d)
  let units := unitsOf v rows 0 (2 ^ 32)
  match poisonedEntry s v (aLayer d) rows units with
  | some e => poisonStop ring d n e s
  | none =>
    match enginesFor s v.x.part (diesOf s v st (aLayer d) units) with
    | none => complete ring d stRefusedCapacity fl 0 0 (aHandle d) hintNever s
    | some engs =>
      let a := foldStates s v st d q rows units
      let out := (a.map fun e => outBytes (pHd pol) (aOfmt d) e.1).flatten
      let s := countHops v st d rows (foldNotes n d v rows units ((a.map (·.2)).foldl (· + ·) 0) q s)
      let s := if isHost (aOut d) then dmaAdd ring d none s else s
      let s := engs.foldl (fun s e => engTake 6 e s) s
      { s with la.reqs := s.la.reqs ++ [⟨ring, d, n, v.x.part, .running, engs, out, fl, now s⟩] }

/-- The session as its step sees it (R89, R128, R129): the blocks that were late at the deadline by their shadows to the step's
end, whenever they land; while the revive runs, the other blocks where it has put them in T1. -/
def stepView (s : State) (n : Nat) : AView :=
  let x := slotOf s n
  let late := match x.step with | some st => st.shadowed | none => []
  match moveOf s n with
  | some m => ⟨{ x with blks := switchBlks x.blks (m.dst.filter fun e => (nget late e.1).isNone) }, 0, 0, x.tokens, x.tokens, late⟩
  | none => ⟨x, 0, 0, x.tokens, x.tokens, late⟩

/-- Master ID of Lathe for partition p: its first group. -/
def latheReq (s : State) (p : Nat) : Req :=
  unitReq (BitVec.ofNat 8 (match partPlan s p with | some pl => pl.groups.head?.getD 0 | none => 0)) p

/-- The request's payload and output can be reached, and the payload holds no poison (R35, R208, R586). -/
def attendReach (s : State) (q : Req) (d : BitVec 512) (pol : BitVec 512) : Verdict :=
  let v := inCheck s q (aIn d) (inBytes d pol)
  if v.st ≠ 0 then v
  else anyCheck s q .wr (aOut d) (if dSealed d && isHost (aOut d) then sealedLen (outLen d pol) else outLen d pol)

/-- A request that the current step takes: checked, staged, folded (R186, R206). -/
def attendInStep (ring : Nat) (d : BitVec 512) (n p : Nat) (v : AView) (fl : Nat) (s : State) : State :=
  let x := slotOf s n
  let st := x.step.getD (step0 (aStep d))
  let bad (s : State) : State := complete ring d stFaultContext 0 0 0 (aHandle d) 0 s
  if !attendOk d x.policy then bad s
  else if aVerify d && !genOpenNow s n then
    complete ring d (noGenStatus s n (aHandle d)) 0 0 0 (aHandle d) 0 (failStep n s)     -- R282
  else
    let q := latheReq s p
    let c := attendReach s q d x.policy
    if c.st ≠ 0 then complete ring d c.st 0 0 0 (aHandle d) c.det (inFail q (aIn d) c s)
    else
      let par := reqParents s d x.policy
      let again := st.redo.contains (aLayer d, aBase d)
      if again then
        let s := putSlot n { x with step := some { st with redo := st.redo.filter (· != (aLayer d, aBase d)) } } s
        serveFold ring d n v fl s
      else if !stageOk d x.policy st par x.tokens then bad s
      else
        let kv := newKv s d x.policy
        match stageRows n d 0 par kv.1 kv.2 x.tokens s with
        | some s => serveFold ring d n v fl s
        | none =>
          let l := wantEntries x st 0 (aLayer d) (x.tokens - x.tokens % 128) (x.tokens + aBase d + aRows d)
          wantPages ring d p n (maskOf s p 0 (pMask x.policy)) ((l.map fun e => blkPages x.policy (fmtAt x (entB x e))).foldl (· + ·) 0)
            (aHandle d) s

/-- The step serial has already ended (R84, R188): it lies in the half of the serial space up to the last ended one. -/
def stepEnded (x : Slot) (serial : Nat) : Bool :=
  match x.lastSerial with | some k => (k + 65536 - serial) % 65536 < 32768 | none => false

/-- The first request of a step on an ACTIVE session: STEPPING (R83, R84). -/
def attendFirst (ring : Nat) (d : BitVec 512) (n p : Nat) (fl : Nat) (s : State) : State :=
  let x := slotOf s n
  if stepEnded x (aStep d) then complete ring d stFaultContext 0 0 0 (aHandle d) 0 s
  else
    let dl := if pDeadline x.policy = 0 then none else some (now s + 1000 * pDeadline x.policy)
    let st := { step0 (aStep d) with deadline := dl }
    let s := commitSlot n { x with st := .stepping, step := some st, stepAt := none } (ctr .HT_STEP_ADMIT_CNT p s)
    attendInStep ring d n p (plainView (slotOf s n)) fl s

/-- Holds a step's request on its slot (R87, R89). -/
def holdStep (ring : Nat) (d : BitVec 512) (n : Nat) (s : State) : State :=
  let x := slotOf s n
  holdCmd ring d n (putSlot n { x with stepAt := some (x.stepAt.getD (now s)) } s)

/-- A step that must first bring its session in (R83, R85); the first step served then carries REVIVED. -/
def attendParked (ring : Nat) (d : BitVec 512) (n p : Nat) (s : State) : State :=
  let x := slotOf s n
  if !pAutoRevive x.policy then hrefuse ring d p (aHandle d) hintNever s
  else match x.st with
    | .parkedHot => attendFirst ring d n p flRevived (commitSlot n { x with st := .active } s)
    | _ =>
      if moveFull s then hrefuseEst ring d p (aHandle d) s
      else match beginIn n x (maskOf s p 0 (pMask x.policy)) none s with
        | some s => holdStep ring d n (putSlot n { slotOf s n with revived := true } s)
        | none => wantPages ring d p n (maskOf s p 0 (pMask x.policy)) (needIn x) (aHandle d) s

/-- A step on a session at rest or stepping (R83-R87). -/
def attendAt (ring : Nat) (d : BitVec 512) (n p : Nat) (s : State) : State :=
  let x := slotOf s n
  match x.st, x.step with
  | .active, _ =>
    let fl := if x.revived then flRevived else 0
    attendFirst ring d n p fl (putSlot n { x with revived := false } s)
  | .stepping, some st =>
    if aStep d = st.serial then
      if st.cancel then complete ring d stCancelledBefore 0 0 0 (aHandle d) 0 (ctr .LA_CANCEL_CNT p s)
      else attendInStep ring d n p (stepView s n) (if st.degraded then flDegraded else 0) s
    else if stepEnded x (aStep d) then complete ring d stFaultContext 0 0 0 (aHandle d) 0 s
    else holdCmd ring d n s
  | .moving, some st =>
    -- a step that runs at its deadline (R89)
    if aStep d = st.serial then attendInStep ring d n p (stepView s n) (if st.degraded then flDegraded else 0) s
    else if stepEnded x (aStep d) then complete ring d stFaultContext 0 0 0 (aHandle d) 0 s
    else holdCmd ring d n s
  | _, _ => attendParked ring d n p s

/-- An ATTEND for a session that no ring context holds (R206). -/
def attendPlain (ring : Nat) (d : BitVec 512) (n p : Nat) (s : State) : State :=
  let x := slotOf s n
  match x.st, x.dir with
  | .moving, .migrate => hrefuseEst ring d p (aHandle d) s
  | .moving, .inn => if x.step.isSome then attendAt ring d n p s else holdStep ring d n s
  | .moving, _ => attendAt ring d n p (endMove n stCancelledBefore 0 s)
  | _, _ => attendAt ring d n p s

/-- What every attention request meets first (R209, R370, R587). -/
def latheEntry (op ring : Nat) (d : BitVec 512) (f : Nat → State → State) (s : State) : State :=
  match ringPart s ring with
  | none => finish ring d stRefusedCapacity hintNever s
  | some p =>
    if dOp d ≠ op then hbad ring d 0 s
    else if bit (rg s .LA_CTL) 0 then finish ring d stRefusedCapacity hintNever s
    else f p s

/-! ### The output, preemption, spills -/

/-- Every output byte is acknowledged (R184, R206): the record is written; LAST marks the step. -/
def attendAckOp (ring : Nat) (d : BitVec 512) (s : State) : State :=
  match areqOf s ring d with
  | none => s
  | some r =>
    if r.st ≠ .running then s
    else
      let x := slotOf s r.slot
      let s := match x.step with
        | some st =>
          if st.serial = aStep d ∧ aLast d then putSlot r.slot { x with step := some { st with last := true, verify := aVerify d } } s else s
        | none => s
      complete ring d stDone r.fl 0 0 (aHandle d) 0 (writeOutput d (aOut d) r.out (dropAreq r s))

/-- Billet spill area and pool of a partition, KiB in use and pages in use (R210). -/
def spillKib (s : State) (p : Nat) : Nat := ((s.la.spills.filter fun x => x.part == p && x.billet).map (·.kib)).foldl (· + ·) 0
def spillPages (s : State) (p : Nat) : Nat :=
  ((s.la.spills.filter fun x => x.part == p && !x.billet).map fun x => ceilDiv x.kib 64).foldl (· + ·) 0

def spillSize (s : State) (p : Nat) : Nat := match partPlan s p with | some pl => pl.spillKib | none => 0

/-- KiB of a request's lane states on one group: 64 lanes per row and query head, bounded by the group's scratch (R199, R203;
log 20). -/
def laneKib (r : AReq) (pol : BitVec 512) : Nat :=
  min (16 * 256) (ceilDiv (aRows r.desc * pHeads pol * aGq r.desc * 64 * (pHd pol + 2) * 4) 1024)

/-- Places a spill record in the Billet area if it has room, else in the T1 spill pool (R202). -/
def spillPut (r : AReq) (g : Nat) (s : State) : State :=
  let k := laneKib r (slotOf s r.slot).policy
  let b := spillKib s r.part + k ≤ spillSize s r.part
  ctr (if b then .LG_SPILL_BILLET_CNT else .LG_SPILL_POOL_CNT) r.part
    { s with la.spills := s.la.spills ++ [⟨r.ring, r.desc, r.part, g, b, k⟩] }

/-- Preempts one request on a group (R201-R203): unbegun slices are abandoned, states spilled, engines released. -/
def preemptReq (g : Nat) (r : AReq) (s : State) : State :=
  let s := ctrAdd .LA_ABANDON_UNIT_CNT 0 r.part 1 (ctr .LG_PREEMPT_CNT r.part s)
  let s := r.engs.foldl (fun s e => engDone 6 e s) (spillPut r g s)
  let s := requeueItem r.ring r.desc (g / 4) s
  putAreq { r with st := .preempted, engs := [], fl := r.fl ||| flPreempted } s

/-- LATHE_PREEMPT on group g (R201); ignored while LG_PREEMPT_CTL.ENABLE is 0 (R210). -/
def preemptOp (g ns : Nat) (s : State) : State :=
  if !bit (rg s .LG_PREEMPT_CTL) 0 then s
  else
    let hit := s.la.reqs.filter fun r => r.st == .running && r.engs.any fun e => engGroup e == g
    let s := hit.foldl (fun s r => preemptReq g r s) s
    if hit = [] then s else ctrMax .LG_PREEMPT_MAX_NS 16 ns s

/-- LATHE_RESUME (R204): engines of the same dies and partition are granted; the spills are read back and freed. -/
def resumeOp (ring : Nat) (d : BitVec 512) (s : State) : State :=
  match areqOf s ring d with
  | none => s
  | some r =>
    if r.st ≠ .preempted ∨ ungranted s ring d then s
    else
      let gs := (s.la.spills.filter fun x => x.ring == ring && x.desc == d).map (·.group)
      match enginesFor s r.part (gs.map (· / 4)).eraseDups with
      | none => s
      | some engs =>
        let s := engs.foldl (fun s e => engTake 6 e s) (ctr .LG_RESUME_CNT r.part s)
        putAreq { r with st := .running, engs := engs }
          { s with la.spills := s.la.spills.filter fun x => !(x.ring == ring && x.desc == d) }

/-- Moves the oldest Billet records to the pool until the free space reaches the threshold (R202). -/
def spillDown (p : Nat) : Nat → State → State
  | 0, s => s
  | n + 1, s =>
    if rg s .LG_SPILL_LOW p ≤ spillSize s p - spillKib s p then s
    else match s.la.spills.find? fun x => x.part == p && x.billet with
      | none => s
      | some x =>
        spillDown p n (ctr .LG_SPILL_MOVE_CNT p
          { s with la.spills := s.la.spills.map fun y => if y == x then { y with billet := false } else y })

/-- Within 2 us of a step's cancel bit its requests complete CANCELLED_BEFORE_COMMIT (R205). -/
def cancelReqs (n : Nat) (s : State) : State :=
  (s.la.reqs.filter fun r => r.slot == n).foldl (fun s r => endAreq r stCancelledBefore 0 (ctr .LA_CANCEL_CNT r.part s)) s

/-- Lathe's part of an engine's ABORT or fence (R206, R207). -/
def latheAbort (e : Nat) (s : State) : State :=
  let hit := s.la.reqs.filter fun r => r.engs.contains e ||
    (s.la.spills.any fun x => x.ring == r.ring && x.desc == r.desc && x.group == engGroup e)
  hit.foldl (fun s r => endAreq r stFaultContext 0 s) s

/-- A fenced engine's lanes restart from their first unit on other engines (R206). -/
def latheFence (e : Nat) (s : State) : State :=
  let hit := s.la.reqs.filter fun r => r.engs.contains e
  hit.foldl (fun s r =>
    let die := (if e < 256 then e / 64 else (e - 256) / 4)
    let s := engDone 6 e (ctr .LA_RESTART_CNT r.part s)
    let keep := r.engs.filter (· != e)
    match latheOn s r.part die with
    | some k => putAreq { r with engs := keep ++ [k] } (engTake 6 k s)
    | none => endAreq { r with engs := keep } stRefusedCapacity hintNever s) s

/-! ### The end of a step (R84, R155, R158, R188) -/

/-- Converts a block that leaves the window into new pages (R155); none where a page is wanting. -/
def convertBlk (n : Nat) (x : Slot) (e : Nat) (b : Blk) (s : State) : Option (Blk × State) :=
  let pol := x.policy
  let hd := pHd pol
  let k := blkPages pol (pBody pol)
  match takeT1 x.part n x.gen k .allocated (homeOrder (maskOf s x.part 0 (pMask pol)) (entB x e) (entL x e)) s with
  | none => none
  | some (f, s) =>
    let sz := segBytes (pBody pol) hd
    let put (m : List Host.Cell) (g t : Nat) : List Host.Cell :=
      let v := (blkVec s x e b g t).v
      (segPatch (fun i => memGet m (f * 65536 + g * sz + i)) (pBody pol) hd t (kvEnc (pBody pol) v)).foldl
        (fun m w => memWrite m (f * 65536 + g * sz + w.1) w.2) m
    let m := (List.range (2 * pHeads pol)).foldl (fun m g => (List.range 128).foldl (fun m t => put m g t) m) s.mem
    let s := releaseBlk x.part n x.gen b (ctr .HT_WINDOW_CONVERT_CNT x.part { s with mem := m })
    some ({ b with npages := k - 1, addr := f, shr := false, pgen := gensOf s f k }, s)

/-- Converts each block of a list of entries. -/
def convertAll (n : Nat) (x : Slot) : List Nat → List Blk → State → Option (List Blk × State)
  | [], bl, s => some (bl, s)
  | e :: r, bl, s =>
    match bl[e]? with
    | none => convertAll n x r bl s
    | some b =>
      match convertBlk n x e b s with
      | none => none
      | some (b', s) => convertAll n x r (bl.set e b') s

/-- Entries whose block becomes a body block when TOKENS grows from x's to `tok` (R153, R155). -/
def leaving (x : Slot) (tok : Nat) : List Nat :=
  if pBody x.policy = pWin x.policy then []
  else
    let w := pWinTokens x.policy / 128
    let b0 := max x.chunks (x.tokens / 128 - w)
    (((List.range (tok / 128 - w)).filter fun b => b0 ≤ b).map fun b =>
      (List.range (pLayers x.policy)).map fun l => b * pLayers x.policy + l).flatten

/-- Writes one staged row at a position, in every layer (R158). `base` is the first block index of the table. -/
def spliceRow (x : Slot) (st : Step) (bl : List Blk) (base pos k : Nat) (s : State) : State :=
  let pol := x.policy
  let hd := pHd pol
  let fmt := fmtAt x (pos / 128 - base)
  let sz := segBytes fmt hd
  (List.range (pLayers pol)).foldl (fun s l =>
    match bl[(pos / 128 - base) * pLayers pol + l]? with
    | none => s
    | some b =>
      (List.range (2 * pHeads pol)).foldl (fun s g =>
        let bs := stagedVec st l g k
        if bs = [] then s
        else
          let a := b.addr * 65536 + g * sz
          (segPatch (fun i => memGet s.mem (a + i)) fmt hd (pos % 128) bs).foldl (fun s w => wrBytes (a + w.1) w.2 s) s) s) s

/-- The block entries after `cnt` tokens more: the step's new blocks that are needed join the table in order; the rest are
released. -/
def joinBlks (n : Nat) (x : Slot) (st : Step) (upto : Nat) (s : State) : List Blk × State :=
  let need := ceilDiv upto 128 * pLayers x.policy
  let add := (List.range (need - x.blks.length)).map fun i =>
    ((st.newBlks.find? fun y => y.1 == x.blks.length + i).map (·.2)).getD ⟨1, false, 0, 0, false, none, none, []⟩
  let s := (st.newBlks.filter fun y => need ≤ y.1).foldl (fun s y => releaseBlk x.part n x.gen y.2 s) s
  let s := add.foldl (fun s b => if b.pgen = [] then s else setPages b.addr (b.npages + 1) .allocated x.part n x.gen s) s
  (x.blks ++ add, s)

/-- The step ends without a commit: staging pages are freed, committed tokens stand (R83). -/
def dropStep (n : Nat) (s : State) : State :=
  let x := slotOf s n
  match x.step with
  | none => s
  | some st =>
    let s := st.newBlks.foldl (fun s y => releaseBlk x.part n x.gen y.2 s) s
    commitSlot n { x with st := if x.st = .stepping then .active else x.st, step := none, lastSerial := some st.serial } s

/-- The rows a step commits: every staged row, or the path that Bight accepted (R188). -/
def stepRows (st : Step) : List Nat := if st.verify then st.accept.getD [] else List.range (stagedRows st 0)

/-- After the first step of a program, Splice knows the layer order of its requests (R127). -/
def learnOrder (x : Slot) (st : Step) (s : State) : State :=
  let k := 256 * x.part + (pProgram x.policy - 1)
  if pProgram x.policy = 0 ∨ (nget s.sp.revOrder k).isSome then s
  else { s with sp.revOrder := nset s.sp.revOrder k (st.staged.map (·.layer)).eraseDups }

/-- The commit of a step on a table that starts at block `base`; `tok` is the first position committed. -/
def commitStep (n base tok : Nat) (rows : List Nat) (count : Nat) (s : State) : State :=
  let x := slotOf s n
  match x.step with
  | none => s
  | some st =>
    let j := joinBlks n x st (tok + rows.length - 128 * base) s
    let s := (enum0 rows).foldl (fun s e => spliceRow x st j.1 base (tok + e.1) e.2 s) j.2
    match convertAll n x (leaving x (x.tokens + count)) j.1 s with
    | none => dropStep n s     -- no page for a conversion: the step fails (log 21)
    | some (bl, s) =>
      learnOrder x st (commitSlot n { x with st := if x.st = .stepping then .active else x.st, blks := bl,
                                             tokens := x.tokens + count, step := none, lastSerial := some st.serial } s)

/-- A step can end (R188): cancelled or failed with nothing left of it, or LAST done and, under VERIFY, the commit point past. -/
def stepOver (s : State) (n : Nat) : Bool :=
  let x := slotOf s n
  match x.step with
  | none => false
  | some st => x.st == .stepping && !(s.la.reqs.any fun r => r.slot == n) &&
      (st.cancel || st.failed || (st.last && (!st.verify || st.accept.isSome)))

/-- STEP_END for a session on one device. -/
def stepEndPlain (n : Nat) (s : State) : State :=
  let x := slotOf s n
  match x.step with
  | none => s
  | some st =>
    if !stepOver s n then s
    else if (st.cancel ∧ st.accept.isNone) ∨ st.failed then dropStep n s
    else commitStep n 0 x.tokens (stepRows st) (stepRows st).length s

/-- The bytes of entry e's shadow where it lies in T1 (R161, R162). -/
def shadowAt (s : State) (x : Slot) (e : Nat) : List Byte :=
  rdBytes s ((x.blks.getD e ⟨1, false, 0, 0, false, none, none, []⟩).shadow.getD 0) (shadowSize x.policy)

/-- DEADLINE_EXPIRY (R89, R128): the held step runs with shadows in place of late blocks, where each has one. -/
def deadlineRun (n : Nat) (s : State) : Option (Nat × BitVec 512 × State) :=
  let x := slotOf s n
  match x.stepAt, x.held.find? fun c => dOp c.2 == 0x30, moveOf s n with
  | some t, some c, some m =>
    let late := (m.pend.map (·.1)).eraseDups
    if x.st = .moving ∧ x.dir = .inn ∧ x.step.isNone ∧ pDeadline x.policy ≠ 0 ∧ t + 1000 * pDeadline x.policy ≤ now s then
      let s := ctrAdd .SP_LATE_TILE_CNT 0 x.part m.pend.length s
      if late.all fun e => ((x.blks.getD e ⟨1, false, 0, 0, false, none, none, []⟩).shadow).isSome then
        let s := ctrAdd .SP_CHEAP_PATH_CNT 0 x.part late.length s
        let st := { step0 (aStep c.2) with degraded := late ≠ [], shadowed := late.map fun e => (e, shadowAt s x e) }
        some (c.1, c.2, putSlot n { x with step := some st, held := x.held.filter (· != c), stepAt := none } (ctr .HT_STEP_ADMIT_CNT x.part s))
      else none
    else none
  | _, _, _ => none

end Sys2Proof.Machine
end

