-- ==== Sys2Proof/Machine/Bight.lean ====
section
/-! DEFINITION. Bight (chapter 9): generations, SAMPLE, the commit point, cancels and the ends of a generation (R254-R284). -/

namespace Sys2Proof.Machine

/-! ### Fields -/

/-- GEN_OPEN fields (R255). -/
def gTokRing (d : BitVec 512) : Nat := fld d 18 2
def gTextRing (d : BitVec 512) : Nat := fld d 20 2
def gHandle (d : BitVec 512) : Nat := fld d 24 8
def gParams (d : BitVec 512) : Nat := fld d 32 8
def gStream (d : BitVec 512) : Nat := fld d 40 8

/-- SAMPLE fields. -/
def sRows (d : BitVec 512) : Nat := fld d 18 1
def sStep (d : BitVec 512) : Nat := fld d 20 2
def sLogits (d : BitVec 512) : Nat := fld d 32 8
def sRowTok (d : BitVec 512) : Nat := fld d 40 8

/-- Sampling record fields (R256). -/
def rClass (r : List Byte) : Nat := bAt r 0 1
def rMaxTok (r : List Byte) : Nat := bAt r 4 4
def rStops (r : List Byte) : List Nat := (List.range (bAt r 48 2)).map fun i => bAt r (72 + 4 * i) 4

def drawCfg (r : List Byte) : DrawCfg :=
  { seed := bAt r 8 8, inv := bAt r 16 4, topK := bAt r 20 4, topP := bAt r 24 4, minP := bAt r 28 4, rep := bAt r 32 4
    pres := bAt r 36 4, freq := bAt r 40 4, logp := bit (bAt r 3 1) 1 }

/-- Die that holds a device-window offset of T0 export or T1 (R3, R106). -/
def dieOf (a : Nat) : Nat := if a < hbmEnd then dieOfStack (stackOf a) else (a - billetBase) / 0x4000000

def btReq (e p : Nat) : Req := unitReq (BitVec.ofNat 8 (0x50 + e)) p

/-- Penalties are neutral (R256). -/
def neutral (r : List Byte) : Bool :=
  bAt r 32 4 == 0x3F800000 && bAt r 36 4 % 2 ^ 31 == 0 && bAt r 40 4 % 2 ^ 31 == 0 && bAt r 52 4 == 0

/-- The record keeps R256's ranges for a vocabulary of `entries` tokens. -/
def recordOk (r : List Byte) (entries : Nat) : Bool :=
  let c := drawCfg r
  bAt r 0 1 ≤ 3 && bAt r 1 1 < 16 && bits (bAt r 2 1) 6 4 == 0 && bAt r 3 1 < 4 && 1 ≤ rMaxTok r && rMaxTok r ≤ 16777215 &&
  (c.inv % 2 ^ 31 == 0 || posFinite c.inv) && c.topK ≤ entries && posFinite c.topP && !f32Lt 0x3F800000 c.topP &&
  f32Finite c.minP && !f32Lt c.minP 0 && f32Lt c.minP 0x3F800000 && f32Finite c.rep && !f32Lt c.rep 0x3F800000 &&
  f32Finite c.pres && f32Finite c.freq && bAt r 44 4 < entries && bAt r 48 2 ≤ 16 && bAt r 50 2 ≤ 4096 &&
  bAt r 52 4 ≤ 32768 && allZero (r.drop 136) && (neutral r || bAt r 52 4 + rMaxTok r ≤ 65536)

/-- What a class permits and requires (R257). -/
def classOk (s : State) (p : Nat) (r : List Byte) : Bool :=
  let gram := bit (bAt r 2 1) 7
  let allow := bAt r 50 2 != 0
  bit (rg s .BT_PART_CFG p) (rClass r) &&
  (match rClass r with
   | 0 => true
   | 1 => gram && neutral r
   | 2 => !allow && neutral r
   | _ => !gram && allow && neutral r && rMaxTok r == 1)

def ascending (l : List Nat) : Bool := sortedBy (fun a b => a < b) l

/-- The mask context of a generation, from its home die's copies (R258, R263). -/
def maskCtx (s : State) (p die : Nat) (r : List Byte) (allow : List Nat) : MaskCtx :=
  { entries := (vocOf s (bAt r 1 1 % 16)).entries
    gram := if bit (bAt r 2 1) 7 then some (copyBytes s (gramOf s p (bAt r 2 1 % 16)) die) else none
    allow := allow, stops := rStops r }

def genMask (s : State) (g : Gen) : MaskCtx := maskCtx s g.part g.die g.param g.allow

/-! ### Generations -/

/-- Ends the SAMPLE in progress with a status and COMMITTED tokens (R284). -/
def endSample (n st com : Nat) (s : State) : State :=
  match genOf s n with
  | none => s
  | some g =>
    match g.run with
    | none => s
    | some r =>
      let it := itemOf s r.ring r.desc
      let fl := g.fl ||| flIf (it.any (·.yellow)) flYellow ||| flIf (it.any (·.preempted)) flPreempted
      let ns := noSpecFlag s n (sStep r.desc)
      let s := { s with ad.noSpec := s.ad.noSpec.filter (· != (n, sStep r.desc)) }
      complete r.ring r.desc st ns com com g.handle 0
        (engDone 0xA r.cleat (engDone 0xB r.eng (putGen n { g with run := none, fl := fl } s)))

/-- Writes the generation record once the last SAMPLE is complete and the stream's final chunk acknowledged (R284). -/
def genRecord (n : Nat) (s : State) : State :=
  match genOf s n with
  | none => s
  | some g =>
    match g.endSt with
    | none => s
    | some (st, fl) =>
      if g.run.isSome ∨ !strmDone s n then s
      else
        let c := if st = stCancelledBefore ∨ st = stCancelledAfter then [g.handle] else []
        let s := dropStrm n { s with bt.gens := ndel s.bt.gens n
                                     bt.lastCancel := s.bt.lastCancel.filter (· != g.handle) ++ c }
        complete g.ring g.desc st (fl ||| g.fl) g.com g.com g.handle 0 s

/-- The generation ends with a status: its stream closes (R248, R279, R281). -/
def endGen (n st fl : Nat) (s : State) : State :=
  match genOf s n with
  | none => s
  | some g => if g.endSt.isSome then s else genRecord n (strmClose n (putGen n { g with endSt := some (st, fl) } s))

/-! ### GEN_OPEN -/

/-- The lists that a sampling record names: ALLOW IDs and COUNTS pairs. -/
def genLists (q : Req) (r : List Byte) (s : State) : Verdict × List Nat × List (Nat × Nat) × State :=
  match (if bAt r 50 2 = 0 then (okV, [], s) else readPlain q (bAt r 56 8) (4 * bAt r 50 2) s) with
  | (v, al, s) =>
    if v.st ≠ 0 then (v, [], [], s)
    else match (if bAt r 52 4 = 0 then (okV, [], s) else readPlain q (bAt r 64 8) (8 * bAt r 52 4) s) with
      | (v, ct, s) =>
        (v, (List.range (bAt r 50 2)).map (fun i => bAt al (4 * i) 4),
         (List.range (bAt r 52 4)).map (fun i => (bAt ct (8 * i) 4, bAt ct (8 * i + 4) 4)), s)

/-- Opens the stream of a generation (R250): none where no Whittle engine can take it. -/
def openStrm (n p die v addr ring : Nat) (s : State) : Option State :=
  match textOn s p 9 [die] with
  | none => none
  | some (_, e) =>
    let x : Strm := { addr := addr, ring := ring, voc := v, die := die, eng := e, cur := rdBytes s addr 64, chunks := [], closed := false }
    some (engTake 9 e { s with wh.streams := nset s.wh.streams n x })

/-- A GEN_OPEN whose record has passed its checks (R254, R258, R264). -/
def genStart (ring : Nat) (d : BitVec 512) (n p die : Nat) (r : List Byte) (allow : List Nat) (counts : List (Nat × Nat))
    (s : State) : State :=
  let x := slotOf s n
  let h := gHandle d
  let m := maskCtx s p die r allow
  let q0 := match m.gram with | some img => gramStart img | none => 0
  let live := (s.bt.gens.filter fun e => e.2.part == p).length
  let maxCtx := match partPlan s p with | some pl => pl.btCtx | none => 0
  if maxCtx ≤ live then complete ring d stRefusedCapacity 0 0 0 h hintNever s
  else if deadEnd m q0 [] then
    complete ring d stFaultContext flDeadEnd 0 0 h 0 (ctr .CL_DEAD_END_CNT p s)
  else
    let seeded := bit (bAt r 3 1) 0
    let sv := Config.free s.fv % 2 ^ 64
    let r' := if seeded then r.take 8 ++ leBytes 8 sv ++ r.drop 16 else r
    let s := if seeded then wrBytes (gParams d + 8) (leBytes 8 sv) (useFree s) else s
    let g : Gen := { ring := ring, desc := d, part := p, handle := h, die := die, acct := x.acct, param := r', allow := allow
                     counts := counts.foldl (fun m e => nset m e.1 e.2) [], gq := q0, stack := [], last := bAt r 44 4, com := 0
                     cancel := false, run := none, endSt := none, natural := false, fl := 0 }
    let s := ctr .BT_GEN_OPEN_CNT p { putGen n g s with bt.lastCancel := s.bt.lastCancel.filter (· != h) }
    if gStream d = 0 then s
    else match openStrm n p die (bAt r 1 1 % 16) (gStream d) (gTextRing d) s with
      | some s => s
      | none => complete ring d stRefusedCapacity 0 0 0 h hintNever { s with bt.gens := ndel s.bt.gens n }

/-- The checks of the sampling record and what it names (R236, R256-R258, R261). -/
def genChecked (ring : Nat) (d : BitVec 512) (n p : Nat) (r : List Byte) (s : State) : State :=
  let h := gHandle d
  let bad (s : State) : State := complete ring d stFaultContext 0 0 0 h 0 s
  let die := dieOf (gParams d)
  let v := bAt r 1 1 % 16
  let g := bAt r 2 1 % 16
  let usesG := bit (bAt r 2 1) 7
  match vocBound s p v with
  | none => bad s
  | some vp =>
    if (vocOf s v).st ≠ .ready then imgRefuse ring d (vocOf s v).st s
    else if usesG ∧ bit (rg s .CL_CTL) 0 then finish ring d stRefusedCapacity hintNever s
    else if usesG ∧ (gramOf s p g).st ≠ .ready then imgRefuse ring d (gramOf s p g).st s
    else if !(recordOk r (vocOf s v).entries && classOk s p r && bit vp.dies die &&
              (!usesG || ((gramOf s p g).vocab == v && (nget (gramOf s p g).copies die).isSome))) then bad s
    else
      let q := btReq (4 * die) p
      match genLists q r s with
      | (c, allow, counts, s) =>
        if c.st ≠ 0 then complete ring d c.st 0 0 0 h c.det s
        else if !(ascending allow && ascending (counts.map (·.1)) && counts.all fun e => 1 ≤ e.2 && e.2 ≤ 16777215) then bad s
        else if gStream d = 0 then genStart ring d n p die r allow counts s
        else match readPlain q (gStream d) 64 s with
          | (c, rec, s) =>
            if c.st ≠ 0 then complete ring d c.st 0 0 0 h c.det s
            else if (srecOf rec).ended then bad s
            else genStart ring d n p die r allow counts s

/-- GEN_OPEN (R254-R258). -/
def genOpenOp (ring : Nat) (d : BitVec 512) (s : State) : State :=
  btEntry 0x50 ring d (bit (rg s .BT_CTL) 0) (fun p s =>
    let h := gHandle d
    withSlot ring d p h false (fun n x s =>
      deadState ring d p h x (fun s =>
        if !(fld d 17 1 == 0 && fld d 22 2 == 0 && fld d 48 16 == 0 && ringOk s (gTokRing d) 2 p && gParams d < hbmEnd &&
             ((gStream d == 0) == (gTextRing d == 0xFFFF)) && (gStream d == 0 || (gStream d < hbmEnd && ringOk s (gTextRing d) 2 p)))
        then complete ring d stFaultContext 0 0 0 h 0 s
        else if (genOf s n).isSome then complete ring d stRefusedCapacity 0 0 0 h hintNever s
        else match readPlain (btReq (4 * dieOf (gParams d)) p) (gParams d) 256 s with
          | (c, r, s) =>
            if c.st ≠ 0 then complete ring d c.st 0 0 0 h c.det s
            else genChecked ring d n p r s) s) s) s

/-! ### SAMPLE -/

/-- What a walk carries from draw to draw (R275). -/
structure Walk where
  q      : Nat
  stack  : List Nat
  counts : NMap Nat
  out    : List (Nat × Nat)
  rows   : List Nat
  endSt  : Option (Nat × Nat)

/-- The end condition a token meets (R279), highest row first. -/
def endCond (m : MaskCtx) (maxTok com y q : Nat) (st : List Nat) : Option (Nat × Nat) :=
  if m.stops.contains y then some (stDone, 0)
  else if (match m.gram with | some img => gramFinal img q st | none => false) then some (stDone, 0)
  else if maxTok ≤ com then some (stDoneLimit, 0)
  else if deadEnd m q st then some (stFaultContext, flDeadEnd)
  else none

/-- Logit row `r` of a SAMPLE (R274). -/
def logitAt (s : State) (d : BitVec 512) (entries r t : Nat) : Nat :=
  rdNat s (sLogits d + r * 4 * (16 * ceilDiv entries 16) + 4 * t) 4

/-- Admitted tokens' logits of a row, penalised (R265, R266). -/
def rowLogits (s : State) (g : Gen) (m : MaskCtx) (d : BitVec 512) (w : Walk) (r : Nat) : List (Nat × Nat) :=
  let c := drawCfg g.param
  (maskAt m w.q w.stack).map fun t =>
    let z := (cleanLogit (logitAt s d m.entries r t)).1
    let n := ngetD w.counts t 0
    (t, if n = 0 then z else penalise c.rep c.pres c.freq n z)

/-- The walk (R275): `x` the row, `b` the rows stood on. None where a draw is degenerate. -/
def walkFrom (s : State) (g : Gen) (m : MaskCtx) (d : BitVec 512) (par toks : List Nat) (window : Bool) (tokens : Nat) :
    Nat → Nat → Nat → Walk → Option Walk
  | 0, _, _, w => some w
  | fuel + 1, x, b, w =>
    match drawToken (drawCfg g.param) (tokens + b) (rowLogits s g m d w x) with
    | none => none
    | some (y, lp) =>
      let nx := gramNext m w.q w.stack y
      let w := { w with q := nx.1, stack := nx.2, counts := nmod w.counts y 0 (fun k => min 16777215 (k + 1))
                        out := w.out ++ [(y, lp)] }
      match endCond m (rMaxTok g.param) (g.com + w.out.length) y nx.1 nx.2 with
      | some e => some { w with endSt := some e }
      | none =>
        if window ∧ (tokens + b) % 128 = 0 then some w
        else match (enum0 par).find? fun e => e.2 == x && toks.getD e.1 0 == y with
          | none => some w
          | some c => walkFrom s g m d par toks window tokens fuel c.1 (b + 1) { w with rows := w.rows ++ [c.1] }

/-- A SAMPLE that breaks R274: the step fails, the generation stays open. -/
def badSample (ring : Nat) (d : BitVec 512) (n : Nat) (s : State) : State :=
  complete ring d stFaultContext 0 0 0 (gHandle d) 0 (failStep n s)

/-- Whether any logit of the rows is not finite (R265). -/
def logitsNonfinite (s : State) (d : BitVec 512) (entries : Nat) (rows : List Nat) : Bool :=
  rows.any fun r => (List.range entries).any fun t => (cleanLogit (logitAt s d entries r t)).2

/-- The draws of a well-formed SAMPLE; what they chose waits for the commit point (R274-R277). -/
def sampleRun (ring : Nat) (d : BitVec 512) (n p : Nat) (g : Gen) (x : Slot) (st : Step) (toks : List Nat) (s : State) : State :=
  match textOn s p 0xB [g.die], textOn s p 0xA [g.die] with
  | some (_, e), some (_, c) =>
    let m := genMask s g
    let par := stagedPar st 0
    let w0 : Walk := ⟨g.gq, g.stack, g.counts, [], [0], none⟩
    let q := btReq e p
    let s := ctr .BT_STEP_CNT p s
    match walkFrom s g m d par toks (pWin x.policy != pBody x.policy) x.tokens 16 0 1 w0 with
    | none => complete ring d stFaultContext 0 0 0 (gHandle d) 0
        (failStep n (evt Ev.SAMPLE_DEGENERATE q (gHandle d) (ctr .BT_DEGENERATE_CNT p s)))
    | some w =>
      let k := w.out.length
      let s := if logitsNonfinite s d m.entries w.rows then
          onceStep Ev.LOGITS_NONFINITE n (ctr .BT_NONFINITE_CNT p s) else s
      let s := ctrAdd .BT_DRAW_CNT 0 p k (ctrAdd .CL_MASK_CNT 0 p k (ctrAdd .CL_GRAM_STEP_CNT 0 p (if m.gram.isSome then k else 0) s))
      let stopped := w.endSt.isNone && (pWin x.policy != pBody x.policy) && (x.tokens + k) % 128 == 0
      let s := if stopped then ctr .BT_WALK_WINDOW_STOP_CNT p s else s
      let run : SampleRun := ⟨ring, d, w.out, w.rows, false, e, c, w.endSt, w.q, w.stack, w.counts⟩
      engTake 0xA c (engTake 0xB e (putGen n { g with run := some run } s))
  | _, _ => complete ring d stRefusedCapacity 0 0 0 (gHandle d) hintNever s

/-- SAMPLE (R274-R276, R282). -/
def sampleOp (ring : Nat) (d : BitVec 512) (s : State) : State :=
  btEntry 0x51 ring d false (fun p s =>
    let h := gHandle d
    withSlot ring d p h false (fun n x s =>
      deadState ring d p h x (fun s =>
        match genOf s n with
        | none => complete ring d (noGenStatus s n h) 0 0 0 h 0 (failStep n s)
        | some g =>
          if g.endSt.isSome then complete ring d (noGenStatus s n h) 0 0 0 h 0 (failStep n s)
          else if g.run.isSome then complete ring d stFaultContext 0 0 0 h 0 s
          else
            let ents := (vocOf s (gVoc g)).entries
            let rows := sRows d
            let size := rows * 4 * (16 * ceilDiv ents 16)
            match x.step with
            | none => complete ring d stFaultContext 0 0 0 h 0 s
            | some st =>
              if !(fld d 17 1 == 0 && fld d 19 1 == 0 && fld d 22 2 == 0 && fld d 48 16 == 0 && 1 ≤ rows && rows ≤ 64 &&
                   sLogits d % 64 == 0 && sLogits d < billetEnd && sRowTok d < hbmEnd && dieOf (sLogits d) == g.die &&
                   dieOf (sRowTok d) == g.die && sStep d == st.serial && rows == stagedRows st 0) then badSample ring d n s
              else
                let q := btReq (4 * g.die) p
                match readPlain q (sRowTok d) (4 * rows) s with
                | (c, tb, s) =>
                  let v := inCheck s q (sLogits d) size
                  if c.st ≠ 0 then complete ring d c.st 0 0 0 h c.det (failStep n s)
                  else if v.st ≠ 0 then complete ring d v.st 0 0 0 h v.det (failStep n (inFail q (sLogits d) v s))
                  else
                    let toks := (List.range rows).map fun i => bAt tb (4 * i) 4
                    let par := stagedPar st 0
                    if !((enum0 par).all (fun e => (e.2 == 0xFFFF) == (e.1 == 0)) && toks.getD 0 0 == g.last &&
                         toks.all fun t => t < ents) then badSample ring d n s
                    else sampleRun ring d n p g x st toks s) s) s) s

/-! ### The commit point -/

/-- A token record (R278). -/
def tokenRecord (h pos serial : Nat) (out : List (Nat × Nat)) (fin : Bool) : List Byte :=
  let pad (l : List (List Byte)) : List Byte := (l.flatten ++ leBytes 64 0).take 64
  leBytes 8 h ++ leBytes 4 pos ++ leBytes 1 out.length ++ leBytes 1 (b2n fin) ++ leBytes 2 serial ++
  pad (out.map fun e => leBytes 4 e.1) ++ pad (out.map fun e => leBytes 4 e.2) ++ leBytes 48 0

/-- Capstan debits the account and adds to its BILLED (R343). -/
def billTokens (a k : Nat) (s : State) : State :=
  let x := acctOf s a
  { s with cp.accts := nset s.cp.accts a { x with balance := x.balance - k, billed := (x.billed + k) % 2 ^ 64 } }

/-- The commit point of a step can be reached (R277): LAST is done and the token ring has room for the record. -/
def commitReady (s : State) (n : Nat) : Bool :=
  match genOf s n, (slotOf s n).step with
  | some g, some st => g.run.any (fun r => !r.passed) && !g.cancel && st.last && !st.failed && !st.cancel &&
      3 ≤ ringRoom s (gTokRing g.desc)
  | _, _ => false

/-- COMMIT_POINT (R277-R279, R283, R343). -/
def commitPointOp (n : Nat) (s : State) : State :=
  if !commitReady s n then s
  else match genOf s n, (slotOf s n).step with
    | some g, some st =>
      match g.run with
      | none => s
      | some r =>
        let x := slotOf s n
        let k := r.out.length
        let rec_ := tokenRecord g.handle (x.tokens + 1) st.serial r.out r.endSt.isSome
        let ring := gTokRing g.desc
        let s := (List.range 3).foldl (fun s i => pushEntry ring false ((rec_.drop (64 * i)).take 64) s) s
        let s := ctrAdd .BT_COMMIT_TOKEN_CNT 0 g.part k (ctrAdd .BT_ACCEPT_ROW_CNT 0 g.part r.rows.length (billTokens g.acct k s))
        let s := if r.endSt = some (stFaultContext, flDeadEnd) then
            evt Ev.GRAMMAR_DEAD_END (btReq r.eng g.part) g.handle (ctr .CL_DEAD_END_CNT g.part s) else s
        let s := putSlot n { x with step := some { st with accept := some r.rows } } s
        let s := putGen n { g with com := g.com + k, counts := r.counts, gq := r.gq, stack := r.stack
                                   last := ((r.out.getLast?).map (·.1)).getD g.last
                                   natural := r.endSt.isSome, run := some { r with passed := true } } s
        let s := flushStrm n 4096 (r.out.foldl (fun s e => strmToken n e.1 s) s)
        match r.endSt with
        | some (es, fl) => endGen n es fl s
        | none => s
    | _, _ => s

/-- After a session's step has ended: the SAMPLE completes and the record may be written (R284). `ok` says that it committed. -/
def sampleStepEnd (n : Nat) (s : State) : State :=
  match genOf s n with
  | none => s
  | some g =>
    match g.run with
    | none => genRecord n s
    | some r =>
      if (slotOf s n).step.isSome then s
      else if r.passed then genRecord n (endSample n stDone r.out.length s)
      else genRecord n (endSample n (if g.cancel then stCancelledBefore else stFaultContext) 0 s)

/-! ### Cancels (R280, R281) -/

/-- Queued work of a cancelled generation is removed (R361): items of the session that Capstan has not wholly dispatched. An
attention request with a share dispatched loses its queued shares only. -/
def cancelQueued (n : Nat) (h : Nat) (s : State) : State :=
  let mine (i : Item) : Bool := queuedItem i && fld i.desc 24 8 == h &&
    (dOp i.desc == 0x30 || dOp i.desc == 0x51 || dOp i.desc == 0x62) && hSlot h == n
  let all := s.cp.items.filter mine
  settleTags (all.foldl (fun s i =>
    if i.preempted || i.shares.any (·.sent) then
      { s with cp.items := s.cp.items.map fun k => if k.id == i.id then { k with shares := k.shares.filter (·.sent) } else k }
    else dropQueued i stCancelledBefore 0 (ctr .CP_QUEUE_CANCEL_CNT i.part s)) s)

/-- The sequencer classifies a cancel of session n's generation (R281). -/
def classifyCancel (n : Nat) (s : State) : State :=
  match genOf s n with
  | none => s
  | some g =>
    let p := g.part
    let x := slotOf s n
    if g.natural then
      match g.endSt with
      | some (st, fl) => ctr .BT_CANCEL_LATE_CNT p (putGen n { g with cancel := true, endSt := some (st, fl ||| flCancelLate) } s)
      | none => s
    else if g.endSt.isSome then ctr .BT_CANCEL_IDLE_CNT p s
    else
      let s := cancelQueued n g.handle (putGen n { g with cancel := true } s)
      let stepping := match x.step with | some st => st.accept.isNone && !st.failed | none => false
      if stepping then
        -- before its commit point: the step fails, its requests are abandoned
        let s := match x.step with
          | some st => putSlot n { x with step := some { st with cancel := true } } s
          | none => s
        let s := cancelReqs n s
        let s := endSample n stCancelledBefore 0 s
        endGen n stCancelledBefore 0 (ctr .BT_CANCEL_BEFORE_CNT p s)
      else if g.com = 0 ∧ x.step.all (fun st => st.accept.isNone) then
        endGen n stCancelledBefore 0 (ctr .BT_CANCEL_BEFORE_CNT p s)
      else endGen n stCancelledAfter 0 (ctr .BT_CANCEL_AFTER_CNT p s)

/-- CANCEL (R280). -/
def cancelOp (ring : Nat) (d : BitVec 512) (s : State) : State :=
  btEntry 0x52 ring d false (fun p s =>
    let h := gHandle d
    if !(fld d 17 7 == 0 && fld d 32 32 == 0) then hbad ring d 0 s
    else withSlot ring d p h false (fun n _ s =>
      let s := if (genOf s n).isNone then ctr .BT_CANCEL_IDLE_CNT p s else classifyCancel n s
      complete ring d stDone 0 0 0 h 0 s) s) s

/-- A register cancel of partition p (R280). -/
def btCancelOp (q : Req) (p h : Nat) (s : State) : State :=
  if handleCheck s p false false h ≠ stDone then evt Ev.CANCEL_REJECTED q h s
  else if (genOf s (hSlot h)).isNone then ctr .BT_CANCEL_IDLE_CNT p s
  else classifyCancel (hSlot h) s

/-! ### Sessions that end under a generation, engines -/

/-- A generation whose session is FAULTED or gone ends with it (R83, R280). -/
def sweepGen (n : Nat) (s : State) : State :=
  match genOf s n with
  | none => s
  | some g =>
    let x := slotOf s n
    if x.st = .faulted then
      let st := if x.cause = 1 ∨ x.cause = 2 then stFaultStateLost else stFaultContext
      let s := endSample n st 0 s
      match genOf s n with
      | none => s
      | some g =>
        complete g.ring g.desc st g.fl g.com g.com g.handle 0 (dropStrm n { s with bt.gens := ndel s.bt.gens n })
    else if hGen g.handle ≠ x.gen ∨ x.st = .free then
      endSample n stCancelledBefore 0 (classifyCancel n s)
    else s

/-- The generations that are open, in slot order. -/
def sweepGens (s : State) : State := (s.bt.gens.map (·.1)).foldl (fun s n => genRecord n (sweepGen n s)) s

/-- A fence of a Cleat (0xA) or Bight (0xB) engine: the draw restarts on another engine of the home die, same result (R285). -/
def drawFence (blk e : Nat) (s : State) : State :=
  (s.bt.gens.filter fun x => x.2.run.any fun r => if blk = 0xA then r.cleat == e else r.eng == e).foldl (fun s x =>
    match x.2.run, textOn s x.2.part blk [x.2.die] with
    | some r, some (_, k) =>
      let r := if blk = 0xA then { r with cleat := k } else { r with eng := k }
      ctr (if blk = 0xA then .CL_RESTART_CNT else .BT_RESTART_CNT) x.2.part
        (engDone blk e (engTake blk k (putGen x.1 { x.2 with run := some r } s)))
    | _, _ => s) s

/-- An ABORT of such an engine fails the SAMPLE in progress and ends its generation (R285); past the commit point nothing stops. -/
def drawAbort (blk e : Nat) (s : State) : State :=
  (s.bt.gens.filter fun x => x.2.run.any fun r => !r.passed && (if blk = 0xA then r.cleat == e else r.eng == e)).foldl
    (fun s x => endGen x.1 stFaultContext 0 (endSample x.1 stFaultContext 0 (failStep x.1 s))) s

end Sys2Proof.Machine
end

