-- ==== Sys2Proof/Machine/Adze.lean ====
section
/-! DEFINITION. Adze (chapter 10): program containers, LOAD, UNLOAD, RUN, drafts and their staged sections, preemption. -/

namespace Sys2Proof.Machine

/-! ### Containers (R293-R296) -/

def cKind (c : List Byte) : Nat := bAt c 8 1
def cStages (c : List Byte) : Nat := bAt c 9 1
def cKey (c : List Byte) : Nat := bAt c 12 4
def cOrderLayers (c : List Byte) : Nat := bAt c 16 2
def cOrderOff (c : List Byte) : Nat := bAt c 20 4
def cTotal (c : List Byte) : Nat := bAt c 28 4
def cBuild (c : List Byte) : Nat := bAt c 32 16
def cDigest (c : List Byte) : List Byte := (c.drop 48).take 48

/-- A stage declaration (R294). -/
structure Stage where
  off     : Nat     -- DATA_OFF
  code    : Nat
  const   : Nat
  res     : Nat
  strm    : Nat
  staged  : Nat
  act     : Nat
  loc     : Nat
  strands : Nat
  engines : Nat
  rings   : Nat
  first   : Nat
  count   : Nat
  bound   : Nat
  state   : Nat
deriving DecidableEq, Repr

def stageAt (c : List Byte) (i : Nat) : Stage :=
  let o := bAt c (128 + 32 * i) 4
  { off := o, code := bAt c o 4, const := bAt c (o + 4) 4, res := bAt c (o + 8) 4, strm := bAt c (o + 12) 4
    staged := bAt c (o + 16) 4, act := bAt c (o + 20) 4, loc := bAt c (o + 24) 4, strands := bAt c (o + 28) 2
    engines := bAt c (o + 30) 1, rings := bAt c (o + 31) 1, first := bAt c (o + 32) 2, count := bAt c (o + 34) 2
    bound := bAt c (o + 36) 4, state := bAt c (o + 40) 4 }

def stagesOf (c : List Byte) : List Stage := (List.range (cStages c)).map (stageAt c)

/-- Bytes of the weight tags of a stage (R295, R299). -/
def tagBytes (c : List Byte) (g : Stage) : Nat := if cKey c = 0 then 0 else 16 * ceilDiv (g.res + g.strm) 16384

/-- Offsets of the sections of a stage: code, constants, weights, tags, each on a 64-byte boundary (R294). -/
def secCode (g : Stage) : Nat := up64' (g.off + 64)
def secConst (g : Stage) : Nat := up64' (secCode g + g.code)
def secWeights (g : Stage) : Nat := up64' (secConst g + g.const)
def secTags (g : Stage) : Nat := up64' (secWeights g + g.res + g.strm)

/-- A declaration keeps R294. -/
def stageOk' (c : List Byte) (g : Stage) : Bool :=
  g.res % 16384 == 0 && g.strm % 16384 == 0 && (g.staged == 0 || (cKind c == 0 && cStages c == 1)) &&
  1 ≤ g.strands && g.strands ≤ 128 && 1 ≤ g.engines && g.engines ≤ 8 && g.rings ≤ 64 && (g.state == 0 || cKind c == 0) &&
  allZero ((c.drop (g.off + 44)).take 20) && secTags g + tagBytes c g ≤ cTotal c && 256 ≤ g.off

/-- The layer ranges of the stages follow one another without gap or overlap (R296). -/
def rangesOk : List Stage → Bool
  | a :: b :: r => b.first == a.first + a.count && rangesOk (b :: r)
  | _ => true

/-- The layer-order table is a permutation (R296). -/
def orderOk (c : List Byte) : Bool :=
  let n := cOrderLayers c
  let l := (List.range n).map fun i => bAt c (cOrderOff c + 2 * i) 2
  cOrderOff c + 2 * n ≤ cTotal c && (List.range n).all fun i => l.contains i

/-- A well-formed container of a LOAD with this LENGTH on a device of this conduct level (R293-R296). -/
def contOk (c : List Byte) (len conduct : Nat) : Bool :=
  256 ≤ c.length && bAt c 0 4 == 0x4F545541 && bAt c 4 4 == 1 && cKind c ≤ 5 &&
  (if cKind c = 5 then cStages c == 0 && cOrderLayers c != 0 else 1 ≤ cStages c && cStages c ≤ 4) &&
  bAt c 10 1 == conduct && bAt c 11 1 == 0 && bAt c 18 2 == 0 && cTotal c == len && allZero ((c.drop 96).take 32) &&
  ((List.range 4).all fun i => allZero ((c.drop (132 + 32 * i)).take 28)) && (stagesOf c).all (stageOk' c) &&
  rangesOk (stagesOf c) && (cOrderLayers c == 0 || orderOk c)

/-! ### Slots -/

def prog0 : Prog := ⟨.empty, 0, [], [], [], 0, 0, none⟩
def progOf (s : State) (p k : Nat) : Prog := ngetD s.ad.progs (256 * p + k) prog0
def putProg (p k : Nat) (x : Prog) (s : State) : State := { s with ad.progs := nset s.ad.progs (256 * p + k) x }

/-- The stage that die `d` of a LOAD's mask holds: the dies in ascending order, STAGES at a time (R291). -/
def stageOn (c : List Byte) (mask d : Nat) : Option (Nat × Stage) :=
  match (enum0 (dieBits mask)).find? fun e => e.2 == d with
  | some e => if cStages c = 0 then none else some (e.1 % cStages c, stageAt c (e.1 % cStages c))
  | none => none

/-- The dies of replica `r`. -/
def repDies (x : Prog) (r : Nat) : List Nat := ((dieBits x.mask).drop (r * cStages x.cont)).take (cStages x.cont)
def repCount (x : Prog) : Nat := if cStages x.cont = 0 then 0 else (dieBits x.mask).length / cStages x.cont

/-- Programs of a partition whose slot is not EMPTY. -/
def progsIn (s : State) (p : Nat) : List (Nat × Prog) := s.ad.progs.filter fun e => e.1 / 256 == p && e.2.st != .empty

/-- Billet need of a stage in 4 KiB units; its T1 pages (R299). -/
def needBillet (g : Stage) : Nat := ceilDiv g.res 4096 + ceilDiv g.act 4096
def needPages (c : List Byte) (g : Stage) : Nat :=
  1 + ceilDiv (g.code + g.const + (g.res + g.strm) + tagBytes c g) 65536 + ceilDiv g.staged 65536

def sumStages (s : State) (p d : Nat) (f : List Byte → Stage → Nat) : Nat :=
  (progsIn s p).foldl (fun t e => t + match stageOn e.2.cont e.2.mask d with | some g => f e.2.cont g.2 | none => 0) 0

/-- AD_PART_BILLET_USED, AD_PART_PAGE_USED and AD_PART_RING_USED (R313). -/
def billetUsed (s : State) (p d : Nat) : Nat := sumStages s p d fun _ g => needBillet g
def pageUsed (s : State) (p d : Nat) : Nat := sumStages s p d needPages
/-- Rings of a program, counted once on its lowest die (R299): those its stages declare. -/
def progRings (c : List Byte) : Nat := ((stagesOf c).map (·.rings)).foldl (· + ·) 0
def ringUsed (s : State) (p : Nat) : Nat := ((progsIn s p).map fun e => progRings e.2.cont).foldl (· + ·) 0

def planNat (s : State) (p : Nat) (f : PartPlan → Nat) : Nat := match partPlan s p with | some pl => f pl | none => 0

/-- Adze engines of a partition on a die: active ones, and a spare that serves a fenced one (R313). -/
def adzeEngines (s : State) (p d : Nat) : List Nat :=
  match partPlan s p with
  | some pl => (pl.adze.filter fun e => e / 8 == d && e < 32) ++
      (if pl.adze.contains (engOf s 8 (32 + d)).serves then [32 + d] else [])
  | none => []

/-- Need and availability of kind `k` on die `d` (R299). -/
def needAvail (s : State) (p : Nat) (c : List Byte) (mask k d : Nat) : Nat × Nat :=
  match stageOn c mask d with
  | none => (0, 0)
  | some (_, g) =>
    match k with
    | 0 => (needBillet g, planNat s p (fun pl => pl.billetCeil.getD d 0) - billetUsed s p d)
    | 1 => (ceilDiv g.loc 64 + 64, 16384)
    | 2 => (g.engines * g.strands, 128 * (adzeEngines s p d).length)
    | 3 => (needPages c g, planNat s p (fun pl => pl.pageCeil.getD d 0) - pageUsed s p d)
    | _ => (if (dieBits mask).head? = some d then progRings c else 0, planNat s p (·.ringCeil) - ringUsed s p)

/-- One kind of the resource check: NEED, AVAIL, SHORT and the worst die (R299, R300). -/
structure KindNeed where
  need : Nat
  avail : Nat
  short : Nat
  die : Nat
deriving DecidableEq, Repr

/-- The worst die of a kind: the greatest need - avail, the lower die on ties (R299). -/
def worst (s : State) (p : Nat) (c : List Byte) (mask k : Nat) : KindNeed :=
  let mk (d : Nat) : KindNeed := (let x := needAvail s p c mask k d; ⟨x.1, x.2, x.1 - x.2, d⟩)
  match dieBits mask with
  | [] => ⟨0, 0, 0, 0⟩
  | d :: r => r.foldl (fun b d =>
      let x := mk d
      if (b.need : Int) - b.avail < (x.need : Int) - x.avail then x else b) (mk d)

def kindNeeds (s : State) (p : Nat) (c : List Byte) (mask : Nat) : List KindNeed := (List.range 5).map (worst s p c mask)

/-- DETAIL of a refusal: the first kind short, MORE if a later one is too (R67, R299). -/
def loadDetail (ks : List KindNeed) : Option Nat :=
  match (enum0 ks).find? fun e => 0 < e.2.short with
  | some e => some (detLoad e.1 ((ks.drop (e.1 + 1)).any fun k => 0 < k.short) e.2.short)
  | none => none

/-- The 64-byte load report (R300). -/
def loadReport (ks : List KindNeed) : List Byte :=
  leBytes 1 ((enum0 ks).foldl (fun m e => if 0 < e.2.short then m + 2 ^ e.1 else m) 0) ++ leBytes 3 0 ++
  (ks.map fun k => leBytes 4 k.need ++ leBytes 4 k.avail ++ leBytes 3 k.short ++ leBytes 1 k.die).flatten

/-! ### LOAD and UNLOAD (R297-R303) -/

/-- Takes the pages of a die's stage: the sections page by page, the staged section as one run. -/
def takeStage (p d : Nat) (c : List Byte) (g : Stage) (s : State) : Option (List Nat × Nat × State) :=
  let k := ceilDiv g.staged 65536
  match takeCopy p d (needPages c g - k) s with
  | none => none
  | some (l, s) =>
    if k = 0 then some (l, 0, s)
    else match takeT1 p slotShared 0 k .allocated [2 * d, 2 * d + 1] s with
      | none => none
      | some (f, s) => some (l, f, s)

/-- The bytes of a stage as T1 holds them: the declaration's page, then the sections one after another. -/
def stageBytes (c : List Byte) (g : Stage) : List Byte :=
  ((c.drop g.off).take 64 ++ leBytes 65472 0) ++ ((c.drop (secCode g)).take g.code ++ (c.drop (secConst g)).take g.const ++
  (c.drop (secWeights g)).take (g.res + g.strm) ++ (c.drop (secTags g)).take (tagBytes c g))

/-- Splice copies each stage to its dies (R298 step 5); none where a die has no pages. -/
def copyStages (p : Nat) (x : Prog) : List Nat → State → Option (Prog × State)
  | [], s => some (x, s)
  | d :: r, s =>
    match stageOn x.cont x.mask d with
    | none => copyStages p x r s
    | some (_, g) =>
      match takeStage p d x.cont g s with
      | none => none
      | some (l, f, s) =>
        let bs := stageBytes x.cont g
        let m := (enum0 l).foldl (fun m e => memWrite m (65536 * e.2) ((bs.drop (65536 * e.1)).take 65536)) s.mem
        copyStages p { x with copies := nset x.copies d l, staged := if f = 0 then x.staged else nset x.staged d f } r { s with mem := m }

/-- Releases a program's pages. -/
def dropProg (x : Prog) (s : State) : State :=
  let one (s : State) (pg : Nat) : State := releasePages pg 1 x.owner slotShared 0 (gensOf s pg 1) s
  let s := (x.copies.map (·.2)).flatten.foldl one s
  x.staged.foldl (fun s e =>
    match stageOn x.cont x.mask e.1 with
    | some (_, g) => releasePages e.2 (ceilDiv g.staged 65536) x.owner slotShared 0 (gensOf s e.2 (ceilDiv g.staged 65536)) s
    | none => s) s

/-- What a LOAD or RUN meets first (R297, R313, R370, R587). -/
def adEntry (op ring : Nat) (d : BitVec 512) (drains : Bool) (f : Nat → State → State) (s : State) : State :=
  match ringPart s ring with
  | none => finish ring d stRefusedCapacity hintNever s
  | some p =>
    if dOp d ≠ op then hbad ring d 0 s
    else if drains && bit (rg s .AD_CTL) 0 then finish ring d stRefusedCapacity hintNever s
    else if planNat s p (·.progMax) ≤ fld d 17 1 then hbad ring d 0 s
    else f p s

/-- The ring numbers of a new program: the first run of the partition's that no other program holds. -/
def ringBaseFor (s : State) (p n : Nat) : Nat :=
  let held := (progsIn s p).map fun e => (e.2.ringBase, progRings e.2.cont)
  let b := Config.progRings p
  ((List.range (planNat s p (·.ringCeil) + 1)).find? fun i => held.all fun h => b + i + n ≤ h.1 || h.1 + h.2 ≤ b + i).elim b (b + ·)

/-- A LOAD that has passed R298 steps 1 to 4: pages are taken and filled. -/
def loadStart (ring : Nat) (d : BitVec 512) (p k mask : Nat) (c : List Byte) (s : State) : State :=
  let x : Prog := ⟨.loading, mask, c, [], [], ringBaseFor s p (progRings c), p, some (ring, d)⟩
  match copyStages p x (dieBits mask) s with
  | some (x, s) => putProg p k x s
  | none => finish ring d stFaultContext 0
      (evt Ev.PROG_DIGEST_MISMATCH (unitReq 0x10 p) k (ctr .AD_LOAD_FAIL_CNT p s))

/-- LOAD (R298). -/
def loadOp (ring : Nat) (d : BitVec 512) (s : State) : State :=
  adEntry 0x60 ring d true (fun p s =>
    let k := fld d 17 1
    let tier := fld d 18 1
    let mask := fld d 19 1
    let len := fld d 20 4
    let rep := fld d 32 8
    let a := if tier = 4 then 2 ^ 63 + fld d 24 8 % 2 ^ 63 else fld d 24 8
    if !((tier == 1 || tier == 4) && mask < 16 && rep < hbmEnd && fld d 40 24 == 0) then hbad ring d 0 s
    else if (progOf s p k).st ≠ .empty then imgRefuse ring d (progOf s p k).st s
    else
      let q := spliceReqOf s p
      let v := inCheck s q a len
      if v.st ≠ 0 then finish ring d v.st v.det (ctr .AD_LOAD_FAIL_CNT p (inFail q a v s))
      else
        let c := rdBytes s a len
        if !(contOk c len s.lay.img.conduct && (cStages c == 0 || (mask != 0 && (dieBits mask).length % cStages c == 0))) then
          hbad ring d 0 (ctr .AD_LOAD_FAIL_CNT p s)
        else
          let ks := kindNeeds s p c mask
          let w := if rep = 0 then okV else outCheck s q rep 64
          if w.st ≠ 0 then finish ring d w.st w.det (ctr .AD_LOAD_FAIL_CNT p s)
          else
            let report (s : State) : State := if rep = 0 then s else wrBytes rep (loadReport ks) s
            match loadDetail ks with
            | some det => finish ring d stRefusedLoad det (ctr .AD_LOAD_REFUSED_CNT p (report s))
            | none =>
              if (if cKey c = 0 then !bit (rg s .AD_PART_CFG p) 0 else (nget s.wkeys (2 ^ 32 * p + cKey c)).isNone) then
                finish ring d stFaultContext 0 (evt Ev.PROG_KEY_ABSENT (unitReq 0x10 p) (cKey c) (ctr .AD_LOAD_FAIL_CNT p s))
              else loadStart ring d p k mask c s) s

/-- A tag of the weights of stage `i` under the partition's key (R295). -/
def tileTagOk (key i : Nat) (tile : List Byte) (t : Nat) (tag : List Byte) : Bool :=
  gcmTag key (2 ^ 64 * i + t) [] tile == leNat tag

/-- Bytes of a die's stage as T1 holds them now, without its staged section. -/
def stageNow (s : State) (x : Prog) (d : Nat) : List Byte :=
  (((ngetD x.copies d []).map fun pg => memRead s.mem (65536 * pg) 65536).flatten)

/-- Weight tiles `lo` onward of a die's stage pass their tags and hold no poison (R298, R305). -/
def weightsOk (s : State) (x : Prog) (d lo : Nat) : Bool :=
  match stageOn x.cont x.mask d with
  | none => true
  | some (i, g) =>
    let bs := stageNow s x d
    let w := 65536 + g.code + g.const
    let n := (g.res + g.strm) / 16384
    let clean := !(ngetD x.copies d []).any fun pg => poisoned s (65536 * pg) 65536
    clean && (cKey x.cont == 0 || (List.range n).all fun t => t < lo ||
      (match nget s.wkeys (2 ^ 32 * x.owner + cKey x.cont) with
       | some key => tileTagOk key i ((bs.drop (w + 16384 * t)).take 16384) t ((bs.drop (w + g.res + g.strm + 16 * t)).take 16)
       | none => false))

/-- The checks of R298 step 5 on every die: DIGEST, what T1 holds, every resident tile's tag. -/
def progChecks (s : State) (x : Prog) : Bool :=
  sha384 ((x.cont.drop 256).take (cTotal x.cont - 256)) == cDigest x.cont &&
  (dieBits x.mask).all fun d =>
    match stageOn x.cont x.mask d with
    | none => true
    | some (_, g) => (stageNow s x d).take (stageBytes x.cont g).length == stageBytes x.cont g && weightsOk s x d 0

/-- VOCAB_LOAD_DONE for a program slot (R298 steps 5 and 6, R302). -/
def progDone (p k : Nat) (s : State) : State :=
  let x := progOf s p k
  match x.st, x.cmd with
  | .loading, some (ring, d) =>
    if progChecks s x then
      let ks := kindNeeds { s with ad.progs := ndel s.ad.progs (256 * p + k) } p x.cont x.mask
      let s := if fld d 32 8 = 0 then s else wrBytes (fld d 32 8) (loadReport ks) s
      finish ring d stDone 0 (ctr .AD_LOAD_CNT p (plogExtend p (plogRec 3 k 0 (cDigest x.cont) (cBuild x.cont))
        (putProg p k { x with st := .ready, cmd := none } s)))
    else
      finish ring d stFaultContext 0 (evt Ev.PROG_DIGEST_MISMATCH (unitReq 0x10 p) k
        (ctr .AD_LOAD_FAIL_CNT p (putProg p k prog0 (dropProg x s))))
  | _, _ => s

/-- RUNs admitted for a slot and not complete (AD_PROG_RUNS). -/
def progRuns (s : State) (p k : Nat) : Nat := (s.ad.runs.filter fun r => r.part == p && r.k == k).length

/-- A draining slot whose last RUN is complete releases everything (R303). -/
def progDrained (p k : Nat) (s : State) : State :=
  let x := progOf s p k
  if x.st = .draining ∧ progRuns s p k = 0 then
    let s := putProg p k prog0 (dropProg x s)
    match x.cmd with
    | some (ring, d) => finish ring d stDone 0 s
    | none => s
  else s

/-- UNLOAD (R303). -/
def unloadOp (ring : Nat) (d : BitVec 512) (s : State) : State :=
  adEntry 0x61 ring d false (fun p s =>
    let k := fld d 17 1
    if fld d 18 46 ≠ 0 then hbad ring d 0 s
    else if (progOf s p k).st ≠ .ready then imgRefuse ring d (progOf s p k).st s
    else progDrained p k (putProg p k { progOf s p k with st := .draining, cmd := some (ring, d) } s)) s

/-- SLOT_VERIFY_DONE for a program slot (R302). -/
def progVerify (p k : Nat) (s : State) : State :=
  let x := progOf s p k
  if x.st ≠ .verifying then s
  else if progChecks s x then putProg p k { x with st := .ready } s
  else putProg p k prog0 (dropProg x (evt Ev.VOCAB_LOST (unitReq 0x10 p) (65536 + 256 * p + k) s))

/-! ### RUN (R304-R312) -/

def runDraft (d : BitVec 512) : Bool := bit (fld d 18 1) 0
def runStep (d : BitVec 512) : Nat := fld d 20 2
def runOutMax (d : BitVec 512) : Nat := fld d 56 4

/-- The output of a RUN (R304; log 27). -/
def runOut (cont args : List Byte) : List Byte :=
  (List.range (Config.runOutLen cont args).toNat).map (Config.runOutByte cont args)

def runOf (s : State) (ring : Nat) (d : BitVec 512) : Option Run := s.ad.runs.find? fun r => r.ring == ring && r.desc == d
def putRun (r : Run) (s : State) : State :=
  { s with ad.runs := s.ad.runs.map fun x => if x.ring == r.ring && x.desc == r.desc then r else x }

/-- Engines of a list that hold nothing. -/
def idleEngs (s : State) (l : List Nat) : List Nat := l.filter fun e => (engOf s 8 e).st == .enabled && (engOf s 8 e).work == 0

/-- Engines of stage 0's die that a RUN of replica r can be granted, if there are enough (R306). -/
def grantFor (s : State) (p : Nat) (x : Prog) (r : Nat) : Option (List Nat) :=
  match repDies x r with
  | [] => none
  | d :: _ =>
    let l := idleEngs s (adzeEngines s p d)
    let n := (stageAt x.cont 0).engines
    if n ≤ l.length then some (l.take n) else none

/-- The staged section of a die, as (offset, length) (R310). -/
def stagedAt (x : Prog) : List (Nat × Nat) :=
  x.staged.map fun e => (65536 * e.2, match stageOn x.cont x.mask e.1 with | some (_, g) => g.staged | none => 0)

/-- COPY and ZERO jobs whose destination lies in a staged section of a program. -/
def stagedJobs (s : State) (x : Prog) : List SpJob :=
  s.sp.jobs.filter fun j => (stagedAt x).any fun r => overlaps (sDst j.desc) (sLen j.desc) r.1 r.2

/-- Jobs whose pending tiles a RUN that began at `t` waits for: those accepted by then (R311). -/
def waitJobs (s : State) (x : Prog) (t : Nat) : List SpJob := (stagedJobs s x).filter fun j => j.pend != [] && j.since ≤ t

/-- A pending tile is late: its COPY has CHEAP 1 and its deadline has passed (R128, R311). -/
def jobLate (s : State) (j : SpJob) : Bool := sCheap j.desc == 1 && sDeadline j.desc != 0 && j.since + 1000 * sDeadline j.desc ≤ now s

/-- A RUN starts on a free replica with engines for it, or stays QUEUED (R292, R306). -/
def startRun (r : Run) (s : State) : State :=
  let x := progOf s r.part r.k
  let taken := (s.ad.runs.filter fun y => y.part == r.part && y.k == r.k && y.st != .queued).map (·.rep)
  match (List.range (repCount x)).find? fun i => !taken.contains i && (grantFor s r.part x i).isSome with
  | none => s
  | some i =>
    let es := (grantFor s r.part x i).getD []
    putRun { r with st := .running, rep := i, engs := es, start := now s } (es.foldl (fun s e => engTake 8 e s) s)

/-- Starts what waits, oldest first. -/
def startRuns (s : State) : State := (s.ad.runs.filter fun r => r.st == .queued).foldl (fun s r => startRun r s) s

/-- A RUN leaves: its engines and spill records are released. -/
def dropRun (r : Run) (s : State) : State :=
  let s := r.engs.foldl (fun s e => engDone 8 e s)
    { s with ad.runs := s.ad.runs.filter fun x => !(x.ring == r.ring && x.desc == r.desc)
             la.spills := s.la.spills.filter fun x => !(x.ring == r.ring && x.desc == r.desc) }
  startRuns (progDrained r.part r.k (dmaDrop r.ring r.desc none s))

/-- A RUN ends with a status; COMMITTED and BILLED are 0 (R297). -/
def endRun (r : Run) (st fl : Nat) (s : State) : State :=
  let fl := fl ||| flIf r.pre flPreempted
  let s := if stClass st = 3 then ctr .AD_RUN_FAIL_CNT r.part s else s
  let s := complete r.ring r.desc st fl 0 0 (if r.draft.isSome then gHandle r.desc else 0) 0 s
  dropRun r s

/-- A proposal record (R309): at most 63 candidates, parents among the rows before them, depths at most 15. -/
def proposal (l : List (Nat × Nat)) : List Byte :=
  let rows := ((enum0 (l.take 63)).foldl (fun (acc : List (Nat × Nat × Nat)) e =>
    let par := e.2.1 % (e.1 + 1)
    let dep : Nat := if par = 0 then 1 else ((acc[par - 1]?).map (·.2.2)).getD 0 + 1
    acc ++ [if 15 < dep then (0, e.2.2, 1) else (par, e.2.2, dep)]) [])
  leBytes 1 rows.length ++ leBytes 1 (rows.foldl (fun m e => max m e.2.2) 0) ++ leBytes 14 0 ++
  (rows.map fun e => leBytes 2 e.1).flatten ++ (rows.map fun e => leBytes 4 e.2.1).flatten

/-- A draft ends with NO_SPECULATION: a proposal of 0 candidates, the step is marked (R311, R312). -/
def noSpecRun (r : Run) (s : State) : State :=
  let s := writeOutput r.desc (fld r.desc 40 8) (proposal []) s
  let s := { s with ad.noSpec := s.ad.noSpec ++ [(r.draft.getD 0, runStep r.desc)] }
  endRun r stDone flNoSpec s

/-- The fields of a RUN are in range (R297). -/
def runForm (d : BitVec 512) (x : Prog) : Bool :=
  fld d 18 1 < 2 && fld d 19 1 == 0 && fld d 22 2 == 0 && fld d 32 8 < billetEnd && fld d 40 8 % 64 == 0 && fld d 60 4 == 0 &&
  (if runDraft d then cKind x.cont == 0 && fld d 48 8 < hbmEnd else runStep d == 0 && fld d 24 8 == 0 && fld d 48 8 == 0) &&
  cStages x.cont != 0

/-- A RUN whose slot is READY and whose fields are in form: the argument block is read and the RUN queued (R304, R306). -/
def runAdmit (ring : Nat) (d : BitVec 512) (p k : Nat) (draft : Option Nat) (s : State) : State :=
  let x := progOf s p k
  let q := unitReq (BitVec.ofNat 8 (0x10 + 8 * (dieBits x.mask).head?.getD 0)) p
  let n := (Config.argBytes x.cont).toNat
  match readPlain q (fld d 32 8) n s with
  | (v, args, s) =>
    let o := if runOutMax d = 0 then okV else outCheck s q (fld d 40 8) (runOutMax d)
    let z := if draft.isSome then inCheck s q (fld d 48 8) (stageAt x.cont 0).state else okV
    if v.st ≠ 0 then finish ring d v.st v.det s
    else if o.st ≠ 0 then finish ring d o.st o.det s
    else if z.st ≠ 0 then finish ring d z.st z.det (inFail q (fld d 48 8) z s)
    else
      let r : Run := ⟨ring, d, p, k, 0, .queued, [], args, now s, draft, false, false⟩
      let s := ctr (if draft.isSome then .AD_DRAFT_CNT else .AD_RUN_CNT) p s
      let s := if isHost (fld d 40 8) then dmaAdd ring d none s else s
      startRun r { s with ad.runs := s.ad.runs ++ [r] }

/-- RUN, with or without DRAFT (R297, R302, R304, R309). -/
def runOp (ring : Nat) (d : BitVec 512) (s : State) : State :=
  adEntry 0x62 ring d true (fun p s =>
    let k := fld d 17 1
    let x := progOf s p k
    if x.st ≠ .ready then imgRefuse ring d x.st s
    else if !runForm d x then hbad ring d 0 s
    else if runDraft d then
      let h := gHandle d
      withSlot ring d p h false (fun n y s =>
        deadState ring d p h y (fun s =>
          if genOpenNow s n then runAdmit ring d p k (some n) s
          else complete ring d (noGenStatus s n h) 0 0 0 h 0 s) s) s
    else runAdmit ring d p k none s) s

/-- The streamed tiles of a RUN's replica pass their tags (R305). -/
def runTilesOk (s : State) (r : Run) : Bool :=
  let x := progOf s r.part r.k
  (repDies x r.rep).all fun d =>
    match stageOn x.cont x.mask d with
    | some (_, g) => weightsOk s x d (g.res / 16384)
    | none => true

/-- Streamed tiles of a replica. -/
def runTiles (x : Prog) : Nat := ((stagesOf x.cont).map fun g => g.strm / 16384).foldl (· + ·) 0

/-- Every output byte of a RUN is acknowledged (R304, R311): the outputs, then the record. A RUN waits for tiles pending when
it began. -/
def runAck (r : Run) (s : State) : State :=
  let x := progOf s r.part r.k
  if r.st ≠ .running then s
  else if r.draft.isSome ∧ waitJobs s x r.start ≠ [] then s
  else
    let s := ctrAdd .AD_WEIGHT_TILE_CNT 0 r.part (runTiles x) s
    if !runTilesOk s r then
      let s := evt Ev.PROG_WEIGHT_MISMATCH (unitReq 0x10 r.part) r.k (ctr .AD_WEIGHT_TAG_FAIL_CNT r.part s)
      endRun r stFaultContext 0 (if x.st = .ready then putProg r.part r.k { x with st := .draining } s else s)
    else match r.draft with
      | some _ =>
        if r.mixed then noSpecRun r (ctr .AD_DRAFT_MIXED_CNT r.part s)
        else
          let staged := match (repDies x r.rep).head? with
            | some d => (match nget x.staged d with | some f => memRead s.mem (65536 * f) (stageAt x.cont 0).staged | none => [])
            | none => []
          let a := fld r.desc 48 8
          let n := (stageAt x.cont 0).state
          let st := rdBytes s a n
          let out := proposal (Config.draftOut x.cont staged r.args st)
          if runOutMax r.desc < out.length then endRun r stFaultContext 0 s
          else
            let st' := (Config.draftState x.cont staged r.args st ++ st).take n
            endRun r stDone 0 (wrBytes a st' (writeOutput r.desc (fld r.desc 40 8) out s))
      | none =>
        let out := runOut x.cont r.args
        if runOutMax r.desc < out.length then endRun r stFaultContext 0 s
        else endRun r stDone 0 (writeOutput r.desc (fld r.desc 40 8) out s)

/-- DRAFT_TILE_LATE (R311). -/
def draftLate (ring : Nat) (d : BitVec 512) (s : State) : State :=
  match runOf s ring d with
  | none => s
  | some r =>
    let x := progOf s r.part r.k
    if r.draft.isSome ∧ r.st = .running ∧ (waitJobs s x r.start).any (jobLate s) = true then
      noSpecRun r (ctr .AD_DRAFT_LATE_CNT r.part s)
    else s

/-- A tile of a COPY or ZERO has been written: drafts that began before the job was accepted have read what it overwrites
(R311). -/
def markMixed (j : SpJob) (s : State) : State :=
  { s with ad.runs := s.ad.runs.map fun r =>
      if r.draft.isSome && r.st == .running && r.start < j.since && (stagedJobs s (progOf s r.part r.k)).any (· == j) then
        { r with mixed := true } else r }

/-- ADZE_PREEMPT (R307, R308): ignored while PREEMPT_EN is 0, and by a RUN whose stage declares no boundary. -/
def adzePreemptOp (ring : Nat) (d : BitVec 512) (ns : Nat) (s : State) : State :=
  match runOf s ring d with
  | none => s
  | some r =>
    let x := progOf s r.part r.k
    if r.st ≠ .running ∨ !bit (rg s .AD_CTL) 1 ∨ (stageAt x.cont 0).bound = 0 then s
    else
      let kib := ceilDiv ((stageAt x.cont 0).loc) 1024
      let die := (repDies x r.rep).head?.getD 0
      let s := r.engs.foldl (fun s e =>
        let b := spillKib s r.part + kib ≤ spillSize s r.part
        engDone 8 e (ctr (if b then .LG_SPILL_BILLET_CNT else .LG_SPILL_POOL_CNT) r.part
          { s with la.spills := s.la.spills ++ [⟨r.ring, r.desc, r.part, 4 * die, b, kib⟩] })) s
      let s := requeueItem r.ring r.desc 16 s
      startRuns (putRun { r with st := .preempted, engs := [], pre := true }
        (ctrMax .AD_PREEMPT_MAX_NS r.part ns (ctr .AD_PREEMPT_CNT r.part s)))

/-- ADZE_RESUME (R306): engines are granted on the same replica. -/
def adzeResumeOp (ring : Nat) (d : BitVec 512) (s : State) : State :=
  match runOf s ring d with
  | none => s
  | some r =>
    if r.st ≠ .preempted ∨ ungranted s ring d then s
    else match grantFor s r.part (progOf s r.part r.k) r.rep with
      | none => s
      | some es =>
        let s := { s with la.spills := s.la.spills.filter fun x => !(x.ring == r.ring && x.desc == r.desc) }
        putRun { r with st := .running, engs := es } (es.foldl (fun s e => engTake 8 e s) (ctr .AD_RESUME_CNT r.part s))

/-- Drafts of a generation whose cancel bit is set (R306). -/
def sweepDrafts (s : State) : State :=
  (s.ad.runs.filter fun r => match r.draft with
    | some n => (match genOf s n with | some g => g.cancel | none => false)
    | none => false).foldl (fun s r => endRun r stCancelledBefore 0 s) s

/-- A fence of an Adze engine: its RUN restarts from its first stage on the same replica (R306). -/
def adzeFence (e : Nat) (s : State) : State :=
  (s.ad.runs.filter fun r => r.engs.contains e).foldl (fun s r =>
    let s := r.engs.foldl (fun s e => engDone 8 e s) (ctr .AD_RESTART_CNT r.part s)
    let x := progOf s r.part r.k
    match grantFor s r.part x r.rep with
    | some es => putRun { r with engs := es, start := now s, mixed := false } (es.foldl (fun s e => engTake 8 e s) s)
    | none => putRun { r with engs := [], st := .preempted } s) s

/-- An ABORT of an Adze engine (R306). -/
def adzeAbort (e : Nat) (s : State) : State :=
  (s.ad.runs.filter fun r => r.engs.contains e ||
    (s.la.spills.any fun x => x.ring == r.ring && x.desc == r.desc && e / 8 == x.group / 4)).foldl
    (fun s r => endRun r stFaultContext 0 s) s

end Sys2Proof.Machine
end

