-- ==== Sys2Proof/Machine/Dist.lean ====
section
/-! DEFINITION. Skein's distances (R319, R320) and its traversal (R322-R326), on one copy of an index. -/

namespace Sys2Proof.Machine

/-! ### Extended reals -/

/-- A real, an infinity, or not a number. -/
inductive Ex where
  | nan
  | inf (neg : Bool)
  | fin (d : Dy)
deriving DecidableEq, Repr

def exF32 (b : Nat) : Ex := if f32IsNan b then .nan else if f32IsInf b then .inf (bit b 31) else .fin (f32Val b)

/-- An element in a format: 0 BF16, 1 FP8 E4M3, 2 INT8 (R314, R320). -/
def exElem (fmt b : Nat) : Ex :=
  match fmt with
  | 0 => exF32 (b * 65536)
  | 1 => if b % 128 = 0x7F then .nan else .fin (f8Val b)
  | _ => .fin ⟨if b < 128 then (b : Int) else (b : Int) - 256, 0, 128 ≤ b⟩

def exMul (a b : Ex) : Ex :=
  match a, b with
  | .nan, _ | _, .nan => .nan
  | .fin x, .fin y => .fin (dyMul x y)
  | .inf n, .inf m => .inf (n != m)
  | .inf n, .fin y | .fin y, .inf n => if y.m = 0 then .nan else .inf (n != y.neg)

def exAdd (a b : Ex) : Ex :=
  match a, b with
  | .nan, _ | _, .nan => .nan
  | .fin x, .fin y => .fin (dyAdd x y)
  | .inf n, .inf m => if n = m then .inf n else .nan
  | .inf n, .fin _ | .fin _, .inf n => .inf n

def exAbs (a : Ex) : Ex :=
  match a with
  | .nan => .nan
  | .inf _ => .inf false
  | .fin d => .fin ⟨d.m.natAbs, d.e, false⟩

def exNeg (a : Ex) : Ex :=
  match a with
  | .nan => .nan
  | .inf n => .inf (!n)
  | .fin d => .fin (dyNeg d)

/-- One rounding to FP32, saturating as R191: none is NaN. -/
def exRnd (a : Ex) : Option Nat :=
  match a with
  | .nan => none
  | .inf n => some (if n then 0xFF7FFFFF else f32Max)
  | .fin d => some (f32Sat d)

def exOf (o : Option Nat) : Ex := match o with | some b => exF32 b | none => .nan

/-- FP32 difference. -/
def exSub (a b : Ex) : Option Nat := exRnd (exAdd a (exNeg b))

/-- sum16 of indexed extended reals (R190). -/
def exSum16 (l : List Ex) : Option Nat :=
  let gs := (List.range (ceilDiv l.length 16)).map fun j => exRnd (((l.drop (16 * j)).take 16).foldl exAdd (.fin dy0))
  gs.foldl (fun a g => exRnd (exAdd (exOf a) (exOf g))) (some 0)

/-- Integer square root by bits, from bit `i - 1` down. -/
def isqrt (n : Nat) : Nat → Nat → Nat
  | 0, r => r
  | i + 1, r => if (r + 2 ^ i) * (r + 2 ^ i) ≤ n then isqrt n i (r + 2 ^ i) else isqrt n i r

/-- FP32 square root of a value not below 0, correctly rounded. -/
def f32Sqrt (b : Nat) : Nat :=
  let x := f32Val b
  let sh : Nat := if x.e % 2 = 0 then 120 else 121
  let n := x.m.natAbs * 2 ^ sh
  let r := isqrt n 80 0
  f32Sat ⟨if r * r = n then (r : Int) else 2 * r + 1, (x.e - sh) / 2 - (if r * r = n then 0 else 1), false⟩

/-! ### The index header (R314) -/

def xNodes (h : List Byte) : Nat := bAt h 8 4
def xDim (h : List Byte) : Nat := bAt h 12 2
def xFmt (h : List Byte) : Nat := bAt h 14 1
def xDegree (h : List Byte) : Nat := bAt h 15 1
def xNorms (h : List Byte) : Bool := bit (bAt h 17 1) 0
def xEntries (h : List Byte) : List Nat := (List.range (bAt h 16 1)).map fun i => bAt h (24 + 4 * i) 4
def xVec (h : List Byte) : Nat := bAt h 56 8
def xNorm (h : List Byte) : Nat := bAt h 64 8
def xAttr (h : List Byte) : Nat := bAt h 72 8
def xAdj (h : List Byte) : Nat := bAt h 80 8
def xTotal (h : List Byte) : Nat := bAt h 88 8

def elemBytes (fmt : Nat) : Nat := if fmt = 0 then 2 else 1

/-- The arrays of an index: offset and length. -/
def xArrays (h : List Byte) : List (Nat × Nat) :=
  [(xVec h, xNodes h * xDim h * elemBytes (xFmt h)), (xAttr h, 8 * xNodes h), (xAdj h, 4 * xDegree h * xNodes h)] ++
  (if xNorms h then [(xNorm h, 4 * xNodes h)] else [])

def disjoint : List (Nat × Nat) → Bool
  | [] => true
  | a :: r => r.all (fun b => a.1 + a.2 ≤ b.1 || b.1 + b.2 ≤ a.1) && disjoint r

/-- A well-formed header (R314). -/
def idxHeadOk (h : List Byte) : Bool :=
  bAt h 0 4 == 0x534B4E49 && bAt h 4 4 == 1 && 1 ≤ xNodes h && xNodes h ≤ 268435456 && 64 ≤ xDim h && xDim h ≤ 4096 &&
  xDim h % 16 == 0 && xFmt h ≤ 2 && 8 ≤ xDegree h && xDegree h ≤ 128 && xDegree h % 8 == 0 && 1 ≤ bAt h 16 1 && bAt h 16 1 ≤ 8 &&
  bAt h 17 1 ≤ 1 && allZero ((h.drop 18).take 6) && (xEntries h).all (· < xNodes h) && (xNorms h || xNorm h == 0) &&
  allZero ((h.drop 144).take 112) && ((xArrays h).all fun a => a.1 % 64 == 0 && 256 ≤ a.1 && a.1 + a.2 ≤ xTotal h) &&
  disjoint (xArrays h)

/-! ### Distance and search records (R319, R322) -/

structure DistCfg where
  elem  : Nat
  post  : Nat
  first : Nat
  count : Nat
  wAt   : Nat     -- T1 offset of the weights, 0 for none
  bias  : Nat
deriving DecidableEq, Repr

structure SearchCfg where
  k     : Nat
  l     : Nat
  lmax  : Nat
  filt  : Bool
  widen : Bool
  emax  : Nat
  tmo   : Nat
  fmask : Nat
  fval  : Nat
  dist  : DistCfg
deriving DecidableEq, Repr

/-- The distance a search record asks for. -/
def distOf (r : List Byte) (dim : Nat) : DistCfg :=
  match bAt r 7 1 with
  | 0 => ⟨1, 0, 0, dim, 0, 0⟩
  | 1 => ⟨0, 1, 0, dim, 0, 0⟩
  | 2 => ⟨0, 2, 0, dim, 0, 0⟩
  | 3 => ⟨2, 0, 0, dim, 0, 0⟩
  | _ =>
    let f := bAt r 36 4
    ⟨bAt r 32 1, bAt r 33 1, f, if bAt r 40 4 = 0 then dim - f else bAt r 40 4, bAt r 44 8, bAt r 52 4⟩

/-- The search record keeps its ranges for an index (R319, R322). -/
def searchRecOk (r h : List Byte) : Bool :=
  let d := distOf r (xDim h)
  let k := bAt r 0 2
  let l := bAt r 2 2
  1 ≤ k && k ≤ 256 && k ≤ l && l ≤ 1024 && (!bit (bAt r 6 1) 1 || (l ≤ bAt r 4 2 && bAt r 4 2 ≤ 4096)) && bAt r 6 1 < 4 &&
  (bAt r 7 1 ≤ 3 || bAt r 7 1 == 0xFF) && bAt r 8 4 ≤ 65536 && bAt r 12 4 ≤ 1000000 && allZero ((r.drop 64).take 64) &&
  (bAt r 7 1 != 0xFF || (bAt r 34 2 == 0 && allZero ((r.drop 56).take 8))) && d.elem ≤ 2 && d.post ≤ 2 &&
  (d.post != 2 || xNorms h) && d.first < xDim h && 1 ≤ d.count && d.first + d.count ≤ xDim h && f32Finite d.bias

def searchCfg (r : List Byte) (dim : Nat) : SearchCfg :=
  { k := bAt r 0 2, l := bAt r 2 2, lmax := bAt r 4 2, filt := bit (bAt r 6 1) 0, widen := bit (bAt r 6 1) 1
    emax := if bAt r 8 4 = 0 then 65536 else bAt r 8 4, tmo := if bAt r 12 4 = 0 then 1000 else bAt r 12 4
    fmask := bAt r 16 8, fval := bAt r 24 8, dist := distOf r dim }

/-! ### The distance (R320) -/

/-- An index copy to be read: header, and the copy's bytes by offset. -/
structure IdxView where
  h    : List Byte
  rd   : Nat → Nat → Nat      -- offset, bytes

/-- Elements of node n that a distance uses. -/
def nodeElems (v : IdxView) (c : DistCfg) (n : Nat) : List Ex :=
  let b := elemBytes (xFmt v.h)
  (List.range c.count).map fun i => exElem (xFmt v.h) (v.rd (xVec v.h + (n * xDim v.h + c.first + i) * b) b)

/-- The distance of query `q` (its used elements) and weights `w` to node n: an FP32 pattern, +infinity for NaN. -/
def distance (v : IdxView) (c : DistCfg) (q w : List Ex) (n : Nat) : Nat :=
  let x := nodeElems v c n
  let t := (List.range c.count).map fun i =>
    let qi := q.getD i (.fin dy0)
    let xi := x.getD i (.fin dy0)
    let wi := w.getD i (.fin ⟨1, 0, false⟩)
    if c.elem = 0 then exMul (exMul wi qi) xi
    else
      let d := exOf (exSub qi xi)
      exMul wi (if c.elem = 1 then exMul d d else exAbs d)
  let s := exSum16 t
  let r : Option Nat :=
    match c.post with
    | 0 => s
    | 1 => s.map fun b => if bit b 31 then b - 2 ^ 31 else b + 2 ^ 31
    | _ =>
      let nq := (exSum16 (q.map fun e => exMul e e)).map f32Sqrt
      let den := exRnd (exMul (exOf nq) (exF32 (v.rd (xNorm v.h + 4 * n) 4)))
      match s, den with
      | some s, some den => if den % 2 ^ 31 = 0 then some 0x3F800000 else some (f32Sub 0x3F800000 (f32Div s den))
      | _, _ => none
  match r.bind fun b => exRnd (exAdd (exF32 b) (exF32 c.bias)) with
  | some b => b
  | none => f32Inf

/-- Real order of distances, +infinity greatest. -/
def distLt (a b : Nat) : Bool := if a = f32Inf then false else if b = f32Inf then true else f32Lt a b

/-- (distance, node) order. -/
def nearer (a b : Nat × Nat) : Bool := distLt a.1 b.1 || (!distLt b.1 a.1 && a.2 < b.2)

/-! ### The traversal (R323) -/

structure Trav where
  list  : List (Nat × Nat)     -- distance, node, in order
  done  : List Nat             -- expanded nodes
  seen  : NMap Unit
  evals : Nat
  widen : Nat
  w     : Nat
  limit : Bool
  bad   : Nat                  -- neighbour IDs out of range

/-- Visits a node. -/
def visit (v : IdxView) (c : SearchCfg) (q w : List Ex) (n : Nat) (t : Trav) : Trav :=
  let l := insertBy nearer (distance v c.dist q w n, n) t.list
  { t with list := l.take (if c.widen then c.lmax else c.l), seen := nset t.seen n (), evals := t.evals + 1 }

/-- The neighbours of a node, in stored order. -/
def expand (v : IdxView) (c : SearchCfg) (q w : List Ex) : List Nat → Trav → Trav
  | [], t => t
  | n :: r, t =>
    if t.limit then t
    else if n = 0xFFFFFFFF then expand v c q w r t
    else if xNodes v.h ≤ n then expand v c q w r { t with bad := t.bad + 1 }
    else if (nget t.seen n).isSome then expand v c q w r t
    else if t.evals = c.emax then { t with limit := true }
    else expand v c q w r (visit v c q w n t)

def nodeAttr (v : IdxView) (n : Nat) : Nat := v.rd (xAttr v.h + 8 * n) 8

def passes (v : IdxView) (c : SearchCfg) (n : Nat) : Bool := (nodeAttr v n) &&& c.fmask == c.fval

def adjOf (v : IdxView) (n : Nat) : List Nat :=
  (List.range (xDegree v.h)).map fun i => v.rd (xAdj v.h + 4 * (xDegree v.h * n + i)) 4

/-- The loop of R323. -/
def travLoop (v : IdxView) (c : SearchCfg) (q w : List Ex) : Nat → Trav → Trav
  | 0, t => t
  | fuel + 1, t =>
    if t.limit then t
    else match (t.list.take t.w).find? fun e => !t.done.contains e.2 with
      | none =>
        if c.filt && c.widen && (t.list.filter fun e => passes v c e.2).length < c.k && t.w < c.lmax then
          travLoop v c q w fuel { t with w := min (2 * t.w) c.lmax, widen := t.widen + 1 }
        else t
      | some e => travLoop v c q w fuel (expand v c q w (adjOf v e.2) { t with done := e.2 :: t.done })

def travStart (v : IdxView) (c : SearchCfg) (q w : List Ex) : Trav :=
  (xEntries v.h).foldl (fun t e => if (nget t.seen e).isSome then t else visit v c q w e t)
    ⟨[], [], [], 0, 0, c.l, false, 0⟩

/-- The outcome of one query: results, widen steps, limit, evaluations, tested, rejected, bad neighbours. -/
structure QOut where
  res   : List (Nat × Nat)
  widen : Nat
  limit : Bool
  evals : Nat
  tested : Nat
  rejected : Nat
  bad   : Nat
deriving DecidableEq, Repr

/-- The first K of an ordered list under the filter. -/
def firstK (v : IdxView) (c : SearchCfg) (l : List (Nat × Nat)) : List (Nat × Nat) :=
  (if c.filt then l.filter fun e => passes v c e.2 else l).take c.k

/-- One query by the graph (R323). -/
def graphQuery (v : IdxView) (c : SearchCfg) (q w : List Ex) : QOut × Trav :=
  let t := travLoop v c q w 140000 (travStart v c q w)
  let pass := (t.list.filter fun e => passes v c e.2).length
  (⟨firstK v c t.list, t.widen, t.limit, t.evals, if c.filt then t.list.length else 0,
    if c.filt then t.list.length - pass else 0, t.bad⟩, t)

/-- One query over every node (R325). -/
def fullQuery (v : IdxView) (c : SearchCfg) (q w : List Ex) : QOut :=
  let l := sortBy nearer ((List.range (xNodes v.h)).map fun n => (distance v c.dist q w n, n))
  let pass := (l.filter fun e => passes v c e.2).length
  ⟨firstK v c l, 0, false, xNodes v.h, if c.filt then l.length else 0, if c.filt then l.length - pass else 0, 0⟩

/-! ### Result blocks (R326) -/

/-- Bytes of a block. -/
def blockBytes (k : Nat) : Nat := 128 + up64' (16 * k)

/-- One result entry: distance, node, shard. -/
def resEntry (dist node shard : Nat) : List Byte :=
  leBytes 4 node ++ leBytes 2 shard ++ leBytes 2 0 ++ leBytes 4 dist ++ leBytes 4 0

/-- A block: header, then K entries; those beyond the results hold node 0xFFFF_FFFF and +infinity. -/
def resBlock (k : Nat) (res : List (Nat × Nat × Nat)) (widen evals tested rejected shards missing serial : Nat) (limit : Bool)
    (status : List Nat) : List Byte :=
  let body := (res.map fun e => resEntry e.1 e.2.1 e.2.2).flatten ++
    ((List.range (k - res.length)).map fun _ => resEntry f32Inf 0xFFFFFFFF 0).flatten
  leBytes 2 res.length ++ leBytes 1 widen ++ leBytes 1 (b2n limit + 2 * b2n (res.length < k)) ++ leBytes 4 evals ++
  leBytes 4 tested ++ leBytes 4 rejected ++ leBytes 2 shards ++ leBytes 6 0 ++ leBytes 8 missing ++ leBytes 8 serial ++
  leBytes 24 0 ++ ((status.map (leBytes 1)).flatten ++ List.replicate 64 0xFF).take 64 ++
  (body ++ leBytes (blockBytes k - 128 - body.length) 0)

end Sys2Proof.Machine
end

