-- ==== Sys2Proof/Machine/Skein.lean ====
section
/-! DEFINITION. Skein (chapter 11): index slots, SEARCH on one copy, sharded searches and their merge. -/

namespace Sys2Proof.Machine

def idx0 : IdxSlot := ⟨.empty, 0, false, [], [], 0, none⟩
def idxOf (s : State) (p k : Nat) : IdxSlot := ngetD s.sk.idx (64 * p + k) idx0
def putIdx (p k : Nat) (x : IdxSlot) (s : State) : State := { s with sk.idx := nset s.sk.idx (64 * p + k) x }

def skReq (e p : Nat) : Req := unitReq (BitVec.ofNat 8 (0x60 + e)) p

def skEntry (op ring : Nat) (d : BitVec 512) (drains : Bool) (f : Nat → State → State) (s : State) : State :=
  match ringPart s ring with
  | none => finish ring d stRefusedCapacity hintNever s
  | some p =>
    if dOp d ≠ op then hbad ring d 0 s
    else if drains && bit (rg s .SK_CTL) 0 then finish ring d stRefusedCapacity hintNever s
    else f p s

/-! ### Index slots (R315-R318) -/

/-- A copy lies wholly in the partition's T1 on die d's stacks, or in exported carve-out banks of die d (R315). -/
def copyPlaceOk (s : State) (p d a n : Nat) : Bool :=
  let t1 := a + n ≤ hbmEnd && a < hbmEnd && dieOf a == d && (n == 0 || dieOf (a + n - 1) == d) &&
    (match partPlan s p with
     | some pl => (probes a (max n 1)).all fun o => pl.channels.contains (chanOf o)
     | none => false)
  let t0 := billetBase ≤ a && a + n ≤ billetEnd &&
    (probes a (max n 1)).all fun o =>
      let b := (o - billetBase) / 0x400000
      b / 16 == d && s.lay.img.exported.contains b && s.lay.img.carve.contains b
  t1 || t0

/-- Searches admitted for a slot and not complete (SK_IDX_SEARCHES). -/
def idxSearches (s : State) (p k : Nat) : Nat :=
  (s.sk.runs.filter fun r => r.part == p && fld r.desc 17 1 % 64 == k).length

/-- The copies of open index slots, for R317: base and length. -/
def openCopies (s : State) : List (Nat × Nat) :=
  ((s.sk.idx.filter fun e => e.2.st != .empty).map fun e => (dieBits e.2.mask).map fun d => (e.2.copies.getD d 0, xTotal e.2.hdr)).flatten

/-- INDEX_OPEN (R315, R316, R321). -/
def indexOpenOp (ring : Nat) (d : BitVec 512) (s : State) : State :=
  skEntry 0x70 ring d true (fun p s =>
    let k := fld d 17 1
    let mask := fld d 18 1
    let cp := (List.range 4).map fun i => fld d (24 + 8 * i) 8
    if !(k < 64 && k < planNat s p (·.idxMax) && mask < 16 && mask != 0 && fld d 19 1 < 2 && fld d 20 4 == 0 && fld d 56 8 == 0 &&
         (List.range 4).all fun i => bit mask i || cp.getD i 0 == 0) then hbad ring d 0 s
    else if (idxOf s p k).st ≠ .empty then imgRefuse ring d (idxOf s p k).st s
    else
      let q := skReq (4 * (dieBits mask).head?.getD 0) p
      let vs := (dieBits mask).map fun i => inCheck s q (cp.getD i 0) 256
      match vs.find? fun v => v.st != 0 with
      | some v => finish ring d v.st v.det (ctr .SK_OPEN_FAIL_CNT p (inFail q (cp.getD 0 0) v s))
      | none =>
        let h := rdBytes s (cp.getD ((dieBits mask).head?.getD 0) 0) 256
        if !(dieBits mask).all (fun i => copyPlaceOk s p i (cp.getD i 0) (max 256 (xTotal h))) then
          hbad ring d 0 (ctr .SK_OPEN_FAIL_CNT p s)
        else putIdx p k ⟨.loading, mask, bit (fld d 19 1) 0, cp, h, p, some (ring, d)⟩ s) s

/-- The checks of an INDEX_OPEN: one header, in form, and the digest of every copy where VERIFY asks (R316). -/
def idxChecks (s : State) (x : IdxSlot) : Bool :=
  idxHeadOk x.hdr && (dieBits x.mask).all fun i =>
    let a := x.copies.getD i 0
    !poisoned s a 256 && rdBytes s a 256 == x.hdr &&
    (!x.verify || (!poisoned s a (xTotal x.hdr) && sha384 (rdBytes s (a + 256) (xTotal x.hdr - 256)) == (x.hdr.drop 96).take 48))

/-- VOCAB_LOAD_DONE for an index slot: the checks of its INDEX_OPEN end; nothing is measured (R316). -/
def idxDone (p k : Nat) (s : State) : State :=
  let x := idxOf s p k
  match x.st, x.cmd with
  | .loading, some (ring, d) =>
    if idxChecks s x then finish ring d stDone 0 (ctr .SK_OPEN_CNT p (putIdx p k { x with st := .ready, cmd := none } s))
    else finish ring d stFaultContext 0 (ctr .SK_OPEN_FAIL_CNT p (putIdx p k idx0 s))
  | _, _ => s

/-- A draining slot whose last search is complete goes EMPTY (R317). -/
def idxDrained (p k : Nat) (s : State) : State :=
  let x := idxOf s p k
  match x.st, x.cmd with
  | .draining, some (ring, d) => if idxSearches s p k ≠ 0 then s else finish ring d stDone 0 (putIdx p k idx0 s)
  | _, _ => s

/-- INDEX_CLOSE. -/
def indexCloseOp (ring : Nat) (d : BitVec 512) (s : State) : State :=
  skEntry 0x71 ring d false (fun p s =>
    let k := fld d 17 1
    if !(k < 64 && fld d 18 46 == 0) then hbad ring d 0 s
    else if (idxOf s p k).st ≠ .ready then imgRefuse ring d (idxOf s p k).st s
    else idxDrained p k (putIdx p k { idxOf s p k with st := .draining, cmd := some (ring, d) } s)) s

/-- SLOT_VERIFY_DONE for an index slot (R316). -/
def idxVerify (p k : Nat) (s : State) : State :=
  let x := idxOf s p k
  if x.st ≠ .verifying then s
  else if idxChecks s x then putIdx p k { x with st := .ready } s
  else putIdx p k idx0 (evt Ev.VOCAB_LOST (skReq 0 p) (131072 + 64 * p + k) s)

/-! ### SEARCH (R321-R327) -/

/-- The copy on a die, to be read. -/
def viewOf (s : State) (x : IdxSlot) (die : Nat) : IdxView :=
  let a := x.copies.getD die 0
  ⟨x.hdr, fun off n => leNat (memRead s.mem (a + off) n)⟩

/-- The elements of query j that the distance uses, NaN and infinities replaced (R144, R320); and whether any was replaced. -/
def queryElems (qb : List Byte) (fmt dim j : Nat) (c : DistCfg) : List Ex × Bool :=
  let b := elemBytes fmt
  let raw := (List.range c.count).map fun i => leNat ((qb.drop ((j * dim + c.first + i) * b)).take b)
  let cl := raw.map fun v => if fmt = 0 then bf16Clean v else if fmt = 1 then f8Clean v else (v, false)
  (cl.map fun e => exElem fmt e.1, cl.any (·.2))

/-- Whether the traversal read poison: vectors and norms of the nodes visited, neighbours of those expanded, attributes. -/
def travPoison (s : State) (a : Nat) (h : List Byte) (c : SearchCfg) (nodes done : List Nat) : Bool :=
  let b := elemBytes (xFmt h)
  (nodes.any fun n => poisoned s (a + xVec h + (n * xDim h + c.dist.first) * b) (c.dist.count * b) ||
    (c.dist.post == 2 && poisoned s (a + xNorm h + 4 * n) 4) || (c.filt && poisoned s (a + xAttr h + 8 * n) 8)) ||
  done.any fun n => poisoned s (a + xAdj h + 4 * xDegree h * n) (4 * xDegree h)

/-- The search record, the queries and the weights of a SEARCH, as staged (R322). -/
structure Staging where
  record : List Byte
  qs  : List Byte
  ws  : List Byte

/-- Reads what a SEARCH stages. -/
def stageSearch (d : BitVec 512) (q : Req) (x : IdxSlot) (s : State) : Verdict × Staging × State :=
  let none_ : Staging := ⟨[], [], []⟩
  match readPlain q (fld d 24 8) 128 s with
  | (v, r, s) =>
    if v.st ≠ 0 then (v, none_, s)
    else
      let fmt := if fld d 19 1 = 0 then 0 else xFmt x.hdr
      match readPlain q (fld d 32 8) (fld d 18 1 * xDim x.hdr * elemBytes fmt) s with
      | (v, qs, s) =>
        if v.st ≠ 0 then (v, none_, s)
        else
          let c := distOf r (xDim x.hdr)
          if c.wAt = 0 ∨ !searchRecOk r x.hdr then (okV, ⟨r, qs, []⟩, s)
          else match readPlain q c.wAt (4 * c.count) s with
            | (v, ws, s) => (v, ⟨r, qs, ws⟩, s)

/-- Runs every query of a SEARCH on one copy: none where a read met poison. -/
def runQueries (s : State) (d : BitVec 512) (x : IdxSlot) (die : Nat) (g : Staging) : Option (List QOut × Bool) :=
  let c := searchCfg g.record (xDim x.hdr)
  let v := viewOf s x die
  let a := x.copies.getD die 0
  let fmt := if fld d 19 1 = 0 then 0 else xFmt x.hdr
  let w := if g.ws = [] then [] else (List.range c.dist.count).map fun i => exF32 (bAt g.ws (4 * i) 4)
  let outs := (List.range (fld d 18 1)).map fun j =>
    let q := queryElems g.qs fmt (xDim x.hdr) j c.dist
    if bit (fld d 17 1) 7 then
      (fullQuery v c q.1 w, q.2, travPoison s a x.hdr c (List.range (xNodes x.hdr)) [])
    else
      let t := graphQuery v c q.1 w
      (t.1, q.2, travPoison s a x.hdr c (t.2.seen.map (·.1)) t.2.done)
  if outs.any (·.2.2) then none else some (outs.map (·.1), outs.any (·.2.1))

/-- Counters and log entries of a search (R314, R320, R333). -/
def searchNotes (p : Nat) (q : Req) (full : Bool) (c : SearchCfg) (outs : List QOut) (nonf : Bool) (s : State) : State :=
  let tot (f : QOut → Nat) : Nat := (outs.map f).foldl (· + ·) 0
  let s := ctrAdd .SK_QUERY_CNT 0 p outs.length (ctrAdd .SK_EVAL_CNT 0 p (tot (·.evals)) (ctr .SK_SEARCH_CNT p s))
  let s := ctrAdd .SK_EVAL_LIMIT_CNT 0 p (outs.filter (·.limit)).length (ctrAdd .SK_WIDEN_CNT 0 p (tot (·.widen)) s)
  let s := ctrAdd .SK_FILTER_TEST_CNT 0 p (tot (·.tested)) (ctrAdd .SK_FILTER_REJECT_CNT 0 p (tot (·.rejected)) s)
  let s := ctrAdd .SK_SHORT_CNT 0 p (outs.filter fun o => o.res.length < c.k).length s
  let s := if full then ctr .SK_EXHAUSTIVE_CNT p s else s
  let s := if 0 < tot (·.bad) then evt Ev.SKEIN_BAD_EDGE q (tot (·.bad)) (ctrAdd .SK_BAD_EDGE_CNT 0 p (tot (·.bad)) s) else s
  if nonf then evt Ev.SKEIN_NONFINITE q 0 (ctr .SK_NONFINITE_CNT p s) else s

/-- The copy on a die has returned poison (R318): the die leaves the mask; an empty mask empties the slot. -/
def idxPoison (p k die : Nat) (q : Req) (s : State) : State :=
  let x := idxOf s p k
  let m := x.mask - (if bit x.mask die then 2 ^ die else 0)
  evt Ev.SKEIN_INDEX_POISON q (x.copies.getD die 0) (ctr .SK_POISON_CNT p
    (putIdx p k (if m = 0 then idx0 else { x with mask := m }) s))

/-- Blocks of a search that is not sharded (R326). -/
def plainBlocks (k serial : Nat) (outs : List QOut) : List Byte :=
  (outs.map fun o => resBlock k (o.res.map fun e => (e.1, e.2, 0)) o.widen o.evals o.tested o.rejected 0 0 serial o.limit []).flatten

/-- Merge-area bytes in use (SK_PART_MERGE_USED). -/
def mergeUsed (s : State) (p : Nat) : Nat :=
  ((s.sk.runs.filter fun r => r.part == p).map (·.bytes)).foldl (· + ·) 0 +
  ((s.sk.holds.filter fun r => r.part == p).map (·.bytes)).foldl (· + ·) 0

/-- An address lies in the partition's merge area. -/
def inMerge (s : State) (p a : Nat) : Bool :=
  match partPlan s p with
  | some pl => pl.mergeBase ≤ a && a < pl.mergeBase + 65536 * pl.mergePages
  | none => false

/-- A SEARCH on this device alone (R323-R327): the blocks at OUT, then the record. Blocks written to the merge area are held
for their home (R329). -/
def searchHere (ring : Nat) (d : BitVec 512) (p die eng : Nat) (x : IdxSlot) (g : Staging) (s : State) : State :=
  let q := skReq eng p
  let k := fld d 17 1 % 64
  let c := searchCfg g.record (xDim x.hdr)
  let size := fld d 18 1 * blockBytes c.k
  let o := fld d 40 8
  let w := outCheck s q o (if dSealed d && isHost o then sealedLen size else size)
  if w.st ≠ 0 then finish ring d w.st w.det s
  else match runQueries s d x die g with
    | none => finish ring d stFaultContext 0 (idxPoison p k die q s)
    | some (outs, nonf) =>
      let s := searchNotes p q (bit (fld d 17 1) 7) c outs nonf s
      let s := writeOutput d o (plainBlocks c.k (dTag d) outs) s
      let s := if inMerge s p o then { s with sk.holds := s.sk.holds ++ [⟨p, dTag d, size, now s⟩] } else s
      finish ring d (if outs.any (·.limit) then stDoneLimit else stDone) 0 s

/-- Fields of a SEARCH (R321, R325, R328). -/
def searchForm (s : State) (p : Nat) (d : BitVec 512) : Bool :=
  1 ≤ fld d 18 1 && fld d 18 1 ≤ 64 && fld d 19 1 ≤ 1 && fld d 20 4 == 0 && fld d 56 8 == 0 && fld d 24 8 < hbmEnd &&
  fld d 32 8 % 64 == 0 && fld d 32 8 < billetEnd && fld d 40 8 % 64 == 0 &&
  (if bit (fld d 17 1) 6 then bit (rg s .SK_PART_CFG p) 0 && fld d 48 8 < hbmEnd else fld d 48 8 == 0) &&
  (!bit (fld d 17 1) 7 || bit (rg s .SK_PART_CFG p) 1)

/-! ### Sharded search (R328-R330) -/

/-- One entry of a shard table. -/
structure ShardEnt where
  dev  : Nat
  part : Nat
  slot : Nat
  ring : Nat
deriving DecidableEq, Repr

def shardEnt (t : List Byte) (i : Nat) : ShardEnt :=
  let o := 16 + 16 * i
  ⟨bAt t o 2, bAt t (o + 2) 1, bAt t (o + 3) 1 % 64, bAt t (o + 4) 2⟩

/-- A well-formed shard table (R328). -/
def shardTabOk (t : List Byte) : Bool :=
  let n := bAt t 0 2
  1 ≤ n && n ≤ 64 && allZero ((t.drop 2).take 14) && (List.range n).all fun i =>
    let o := 16 + 16 * i
    bAt t (o + 2) 1 < 16 && bAt t (o + 3) 1 < 64 && allZero ((t.drop (o + 6)).take 10)

def putShard (r : ShardRun) (s : State) : State :=
  { s with sk.runs := s.sk.runs.map fun x => if x.part == r.part && x.serial == r.serial then r else x }

/-- The entries of shard i's block for query j: distance, node, shard. -/
def blockRes (b : List Byte) (k i j : Nat) : List (Nat × Nat × Nat) :=
  let o := j * blockBytes k
  (List.range (min k (bAt b o 2))).map fun e => (bAt b (o + 128 + 16 * e + 8) 4, bAt b (o + 128 + 16 * e) 4, i)

/-- Distance, then shard index, then node ID (R329 step 5). -/
def mergeLt (a b : Nat × Nat × Nat) : Bool :=
  distLt a.1 b.1 || (!distLt b.1 a.1 && (a.2.2 < b.2.2 || (a.2.2 == b.2.2 && a.2.1 < b.2.1)))

/-- The merged block of query j. The spec states no figure of merit for the widen steps of a merge: `fv` is a free value. -/
def mergedBlock (r : ShardRun) (fv j : Nat) : List Byte :=
  let all := (r.blocks.map fun e => blockRes e.2 r.k e.1 j).flatten
  let res := (sortBy mergeLt all).take r.k
  let o := j * blockBytes r.k
  let tot (f : Nat) : Nat := (r.blocks.map fun e => bAt e.2 (o + f) 4).foldl (· + ·) 0
  let missing := (List.range r.n).foldl (fun m i => if (nget r.blocks i).isSome then m else m + 2 ^ i) 0
  let status := (List.range 64).map fun i => ngetD r.status i 0xFF
  resBlock r.k res fv (tot 4) (tot 8) (tot 12) r.blocks.length missing r.serial (r.blocks.any fun e => bit (bAt e.2 (o + 3) 1) 0) status

/-- The home merges, writes OUT and completes (R329 steps 5 and 6). -/
def mergeShards (r : ShardRun) (s : State) : State :=
  let q := skReq r.eng r.part
  let missing := r.n - r.blocks.length
  let s := ctrAdd .SK_SHARD_MISSING_CNT 0 r.part missing s
  let s := engDone 0xC r.eng { s with sk.runs := s.sk.runs.filter fun x => !(x.part == r.part && x.serial == r.serial) }
  let size := r.queries * blockBytes r.k
  let o := fld r.desc 40 8
  let w := outCheck s q o (if dSealed r.desc && isHost o then sealedLen size else size)
  let s := if w.st ≠ 0 then finish r.ring r.desc w.st w.det s
    else
      let limited := r.blocks.any fun e => (List.range r.queries).any fun j => bit (bAt e.2 (j * blockBytes r.k + 3) 1) 0
      let out := ((List.range r.queries).map (mergedBlock r (Config.free s.fv % 256))).flatten
      finish r.ring r.desc (if 0 < missing || limited then stDoneLimit else stDone) 0 (useFree (writeOutput r.desc o out s))
  idxDrained r.part (fld r.desc 17 1 % 64) s

/-- Merges once every shard has answered and been read or recorded. -/
def mergeIfAll (r : ShardRun) (s : State) : State := if r.status.length = r.n then mergeShards r s else s

/-- Sends a shard its search as a peer submission: the descriptor with its record and queries, then the index (R329 step 2,
R409). Where they land at the remote is not known to the spec: free values (log 29). -/
def sendShard (r : ShardRun) (i : Nat) (e : ShardEnt) (g : Staging) (s : State) : State :=
  let fv := Config.free s.fv % 2 ^ 48
  let sv := useFree s
  let body := (r.desc.toNat / 2 ^ 128) % 2 ^ 8 + 2 ^ 8 * e.slot + (if bit (fld r.desc 17 1) 7 then 2 ^ 15 else 0) +
    2 ^ 16 * fld r.desc 18 1 + 2 ^ 24 * fld r.desc 19 1
  let desc := leBytes 2 r.serial ++ leBytes 1 0 ++ leBytes 1 1 ++ leBytes 12 0 ++ leBytes 48 body
  let s := ctr .SK_SHARD_SENT_CNT r.part sv
  match hfIssue tyStore e.dev r.part fv (64 + g.record.length + g.qs.length) 0 (desc ++ g.record ++ g.qs) (.shard r.serial i) s with
  | none => putShard { r with status := nset r.status i stTargetReset } s
  | some s =>
    (hfIssue tyStore e.dev r.part (0xFFFF02000000 + 0x200 * e.ring) 4 0 (leBytes 4 (Config.free s.fv)) (.shard r.serial i) (useFree s)).getD s

/-- A local shard is searched here (R328). -/
def localShard (r : ShardRun) (i : Nat) (e : ShardEnt) (g : Staging) (s : State) : State :=
  let x := idxOf s r.part e.slot
  let c := searchCfg g.record (xDim x.hdr)
  if e.part ≠ r.part ∨ x.st ≠ .ready then putShard { r with status := nset r.status i stRefusedCapacity } s
  else match textOn s r.part 0xC (dieBits x.mask) with
    | none => putShard { r with status := nset r.status i stRefusedCapacity } s
    | some (die, eng) =>
      if !searchRecOk g.record x.hdr then putShard { r with status := nset r.status i stFaultContext } s
      else match runQueries s r.desc x die g with
        | none => putShard { r with status := nset r.status i stFaultContext } (idxPoison r.part e.slot die (skReq eng r.part) s)
        | some (outs, nonf) =>
          let s := searchNotes r.part (skReq eng r.part) (bit (fld r.desc 17 1) 7) c outs nonf s
          putShard { r with status := nset r.status i (if outs.any (·.limit) then stDoneLimit else stDone),
                            blocks := nset r.blocks i (plainBlocks r.k r.serial outs) } s

def shardOf (s : State) (p serial : Nat) : Option ShardRun := s.sk.runs.find? fun r => r.part == p && r.serial % 65536 == serial

/-- Shards in table order: the home's own is searched, the others are sent. -/
def startShards (p serial : Nat) (t : List Byte) (g : Staging) : List Nat → State → State
  | [], s => s
  | i :: rest, s =>
    match shardOf s p serial with
    | none => s
    | some r =>
      let e := shardEnt t i
      startShards p serial t g rest (if e.dev = ownId s then localShard r i e g s else sendShard r i e g s)

/-- A sharded SEARCH at its home (R329, R330). -/
def searchSharded_ (ring : Nat) (d : BitVec 512) (p eng : Nat) (g : Staging) (c : SearchCfg) (s : State) : State :=
  let q := skReq eng p
  match readPlain q (fld d 48 8) 16 s with
  | (v, h, s) =>
    if v.st ≠ 0 then finish ring d v.st v.det s
    else match readPlain q (fld d 48 8) (16 + 16 * min 64 (bAt h 0 2)) s with
      | (v, t, s) =>
        let n := bAt t 0 2
        let ans := rg s .SK_PART_ANSWER_RING p
        let bytes := n * fld d 18 1 * blockBytes c.k
        let room := (match partPlan s p with | some pl => 65536 * pl.mergePages | none => 0) - mergeUsed s p
        if v.st ≠ 0 then finish ring d v.st v.det s
        else if !shardTabOk t then hbad ring d 0 s
        else if ans = 0xFFFF then finish ring d stRefusedCapacity hintNever s
        else if room < bytes then finish ring d stRefusedCapacity (hintOf s) (useFree s)
        else
          let serial := s.sk.serial
          let r : ShardRun := ⟨ring, d, p, serial, n, c.k, fld d 18 1, c.tmo, now s, eng, bytes, [], []⟩
          let s := engTake 0xC eng { s with sk.runs := s.sk.runs ++ [r], sk.serial := (serial + 1) % 2 ^ 64 }
          let s := startShards p (serial % 65536) t g (List.range n) s
          match shardOf s p (serial % 65536) with
          | some r => mergeIfAll r s
          | none => s

/-- SEARCH, of every kind (R321-R329). -/
def searchOp (ring : Nat) (d : BitVec 512) (s : State) : State :=
  skEntry 0x72 ring d true (fun p s =>
    let k := fld d 17 1 % 64
    let x := idxOf s p k
    if !searchForm s p d then hbad ring d 0 s
    else if x.st ≠ .ready then imgRefuse ring d x.st s
    else match textOn s p 0xC (dieBits x.mask) with
      | none => finish ring d stRefusedCapacity hintNever s
      | some (die, eng) =>
        match stageSearch d (skReq eng p) x s with
        | (v, g, s) =>
          if v.st ≠ 0 then finish ring d v.st v.det s
          else if !searchRecOk g.record x.hdr then hbad ring d 0 s
          else if bit (fld d 17 1) 6 then searchSharded_ ring d p eng g (searchCfg g.record (xDim x.hdr)) s
          else searchHere ring d p die eng x g s) s

/-- SHARD_ANSWER (R329 steps 4 and 5): `blocks` are the bytes the home's Splice reads from the remote window, none where the
read fails. An answer without a live serial is dropped. -/
def shardAnswerOp (p serial i st : Nat) (blocks : Option (List Byte)) (s : State) : State :=
  match shardOf s p serial with
  | none => ctr .SK_SHARD_LATE_CNT p s
  | some r =>
    if r.n ≤ i ∨ (nget r.status i).isSome then ctr .SK_SHARD_LATE_CNT p s
    else
      let b := (blocks.getD []).take (r.queries * blockBytes r.k)
      let good := st < 2 && b.length == r.queries * blockBytes r.k &&
        (List.range r.queries).all fun j => bAt b (j * blockBytes r.k + 32) 8 == serial
      let r := { r with status := nset r.status i st, blocks := if good then nset r.blocks i b else r.blocks }
      mergeIfAll r (putShard r s)

/-- SHARD_TIMEOUT (R329 step 5). -/
def shardTimeoutOp (p serial : Nat) (s : State) : State :=
  match shardOf s p serial with
  | some r => if r.start + 1000 * r.tmo ≤ now s then mergeShards r s else s
  | none => s

/-- SHARD_HOLD_EXPIRY (R329): held result blocks are released. -/
def shardHoldOp (p serial : Nat) (s : State) : State :=
  { s with sk.holds := s.sk.holds.filter fun h =>
      !(h.part == p && h.serial == serial && h.since + 1000 * rg s .SK_PART_HOLD_US p ≤ now s) }

/-- A fence of a Skein engine: its sharded searches go on on another engine, same outputs (R327). -/
def skeinFence (e : Nat) (s : State) : State :=
  (s.sk.runs.filter fun r => r.eng == e).foldl (fun s r =>
    match textOn s r.part 0xC [e / 4, 0, 1, 2, 3] with
    | some (_, k) => ctr .SK_RESTART_CNT r.part (engDone 0xC e (engTake 0xC k (putShard { r with eng := k } s)))
    | none => s) s

/-- An ABORT of a Skein engine (R327). -/
def skeinAbort (e : Nat) (s : State) : State :=
  (s.sk.runs.filter fun r => r.eng == e).foldl (fun s r =>
    let s := engDone 0xC e { s with sk.runs := s.sk.runs.filter fun x => !(x.part == r.part && x.serial == r.serial) }
    idxDrained r.part (fld r.desc 17 1 % 64) (finish r.ring r.desc stFaultContext 0 s)) s

end Sys2Proof.Machine
end

