-- ==== Sys2Proof/Machine/Spindle.lean ====
section
/-! DEFINITION. Spindle rings (chapter 7): ring contexts, formation, the gather path, the rotation path, faltering members;
and ATTEND, which takes the gather path for a Spindle session (R211-R229). -/

namespace Sys2Proof.Machine

def spn0 : SpnCtx :=
  { st := 0, rank := 0, n := 0, sw := 0, spm := 0, slot := 0, ringId := 0, table := [], period := 0, t0 := 0, digest := 0,
    dPred := none, dSucc := none, formAt := 0, predAt := 0, succAt := 0, slow := false, slips := 0, disarm := false,
    failRank := 0, failCause := 0, reqs := [], fills := [], rx := 0, held := [], sent := 0 }

def ctxOf (s : State) (c : Nat) : SpnCtx := ngetD s.spn c spn0
def putCtx (c : Nat) (x : SpnCtx) (s : State) : State := { s with spn := nset s.spn c x }

/-- The context of a ring by its RING_ID (R217). -/
def ringCtx (s : State) (id : Nat) : Option (Nat × SpnCtx) := s.spn.find? fun e => e.2.st != 0 && e.2.ringId == id

/-- Units of one rank's range (R212). -/
def rankUnits (x : SpnCtx) : Nat := 2 ^ (x.sw + x.spm)
def rankTokens (x : SpnCtx) : Nat := 128 * rankUnits x
def rankOf (x : SpnCtx) (pos : Nat) : Nat := pos / rankTokens x

def devOf (x : SpnCtx) (r : Nat) : Nat := hHome (x.table.getD r 0)
def predRank (x : SpnCtx) : Nat := (x.rank + x.n - 1) % x.n
def succRank (x : SpnCtx) : Nat := (x.rank + 1) % x.n

def spnPart (s : State) (c : Nat) : Nat := bits (rg s .LG_SPN_PART c) 3 0

def spnReq (s : State) (c : Nat) : Req := latheReq s (spnPart s c)

/-- Sends a unit message to a rank; a message that cannot leave is lost, and the timeouts of R219 and R228 act. -/
def spnSend (c dst code : Nat) (data : List Byte) (what : HfWhat) (s : State) : State :=
  (hfIssue tyMsg dst (spnPart s c) code data.length 0 data what s).getD s

/-! ### Going DOWN (R219, R228) -/

/-- The context falls to DOWN: DOWN is reported to the neighbours named, requests in flight complete with `st`. -/
def spnDown (c cause rank st : Nat) (tell : List Nat) (s : State) : State :=
  let x := ctxOf s c
  if x.st = 0 then s
  else
    let s := ctr .LG_SPN_DOWN_CNT (spnPart s c) s
    let s := tell.foldl (fun s d => spnSend c d 0x13 (leBytes 2 x.ringId ++ leBytes 1 2 ++ leBytes 2 0) (.ring c 2 0) s) s
    let s := putCtx c { x with st := 0, slow := false, slips := 0, disarm := false, failRank := rank, failCause := cause,
                               reqs := [], fills := [], held := [], sent := 0, rx := 0 } s
    let s := x.fills.foldl (fun s f => if f.done then s else complete f.ring f.desc st 0 0 0 (aHandle f.desc) 0 s) s
    if x.rank = 0 then x.reqs.foldl (fun s r => complete r.ring r.desc st 0 0 0 (aHandle r.desc) 0 s) s else s

/-- A formation fails (R219). -/
def formFail (c cause rank : Nat) (s : State) : State :=
  let x := ctxOf s c
  evt Ev.SPINDLE_FORM_FAILED (spnReq s c) (rank + 1024 * cause)
    (putCtx c { x with st := 0, failRank := rank, failCause := cause } s)

/-! ### Formation (R217, R218) -/

def spnTable (s : State) (c : Nat) : Nat := rg64 s .LG_SPN_TABLE_LO .LG_SPN_TABLE_HI c
def spnBuf (s : State) (c : Nat) : Nat := rg64 s .LG_SPN_BUF_LO .LG_SPN_BUF_HI c

/-- The ring table as it stands in T1; none where malformed. -/
def readTable (s : State) (c : Nat) : Option SpnCtx :=
  let a := spnTable s c
  let f (o n : Nat) : Nat := rdNat s (a + o) n
  let n := f 2 2
  let t := (List.range n).map fun r => f (64 + 8 * r) 8
  if 2 ≤ n ∧ n ≤ 1024 ∧ f 4 1 ≤ 12 ∧ f 5 1 ≤ 10 ∧ f 6 2 = 0 ∧ f 12 4 = 0 ∧ f 26 6 = 0 ∧ f 44 20 = 0 ∧ 1000 ≤ f 8 4 then
    some { spn0 with n := n, sw := f 4 1, spm := f 5 1, ringId := f 0 2, table := t, period := f 8 4, t0 := f 16 10 }
  else none

/-- The entry that names this device and the context's partition. -/
def myRank (s : State) (c : Nat) (t : List Nat) : Option Nat :=
  ((enum0 t).find? fun e => hHome e.2 == ownId s && hPart e.2 == spnPart s c).map (·.1)

/-- Bytes of one unit in one layer, in the wider of the two formats (R227). -/
def unitBytes (pol : BitVec 512) : Nat := blkBytes pol (min (pBody pol) (pWin pol))

/-- LG_SPN_BUF_SIZE holds two layer shards (R227). -/
def bufOk (s : State) (c : Nat) (x : SpnCtx) (pol : BitVec 512) : Bool := 2 * rankUnits x * unitBytes pol ≤ 65536 * rg s .LG_SPN_BUF_SIZE c

/-- ARM (R218): the checks, then the digest goes to both neighbours. -/
def armOp (c : Nat) (s : State) : State :=
  if (ctxOf s c).st ≠ 0 then s
  else
    let a := spnTable s c
    let v := inCheck s (spnReq s c) a 64
    match (if v.st = 0 then readTable s c else none) with
    | none => formFail c 2 0 s
    | some x =>
      let w := inCheck s (spnReq s c) a (64 + 8 * x.n)
      match (if w.st = 0 then myRank s c x.table else none) with
      | none => formFail c 2 0 s
      | some r =>
        let h := x.table.getD r 0
        let sl := slotOf s (hSlot h)
        let x := { x with rank := r, slot := hSlot h, formAt := now s, predAt := now s, succAt := now s }
        let ok := (sl.st == .active || sl.st == .parkedHot) && slotIn s (hPart h) (hSlot h) && sl.gen == hGen h
        if !ok then formFail c 2 r s
        else if rdNat s (a + 32) 12 ≠ sl.policy.toNat % 2 ^ 96 ∨ 67108864 / pLayers sl.policy < rankUnits x ∨
            !bufOk s c x sl.policy ∨ !hfMember s ∨ isConf s (spnPart s c) then formFail c 2 r s
        else
          let dg := leNat ((sha256 (rdBytes s a (64 + 8 * x.n))).take 8)
          let s := putCtx c { x with st := 1, digest := dg } s
          let m := leBytes 2 x.ringId ++ leBytes 1 1 ++ leBytes 5 0 ++ leBytes 8 dg
          spnSend c (devOf x (predRank x)) 0x10 m (.ring c 0 0) (spnSend c (devOf x (succRank x)) 0x10 m (.ring c 1 0) s)

/-- Both neighbours have reported: UP when they agree (R218). -/
def formSettle (c : Nat) (s : State) : State :=
  let x := ctxOf s c
  match x.dPred, x.dSucc with
  | some a, some b => if x.st ≠ 1 then s
      else if a = x.digest ∧ b = x.digest then putCtx c { x with st := 2 } s
      else formFail c 1 (if a = x.digest then succRank x else predRank x) s
  | _, _ => s

/-- A neighbour's digest arrives (R218, R440). With two members one neighbour is both. -/
def digestFrom (c src dg : Nat) (s : State) : State :=
  let x := ctxOf s c
  if x.st ≠ 1 then s
  else
    let x := if devOf x (predRank x) = src then { x with dPred := some dg, predAt := now s } else x
    let x := if devOf x (succRank x) = src then { x with dSucc := some dg, succAt := now s } else x
    formSettle c (putCtx c x s)

/-- SPN_DIGEST: answered with the own digest (R440). -/
def spnDigestOp (src tag ringId dg : Nat) (s : State) : State :=
  match ringCtx s ringId with
  | none => hfRespond 0x84 src tag stDone 0 (leBytes 8 0) s
  | some (c, x) => hfRespond 0x84 src tag stDone 0 (leBytes 8 x.digest) (digestFrom c src dg s)

/-- DISARM (R219): new work is refused; DOWN once admitted work has finished. -/
def disarmSettle (c : Nat) (s : State) : State :=
  let x := ctxOf s c
  if x.disarm ∧ x.reqs = [] ∧ (x.fills.all (·.done)) then spnDown c 6 x.rank stTargetReset [devOf x (predRank x), devOf x (succRank x)] s else s

def disarmOp (c : Nat) (s : State) : State :=
  let x := ctxOf s c
  if x.st = 2 then disarmSettle c (putCtx c { x with disarm := true } s)
  else if x.st = 1 then spnDown c 6 x.rank stTargetReset [] s else s

/-- ABORT (R219, R228). -/
def spnAbortOp (c : Nat) (s : State) : State :=
  let x := ctxOf s c
  spnDown c 7 x.rank stTargetReset [devOf x (predRank x), devOf x (succRank x)] s

/-! ### Gather (R221-R223) -/

/-- First and last position that any row of a request sees. -/
def seenRange (rows : List ARow) (tok : Nat) : Nat × Nat :=
  (rows.foldl (fun l r => min l (rowLo r)) tok, rows.foldl (fun h r => max h r.pos) tok)

/-- A rank holds a visible unit of a request (R221). -/
def rankSees (x : SpnCtx) (rows : List ARow) (tok r : Nat) : Bool :=
  let v := seenRange rows tok
  r < x.n && r * rankTokens x ≤ v.2 && v.1 < (r + 1) * rankTokens x

/-- A member's view of its own range (R212, R213). -/
def rankView (s : State) (x : SpnCtx) (tok : Nat) : AView :=
  let y := slotOf s x.slot
  let b := x.rank * rankUnits x
  let lo := 128 * b
  let hi := if x.rank = 0 then min tok (rankTokens x) else lo + y.tokens
  ⟨y, b, lo, hi, tok, []⟩

/-- The state of every row and head over one rank's shards, combined as its subtree (R215). -/
def rankStates (s : State) (x : SpnCtx) (v : AView) (st : Step) (d : BitVec 512) (q : List Byte) (rows : List ARow) : List (LSt × Nat) :=
  let sw := 2 ^ x.sw
  let shard (j : Nat) : List (LSt × Nat) := foldStates s v st d q rows (unitsOf v rows (j * sw) (j * sw + sw))
  let all := (List.range (2 ^ x.spm)).map fun k => shard (x.rank * 2 ^ x.spm + k)
  (List.range (rows.length * pHeads v.x.policy * aGq d)).map fun i =>
    shardTree (pHd v.x.policy) 11 (all.map fun l => l.getD i (lst0, 0))

/-- Trailing zeros of a rank below a bound. -/
def trailing (r : Nat) : Nat → Nat
  | 0 => 0
  | n + 1 => if r % 2 = 1 then 0 else trailing (r / 2) n + 1

/-- Tree children of a rank that hold a visible unit below them (R221). -/
def treeKids (x : SpnCtx) (rows : List ARow) (tok : Nat) : List Nat :=
  let t := if x.rank = 0 then 10 else trailing x.rank 10
  ((List.range t).map fun k => (x.rank + 2 ^ k, 2 ^ k)).filterMap fun e =>
    if e.1 < x.n ∧ (List.range e.2).any fun i => rankSees x rows tok (e.1 + i) then some e.1 else none

/-- The parent in the tree. -/
def treeParent (x : SpnCtx) : Nat := x.rank - 2 ^ trailing x.rank 10

/-- Bytes of a state: m, l, o in FP32 (R440). -/
def stateBytes (hd : Nat) (a : LSt) : List Byte :=
  leBytes 4 (a.m.getD 0xFF800000) ++ leBytes 4 a.l ++ ((List.range hd).map fun i => leBytes 4 (a.o.getD i 0)).flatten

def stateOf (hd : Nat) (bs : List Byte) : LSt :=
  let m := leNat (bs.take 4)
  if m = 0xFF800000 then lst0
  else ⟨some m, leNat ((bs.drop 4).take 4), (List.range hd).map fun i => leNat ((bs.drop (8 + 4 * i)).take 4)⟩

/-- Combines what a rank holds: its own states, then each child's in ascending rank (R215, R221). -/
def gatherAll (hd : Nat) (r : SpnReq) : List LSt :=
  r.got.foldl (fun a g => (a.zip g.2).map fun e => (combine hd e.1 e.2).1) r.own

/-- A rank that has its own state and every child's: it sends the subtree's state up, or the home writes the output (R221). -/
def gatherSettle (c : Nat) (r : SpnReq) (s : State) : State :=
  let x := ctxOf s c
  if r.need ≠ [] then putCtx c { x with reqs := x.reqs.map fun y => if y.layer == r.layer && y.step == r.step && y.desc == r.desc then r else y } s
  else
    let pol := (slotOf s x.slot).policy
    let a := gatherAll (pHd pol) r
    let s := putCtx c { x with reqs := x.reqs.filter fun y => !(y.layer == r.layer && y.step == r.step && y.desc == r.desc) } s
    if x.rank ≠ 0 then
      let data := leBytes 2 x.ringId ++ leBytes 2 r.layer ++ leBytes 2 r.step ++ leBytes 2 x.rank ++ leBytes 2 r.fl ++ leBytes 6 0 ++
        (a.map (stateBytes (pHd pol))).flatten
      spnSend c (devOf x (treeParent x)) 0x12 data (.ring c 3 r.step) (ctr .LG_SPN_STATE_TX_CNT (spnPart s c) s)
    else
      let out := (a.map fun e => outBytes (pHd pol) (aOfmt r.desc) e).flatten
      let s := if isHost (aOut r.desc) then dmaAdd r.ring r.desc none s else s
      disarmSettle c
        { s with la.reqs := s.la.reqs ++ [⟨r.ring, r.desc, x.slot, spnPart s c, .running, [], out, r.fl, now s⟩] }

/-- ATTEND of a Spindle session at the home (R214, R221). -/
def gatherStart (ring : Nat) (d : BitVec 512) (n p c : Nat) (s : State) : State :=
  let ctx := ctxOf s c
  let bad (s : State) : State := complete ring d stFaultContext 0 0 0 (aHandle d) 0 s
  let first (s : State) : State :=
    let x := slotOf s n
    if x.st = .stepping then s
    else commitSlot n { x with st := .stepping, step := some (step0 (aStep d)) } (ctr .HT_STEP_ADMIT_CNT p s)
  let x := slotOf s n
  if x.st = .stepping ∧ (x.step.any fun st => st.serial != aStep d) = true then
    if stepEnded x (aStep d) then bad s else holdCmd ring d n s
  else if stepEnded x (aStep d) ∨ !attendOk d x.policy then bad s
  else if aVerify d && !genOpenNow s n then
    complete ring d (noGenStatus s n (aHandle d)) 0 0 0 (aHandle d) 0 (failStep n s)     -- R282
  else
    let v := attendReach s (latheReq s p) d x.policy
    if v.st ≠ 0 then complete ring d v.st 0 0 0 (aHandle d) v.det (inFail (latheReq s p) (aIn d) v s)
    else
      let s := first s
      let x := slotOf s n
      let st := x.step.getD (step0 (aStep d))
      let par := reqParents s d x.policy
      let all := stagedPar st (aLayer d) ++ par
      let rows := aRowsOf d x.tokens all (aBase d) (aRows d)
      let hi := rows.foldl (fun h r => max h r.pos) x.tokens
      let tail := rankOf ctx x.tokens
      if ctx.n * rankTokens ctx ≤ hi ∨ 2 ^ 32 - 1 ≤ hi then complete ring d stRefusedCapacity 0 0 0 (aHandle d) hintNever s
      else if !stageOk d x.policy st par 0 ∨ rankOf ctx hi ≠ tail then bad s
      else
        let kv := newKv s d x.policy
        let q := rdBytes s (aIn d) (qBytes d x.policy (aRows d))
        -- the home stages the rows itself when it is the tail; else it keeps only the tree
        let s := if tail = 0 then (stageRows n d 0 par kv.1 kv.2 x.tokens s).getD s
          else putSlot n { x with step := some { st with staged := st.staged ++ [⟨aLayer d, aBase d, aRows d, par, []⟩]
                                                         rows := max st.rows (aBase d + aRows d), tree := aTree d } } s
        let goal := (List.range ctx.n).filter fun r => r ≠ 0 && (rankSees ctx rows x.tokens r || r == tail)
        let head := leBytes 2 ctx.ringId ++ leBytes 2 (aLayer d) ++ leBytes 2 (aStep d) ++ leBytes 1 (aRows d) ++ leBytes 1 0
        let s := goal.foldl (fun s r => spnSend c (devOf ctx r) 0x11
          (head ++ q ++ (all.map (leBytes 2)).flatten ++ (if r = tail then kv.1 ++ kv.2 else [])) (.ring c 4 (aStep d)) s) s
        let s := ctr .LG_SPN_GATHER_CNT p s
        let w := rankView s ctx x.tokens
        let own := rankStates s ctx w ((slotOf s n).step.getD st) d q rows
        let r : SpnReq := ⟨aLayer d, aStep d, d, ring, x.tokens, all, own.map (·.1), [], treeKids ctx rows x.tokens, 0, now s⟩
        let y := ctxOf s c
        gatherSettle c r (countHops w ((slotOf s n).step.getD st) d rows (putCtx c { y with reqs := y.reqs ++ [r] } s))

/-- SPN_WORK at a rank (R221): stages at the tail rank, computes its own states, waits for its children. The request's
descriptor and the home's TOKENS come with the message (log 22). -/
def spnWorkOp (src tag ringId layer step : Nat) (d : BitVec 512) (tok : Nat) (q : List Byte) (par : List Nat) (k v : List Byte) (s : State) : State :=
  match ringCtx s ringId with
  | none => hfRespond 0x84 src tag stStaleHandle 0 [] s
  | some (c, ctx) =>
    let s := hfRespond 0x84 src tag stDone 0 [] s
    let n := ctx.slot
    let x := slotOf s n
    let rows := aRowsOf d tok par (aBase d) (aRows d)
    let st := x.step.getD (step0 step)
    let s := putSlot n { x with step := some st } s
    let s := if k = [] ∧ v = [] then putSlot n x s
      else (stageRows n d (ctx.rank * rankUnits ctx) (par.drop (aBase d)) k v tok s).getD s
    let w := rankView s ctx tok
    let own := rankStates s ctx w ((slotOf s n).step.getD st) d q rows
    let r : SpnReq := ⟨layer, step, d, 0, tok, par, own.map (·.1), [], treeKids ctx rows tok, 0, now s⟩
    gatherSettle c r (countHops w ((slotOf s n).step.getD st) d rows (putCtx c { ctx with reqs := ctx.reqs ++ [r] } s))

/-- SPN_STATE: a child's subtree state arrives (R221). Flags are ORed (R222). -/
def spnStateOp (src tag ringId layer step rank fl : Nat) (data : List Byte) (s : State) : State :=
  match ringCtx s ringId with
  | none => hfRespond 0x84 src tag stStaleHandle 0 [] s
  | some (c, ctx) =>
    let s := hfRespond 0x84 src tag stDone 0 [] s
    let hd := pHd (slotOf s ctx.slot).policy
    match ctx.reqs.find? fun r => r.layer == layer && r.step == step && r.need.contains rank with
    | none => s
    | some r =>
      let sz := 8 + 4 * hd
      let a := (List.range r.own.length).map fun i => stateOf hd (data.drop (sz * i))
      gatherSettle c { r with got := nset r.got rank a, need := r.need.filter (· != rank), fl := r.fl ||| fl } s

/-- SPN_CTL commit at the tail rank (R222): the verified rows are spliced, and the reply acknowledges. -/
def spnCommitOp (src tag ringId tok : Nat) (rows : List Nat) (s : State) : State :=
  match ringCtx s ringId with
  | none => hfRespond 0x84 src tag stStaleHandle 0 [] s
  | some (_, ctx) =>
    hfRespond 0x84 src tag stDone 0 [] (commitStep ctx.slot (ctx.rank * rankUnits ctx) tok rows rows.length s)

/-- SPN_CTL cancel at a rank (R223). -/
def spnCancelOp (src tag ringId step : Nat) (s : State) : State :=
  match ringCtx s ringId with
  | none => hfRespond 0x84 src tag stStaleHandle 0 [] s
  | some (c, ctx) =>
    let s := putCtx c { ctx with reqs := ctx.reqs.filter fun r => r.step != step } s
    let s := if ctx.rank = 0 then s else dropStep ctx.slot s
    hfRespond 0x84 src tag stDone 0 [] s

/-- SPN_CTL down (R219): this context goes DOWN and reports to its other neighbour. -/
def spnDownOp (src tag ringId : Nat) (s : State) : State :=
  match ringCtx s ringId with
  | none => hfRespond 0x84 src tag stDone 0 [] s
  | some (c, x) =>
    let s := hfRespond 0x84 src tag stDone 0 [] s
    let r := if devOf x (predRank x) = src then predRank x else succRank x
    let other := if devOf x (predRank x) = src then devOf x (succRank x) else devOf x (predRank x)
    spnDown c 4 r stTargetReset (if other = src then [] else [other]) s

/-- The home forwards a cancel to every rank (R223). -/
def spnForwardCancel (n : Nat) (s : State) : State :=
  match memberCtx s n with
  | some (c, x) =>
    if x.rank ≠ 0 then s
    else
      let step := match (slotOf s n).step with | some st => st.serial | none => 0
      let s := ((List.range x.n).drop 1).foldl (fun s r =>
        spnSend c (devOf x r) 0x13 (leBytes 2 x.ringId ++ leBytes 1 1 ++ leBytes 2 step) (.ring c 1 step) s) s
      let s := x.reqs.foldl (fun s r => complete r.ring r.desc stCancelledBefore 0 0 0 (aHandle r.desc) 0 s) s
      putCtx c { x with reqs := [] } s
  | none => s

/-! ### Rotation (R224-R227) -/

def fTokens (d : BitVec 512) : Nat := fld d 56 4
def fPass (d : BitVec 512) : Nat := fld d 60 2
def fLog (d : BitVec 512) : Nat := fld d 19 1

/-- Fill positions of a rank's range and of one pass (R224): first position and count. -/
def fillRange (x : SpnCtx) (d : BitVec 512) : Nat × Nat :=
  let lo := x.rank * rankTokens x
  (lo, min (fTokens d) (lo + rankTokens x) - lo)

def passRows (x : SpnCtx) (d : BitVec 512) : Nat × Nat :=
  let f := fillRange x d
  let a := fPass d * 2 ^ fLog d
  (f.1 + a, min (2 ^ fLog d) (f.2 - a))

/-- The rows of a pass as a chain from position 0 (R224). -/
def fillRows (x : SpnCtx) (d : BitVec 512) : List ARow :=
  (List.range (passRows x d).2).map fun r => ⟨(passRows x d).1 + r, [], aWindow d⟩

/-- Every remaining FILL request of a failed fill completes FAULT_CONTEXT (R226). -/
def fillFail (c : Nat) (s : State) : State :=
  let x := ctxOf s c
  let s := putCtx c { x with fills := [], held := [], rx := 0 } s
  x.fills.foldl (fun s f => if f.done then s else complete f.ring f.desc stFaultContext 0 0 0 (aHandle f.desc) 0 s) s

/-- Room for the pending states of a pass (R227). -/
def passFits (s : State) (c : Nat) (x : SpnCtx) (d : BitVec 512) (pol : BitVec 512) : Bool :=
  let depth := Nat.log2 (2 * x.n * 2 ^ x.spm - 1) + 1
  2 * rankUnits x * unitBytes pol + depth * 2 ^ fLog d * pHeads pol * aGq d * (pHd pol + 2) * 4 ≤ 65536 * rg s .LG_SPN_BUF_SIZE c

/-- Encodes the K/V of the rank's whole range into its own blocks (R225 step 1). -/
def fillEncode (n : Nat) (d : BitVec 512) (x : SpnCtx) (s : State) : Option State :=
  let y := slotOf s n
  let pol := y.policy
  let cnt := (fillRange x d).2
  let l := aLayer d
  let a := aIn d + up64 (qBytes d pol (passRows x d).2)
  let kb := cnt * pHeads pol * pHd pol * esz (aNewFmt d)
  let y' := { y with tokens := cnt }
  let enc := (encodeRows d pol cnt (rdBytes s a kb) (rdBytes s (a + up64 kb) kb) (fun r => fmtAt y' (r / 128))).1
  let entries := (((List.range (ceilDiv cnt 128)).map fun b => (List.range (pLayers pol)).map fun k => b * pLayers pol + k).flatten).filter fun e => y.blks.length ≤ e
  match openBlks n y' entries s with
  | none => none
  | some (nb, s) =>
    let bl := y.blks ++ nb.map (·.2)
    let s := nb.foldl (fun s b => setPages b.2.addr (b.2.npages + 1) .allocated y.part n y.gen s) s
    let st : Step := { step0 0 with staged := [⟨l, 0, cnt, [], enc⟩] }
    let s := (List.range cnt).foldl (fun s k => spliceRow y' st bl 0 k k s) s
    some (putSlot n { y with blks := bl, tokens := if x.rank = 0 then y.tokens else cnt } s)

/-- A rank's view during a fill. -/
def fillView (s : State) (x : SpnCtx) (d : BitVec 512) : AView :=
  let f := fillRange x d
  let y := slotOf s x.slot
  ⟨{ y with tokens := f.2 }, x.rank * rankUnits x, f.1, f.1 + f.2, fTokens d, []⟩

/-- FILL done at this rank: every shard is folded; the output is written once acknowledged. -/
def fillSettle (c : Nat) (f : FillReq) (s : State) : State :=
  let x := ctxOf s c
  let pol := (slotOf s x.slot).policy
  if f.need ≠ [] then putCtx c { x with fills := x.fills.map fun y => if y.desc == f.desc && y.ring == f.ring then f else y } s
  else
    let top := 2 ^ x.spm * x.n
    let out := ((List.range ((passRows x f.desc).2 * pHeads pol * aGq f.desc)).map fun i =>
      outBytes (pHd pol) (aOfmt f.desc) (shardTree (pHd pol) 21 ((List.range top).map fun j => ((ngetD f.parts j []).getD i lst0, 0))).1).flatten
    let s := putCtx c { x with fills := x.fills.map fun y => if y.desc == f.desc && y.ring == f.ring then { f with done := true } else y } s
    { s with la.reqs := s.la.reqs ++ [⟨f.ring, f.desc, x.slot, spnPart s c, .running, [], out, 0, now s⟩] }

/-- FILL at a rank (R224, R225). -/
def fillOp (ring : Nat) (d : BitVec 512) (s : State) : State :=
  latheEntry 0x31 ring d (fun p s =>
    withSlot ring d p (aHandle d) false (fun n x s => deadState ring d p (aHandle d) x (fun s =>
      let bad (s : State) : State := complete ring d stFaultContext 0 0 0 (aHandle d) 0 s
      match memberCtx s n with
      | none => bad s
      | some (c, ctx) =>
        if ctx.st ≠ 2 ∨ ctx.disarm then hrefuse ring d p (aHandle d) hintNever s
        else if !(attendForm d x.policy && fld d 17 1 == 0 && 6 ≤ fLog d && fLog d ≤ 16 && fld d 62 2 == 0) ∨
            (passRows ctx d).2 = 0 ∨ (ctx.rank = 0 ∧ x.tokens ≠ 0) then bad s
        else if !passFits s c ctx d x.policy then hrefuse ring d p (aHandle d) hintNever s
        else
          let v := attendReachFill s (latheReq s p) d x.policy ctx
          if v.st ≠ 0 then complete ring d v.st 0 0 0 (aHandle d) v.det (inFail (latheReq s p) (aIn d) v (fillFail c s))
          else
            let s := ctr .LG_SPN_FILL_CNT p s
            match (if fPass d = 0 then fillEncode n d ctx s else some s) with
            | none => hrefuse ring d p (aHandle d) hintNever s
            | some s =>
              let w := fillView s ctx d
              let rows := fillRows ctx d
              let q := rdBytes s (aIn d) (qBytes d x.policy (passRows ctx d).2)
              let sw := 2 ^ ctx.sw
              let own := (List.range (2 ^ ctx.spm)).map fun k =>
                let j := ctx.rank * 2 ^ ctx.spm + k
                (j, (foldStates s w (step0 0) d q rows (unitsOf w rows (j * sw) (j * sw + sw))).map (·.1))
              let f : FillReq := ⟨ring, d, own, (List.range ctx.rank).reverse, false, now s⟩
              let y := ctxOf s c
              fillSettle c f (countHops w (step0 0) d rows <| putCtx c { y with fills := y.fills ++ [f], held := y.held ++ [(aLayer d, fPass d, ctx.rank)] } s)) s) s) s
where
  /-- The payload and output of a FILL can be reached. -/
  attendReachFill (s : State) (q : Req) (d : BitVec 512) (pol : BitVec 512) (ctx : SpnCtx) : Verdict :=
    let n := (passRows ctx d).2
    let len := up64 (qBytes d pol n) + (if fPass d = 0 then 2 * up64 ((fillRange ctx d).2 * pHeads pol * pHd pol * esz (aNewFmt d)) else 0)
    let v := inCheck s q (aIn d) len
    if v.st ≠ 0 then v else anyCheck s q .wr (aOut d) (n * pHeads pol * aGq d * pHd pol * (if aOfmt d = 0 then 2 else 4))

/-- The vectors of a foreign shard as its buffer holds them: a slot whose blocks are the buffer's units (R225). -/
def shardView (s : State) (c : Nat) (x : SpnCtx) (d : BitVec 512) (origin half : Nat) : AView :=
  let y := slotOf s x.slot
  let ub := ceilDiv (unitBytes y.policy) 65536
  let a := (spnBuf s c + half * rankUnits x * unitBytes y.policy) / 65536
  let lo := origin * rankTokens x
  let hi := min (fTokens d) (lo + rankTokens x)
  let blks := ((List.range (rankUnits x)).map fun u =>
    List.replicate (pLayers y.policy) (⟨1, false, ub - 1, a + u * ub, false, none, none, []⟩ : Blk)).flatten
  ⟨{ y with tokens := hi - lo, chunks := 0, blks := blks }, origin * rankUnits x, lo, hi, fTokens d, []⟩

/-- A whole layer shard of origin `o` stands in a receive buffer: it is folded into the pass and kept for forwarding (R225). -/
def shardArrived (c layer pass o tokens log : Nat) (s : State) : State :=
  let x := ctxOf s c
  match x.fills.find? fun f => !f.done && aLayer f.desc == layer && fPass f.desc == pass && f.need.head? == some o with
  | none => s
  | some f =>
    if fTokens f.desc ≠ tokens ∨ fLog f.desc ≠ log then fillFail c s
    else
      let w := shardView s c x f.desc o ((x.rank - 1 - o) % 2)
      let rows := fillRows x f.desc
      let q := rdBytes s (aIn f.desc) (qBytes f.desc w.x.policy (passRows x f.desc).2)
      let sw := 2 ^ x.sw
      let parts := (List.range (2 ^ x.spm)).foldl (fun m k =>
        let j := o * 2 ^ x.spm + k
        nset m j ((foldStates s w (step0 0) f.desc q rows (unitsOf w rows (j * sw) (j * sw + sw))).map (·.1))) f.parts
      fillSettle c { f with parts := parts, need := f.need.drop 1 }
        (countHops w (step0 0) f.desc rows (putCtx c { x with held := x.held ++ [(layer, pass, o)] } s))

/-- The bytes of a layer shard that a rank holds: its own blocks, or a receive buffer's (R225). -/
def shardData (s : State) (c : Nat) (x : SpnCtx) (layer o : Nat) (pol : BitVec 512) : List Byte :=
  let ub := unitBytes pol
  if o = x.rank then
    let y := slotOf s x.slot
    ((List.range (rankUnits x)).map fun u => match y.blks[u * pLayers pol + layer]? with
      | some b => rdBytes s (b.addr * 65536) ub
      | none => []).flatten
  else
    let a := (spnBuf s c + ((x.rank - 1 - o) % 2) * rankUnits x * ub) / 65536
    ((List.range (rankUnits x)).map fun u => rdBytes s ((a + u * ceilDiv ub 65536) * 65536) ub).flatten

/-- SPN_GATE_BOUNDARY (R225, R228): a held shard leaves for the successor, or a slip is counted. -/
def gateOp (c : Nat) (s : State) : State :=
  let x := ctxOf s c
  if x.st ≠ 2 ∨ x.period = 0 ∨ now s < x.t0 ∨ (now s - x.t0) % x.period ≠ 0 then s
  else match x.held with
    | [] => s
    | h :: r =>
      let pol := (slotOf s x.slot).policy
      let last := succRank x = 0     -- the last rank forwards nothing
      if last then putCtx c { x with held := r } s
      else if x.sent < 2 then
        let n := rankUnits x * unitBytes pol
        let s := putCtx c { x with held := r, sent := x.sent + 1, slips := 0, slow := false } s
        ctrAdd .LG_SPN_SHARD_TX_BYTES 0 (spnPart s c) n
          (useFree ((hfIssue tyRing (devOf x (succRank x)) (spnPart s c) (Config.free s.fv) n 0 (shardData s c x h.1 h.2.2 pol)
            (.ring c 6 0) s).getD s))
      else
        let k := x.slips + 1
        let slow := rg s .LG_SPN_SLIP_LIMIT c < k
        let s := putCtx c { x with slips := k, slow := slow } (ctr .LG_SPN_SLIP_CNT (spnPart s c) s)
        if slow ∧ !x.slow then evt Ev.SPINDLE_SLOW (spnReq s c) (succRank x) s else s

/-- FILL_COMMIT at the home (R226): TOKENS becomes FILL_TOKENS. -/
def fillCommitOp (c : Nat) (s : State) : State :=
  let x := ctxOf s c
  match x.fills.getLast? with
  | none => s
  | some f =>
    if x.rank ≠ 0 ∨ !(x.fills.all (·.done)) then s
    else
      let y := slotOf s x.slot
      let s := commitSlot x.slot { y with tokens := fTokens f.desc } s
      disarmSettle c (putCtx c { ctxOf s c with fills := [] } s)

/-! ### Faltering members (R219, R228) -/

/-- A formation that has lasted LG_SPN_FORM_TMO fails. -/
def formTimeoutOp (c : Nat) (s : State) : State :=
  let x := ctxOf s c
  if x.st = 1 ∧ x.formAt + 1000 * rg s .LG_SPN_FORM_TMO c ≤ now s then formFail c 3 x.rank s else s

/-- A neighbour has been silent for 20 us. -/
def silentOp (c : Nat) (pred : Bool) (s : State) : State :=
  let x := ctxOf s c
  if x.st = 2 ∧ (if pred then x.predAt else x.succAt) + 20000 ≤ now s then
    spnDown c 4 (if pred then predRank x else succRank x) stTargetReset [devOf x (if pred then succRank x else predRank x)] s
  else s

/-- A request without progress for LG_SPN_STALL_TMO completes FAULT_CONTEXT: a step fails, a fill fails (R228). -/
def stallOp (c : Nat) (s : State) : State :=
  let x := ctxOf s c
  let t := 1000 * rg s .LG_SPN_STALL_TMO c
  let late := x.reqs.filter fun r => r.since + t ≤ now s
  let lateF := x.fills.any fun f => !f.done && f.since + t ≤ now s
  if late = [] ∧ !lateF then s
  else
    let s := evt Ev.SPINDLE_STALL (spnReq s c) x.rank (ctr .LG_SPN_STALL_CNT (spnPart s c) s)
    let s := putCtx c { x with reqs := x.reqs.filter fun r => !(r.since + t ≤ now s) } s
    let s := if x.rank = 0 ∧ late ≠ [] then
        let y := slotOf s x.slot
        let s := late.foldl (fun s r => complete r.ring r.desc stFaultContext 0 0 0 (aHandle r.desc) 0 s) s
        putSlot x.slot { y with step := y.step.map fun st => { st with failed := true } } s
      else s
    if lateF then fillFail c s else s

/-- A member slot of a ring has gone FAULTED: the context goes DOWN, and at the home the Spindle session faults (R228). -/
def memberFaulted (n : Nat) (s : State) : State :=
  match memberCtx s n with
  | none => s
  | some (c, x) => spnDown c 5 x.rank stFaultStateLost [devOf x (predRank x), devOf x (succRank x)] s

/-! ### ATTEND, and what a ring context does to other commands -/

/-- ATTEND (R182, R206, R220, R221). -/
def attendOp (ring : Nat) (d : BitVec 512) (s : State) : State :=
  latheEntry 0x30 ring d (fun p s =>
    withSlot ring d p (aHandle d) false (fun n x s => deadState ring d p (aHandle d) x (fun s =>
      match memberCtx s n with
      | none => attendPlain ring d n p s
      | some (c, ctx) =>
        if ctx.rank ≠ 0 then complete ring d stFaultContext 0 0 0 (aHandle d) 0 s
        else if ctx.st = 1 then
          hrefuse ring d p (aHandle d) (detHint ((ctx.formAt + 1000 * rg s .LG_SPN_FORM_TMO c - now s) / 1000)) s
        else if ctx.disarm then hrefuse ring d p (aHandle d) hintNever s
        else gatherStart ring d n p c s) s) s) s

/-- STEP_END: the home of a ring first has the tail rank splice the rows (R222). -/
def stepEndOp (n : Nat) (s : State) : State :=
  match memberCtx s n, (slotOf s n).step with
  | some (c, x), some st =>
    let tok := (slotOf s n).tokens
    if !stepOver s n then s
    else if (st.cancel ∧ st.accept.isNone) ∨ st.failed ∨ rankOf x tok = 0 then stepEndPlain n s
    else
      spnSend c (devOf x (rankOf x tok)) 0x13 (leBytes 2 x.ringId ++ leBytes 1 0 ++ leBytes 2 st.serial)
        (.ring c 5 st.serial) s
  | _, _ => stepEndPlain n s

/-- The tail rank has acknowledged: the home commits TOKENS (R222). -/
def homeCommit (c : Nat) (s : State) : State :=
  let n := (ctxOf s c).slot
  let x := slotOf s n
  match x.step with
  | some st =>
    learnOrder x st
      (commitSlot n { x with st := .active, tokens := x.tokens + (stepRows st).length, step := none, lastSerial := some st.serial } s)
  | none => s

/-- PARK, REVIVE, MIGRATE and FORK from a member slot are refused (R220). -/
def memberRefuse (ring : Nat) (d : BitVec 512) (h : Nat) (f : State → State) (s : State) : State :=
  match memberCtx s (hSlot h), ringPart s ring with
  | some _, some p => if handleCheck s p false false h = stDone then hrefuse ring d p h hintNever s else f s
  | _, _ => f s

/-- FREE of a member slot (R220). -/
def memberFree (ring : Nat) (d : BitVec 512) (h : Nat) (f : State → State) (s : State) : State :=
  match memberCtx s (hSlot h), ringPart s ring with
  | some (c, x), some p =>
    if handleCheck s p false true h ≠ stDone then f s
    else if x.rank ≠ 0 then hbad ring d h s
    else f (disarmOp c s)
  | _, _ => f s

end Sys2Proof.Machine
end

