-- ==== Sys2Proof/Machine/Capstan.lean ====
section
/-! DEFINITION. Capstan (chapter 12): charges, admission, budgets, meters, gates, placement, fair queueing, deferral, yellow
withdrawal, preemption requests; and the configuration writes with behaviour of their own. -/

namespace Sys2Proof.Machine

/-! ### What a descriptor is charged (R336-R339) -/

/-- The OPs Capstan passes without charge, meter, budget, gate or queue (R339). -/
def unmetered (op : Nat) : Bool := [0x52, 0x06, 0x07, 0x22, 0x12, 0x43, 0x54, 0x61, 0x71].contains op

/-- A charge as it is taken: at least 1, clipped (R338). -/
def clipCharge (c : Nat) : Nat := max 1 (min c (2 ^ 40 - 1))

/-- Attention charge over `rows` rows and `v` positions. -/
def attnCharge (d : BitVec 512) (pol : BitVec 512) (rows v : Nat) : Nat :=
  let v := if aWindow d = 0 then v else min v (aWindow d)
  ceilDiv (2 * rows * v * pHeads pol * aGq d * pHd pol) (2 ^ 20)

/-- The charge of a metered descriptor (R338), with what reading its record logged; none where a field it needs is bad. -/
def chargeOf (p : Nat) (d : BitVec 512) (s : State) : Option Nat × State :=
  let x := slotOf s (hSlot ((namedHandle d).getD 0))
  let op := dOp d
  if op = 0x30 then
    if 1 ≤ aRows d ∧ aRows d ≤ 64 ∧ 1 ≤ aGq d ∧ aGq d ≤ 16 ∧ aBase d ≤ 8191 then
      (some (attnCharge d x.policy (aRows d) (x.tokens + aBase d + aRows d)), s)
    else (none, s)
  else if op = 0x31 then
    if 1 ≤ aGq d ∧ aGq d ≤ 16 then
      let rows := match memberCtx s (hSlot (aHandle d)) with | some c => (passRows c.2 d).2 | none => 0
      (some (attnCharge d x.policy rows (fTokens d)), s)
    else (none, s)
  else if op = 0x51 then
    if 1 ≤ sRows d ∧ sRows d ≤ 64 then
      let ents := match genOf s (hSlot (gHandle d)) with | some g => (vocOf s (gVoc g)).entries | none => 0
      (some (sRows d * ceilDiv ents 1024), s)
    else (none, s)
  else if op = 0x40 then (if 1 ≤ fld d 40 4 ∧ fld d 40 4 ≤ 4194304 then some (ceilDiv (fld d 40 4) 1024) else none, s)
  else if op = 0x41 then (if fld d 20 4 ≤ 65536 then some (ceilDiv (fld d 20 4) 1024) else none, s)
  else if op = 0x72 then
    if 1 ≤ fld d 18 1 ∧ fld d 18 1 ≤ 64 then
      let i := idxOf s p (fld d 17 1 % 64)
      let dim := if i.st = .ready then xDim i.hdr else 0
      if bit (fld d 17 1) 7 then (some (fld d 18 1 * ceilDiv ((if i.st = .ready then xNodes i.hdr else 0) * dim) (2 ^ 20)), s)
      else match readPlain (unitReq 0xA2 p) (fld d 24 8) 128 s with
        | (v, r, s) =>
          if v.st ≠ 0 ∨ 65536 < bAt r 8 4 then (none, s)
          else (some (fld d 18 1 * ceilDiv ((if bAt r 8 4 = 0 then 65536 else bAt r 8 4) * dim) (2 ^ 20)), s)
    else (none, s)
  else if op = 0x62 then
    let w := (stagesOf (progOf s p (fld d 17 1)).cont).foldl (fun n g => n + g.res + g.strm) 0
    (some (ceilDiv w (2 ^ 20)), s)
  else if op = 0x10 ∨ op = 0x11 then
    (if fld d 20 4 % 64 = 0 ∧ fld d 20 4 ≤ 2 ^ 24 then some (ceilDiv (fld d 20 4) (2 ^ 20)) else none, s)
  else if (op = 0x03 ∧ 2 ≤ hArg0 d % 8) ∨ (op = 0x04 ∧ (x.st = .parkedWarm ∨ x.st = .parkedCold)) ∨ op = 0x05 then
    (some (ceilDiv (privatePages x) 16), s)
  else (some 1, s)

/-- The account charged (R336). A policy record that cannot be read names the ring's default account; Hitch then refuses it. -/
def accountOf (ring : Nat) (d : BitVec 512) (s : State) : Nat :=
  let op := dOp d
  if op = 0x01 then pAccount (BitVec.ofNat 512 (rdNat s (hArg0 d) 64))
  else if op = 0x02 then pAccount (BitVec.ofNat 512 (rdNat s (hArg1 d) 64))
  else match namedHandle d with
    | some h => (slotOf s (hSlot h)).acct
    | none => bits (rg s .CP_RING_CFG ring) 31 16

/-! ### Accounts (R342-R344) -/

def putAcct (a : Nat) (x : Acct) (s : State) : State := { s with cp.accts := nset s.cp.accts a x }

def budgetEn (x : Acct) : Bool := bit x.cfg.toNat 5

/-- The refill hint of R344, in microseconds. -/
def refillHint (s : State) (x : Acct) : Nat :=
  if x.refill = 0 ∨ x.ms = 0 ∨ x.cap = 0 then hintNever
  else
    let k := (-x.balance).toNat / x.refill + 1
    detHint (ceilDiv (x.next - now s) 1000 + (k - 1) * x.ms * 1000)

/-- One refill (R344). -/
def refillOnce (x : Acct) : Acct :=
  { x with balance := if x.balance < x.cap then min (x.cap : Int) (x.balance + x.refill) else x.balance
           next := x.next + x.ms * 1000000 }

/-- BUDGET_REFILL (R344, R348): acts at or after the refill instant. -/
def budgetRefillOp (a : Nat) (s : State) : State :=
  let x := acctOf s a
  if budgetEn x ∧ x.ms ≠ 0 ∧ x.next ≤ now s then
    let s := if x.next + 1000 < now s then ctr .CP_WHEEL_LATE_CNT (bits x.cfg.toNat 3 0) s else s
    putAcct a (refillOnce x) s
  else s

/-! ### Meters (R345, R346) -/

/-- CP_ACCT_CFG's CLASS_MASK. -/
def classMask (x : Acct) : Nat := bits x.cfg.toNat 21 6

/-- The meter of local class i, if it has one (R345). -/
def meterOf (x : Acct) (i : Nat) : Option Nat :=
  if bit (classMask x) i then some (x.base + popcount i (classMask x)) else none

def meter0 : Meter := ⟨0, 0, 0, 0, 0, 0, 0, false⟩
def meterAt (s : State) (m : Nat) : Meter := ngetD s.cp.meters m meter0
def putMeter (m : Nat) (x : Meter) (s : State) : State := { s with cp.meters := nset s.cp.meters m x }

def peakRate (x : Meter) : Nat := max x.pir x.cir
def peakSize (x : Meter) : Nat := max x.pbs x.cbs * 1000000

/-- The buckets as an arrival finds them: full at first use (R363), refilled otherwise. -/
def meterFill (x : Meter) (t : Nat) : Meter :=
  if !x.used then { x with tc := x.cbs * 1000000, tp := peakSize x, last := t, used := true }
  else { x with tc := min (x.cbs * 1000000) (x.tc + x.cir * (t - x.last))
                tp := min (peakSize x) (x.tp + peakRate x * (t - x.last)), last := t }

inductive Colour where | green | yellow | red
deriving DecidableEq, Repr

/-- The two-rate three-colour meter (R346), colour-blind. -/
def meterColour (x : Meter) (charge : Nat) : Colour × Meter :=
  let b := charge * 1000000
  if x.tp < b then (.red, x)
  else if x.tc < b then (.yellow, { x with tp := x.tp - b })
  else (.green, { x with tp := x.tp - b, tc := x.tc - b })

/-- The hint of a red arrival (R346), in whole microseconds. -/
def redHint (x : Meter) (charge : Nat) : Nat :=
  let b := charge * 1000000
  if peakSize x < b ∨ peakRate x = 0 then hintNever else detHint (ceilDiv (ceilDiv (b - x.tp) (peakRate x)) 1000)

/-! ### Gates (R350-R352) -/

/-- The entry in force at time t ≥ BASE: its index, its mask, the time it ends. -/
def gclAt (g : Gcl) (t : Nat) : Nat × Nat × Nat :=
  let o := if g.cycle = 0 then 0 else (t - g.base) % g.cycle
  go o (t - o) 0 g.entries
where
  go (o t0 i : Nat) : List (Nat × Nat) → Nat × Nat × Nat
    | [] => (0, 0xFFFF, t0)
    | e :: r => if o < e.1 then (i, e.2, t0 + e.1) else go (o - e.1) (t0 + e.1) (i + 1) r

/-- The list that governs a partition at time t, if one does (R350, R351): the pending list from its switch time. -/
def gclNow (s : State) (p t : Nat) : Option Gcl :=
  let g := ngetD s.cp.gcl p ⟨none, none⟩
  if !bit (rg s .CP_GCL_CTL p) 0 then none
  else
    let cur := match g.pending with | some (l, at') => if at' ≤ t then some l else g.active | none => g.active
    match cur with | some l => if l.base ≤ t then some l else none | none => none

/-- The gate of local class i is open at t. -/
def gateOpen (s : State) (p i t : Nat) : Bool := match gclNow s p t with | some g => bit (gclAt g t).2.1 i | none => true

/-- First time from t on at which a list has the class open, if any entry does. -/
def gclNext (g : Gcl) (i : Nat) : Nat → Nat → Option Nat
  | 0, _ => none
  | n + 1, t => let e := gclAt g t; if bit e.2.1 i then some t else gclNext g i n e.2.2

/-- When a closed gate opens next under the active list up to the switch, then the pending one (R352). -/
def gateNext (s : State) (p i : Nat) : Option Nat :=
  let g := ngetD s.cp.gcl p ⟨none, none⟩
  let t := now s
  let cur := (gclNow s p t).bind fun l => gclNext l i (l.entries.length + 1) t
  match g.pending with
  | some (l, at') =>
    if at' ≤ t then cur
    else match cur with
      | some c => if c < at' then some c else gclNext l i (l.entries.length + 1) at'
      | none => gclNext l i (l.entries.length + 1) at'
  | none => cur

/-! ### Placement (R353, R354): servers 0-3 LATHE, 4-7 WHITTLE, 8-11 BIGHT, 12-15 SKEIN, 16 ADZE, 17 SPINE -/

/-- Queued charge on a server of a partition. -/
def queuedCharge (s : State) (p srv : Nat) : Nat :=
  ((s.cp.items.filter fun i => i.part == p && i.shares.any fun x => x.srv == srv && !x.sent).map fun i => shareCharge i srv).foldl (· + ·) 0

/-- The die of a list whose server holds the least queued charge; ties to the lower die. -/
def leastDie (s : State) (p srv0 : Nat) : List Nat → Option Nat
  | [] => none
  | d :: r => match leastDie s p srv0 r with
    | none => some d
    | some e => if queuedCharge s p (srv0 + d) ≤ queuedCharge s p (srv0 + e) then some d else some e

/-- The die of every unit that a request's rows can see (R25), repeated as often as it holds one. -/
def unitDies (s : State) (x : Slot) (d : BitVec 512) (rows : List ARow) (hi : Nat) : List Nat :=
  let v : AView := { plainView x with hi := hi }
  (unitsOf v rows 0 (hi / 128 + 1)).map fun u =>
    match x.blks[vEntry v (aLayer d) u]? with
    | some b => if b.tier = 1 then dieOfStack (stackOf (b.addr * 65536)) else home u
    | none => home u
where
  home (u : Nat) : Nat := dieOfStack ((homeOrder (maskOf s x.part 0 (pMask x.policy)) u (aLayer d)).head?.getD 0)

/-- Shares of an attention request: one for each die, its charge in proportion to the units there. -/
def attnShares (charge : Nat) (dies : List Nat) : List Share :=
  ((List.range 4).filter fun d => dies.contains d).map fun d =>
    ⟨d, ceilDiv (charge * (dies.filter (· == d)).length) dies.length, false, 0, 0⟩

/-- Where a metered descriptor is queued. Work whose slot names no die goes to SPINE, so that its unit answers it. -/
def placeOf' (s : State) (p : Nat) (d : BitVec 512) (charge : Nat) : List Share :=
  let one (srv : Nat) : List Share := [⟨srv, charge, false, 0, 0⟩]
  let x := slotOf s (hSlot (aHandle d))
  let op := dOp d
  if op = 0x30 then
    let rows := (List.range (aRows d)).map fun i =>
      (⟨x.tokens + aBase d + i, [(aBase d + i, x.tokens + aBase d + i)], aWindow d⟩ : ARow)
    let l := attnShares charge (unitDies s x d rows x.tokens)
    if l = [] then one 17 else l
  else if op = 0x31 then
    match memberCtx s (hSlot (aHandle d)) with
    | some c =>
      let l := attnShares charge (unitDies s x d (fillRows c.2 d) (passRows c.2 d).2)
      if l = [] then one 17 else l
    | none => one 17
  else if op = 0x50 then one (8 + dieOf (gParams d) % 4)
  else if op = 0x51 then (match genOf s (hSlot (gHandle d)) with | some g => one (8 + g.die) | none => one 17)
  else if op = 0x40 ∨ op = 0x41 then
    let dies := if bit (fld d 17 1) 7 then [0, 1, 2, 3] else (vocOf s (fld d 17 1 % 16)).copies.map (·.1)
    match leastDie s p 4 (dies.filter fun k => !(textEngines s p 9 k).isEmpty) with | some k => one (4 + k) | none => one 17
  else if op = 0x72 then
    match leastDie s p 12 (dieBits (idxOf s p (fld d 17 1 % 64)).mask) with | some k => one (12 + k) | none => one 17
  else if op = 0x62 then (if (progOf s p (fld d 17 1)).st = .ready then one 16 else one 17)
  else one 17

/-! ### What a server can accept (R589) -/

/-- Items dispatched on a server and neither complete nor preempted. -/
def onServer (s : State) (p srv : Nat) : List Item :=
  s.cp.items.filter fun i => i.part == p && i.shares.any fun x => x.srv == srv && x.sent

/-- A dispatched attention request has issued its slices: Lathe has it, or holds it for a session that is moving. -/
def issuedAll (s : State) (i : Item) : Bool :=
  (areqOf s i.ring i.desc).isSome || (s.spn.any fun e => (e.2.reqs.any fun r => r.ring == i.ring && r.desc == i.desc) ||
    e.2.fills.any fun r => r.ring == i.ring && r.desc == i.desc) ||
  (s.ht.slots.any fun e => e.2.held.contains (i.ring, i.desc)) || s.ht.waiting.contains (i.ring, i.desc)

/-- Searches in flight on the engines of a die, each on the first engine with fewer than 32 queries. -/
def searchLoad (loads : List Nat) (q : Nat) : List Nat :=
  match loads with
  | [] => []
  | l :: r => if l < 32 then (l + q) :: r else l :: searchLoad r q

def canAccept (s : State) (p srv : Nat) : Bool :=
  let d := srv % 4
  let items := onServer s p srv
  if srvAsleep s p srv then false
  else if srv < 4 then
    let es := match partPlan s p with
      | some pl => (((pl.groups.filter fun g => g / 4 == d).map (groupEngines s)).flatten).filter fun e => (engOf s 6 e).st == .enabled
      | none => []
    es = [] || ((es.any fun e => (engOf s 6 e).work < min 64 (rg s .LA_STRAND_CFG e)) && items.all (issuedAll s))
  else if srv < 8 then
    let es := (textEngines s p 9 d).filter fun e => (engOf s 9 e).st == .enabled
    es = [] || items.length < es.length
  else if srv < 12 then
    let es := (textEngines s p 0xB d).filter fun e => (engOf s 0xB e).st == .enabled
    es = [] || (items.filter fun i => dOp i.desc == 0x51).length < es.length
  else if srv < 16 then
    let es := (textEngines s p 0xC d).filter fun e => (engOf s 0xC e).st == .enabled
    es = [] || (items.foldl (fun l i => searchLoad l (min 32 (fld i.desc 18 1))) (es.map fun _ => 0)).any (· < 32)
  else if srv = 16 then
    items.length < ((progsIn s p).map fun e => repCount e.2).foldl (· + ·) 0
  else true

/-! ### Estimates (R9, R361) -/

/-- An estimated wait on a server with `n` items ahead: 100 us for each until the server has completed one; afterwards drawn
from its recent rate, which is not pinned: a free value. -/
def estimate (s : State) (p srv n : Nat) : Nat := if s.cp.served.contains (p * 18 + srv) then hintOf s else detHint (100 * n)

/-- Items queued on a server. -/
def queuedOn (s : State) (p srv : Nat) : Nat :=
  (s.cp.items.filter fun i => i.part == p && !i.stepHeld && i.shares.any fun x => x.srv == srv && !x.sent).length

/-- Items ahead of an item on a server. -/
def aheadOf (s : State) (i : Item) (srv : Nat) : Nat :=
  ((s.cp.items.takeWhile fun x => x.id != i.id).filter fun x => x.part == i.part && !x.stepHeld &&
    x.shares.any fun y => y.srv == srv && !y.sent).length

/-- The estimated wait of a queued item: that of its first waiting share. -/
def itemWait (s : State) (i : Item) : Nat :=
  match i.shares.find? fun x => !x.sent with
  | some x => estimate s i.part x.srv (aheadOf s i x.srv)
  | none => 0

/-! ### Admission (R340) -/

/-- A fetched descriptor ends at once: its reservation is released and its record written. -/
def fetchEnd (ring : Nat) (d : BitVec 512) (st hdl det : Nat) (s : State) : State :=
  let cq := cqOf s ring
  let p := (ringPart s ring).getD 16
  let s := setRing cq { ringOf s cq with resv := (ringOf s cq).resv - 1 } s
  let s := if st / 16 = 1 then ctrAdd .CP_REFUSE_CNT st p 1 s else s
  ringDrainDone cq (ringDrainDone ring (writeRecord ring (dTag d) (dNotify d) st 0 0 0 hdl det s))

/-- What DRAIN in HW_PART_CTL still lets pass (R389): MIGRATE, and PARK to T4 or T5. -/
def drainPasses (d : BitVec 512) : Bool := dOp d == 0x05 || (dOp d == 0x03 && (hArg0 d == 4 || hArg0 d == 5))

/-- An attention request of a later step than the session's current one (R84). -/
def laterStep (s : State) (d : BitVec 512) : Bool :=
  dOp d == 0x30 &&
  (match (slotOf s (hSlot (aHandle d))).step with
   | some st => st.serial != aStep d && !stepEnded (slotOf s (hSlot (aHandle d))) (aStep d)
   | none => false)

/-- Step 9: the item is enqueued, or held for a later step. -/
def admitItem (ring : Nat) (d : BitVec 512) (p a c charge : Nat) (meter : Option Nat) (yellow hold : Bool) (s : State) : State :=
  let i : Item := ⟨s.cp.nextId, ring, d, p, a, c, charge, yellow, true, meter, now s, false, placeOf' s p d charge, hold,
    laterStep s d, none, false, false, 0⟩
  let s := { s with cp.nextId := s.cp.nextId + 1 }
  let s := ctrAdd .CP_CHARGE_SUM c p charge (ctr (if yellow then .CP_ADMIT_YELLOW_CNT else .CP_ADMIT_GREEN_CNT) p s)
  let s := if hold then ctr .CP_GATE_HOLD_CNT p s else s
  if i.stepHeld then { s with cp.items := s.cp.items ++ [i] } else enqueue i s

/-- Steps 6 to 9. -/
def admitLast (ring : Nat) (d : BitVec 512) (p a c charge hdl : Nat) (s : State) : State :=
  let i := match partPlan s p with | some pl => c - pl.clsBase | none => 0
  let go (hold : Bool) (s : State) : State :=
    if rg' s ≤ queuedIn s p ∨ 262144 ≤ queuedAll s then
      let srv := ((placeOf' s p d charge).head?.map (·.srv)).getD 17
      let h := estimate s p srv (queuedOn s p srv)
      useFree (fetchEnd ring d stRefusedCapacity hdl h s)
    else match meterOf (acctOf s a) i with
      | none => admitItem ring d p a c charge none true hold s
      | some m =>
        let r := meterColour (meterFill (meterAt s m) (now s)) charge
        match r.1 with
        | .red => fetchEnd ring d stRefusedRed hdl (redHint r.2 charge) (putMeter m r.2 s)
        | .yellow => admitItem ring d p a c charge (some m) true hold (putMeter m r.2 s)
        | .green => admitItem ring d p a c charge (some m) false hold (putMeter m r.2 s)
  if gateOpen s p i (now s) then go false s
  else match gateNext s p i with
    | none => fetchEnd ring d stRefusedGate hdl hintNever s
    | some t => if bit (rg s .CP_CLASS_CFG c) 1 then go true s
                else fetchEnd ring d stRefusedGate hdl (detHint (ceilDiv (t - now s) 1000)) s
where
  /-- The partition's queue limit, from the lay image. -/
  rg' (s : State) : Nat := match partPlan s p with | some pl => pl.qlimit | none => 0

/-- The checks of R340 on a metered descriptor, in order. -/
def admitDesc (ring : Nat) (d : BitVec 512) (p : Nat) (s : State) : State :=
  let st := match namedHandle d with | some h => handleCheck s p false false h | none => stDone
  let hdl := if dOp d = 0x02 then 0 else (namedHandle d).getD 0
  if st ≠ stDone then fetchEnd ring d st 0 0 (ctr .HT_STALE_CNT p s)
  else
    let cfg := rg s .CP_RING_CFG ring
    let c := bits cfg 5 0
    let a := accountOf ring d s
    if !bit cfg 6 ∨ !bit (rg s .CP_CLASS_CFG c) 0 then
      fetchEnd ring d stRefusedCapacity hdl hintNever (evt Ev.RING_UNBOUND (unitReq 0xA2 p) ring s)
    else if !acctHeld s p a then
      fetchEnd ring d stRefusedCapacity hdl hintNever (evt Ev.ACCOUNT_NOT_HELD (unitReq 0xA2 p) a s)
    else if bit (rg s .CP_CTL) 0 ∨ (partRt s p).faulted ∨ (bit (rg s .HW_PART_CTL p) 0 ∧ !drainPasses d) then
      fetchEnd ring d stRefusedCapacity hdl hintNever s
    else if dOp d = 0x51 ∧ !genOpenNow s (hSlot (gHandle d)) then
      let n := hSlot (gHandle d)
      fetchEnd ring d (noGenStatus s n hdl) hdl 0 (failStep n s)
    else match chargeOf p d s with
      | (none, s) => fetchEnd ring d stFaultContext hdl 0 s
      | (some k, s) =>
        let x := acctOf s a
        if (dOp d = 0x50 ∨ dOp d = 0x51) ∧ budgetEn x ∧ x.balance ≤ 0 then
          fetchEnd ring d stRefusedBudget hdl (refillHint s x) s
        else admitLast ring d p a c (clipCharge k) hdl s

/-! ### Fetch (R399, R405) -/

/-- The completion ring a SUBMIT ring names can take entries (R399). -/
def cqUsable (s : State) (r : Nat) : Bool :=
  let cq := cqOf s r
  (ringOf s cq).st != .disabled && ringKind s cq == 1 && ringPart s cq == ringPart s r

/-- Payloads that a descriptor of a confidential partition may not name at a host-port address (R478): an output or a COPY
source that is not sealed (an OPEN source is sealed under the tier key, R119), and attention inputs and token arrays, which
R411 does not seal. -/
def confPayload (d : BitVec 512) : Bool :=
  let op := dOp d
  (!dSealed d &&
    ((op == 0x10 && sSrcTier d == 4 && sXform d != 1) ||
     ((op == 0x30 || op == 0x31 || op == 0x62 || op == 0x72) && isHost (fld d 40 8)) ||
     ((op == 0x40 || op == 0x41) && isHost (fld d 32 8)))) ||
  ((op == 0x30 || op == 0x31 || op == 0x51) && isHost (fld d 32 8)) || (op == 0x41 && isHost (fld d 24 8))

/-- The header check of R405, and of R478 on a ring of a confidential partition. -/
def headerOk (s : State) (r : Nat) (d : BitVec 512) : Bool :=
  dVersion d == 1 && hdrClean d && opKnown (dOp d) &&
  !((ringPart s r).any (isConf s) && confPayload d) &&
  (!dSealed d || match nget s.hp.seals (dSealCtx d) with | some x => some x.part == ringPart s r | none => false)

/-- Takes the entry at C: the index advances and its shadow is written. Answers what R35 says of the read, and whether it
met poison (R53, R406). -/
def takeEntry (r : Nat) (s : State) : BitVec 512 × Verdict × Bool × State :=
  let x := ringOf s r
  let a := ringSlot s r x.c
  let v := if isHost a then okV else accessCheck s (ringReq s r) .rd a 64
  let d := if v.st = 0 then BitVec.ofNat 512 (rdNat s a 64) else 0
  (d, v, poisoned s a 64, writeShadow r (x.c + 1) (setRing r { x with c := x.c + 1, stalled := false, cqLog := false } s))

/-- In recovery only TOKENIZE and DETOKENIZE with EXTERNAL are served (R552). -/
def recoveryOk (d : BitVec 512) : Bool := (dOp d == 0x40 || dOp d == 0x41) && bit (fld d 17 1) 7

/-- What happens to a descriptor once fetched and its record reserved. -/
def fetched (r : Nat) (d : BitVec 512) (v : Verdict) (bad : Bool) (s : State) : State :=
  let p := ringPart s r
  if v.st ≠ 0 then fetchEnd r d v.st 0 v.det s
  else if bad then fetchEnd r d stFaultContext 0 0 (evt Ev.INPUT_POISON (unitReq 0xA3 (p.getD 16)) r s)
  else if !headerOk s r d then fetchEnd r d stFaultContext 0 0 s
  else match p with
    | none => fetchEnd r d stRefusedCapacity 0 hintNever s
    | some p =>
      if unmetered (dOp d) ∨ s.pm.recovery then
        if s.pm.recovery && !recoveryOk d then fetchEnd r d stRefusedCapacity 0 hintNever s
        else
          let i : Item := ⟨s.cp.nextId, r, d, p, 0, 0, 0, false, false, none, now s, false, [], false, false, none, false, false, now s⟩
          ctr .CP_UNMETERED_CNT p { s with cp.nextId := s.cp.nextId + 1, cp.items := s.cp.items ++ [i] }
      else admitDesc r d p s

/-- DESCRIPTOR_FETCH (R399). -/
def fetchOp (r : Nat) (s : State) : State :=
  let x := ringOf s r
  if x.st = .disabled ∨ ringKind s r ≠ 0 ∨ x.p = x.c ∨ (isHost (ringBase s r) ∧ !s.hp.up) then s
  else if !cqUsable s r then
    let s := if x.cqLog then s else evt Ev.RING_CQ_INVALID (unitReq 0xA3 ((ringPart s r).getD 16)) r s
    setRing r { x with stalled := true, cqLog := true } s
  else if ringRoom s (cqOf s r) = 0 then setRing r { x with stalled := true } s
  else
    let e := takeEntry r s
    let cq := cqOf s r
    fetched r e.1 e.2.1 e.2.2.1 (setRing cq { ringOf e.2.2.2 cq with resv := (ringOf e.2.2.2 cq).resv + 1 } e.2.2.2)

/-! ### Dispatch (R355-R358) -/

/-- The head of a queue may be chosen: its gate is open and its shaper has released it (R349, R352). -/
def dispatchable (s : State) (i : Item) : Bool :=
  let l := match partPlan s i.part with | some pl => i.cls - pl.clsBase | none => 0
  !i.gateHeld && gateOpen s i.part l (now s) && (rg s .CP_CLASS_SHAPE_RATE i.cls == 0 || i.released)

/-- Classes of a tier whose queue on a server has a dispatchable head. -/
def readyClasses (s : State) (p srv : Nat) (yel : Bool) : List Nat :=
  (List.range 64).filter fun c => match (queueOf s p srv c yel).head? with | some i => dispatchable s i | none => false

/-- Least by tags; ties to the lower class. -/
def leastTag (f : Nat → Nat) : List Nat → Option Nat
  | [] => none
  | c :: r => match leastTag f r with
    | none => some c
    | some e => if tagLe (f c) (f e) then some c else some e

/-- Dispatches the head of a class's queue and updates tags and virtual time (R356, R357). -/
def dispatchHead (p srv c v : Nat) (yel : Bool) (i : Item) (s : State) : State :=
  let t := qTag s p srv c yel
  let sh := i.shares.map fun x => if x.srv == srv && !x.sent then { x with sent := true, tagS := t.s, tagF := t.f } else x
  let k := shareCharge i srv
  let s := { s with cp.items := s.cp.items.map fun x => if x.id == i.id then { i with shares := sh, sentAt := now s } else x }
  let s := match (queueOf s p srv c yel).head? with
    | some n => putTag p srv c yel { s := t.f, f := tagF s c t.f (shareCharge n srv), fLast := t.f, head := some n.id } s
    | none => putTag p srv c yel { t with fLast := t.f, head := none } s
  let back := (List.range 64).filter fun c => queueOf s p srv c yel != []
  let v' := match leastTag (fun c => (qTag s p srv c yel).s) back with
    | some m => tagMax ((v + k * 65536 / wTotal s p) % 2 ^ 64) (qTag s p srv m yel).s
    | none => v
  shapeHeads { s with cp.vt := nset s.cp.vt (vKey p srv yel) v' }

/-- SERVER_DISPATCH (R357, R358, R589). -/
def dispatchOp (p srv : Nat) (s : State) : State :=
  if !canAccept s p srv then s
  else
    let yel := (readyClasses s p srv false).isEmpty
    let q := readyClasses s p srv yel
    let tag (c : Nat) := qTag s p srv c yel
    match leastTag (fun c => (tag c).s) q with
    | none => s
    | some m =>
      let v0 := ngetD s.cp.vt (vKey p srv yel) 0
      let v := if q.any fun c => tagLe (tag c).s v0 then v0 else (tag m).s
      match leastTag (fun c => (tag c).f) (q.filter fun c => tagLe (tag c).s v) with
      | none => s
      | some c => match (queueOf s p srv c yel).head? with
        | some i => dispatchHead p srv c v yel i { s with cp.preempt := ndel s.cp.preempt (p * 18 + srv) }
        | none => s

/-! ### Timed events (R348): each acts at or after its time, and is counted where it is more than 1 us late -/

def itemById (s : State) (id : Nat) : Option Item := s.cp.items.find? fun i => i.id == id

def putItem (i : Item) (s : State) : State := { s with cp.items := s.cp.items.map fun x => if x.id == i.id then i else x }

def wheelLate (p due : Nat) (s : State) : State := if due + 1000 < now s then ctr .CP_WHEEL_LATE_CNT p s else s

/-- SHAPER_RELEASE (R349). -/
def shaperOp (id : Nat) (s : State) : State :=
  match itemById s id with
  | some i => match i.release with
    | some t => if t ≤ now s ∧ !i.released then putItem { i with released := true } (wheelLate i.part t s) else s
    | none => s
  | none => s

/-- GATE_OPENING (R352): held work whose gate is open becomes dispatchable. -/
def gateOpening (p : Nat) (s : State) : State :=
  { s with cp.items := s.cp.items.map fun i =>
      let l := match partPlan s p with | some pl => i.cls - pl.clsBase | none => 0
      if i.part == p && i.gateHeld && gateOpen s p l (now s) then { i with gateHeld := false } else i }

/-- GCL_LIST_SWITCH (R351). -/
def gclSwitch (p : Nat) (s : State) : State :=
  match (ngetD s.cp.gcl p ⟨none, none⟩).pending with
  | some (l, t) => if t ≤ now s then { s with cp.gcl := nset s.cp.gcl p ⟨some l, none⟩ } else s
  | none => s

/-- DEFERRAL_TIMER (R359, R400). -/
def deferralOp (id : Nat) (s : State) : State :=
  match itemById s id with
  | none => s
  | some i =>
    let us := rg s .CP_CLASS_DEFER_US i.cls
    let due := i.admAt + 1000 * us
    if !queuedItem i ∨ i.deferred ∨ i.preempted ∨ us = 0 ∨ now s < due then s
    else
      let s := wheelLate i.part due (putItem { i with deferred := true } s)
      if ringRoom s (cqOf s i.ring) = 0 then ctr .HP_DEFER_SKIP_CNT i.part s
      else
        let h := (namedHandle i.desc).getD 0
        let s := ctr .CP_DEFERRED_CNT i.part s
        useFree (writeRecord i.ring (dTag i.desc) (dNotify i.desc) stDeferred 0 0 0 h (itemWait s i) s)

/-- YELLOW_TIMEOUT (R360). -/
def yellowOp (id : Nat) (s : State) : State :=
  match itemById s id with
  | none => s
  | some i =>
    let us := rg s .CP_CLASS_YELLOW_MAX_US i.cls
    let due := i.admAt + 1000 * us
    if !queuedItem i ∨ !i.yellow ∨ i.preempted ∨ us = 0 ∨ now s < due ∨ i.shares.any (·.sent) then s
    else
      let w := itemWait s i
      let s := ctr .CP_YELLOW_TIMEOUT_CNT i.part (wheelLate i.part due s)
      let s := match i.meter with
        | some m => let x := meterAt s m; putMeter m { x with tp := min (peakSize x) (x.tp + i.charge * 1000000) } s
        | none => s
      useFree (shapeHeads (settleTags (dropQueued i stRefusedCapacity w s)))

/-- Level of a class for R362. -/
def preemptLevel (s : State) (c : Nat) : Nat := bits (rg s .CP_CLASS_CFG c) 3 2

/-- The work that a waiting item would preempt: the lowest level below its own, the most recently dispatched of it. -/
def preemptVictim (s : State) (p srv l : Nat) : Option Item :=
  (onServer s p srv).foldl (fun b i =>
    if preemptLevel s i.cls < l then
      match b with
      | none => some i
      | some x => if preemptLevel s i.cls < preemptLevel s x.cls ∨ (preemptLevel s i.cls = preemptLevel s x.cls ∧ x.sentAt ≤ i.sentAt)
                  then some i else b
    else b) none

/-- PREEMPT_WAIT_EXPIRY (R362): the request goes to the unit; LATHE_PREEMPT and ADZE_PREEMPT carry it out. -/
def preemptWaitOp (id srv : Nat) (s : State) : State :=
  match itemById s id with
  | none => s
  | some i =>
    let l := preemptLevel s i.cls
    if i.yellow ∨ l = 0 ∨ !(srv < 4 ∨ srv = 16) ∨ ((queueOf s i.part srv i.cls false).head?.map (·.id)) ≠ some id ∨
        !dispatchable s i ∨ canAccept s i.part srv ∨ now s < i.admAt + rg s .CP_PART_PREEMPT_WAIT_NS i.part ∨
        (nget s.cp.preempt (i.part * 18 + srv)).isSome then s
    else match preemptVictim s i.part srv l with
      | none => s
      | some v => ctr .CP_PREEMPT_REQ_CNT i.part { s with cp.preempt := nset s.cp.preempt (i.part * 18 + srv) v.id }

/-- A later step's held requests enter their queues when the current step has ended (R340). -/
def releaseSteps (s : State) : State :=
  (s.cp.items.filter fun i => i.stepHeld && !laterStep s i.desc).foldl
    (fun s i => enqueue { i with stepHeld := false } { s with cp.items := s.cp.items.filter fun x => x.id != i.id }) s

/-! ### Configuration writes -/

/-- Requester key: CP_ACCT_SEL and CP_METER_SEL are held for each master ID and, for the host port, each function (R364). -/
def selKey (q : Req) : Nat := q.mst.toNat * 128 + (if q.mst = 0x90 then q.fn.toNat else 0)

def acctSel (s : State) (q : Req) : Nat := ngetD s.cp.accSel (selKey q) 0
def mtrSel (s : State) (q : Req) : Nat := ngetD s.cp.mtrSel (selKey q) 0

/-- ACCOUNT_CREDIT (R344): the signed pair is added at once, without regard to CAP. -/
def creditOp (q : Req) (hi : Nat) (s : State) : State :=
  regGuard q ⟨.CP_ACCT_CREDIT_HI, 0, 0, 0⟩ (fun s =>
    let a := acctSel s q
    let x := acctOf s a
    putAcct a { x with balance := ((BitVec.ofInt 64 x.balance) + BitVec.ofNat 64 (x.creditLo.toNat + 2 ^ 32 * hi)).toInt } s) s

/-- The meters an account's fields would place lie in the partition's range (R345). -/
def metersFit (s : State) (cfg base : Nat) : Bool :=
  let n := popcount 16 (bits cfg 21 6)
  n == 0 || (match partPlan s (bits cfg 3 0) with
    | some pl => pl.meterBase ≤ base && base + n ≤ pl.meterBase + pl.meterCount
    | none => false)

/-- A write of CP_ACCT_CFG (R344, R345): BUDGET_EN from 0 to 1 starts the refill phase. -/
def acctCfgOp (q : Req) (v : Nat) (s : State) : State :=
  regGuard q ⟨.CP_ACCT_CFG, 0, 0, 0⟩ (fun s =>
    let a := acctSel s q
    let x := acctOf s a
    let v := v % 2 ^ 22
    if !metersFit s v x.base then evt Ev.METER_RANGE q a s
    else
      let on := bit v 5 && !budgetEn x
      putAcct a { x with cfg := BitVec.ofNat 32 v, next := if on then now s + x.ms * 1000000 else x.next } s) s

/-- A write of CP_ACCT_METER_BASE (R345). -/
def meterBaseOp (q : Req) (v : Nat) (s : State) : State :=
  regGuard q ⟨.CP_ACCT_METER_BASE, 0, 0, 0⟩ (fun s =>
    let a := acctSel s q
    let x := acctOf s a
    if metersFit s x.cfg.toNat (v % 2 ^ 18) then putAcct a { x with base := v % 2 ^ 18 } s else evt Ev.METER_RANGE q a s) s

/-- A write of CP_ACCT_REFILL_MS: a new period restarts the phase while BUDGET_EN is 1 (R344). -/
def refillMsOp (q : Req) (v : Nat) (s : State) : State :=
  regGuard q ⟨.CP_ACCT_REFILL_MS, 0, 0, 0⟩ (fun s =>
    let a := acctSel s q
    let x := acctOf s a
    let ms := v % 2 ^ 16
    putAcct a { x with ms := ms, next := if budgetEn x then now s + ms * 1000000 else x.next } s) s

/-- METER_CONFIG_WRITE (R347): the buckets are clipped at once and never raised. A meter not yet used stays full. -/
def meterCfgOp (q : Req) (w v : Nat) (s : State) : State :=
  let id : RegId := if w = 0 then .CP_METER_CIR else if w = 1 then .CP_METER_CBS else if w = 2 then .CP_METER_PIR else .CP_METER_PBS
  regGuard q ⟨id, 0, 0, 0⟩ (fun s =>
    let m := mtrSel s q
    let x := meterAt s m
    let x := if w = 0 then { x with cir := v } else if w = 1 then { x with cbs := v }
             else if w = 2 then { x with pir := v } else { x with pbs := v }
    putMeter m { x with tc := min x.tc (x.cbs * 1000000), tp := min x.tp (peakSize x) } s) s

/-- RING_CLASS_BIND (R335). -/
def ringBindOp (q : Req) (r v : Nat) (s : State) : State :=
  regGuard q ⟨.CP_RING_CFG, r, 0, 0⟩ (fun s =>
    if bit v 6 ∧ (classPart s (bits v 5 0) ≠ ringPart s r ∨ classPart s (bits v 5 0) = none) then evt Ev.CP_CLASS_CEILING q r s
    else rp .CP_RING_CFG r 0 0 v s) s

/-- The staged gate list (R350, R365); none where it is not 1 to 64 entries of at least 1,000 ns that sum to CYCLE. -/
def stagedGcl (s : State) (p : Nat) : Option Gcl :=
  let n := rg s .CP_GCL_COUNT p
  let es := (List.range (min n 64)).map fun i => (rg s .CP_GCL_STAGE_DUR p i, rg s .CP_GCL_STAGE_OPEN p i)
  if 1 ≤ n ∧ n ≤ 64 ∧ es.all (fun e => 1000 ≤ e.1) ∧ (es.map (·.1)).foldl (· + ·) 0 = rg s .CP_GCL_CYCLE p then
    some ⟨es, rg80 s .CP_GCL_BASE p true, rg s .CP_GCL_CYCLE p⟩
  else none

/-- GCL_COMMIT (R351): a write of CP_GCL_CTL; with COMMIT the staged list becomes the pending one. -/
def gclCommitOp (q : Req) (p v : Nat) (s : State) : State :=
  regGuard q ⟨.CP_GCL_CTL, p, 0, 0⟩ (fun s =>
    let s := rp .CP_GCL_CTL p 0 0 v s
    if !bit v 1 then s
    else match stagedGcl s p with
      | none => evt Ev.GCL_INVALID q p s
      | some g =>
        let from_ := max (max (rg80 s .CP_GCL_CHANGE p true) (now s)) g.base
        let t := g.base + ceilDiv (from_ - g.base) g.cycle * g.cycle
        let old := ngetD s.cp.gcl p ⟨none, none⟩
        let act := match old.pending with | some (l, t0) => if t0 ≤ now s then some l else old.active | none => old.active
        { s with cp.gcl := nset s.cp.gcl p ⟨act, some (g, t)⟩ }) s

/-! ### The commands -/

def execShaperRelease (item : Nat) (s : State) : Result := .next (shaperOp item s)
def execGateOpening (p : Fin 16) (s : State) : Result := .next (gateOpening p s)
def execGclListSwitch (p : Fin 16) (s : State) : Result := .next (gclSwitch p s)
def execDeferralTimer (item : Nat) (s : State) : Result := .next (deferralOp item s)
def execBudgetRefill (a : BitVec 16) (s : State) : Result := .next (budgetRefillOp a.toNat s)
def execPreemptWaitExpiry (item : Nat) (srv : Fin 18) (s : State) : Result := .next (preemptWaitOp item srv s)
def execAccountCredit (q : Req) (hi : W32) (s : State) : Result := .next (creditOp q hi.toNat s)
def execRefillPeriodWrite (q : Req) (period : Bool) (v : W32) (s : State) : Result :=
  .next (if period then refillMsOp q v.toNat s else acctCfgOp q v.toNat s)
def execMeterConfigWrite (q : Req) (w : Fin 4) (v : W32) (s : State) : Result := .next (meterCfgOp q w v.toNat s)
def execMeterPlacementWrite (q : Req) (base : Bool) (v : W32) (s : State) : Result :=
  .next (if base then meterBaseOp q v.toNat s else acctCfgOp q v.toNat s)
def execRingClassBind (q : Req) (r : BitVec 16) (v : W32) (s : State) : Result := .next (ringBindOp q r.toNat v.toNat s)
def execGclCommit (q : Req) (p : Fin 16) (v : W32) (s : State) : Result := .next (gclCommitOp q p v.toNat s)

end Sys2Proof.Machine
end

