-- ==== Sys2Proof/Machine/Order.lean ====
section
/-! DEFINITION. The order in which blocks come into T1 (R126, R127): which tiles of a move in are in flight. -/

namespace Sys2Proof.Machine

/-- The declared layer order of a policy's program (R126, R296): ascending where it names none, or one that is not READY or
declares none. -/
def declaredOrder (s : State) (x : Slot) : List Nat :=
  let layers := List.range (pLayers x.policy)
  let g := progOf s x.part (pProgram x.policy - 1)
  if pProgram x.policy = 0 ∨ g.st ≠ .ready ∨ cOrderLayers g.cont = 0 then layers
  else ((List.range (cOrderLayers g.cont)).map fun i => bAt g.cont (cOrderOff g.cont + 2 * i) 2).filter fun l => l < pLayers x.policy

/-- The order in force: the one learned since the last core reset (R127), then the declared order of what it leaves out. -/
def layerOrder (s : State) (x : Slot) : List Nat :=
  let l := if pProgram x.policy = 0 then [] else ngetD s.sp.revOrder (256 * x.part + (pProgram x.policy - 1)) []
  l ++ ((declaredOrder s x ++ List.range (pLayers x.policy)).eraseDups).filter fun k => !l.contains k

/-- Layers in flight (R126): 0 acts as 1. -/
def lookahead (s : State) : Nat := max 1 (bits (rg s .SP_LOOKAHEAD) 3 0)

/-- Tiles of a move in flight: of a move into T1 those of the oldest layer not fully acknowledged and of the layers within the
look-ahead after it; of any other move every tile without acknowledgement. -/
def tilesFlying (s : State) (m : Move) : List (Nat × Nat) :=
  if m.dir = .out then m.pend
  else
    let x := slotOf s m.slot
    let o := layerOrder s x
    let pos (t : Nat × Nat) : Nat := o.idxOf (entL x t.1)
    let oldest := (m.pend.map pos).min?.getD 0
    m.pend.filter fun t => pos t ≤ oldest + lookahead s

end Sys2Proof.Machine
end

