-- ==== Sys2Proof/Machine/Rings.lean ====
section
/-! DEFINITION. Rings (chapter 14): doorbell writes, enable, drain and abort, interrupt coalescing, the host link's effect on
rings, function-level reset (R396-R403). -/

namespace Sys2Proof.Machine

/-! ### Doorbells (R398) -/

/-- Work that waited for room in a device-produced ring goes on: held entries, notices, text chunks. -/
def roomMade (r : Nat) (s : State) : State :=
  let s := flushHeld r ((ringOf s r).held.length + 1) s
  let s := match ringPart s r with
    | some p => if rg s .SP_PART_NOTICE_RING p = r then flushNotices p r ((ngetD s.sp.heldNotes p []).length + 1) s else s
    | none => s
  (s.wh.streams.filter fun e => e.2.ring == r).foldl (fun s e => flushStrm e.1 (e.2.chunks.length + 1) s) s

/-- What a write of the software index does once its right is checked; `mst` is the writer, for the log. -/
def doorbell (q : Req) (r : Nat) (v : W32) (s : State) : State :=
  let x := ringOf s r
  let p := (ringPart s r).getD 16
  let s := ctr .HP_DOORBELL_CNT p s
  let size := ringSize s r
  if x.st = .disabled then evt Ev.RING_DISABLED q r s
  else if ringKind s r = 0 then
    if x.st = .draining then evt Ev.RING_DRAINING q r s
    else if size < (v - x.c).toNat ∨ size < (v - x.p).toNat then evt Ev.DOORBELL_OVERRUN q r (ctr .HP_OVERRUN_CNT p s)
    else setRing r { x with p := v } s
  else if size < (x.p - v).toNat ∨ size < (v - x.c).toNat then evt Ev.DOORBELL_OVERRUN q r (ctr .HP_OVERRUN_CNT p s)
  else roomMade r (setRing r { x with c := v } s)

def doorbellOp (q : Req) (r : Nat) (v : W32) (s : State) : State := regGuard q ⟨.DB_SW_IDX, r, 0, 0⟩ (doorbell q r v) s

/-! ### States (R402, R386, R387) -/

/-- Sets the ENABLE bit of a ring as it reads. -/
def ringEnableBit (r : Nat) (v : Bool) (s : State) : State := regSetBit .DB_CFG r 0 v s

/-- The base is aligned to the buffer's size (R397). -/
def ringAligned (s : State) (r : Nat) : Bool := ringBase s r % (ringSize s r * ringEntry s r) == 0

/-- Unfetched descriptors up to P are fetched and complete FAULT_CONTEXT. -/
def failUnfetched (r : Nat) : Nat → State → State
  | 0, s => s
  | n + 1, s =>
    let x := ringOf s r
    if x.p = x.c then s
    else
      let e := takeEntry r s
      let h := if headerOk s r e.1 then (namedHandle e.1).getD 0 else 0
      failUnfetched r n (writeRecord r (dTag e.1) (dNotify e.1) stFaultContext 0 0 0 h 0 e.2.2.2)

/-- A submit ring is aborted: what Capstan has not dispatched completes FAULT_CONTEXT; dispatched work goes on. -/
def abortSubmit (r : Nat) (s : State) : State :=
  let s := failUnfetched r (ringCount (ringOf s r)) s
  let q := s.cp.items.filter fun i => i.ring == r && queuedItem i && !i.preempted && !i.shares.any (·.sent)
  let s := q.foldl (fun s i => dropQueued i stFaultContext 0 s) s
  ringEnableBit r false (setRing r { ringOf s r with st := .disabled, stalled := false } (shapeHeads (settleTags s)))

/-- A ring the device produces is aborted: entries it held are dropped, as later ones will be. -/
def abortProduced (r : Nat) (s : State) : State :=
  let x := ringOf s r
  let p := (ringPart s r).getD 16
  let s := setRing r { x with st := .disabled, held := [], irqAcc := 0 } s
  let s := x.held.foldl (fun s _ => evt Ev.RECORD_DROPPED (unitReq 0xA3 p) r (ctr .HP_RECORD_DROP_CNT p s)) s
  ringEnableBit r false s

/-- ABORT (R402): nothing on a DISABLED ring. -/
def abortRing (r : Nat) (s : State) : State :=
  if (ringOf s r).st = .disabled then s else if ringKind s r = 0 then abortSubmit r s else abortProduced r s

/-- DRAIN (R402): nothing unless the ring is ENABLED; a ring with nothing left is DISABLED at once. -/
def drainRing (r : Nat) (s : State) : State :=
  let x := ringOf s r
  if x.st = .enabled then ringDrainDone r (setRing r { x with st := .draining } s) else s

/-- ENABLE written 1 to a DISABLED ring (R402). -/
def enableRing (q : Req) (r : Nat) (s : State) : State :=
  if ringAligned s r then
    ringEnableBit r true (setRing r { ringOf s r with st := .enabled, p := 0, c := 0, stalled := false, cqLog := false,
                                                      irqAcc := 0, held := [] } s)
  else evt Ev.RING_CFG_INVALID q r (ringEnableBit r false s)

/-- A write of DB_CFG (R402): its KIND, LOG2 and PAIRED are taken only while the ring is DISABLED. -/
def ringCfg (q : Req) (r v : Nat) (s : State) : State :=
  let x := ringOf s r
  let old := rg s .DB_CFG r
  if x.st = .disabled then
    let t := rp .DB_CFG r 0 0 (v / 2 * 2) s
    if bit v 0 then
      if ringAligned t r then enableRing q r t else evt Ev.RING_CFG_INVALID q r s
    else t
  else
    let s := if bits v 10 3 ≠ bits old 10 3 then evt Ev.RING_CFG_BUSY q r s else s
    if bit v 2 then abortRing r s
    else match x.st with
      | .enabled =>
        if bit v 1 then drainRing r (ringEnableBit r (bit v 0) s)
        else if bit v 0 then s else abortRing r s
      | _ => if bit v 0 then s else ringEnableBit r false s

def ringCfgOp (q : Req) (r v : Nat) (s : State) : State := regGuard q ⟨.DB_CFG, r, 0, 0⟩ (ringCfg q r v) s

/-- A write of DB_BASE or DB_CQ: only while DISABLED. -/
def ringBusyWrite (q : Req) (ra : RegAt) (v : Nat) (s : State) : State :=
  if (ringOf s ra.i).st = .disabled then regPut ra v s else evt Ev.RING_CFG_BUSY q ra.i s

/-- The coalescing time of a ring has passed (R403). -/
def coalesceTimer (r : Nat) (s : State) : State :=
  let x := ringOf s r
  if x.irqAcc = 0 ∨ now s < x.irqAt + 1000 * bits (rg s .DB_IRQ r) 31 24 then s else sendIrq r s

/-! ### Functions and the host link (R396) -/

/-- FLR (R396): every ring of the function is aborted, submit rings first so that their records can be written. FLR of PF1
clears NumVFs. -/
def flrOp (f : Nat) (s : State) : State :=
  let own := (s.hp.rings.filter fun e => e.2.st != .disabled && bits (rg s .DB_OWNER e.1) 6 0 == f).map (·.1)
  let s := (own.filter fun r => ringKind s r == 0).foldl (fun s r => abortRing r s) s
  let s := (own.filter fun r => ringKind s r != 0).foldl (fun s r => abortRing r s) s
  { s with hp.cfg := s.hp.cfg.filter fun e => e.1 / 1024 != f
           hp.numVfs := if f = 1 then 0 else s.hp.numVfs
           hp.flrDone := if s.hp.flrDone.contains f then s.hp.flrDone else s.hp.flrDone ++ [f] }

/-- A device request to a host-port address ends in a failure (R406): the command whose request it is, or the session's move. -/
def dmaFail (x : Dma) (st det : Nat) (s : State) : State :=
  let s := { s with hp.dma := s.hp.dma.filter fun y => y.id != x.id }
  let s := ctr .HP_DMA_FAIL_CNT ((ringPart s x.ring).getD 16) s
  match x.slot with
  | some n =>
    match moveOf s n with
    | some m =>
      if m.dir = .inn then (if st = stFaultContext then unreadable n 0 true s else endMove n st det s)
      else failOut n st det s
    | none => s
  | none =>
    match jobOf s x.ring x.desc with
    | some j => endJob j st det s
    | none => match areqOf s x.ring x.desc with
      | some r => endAreq r st det s
      | none => match runOf s x.ring x.desc with
        | some r => complete r.ring r.desc st 0 0 0 ((namedHandle r.desc).getD 0) det (dropRun r s)
        | none => s

/-- The outstanding requests of moves to and from T4: one entry for each such move while tiles are outstanding. -/
def syncDma (s : State) : State :=
  let live (n : Nat) : Bool := s.ht.moves.any fun m => m.slot == n && m.pend != [] &&
    ((m.dir == .out && (m.tier == 4 || (m.tier == 5 && !m.path))) || (m.dir == .inn && (slotOf s n).tier == 4))
  let s' := { s with hp.dma := s.hp.dma.filter fun x => match x.slot with | some n => live n | none => true }
  s.ht.moves.foldl (fun t m =>
    if live m.slot && !(t.hp.dma.any fun x => x.slot == some m.slot) then dmaAdd 0 0 (some m.slot) t else t) s'

/-- Hot reset, link down or PERST_N as a host-port reset (R396): the epoch is raised, outstanding requests fail TARGET_RESET. -/
def linkDownOp (s : State) : State :=
  let s := { s with hp.epoch := s.hp.epoch + 1, hp.up := false, hp.speed := 0, hp.width := 0 }
  s.hp.dma.foldl (fun s x => dmaFail x stTargetReset (detReset none s.hp.epoch) s) s

/-- The link comes up: held entries are written, new SerDes firmware is in use (R396, R559). -/
def linkUpOp (speed width : Nat) (s : State) : State :=
  if speed = 0 ∨ !(width = 4 ∨ width = 8 ∨ width = 16) ∨ (s.pm.step < 8 ∧ !s.pm.romRec) then s
  else
    -- R547: role C caps the port at 32 GT/s; R554: the boot ROM's defaults train it at 16 GT/s
    let speed := if s.pm.romRec || s.pm.sdDead then min speed 1 else if s.pm.role = 1 then min speed 2 else speed
    let s := { s with hp.up := true, hp.speed := speed, hp.width := width, hp.serdes := false }
    (s.hp.rings.filter fun e => e.2.held != []).foldl (fun s e => flushHeld e.1 (e.2.held.length + 1) s) s

/-- HOST_DMA_COMPLETION_ERROR (R406). -/
def dmaErrorOp (id : Nat) (poison : Bool) (s : State) : State :=
  match s.hp.dma.find? fun x => x.id == id with
  | none => s
  | some x =>
    let q := unitReq 0x90 ((ringPart s x.ring).getD 16)
    if poison then dmaFail x stFaultContext 0 (evt Ev.HOST_DMA_POISON q id s)
    else dmaFail x stFaultAccess (detTarget none) (evt Ev.HOST_DMA_REFUSED q id s)

/-- HOST_DMA_TIMEOUT (R406). -/
def dmaTimeoutOp (id : Nat) (s : State) : State :=
  match s.hp.dma.find? fun x => x.id == id with
  | none => s
  | some x =>
    if now s < x.start + 1000 * rg s .HP_CPL_TMO then s
    else dmaFail x stFaultAccess (detTarget none) (evt Ev.HOST_DMA_TIMEOUT (unitReq 0x90 ((ringPart s x.ring).getD 16)) id s)

/-! ### The commands -/

def execDbSwIdxWrite (q : Req) (r : BitVec 16) (v : W32) (s : State) : Result := .next (doorbellOp q r.toNat v s)
def execMsixCoalesceTimer (r : BitVec 16) (s : State) : Result := .next (coalesceTimer r.toNat s)

end Sys2Proof.Machine
end

