-- ==== Sys2Proof/Machine/Engines.lean ====
section
/-! DEFINITION. Engines (R378-R387): enable, drain, abort, fence, spares, instance resets; sparing channels (R381, R382); the
DRAIN bits (R587); access tables (R55-R60); injection slots (R68-R71); captures (R43, R44). -/

namespace Sys2Proof.Machine

/-! ### Engines -/

/-- Block of an engine kind (R36). -/
def kindBlk : EngKind → Nat
  | .lathe => 6 | .adze => 8 | .whittle => 9 | .cleat => 0xA | .bight => 0xB | .skein => 0xC | .splice => 4

/-- Engines of a block, spares included (R141, R209, R253, R287, R313, R333). -/
def engCount (b : Nat) : Nat :=
  match b with
  | 4 => 34 | 6 => 272 | 8 => 36 | 9 => 16 | 0xA => 16 | 0xB => 16 | 0xC => 16 | _ => 0

/-- Moves of a Splice engine restart on other engines (R125). -/
def spliceMovesAway (e : Nat) (s : State) : State :=
  (s.ht.moves.filter fun m => m.eng == e).foldl (fun s m =>
    let k := (engFree s 4 ((spliceEngines s).filter (· != e))).getD 0
    putMove { restartMove s m with eng := k } (ctr .SP_MOVE_RESTART_CNT (slotOf s m.slot).part s)) s

/-- ABORT of a Splice engine (R125). -/
def spliceAbort (e : Nat) (s : State) : State :=
  spliceMovesAway e ((s.sp.jobs.filter fun j => j.eng == e).foldl (fun s j => endJob j stFaultContext 0 s) s)

/-- ABORT of a Whittle engine (R252): commands run within their own step, so only its streams are left; their generations end
FAULT_CONTEXT. -/
def whittleAbort (e : Nat) (s : State) : State :=
  (s.wh.streams.filter fun x => x.2.eng == e).foldl (fun s x =>
    match genOf s x.1 with
    | some _ => dropStrm x.1 (endGen x.1 stFaultContext 0 s)
    | none => dropStrm x.1 s) s

/-- What an engine of block `b` has in flight completes FAULT_CONTEXT or restarts, as its unit's state table says of ABORT. -/
def abortWork (b e : Nat) (s : State) : State :=
  match b with
  | 4 => spliceAbort e s
  | 6 => latheAbort e s
  | 8 => adzeAbort e s
  | 9 => whittleAbort e s
  | 0xC => skeinAbort e s
  | _ => drawAbort b e s

/-- The same of a fence. -/
def fenceWork (b e : Nat) (s : State) : State :=
  match b with
  | 4 => spliceAbort e s
  | 6 => latheFence e s
  | 8 => adzeFence e s
  | 9 => whittleFence e s
  | 0xC => skeinFence e s
  | _ => drawFence b e s

/-- DRAIN (R386, R387). Of an instance that passed its self-test while a spare serves it, the spare drains (R380). -/
def engDrain (b e : Nat) (s : State) : State :=
  let x := engOf s b e
  if x.st = .enabled then engSettle b e (putEng b e { x with st := .draining } s)
  else if x.st = .disabled ∧ x.subst then
    match (List.range (engCount b)).find? fun k => k != e && (engOf s b k).serves == e with
    | some k =>
      if (engOf s b k).st = .enabled then engSettle b k (putEng b k { engOf s b k with st := .draining } s) else s
    | none => s
  else s

/-- ABORT (R386, R387): the engine goes DISABLED and sets its own ENABLE to 0. -/
def engAbort (b e : Nat) (s : State) : State :=
  let x := engOf s b e
  if x.st = .enabled ∨ x.st = .draining then
    let s := abortWork b e (putEng b e { x with st := .disabled } s)
    regSetBit (engCtl b) e 0 false (putEng b e { engOf s b e with work := 0 } s)
  else s

/-- ENABLE written (R386, R387). A fenced or retired engine is not enabled (R380), nor one that a spare still serves. -/
def engEnable (b e : Nat) (v : Bool) (s : State) : State :=
  let x := engOf s b e
  match x.st, v with
  | .disabled, true =>
    if x.retired ∨ x.subst then s else regSetBit (engCtl b) e 0 true (putEng b e { x with st := .enabled } s)
  | .enabled, false => engAbort b e s
  | _, _ => s

/-- A write of an ENG_CTL register: ABORT before DRAIN before ENABLE. -/
def engCtlWrite (b e v : Nat) (s : State) : State :=
  if engCount b ≤ e then s
  else if bit v 2 then engAbort b e s
  else if bit v 1 then engDrain b e s
  else engEnable b e (bit v 0) s

/-- The requester an engine's own log entries name. -/
def engReq (b e : Nat) : Req :=
  let m := match b with
    | 4 => 0x70 + e % 32 | 6 => (if e < 256 then e / 16 else e - 256) | 8 => 0x10 + e % 32 | 9 => 0x30 + e | 0xA => 0x40 + e
    | 0xB => 0x50 + e | _ => 0x60 + e
  unitReq (BitVec.ofNat 8 m) 0

/-- The spares that may serve an engine (R379). -/
def sparesFor (s : State) (b e : Nat) : List Nat :=
  match b with
  | 4 => if e < 32 then [32 + e / 16] else []
  | 6 => if e < 256 then [256 + e / 16] else []
  | 8 => if e < 32 then [32 + e / 8] else []
  | _ => (List.range 16).filter fun k => k != e && k / 4 == e / 4 && reservedEng s b k

/-- A spare takes the engine's master ID (R378 step 4). -/
def substitute (b e : Nat) (s : State) : State :=
  match (sparesFor s b e).find? fun k => (engOf s b k).st == .enabled && (engOf s b k).serves == k with
  | none => s
  | some k =>
    ctr .PM_SUBST_CNT 16 (putEng b e { engOf s b e with subst := true } (putEng b k { engOf s b k with serves := e } s))

/-- Raises a unit's epoch; what it has asked for is owed under the earlier one (R378 step 2, R384). -/
def unitEpochUp (b n : Nat) (s : State) : State :=
  { s with ax.unitEp := nmod s.ax.unitEp b 0 (· + 1)
           ax.owed := if n = 0 then s.ax.owed else nset s.ax.owed b ((ngetD s.ax.owed b (0, 0)).1 + n, now s) }

/-- Requests an engine has outstanding. -/
def engOutstanding (s : State) (b e : Nat) : Nat :=
  if b = 4 then (((s.sp.jobs.filter fun j => j.eng == e).map fun j => j.pend.length) ++
    ((s.ht.moves.filter fun m => m.eng == e).map fun m => (tilesFlying s m).length)).foldl (· + ·) 0
  else (engOf s b e).work

/-- The fence of an engine (R378). A spare that served another engine serves it no more; a fence during DRAINING acts as ABORT
(R387). -/
def engFence (b e : Nat) (s : State) : State :=
  let x := engOf s b e
  if x.st = .fenced ∨ engCount b ≤ e then s
  else
    let s := evt Ev.ENGINE_FENCED (engReq b e) (1024 * b + e) (ctr .PM_FENCE_CNT 16 s)
    let s := unitEpochUp b (engOutstanding s b e) s
    let s := if x.serves = e then s else putEng b x.serves { engOf s b x.serves with subst := false } s
    let s := putEng b e { x with st := .fenced, serves := e, epoch := x.epoch + 1 } s
    let s := substitute b e s
    let s := if x.st = .draining then abortWork b e s else fenceWork b e s
    putEng b e { engOf s b e with work := 0 } s

/-! ### Channels (R381, R382) -/

def spareLeft (s : State) (st : Nat) : Nat := ngetD s.lay.spareLeft st Config.spareChannels

/-- Pages of a channel: first and count. -/
def chanPages (t : Nat) : Nat × Nat := (chanBase t / 65536, 0x60000000 / 65536)

/-- The copy of a channel to a spare begins. -/
def startCopy (t : Nat) (s : State) : State :=
  { s with lay.spareLeft := nset s.lay.spareLeft (t / 32) (spareLeft s (t / 32) - 1), lay.copying := s.lay.copying ++ [t] }

/-- No spare is left: the channel is fenced, its pages become RETIRED and leave their free lists. -/
def chanGone (t : Nat) (s : State) : State :=
  let pg := chanPages t
  let s := { s with lay.chFenced := s.lay.chFenced ++ [t]
                    ht.runs := s.ht.runs.map fun (e : Nat × List (Nat × Nat)) => (e.1, (e.2.map (cutRun pg.1 (pg.1 + pg.2))).flatten) }
  { s with ht.pages := (List.range pg.2).foldl (fun m i => nset m (pg.1 + i) { ngetD m (pg.1 + i) page0 with st := .retired }) s.ht.pages }

/-- The controller of a channel is fenced (R381). -/
def chanFence (t : Nat) (s : State) : State :=
  if s.lay.copying.contains t ∨ s.lay.chFenced.contains t then s
  else
    let s := evt Ev.ENGINE_FENCED (unitReq 0xF0 16) (1024 * 0x13 + t) (ctr .PM_FENCE_CNT 16 s)
    if 0 < spareLeft s (t / 32) then startCopy t s else chanGone t s

/-- SPARE written to HM_SPARE_CMD: with no spare left, or a copy of the channel under way, nothing begins. -/
def spareOp (t : Nat) (s : State) : State :=
  if 0 < spareLeft s (t / 32) ∧ !s.lay.copying.contains t ∧ !s.lay.chFenced.contains t then startCopy t s else s

/-- Makes lines poisoned. -/
def poisonRun (first n : Nat) (s : State) : State := { s with lay.poison := s.lay.poison ++ [(first, n)] }

/-- The end of the copy: the spare takes the channel's index; lines that could not be corrected are poisoned, every line
where the channel could not be read. -/
def copyDone (t : Nat) (readable : Bool) (bad : List (BitVec 25)) (s : State) : State :=
  if !s.lay.copying.contains t then s
  else
    let s := ctrAdd .HM_CH_SPARE_CNT (t / 32) 16 1
      { s with lay.copying := s.lay.copying.filter (· != t), lay.spared := (s.lay.spared.filter (· != t)) ++ [t] }
    let base := chanBase t / 64
    if readable then
      (bad.filter fun l => l.toNat * 64 < 0x60000000).foldl (fun s l => poisonRun (base + l.toNat) 1 s) s
    else
      let s := { s with mem := s.mem.filter fun c => c.1 < chanBase t || chanBase t + 0x60000000 ≤ c.1 }
      poisonRun base (0x60000000 / 64) s

/-- Spare rows left on a channel. -/
def rowsLeft (s : State) (t : Nat) : Nat := ngetD s.lay.rowsLeft t (Config.rowSpares t % 256)

/-- A correctable error in a row (R382): at HM_ROW_SPARE_THR the row is repaired while a spare row is left. -/
def rowError (t row : Nat) (s : State) : State :=
  let s := ctrAdd .HM_CE_CNT t 16 1 s
  let k := t * 2 ^ 20 + row
  let n := ngetD s.lay.rowCe k 0 + 1
  if bits (rg s .HM_ROW_SPARE_THR) 7 0 ≤ n ∧ 0 < rowsLeft s t then
    ctrAdd .HM_ROW_SPARE_CNT t 16 1
      { s with lay.rowCe := ndel s.lay.rowCe k, lay.rowsSpared := nmod s.lay.rowsSpared t 0 (· + 1)
               lay.rowsLeft := nset s.lay.rowsLeft t (rowsLeft s t - 1) }
  else { s with lay.rowCe := nset s.lay.rowCe k n }

def stack0 : Stack := ⟨false, false, false, false, 0, 0⟩
def stackAt (s : State) (n : Nat) : Stack := ngetD s.sp.hbm n stack0
def putStack (n : Nat) (x : Stack) (s : State) : State := { s with sp.hbm := nset s.sp.hbm n x }

/-- PATROL_SCRUB_PERIOD: once the period of HM_SCRUB_CFG has passed, the stack is scrubbed again (R142). -/
def scrubOp (n : Nat) (s : State) : State :=
  let x := stackAt s n
  if x.ready ∧ x.lastScrub + 3600000000000 * rg s .HM_SCRUB_CFG ≤ now s then putStack n { x with lastScrub := now s } s else s

/-! ### Instance resets (R380, R384) -/

/-- Blocks PM_INST_RESET takes (R391). -/
def instBlocks : List Nat := [6, 8, 9, 0xA, 0xB, 0xC, 4, 0x13]

def instFenced (s : State) (b i : Nat) : Bool :=
  if b = 0x13 then s.lay.chFenced.contains i else i < engCount b && (engOf s b i).st == .fenced

/-- A reset rewrites an instance's registers and so restores their parity (R40). -/
def clearInst (b i : Nat) (s : State) : State :=
  let mine (off : Nat) : Bool := match regDecode off with
    | some ra => regBlock ra.id == b && (regRow ra.id).idx != .none && ra.i == i && off % 0x100000 ≥ 0x24
    | none => false
  { s with regs := s.regs.filter fun e => !mine e.1, ax.parInst := ndel s.ax.parInst (4096 * b + i) }

/-- PM_INST_RESET: the reset and self-test of one fenced instance begin. -/
def instReset (b i : Nat) (s : State) : State :=
  if !instBlocks.contains b ∨ s.lay.instBusy.isSome ∨ !instFenced s b i then
    evt Ev.INST_RESET_DENIED (unitReq 0xF0 16) (4096 * b + i) { s with lay.instRes := 3 }
  else ctr .PM_INST_RESET_CNT 16 (clearInst b i { s with lay.instBusy := some (b, i) })

/-- The self-test ends; the instance leaves reset once nothing is owed to it (R384). -/
def selfTestDone (pass : Bool) (s : State) : State :=
  match s.lay.instBusy with
  | none => s
  | some (b, i) =>
    if (ngetD s.ax.owed b (0, 0)).1 ≠ 0 then s
    else
      let s := { s with lay.instBusy := none, lay.instRes := if pass then 1 else 2 }
      if pass then
        if b = 0x13 then { s with lay.chFenced := s.lay.chFenced.filter (· != i) }
        else regSetBit (engCtl b) i 0 false (putEng b i { engOf s b i with st := .disabled } s)
      else
        let s := { s with lay.retired := s.lay.retired ++ [(b, i)] }
        evt Ev.INST_RETIRED (unitReq 0xF1 16) (4096 * b + i)
          (if b = 0x13 then s else putEng b i { engOf s b i with retired := true } s)

/-- RESPONSE_TIMEOUT: what a unit is still owed under its earlier epoch counts as answered (R384). -/
def responseTimeout (b : Nat) (s : State) : State :=
  match nget s.ax.owed b with
  | some (n, t) => if 0 < n ∧ t + 1000 * rg s .PM_RSP_TMO ≤ now s then { s with ax.owed := ndel s.ax.owed b } else s
  | none => s

/-- A response under an earlier epoch arrives: dropped and counted (R383; Hitch's own count, R101). -/
def epochDrop (b : Nat) (s : State) : State :=
  match nget s.ax.owed b with
  | some (n, t) =>
    let s := if b = 2 then ctr .HT_EPOCH_DROP_CNT 16 s else s
    ctrAdd .PM_EPOCH_DROP_CNT b 16 1 { s with ax.owed := if n ≤ 1 then ndel s.ax.owed b else nset s.ax.owed b (n - 1, t) }
  | none => s

/-! ### DRAIN bits (R587) -/

def drainReg : DrainUnit → RegId
  | .ht => .HT_CTL | .sp => .SP_CTL | .la => .LA_CTL | .wh => .WH_CTL | .cl => .CL_CTL | .bt => .BT_CTL | .ad => .AD_CTL
  | .sk => .SK_CTL | .cp => .CP_CTL

/-! ### Access tables (R55-R60) -/

/-- Targets that a tile under way touches. -/
def tileTargets (s : State) (x : TileRef) : List Nat :=
  let at' (a : Nat) : List Nat := match placeOf s a with | .target t => if isHost a then [] else [t] | _ => []
  match x with
  | .job r d t =>
    if (jobOf s r d).any fun j => j.pend.contains t then
      (if dOp d = 0x11 ∨ 2 < sSrcTier d then [] else at' (sSrc d + t * tileBytes)) ++
      (if 2 < sDstTier d then [] else at' (sDst d + t * tileBytes))
    else []
  | .move n e t =>
    match moveOf s n with
    | none => []
    | some m =>
      if m.pend.contains (e, t) then
        let src := ((slotOf s n).blks[e]?).toList
        let dst := (m.dst.filter fun y => y.1 == e).map (·.2)
        ((src ++ dst).map fun b => if b.tier ≤ 2 then at' (b.addr * 65536 + t * tileBytes) else []).flatten
      else []

/-- Every tile under way: the accesses that stay outstanding from one command to the next. -/
def tilesUnderWay (s : State) : List TileRef :=
  ((s.sp.jobs.map fun j => j.pend.map fun t => TileRef.job j.ring j.desc t) ++
   (s.ht.moves.map fun m => (tilesFlying s m).map fun t => TileRef.move m.slot t.1 t.2)).flatten

/-- Earlier-epoch accesses outstanding at a target (AX_STAT.OLD_OUT). -/
def axOld (s : State) (t : Nat) : Nat := ((ngetD s.ax.out t []).filter fun x => (tileTargets s x).contains t).length

/-- The confidential partition that owns a channel or bank, if one does (R478). -/
def confOwner (s : State) (t : Nat) : Option Nat :=
  (s.lay.img.parts.find? fun e => e.2.enable && e.2.conf &&
    (if t < 256 then e.2.channels.contains t else t < 320 && nget s.lay.img.bankOf (t - 256) == some e.1)).map (·.1)

/-- RD, WR, AT. -/
def axPerms : Nat := 0x70000

/-- What a staged entry becomes at a COMMIT: PART_MASK within the ceiling (R59); no permission for Lanyard at channels, banks,
ring blocks and target 384 (R483). -/
def axClip (s : State) (t m v : Nat) : Nat :=
  let c := v % 0x10000 &&& ngetD s.lay.img.axCeil t 0
  let p := if m = 0xF1 ∧ (t < 352 ∨ t = 384) then 0 else v &&& axPerms
  c + p + (v &&& 0x80000)

/-- Entries a COMMIT of target t changes: master, value. -/
def axStaged (s : State) (t : Nat) : List (Nat × Nat) :=
  (List.range 256).filterMap fun m => (nget s.regs (regOff .AX_STAGE t m 0)).map fun v => (m, v.toNat % 0x100000)

/-- Puts an entry in force, at the target's present epoch. -/
def axPut (t m v : Nat) (s : State) : State :=
  let old := (axEntry s t m).toNat
  if old % 0x100000 = v then s
  else { s with ax.active := nset s.ax.active (256 * t + m) (BitVec.ofNat 32 (v + 2 ^ 24 * (axEpochOf s t).toNat)) }

/-- COMMIT (R57-R59, R478). -/
def axCommitOp (q : Req) (t : Nat) (s : State) : State :=
  let st := axStaged s t
  let init (m : Nat) : Nat := (ngetD s.lay.img.ax (256 * t + m) 0).toNat % 0x100000
  let widens (e : Nat × Nat) : Bool := axClip s t e.1 e.2 &&& (0xFFFFF - init e.1) != 0
  if axOld s t ≠ 0 then evt Ev.ACC_COMMIT_BUSY q t s
  else if (confOwner s t).isSome ∧ st.any widens then evt Ev.CONF_DENIED q t (ctr .HW_CONF_DENIED_CNT ((confOwner s t).getD 16) s)
  else
    let s := { s with ax.epoch := nset s.ax.epoch t (axEpochOf s t + 1)
                      ax.out := nset s.ax.out t ((tilesUnderWay s).filter fun x => (tileTargets s x).contains t) }
    let s := if st.any fun e => e.2 % 0x10000 &&& (0xFFFF - ngetD s.lay.img.axCeil t 0 % 0x10000) != 0 then evt Ev.ACC_CEILING_CLIPPED q t s else s
    st.foldl (fun s e => axPut t e.1 (axClip s t e.1 e.2) s) s

/-- RESTAGE: the stage shows the active entries again (R56). -/
def axRestageOp (t : Nat) (s : State) : State :=
  let lo := regOff .AX_STAGE t 0 0
  { s with regs := s.regs.filter fun e => !(lo ≤ e.1 && e.1 < lo + 1024) }

/-! ### Injection (R68-R71, R484) -/

/-- A write to the INJ block takes effect only while ACTIVE reads 1. -/
def injGuard (q : Req) (ra : RegAt) (f : State → State) (s : State) : State :=
  regGuard q ra (fun s => if s.ax.injOn then f s else evt Ev.INJ_UNAUTHORISED q (regPay ra) s) s

/-- ARM: MODE 0 arms nothing, 1 one injection, 2 COUNT of them, 3 until disarmed (held as 0). -/
def injArmOp (k : Nat) (s : State) : State :=
  let c := rg s .INJ_CTL k
  match bits c 17 16 with
  | 1 => { s with ax.armed := nset s.ax.armed k 1 }
  | 2 => if bits c 31 20 = 0 then s else { s with ax.armed := nset s.ax.armed k (bits c 31 20) }
  | 3 => { s with ax.armed := nset s.ax.armed k 0 }
  | _ => s

def injDisarmOp (k : Nat) (s : State) : State := { s with ax.armed := ndel s.ax.armed k }

/-- ACTIVE falls: every slot disarms (R68). -/
def injOff (s : State) : State := { s with ax.injOn := false, ax.injExp := 0, ax.injLclk := 0, ax.armed := [] }

/-- INJ_EXPIRY (R484). -/
def injExpiryOp (s : State) : State :=
  if s.ax.injOn ∧ (s.ax.injExp ≤ now s ∨ s.ax.injLclk ≤ s.uptime) then injOff s else s

/-- An injection of slot k is made: counted, and the slot disarms with its last (R70). -/
def injFire (k : Nat) (s : State) : State :=
  let s := { s with ax.fired := nmod s.ax.fired k 0 (· + 1) }
  match nget s.ax.armed k with
  | some 1 => injDisarmOp k s
  | some (n + 2) => { s with ax.armed := nset s.ax.armed k (n + 1) }
  | _ => s

/-- Marks the log entries made since `old` as injected (R71). -/
def markInjected (old s : State) : State :=
  let n := (s.evtSeq + 2 ^ 32 - old.evtSeq) % 2 ^ 32
  let k := s.evts.length - n
  let new := s.evts.drop k
  { s with evts := s.evts.take k ++ new.map fun e => { e with inj := true }
           journal := s.journal.map fun e => if new.contains e then { e with inj := true } else e }

/-- What a detector's report does: of an injection, only while its slot is armed, and its entries carry the marker. -/
def reported (inj : Option (Fin 64)) (f : State → State) (s : State) : State :=
  match inj with
  | none => f s
  | some k => if (nget s.ax.armed k).isSome then markInjected s (f (injFire k s)) else s

/-! ### Captures (R43, R44) -/

/-- A capture of block `b` into a bank. -/
def capture (b bank : Nat) (s : State) : State :=
  let key := 32 * b + bank
  { s with
    ax.capVal := nset s.ax.capVal key (s.ctr.filter fun e => Ct.blk (Ct.ofNat (e.1 / 2 ^ 24)) == b && e.1 % 32 == bank)
    ax.capSeq := nmod s.ax.capSeq key 0 (· + 1)
    ax.capTs := nset s.ax.capTs key (now s)
    ax.firedCap := if b = 0x12 then s.ax.fired else s.ax.firedCap }

/-- Whether a function's or partition's write reaches XX_SNAP of a block: with the marker, or through a view that shows the
block (R38, R44). -/
def snapSees (s : State) (q : Req) (b : Nat) : Bool :=
  axAdmits s q .wr (352 + b) && (q.dev || ((partPlan s q.part.toNat).isSome && !(b == 0x12 || b == 0x14 || b == 1 || b == 0x10)))

def snapOp (q : Req) (b : Nat) (s : State) : State :=
  if !snapSees s q b then evt Ev.ACCESS_VIOLATION q (b * 0x100000 + 0x10) s
  else if s.ax.inReset.contains b then evt Ev.WRITE_DURING_RESET q (b * 0x100000 + 0x10) s
  else if b = 0x12 ∧ !s.ax.injOn then evt Ev.INJ_UNAUTHORISED q (b * 0x100000 + 0x10) s
  else capture b (if q.dev then 16 else q.part.toNat) s

/-- PM_SNAP_ALL arms the capture at the span time in PM_SNAP_AT. -/
def snapAllOp (s : State) : State := { s with ax.snapAll := some (rg80 s .PM_SNAP_AT 0 false) }

/-- The armed capture of every unit. -/
def snapAllDue (s : State) : State :=
  match s.ax.snapAll with
  | some t => if t < now s then (List.range 21).foldl (fun s b => capture b 16 s) { s with ax.snapAll := none } else s
  | none => s

/-! ### The commands -/

def execInstSelftestDone (pass : Bool) (s : State) : Result := .next (selfTestDone pass s)
def execPatrolScrubPeriod (n : Fin 8) (s : State) : Result := .next (scrubOp n s)
def execAxCommit (q : Req) (t : BitVec 9) (s : State) : Result :=
  .next (regGuard q ⟨.AX_CTL, t.toNat, 0, 0⟩ (fun s => if t.toNat < 389 then axCommitOp q t.toNat s else s) s)
def execAxRestage (q : Req) (t : BitVec 9) (s : State) : Result :=
  .next (regGuard q ⟨.AX_CTL, t.toNat, 0, 0⟩ (fun s => if t.toNat < 389 then axRestageOp t.toNat s else s) s)
def execInjArm (q : Req) (k : Fin 64) (s : State) : Result := .next (injGuard q ⟨.INJ_ARM, k, 0, 0⟩ (injArmOp k) s)
def execInjDisarm (q : Req) (k : Fin 64) (s : State) : Result := .next (injGuard q ⟨.INJ_ARM, k, 0, 0⟩ (injDisarmOp k) s)
def execInjExpiry (s : State) : Result := .next (injExpiryOp s)
def execSnapCapture (q : Req) (b : Fin 21) (s : State) : Result := .next (snapOp q b s)
def execPmSnapAll (q : Req) (s : State) : Result := .next (regGuard q ⟨.PM_SNAP_ALL, 0, 0, 0⟩ snapAllOp s)
def execSnapAllCapture (s : State) : Result := .next (snapAllDue s)

end Sys2Proof.Machine
end

