-- ==== Sys2Proof/Machine/CkOps.lean ====
section
/-! DEFINITION. How a checkpoint or restore ends (R500, R505, R507). -/

namespace Sys2Proof.Machine

def ck0 : Ck :=
  { phase := 0, result := 0, evac := false, verify := false, serial := 0, last := 0, ckk := 0, plan := none, start := 0, wait := [],
    nodes := [], shr := [], rings := [], sess := [], groups := [], progress := 0, manifest := [], restore := none }

def ckOf (s : State) (p : Nat) : Ck := ngetD s.ck p ck0

def putCk (p : Nat) (x : Ck) (s : State) : State := { s with ck := nset s.ck p x }

/-- Sessions an evacuation holds are served again. -/
def ckThaw (p : Nat) (s : State) : State :=
  { s with ht.slots := s.ht.slots.map fun e => if e.2.part == p && e.2.frozen then (e.1, { e.2 with frozen := false }) else e }

/-- A checkpoint or restore in progress ends with a RESULT; what a restore has committed stands. -/
def ckEnd (p result : Nat) (s : State) : State :=
  let x := ckOf s p
  if x.phase = 0 then s
  else
    let s := if result = 1 then s else ctr .CK_FAIL_CNT p s
    putCk p { ck0 with result := result, last := x.last, progress := x.progress } (ckThaw p s)

end Sys2Proof.Machine
end

