-- ==== Sys2Proof/Machine/Ckpt.lean ====
section
/-! DEFINITION. Checkpoints and evacuations (R486-R500): plan, capture, groups, shards, parity, manifest, commit. -/

namespace Sys2Proof.Machine

/-! ### Plans (R486, R487) -/

/-- One target entry; none where malformed. -/
def ckTarget (s : State) (a : Nat) : Option CkTarget :=
  let tier := rdNat s a 1
  let path := bit (rdNat s (a + 1) 1) 0
  let man := rdNat s (a + 16) 8
  if !(tier = 3 ∨ tier = 5) ∨ 2 ≤ rdNat s (a + 1) 1 ∨ (path ∧ tier ≠ 5) ∨ rdNat s (a + 2) 6 ≠ 0 ∨ rdNat s (a + 24) 8 ≠ 0 ∨
      hbmEnd ≤ rdNat s (a + 8) 8 ∨ hbmEnd ≤ man then none
  else match extentList s (rdNat s (a + 8) 8) tier with
    | none => none
    | some (pa, pid, l) =>
      if pa ≠ path then none
      else if man = 0 then some ⟨tier, path, pid, l, none⟩
      else match extentList s man tier with
        | some (pb, _, m) => if pb = path then some ⟨tier, path, pid, l, some m⟩ else none
        | none => none

/-- The targets of a plan in order; none where one is malformed. -/
def ckTargets (s : State) (a : Nat) : Nat → Option (List CkTarget)
  | 0 => some []
  | n + 1 => match ckTarget s a, ckTargets s (a + 32) n with
    | some t, some l => some (t :: l)
    | _, _ => none

/-- A plan at a T1 offset (R486). -/
def readPlan (s : State) (p a : Nat) : Option CkPlan :=
  let n := rdNat s (a + 4) 1
  if hbmEnd ≤ a ∨ (inCheck s (hitchReq s p) a 16).st ≠ 0 ∨ rdNat s a 4 = 0 ∨ n < 10 ∨ 64 < n ∨ rdNat s (a + 5) 1 = 0 ∨ 4 < rdNat s (a + 5) 1 ∨
      rdNat s (a + 6) 10 ≠ 0 ∨ (inCheck s (hitchReq s p) a (16 + 32 * n)).st ≠ 0 then none
  else match ckTargets s (a + 16) n with
    | some l => if 2 ≤ (l.filter (·.man.isSome)).length then some ⟨rdNat s a 4, rdNat s (a + 5) 1, l⟩ else none
    | none => none

/-! ### Capture (R490-R493) -/

/-- What Splice reads of a block at T3 or T5: bytes this device does not hold. -/
def remoteRead (b : Blk) (s : State) : List Byte × State :=
  let n := match b.sealr with | some r => r.len | none => 0
  if b.tier = 3 ∨ b.tier = 5 then ((List.range n).map (Config.remoteByte s.fv), useFree s) else ([], s)

/-- Bytes of a node's blocks, rounded up to 64 (R115). -/
def nodeBlkBytes (nd : Node) : Nat := ceilDiv (2 * nd.heads * segBytes nd.fmt (16 * nd.hd16)) 64 * 64

/-- A node record of the tree (R168). -/
def nodeBytes (p idx : Nat) (nd : Node) : List Byte :=
  let b := leBytes 8 (nodeId p idx nd) ++ leBytes 8 nd.parent ++ leBytes 16 nd.hash ++ leBytes 8 nd.ctx ++ leBytes 4 nd.depth ++
    leBytes 4 nd.refs ++ leBytes 4 nd.kids ++ leBytes 2 nd.layers ++ leBytes 1 nd.heads ++ leBytes 1 nd.hd16 ++ leBytes 1 nd.fmt ++
    leBytes 1 (nd.group + 64 * b2n nd.doomed) ++ leBytes 10 nd.lastUse ++ leBytes 60 0 ++ (nd.toks.map (leBytes 4)).flatten ++
    (nd.blks.map fun b => leBytes 8 (b.tier + 8 * b2n b.torn + 16 * b.npages + 256 * b.addr)).flatten
  b ++ leBytes (ceilDiv b.length 64 * 64 - b.length) 0

/-- A captured node: its record, then its blocks. -/
def nodeCapture (s : State) (p idx : Nat) (nd : Node) : List Byte :=
  nodeBytes p idx nd ++ (nd.blks.map fun b => memRead s.mem (b.addr * 65536) (nodeBlkBytes nd)).flatten

/-- Captures a session's entries in order: none where a block is unreadable, with the entry and whether by poison. -/
def capEntries (s : State) (x : Slot) (hdl : Nat) (path : List (Nat × Node)) :
    List (Nat × Blk) → Nat → Except (Nat × Bool) (List (Nat × Nat) × List Byte) × Nat
  | [], fv => (.ok ([], []), fv)
  | (e, b) :: r, fv =>
    let rest (h : Nat × Nat) (bs : List Byte) (fv : Nat) : Except (Nat × Bool) (List (Nat × Nat) × List Byte) × Nat :=
      match capEntries s x hdl path r fv with
      | (.ok (l, m), fv) => (.ok (h :: l, bs ++ m), fv)
      | z => z
    if b.shr then
      match (if entB x e < x.chunks then path[entB x e]? else none) with
      | some n => rest (1, n.1) [] fv
      | none => rest (2, b.addr) [] fv
    else if b.tier = 1 then
      if poisoned s (b.addr * 65536) (entBytes x e) then (.error (e, true), fv) else rest (0, entBytes x e) (t1Payload s x e b) fv
    else
      let rd := remoteRead b { s with fv := fv }
      let ct := storedBytes s b rd.1
      if !tagOk s x.part hdl e b ct then (.error (e, false), rd.2.fv)
      else rest (0, entBytes x e) (openForm s x.part e (entBytes x e) b ct) rd.2.fv

/-- Inserts a captured session in slot order. -/
def insSess (y : CkSess) : List CkSess → List CkSess
  | [] => [y]
  | x :: r => if hSlot y.handle < hSlot x.handle then y :: x :: r else x :: insSess y r

/-- The capture instant of a session at rest (R491); an unreadable block faults the session, which is then not captured. -/
def captureOne (p n : Nat) (s : State) : State :=
  let x := slotOf s n
  let h := handleOf n x
  let path := heldPath s x
  match capEntries s x h path (enum0 x.blks) s.fv with
  | (.error (e, poison), fv) => unreadable n e poison { s with fv := fv }
  | (.ok (ents, pay), fv) =>
    let s := { s with fv := fv }
    let k := ckOf s p
    let nodes := path.foldl (fun m e => if (nget m e.1).isSome then m else nset m e.1 (nodeCapture s p e.1 e.2)) k.nodes
    let shr := (enum0 x.blks).foldl (fun m e =>
      if e.2.shr && x.chunks ≤ entB x e.1 && (nget m e.2.addr).isNone then nset m e.2.addr (t1Payload s x e.1 e.2) else m) k.shr
    let y : CkSess := ⟨h, x.st == .active, descBytes n x, ents, pay, 0, 0, 0⟩
    let s := putCk p { k with nodes := nodes, shr := shr, sess := insSess y k.sess } s
    if k.evac then putSlot n { slotOf s n with frozen := true } s else s

/-- A session a checkpoint captures, and whether it must come to rest first (R490-R492). -/
def capturable (x : Slot) : Bool := !(x.st == .free || x.st == .faulted || x.st == .evacuated)
def atRest (x : Slot) : Bool := x.st != .stepping && x.st != .moving && x.step.isNone

/-- The ring tables of the partition's contexts (R490). -/
def ringTables (s : State) (p : Nat) : List (List Byte) :=
  ((List.range 8).filter fun c => bits (rg s .LG_SPN_PART c) 3 0 == p && rg64 s .LG_SPN_TABLE_LO .LG_SPN_TABLE_HI c != 0).map fun c =>
    let a := rg64 s .LG_SPN_TABLE_LO .LG_SPN_TABLE_HI c
    rdBytes s a (64 + 8 * rdNat s (a + 2) 2)

/-! ### Groups (R493, R494) -/

/-- The 64-byte header of a record. -/
def recHdr (ty id len ix : Nat) : List Byte :=
  leBytes 1 ty ++ leBytes 7 0 ++ leBytes 8 id ++ leBytes 8 len ++ leBytes 4 ix ++ leBytes 36 0

/-- Records of the first three kinds, in stream order (R493). A shared block's record begins with the number of captured sessions
that reference it (R490). -/
def treeRecs (x : Ck) : List (List Byte) := x.nodes.map fun e => recHdr 2 (leNat (e.2.take 8)) (64 + e.2.length) 0xFFFFFFFF ++ e.2
def ringRecs (x : Ck) : List (List Byte) := x.rings.map fun r => recHdr 3 (leNat (r.take 2)) (64 + r.length) 0xFFFFFFFF ++ r
def sharedRecs (x : Ck) : List (List Byte) := x.shr.map fun e =>
  recHdr 4 e.1 (72 + e.2.length) 0xFFFFFFFF ++ leBytes 8 (x.sess.filter fun y => y.ents.any fun z => z.1 == 2 && z.2 == e.1).length ++ e.2

/-- Index of a key in a list of records. -/
def recIndex (m : NMap (List Byte)) (k : Nat) : Nat := (m.filter fun e => e.1 < k).length

/-- The 8-byte block entries of a session record: private offsets run on from `off`. -/
def sessEntries (x : Ck) : List (Nat × Nat) → Nat → List Byte
  | [], _ => []
  | (0, n) :: r, off => leBytes 8 (2 * off) ++ sessEntries x r (off + n)
  | (1, i) :: r, off => leBytes 8 (2 * recIndex x.nodes i + 1) ++ sessEntries x r off
  | (_, a) :: r, off => leBytes 8 (2 * (x.nodes.length + x.rings.length + recIndex x.shr a) + 1) ++ sessEntries x r off

def sessRec (x : Ck) (i : Nat) (y : CkSess) : List Byte :=
  let head := 192 + 8 * y.ents.length
  recHdr 1 y.handle (head + y.pay.length) i ++ y.desc ++ sessEntries x y.ents head ++ y.pay

/-- Packs records into groups of at most `cap` bytes from group `g` on; answers the groups and where each record begins (first
group, groups, offset). -/
def packRecs (cap : Nat) : List (List Byte) → Nat → List Byte → List (List Byte) × List (Nat × Nat × Nat)
  | [], _, cur => (if cur = [] then [] else [cur], [])
  | r :: rs, g, cur =>
    if cap < r.length then
      let pre := if cur = [] then [] else [cur]
      let g1 := g + pre.length
      let k := ceilDiv r.length cap
      let t := packRecs cap rs (g1 + k) []
      (pre ++ (List.range k).map (fun i => (r.drop (i * cap)).take cap) ++ t.1, (g1, k, 0) :: t.2)
    else if cur.length + r.length ≤ cap then
      let t := packRecs cap rs g (cur ++ r)
      (t.1, (g, 1, cur.length) :: t.2)
    else
      let t := packRecs cap rs (g + 1) r
      (cur :: t.1, (g + 1, 1, 0) :: t.2)

/-- The stream's groups with their kinds, and the places of the tree, shared and session records. -/
structure CkForm where
  groups : List (Nat × List Byte)
  tree   : List (Nat × Nat × Nat)
  shr    : List (Nat × Nat × Nat)
  sess   : List (Nat × Nat × Nat)

def ckForm (x : Ck) : CkForm :=
  let cap := 8 * 2 ^ 30 * ((x.plan.map (·.gib)).getD 1)
  let t := packRecs cap (treeRecs x) 0 []
  let r := packRecs cap (ringRecs x) t.1.length []
  let h := packRecs cap (sharedRecs x) (t.1.length + r.1.length) []
  let y := packRecs cap ((enum0 x.sess).map fun e => sessRec x e.1 e.2) (t.1.length + r.1.length + h.1.length) []
  ⟨t.1.map (0, ·) ++ r.1.map (1, ·) ++ h.1.map (2, ·) ++ y.1.map (3, ·), t.2, h.2, y.2⟩

/-! ### Shards (R494, R495) -/

/-- Multiplication in GF(2^8) modulo 0x11D. -/
def gfMul (a b : Nat) : Nat :=
  ((List.range 8).foldl (fun (t : Nat × Nat) i =>
    (if bit b i then t.1 ^^^ t.2 else t.1, if bit t.2 7 then (2 * t.2) ^^^ 0x11D else 2 * t.2)) (0, a)).1

def gfPow (a : Nat) : Nat → Nat
  | 0 => 1
  | n + 1 => gfMul a (gfPow a n)

def gfInv (a : Nat) : Nat := gfPow a 254

/-- Exclusive-or, byte by byte. -/
def xorBytes (a b : List Byte) : List Byte := List.zipWith (· ^^^ ·) a b

def gfScale (c : Nat) (a : List Byte) : List Byte := a.map fun b => BitVec.ofNat 8 (gfMul c b.toNat)

/-- Sum of g^i times shard i over the shards given. -/
def gfSum (n : Nat) (l : List (Nat × List Byte)) : List Byte :=
  l.foldl (fun m e => xorBytes m (gfScale (gfPow 2 e.1) e.2)) (leBytes n 0)

def xorSum (n : Nat) (l : List (Nat × List Byte)) : List Byte := l.foldl (fun m e => xorBytes m e.2) (leBytes n 0)

/-- The nonce of a tile: group, shard, tile (R495). -/
def ckNonce (g i t : Nat) : Nat := g % 2 ^ 32 * 2 ^ 64 + i * 2 ^ 32 + t

/-- A stored data shard: its tiles sealed, then their tags (R495). -/
def sealShard (ckk serial g i : Nat) (bs : List Byte) : List Byte :=
  let ct := (enum0 (tilesOf bs)).map fun t => gcmXor ckk (ckNonce g i t.1) t.2
  ct.flatten ++ ((enum0 ct).map fun t => leBytes 16 (gcmTag ckk (ckNonce g i t.1) (leBytes 8 serial) t.2)).flatten

/-- Data shard i of a group: units i, i + 8, ... of the zero-padded stream (R494). -/
def dataShard (u : Nat) (bs : List Byte) (i : Nat) : List Byte :=
  let b := bs ++ leBytes (8 * u * 65536 - bs.length) 0
  ((List.range u).map fun k => (b.drop ((8 * k + i) * 65536)).take 65536).flatten

/-- The ten stored shards of a group: eight data, P, Q (R495). -/
def tenShards (ckk serial g u : Nat) (bs : List Byte) : List (List Byte) :=
  let d := (List.range 8).map fun i => sealShard ckk serial g i (dataShard u bs i)
  d ++ [xorSum (65600 * u) (enum0 d), gfSum (65600 * u) (enum0 d)]

/-! ### Writing (R487, R496) -/

/-- Pieces of a stream laid from byte `pos` of extents in order; none on an overrun. -/
def layExtents : List (Nat × Nat) → Nat → List Byte → Option (List (Nat × List Byte))
  | _, _, [] => some []
  | [], _, _ => none
  | (a, n) :: r, pos, bs =>
    let cap := n * 65536
    if cap ≤ pos then layExtents r (pos - cap) bs
    else match layExtents r 0 (bs.drop (cap - pos)) with
      | some l => some ((a * 65536 + pos, bs.take (cap - pos)) :: l)
      | none => none

/-- Writes pieces to a target: Harah stores, or host memory; T5 asks for persistence (R134). -/
def toTarget (p : Nat) (t : CkTarget) (l : List (Nat × List Byte)) (s : State) : State :=
  let s := l.foldl (fun s e => if tierPath t.tier t.path = 1 then send Mk.harahStore [e.1] e.2 s
                               else wrBytes (2 ^ 63 + e.1 % 2 ^ 63) e.2 s) s
  if t.tier = 5 then notice p 4 5 0 t.pid 0 s else s

def shardOfCk (x : Ck) (g i : Nat) : Option CkShard := (x.groups[g]?).bind fun y => y.shards[i]?

def putShardCk (g i : Nat) (y : CkShard) (x : Ck) : Ck :=
  { x with groups := x.groups.modify g fun z => { z with shards := z.shards.set i y } }

/-- Groups all of whose shards are done. -/
def groupsDone (x : Ck) : Nat := (x.groups.filter fun g => g.shards.all fun y => y.st == 2).length

/-- A shard is marked LOST (R496). -/
def loseShard (p g i : Nat) (y : CkShard) (s : State) : State :=
  let x := putShardCk g i { y with lost := true, st := 2 } (ckOf s p)
  ctr .CK_SHARD_LOST_CNT p (putCk p { x with progress := groupsDone x } s)

/-- Writes a shard; an overrun fails, is retried once to the same end, and is LOST. -/
def writeShard (p g i : Nat) (s : State) : State :=
  let x := ckOf s p
  match shardOfCk x g i, x.plan with
  | some y, some pl =>
    match pl.tgts[y.tgt]? with
    | none => s
    | some t => match layExtents t.exts y.at0 y.bytes with
      | some l => toTarget p t l s
      | none => loseShard p g i y (ctr .CK_SHARD_RETRY_CNT p s)
  | _, _ => s

/-- Bytes already placed at each target, shard by shard (R487). -/
def placeShards (n : Nat) : List CkGroup → Nat → NMap Nat → List CkGroup
  | [], _, _ => []
  | y :: r, g, fill =>
    let t := y.shards.foldl (fun (t : List CkShard × NMap Nat) z =>
      let tgt := (10 * g + t.1.length) % n
      (t.1 ++ [{ z with tgt := tgt, at0 := ngetD t.2 tgt 0 }], nmod t.2 tgt 0 (· + z.bytes.length))) ([], fill)
    { y with shards := t.1 } :: placeShards n r (g + 1) t.2

/-- All sessions are captured: the groups are formed and their shards written. -/
def startWriting (p : Nat) (s : State) : State :=
  let x := ckOf s p
  let f := ckForm x
  let n := (x.plan.map (·.tgts.length)).getD 10
  let sess := (x.sess.zip f.sess).map fun e => { e.1 with group := e.2.1, count := e.2.2.1, off := e.2.2.2 }
  let mk (e : Nat × Nat × List Byte) : CkGroup :=
    let g := e.1
    let u := max 1 (ceilDiv e.2.2.length (8 * 65536))
    let mine := (enum0 sess).filter fun y => y.2.group ≤ g && g < y.2.group + y.2.count
    { kind := e.2.1, u := u, first := ((mine.head?).map (·.1)).getD 0, count := mine.length,
      shards := (tenShards x.ckk x.serial g u e.2.2).map fun b => ⟨0, false, 0, 0, 0, 0, b⟩ }
  let groups := placeShards n ((enum0 f.groups).map mk) 0 []
  let s := putCk p { x with phase := 2, sess := sess, groups := groups } s
  (List.range groups.length).foldl (fun s g => (List.range 10).foldl (fun s i => writeShard p g i s) s) s

/-! ### The manifest (R498, R501) -/

/-- A mask of list members below 2^8 places and more. -/
def maskNat (l : List Nat) : Nat := l.eraseDups.foldl (fun m i => m + 2 ^ i) 0

/-- The 128-byte SHAPE of a partition (R501). -/
def shapeBytes (s : State) (p : Nat) : List Byte :=
  match partPlan s p with
  | none => leBytes 128 0
  | some pl =>
    leBytes 4 pl.slotBase ++ leBytes 4 pl.slotCount ++ leBytes 32 (maskNat pl.channels) ++
    leBytes 8 (maskNat ((s.lay.img.bankOf.filter fun e => e.2 == p).map (·.1))) ++ leBytes 2 (maskNat pl.groups) ++ leBytes 2 0 ++
    leBytes 4 (maskNat pl.adze) ++ leBytes 4 pl.nodeMax ++ leBytes 4 pl.pfxCeil ++ leBytes 64 0

/-- More than two shards of a group are LOST. -/
def groupLost (x : Ck) (g : Nat) : Bool := (x.groups[g]?).any fun y => 2 < (y.shards.filter (·.lost)).length

def placeLost (x : Ck) (z : Nat × Nat × Nat) : Bool := (List.range z.2.1).any fun i => groupLost x (z.1 + i)

/-- A session is NOT_CAPTURED: its records, or a record it references, lie in a lost group (R496). -/
def notCaptured (x : Ck) (f : CkForm) (y : CkSess) : Bool :=
  placeLost x (y.group, y.count, 0) || y.ents.any fun e =>
    if e.1 = 1 then (f.tree[recIndex x.nodes e.2]?).any (placeLost x)
    else if e.1 = 2 then (f.shr[recIndex x.shr e.2]?).any (placeLost x) else false

/-- A session is WITHDRAWN: freed or migrated since its capture (R492). -/
def withdrawn (s : State) (y : CkSess) : Bool :=
  let x := slotOf s (hSlot y.handle)
  x.st == .free || x.gen != hGen y.handle

def manifestBytes (s : State) (p : Nat) (x : Ck) : List Byte :=
  let f := ckForm x
  let pl := x.plan.getD ⟨0, 1, []⟩
  let kek := ngetD s.wkeys (p * 2 ^ 32 + pl.key) 0
  let head := leBytes 4 0x434B4D31 ++ leBytes 4 1 ++ leBytes 16 Config.uid.toNat ++ leBytes 8 x.serial ++ leBytes 1 p ++
    leBytes 1 (b2n x.evac) ++ leBytes 1 s.lay.img.conduct ++ leBytes 1 0 ++ leBytes 4 pl.key ++
    keyWrap kek x.ckk ++ leBytes 10 x.start ++ leBytes 10 (now s) ++ leBytes 4 x.groups.length ++
    leBytes 4 x.sess.length ++ leBytes 4 0 ++ leBytes 16 0 ++ shapeBytes s p
  let gt := (x.groups.map fun g => leBytes 1 g.kind ++ leBytes 3 0 ++ leBytes 4 g.u ++ leBytes 4 g.first ++ leBytes 4 g.count ++
    (g.shards.map fun y => leBytes 2 y.tgt ++ leBytes 2 (b2n y.lost) ++ leBytes 4 0 ++ leBytes 8 y.bytes.length ++ sha384 y.bytes).flatten).flatten
  let st := (x.sess.map fun y => leBytes 8 y.handle ++ leBytes 4 y.group ++ leBytes 4 y.count ++ leBytes 8 y.off ++
    leBytes 4 (b2n (withdrawn s y) + 2 * b2n (notCaptured x f y) + 4 * b2n y.active) ++ leBytes 4 0).flatten
  let c1 := Config.cert s.hw.fw.digest false
  let c2 := Config.cert s.hw.fw.digest true
  let body := head ++ gt ++ st ++ leBytes 4 c1.length ++ c1 ++ leBytes 4 c2.length ++ c2
  body ++ (Config.aliasSign s.hw.fw.digest body ++ leBytes 96 0).take 96

/-- Writes the manifest to every target that takes one; an overrun means that it is not durable (R499). -/
def writeManifest (p : Nat) (s : State) : State :=
  let x := ckOf s p
  let m := manifestBytes s p x
  let tg := ((x.plan.map (·.tgts)).getD []).filterMap fun t => t.man.map fun e => (t, layExtents e 0 m)
  if tg.any fun t => t.2.isNone then ckEnd p 7 s
  else tg.foldl (fun s t => toTarget p t.1 (t.2.getD []) s) (putCk p { x with phase := 3, manifest := m } s)

/-- Goes on where it can: sessions at rest are captured, then the shards are written, then the manifest, which waits for
Heartwood (R491, R492, R499). -/
def ckAdvance (p : Nat) (s : State) : State :=
  let x := ckOf s p
  if x.phase = 1 then
    let go := x.wait.filter fun n => atRest (slotOf s n) || !capturable (slotOf s n)
    let s := putCk p { x with wait := x.wait.filter fun n => !go.contains n } s
    let s := (go.filter fun n => capturable (slotOf s n)).foldl (fun s n => captureOne p n s) s
    if (ckOf s p).wait = [] then startWriting p s else s
  else if x.phase = 2 ∧ groupsDone x = x.groups.length ∧ s.hw.ready ∧ s.hw.restarting.isNone then writeManifest p s
  else s

/-- The checkpoint engines, looked at after every command. -/
def ckSweep (s : State) : State := (s.ck.filter fun e => e.2.phase == 1 || e.2.phase == 2).foldl (fun s e => ckAdvance e.1 s) s

/-! ### Starting (R488, R489) -/

/-- START (R488, R489). -/
def ckStartOp (p : Nat) (evac verify : Bool) (s : State) : State :=
  let x := ckOf s p
  if s.pm.recovery then s
  else if x.phase ≠ 0 then evt Ev.CKPT_BUSY (unitReq 0x70 p) p s
  else
    let s := ctr .CK_START_CNT p s
    let fail (r : Nat) : State := ctr .CK_FAIL_CNT p (putCk p { x with result := r } s)
    match (if (partPlan s p).isSome then readPlan s p (rg64 s .CK_PLAN_LO .CK_PLAN_HI p) else none) with
    | none => fail 2
    | some pl =>
      if (nget s.wkeys (p * 2 ^ 32 + pl.key)).isNone then fail 3
      else
        let k := fresh s
        let slots := ((s.ht.slots.filter fun e => e.2.part == p && capturable e.2)).map (·.1)
        ckAdvance p (putCk p { ck0 with phase := 1, evac := evac, verify := verify, serial := x.last + 1, last := x.last,
                                        ckk := k.1 % 2 ^ 256, plan := some pl, start := now s, wait := slots,
                                        rings := ringTables s p } k.2)

/-- A failure warning (R488). -/
def ckWarn (p : Nat) (s : State) : State :=
  let on := bits (rg s .CK_CFG p) 1 0
  if on = 0 then s
  else if (ckOf s p).phase ≠ 0 ∨ rg64 s .CK_PLAN_LO .CK_PLAN_HI p = 0 then
    evt Ev.CKPT_WARN_SKIPPED (unitReq 0xF1 p) p (ctr .CK_WARN_SKIP_CNT p s)
  else ckStartOp p (on = 2) (bit (rg s .CK_CFG p) 2) s

/-! ### Durability and commit (R496-R500) -/

/-- A shard is done; the group count moves on. -/
def shardDone (p g i : Nat) (y : CkShard) (s : State) : State :=
  let x := putShardCk g i { y with st := 2 } (ckOf s p)
  putCk p { x with progress := groupsDone x } s

/-- CK_SHARD_DURABLE (R496, R497). -/
def shardDurable (p g i : Nat) (s : State) : State :=
  let x := ckOf s p
  match shardOfCk x g i with
  | some y =>
    if x.phase ≠ 2 ∨ y.st ≠ 0 then s
    else
      let s := ctrAdd .CK_BYTES_WRITTEN 0 p y.bytes.length s
      if x.verify then putCk p (putShardCk g i { y with st := 1 } x) s else shardDone p g i y s
  | none => s

/-- CK_SHARD_FAIL (R496): one retry, then LOST. A manifest copy that fails ends the checkpoint with RESULT 7 (R499). -/
def shardFail (p : Nat) (w : Option (Nat × Nat)) (s : State) : State :=
  let x := ckOf s p
  match w with
  | none => if x.phase = 3 then ckEnd p 7 s else s
  | some (g, i) =>
    match shardOfCk x g i with
    | some y =>
      if x.phase ≠ 2 ∨ y.st ≠ 0 then s
      else if y.tries = 0 then
        writeShard p g i (ctr .CK_SHARD_RETRY_CNT p (putCk p (putShardCk g i { y with tries := 1 } x) s))
      else loseShard p g i y s
    | none => s

/-- CK_READBACK_DONE (R497). -/
def readBack (p g i digest : Nat) (s : State) : State :=
  let x := ckOf s p
  match shardOfCk x g i with
  | some y =>
    if x.phase ≠ 2 ∨ y.st ≠ 1 then s
    else
      let s := ctrAdd .CK_BYTES_READ 0 p y.bytes.length s
      if digest = beNat (sha384 y.bytes) then shardDone p g i y s
      else
        let s := ctr .CK_VERIFY_FAIL_CNT p s
        if y.vfails = 0 then writeShard p g i (putCk p (putShardCk g i { y with vfails := 1, st := 0 } (ckOf s p)) s)
        else loseShard p g i y s
  | none => s

/-- A captured session goes to EVACUATED and releases its pages (R500, R83). -/
def evacuate (serial n : Nat) (s : State) : State :=
  let x := slotOf s n
  let s := reportExtents n x (releaseAll n x s)
  { commitSlot n { x with st := .evacuated, dir := .none, blks := [], node := 0, chunks := 0, frozen := false } s with
      evacBy := nset s.evacBy n serial }

/-- CK_MANIFEST_DURABLE: the commit (R499, R500). -/
def ckCommit (p : Nat) (s : State) : State :=
  let x := ckOf s p
  if x.phase ≠ 3 then s
  else
    let f := ckForm x
    let out := x.sess.filter fun y => x.evac && !withdrawn s y && !notCaptured x f y
    let s := out.foldl (fun s y => evacuate x.serial (hSlot y.handle) s) s
    let s := evt Ev.CKPT_COMMITTED (unitReq 0x70 p) (x.sess.length + 2 ^ 32 * x.groups.length) (ctr .CK_COMMIT_CNT p s)
    putCk p { ckOf s p with last := x.serial } s |> ckEnd p 1

end Sys2Proof.Machine
end

