-- ==== Sys2Proof/Machine/Lay.lean ====
section
/-! DEFINITION. Lay images (R366-R373): the checks, what an application changes; partition drain and teardown (R377, R389). -/

namespace Sys2Proof.Machine

/-! ### The checks of R369 -/

def noDup : List Nat → Bool
  | [] => true
  | a :: r => !r.contains a && noDup r

/-- Ranges (first, count) that do not meet. -/
def apart (a b : Nat × Nat) : Bool := a.1 + a.2 ≤ b.1 || b.1 + b.2 ≤ a.1
def allApart : List (Nat × Nat) → Bool
  | [] => true
  | a :: r => r.all (apart a) && allApart r

/-- The partitions an image enables. -/
def layParts (l : Lay) : List (Nat × PartPlan) := l.parts.filter fun e => e.2.enable

/-- One owner at most for each resource, and free pages on their owner's channels (R369, cause 6). -/
def layOwners (l : Lay) : Bool :=
  let ps := (layParts l).map (·.2)
  noDup (ps.map (·.channels)).flatten && noDup (ps.map (·.groups)).flatten && noDup (ps.map (·.adze)).flatten &&
  noDup (ps.map (·.text)).flatten &&
  allApart ((ps.map fun x => x.rings.map fun r => (r.1, r.2 + 1 - r.1)).flatten) &&
  allApart (ps.map fun x => (x.clsBase, x.clsCount)) && allApart (ps.map fun x => (x.meterBase, x.meterCount)) &&
  allApart ((ps.map (·.freeRuns)).flatten) &&
  ps.all (fun x => x.freeRuns.all fun r => r.1 * 65536 < hbmEnd && x.channels.contains (chanOf (r.1 * 65536)) &&
    chanOf ((r.1 + r.2) * 65536 - 1) == chanOf (r.1 * 65536))

/-- Dies that hold Whittle engines of a partition (R233). -/
def textDies (pl : PartPlan) : Nat := (List.range 4).foldl (fun m d => if pl.text.any (fun e => e / 4 == d) then m + 2 ^ d else m) 0

/-- Access permissions of Hitch's two instances agree (R102). -/
def hitchPair (l : Lay) (t : Nat) : Bool := ngetD l.ax (256 * t + 0xA0) 0 == ngetD l.ax (256 * t + 0xA1) 0

/-- The rules other chapters place on the image (R369, cause 7): R72, R102, R233, R334, R531. -/
def layRules (l : Lay) : Bool :=
  let ps := (layParts l).map (·.2)
  allApart (ps.map fun x => (x.slotBase, x.slotCount)) && (ps.map (·.slotCount)).foldl (· + ·) 0 ≤ 16777216 &&
  ps.all (fun x => x.slotBase + x.slotCount ≤ 16777216 && x.clsCount ≤ 16 && x.clsBase + x.clsCount ≤ 64) &&
  l.voc.all (fun v => match nget l.parts v.2.part with
    | some pl => pl.enable && v.2.dies != 0 && (v.2.dies &&& textDies pl) == v.2.dies
    | none => false) &&
  (List.range 389).all (hitchPair l) &&
  [352, 369].all (fun t => (List.range 256).all fun m => (ngetD l.ax (256 * t + m) 0).toNat % 0x10000 == 0)

/-- Owner of a channel or bank target under an image; none is free. -/
def layOwner (l : Lay) (t : Nat) : Option Nat :=
  if t < 256 then ((layParts l).find? fun e => e.2.channels.contains t).map (·.1) else if t < 320 then nget l.bankOf (t - 256) else none

/-- Nothing changes but partition p's entries and what passes between p and free (R372, cause 8). -/
def layOnly (p : Nat) (a b : Lay) : Bool :=
  let mineOrFree (o : Option Nat) : Bool := o == none || o == some p
  a.quads == b.quads && a.perstReset == b.perstReset && a.fns == b.fns && a.grpDom == b.grpDom && a.farMode == b.farMode &&
  a.bifur == b.bifur && a.conduct == b.conduct && a.reserve == b.reserve &&
  ndel a.parts p == ndel b.parts p &&
  a.voc.filter (fun v => v.2.part != p) == b.voc.filter (fun v => v.2.part != p) &&
  a.bankOf.filter (fun x => x.2 != p) == b.bankOf.filter (fun x => x.2 != p) &&
  a.ways.filter (fun x => x.2 != p) == b.ways.filter (fun x => x.2 != p) &&
  (a.ax ++ b.ax).all (fun e =>
    let t := e.1 / 256
    (t < 320 && mineOrFree (layOwner a t) && mineOrFree (layOwner b t)) ||
    (ngetD a.ax e.1 0).toNat % 0x10000 &&& (0xFFFF - 2 ^ p) == (ngetD b.ax e.1 0).toNat % 0x10000 &&& (0xFFFF - 2 ^ p))

/-! ### What R389 calls empty -/

def slotsLoaded (s : State) (p : Nat) : Bool :=
  (s.wh.voc.any fun v => v.2.st != .empty && (nget s.lay.img.voc v.1).any (·.part == p)) ||
  (s.bt.gram.any fun g => g.1 / 16 == p && g.2.st != .empty) ||
  (s.ad.progs.any fun k => k.1 / 256 == p && k.2.st != .empty) ||
  (s.sk.idx.any fun k => k.1 / 64 == p && k.2.st != .empty)

/-- EMPTY of HW_PART_STAT (R389); after a teardown's clean-up it reads 1 (R377). -/
def partEmpty (s : State) (p : Nat) : Bool :=
  ((partRt s p).faulted && (partRt s p).drained) ||
  (liveSlots s p == 0 && !slotsLoaded s p && (treeNodes s p).isEmpty &&
   !(s.spn.any fun c => c.2.st != 0 && spnPart s c.1 == p) && !(s.cp.items.any fun i => i.part == p) &&
   !(s.la.spills.any fun x => x.part == p) && !(s.ht.moves.any fun m => (slotOf s m.slot).part == p) &&
   !(s.sp.jobs.any fun j => j.part == p))

/-- The first failing check, as its cause; 0 where the image passes. `part`: a per-partition application. -/
def layCause (s : State) (part : Option Nat) (x : LayImg) : Nat :=
  let key := (nget s.hw.store x.keySlot).any fun k => bit k.perms 0
  if !x.readable then 10
  else if !x.wellFormed then 6
  else if !(s.hw.storeOk && x.keySlot < 4 && key) then 2
  else if !x.sig then 1
  else if !x.uidOk then 3
  else if x.serial < s.lay.floor ∨ (part.isSome ∧ x.serial ≤ s.lay.img.serial) then 4
  else if !Config.conductSet.contains x.conduct then 5
  else if !layOwners x.lay then 6
  else if !(layRules x.lay && x.rules) then 7
  else match part with
    | none => 0
    | some p =>
      if !layOnly p s.lay.img x.lay then 8
      else if !(bit (rg s .HW_PART_CTL p) 0 && partEmpty s p) then 9
      else 0

/-- A refusal: logged with its cause, which CAUSE shows. -/
def layRefuse (cause p : Nat) (s : State) : State :=
  evt Ev.LAY_REFUSED (unitReq 0xF0 p) cause (ctr .HW_LAY_REFUSE_CNT 16 { s with lay.cause := cause })

/-! ### Applying -/

/-- Regenerates partition p's HBM, tier and share-group keys; its released keys and sealed contexts are destroyed and no
owner is bound (R371 step 3, R474, R475). -/
def freshKeys (p : Nat) (s : State) : State :=
  let a := fresh s
  let b := fresh a.2
  let s := { b.2 with hw.keys := nset b.2.hw.keys p a.1, sp.tierKey := nset b.2.sp.tierKey p (b.1 % 2 ^ 256) }
  let s := (List.range 64).foldl (fun s g =>
    let k := fresh s
    { k.2 with pfx.keys := nset k.2.pfx.keys (64 * p + g) (k.1 % 2 ^ 256) }) s
  { s with wkeys := s.wkeys.filter fun e => e.1 / 2 ^ 32 != p, hp.seals := s.hp.seals.filter fun e => e.2.part != p
           hw.keep := s.hw.keep.filter fun k => k / 2 ^ 32 != p, hw.owner := ndel s.hw.owner p }

/-- Zeroes a range of the device window. -/
def zeroRange (a n : Nat) (s : State) : State :=
  { s with mem := s.mem.filter fun c => c.1 < a || a + n ≤ c.1, lay.poison := (s.lay.poison.map (cutRun (a / 64) ((a + n) / 64))).flatten }

/-- Zeroes a channel or bank target. -/
def zeroTarget (t : Nat) (s : State) : State :=
  if t < 256 then zeroRange (chanBase t) 0x60000000 s else zeroRange (billetBase + (t - 256) * 0x400000) 0x400000 s

/-- Free runs of a plan on one stack. -/
def runsOn (pl : PartPlan) (st : Nat) : List (Nat × Nat) := pl.freeRuns.filter fun r => stackOf (r.1 * 65536) == st

/-- Hitch's, Capstan's and the tree's tables of a partition begin afresh (R371 step 4). -/
def initPart (p : Nat) (pl : PartPlan) (s : State) : State :=
  { s with
    ht.slots := s.ht.slots.filter fun e => e.2.part != p
    ht.slotNext := ndel s.ht.slotNext p
    ht.freeQ := ndel s.ht.freeQ p
    ht.pages := s.ht.pages.filter fun e => e.2.part != p || e.2.st == .free || e.2.st == .retired
    ht.runs := (List.range 8).foldl (fun m st => nset m (runKey1 p st) (runsOn pl st)) s.ht.runs
    ht.hot := ndel s.ht.hot p
    ht.warm := ndel s.ht.warm p
    pfx.nodes := s.pfx.nodes.filter fun e => e.1 / 2 ^ 24 != p
    pfx.gens := s.pfx.gens.filter fun e => e.1 / 2 ^ 24 != p
    pfx.freeQ := ndel s.pfx.freeQ p
    pfx.fresh := ndel s.pfx.fresh p
    sp.swap := ndel s.sp.swap p
    sp.heldNotes := ndel s.sp.heldNotes p
    cp.gcl := ndel s.cp.gcl p }

/-- Targets whose entries differ between two images. -/
def axChanged (a b : Lay) : List Nat :=
  ((a.ax ++ b.ax).filterMap fun e => if ngetD a.ax e.1 0 == ngetD b.ax e.1 0 then none else some (e.1 / 256)).eraseDups

/-- The image's entries take effect at a target: a COMMIT of its own (R371 step 5). -/
def axRelay (t : Nat) (s : State) : State :=
  axRestageOp t { s with ax.epoch := nset s.ax.epoch t (axEpochOf s t + 1)
                         ax.active := s.ax.active.filter fun e => e.1 / 256 != t }

/-- A per-partition application (R371). -/
def layApplyOp (p : Nat) (x : LayImg) (s : State) : State :=
  if s.lay.busy then evt Ev.LAY_BUSY (unitReq 0xF0 p) p s
  else
    let c := if s.lay.laid && !s.pm.recovery then layCause s (some p) x else 9
    if c ≠ 0 then layRefuse c p s
    else
      let old := s.lay.img
      let moved := (List.range 320).filter fun t => layOwner old t != layOwner x.lay t
      let s := freshKeys p s
      let s := moved.foldl (fun s t => zeroTarget t s) s
      let s := match nget x.lay.parts p with
        | some pl => initPart p pl s
        | none => s
      let ts := axChanged old x.lay
      let s := { s with lay.img := { x.lay with serial := x.serial }, lay.part := nset s.lay.part p ⟨false, false, false⟩
                        lay.floor := if x.raise then max s.lay.floor x.serial else s.lay.floor }
      let s := ts.foldl (fun s t => axRelay t s) s
      let s := plogStart p x.lay.digest ((nget x.lay.parts p).any (·.conf)) s
      evt Ev.LAY_APPLIED (unitReq 0xF0 p) x.serial (ctr .HW_LAY_APPLY_CNT 16 s)

/-- APPLY written: while Heartwood restarts, the application waits, and reads BUSY (R467). -/
def layApplyWrite (p : Nat) (x : LayImg) (s : State) : State :=
  let s := rp .HW_LAY_CTL 0 0 0 p s
  if s.hw.restarting.isSome ∧ !s.lay.busy then { s with lay.busy := true, hw.held := s.hw.held ++ [.lay p x] } else layApplyOp p x s

/-! ### Teardown (R377) -/

/-- Queued and in-flight work of a partition completes FAULT_CONTEXT. -/
def failWork (p : Nat) (s : State) : State :=
  let s := (s.sp.jobs.filter fun j => j.part == p).foldl (fun s j => endJob j stFaultContext 0 s) s
  let s := (s.la.reqs.filter fun r => r.part == p).foldl (fun s r => endAreq r stFaultContext 0 s) s
  let s := (s.ad.runs.filter fun r => r.part == p).foldl (fun s r => endRun r stFaultContext 0 s) s
  let s := (s.sk.runs.filter fun r => r.part == p).foldl (fun s r =>
    finish r.ring r.desc stFaultContext 0 (engDone 0xC r.eng
      { s with sk.runs := s.sk.runs.filter fun x => !(x.part == r.part && x.serial == r.serial) })) s
  let s := (s.bt.gens.filter fun g => g.2.part == p).foldl (fun s g =>
    genRecord g.1 (dropStrm g.1 (endGen g.1 stFaultContext 0 (endSample g.1 stFaultContext 0 s)))) s
  (s.spn.filter fun c => c.2.st != 0 && spnPart s c.1 == p).foldl (fun s c => spnDown c.1 7 c.2.rank stFaultContext [] s) s

/-- What is left of a partition's fetched descriptors completes FAULT_CONTEXT. -/
def failItems (p : Nat) (s : State) : State :=
  let s := { s with ht.waiting := s.ht.waiting.filter fun c => ringPart s c.1 != some p }
  (s.cp.items.filter fun i => i.part == p).foldl (fun s i =>
    if queuedItem i then dropQueued i stFaultContext 0 s else finish i.ring i.desc stFaultContext 0 s) s

/-- Every slot of every kind goes EMPTY. -/
def emptySlots (p : Nat) (s : State) : State :=
  let s := (s.wh.voc.filter fun v => v.2.owner == p && v.2.st != .empty).foldl (fun s v => putVoc v.1 img0 (dropCopies v.2 s)) s
  let s := (s.bt.gram.filter fun g => g.1 / 16 == p && g.2.st != .empty).foldl (fun s g => putGram p (g.1 % 16) img0 (dropCopies g.2 s)) s
  let s := (s.ad.progs.filter fun k => k.1 / 256 == p && k.2.st != .empty).foldl (fun s k => putProg p (k.1 % 256) prog0 (dropProg k.2 s)) s
  (s.sk.idx.filter fun k => k.1 / 64 == p && k.2.st != .empty).foldl (fun s k => putIdx p (k.1 % 64) idx0 s) s

/-- The teardown of a partition. -/
def tearDown (p : Nat) (s : State) : State :=
  if (partPlan s p).isNone then s
  else
    let s := failWork p (ckEnd p 8 s)
    let s := ((s.ht.slots.filter fun e => e.2.part == p).map (·.1)).foldl (fun s n => faultSlot n 4 true s) s
    let s := doom p (fun _ => true) (emptySlots p (failItems p s))
    let s := { s with la.spills := s.la.spills.filter fun x => x.part != p
                      lay.part := nset s.lay.part p ⟨true, false, true⟩ }
    let s := evt Ev.PARTITION_TORN_DOWN (unitReq 0xF0 p) p (ctr .HW_PART_TEARDOWN_CNT 16 s)
    notice p 7 0 0 0 0 s

/-! ### The commands -/


end Sys2Proof.Machine
end

