-- ==== Sys2Proof/Machine/Heartwood.lean ====
section
/-! DEFINITION. Heartwood (chapter 16): measurements, key releases, signed commands, restarts, the SPDM responder. -/

namespace Sys2Proof.Machine

def hwReq : Req := ⟨0xF0, 0, 0, true⟩

/-! ### Measurements (R469) -/

/-- Index 9: slot, permissions and key digest of each key present. -/
def storeBytes (st : NMap OpKey) : List Byte :=
  (st.map fun e => leBytes 1 e.1 ++ leBytes 1 e.2.perms ++ sha384 (beBytes 96 e.2.key)).flatten

/-- Raw value of an index that is measured raw (the layout is the model's: R469 names the contents only). -/
def measRaw (s : State) (i : Nat) : Option (List Byte) :=
  match i with
  | 3 => some (leBytes 2 s.hw.fw.svn ++ leBytes 2 Config.svnFloor)
  | 7 => some (leBytes 1 Config.stepping ++ leBytes 1 Config.conductSet.length ++ (Config.conductSet.map (leBytes 1)).flatten ++
      (s.lay.retired.map fun r => leBytes 2 r.1 ++ leBytes 2 r.2).flatten)
  | 8 => some (leBytes 1 s.lay.img.conduct ++ leBytes 8 s.lay.img.serial ++ leBytes 8 s.lay.floor ++ beBytes 48 s.lay.img.digest)
  | 10 => some (if s.ax.injOn then leBytes 1 1 ++ beBytes 48 s.hw.injDigest ++ leBytes 4 ((s.ax.injLclk - s.uptime) / 1000000000) else leBytes 1 0)
  | 11 => some [0x6E, 0x6F, 0x6E, 0x65]
  | _ => none

/-- The SHA-384 that HW_MEAS shows for an index; zeros for an index that does not exist. -/
def measDigest (s : State) (i : Nat) : List Byte :=
  match measRaw s i with
  | some r => sha384 r
  | none =>
    match i with
    | 1 => beBytes 48 Config.romDigest
    | 2 => beBytes 48 s.hw.fw.digest
    | 4 => beBytes 48 s.hw.ly.digest
    | 5 => beBytes 48 s.hw.spine.digest
    | 6 => beBytes 48 s.hw.serdes.digest
    | 9 => sha384 (storeBytes s.hw.store)
    | _ => if 16 ≤ i ∧ i < 32 then (ngetD s.plog (i - 16) plog0).l else leBytes 48 0

/-- A measurement block: index, form (0 digest, 1 raw), value. -/
def measBlock (s : State) (i : Nat) : List Byte :=
  match measRaw s i with
  | some r => leBytes 1 i ++ leBytes 1 1 ++ leBytes 2 r.length ++ r
  | none => leBytes 1 i ++ leBytes 1 0 ++ leBytes 2 48 ++ measDigest s i

/-- The indices that exist (R469). -/
def measIndices : List Nat := (List.range 11).map (· + 1) ++ (List.range 16).map (· + 16)

/-! ### Keys (R472-R475) -/

/-- Destroys a weight key; program slots loaded under it go to DRAINING (R474). -/
def dropWeightKey (p id : Nat) (s : State) : State :=
  let k := p * 2 ^ 32 + id
  let s := { s with wkeys := ndel s.wkeys k, hw.keep := s.hw.keep.filter (· != k) }
  (s.ad.progs.filter fun x => x.1 / 256 == p && cKey x.2.cont == id && x.2.st == .ready).foldl (fun s x =>
    progDrained p (x.1 % 256) (putProg p (x.1 % 256) { x.2 with st := .draining } s)) s

def dropContext (c : Nat) (s : State) : State :=
  { s with hp.seals := ndel s.hp.seals c, hw.keepCtx := s.hw.keepCtx.filter (· != c) }

/-- Owner key hash of a partition: the lay image's, else the one bound (R474). -/
def ownerHash (s : State) (p : Nat) : Option Nat :=
  match (partPlan s p).bind (·.ownerPreset) with
  | some h => some h
  | none => nget s.hw.owner p

def leafHash (k : Nat) : Nat := beNat (sha384 (beBytes 96 k))

/-- Weight keys a partition holds. -/
def weightKeys (s : State) (p : Nat) : Nat := (s.wkeys.filter fun e => e.1 / 2 ^ 32 == p).length

/-! Fields of a key request (R472). -/
def krPart (r : List Byte) : Nat := bAt r 2 1
def krKind (r : List Byte) : Nat := bAt r 3 1
def krId (r : List Byte) : Nat := bAt r 4 4
def krKeep (r : List Byte) : Bool := bit (bAt r 8 1) 0
def krExpect (r : List Byte) : List Byte := (r.drop 16).take 48

/-- A well-formed request of an operation: reserved bytes 0, KIND and its ID in range. -/
def krOk (op : Nat) (r : List Byte) : Bool :=
  bAt r 0 2 == op && bAt r 8 1 < 2 && bAt r 9 7 == 0 && r.length == (if op = 1 then 104 else 64) &&
  (op == 3 || (krKind r == 1 && krId r != 0) || (krKind r == 2 && krId r < 4096))

/-- The result code of a KEY_RELEASE (R473). -/
def releaseCode (s : State) (leaf : Nat) (r : List Byte) (key : Option Nat) : Nat :=
  let p := krPart r
  if (partPlan s p).isNone then 1
  else if (ownerHash s p).any (· != leafHash leaf) then 2
  else if krExpect r ≠ (ngetD s.plog p plog0).l then 3
  else if key.isNone then 4
  else if krKind r = 1 then
    (if weightKeys s p < 64 ∨ (nget s.wkeys (p * 2 ^ 32 + krId r)).isSome then 0 else 5)
  else if (nget s.hp.seals (krId r)).isNone then 0 else 5

/-- Answers an SPDM request: transport and response code, then data. -/
def spdmSend (via code : Nat) (data : List Byte) (s : State) : State := send Mk.spdm [via, code] data s
def spdmError (via why : Nat) (s : State) : State := spdmSend via 0x7F (leBytes 1 why) s

def sessOf (s : State) (sid : Nat) : Option HwSess := s.hw.sess.find? fun x => x.id == sid && x.live

/-- KEY_RELEASE (R473, R474). -/
def releaseOp (sid : Nat) (r : List Byte) (key : Option Nat) (s : State) : State :=
  match sessOf s sid with
  | none => s
  | some x =>
    match x.leaf with
    | none => spdmError x.via 0x01 s
    | some leaf =>
      if !krOk 1 r then spdmError x.via 0x01 s
      else
        let p := krPart r
        let code := releaseCode s leaf r key
        if code ≠ 0 then spdmSend x.via 0x7E (leBytes 1 code) (ctrAdd .HW_RELEASE_REFUSE_CNT code p 1 s)
        else
          let s := if (ownerHash s p).isNone then
              evt Ev.OWNER_BOUND hwReq p (plogExtend p (plogRec 4 0 0 (beBytes 48 (leafHash leaf)) 0)
                { s with hw.owner := nset s.hw.owner p (leafHash leaf) })
            else s
          let k := key.getD 0
          let wk := p * 2 ^ 32 + krId r
          let s := if krKind r = 1 then
              { s with wkeys := nset s.wkeys wk k, hw.keep := s.hw.keep.filter (· != wk) ++ if krKeep r then [wk] else [] }
            else
              { s with hp.seals := nset s.hp.seals (krId r) ⟨p, k, 0, 0, []⟩
                       hw.keepCtx := s.hw.keepCtx.filter (· != krId r) ++ if krKeep r then [krId r] else [] }
          let s := evt Ev.KEY_RELEASED hwReq (krId r) (plogExtend p (plogRec 5 0 (krId r) [] 0) s)
          spdmSend x.via 0x7E (leBytes 1 0) (ctr .HW_RELEASE_CNT p s)

/-- KEY_REVOKE: only the owner (R474). -/
def revokeOp (sid : Nat) (r : List Byte) (s : State) : State :=
  match sessOf s sid with
  | none => s
  | some x =>
    match x.leaf with
    | none => spdmError x.via 0x01 s
    | some leaf =>
      if !krOk 2 r then spdmError x.via 0x01 s
      else
        let p := krPart r
        let no (c : Nat) : State := spdmSend x.via 0x7E (leBytes 1 c) s
        if (partPlan s p).isNone then no 1
        else if ownerHash s p ≠ some (leafHash leaf) then no 2
        else
          let s := if krKind r = 1 then dropWeightKey p (krId r) s
            else if (nget s.hp.seals (krId r)).any (·.part == p) then dropContext (krId r) s else s
          let s := evt Ev.KEY_REVOKED hwReq (krId r) (plogExtend p (plogRec 6 0 (krId r) [] 0) s)
          spdmSend x.via 0x7E (leBytes 1 0) (ctr .HW_REVOKE_CNT p s)

/-- GET_PART_LOG: the records held, with OVERFLOW (R470). -/
def partLogOp (sid : Nat) (r : List Byte) (s : State) : State :=
  match sessOf s sid with
  | none => s
  | some x =>
    if !krOk 3 r ∨ (partPlan s (krPart r)).isNone then spdmError x.via 0x01 s
    else
      let l := ngetD s.plog (krPart r) plog0
      spdmSend x.via 0x7E (leBytes 1 (b2n l.excess) ++ leBytes 2 l.recs.length ++ l.recs.flatten) s

/-! ### Signed commands (R479-R482) -/

/-- A new nonce at every completion. -/
def freshNonce (s : State) : State :=
  let k := fresh s
  { k.2 with hw.nonce := k.1 % 2 ^ 256 }

/-- Form of a command (RESULT 1): MAGIC, OP, reserved and unused bytes, and the body's fields (R479, R481). -/
def cmdForm (op : Nat) (c : List Byte) : Bool :=
  let slotOk := bAt c 56 1 < 8
  let perms := bAt c 57 1
  c.length == 280 && bAt c 0 4 == 0x48574331 && bAt c 4 1 == op && bAt c 6 2 == 0 && (bAt c 5 1 < 8 || (bAt c 5 1 == 0xFF && op == 1)) &&
  (match op with
   | 1 => slotOk && perms < 16 && (bAt c 56 1 < 4 || !bit perms 0) && (4 ≤ bAt c 56 1 || !bit perms 3) && bAt c 58 2 == 0 && bAt c 156 28 == 0
   | 2 => slotOk && bAt c 57 127 == 0
   | 3 => bAt c 66 118 == 0
   | 4 => bAt c 56 128 == 0
   | _ => false)

/-- The store as an accepted command leaves it. -/
def storeAfter (st : NMap OpKey) (op : Nat) (c : List Byte) : NMap OpKey :=
  match op with
  | 1 => nset st (bAt c 56 1) ⟨bAt c 57 1, beNat ((c.drop 60).take 96)⟩
  | 2 => ndel st (bAt c 56 1)
  | _ => st

/-- R480: a fresh store takes one unsigned ENROL, from PF0, of slot 0 with LAY and ENROL. -/
def freshEnrol (s : State) (pf0 : Bool) (c : List Byte) : Bool :=
  s.hw.fuses == 0 && pf0 && bAt c 56 1 == 0 && bit (bAt c 57 1) 0 && bit (bAt c 57 1) 1

/-- RESULT of a command: the first check that fails (R482). -/
def cmdResult (s : State) (op : Nat) (pf0 : Bool) (c : List Byte) (sig : Bool) : Nat :=
  let unsigned := bAt c 5 1 = 0xFF
  let perm := if op ≤ 2 then 1 else 2
  let st := storeAfter s.hw.store op c
  let holds (b : Nat) : Bool := st.any fun e => bit e.2.perms b
  if !cmdForm op c then 1
  else if bAt c 8 16 = 0 ∨ bAt c 8 16 ≠ Config.uid.toNat then 2
  else if bAt c 24 32 ≠ s.hw.nonce then 3
  else if unsigned ∧ !freshEnrol s pf0 c then 4
  else if !unsigned ∧ !(nget s.hw.store (bAt c 5 1)).any (fun k => bit k.perms perm) then 4
  else if !unsigned ∧ !sig then 5
  else if op ≤ 2 ∧ !(holds 1 && holds 0) then 6
  else if op ≤ 2 ∧ 127 ≤ s.hw.fuses then 7
  else if op = 3 ∧ !(now s < bAt c 56 10 && bAt c 56 10 ≤ now s + 86400000000000) then 9
  else 0

/-- Writes the store to both flash chips, at the fuse counter's new value (R479). -/
def putStore (st : NMap OpKey) (s : State) : State :=
  let v := s.hw.fuses + 1
  { s with hw.store := st, hw.fuses := v, hw.storeOk := true
           pm.chipA := { s.pm.chipA with store := some (v, st) }
           pm.chipB := { s.pm.chipB with store := some (v, st) } }

/-- A command's effect once every check has passed. -/
def cmdEffect (op : Nat) (c : List Byte) (s : State) : State :=
  match op with
  | 3 => { s with ax.injOn := true, ax.injExp := bAt c 56 10, ax.injLclk := s.uptime + 86400000000000
                  hw.injDigest := beNat (sha384 c) }
  | 4 => injOff s
  | _ => putStore (storeAfter s.hw.store op c) s

/-- Checks and performs a signed command (R482); the nonce is regenerated whatever the result. -/
def commandOp (op : Nat) (pf0 : Bool) (c : List Byte) (sig : Bool) (s : State) : State :=
  let r := cmdResult s op pf0 c sig
  let s := if r = 0 then cmdEffect op c (ctrAdd .HW_CMD_CNT op 16 1 s) else ctrAdd .HW_CMD_REFUSE_CNT r 16 1 s
  freshNonce { s with hw.cmdRes := r }

/-- A command that meets a restart of Heartwood waits (R467). -/
def commandArrives (op : Nat) (pf0 : Bool) (c : List Byte) (sig : Bool) (s : State) : State :=
  if s.hw.restarting.isSome then { s with hw.held := s.hw.held ++ [.command op pf0 c sig] } else commandOp op pf0 c sig s

/-- BUSY of HW_CMD_STAT: a command waits for a restart. -/
def cmdBusy (s : State) : Bool := s.hw.held.any fun h => match h with | .command .. => true | .lay .. => false

/-- A write from physical function 0 of the host port (R480). -/
def fromPf0 (q : Req) : Bool := q.mst == 0x90 && q.fn == 0

/-- GO: the 280 bytes at HW_CMD_ADDR in host memory; none can be read while the host link is down. Nothing starts while a
command is BUSY. -/
def goOp (op : Nat) (pf0 sig : Bool) (s : State) : State :=
  let a := rg64 s .HW_CMD_ADDR_LO .HW_CMD_ADDR_HI 0
  if cmdBusy s then s
  else commandArrives op pf0 (if s.hp.up then memRead s.hmem (a % 2 ^ 63) 280 else []) sig s

/-! ### Restarts (R467) -/

def chipOf (s : State) (slot : Nat) : FlashChip := if slot = 0 then s.pm.chipA else s.pm.chipB

/-- Step 3 of R465 on an image: Efdanu's signature, and the SVN against the fused floor. -/
def fwOk (f : FwImg) : Bool := f.sig && Config.svnFloor ≤ f.svn

/-- ACTIVATE: keys released without KEEP_ON_UPDATE are destroyed, and sessions end. -/
def activateOp (slot : Nat) (s : State) : State :=
  if s.hw.restarting.isSome then s
  else
    let gone := s.wkeys.filter fun e => !s.hw.keep.contains e.1
    let s := gone.foldl (fun s e => dropWeightKey (e.1 / 2 ^ 32) (e.1 % 2 ^ 32) s) s
    let s := { s with hp.seals := s.hp.seals.filter fun e => s.hw.keepCtx.contains e.1 }
    ctr .HW_RESTART_CNT 16 { s with hw.restarting := some slot, hw.ready := false, hw.sess := [], hw.stage := [], hw.chunk := [],
                                    hw.chunkOut := [] }

/-- A request that waited proceeds. -/
def proceed (h : HwHeld) (s : State) : State :=
  match h with
  | .lay p x => layApplyOp p x { s with lay.busy := false }
  | .command op pf0 c sig => commandOp op pf0 c sig s

/-- The restart ends: in the new firmware, or in the one that ran before where the new one fails step 3. -/
def restartDone (s : State) : State :=
  match s.hw.restarting with
  | none => s
  | some slot =>
    let f := (chipOf s slot).hw
    let s := if fwOk f then { s with hw.fw := f, hw.fwSlot := slot } else evt Ev.HW_UPDATE_FAILED hwReq slot s
    let held := s.hw.held
    held.foldl (fun s h => proceed h s) { s with hw.restarting := none, hw.ready := true, hw.held := [] }

/-! ### The SPDM responder (R471) -/

def viaCode : Via → Nat
  | .doe => 0 | .mctp => 1 | .mgmt => 2

/-- Whether a transport carries anything at present: the host link; the Lanyard cores, and the port unless M2 holds it off. -/
def viaOpen (s : State) (v : Via) : Bool :=
  match v with
  | .doe => s.hp.up
  | .mctp => 3 ≤ s.pm.step && !s.pm.lyDead
  | .mgmt => 3 ≤ s.pm.step && !s.pm.lyDead && s.pm.mgmt != 2

/-- A request is answered while Heartwood's firmware runs. -/
def spdmIn (v : Via) (f : State → State) (s : State) : State := if viaOpen s v && s.hw.ready then f s else s

/-- A request that needs a stage of the negotiation. -/
def spdmStage (v : Via) (n : Nat) (f : State → State) (s : State) : State :=
  spdmIn v (fun s => if n ≤ ngetD s.hw.stage (viaCode v) 0 then f s else spdmError (viaCode v) 0x04 s) s

def setStage (v : Via) (n : Nat) (s : State) : State := { s with hw.stage := nset s.hw.stage (viaCode v) n }

/-- A response of which the requester's buffer takes `buf` bytes; the rest waits for CHUNK_GET. -/
def spdmLarge (v : Via) (code buf : Nat) (data : List Byte) (s : State) : State :=
  spdmSend (viaCode v) code (data.take buf) { s with hw.chunkOut := nset s.hw.chunkOut (viaCode v) (data.drop buf) }

/-- A request inside a session that is open on its transport. -/
def spdmInSession (v : Via) (sid : Nat) (f : State → State) (s : State) : State :=
  spdmIn v (fun s => if (sessOf s sid).any (·.via == viaCode v) then f s else spdmError (viaCode v) 0x04 s) s

def dropSess (sid : Nat) (s : State) : State := { s with hw.sess := s.hw.sess.filter fun x => x.id != sid }

/-- Whether a leaf key is a management credential: slots 4-7 with MGMT (R483). -/
def mgmtKey (s : State) (k : Nat) : Bool := s.hw.store.any fun e => 4 ≤ e.1 && bit e.2.perms 3 && e.2.key == k

def keyExchangeOp (v : Via) (s : State) : State :=
  if 8 ≤ s.hw.sess.length then spdmError (viaCode v) 0x03 s
  else
    let sid := s.hw.sessNext + 1
    spdmSend (viaCode v) 0x64 (leBytes 4 sid)
      { s with hw.sess := s.hw.sess ++ [⟨sid, false, none, false, viaCode v⟩], hw.sessNext := sid }

def finishOp (v : Via) (sid : Nat) (ok : Bool) (leaf : Option Nat) (s : State) : State :=
  match s.hw.sess.find? fun x => x.id == sid && !x.live && x.via == viaCode v with
  | none => spdmError (viaCode v) 0x04 s
  | some x =>
    if !ok then spdmError (viaCode v) 0x06 (dropSess sid s)
    else
      let y := { x with live := true, leaf := leaf, mgmt := leaf.any (mgmtKey s) }
      spdmSend (viaCode v) 0x65 [] (ctr .HW_SPDM_SESSION_CNT 16 { s with hw.sess := s.hw.sess.map fun z => if z.id == sid then y else z })

/-! ### The commands -/

def execHwActivate (q : Req) (slot : Bool) (s : State) : Result := .next (regGuard q ⟨.HW_FW_CTL, 0, 0, 0⟩ (activateOp (b2n slot)) s)
def execHwCmdEnrol (q : Req) (sig : Bool) (s : State) : Result :=
  .next (regGuard q ⟨.HW_CMD_CTL, 0, 0, 0⟩ (goOp 1 (fromPf0 q) sig) s)
def execHwCmdFreshEnrol (q : Req) (s : State) : Result :=
  .next (regGuard q ⟨.HW_CMD_CTL, 0, 0, 0⟩ (goOp 1 (fromPf0 q) false) s)
def execHwCmdRemove (q : Req) (sig : Bool) (s : State) : Result :=
  .next (regGuard q ⟨.HW_CMD_CTL, 0, 0, 0⟩ (goOp 2 (fromPf0 q) sig) s)
def execInjAuthorise (q : Req) (sig : Bool) (s : State) : Result :=
  .next (regGuard q ⟨.HW_CMD_CTL, 0, 0, 0⟩ (goOp 3 (fromPf0 q) sig) s)
def execInjRevoke (q : Req) (sig : Bool) (s : State) : Result :=
  .next (regGuard q ⟨.HW_CMD_CTL, 0, 0, 0⟩ (goOp 4 (fromPf0 q) sig) s)
def execGetVersion (v : Via) (s : State) : Result :=
  .next (spdmIn v (fun s => spdmSend (viaCode v) 0x04 [0x12, 0x13] (setStage v 1 s)) s)
def execGetCapabilities (v : Via) (s : State) : Result :=
  .next (spdmStage v 1 (fun s => spdmSend (viaCode v) 0x61 [] (setStage v 2 s)) s)
def execNegotiateAlgorithms (v : Via) (offered : Bool) (s : State) : Result :=
  .next (spdmStage v 2 (fun s => if offered then spdmSend (viaCode v) 0x63 [] (setStage v 3 s) else spdmError (viaCode v) 0x01 s) s)
def execGetDigests (v : Via) (s : State) : Result :=
  .next (spdmStage v 3 (fun s => spdmSend (viaCode v) 0x01 (sha384 (Config.certChain s.hw.fw.digest)) s) s)
def execGetCertificate (v : Via) (slot : BitVec 4) (off len : W16) (buf : Nat) (s : State) : Result :=
  .next (spdmStage v 3 (fun s =>
    if slot ≠ 0 then spdmError (viaCode v) 0x01 s
    else spdmLarge v 0x02 buf (((Config.certChain s.hw.fw.digest).drop off.toNat).take len.toNat) s) s)
def execChallenge (v : Via) (slot : BitVec 4) (nonce : BitVec 256) (s : State) : Result :=
  .next (spdmStage v 3 (fun s =>
    if slot ≠ 0 then spdmError (viaCode v) 0x01 s
    else spdmSend (viaCode v) 0x03 (Config.aliasSign s.hw.fw.digest (leBytes 32 nonce.toNat)) s) s)
def execGetMeasurements (v : Via) (idx : Option (BitVec 8)) (nonce : BitVec 256) (buf : Nat) (s : State) : Result :=
  .next (spdmStage v 3 (fun s =>
    match idx with
    | some i =>
      if measIndices.contains i.toNat then
        let m := measBlock s i.toNat
        spdmLarge v 0x60 buf (m ++ Config.aliasSign s.hw.fw.digest (m ++ leBytes 32 nonce.toNat)) s
      else spdmError (viaCode v) 0x01 s
    | none =>
      let m := (measIndices.map (measBlock s)).flatten
      spdmLarge v 0x60 buf (m ++ Config.aliasSign s.hw.fw.digest (m ++ leBytes 32 nonce.toNat)) s) s)
def execKeyExchange (v : Via) (s : State) : Result := .next (spdmStage v 3 (keyExchangeOp v) s)
def execFinish (v : Via) (sid : W32) (ok : Bool) (leaf : Option (BitVec 768)) (s : State) : Result :=
  .next (spdmStage v 3 (finishOp v sid.toNat ok (leaf.map (·.toNat))) s)
def execHeartbeat (v : Via) (sid : W32) (s : State) : Result :=
  .next (spdmInSession v sid.toNat (spdmSend (viaCode v) 0x68 (leBytes 4 sid.toNat)) s)
def execKeyUpdate (v : Via) (sid : W32) (s : State) : Result :=
  .next (spdmInSession v sid.toNat (spdmSend (viaCode v) 0x69 (leBytes 4 sid.toNat)) s)
def execEndSession (v : Via) (sid : W32) (s : State) : Result :=
  .next (spdmInSession v sid.toNat (fun s => spdmSend (viaCode v) 0x6C (leBytes 4 sid.toNat) (dropSess sid.toNat s)) s)
def execChunkSend (v : Via) (data : List Byte) (last : Bool) (s : State) : Result :=
  .next (spdmStage v 3 (fun s =>
    let have' := ngetD s.hw.chunk (viaCode v) [] ++ data
    spdmSend (viaCode v) 0x05 (if last then leBytes 4 have'.length else [])
      { s with hw.chunk := nset s.hw.chunk (viaCode v) (if last then [] else have') }) s)
def execChunkGet (v : Via) (n : Nat) (s : State) : Result :=
  .next (spdmStage v 3 (fun s =>
    let out := ngetD s.hw.chunkOut (viaCode v) []
    if out = [] then spdmError (viaCode v) 0x04 s
    else spdmSend (viaCode v) 0x06 (out.take n) { s with hw.chunkOut := nset s.hw.chunkOut (viaCode v) (out.drop n) }) s)
def execKeyRelease (v : Via) (sid : W32) (r : List Byte) (key : Option (BitVec 256)) (s : State) : Result :=
  .next (spdmInSession v sid.toNat (releaseOp sid.toNat r (key.map (·.toNat))) s)
def execKeyRevoke (v : Via) (sid : W32) (r : List Byte) (s : State) : Result :=
  .next (spdmInSession v sid.toNat (revokeOp sid.toNat r) s)
def execGetPartLog (v : Via) (sid : W32) (r : List Byte) (s : State) : Result :=
  .next (spdmInSession v sid.toNat (partLogOp sid.toNat r) s)

end Sys2Proof.Machine
end

