-- ==== Sys2Proof/Machine/Routes.lean ====
section
/-! DEFINITION. Spans, the marshal, device IDs and routes (R441-R445). -/

namespace Sys2Proof.Machine

/-! ### The graph of a span -/

def ownUid : Nat := Config.uid.toNat

/-- This device as discovery tells of it. -/
def ownNode (s : State) : HNode := ⟨ownUid, if bit (ngetD s.pm.backup 2 0) 16 then some s.hf.devId else none, rg s .HF_MARSHAL_PRIO⟩

/-- The devices known, this one first. -/
def spanNodes (s : State) : List HNode := ownNode s :: s.hf.nodes.filter fun n => n.uid != ownUid

/-- This device's links that are UP. -/
def ownEdges (s : State) : List HEdge :=
  (s.hf.links.filter fun e => e.2.st == .up).map fun e => ⟨ownUid, e.1, e.2.peerUid, e.2.peerQuad, e.2.border⟩

/-- The links inside the span, in both directions. -/
def spanEdges (s : State) : List HEdge :=
  (ownEdges s ++ s.hf.edges.filter fun e => e.a != ownUid).filter fun e => !e.border

/-- Breadth-first distances from a frontier over directed pairs. -/
def bfs (es : List (Nat × Nat)) : Nat → List Nat → Nat → NMap Nat → NMap Nat
  | 0, _, _, m => m
  | n + 1, front, d, m =>
    let m := front.foldl (fun m v => if (nget m v).isSome then m else nset m v d) m
    let next := ((es.filter fun e => front.contains e.1 && (nget m e.2).isNone).map (·.2)).eraseDups
    if next = [] then m else bfs es n next (d + 1) m

/-- A hop away from `e.a` is up when it leads nearer the marshal, between equally near ends to the lower unique ID (R443). -/
def hopUp (lvl : NMap Nat) (e : HEdge) : Bool :=
  match nget lvl e.a, nget lvl e.b with
  | some x, some y => y < x || (x == y && e.b < e.a)
  | _, _ => false

/-- The route entry of device `x` for device `y` (R443): the lowest quad that begins a shortest path of up hops then down
hops, and every quad on a minimal-hop path. -/
def routeEntry (es : List HEdge) (lvl : NMap Nat) (x y : Nat) : Nat :=
  let n := es.length + 1
  let prod := (es.map fun e => if hopUp lvl e then [(2 * e.b, 2 * e.a)]
                               else [(2 * e.b + 1, 2 * e.a + 1), (2 * e.b + 1, 2 * e.a)]).flatten
  let legal := bfs prod (2 * n) [2 * y, 2 * y + 1] 0 []
  let plain := bfs (es.map fun e => (e.b, e.a)) n [y] 0 []
  let mine := es.filter fun e => e.a == x
  let hop (e : HEdge) : Option Nat := nget legal (if hopUp lvl e then 2 * e.b else 2 * e.b + 1)
  let best := (mine.filterMap fun e => (hop e).map fun d => (d, e.qa)).foldl (fun b c => match b with
    | none => some c
    | some b => some (if c.1 < b.1 || (c.1 == b.1 && c.2 < b.2) then c else b)) (none : Option (Nat × Nat))
  let mask := (mine.filter fun e => match nget plain e.b, nget plain x with
    | some a, some b => a + 1 == b
    | _, _ => false).foldl (fun m e => m ||| 2 ^ e.qa) 0
  match best with
  | some b => b.2 + 16 * mask
  | none => 0xF + 16 * mask

/-! ### Election (R442) -/

/-- Ranks before: higher priority, then lower unique ID. -/
def outranks (a b : HNode) : Bool := b.prio < a.prio || (a.prio == b.prio && a.uid < b.uid)

def bestOf : List HNode → Option HNode
  | [] => none
  | n :: r => match bestOf r with
    | none => some n
    | some b => some (if outranks n b then n else b)

def marshalCandidates (s : State) : List HNode := (spanNodes s).filter fun n => n.prio != 0

/-! ### IDs (R445) -/

/-- The operator's ID map in T1: unique ID and ID of each entry. -/
def idMap (s : State) : List (Nat × Nat) :=
  let a := rg64 s .HF_IDMAP_LO .HF_IDMAP_HI 0
  (List.range (rg s .HF_IDMAP_COUNT)).map fun i => (rdNat s (a + 24 * i) 16, rdNat s (a + 24 * i + 16) 2)

def rangeBase (s : State) : Nat := bits (rg s .HF_SPAN_RANGE) 15 0
def rangeIds (s : State) : List Nat := (List.range (bits (rg s .HF_SPAN_RANGE) 31 16 + 1)).map (rangeBase s + ·)

/-- IDs under rules 1 and 2: the map's entry, else the retained ID where it lies in the range and no other device claims it. -/
def firmIds (s : State) : List (Nat × Nat) :=
  let mp := idMap s
  let ns := spanNodes s
  let mapped := ns.filterMap fun n => (mp.find? fun e => e.1 == n.uid).map fun e => (n.uid, e.2)
  let range := rangeIds s
  mapped ++ ns.filterMap fun n =>
    if mapped.any fun e => e.1 == n.uid then none
    else match n.id with
      | some i =>
        if range.contains i && !(mapped.any fun e => e.2 == i) &&
            !(ns.any fun m => m.id == some i && m.uid < n.uid && !(mapped.any fun e => e.1 == m.uid)) then some (n.uid, i)
        else none
      | none => none

/-- Rule 3: the lowest free ID for each device still without one. -/
def allIds (s : State) : List (Nat × Nat) :=
  let range := rangeIds s
  (spanNodes s).foldl (fun l n =>
    if l.any fun e => e.1 == n.uid then l
    else match range.find? fun i => !(l.any fun e => e.2 == i) with
      | some i => l ++ [(n.uid, i)]
      | none => l) (firmIds s)

/-- This device takes an ID: kept in backup register 2; a change is logged (R445). -/
def takeId (id : Nat) (s : State) : State :=
  let old := ngetD s.pm.backup 2 0
  let s := { s with hf.idValid := true, hf.devId := id, pm.backup := nset s.pm.backup 2 (id + 65536) }
  if bit old 16 ∧ old % 65536 ≠ id then evt Ev.HF_ID_CHANGED (unitReq 0x92 16) id s else s

/-! ### Installing routes (R443, R444) -/

/-- Ordered requests to a device that are under way. -/
def orderedOut (s : State) (d : Nat) : Bool := s.hf.reqs.any fun r => r.dst == d && ordered r.ty && !r.held && r.quad != 0xF

/-- One entry: where the escape route changes under ordered requests, later ones are held (R444). -/
def installRoute (d e : Nat) (s : State) : State :=
  let old := escQuad s d
  let s := { s with hf.routes := if e = 0x000F then ndel s.hf.routes d else nset s.hf.routes d e }
  if old ≠ e % 16 ∧ orderedOut s d ∧ !s.hf.holdDst.contains d then { s with hf.holdDst := s.hf.holdDst ++ [d] } else s

/-- ROUTE_UPDATE: the entries are installed. -/
def routesOp (es : List (Nat × Nat)) (s : State) : State :=
  { es.foldl (fun s e => installRoute e.1 e.2 s) s with hf.routed := true }

/-- Held requests leave, in their order, once nothing sent on the old route is outstanding (R444). -/
def holdRelease (d : Nat) (s : State) : State :=
  if s.hf.holdDst.contains d ∧ !orderedOut s d then
    let go := s.hf.reqs.filter fun r => r.dst == d && r.held
    go.foldl (fun s r => hfLaunch r s)
      { s with hf.holdDst := s.hf.holdDst.filter (· != d), hf.reqs := s.hf.reqs.filter fun r => !(r.dst == d && r.held) }
  else s

/-! ### The marshal's work -/

/-- IDs, then routes, of every device: this device's are taken, the others' are sent (R443, R445). -/
def recompute (s : State) : State :=
  let ids := allIds s
  let s := match ids.find? fun e => e.1 == ownUid with | some e => takeId e.2 s | none => s
  let s := { s with hf.marshalId := s.hf.devId }
  let es := spanEdges s
  let lvl := bfs (es.map fun e => (e.a, e.b)) (es.length + 1) [ownUid] 0 []
  let table (x : Nat) : List (Nat × Nat) := (ids.filter fun e => e.1 != x).map fun e => (e.2, routeEntry es lvl x e.1)
  let s := ((spanNodes s).filter fun n => n.uid != ownUid).foldl (fun s n =>
    let id := ((ids.find? fun e => e.1 == n.uid).map (·.2)).getD 0xFFFF
    send Mk.harahRoutes (n.uid :: id :: ((table n.uid).map fun e => [e.1, e.2]).flatten) [] s) s
  routesOp (table ownUid) s

/-- The election as this device sees it: a new marshal recomputes; with no candidate no ID is valid (R442). -/
def elect (s : State) : State :=
  let c := marshalCandidates s
  match bestOf c with
  | none => { s with hf.marshal := false, hf.standby := false, hf.idValid := false }
  | some b =>
    let second := bestOf (c.filter fun n => n.uid != b.uid)
    let s := { s with hf.marshal := b.uid == ownUid, hf.standby := second.any fun n => n.uid == ownUid,
                      hf.marshalId := (b.id).getD s.hf.marshalId, hf.marshalAt := now s }
    if b.uid = ownUid then recompute s else s

/-- A control message goes on over every other link that is UP and inside the span. -/
def relay (k : Option Nat) (args : List Nat) (s : State) : State :=
  (s.hf.links.filter fun e => e.2.st == .up && !e.2.border && some e.1 != k).foldl
    (fun s e => ctlSend e.1 Mk.harahDiscovery (e.1 :: args) s) s

/-- A link of this device has changed: the marshal recomputes, any other device reports the change to it (R431). -/
def linkChanged (k : Nat) (s : State) : State :=
  if s.hf.marshal then recompute s else relay none [k, ownUid] (send Mk.harahReport [k] [] s)

/-- A discovery or route message (R441-R443): processed here, and relayed. -/
def discoveryOp (k : Nat) (m : DiscMsg) (s : State) : State :=
  if (linkOf s k).st ≠ .up then s
  else match m with
  | .answer => ctlDone k Mk.harahDiscovery s
  | .links uid id prio es =>
    let s := send Mk.harahAnswer [k] [] s
    let n : HNode := ⟨uid.toNat, id.map (·.toNat), prio.toNat⟩
    let mine : List HEdge := es.map fun (e : Fin 12 × BitVec 128 × Fin 12 × Bool) => ⟨uid.toNat, e.1.val, e.2.1.toNat, e.2.2.1.val, e.2.2.2⟩
    if uid.toNat = ownUid ∨ (s.hf.nodes.contains n && mine.all s.hf.edges.contains &&
        (s.hf.edges.filter fun e => e.a == n.uid).length == mine.length) then s
    else
      let s := { s with hf.nodes := (s.hf.nodes.filter fun x => x.uid != n.uid) ++ [n]
                        hf.edges := (s.hf.edges.filter fun x => x.a != n.uid) ++ mine }
      elect (relay (some k) [n.uid] s)
  | .gone uid quad =>
    let s := send Mk.harahAnswer [k] [] s
    if s.hf.edges.any fun e => e.a == uid.toNat && e.qa == quad.val then
      let s := relay (some k) [uid.toNat, quad] { s with hf.edges := s.hf.edges.filter fun e => !(e.a == uid.toNat && e.qa == quad.val) }
      if s.hf.marshal then recompute s else s
    else s
  | .marshal uid id =>
    let s := { send Mk.harahAnswer [k] [] s with hf.marshalAt := now s }
    if s.hf.marshalId = id.toNat then s else relay (some k) [uid.toNat, id.toNat] { s with hf.marshalId := id.toNat }
  | .handover =>
    let s := send Mk.harahAnswer [k] [] s
    if s.hf.standby then recompute { s with hf.marshal := true, hf.standby := false } else s
  | .routes uid es =>
    let s := send Mk.harahAnswer [k] [] s
    if uid.toNat = ownUid then routesOp (es.map fun e => (e.1.toNat, e.2.toNat)) s
    else relay (some k) (uid.toNat :: (es.map fun e => [e.1.toNat, e.2.toNat]).flatten) s

/-- The standby takes over after 10 ms of silence; no ID and no route changes (R442). -/
def silenceOp (s : State) : State :=
  if s.hf.standby ∧ s.hf.marshalAt + 10000000 ≤ now s then
    { s with hf.marshal := true, hf.standby := false, hf.marshalId := s.hf.devId, hf.marshalAt := now s }
  else s

/-- YIELD at the marshal: the standby becomes marshal, and this device, the next candidate, its standby. -/
def yieldOp (s : State) : State :=
  match bestOf ((marshalCandidates s).filter fun n => n.uid != ownUid) with
  | some b =>
    if s.hf.marshal then
      relay none [ownUid, b.uid] { s with hf.marshal := false, hf.standby := true, hf.marshalAt := now s,
                                          hf.marshalId := (b.id).getD s.hf.marshalId }
    else s
  | none => s

/-! ### The commands -/

def execDiscoveryMessage (k : Fin 12) (m : DiscMsg) (s : State) : Result := .next (discoveryOp k m s)
def execIdAssign (id : BitVec 16) (s : State) : Result := .next (takeId id.toNat s)
def execMarshalSilence (s : State) : Result := .next (silenceOp s)
def execRediscover (q : Req) (s : State) : Result :=
  .next (regGuard q ⟨.HF_CTL, 0, 0, 0⟩ (fun s => if s.hf.marshal then recompute s else s) s)
def execYieldMarshal (q : Req) (s : State) : Result := .next (regGuard q ⟨.HF_CTL, 0, 0, 0⟩ yieldOp s)

end Sys2Proof.Machine
end

