-- ==== Sys2Proof/Machine/Links.lean ====
section
/-! DEFINITION. Harah's responses and timeouts (R438, R451, R452), then its links: packets, training, width, states
(R427-R436). -/

namespace Sys2Proof.Machine

/-! ### A request ends -/

/-- A session move over Harah fails (R588, R94). -/
def harahMoveFail (n st det : Nat) (s : State) : State :=
  match moveOf s n with
  | none => s
  | some m =>
    if s.ht.migIn.any fun i => i.slot == n then migFree n s
    else if m.dir = .inn then endMove n st det (ctr .SP_MOVE_FAIL_CNT (slotOf s n).part s)
    else failOut n st det s

/-- What a request was sent for learns how it ended: status, DETAIL, data, responder. -/
def hfOutcome (r : HfReq) (st det : Nat) (data : List Byte) (s : State) : State :=
  match r.what with
  | .mailbox p => boxDone p st (if st = stDone ∧ r.ty ≠ 2 then leNat data else (boxOf s p).result) s
  | .reserve n => reserveReply n st det data s
  | .copy n => if st = stDone then s else harahMoveFail n st det s
  | .arrived _ => s
  | .release _ => s
  | .ask n => askReply n st data s
  | .job ring d => if st = stDone then s else match jobOf s ring d with | some j => endJob j st det s | none => s
  | .ring c kind _ =>
    if kind ≤ 1 then (if st = stDone then digestFrom c r.dst (leNat (data.take 8)) s else s)
    else if kind = 5 then
      if st = stDone then homeCommit c s
      else
        let n := (ctxOf s c).slot
        putSlot n { slotOf s n with step := (slotOf s n).step.map fun x => { x with failed := true } } s
    else if kind = 6 then putCtx c { ctxOf s c with sent := (ctxOf s c).sent - 1 } s
    else s
  | .shard serial i =>
    if st = stDone then s
    else match shardOf s r.part serial with
      | some x => if (nget x.status i).isSome then s else
          let y := { x with status := nset x.status i st }
          mergeIfAll y (putShard y s)
      | none => s

/-- A request ends; FENCEs that waited for it complete, and a held route may be released by its own command (R444, R451). -/
def hfEnd (r : HfReq) (st det : Nat) (data : List Byte) (s : State) : State :=
  fencesDone (hfOutcome r st det data (dropReq r.tag s))

/-- Age of a BIRTH in units of 1,024 ns, modulo 2^16 (R452). -/
def hfAge (s : State) (birth : Nat) : Nat := (now s / 1024 + 65536 - birth) % 65536

/-- HARAH_RESPONSE: forwarded to its originator, discarded when too old, else it completes the request with its tag. -/
def responseOp (x : HfRsp) (data : List Byte) (s : State) : State :=
  let loop := s.hf.idValid && x.src.toNat == s.hf.devId && x.dst == x.src
  if !loop ∧ !hfMember s then s
  else if 2 * rg s .HF_LIFE_US < hfAge s x.birth.toNat then ctr .HF_AGE_DROP_CNT 16 s
  else if x.dst.toNat ≠ s.hf.devId then
    let d := x.dst.toNat
    let s := ctr .HF_FWD_PKT_CNT 16 (send Mk.harahForward [x.st.toNat, x.src.toNat, d, x.det.toNat, x.tag.toNat, x.birth.toNat] data s)
    match mostCredit s 3 (adaptQuads s d) with
    | some q => linkSend q 3 (2 + ceilDiv data.length 16) d none s
    | none => if escQuad s d = 0xF then s else linkSend (escQuad s d) 2 (2 + ceilDiv data.length 16) d none s
  else match reqOf s x.tag.toNat with
    | some r => if r.dst = x.src.toNat then hfEnd r x.st.toNat x.det.toNat data s else s
    | none => s

/-- E2E_TIMEOUT: no response within the timeout in force (R452). -/
def e2eOp (tag : Nat) (s : State) : State :=
  match reqOf s tag with
  | some r =>
    if r.held ∨ now s < r.birth + e2eNs s then s
    else hfEnd r e2eVerdict.st e2eVerdict.det [] (ctr .HF_E2E_TMO_CNT r.part s)
  | none => s

/-- The Harah requests of moves to and from T3, of migrations arriving, and of COPYs over Harah: one entry each while tiles are
outstanding; where no route leads to the other device the work fails ADDRESS_HOLE (R443). -/
def syncHarah (s : State) : State :=
  let out (m : Move) : Bool := m.dir == .out && tierPath m.tier m.path == 1 && m.pend != []
  let inn (m : Move) : Bool := m.dir == .inn && m.pend != [] &&
    ((slotOf s m.slot).tier == 3 || s.ht.migIn.any fun i => i.slot == m.slot)
  let live (w : HfWhat) : Bool := match w with
    | .copy n => s.ht.moves.any fun m => m.slot == n && (out m || inn m)
    | .job r d => s.sp.jobs.any fun j => j.ring == r && j.desc == d && j.pend != []
    | _ => true
  let s' := { s with hf.reqs := s.hf.reqs.filter fun r => live r.what }
  let s' := s.ht.moves.foldl (fun t m =>
    if !(out m || inn m) || t.hf.reqs.any (fun r => r.what == .copy m.slot) then t
    else
      let dev := if s.ht.migIn.any fun i => i.slot == m.slot then m.dev
        else if out m then ((m.dst.head?).map fun e => e.2.addr / 2 ^ 32).getD 0
        else (((slotOf s m.slot).blks.find? fun b => b.tier == 3).map fun b => b.addr / 2 ^ 32).getD 0
      match hfIssue (if out m then tyStore else tyRead) dev (slotOf s m.slot).part 0 (m.pend.length * tileBytes) 0 [] (.copy m.slot) t with
      | some t => t
      | none => harahMoveFail m.slot stAddressHole (detTarget none) t) s'
  s.sp.jobs.foldl (fun t j =>
    let far (tier a : Nat) : Option Nat := if tierPath tier (sHarah j.desc) = 1 then some (tierAddr tier a (sHarah j.desc) / 2 ^ 48) else none
    let src := if dOp j.desc = 0x10 then far (sSrcTier j.desc) (sSrc j.desc) else none
    let dst := far (sDstTier j.desc) (sDst j.desc)
    let go (ty dev : Nat) (t : State) : State :=
      if t.hf.reqs.any fun r => r.what == .job j.ring j.desc && r.ty == ty then t
      else match hfIssue ty dev j.part 0 (sLen j.desc) 0 [] (.job j.ring j.desc) t with
        | some t => t
        | none => match jobOf t j.ring j.desc with | some x => endJob x stAddressHole (detTarget none) t | none => t
    let t := match src with | some d => go tyRead d t | none => t
    match dst with | some d => go tyStore d t | none => t) s'

/-! ### Link packets (R428-R430) -/

/-- Packets arrive in these states. -/
def linkHears (l : HLink) : Bool := l.st == .up || l.st == .draining

/-- What an arriving data packet meets (R429). -/
def dataIn (k seq : Nat) (s : State) : State :=
  let l := linkOf s k
  let ahead := (seq + 4096 - l.rxSeq) % 4096
  if ahead = 0 then
    putLink k { l with rxSeq := (l.rxSeq + 1) % 4096, rx := l.rx + 1, naking := false, owed := true,
                       owedAt := if l.owed then l.owedAt else now s } s
  else if 4096 - 2047 ≤ ahead then sendAck k false s
  else if l.naking then s else sendAck k true (putLink k { l with naking := true } s)

/-- LINK_PACKET_RX. -/
def packetOp (k : Nat) (crc : Bool) (kind seq ack : Nat) (nak : Bool) (cvc credits : Nat) (s : State) : State :=
  let l := linkOf s k
  if !isHarah s k ∨ !linkHears l then s
  else if !crc then
    let s := ctrAdd .HF_LK_CRC_FAIL_CNT k 16 1 s
    if l.naking then s else sendAck k true (putLink k { l with naking := true } s)
  else
    let s := putLink k { l with credit := nmod l.credit cvc 0 (· + credits) } s
    let s := linkFlush k (linkAck k ack s)
    let s := if nak then linkReplay k s else s
    if kind = 0 then dataIn k seq s else s

/-- REPLAY_TIMEOUT (R430). -/
def replayDue (k : Nat) (s : State) : State :=
  let l := linkOf s k
  if linkSends l ∧ l.unacked ≠ [] ∧ l.ackAt + 4000 ≤ now s then linkReplay k s else s

/-- NAK_RESEND_TIMER (R429). -/
def nakDue (k : Nat) (s : State) : State :=
  let l := linkOf s k
  if linkHears l ∧ l.naking ∧ l.nakAt + 2000 ≤ now s then sendAck k true s else s

/-- ACK_TIMER (R429). -/
def ackDue (k : Nat) (s : State) : State :=
  let l := linkOf s k
  if linkHears l ∧ l.owed ∧ l.owedAt + 100 ≤ now s then sendAck k false s else s

/-- CONTROL_REPEAT_TIMER (R428). -/
def ctlDue (k : Nat) (s : State) : State :=
  let l := linkOf s k
  if l.st ≠ .disabled ∧ l.st ≠ .down ∧ l.ctl ≠ [] ∧ l.ctlAt + 2000 ≤ now s then
    putLink k { l with ctlAt := now s } { s with tx := s.tx ++ l.ctl }
  else s

/-! ### Width (R427, R432) -/

def lanesIn (want got : Nat) : Bool := want &&& got == want

/-- Width code and lanes of the first width good at both ends (R432). -/
def pickWidth (good : Nat) : Nat × Nat :=
  if lanesIn 0xF good then (3, 0xF) else if lanesIn 0x3 good then (2, 0x3) else if lanesIn 0xC good then (2, 0xC)
  else match (List.range 4).find? fun i => bit good i with | some i => (1, 2 ^ i) | none => (0, 0)

/-- MIN_WIDTH as a width code. -/
def minWidth (s : State) (k : Nat) : Nat := min 3 (1 + bits (rg s .HF_LK_CTL k) 5 4)

/-! ### States (R431) -/

/-- The link begins training: equalisation, lock, deskew, HELLO. -/
def linkTrain (k : Nat) (s : State) : State :=
  let l := linkOf s k
  send Mk.harahHello (k :: ctlId s ++ [rg64 s .HF_SPAN_NAME_LO .HF_SPAN_NAME_HI 0, l.good]) []
    (putLink k { l with st := .training, since := now s, width := 0, lanes := 0 } s)

/-- The links of the laid Harah quads begin to train where ENABLE is 1 (R540 step 8; on a lay image in service, at once);
those of other quads are no links. -/
def linksUp (s : State) : State :=
  let s := { s with hf.links := s.hf.links.filter fun e => isHarah s e.1 }
  (List.range 12).foldl (fun s k =>
    if isHarah s k ∧ bit (rg s .HF_LK_CTL k) 0 ∧ (linkOf s k).st = .disabled ∧ !(linkOf s k).fenced then
      linkTrain k (putLink k { linkOf s k with good := 0xF } s) else s) s

/-- A link goes DOWN, or DISABLED by an abort: the epoch is raised, the replay buffer discarded, this device's own requests
in it complete TARGET_RESET, the change is reported (R431, R433). -/
def linkFall (k : Nat) (goal : LkSt) (s : State) : State :=
  let l := linkOf s k
  let tags := (l.unacked.filterMap (·.tag)).eraseDups
  let x := { l with st := goal, since := now s, epoch := l.epoch + 1, width := 0, lanes := 0, unacked := [], naking := false,
                    owed := false, ownReq := none, again := none, want := none, ctl := [], runs := 0, credit := [] }
  let s := putLink k x s
  let s := tags.foldl (fun s t => match reqOf s t with
    | some r => hfEnd r stTargetReset (detReset (some 384) x.epoch) [] s
    | none => s) s
  linkChanged k s

/-- ABORT, or ENABLE written 0 without DRAIN (R386, R387, R431). -/
def linkStop (k : Nat) (s : State) : State :=
  if (linkOf s k).st = .disabled then s else regSetBit .HF_LK_CTL k 0 false (linkFall k .disabled s)

/-- A register of a link that is one: others discard writes (R460). -/
def linkReg (q : Req) (k : Nat) (f : State → State) (s : State) : State :=
  regGuard q ⟨.HF_LK_CTL, k, 0, 0⟩ (fun s => if isHarah s k then f s else s) s

/-- ENABLE written (R387, R431). -/
def linkEnableOp (k : Nat) (v : Bool) (s : State) : State :=
  let l := linkOf s k
  if v then
    if l.st = .disabled ∧ !l.fenced then
      linkTrain k (putLink k { l with good := 0xF } (regSetBit .HF_LK_CTL k 0 true s))
    else if l.st = .draining then s else regSetBit .HF_LK_CTL k 0 true s
  else if l.st = .draining then regSetBit .HF_LK_CTL k 0 false s
  else linkStop k (regSetBit .HF_LK_CTL k 0 false s)

/-- DRAIN: only from UP (R387, R431). -/
def linkDrainOp (k : Nat) (s : State) : State :=
  let l := linkOf s k
  if l.st = .up then linkChanged k (linkFlush k (putLink k { l with st := .draining, since := now s } s)) else s

/-- TRAINING_DONE: the masks good at each end give a width of at least MIN_WIDTH (R431). -/
def trainedOp (k good theirs : Nat) (x : Peer) (credits rtt : Nat) (s : State) : State :=
  let l := linkOf s k
  let w := pickWidth (good &&& theirs)
  if !isHarah s k ∨ !(l.st = .training ∨ l.st = .retraining) ∨ w.1 = 0 ∨ w.1 < minWidth s k then s
  else
    let cr : NMap Nat := enum0 (List.replicate 6 (max 64 credits))
    let border := x.name.toNat != rg64 s .HF_SPAN_NAME_LO .HF_SPAN_NAME_HI 0
    let dev := match x.dev with | some d => d.toNat | none => 0
    let y := { l with st := .up, since := now s, width := w.1, lanes := w.2, good := good, border := border, rtt := rtt,
                      peer := dev, peerQuad := x.quad, peerUid := x.uid.toNat, want := none,
                      ownReq := none, ctl := [], credit := if l.st = .training then cr else l.credit }
    let y : HLink := if l.st = .training then { y with txSeq := 0, rxSeq := 0, unacked := [], naking := false, owed := false, runs := 0 } else y
    let s := putLink k { y with again := none, ackAt := now s } s
    let s := linkFlush k (if l.st = .retraining then replayAll k s else s)
    let s := if l.st = .training then linkChanged k s else s
    if l.again = some 1 then linkRetrain k s else s

/-- TRAINING_TIMEOUT: 10 ms without success (R431). -/
def trainRetry (k : Nat) (s : State) : State :=
  let l := linkOf s k
  if l.st = .training ∧ l.since + 10000000 ≤ now s then linkTrain k (ctrAdd .HF_LK_TRAIN_FAIL_CNT k 16 1 s) else s

/-- LINK_DOWN_TIMEOUT (R431). -/
def downDue (k : Nat) (s : State) : State :=
  let l := linkOf s k
  if l.st = .retraining ∧ l.since + 1000000 * rg s .HF_LK_DOWN_MS k ≤ now s then linkFall k .down (ctrAdd .HF_LK_DOWN_CNT k 16 1 s) else s

/-- DOWN_RETRY_TIMER: every 1 ms (R431). -/
def downRetry (k : Nat) (s : State) : State :=
  let l := linkOf s k
  if l.st = .down ∧ l.since + 1000000 ≤ now s then linkTrain k (putLink k { l with good := 0xF } s) else s

/-- A WIDTH_REQ of this end's own. -/
def askWidth (k : Nat) (s : State) : State :=
  ctlSend k Mk.harahWidthReq (k :: (linkOf s k).good :: ctlId s) (putLink k { linkOf s k with ownReq := some 0 } s)

/-- LANE_FAILURE (R432): data packets pause and the good mask is sent; with no lane left the link retrains. -/
def laneOp (k lost uncorr : Nat) (s : State) : State :=
  let s := ctrAdd .HF_LK_FEC_UNCORR_CNT k 16 uncorr s
  let l := linkOf s k
  let good := l.good &&& (0xF ^^^ lost)
  if !(l.st = .up ∨ l.st = .widthChange) ∨ (l.lanes &&& lost) = 0 then s
  else
    let s := putLink k { l with good := good, st := .widthChange, since := now s, want := none } s
    if good = 0 then linkRetrain k s else askWidth k s

/-- The end whose request goes on when both ask at once (R434). -/
def ownWins (s : State) (dev : Option (BitVec 16)) (uid : BitVec 128) : Bool :=
  match dev with
  | some d => if s.hf.idValid then s.hf.devId < d.toNat else ownUid < uid.toNat
  | none => ownUid < uid.toNat

/-- The agreed width comes into force, or the link retrains where it is below MIN_WIDTH (R432). -/
def agreeWidth (k mask : Nat) (s : State) : State :=
  let l := linkOf s k
  let w := pickWidth (l.good &&& mask)
  if w.1 < minWidth s k then linkRetrain k s
  else putLink k { l with st := .widthChange, since := if l.st = .up then now s else l.since, want := some w } s

/-- WIDTH_REQ received, or the answer to this end's own (R432, R434). -/
def widthOp (k mask : Nat) (dev : Option (BitVec 16)) (uid : BitVec 128) (answer : Bool) (s : State) : State :=
  let l := linkOf s k
  if !(l.st = .up ∨ l.st = .widthChange) then s
  else if answer then
    if l.ownReq = some 0 then
      let s := ctlDone k Mk.harahWidthReq (putLink k { l with ownReq := none } s)
      if l.st = .up ∧ pickWidth (l.good &&& mask) = (l.width, l.lanes) then s else agreeWidth k mask s
    else s
  else if l.ownReq = some 0 ∧ ownWins s dev uid then s
  else
    let again := if l.ownReq = some 0 then some 0 else l.again
    let s := ctlDone k Mk.harahWidthReq (putLink k { l with ownReq := none, again := again } s)
    let s := send Mk.harahWidthAnswer [k, l.good] [] s
    if l.st = .up ∧ pickWidth (l.good &&& mask) = (l.width, l.lanes) then s else agreeWidth k mask s

/-- WIDTH_CHANGE_DONE: UP at the new width, replay from ACK + 1; the loser of R434 asks again. -/
def widthDone (k : Nat) (s : State) : State :=
  let l := linkOf s k
  match l.want with
  | none => s
  | some w =>
    if l.st ≠ .widthChange then s
    else
      let s := putLink k { l with st := .up, since := now s, width := w.1, lanes := w.2, want := none, again := none, runs := 0 } s
      let s := evt Ev.HARAH_WIDTH_CHANGE (linkReq k) (k + 16 * w.1) (ctrAdd .HF_LK_WIDTH_CHG_CNT k 16 1 s)
      let s := linkFlush k (replayAll k s)
      if l.again = some 0 then askWidth k s else s

/-- RETRAIN_REQ received, or the answer to this end's own (R434). -/
def retrainOp (k : Nat) (dev : Option (BitVec 16)) (uid : BitVec 128) (answer : Bool) (s : State) : State :=
  let l := linkOf s k
  if answer then
    if l.ownReq = some 1 then ctlDone k Mk.harahRetrainReq (putLink k { l with ownReq := none } s) else s
  else if l.st = .retraining then
    if l.ownReq = some 1 ∧ ownWins s dev uid then s
    else
      let again := if l.ownReq = some 1 then some 1 else l.again
      send Mk.harahRetrainAnswer [k] [] (ctlDone k Mk.harahRetrainReq (putLink k { l with ownReq := none, again := again } s))
  else if l.st = .up ∨ l.st = .widthChange then
    send Mk.harahRetrainAnswer [k] [] (ctlDone k Mk.harahWidthReq
      (putLink k { l with st := .retraining, since := now s, ownReq := none, want := none, runs := 0 } s))
  else s

/-- ADAPTIVE_ESCAPE_TIMEOUT: packets that have waited 1 µs for adaptive credits move to the escape channel of their class, on
the escape route of their destination (R436). -/
def escapeOp (k : Nat) (s : State) : State :=
  let due (p : HPkt) : Bool := (p.vc == 1 || p.vc == 3) && p.since + 1000 ≤ now s && escQuad s p.dst != 0xF
  let l := linkOf s k
  let go := l.wait.filter due
  go.foldl (fun s p =>
    let e := escQuad s p.dst
    let part := match p.tag with | some t => ((reqOf s t).map (·.part)).getD 16 | none => 16
    let x := linkOf s e
    linkFlush e (putLink e { x with wait := x.wait ++ [{ p with vc := p.vc - 1, since := now s }] } (ctr .HF_ESCAPE_MOVE_CNT part s)))
    (putLink k { l with wait := l.wait.filter fun p => !due p } s)

/-! ### The commands -/

def execLinkPacketRx (k : Fin 12) (crc : Bool) (kind : Fin 4) (seq ack : BitVec 12) (nak : Bool) (cvc : Fin 8) (credits : BitVec 12)
    (s : State) : Result :=
  .next (packetOp k crc kind seq.toNat ack.toNat nak cvc credits.toNat s)
def execReplayTimeout (k : Fin 12) (s : State) : Result := .next (replayDue k s)
def execNakResendTimer (k : Fin 12) (s : State) : Result := .next (nakDue k s)
def execAckTimer (k : Fin 12) (s : State) : Result := .next (ackDue k s)
def execControlRepeatTimer (k : Fin 12) (s : State) : Result := .next (ctlDue k s)
def execLinkEnable (q : Req) (k : Fin 12) (v : Bool) (s : State) : Result := .next (linkReg q k (linkEnableOp k v) s)
def execLinkDrain (q : Req) (k : Fin 12) (s : State) : Result := .next (linkReg q k (linkDrainOp k) s)
def execLinkAbort (q : Req) (k : Fin 12) (s : State) : Result := .next (linkReg q k (linkStop k) s)
def execLinkRetrain (q : Req) (k : Fin 12) (s : State) : Result := .next (linkReg q k (linkRetrain k) s)
def execTrainingDone (k : Fin 12) (good theirs : BitVec 4) (x : Peer) (credits : BitVec 12) (rtt : BitVec 16) (s : State) : Result :=
  .next (trainedOp k good.toNat theirs.toNat x credits.toNat rtt.toNat s)
def execTrainingTimeout (k : Fin 12) (s : State) : Result := .next (trainRetry k s)
def execLinkDownTimeout (k : Fin 12) (s : State) : Result := .next (downDue k s)
def execDownRetryTimer (k : Fin 12) (s : State) : Result := .next (downRetry k s)
def execLaneFailure (k : Fin 12) (lost : BitVec 4) (uncorr : BitVec 8) (s : State) : Result := .next (laneOp k lost.toNat uncorr.toNat s)
def execWidthReq (k : Fin 12) (mask : BitVec 4) (dev : Option (BitVec 16)) (uid : BitVec 128) (answer : Bool) (s : State) : Result :=
  .next (widthOp k mask.toNat dev uid answer s)
def execWidthChangeDone (k : Fin 12) (s : State) : Result := .next (widthDone k s)
def execRetrainReq (k : Fin 12) (dev : Option (BitVec 16)) (uid : BitVec 128) (answer : Bool) (s : State) : Result :=
  .next (retrainOp k dev uid answer s)
def execAdaptiveEscapeTimeout (k : Fin 12) (s : State) : Result := .next (escapeOp k s)

end Sys2Proof.Machine
end

