-- ==== Sys2Proof/Machine/Power.lean ====
section
/-! DEFINITION. Power domains (R560-R563), what drains them (R388), throttling and the power limits (R564, R565). -/

namespace Sys2Proof.Machine

def putDom (i : Nat) (x : Dom) (s : State) : State := { s with pm.doms := nset s.pm.doms i x }

/-- The requester of Lanyard's own log entries (R52). -/
def lyReq : Req := unitReq 0xF1 0

/-- What a domain depends on (R561). -/
def domDeps (i : Nat) : List Nat :=
  let d := i / 8
  if i < 32 then (if i % 8 = 5 ∨ i % 8 = 6 then [32 + 2 * d, 33 + 2 * d] else [8 * d + 5, 8 * d + 6])
  else if i < 45 then [45]
  else if i = 45 then [46]
  else if i = 46 then [47]
  else []

/-- Domains that depend on domain i. -/
def domUsers (i : Nat) : List Nat := (List.range 48).filter fun k => (domDeps k).contains i

/-- The engines in a compute-die domain (R31): block and number, spares included. -/
def domEngines (i : Nat) : List (Nat × Nat) :=
  let d := i / 8
  let k := i % 8
  if 32 ≤ i then []
  else if k < 4 then ((List.range 16).map fun e => (6, 16 * (4 * d + k) + e)) ++ [(6, 256 + 4 * d + k)]
  else if k = 4 then ((List.range 8).map fun e => (8, 8 * d + e)) ++ [(8, 32 + d)]
  else if k = 7 then ([9, 0xA, 0xB, 0xC].map fun b => (List.range 4).map fun e => (b, 4 * d + e)).flatten
  else []

/-- A spare in reserve neither runs nor waits for work. -/
def inReserve (s : State) (x : Nat × Nat) : Bool :=
  (if x.1 = 6 then 256 ≤ x.2 else if x.1 = 8 then 32 ≤ x.2 else 9 ≤ x.1 && reservedEng s x.1 x.2) && (engOf s x.1 x.2).serves == x.2

/-- Whether a domain holds a spill record, RUN, search or stream (R388). -/
def domHolds (s : State) (i : Nat) : Bool :=
  let d := i / 8
  let k := i % 8
  if 32 ≤ i then false
  else if k < 4 then s.la.spills.any fun x => x.group == 4 * d + k
  else if k = 4 then s.ad.runs.any fun r => r.engs.any fun e => (domEngines i).contains (8, e)
  else if k = 7 then (s.sk.runs.any fun r => r.eng / 4 == d) || s.wh.streams.any fun x => x.2.eng / 4 == d
  else s.la.spills.any fun x => x.billet && x.group / 4 == d

/-- Every engine of a domain is DISABLED or FENCED. -/
def domQuiet (s : State) (i : Nat) : Bool :=
  (domEngines i).all (fun x => inReserve s x || (engOf s x.1 x.2).st == .disabled || (engOf s x.1 x.2).st == .fenced)

/-- DRAINED (R388). -/
def domDrained (s : State) (i : Nat) : Bool := domQuiet s i && !domHolds s i

/-- A channel that belongs to no partition, or is fenced. -/
def chanIdle (s : State) (t : Nat) : Bool := (layOwner s.lay.img t).isNone || s.lay.chFenced.contains t

/-- Discards the contents of a range of the device window. -/
def discard (a n : Nat) (s : State) : State := { s with mem := s.mem.filter fun c => c.1 < a || a + n ≤ c.1 }

/-- What a switched-off domain loses: a stack's contents; the carve-out contents of a Billet half (R388). -/
def domLose (i : Nat) (s : State) : State :=
  if 32 ≤ i ∧ i < 40 then
    putStack (i - 32) { stackAt s (i - 32) with ready := false, selfRefresh := false } (discard ((i - 32) * 0xC00000000) 0xC00000000 s)
  else if i < 32 ∧ (i % 8 = 5 ∨ i % 8 = 6) then
    ((List.range 8).map fun b => 16 * (i / 8) + 8 * (i % 8 - 5) + b).foldl (fun s b =>
      if s.lay.img.carve.contains b ∨ s.lay.img.exported.contains b then discard (billetBase + b * 0x400000) 0x400000 s else s) s
  else s

/-- A domain switches off. -/
def domOff (i : Nat) (s : State) : State := putDom i dom0 (domLose i s)

/-- A domain starts from off, towards state v. -/
def domStart (i v : Nat) (s : State) : State := ctrAdd .PM_DOM_ON_CNT i 16 1 (putDom i ⟨0, some v, false, false⟩ s)

/-- Enters or leaves low power: a stack's self-refresh, a SerDes group's listen state, a PCIe port's L1. -/
def domLow (i : Nat) (low : Bool) (s : State) : State :=
  let s := putDom i { domOf s i with st := if low then 2 else 1 } s
  if 32 ≤ i ∧ i < 40 then
    let x := stackAt s (i - 32)
    let s := if low ∧ !x.selfRefresh then ctrAdd .HM_SR_ENTRY_CNT (i - 32) 16 1 s else s
    putStack (i - 32) { x with selfRefresh := low } s
  else s

/-- A refused request is counted. -/
def domRefuse (e : Option Ev) (i : Nat) (s : State) : State :=
  let s := ctr .PM_POWER_REQ_REFUSED_CNT 16 s
  match e with
  | some e => evt e lyReq i s
  | none => s

/-- A request to power on (R562). -/
def domReqOn (i v : Nat) (s : State) : State :=
  let x := domOf s i
  if x.goal.isSome then s
  else if x.st ≠ 0 then domLow i (v == 2) s
  else
    let deps := domDeps i
    if deps.any fun k => (domOf s k).st == 0 && (domOf s k).goal.isNone then domRefuse (some Ev.POWER_REQ_DEP) i s
    else if deps.all fun k => (domOf s k).ready then domStart i v s
    else putDom i ⟨0, some v, false, true⟩ s

/-- Whether a domain may be switched off (R561, R562, R388). -/
def domMayOff (s : State) (i : Nat) : Bool :=
  (domUsers i).all (fun k => (domOf s k).st == 0 && (domOf s k).goal.isNone) && domDrained s i &&
  (!(32 ≤ i && i < 40) || (List.range 32).all fun c => chanIdle s (32 * (i - 32) + c))

/-- A request to power off. -/
def domReqOff (i : Nat) (s : State) : State :=
  if (domOf s i).st = 0 ∧ (domOf s i).goal.isNone then s
  else if domMayOff s i then domOff i s
  else domRefuse (some Ev.POWER_REQ_NOT_DRAINED) i s

/-- Requests a domain accepts (R562). -/
def domAccepts (i v : Nat) : Bool :=
  if 45 ≤ i then v == 1 else if i = 43 then v == 1 || v == 2 else if i < 32 then v < 2 else v < 3

/-- A write of PM_DOM_REQ[i]. -/
def domReqOp (i v : Nat) (s : State) : State :=
  if 48 ≤ i then s
  else if !domAccepts i v then domRefuse none i s
  else
    let s := rp .PM_DOM_REQ i 0 0 v s
    if v = 0 then domReqOff i s else domReqOn i v s

/-- Deferred requests whose dependencies are now ready start. -/
def domUndefer (s : State) : State :=
  (List.range 48).foldl (fun s i =>
    let x := domOf s i
    match x.goal with
    | some v => if x.defer && (domDeps i).all (fun k => (domOf s k).ready) then domStart i v s else s
    | none => s) s

/-- A started domain is ready (R562). -/
def domReadyOp (i : Nat) (s : State) : State :=
  let x := domOf s i
  match x.goal with
  | none => s
  | some v =>
    if x.defer then s
    else
      let s := putDom i ⟨1, none, true, false⟩ s
      let s := if 32 ≤ i ∧ i < 40 then putStack (i - 32) { stackAt s (i - 32) with ready := true } s else s
      domUndefer (if v = 2 then domLow i true s else s)

/-! ### Thermal and power limits (R564, R565) -/

def therm0 : Therm := ⟨0, 0, 0⟩
def thermOf (s : State) (d : Nat) : Therm := ngetD s.pm.therm d therm0
def putTherm (d : Nat) (x : Therm) (s : State) : State := { s with pm.therm := nset s.pm.therm d x }

/-- PM_THROTTLE_C in effect. -/
def throttleC (s : State) : Int := max 80 (min 105 (rg s .PM_THROTTLE_C))

/-- PM_POWER_CAP_W in effect. -/
def powerCap (s : State) : Nat := min 1450 (rg s .PM_POWER_CAP_W)

/-- THROTTLE_SAMPLE of die d, whose hottest sensor reads c. -/
def throttleOp (d : Nat) (c : Int) (s : State) : State :=
  let x := thermOf s d
  let s := if 0 < x.level then ctrAdd .PM_THROTTLE_US d 16 100 s else s
  let lim := throttleC s
  if 105 ≤ c then
    let s := if x.temp < 105 then evt Ev.THERMAL_HOT lyReq d s else s
    putTherm d ⟨12, c, now s⟩ s
  else if lim ≤ c then putTherm d ⟨min 12 (x.level + 1), c, now s⟩ s
  else if c + 3 ≤ lim ∧ !s.pm.excess then
    if x.temp + 3 ≤ lim ∧ x.coolAt + 1000000 ≤ now s then putTherm d ⟨x.level - 1, c, x.coolAt + 1000000⟩ s
    else if x.temp + 3 ≤ lim then putTherm d { x with temp := c } s
    else putTherm d ⟨x.level, c, now s⟩ s
  else putTherm d ⟨x.level, c, now s⟩ s

/-- POWER_LIMIT_SAMPLE: the 10 ms and 1 s means of the power estimate, in watts. -/
def powerLimitOp (m10 m1000 : Nat) (s : State) : State :=
  let excess := 1800 < m10 ∨ powerCap s < m1000
  let s := { s with pm.excess := excess, ly.power := 256 * m10 }
  if excess then
    (List.range 4).foldl (fun s d =>
      let x := thermOf s d
      putTherm d { x with level := min 12 (x.level + 1), coolAt := now s } s) (ctrAdd .PM_POWER_CAP_US 0 16 1000 s)
  else s

/-! ### The commands -/

def execDomainRequest (q : Req) (i : Fin 48) (v : BitVec 2) (s : State) : Result :=
  .next (regGuard q ⟨.PM_DOM_REQ, i, 0, 0⟩ (domReqOp i v.toNat) s)
def execThrottleSample (d : Fin 4) (c : Int) (s : State) : Result := .next (throttleOp d c s)
def execPowerLimitSample (m10 m1000 : Nat) (s : State) : Result := .next (powerLimitOp m10 m1000 s)

end Sys2Proof.Machine
end

