-- ==== Sys2Proof/Machine/Lanyard.lean ====
section
/-! DEFINITION. Lanyard (chapter 18): filters, sleep groups and watch mode, inputs and pins, the event log's rows, telemetry,
firmware update, PLDM. -/

namespace Sys2Proof.Machine

/-- Lanyard's firmware runs (R540 step 3, R554). -/
def lyRuns (s : State) : Bool := 3 ≤ s.pm.step && !s.pm.lyDead && !s.pm.romRec

/-- It puts groups to sleep only after READY, never in recovery (R563, R552). -/
def lyServes (s : State) : Bool := lyRuns s && s.pm.step == 11 && !s.pm.recovery

/-! ### Filters (R510-R514) -/

def flt0 : LyFilter := ⟨0, 0, none, false, 0, false, 0⟩
def fltOf (s : State) (f : Nat) : LyFilter := ngetD s.ly.flt f flt0
def putFlt (f : Nat) (x : LyFilter) (s : State) : State := { s with ly.flt := nset s.ly.flt f x }

def fltSrc (s : State) (f : Nat) : Nat := bits (rg s .LY_FLT_SRC f) 15 0
def fltClass (s : State) (f : Nat) : Nat := fltSrc s f / 4096
def fltInst (s : State) (f : Nat) : Nat := fltSrc s f % 4096
def fltPeriod (s : State) (f : Nat) : Nat := max 1 (bits (rg s .LY_FLT_SRC f) 31 16) * 1000000
/-- The first time after `t` that is whole periods after a time that has come. -/
def nextDue (due period t : Nat) : Nat := t + period - (t - due) % period

def fltKind (s : State) (f : Nat) : Nat := bits (rg s .LY_FLT_CFG f) 1 0

/-- Saturation at the bounds of a signed 32-bit number (R512). -/
def sat32 (x : Int) : Int := max (-2147483648) (min 2147483647 x)

/-- Arithmetic right shift, rounding toward minus infinity. -/
def asr (x : Int) (k : Nat) : Int := x / (2 ^ k : Nat)

def sgn32 (x : Nat) : Int := (BitVec.ofNat 32 x).toInt

/-- The counter a source of classes 3 to 8 counts (R510); those the model does not hold come with the sample. -/
def fltCounter (s : State) (f x : Nat) : Option Nat :=
  let i := fltInst s f
  match fltClass s f with
  | 3 => some (ctrGet .HM_CE_CNT i 16 s)
  | 4 => some (ctrGet .HM_UE_CNT i 16 s)
  | 5 => some x
  | 6 => some (ctrGet .HF_LK_FEC_UNCORR_CNT i 16 s)
  | 7 => some (linkOf s i).replayed
  | 8 => some x
  | _ => none

/-- The level of a source that is not a counter, in units of 2^-8: a stack's temperature from its controller, the rest as sampled. -/
def fltLevel (s : State) (f x : Nat) : Int := if fltClass s f = 2 then sat32 (256 * (stackAt s (fltInst s f)).temp) else sgn32 x

/-- One step of the filter's arithmetic (R512): EWMA, or SLOPE on the first difference. -/
def fltStep (kind k : Nat) (v : Int) (x : LyFilter) : LyFilter :=
  let d := if kind = 2 then sat32 (v - x.p) else v
  { x with y := sat32 (x.y + asr (sat32 (d - x.y)) k), p := if kind = 2 then v else x.p }

/-- COND (R514): no spare row left on the source channel; the source link below x4. -/
def fltCond (s : State) (f : Nat) : Bool :=
  let c := fltClass s f
  let i := fltInst s f
  match bits (rg s .LY_FLT_CFG f) 8 7 with
  | 1 => !(c == 3 || c == 4) || rowsLeft s i == 0
  | 2 => !(c == 5 || c == 6 || c == 7) || ((linkOf s i).width == 1 || (linkOf s i).width == 2)
  | _ => true

/-! ### Sleep groups (R515-R520) -/

def grp0 : LyGroup := ⟨0, [], none, [], 0⟩
def grpOf (s : State) (g : Nat) : LyGroup := ngetD s.ly.grp g grp0
def putGrp (g : Nat) (x : LyGroup) (s : State) : State := { s with ly.grp := nset s.ly.grp g x }

/-- The domains of a group (R515): compute-die domains only. -/
def grpDoms (s : State) (g : Nat) : List Nat :=
  if s.lay.laid then (List.range 32).filter fun i => bit (ngetD s.lay.img.grpDom g 0) i else []

/-- The groups of the image. -/
def groups (s : State) : List Nat := (List.range 16).filter fun g => grpDoms s g != []

/-- Domains a partition owns something in. -/
def planDoms (l : Lay) (p : Nat) (pl : PartPlan) : List Nat :=
  (pl.groups.map fun g => 8 * (g / 4) + g % 4) ++ (pl.adze.map fun e => 8 * (e / 8) + 4) ++ (pl.text.map fun e => 8 * (e / 4) + 7) ++
  ((l.bankOf.filter fun b => b.2 == p).map fun b => 8 * (b.1 / 16) + 5 + b.1 % 16 / 8) ++
  ((l.ways.filter fun w => w.2 == p).map fun w => 8 * (w.1 / 256) + 5 + w.1 / 16 % 16 / 8)

/-- The partitions of a group. -/
def grpParts (s : State) (g : Nat) : List Nat :=
  ((layParts s.lay.img).filter fun e => (planDoms s.lay.img e.1 e.2).any fun i => (grpDoms s g).contains i).map (·.1)

/-- A partition's summary bit: some SUBMIT ring of it holds an unfetched descriptor. -/
def summaryOf (s : State) (p : Nat) : Bool :=
  s.hp.rings.any fun e => e.2.st != .disabled && ringKind s e.1 == 0 && e.2.p != e.2.c && ringPart s e.1 == some p

/-- Idleness of a group (R516). -/
def grpIdle (s : State) (g : Nat) : Bool :=
  ((grpParts s g).all fun p => !summaryOf s p && !(s.cp.items.any fun i => i.part == p) &&
    !(s.spn.any fun c => c.2.st != 0 && spnPart s c.1 == p)) &&
  (grpDoms s g).all fun i => ((domEngines i).all fun x => (engOf s x.1 x.2).work == 0) && !domHolds s i

/-- Since when each awake group has been idle. -/
def lySweep (s : State) : State :=
  (groups s).foldl (fun s g =>
    let x := grpOf s g
    if x.st ≠ 0 then s
    else if grpIdle s g then (if x.idleAt.isSome then s else putGrp g { x with idleAt := some (now s) } s)
    else if x.idleAt.isSome then putGrp g { x with idleAt := none } s else s) s

def watchIdleNs (s : State) : Nat := 1000 * rg s .LY_WATCH_IDLE_US

/-- Step 1 (R516): the enabled engines drain. The group is idle, so a spare that serves one has nothing in flight and is
DISABLED where it serves. -/
def grpDrain (g : Nat) (s : State) : State :=
  let es := ((grpDoms s g).map domEngines).flatten.filter fun x => (engOf s x.1 x.2).st == .enabled && !inReserve s x
  let s := es.foldl (fun s x =>
    let e := engOf s x.1 x.2
    if e.serves = x.2 then engDrain x.1 x.2 s else putEng x.1 x.2 { e with st := .disabled } s) s
  putGrp g { grpOf s g with st := 1, drained := es, idleAt := none } s

/-- GROUP_IDLE_EXPIRY (R516). -/
def grpIdleOp (g : Nat) (s : State) : State :=
  let x := grpOf s g
  if lyServes s ∧ x.st = 0 ∧ grpDoms s g ≠ [] ∧ grpIdle s g ∧ x.idleAt.any (fun t => decide (t + watchIdleNs s ≤ now s)) = true then grpDrain g s
  else s

/-- Lanyard writes ENABLE 1 to the drained engines of a domain that is ready (R520). -/
def lyEnable (g : Nat) (i : Nat) (s : State) : State :=
  ((grpOf s g).drained.filter fun x => (domEngines i).contains x).foldl (fun s x => engEnable x.1 x.2 true s) s

/-- A waking group with every domain ready is AWAKE. -/
def grpAwake (g : Nat) (s : State) : State :=
  let x := grpOf s g
  if x.st = 3 ∧ x.queue = [] ∧ (grpDoms s g).all (fun i => (domOf s i).ready) then
    putGrp g { x with st := 0, drained := [], idleAt := none } s
  else s

/-- Kind of a compute-die domain in LY_WAKE_ORDER: 0 Billet, 1 text, 2 Lathe, 3 Adze. -/
def domKind (i : Nat) : Nat := match i % 8 with | 4 => 3 | 5 => 0 | 6 => 0 | 7 => 1 | _ => 2

/-- Domains in wake order. -/
def wakeOrder (s : State) (l : List Nat) : List Nat :=
  let o := rg s .LY_WAKE_ORDER
  (([o % 4, o / 4 % 4, o / 16 % 4, o / 64 % 4].eraseDups ++ [0, 1, 2, 3]).eraseDups.map fun k => l.filter fun i => domKind i == k).flatten

/-- Lanyard starts a domain; where a dependency is not ready the start is deferred (R562). -/
def lyStart (i : Nat) (s : State) : State :=
  let x := domOf s i
  if x.st ≠ 0 ∨ x.goal.isSome then s
  else if (domDeps i).all fun k => (domOf s k).ready then domStart i 1 s
  else putDom i ⟨0, some 1, false, true⟩ s

/-- The next domain of a waking group starts. -/
def grpNext (g : Nat) (s : State) : State :=
  match (grpOf s g).queue with
  | [] => s
  | i :: r => lyStart i (putGrp g { grpOf s g with queue := r, lastAt := now s } s)

/-- The domains of a group that are off are started in wake order, the first at once (R520). -/
def grpStart (g : Nat) (s : State) : State :=
  let off := (grpDoms s g).filter fun i => (domOf s i).st == 0 && (domOf s i).goal.isNone
  let s := putGrp g { grpOf s g with st := 3, queue := wakeOrder s off } s
  let s := (grpDoms s g).foldl (fun s i => if (domOf s i).ready then lyEnable g i s else s) s
  grpAwake g (grpNext g s)

/-- A sleeping group wakes. -/
def grpWake (g : Nat) (s : State) : State := if (grpOf s g).st = 2 then grpStart g s else s

/-- Wake causes in the order of R519's table: 0 doorbell, 1 port access, 2 filter, 3 LY_WAKE_AT, 4 demotion. -/
def wakeAll (gs : List Nat) (cause : Nat) (s : State) : State :=
  if gs.any fun g => (grpOf s g).st == 2 then gs.foldl (fun s g => grpWake g s) (ctrAdd .LY_WAKE_CNT cause 16 1 s) else s

def wakePart (p cause : Nat) (s : State) : State := wakeAll ((groups s).filter fun g => (grpParts s g).contains p) cause s

/-- GROUP_DRAINS_COMPLETE (R516 steps 2 and 3, R517). -/
def grpDrainedOp (g : Nat) (s : State) : State :=
  if (grpOf s g).st ≠ 1 ∨ !(grpDoms s g).all (domQuiet s) then s
  else if grpIdle s g then
    let ds := (grpDoms s g).filter fun i => (domOf s i).st != 0
    let s := ((ds.filter fun i => domKind i != 0) ++ ds.filter fun i => domKind i == 0).foldl (fun s i => domReqOff i s) s
    putGrp g { grpOf s g with st := 2 } s
  else grpStart g s

/-- The device leaves watch mode: stacks, SerDes groups and ports leave low power. -/
def leaveWatch (s : State) : State :=
  let s := (List.range 13).foldl (fun s k => if (domOf s (32 + k)).st = 2 then domLow (32 + k) false s else s) s
  { s with ly.watch := false }

/-- An access or a move touches HBM: stacks in self-refresh leave it first (R519). -/
def hbmTouch (cause : Nat) (s : State) : State :=
  let s := { s with ly.hbmAt := now s }
  if s.ly.watch ∨ s.sp.hbm.any (fun x => x.2.selfRefresh) then leaveWatch (ctrAdd .LY_WAKE_CNT cause 16 1 s) else s

/-- WATCH_MODE_ENTRY (R518). -/
def watchOp (s : State) : State :=
  if lyServes s ∧ !s.ly.watch ∧ bit (rg s .LY_CTL) 0 ∧ (groups s).all (fun g => (grpOf s g).st == 2) ∧ s.ht.moves = [] ∧ s.sp.jobs = [] ∧
      s.ly.hbmAt + watchIdleNs s ≤ now s then
    let s := (List.range 13).foldl (fun s k => if (domOf s (32 + k)).st = 1 then domLow (32 + k) true s else s) s
    ctr .LY_WATCH_ENTRY_CNT 16 { s with ly.watch := true }
  else s

/-- A group's wake takes the device out of watch mode first: its domains need the stacks. -/
def wakeAndLeave (f : State → State) (s : State) : State :=
  let t := f s
  if s.ly.watch && s.lay.img.grpDom.any (fun g => (grpOf t g.1).st == 3 && (grpOf s g.1).st == 2) then f (leaveWatch s) else t

/-- DOORBELL_SAMPLE (R519). -/
def doorbellSampleOp (s : State) : State :=
  if lyRuns s then wakeAndLeave (wakeAll ((groups s).filter fun g => (grpParts s g).any (summaryOf s)) 0) s else s

/-- WAKE_AT_EXPIRY (R519, R521): the timer clears when it fires. -/
def wakeAtOp (p : Nat) (s : State) : State :=
  let t := rg64 s .LY_WAKE_AT_LO .LY_WAKE_AT_HI p
  if lyRuns s ∧ t ≠ 0 ∧ t ≤ now s then
    wakeAndLeave (wakePart p 3) (rp .LY_WAKE_AT_HI p 0 0 0 (rp .LY_WAKE_AT_LO p 0 0 0 s))
  else s

/-- DOMAIN_READY (R520, R562). -/
def domainReadyOp (i : Nat) (s : State) : State :=
  let s := domReadyOp i s
  if !(domOf s i).ready then s
  else ((groups s).filter fun g => (grpOf s g).st == 3 && (grpDoms s g).contains i).foldl (fun s g => grpAwake g (lyEnable g i s)) s

/-- WAKE_STAGGER (R520). -/
def staggerOp (g : Nat) (s : State) : State :=
  let x := grpOf s g
  if x.st = 3 ∧ x.lastAt + rg s .LY_WAKE_STAGGER_NS ≤ now s then grpNext g s else s

/-! ### A filter's sample -/

/-- A failure warning (R514, R488). -/
def warnOp (mask : Nat) (s : State) : State :=
  let s := evt Ev.FAILURE_WARNING lyReq mask (ctr .LY_WARN_CNT 16 s)
  ((List.range 16).filter fun p => bit mask p).foldl (fun s p => ckWarn p s) s

/-- The filter trips: logged, and its ACTION runs once. -/
def fltTrip (f : Nat) (s : State) : State :=
  let cfg := rg s .LY_FLT_CFG f
  let s := evt Ev.FILTER_TRIPPED lyReq (f + 64 * ((fltOf s f).y % 4294967296).toNat) (ctrAdd .LY_TRIP_CNT f 16 1 s)
  match bits cfg 10 9 with
  | 1 => wakeAndLeave (wakeAll ((groups s).filter fun g => bit (rg s .LY_FLT_STAT f) (16 + g)) 2) s
  | 2 => warnOp (bits cfg 31 16) s
  | _ => s

/-- HI, LO, HOLD and COND on a new output (R514). -/
def fltTest (f : Nat) (s : State) : State :=
  let x := fltOf s f
  let hi := sgn32 (rg s .LY_FLT_HI f)
  let lo := sgn32 (rg s .LY_FLT_LO f)
  let hold := max 1 (bits (rg s .LY_FLT_CFG f) 14 11)
  if x.tripped then putFlt f { x with tripped := !decide (x.y < lo), run := 0 } s
  else if x.y < hi then putFlt f { x with run := 0 } s
  else if x.run + 1 < hold then putFlt f { x with run := x.run + 1 } s
  else if fltCond s f then fltTrip f (putFlt f { x with tripped := true, run := 0 } s)
  else putFlt f { x with run := 0 } s

/-- FILTER_SAMPLE (R511, R512): the first sample of a counter takes its baseline only. -/
def fltSampleOp (f v : Nat) (s : State) : State :=
  let x := fltOf s f
  let kind := fltKind s f
  if !lyRuns s ∨ !(kind == 1 || kind == 2) ∨ now s < x.due then s
  else
    let s := ctr .LY_SAMPLE_CNT 16 s
    let x := { x with due := nextDue x.due (fltPeriod s f) (now s) }
    let k := min 16 (bits (rg s .LY_FLT_CFG f) 6 2)
    match fltCounter s f v with
    | none => fltTest f (putFlt f { fltStep kind k (fltLevel s f v) x with baseline := false } s)
    | some c =>
      match x.base with
      | none => putFlt f { x with base := some c, baseline := true } s
      | some b =>
        let inc := sat32 (256 * (((c + 2 ^ 64 - b % 2 ^ 64) % 2 ^ 64 : Nat) : Int))
        fltTest f (putFlt f { fltStep kind k inc x with base := some c, baseline := false } s)

/-- A write of LY_FLT_CFG (R511, R513): seeds the filter and takes a new baseline. -/
def fltCfgOp (f v : Nat) (s : State) : State :=
  let s := rp .LY_FLT_CFG f 0 0 v s
  let y := sgn32 (rg s .LY_FLT_SEED f)
  let x : LyFilter := ⟨y, sgn32 (rg s .LY_FLT_SEED_X f), none, false, 0,
    (fltOf s f).tripped && !decide (y < sgn32 (rg s .LY_FLT_LO f)), now s + fltPeriod s f⟩
  putFlt f x s

/-- After a reset of the units that count, filters on their counters take a new baseline (R511); the wheel counts from the new
span time. -/
def fltRebase (was : Nat) (s : State) : State :=
  { s with ly.flt := s.ly.flt.map fun (e : Nat × LyFilter) => (e.1, { e.2 with base := none, due := e.2.due - was })
           ly.hbmAt := 0, ly.teleAt := s.ly.teleAt - was }

/-! ### Telemetry (R532) -/

/-- s16 of an output >> 8, saturating. -/
def out16 (y : Int) : Nat := ((max (-32768) (min 32767 (asr y 8))) % 65536).toNat

def teleBytes (s : State) (power : Nat) : List Byte :=
  leBytes 10 (now s) ++ leBytes 8 (s.uptime / 1000) ++ ((List.range 64).map fun f => leBytes 2 (out16 (fltOf s f).y)).flatten ++
  ((List.range 16).map fun g => leBytes 1 (grpOf s g).st).flatten ++ leBytes 8 power ++ leBytes 86 0

/-- TELEMETRY_CAPTURE. -/
def teleOp (power : Nat) (s : State) : State :=
  if !lyRuns s ∨ now s < s.ly.teleAt then s
  else
    let period := max 1 (rg s .LY_TELE_PERIOD_MS) * 1000000
    { s with ly.tele := nset s.ly.tele (s.ly.teleHead % 256) (teleBytes s power), ly.teleHead := (s.ly.teleHead + 1) % 2 ^ 32
             ly.teleAt := nextDue s.ly.teleAt period (now s), ly.power := power }

/-! ### Inputs and pins (R524, R525, R572) -/

/-- Fuse code of a pin's reset state (R572). -/
def fuseCode (n : Nat) : Nat :=
  if n = 0 then 3 else if n = 1 then 1 else if n < 4 then 0 else if n < 8 then 3 else if n < 16 then 2 else 1

/-- FUNC as it acts: an alternate the pin lacks acts as 0. -/
def pinFunc (s : State) (n : Nat) : Nat :=
  match bits (rg s .LY_PIN_CFG n) 2 0 with | 1 => 1 | 2 => if n < 8 then 2 else 0 | _ => 0

def pinOf (s : State) (n : Nat) : LyPin := ngetD s.ly.pins n ⟨none, none⟩
def putPin (n : Nat) (x : LyPin) (s : State) : State := { s with ly.pins := nset s.ly.pins n x }

/-- Nanoseconds of an LCLK cycle, and of a function switch. -/
def lclkNs : Nat := 5
def switchNs : Nat := 5 * lclkNs

/-- An input's pad level before anything has driven it: what its fuse pull gives. -/
def in0 (n : Nat) : LyInput := ⟨fuseCode n == 1, 0, false, 0, 0⟩
def inOf (s : State) (n : Nat) : LyInput := ngetD s.ly.ins n (in0 n)
def putIn (n : Nat) (x : LyInput) (s : State) : State := { s with ly.ins := nset s.ly.ins n x }

/-- Pad level while the pin holds its fuse state. -/
def fuseLevel (s : State) (n : Nat) : Bool := match fuseCode n with | 3 => false | 4 => true | _ => (inOf s n).level

/-- Pad level under the pin's function. -/
def funcLevel (s : State) (n : Nat) : Bool :=
  match pinFunc s n with
  | 1 => bit (rg s .LY_PIN_CFG n) 3
  | 2 => if 4 ≤ n then bit s.ly.slotPwr (n - 4) else if n = 0 then Config.altLevel n else (inOf s n).level
  | _ => (inOf s n).level

/-- PIN (R525): the fuse state until cycle 4 of a switch, then the new function's level. -/
def padLevel (s : State) (n : Nat) : Bool :=
  match (pinOf s n).sw with
  | some t => if s.uptime < t + 4 * lclkNs then fuseLevel s n else funcLevel s n
  | none => funcLevel s n

/-- A write of LY_PIN_CFG takes effect: a change of FUNC switches the pin. -/
def pinApply (n v : Nat) (s : State) : State :=
  let old := bits (rg s .LY_PIN_CFG n) 2 0
  let s := rp .LY_PIN_CFG n 0 0 v s
  if bits v 2 0 = old then putPin n ⟨none, none⟩ s else putPin n ⟨some s.uptime, none⟩ s

/-- A write during a switch is held; the last stands. -/
def pinWrite (n v : Nat) (s : State) : State :=
  let x := pinOf s n
  if x.sw.isSome then putPin n { x with held := some (BitVec.ofNat 32 v) } s else pinApply n v s

/-- Switches that have ended; a held write is applied. -/
def pinSettle (s : State) : State :=
  (s.ly.pins.filter fun e => match e.2.sw with | some t => decide (t + switchNs ≤ s.uptime) | none => false).foldl (fun s e =>
    let s' := putPin e.1 ⟨none, none⟩ s
    match e.2.held with
    | some v => pinApply e.1 v.toNat s'
    | none => s') s

/-- A pin used as an input. -/
def isInput (s : State) (n : Nat) : Bool := pinFunc s n == 0 && (pinOf s n).sw.isNone

def inPol (s : State) (n : Nat) : Bool := bit (rg s .LY_IN_CFG n) 14
/-- LEVEL: the debounced input is active. -/
def inActive (s : State) (n : Nat) : Bool := isInput s n && (inOf s n).level == inPol s n

/-- LIMITED. -/
def inLimited (s : State) (n : Nat) : Bool := rg s .LY_IN_RATE n != 0 && rg s .LY_IN_RATE n ≤ (inOf s n).cnt && s.uptime / 100000000 == s.ly.win

/-- An event of an input, through the rate limit. -/
def inEvent (n : Nat) (s : State) : State :=
  let x := inOf s n
  let max' := rg s .LY_IN_RATE n
  if max' ≠ 0 ∧ max' ≤ x.cnt then putIn n { x with excess := x.excess + 1 } s
  else evt Ev.INPUT_EVENT lyReq (2 * n + b2n x.level) (ctrAdd .LY_IN_EVENT_CNT n 16 1 (putIn n { x with cnt := x.cnt + 1 } s))

/-- A new window of 100 ms: the counts start again, and what was coalesced is logged. -/
def windowOp (s : State) : State :=
  let w := s.uptime / 100000000
  if w = s.ly.win then s
  else
    let s := { s with ly.win := w }
    s.ly.ins.foldl (fun s e =>
      let s := putIn e.1 { e.2 with cnt := 0, excess := 0 } s
      if e.2.excess = 0 then s
      else evt Ev.INPUT_RATE_LIMITED lyReq (32 * e.2.excess + e.1) (ctrAdd .LY_IN_OVF_CNT e.1 16 e.2.excess s)) s

/-- GPIO_INPUT_CHANGE: the debounced level becomes `v`. -/
def gpioOp (n : Nat) (v : Bool) (s : State) : State :=
  let x := inOf s n
  if x.level = v then s
  else
    let s := putIn n { x with level := v, since := s.uptime } s
    if !lyRuns s ∨ !isInput s n then s
    else if x.stuck then evt Ev.STUCK_CLEARED lyReq n (putIn n { inOf s n with stuck := false } s)
    else if bit (rg s .LY_IN_CFG n) 15 then inEvent n (windowOp s)
    else s

/-- INPUT_STUCK. -/
def stuckOp (n : Nat) (s : State) : State :=
  let x := inOf s n
  let ms := bits (rg s .LY_IN_CFG n) 31 16
  if lyRuns s ∧ inActive s n ∧ !x.stuck ∧ ms ≠ 0 ∧ x.since + 1000000 * ms ≤ s.uptime then
    evt Ev.INPUT_STUCK lyReq n (putIn n { x with stuck := true } s)
  else s

/-! ### The event log's rate (R529) and its entries' bytes (R528) -/

/-- LOG_SUPPRESSED: the end of a second. -/
def logSecondOp (s : State) : State :=
  if s.uptime < s.ly.secAt then s
  else
    let supp := s.evtSupp
    let s := { s with evtRate := [], evtSupp := [], ly.secAt := (s.uptime / 1000000000 + 1) * 1000000000 }
    supp.foldl (fun s e => if e.2 = 0 then s else evt Ev.LOG_SUPPRESSED lyReq (e.1 + 256 * e.2) s) s

/-- An entry's 32 bytes (R528). -/
def evtBytes (e : EvEntry) : List Byte :=
  leBytes 4 e.seq ++ leBytes 10 e.time ++ [Config.evtIndex e.ev.ctorIdx] ++ leBytes 1 e.ev.blk ++ leBytes 1 e.mst ++
  leBytes 1 (e.part % 16 + 16 * b2n e.dev + 32 * b2n e.inj + 64 * b2n e.persist) ++ leBytes 2 0 ++ leBytes 12 e.pay

/-- The entry readable at a place of the log's window (R529). -/
def evtAt (s : State) (k : Nat) : List Byte :=
  match s.evts.find? fun e => e.seq % 4096 == k with
  | some e => evtBytes e
  | none => leBytes 32 0

/-! ### Firmware update (R533, R534) -/

/-- The image in the inactive flash bank. -/
def lyStaged (s : State) : FwImg := if s.ly.bankB then s.pm.chipA.ly else s.pm.chipB.ly

/-- FW_ACTIVATE: Heartwood's check, then both cores enter the new bank. -/
def lyActivateOp (s : State) : State :=
  if !lyRuns s ∨ s.ly.upd.isSome ∨ !fwOk (lyStaged s) then s
  else ctr .LY_FW_ACTIVATE_CNT 16 { s with ly.upd := some (s.uptime, lyStaged s), ly.bankB := !s.ly.bankB }

/-- The cores return to the previous bank. -/
def lyRevert (s : State) : State :=
  if s.ly.upd.isSome then
    evt Ev.LY_FW_REVERTED lyReq 0 (ctr .LY_FW_REVERT_CNT 16 { s with ly.upd := none, ly.bankB := !s.ly.bankB })
  else s

/-- Sets one bit of backup register 0. -/
def backupBit (i : Nat) (v : Bool) (s : State) : State :=
  let x := ngetD s.pm.backup 0 0
  { s with pm.backup := nset s.pm.backup 0 (if v then x ||| 2 ^ i else x - (if bit x i then 2 ^ i else 0)) }

/-- Once the 10 s have passed the new firmware stands: measurement 4 changes and the bank is recorded (R533 step 5, R548). -/
def lyUpdSettle (s : State) : State :=
  match s.ly.upd with
  | some (t, f) => if t + 10000000000 ≤ s.uptime then backupBit 6 s.ly.bankB { s with ly.upd := none, hw.ly := f } else s
  | none => s

/-- What Lanyard does of itself as its clock runs. -/
def lySettle (s : State) : State := lyUpdSettle (pinSettle s)

/-! ### PLDM (R526, R527) -/

/-- The management session a request comes in. -/
def inMgmt (s : State) (v : Via) (sid : Option W32) : Bool :=
  sid.any fun k => s.hw.sess.any fun x => x.id == k.toNat && x.live && x.mgmt && x.via == viaCode v

/-- A PLDM request: carried by MCTP, or inside a session of the management port; `free`: answered without a session. -/
def pldmIn (v : Via) (sid : Option W32) (free : Bool) (f : State → State) (s : State) : State :=
  if v = .doe ∨ !viaOpen s v then s
  else if inMgmt s v sid ∨ (v = .mctp ∧ free) then f s else s

def pldmSend (v : Via) (ty : Nat) (data : List Byte) (s : State) : State := send Mk.pldm [viaCode v, ty] data s

/-- What a sensor reads. -/
def sensorOf (s : State) : LySensor → Int
  | .filter f => (fltOf s f).y
  | .die d => (thermOf s d).temp
  | .stack n => (stackAt s n).temp
  | .power => s.ly.power

def sensorBytes (v : Int) : List Byte := leBytes 4 ((sat32 v) % 4294967296).toNat

/-- The ordering code (R584). -/
def orderCode : List Byte := [0x4A, 0x4E, 0x4B, 0x2D, 0x34, 0x31, 0x36, 0x30, 0x2D, 0x4C, 0x31]

/-- An image staged into the inactive flash bank (R533 step 1). -/
def stageOp (f : FwImg) (s : State) : State :=
  if s.ly.bankB then { s with pm.chipA := { s.pm.chipA with ly := f } } else { s with pm.chipB := { s.pm.chipB with ly := f } }

/-! ### The commands -/

def execFilterSample (f : Fin 64) (x : BitVec 32) (s : State) : Result := .next (fltSampleOp f x.toNat s)
def execFilterCfgWrite (q : Req) (f : Fin 64) (v : W32) (s : State) : Result :=
  .next (regGuard q ⟨.LY_FLT_CFG, f, 0, 0⟩ (fltCfgOp f v.toNat) s)
def execTelemetryCapture (power : W32) (s : State) : Result := .next (teleOp power.toNat s)
def execWakeAtExpiry (p : Fin 16) (s : State) : Result := .next (wakeAtOp p s)
def execDoorbellSample (s : State) : Result := .next (doorbellSampleOp s)
def execGpioInputChange (n : Fin 24) (level : Bool) (s : State) : Result := .next (gpioOp n level s)
def execInputStuck (n : Fin 24) (s : State) : Result := .next (stuckOp n s)
def execRateWindowEnd (s : State) : Result := .next (windowOp s)
def execPinCfgWrite (q : Req) (n : Fin 24) (v : W32) (s : State) : Result :=
  .next (regGuard q ⟨.LY_PIN_CFG, n, 0, 0⟩ (pinWrite n v.toNat) s)
def execLyFwActivate (q : Req) (s : State) : Result := .next (regGuard q ⟨.LY_CTL, 0, 0, 0⟩ lyActivateOp s)
def execLyFwReverted (s : State) : Result := .next (lyRevert s)
def execLogSuppressed (s : State) : Result := .next (logSecondOp s)
def execPldmDiscovery (v : Via) (sid : Option W32) (s : State) : Result := .next (pldmIn v sid true (pldmSend v 0 []) s)
def execPldmSensorRead (v : Via) (sid : Option W32) (x : LySensor) (s : State) : Result :=
  .next (pldmIn v sid true (fun s => pldmSend v 2 (sensorBytes (sensorOf s x)) s) s)
def execPldmEventLogRead (v : Via) (sid : Option W32) (seq : W32) (s : State) : Result :=
  .next (pldmIn v sid false (fun s => pldmSend v 2 (evtAt s (seq.toNat % 4096)) s) s)
def execPldmFruRead (v : Via) (sid : Option W32) (s : State) : Result :=
  .next (pldmIn v sid true (pldmSend v 4 (leBytes 16 Config.uid.toNat ++ leBytes 1 Config.stepping ++ orderCode)) s)
def execPldmFwStage (v : Via) (sid : Option W32) (f : FwImg) (s : State) : Result :=
  .next (pldmIn v sid false (fun s => pldmSend v 5 [] (stageOp f s)) s)
def execPldmOemSignedCmd (v : Via) (sid : Option W32) (op : BitVec 8) (c : List Byte) (sig : Bool) (s : State) : Result :=
  .next (pldmIn v sid false (fun s => pldmSend v 0x3F [] (commandArrives op.toNat false c sig s)) s)

end Sys2Proof.Machine
end

