-- ==== Sys2Proof/Machine/Net.lean ====
section
/-! DEFINITION. The Ethernet ports and RoCEv2 responder (R414-R418, R424), and the far port: sub-ports, enumeration, loss,
the downstream mailbox (R419-R426). -/

namespace Sys2Proof.Machine

/-- A refused access from a port is logged by its kind (R394). -/
def logRefusal (q : Req) (a : Nat) (v : Verdict) (s : State) : State :=
  if v.st = stFaultAccess then evt Ev.ACCESS_VIOLATION q a s
  else if v.st = stAddressHole then evt Ev.ADDRESS_HOLE q a s
  else s

/-! ### Queue pairs (R416, R424) -/

def qp0 : Qp := ⟨.reset, 0, 0, []⟩
def qpOf (s : State) (n : Nat) : Qp := ngetD s.hp.qps n qp0
def putQp (n : Nat) (x : Qp) (s : State) : State := { s with hp.qps := nset s.hp.qps n x }

/-- Fields of a context. -/
def qpPort (x : Qp) : Nat := bAt x.ctx 30 1 % 2
def qpMtu (x : Qp) : Nat := match bits (bAt x.ctx 30 1) 7 4 with | 1 => 1024 | 2 => 2048 | _ => 4096
def qpRing (x : Qp) : Nat := bAt x.ctx 32 2
/-- Region i: key, permissions, base, length in bytes. -/
def qpRegion (c : List Byte) (i : Nat) : Nat × Nat × Nat × Nat :=
  let o := 64 + 16 * i
  (bAt c o 4, bAt c (o + 4) 1, bAt c (o + 8) 6, 65536 * bAt c (o + 14) 2)

/-- What is wrong with a context, by CAUSE; 0 where nothing is (R416, R478). -/
def qpCause (s : State) (c : List Byte) : Nat :=
  if (ringPart s (bAt c 32 2)).any (isConf s) then 4
  else if ringKind s (bAt c 32 2) ≠ 0 ∨ ringPart s (bAt c 32 2) = none then 1
  else if (List.range 4).any fun i =>
      let r := qpRegion c i
      r.2.2.2 != 0 && (overlaps r.2.2.1 r.2.2.2 regBase 0x4000000 || r.2.2.1 % 64 != 0) then 2
  else if bAt c 3 1 ≠ 0 ∨ bAt c 31 1 ≠ 0 ∨ bAt c 34 30 ≠ 0 ∨ !(1 ≤ bits (bAt c 30 1) 7 4 && bits (bAt c 30 1) 7 4 ≤ 3) ∨
      (List.range 4).any (fun i => bAt c (68 + 16 * i) 1 / 4 != 0 || bAt c (69 + 16 * i) 3 != 0) then 3
  else 0

/-- LOAD (R416). A context that cannot be read leaves the QP in ERROR with CAUSE 4. -/
def qpLoadOp (q : Req) (n : Nat) (s : State) : State :=
  regGuard q ⟨.HP_QP_CMD, 0, 0, 0⟩ (fun s =>
    let a := rg64 s .HP_QP_TABLE_LO .HP_QP_TABLE_HI 0 + 128 * n
    match readPlain (unitReq 0x90 16) a 128 s with
    | (v, c, s) =>
      let cause := if hbmEnd < a + 128 ∨ poisoned s a 128 ∨ (v.st ≠ 0 ∧ v.st = stAddressHole) then 4 else qpCause s (rdBytes s a 128)
      let c := if c = [] then rdBytes s a 128 else c
      putQp n { st := if cause = 0 then .ready else .error, cause := cause, epsn := bAt c 4 3, ctx := c } s) s

/-- RESET (R424). -/
def qpResetOp (q : Req) (n : Nat) (s : State) : State :=
  regGuard q ⟨.HP_QP_CMD, 0, 0, 0⟩ (putQp n qp0) s

/-! ### RoCEv2 (R415, R417, R418) -/

/-- NAK codes by syndrome: 0 PSN sequence, 1 invalid request, 2 remote access. -/
def nak (n psn code : Nat) (s : State) : State :=
  send Mk.roceNak [n, psn, code] [] (ctrAdd .HP_ROCE_NAK_CNT code ((ringPart s (qpRing (qpOf s n))).getD 16) 1 s)

/-- What every RoCEv2 packet meets: the count, the CNP of a marked packet (R414), the QP's state, the PSN. `f` gets whether
the packet is a duplicate. -/
def roceIn (n : Nat) (psn : BitVec 24) (ecn : Bool) (f : Bool → Qp → State → State) (s : State) : State :=
  let x := qpOf s n
  let p := (ringPart s (qpRing x)).getD 16
  let s := ctr .HP_ROCE_RX_PKT_CNT p s
  let s := if ecn then send Mk.cnp [n] [] (ctr .HP_CNP_TX_CNT p s) else s
  if x.st ≠ .ready then s
  else
    let ahead := (psn.toNat + 2 ^ 24 - x.epsn) % 2 ^ 24
    if ahead = 0 then f false x s
    else if ahead < 2 ^ 23 then nak n psn.toNat 0 s
    else f true x s

/-- A QP falls to ERROR with a cause, after its NAK. -/
def qpFail (n psn code cause : Nat) (s : State) : State :=
  nak n psn code (putQp n { qpOf s n with st := .error, cause := cause } s)

/-- An access lies inside a region whose key matches and whose permission allows it (R417). -/
def regionOk (x : Qp) (rkey va len : Nat) (wr : Bool) : Bool :=
  (List.range 4).any fun i =>
    let r := qpRegion x.ctx i
    r.1 == rkey && bit r.2.1 (if wr then 1 else 0) && r.2.2.1 ≤ va && va + len ≤ r.2.2.1 + r.2.2.2

/-- The requester of an RDMA access: the port's master ID, the QP's partition tag. -/
def qpReq (s : State) (x : Qp) : Req := unitReq (BitVec.ofNat 8 (0x9E + qpPort x)) ((ringPart s (qpRing x)).getD 0)

/-- Packets a payload of n bytes takes. -/
def packets (x : Qp) (n : Nat) : Nat := max 1 (ceilDiv n (qpMtu x))

/-- RDMA WRITE, with or without immediate (R417). A duplicate is acknowledged and not performed. -/
def rdmaWriteOp (n : Nat) (psn : BitVec 24) (rkey va : Nat) (data : List Byte) (imm : Option W32) (ecn : Bool) (s : State) : State :=
  roceIn n psn ecn (fun dup x s =>
    let ack := send Mk.roceAck [n, psn.toNat] []
    if dup then ack s
    else
      let q := qpReq s x
      let v := if data = [] then okV else accessCheck s q .wr va data.length
      if (data ≠ [] ∧ !regionOk x rkey va data.length true) ∨ v.st ≠ 0 then qpFail n psn.toNat 2 4 (logRefusal q va v s)
      else
        let s := if data = [] then s else wrBytes va data s
        let s := putQp n { x with epsn := (x.epsn + packets x data.length) % 2 ^ 24 } s
        match imm with
        | some v => ack (doorbell q (qpRing x) v s)
        | none => ack s) s

/-- RDMA READ (R415); a duplicate is executed again (R418). -/
def rdmaReadOp (n : Nat) (psn : BitVec 24) (rkey va len : Nat) (ecn : Bool) (s : State) : State :=
  roceIn n psn ecn (fun dup x s =>
    let q := qpReq s x
    let v := accessCheck s q .rd va len
    if !regionOk x rkey va len false ∨ v.st ≠ 0 ∨ poisoned s va len then qpFail n psn.toNat 2 4 (logRefusal q va v s)
    else
      let s := send Mk.roceRead [n, psn.toNat] (rdBytes s va len) s
      if dup then s else putQp n { x with epsn := (x.epsn + packets x len) % 2 ^ 24 } s) s

/-- An opcode the responder does not support (R418). -/
def roceBadOp (n : Nat) (psn : BitVec 24) (ecn : Bool) (s : State) : State :=
  roceIn n psn ecn (fun dup _ s => if dup then s else qpFail n psn.toNat 1 5 s) s

/-! ### Ports (R414) -/

def eth0 : Eth := ⟨false, false, 0, false⟩
def ethOf (s : State) (n : Nat) : Eth := ngetD s.hp.eth n eth0
def putEth (n : Nat) (x : Eth) (s : State) : State := { s with hp.eth := nset s.hp.eth n x }

/-- A port exists where its pair of quads is laid as Ethernet: port k has two quads (R414). -/
def ethLaid (s : State) (n : Nat) : Bool :=
  s.lay.laid && 2 * n < (s.lay.img.quads.filter fun e => e.2 == .eth).length

/-- ARP or neighbour solicitation: answered for the port's own address, dropped otherwise (R414). -/
def arpOp (n : Nat) (v6 : Bool) (addr : BitVec 128) (s : State) : State :=
  let own := if v6 then ngetD s.hp.eth n eth0 |>.ip6 else rg s .HP_ETH_IP4 n
  if ethLaid s n ∧ (ethOf s n).up ∧ own ≠ 0 ∧ own = addr.toNat then
    send Mk.arpReply [n, b2n v6, own, rg64 s .HP_ETH_MAC_LO .HP_ETH_MAC_HI n] [] s
  else ctr .HP_ETH_DROP_CNT 16 s

/-- A PFC frame on the configured priority (R414). -/
def pfcOp (n : Nat) (prio : Nat) (pause : Bool) (s : State) : State :=
  if (ethOf s n).up ∧ prio = rg s .HP_ETH_PFC_PRIO n then putEth n { ethOf s n with paused := pause } s else s

/-- A port gains or loses link; at a loss it takes pending SerDes firmware (R559). -/
def ethLinkOp (n : Nat) (up : Bool) (s : State) : State :=
  if ethLaid s n then
    let x := ethOf s n
    putEth n { x with up := up, paused := x.paused && up, serdes := x.serdes && up } s
  else s

/-! ### The far port (R419-R423, R426) -/

def sub0 : SubPort := ⟨false, false, 0, 0, false, false, none, 0⟩
def subOf (s : State) (n : Nat) : SubPort := ngetD s.hp.subs n sub0
def putSub (n : Nat) (x : SubPort) (s : State) : State := { s with hp.subs := nset s.hp.subs n x }

/-- Sub-ports of the bifurcation in force (R419); a root port has one. -/
def subPorts (s : State) : Nat :=
  if !s.lay.laid then 0 else if !s.lay.img.farMode then 1
  else match s.lay.img.bifur with | 0 => 1 | 1 => 2 | 2 => 3 | _ => 4

/-- A step of R421 fails. -/
def enumFail (n : Nat) (s : State) : State :=
  evt Ev.FP_ENUM_FAILED (unitReq 0x91 16) n (putSub n { subOf s n with failed := true, wait := none } s)

/-- Steps 3 and 4 of R421: the decoder is programmed and the device is PRESENT, its capacity up to 4 TiB. -/
def enumDone (n pages : Nat) (s : State) : State :=
  let d := farOf s n
  putFar n { d with present := true, pages := min pages 0x4000000 } (putSub n { subOf s n with enumd := true, wait := none } s)

/-- FP_SUBPORT_TRAIN (R421): link up, the DVSECs read, Memory_Active, the decoder. In root-port mode nothing is enumerated
(R423). -/
def subTrainOp (n : Nat) (dvsec active decoder : Bool) (pages speed width : Nat) (s : State) : State :=
  if subPorts s ≤ n ∨ speed = 0 then s
  else
    let s := putSub n { sub0 with prsnt := true, up := true, speed := speed, width := width, cap := pages } s
    let s := { s with pm.sdPend := s.pm.sdPend.filter (· != 13) }   -- R559: new SerDes firmware is taken at training
    if !s.lay.img.farMode then s
    else if !dvsec then enumFail n s
    else if !active then putSub n { subOf s n with wait := some (now s) } s
    else if !decoder then enumFail n s
    else enumDone n pages s

/-- MEM_ACTIVE_TIMEOUT (R421). -/
def memActiveOp (n : Nat) (s : State) : State :=
  match (subOf s n).wait with
  | some t => if t + 1000000 * rg s .FP_MEM_ACTIVE_TMO ≤ now s then enumFail n s else s
  | none => s

/-- The link of a sub-port is gone (R422): R139 runs. -/
def farLinkLoss (n : Nat) (s : State) : State :=
  if !(subOf s n).up then s
  else farLostOp n (ctr .FP_LINK_DOWN_CNT 16
    (putSub n { subOf s n with up := false, speed := 0, width := 0, enumd := false, wait := none } s))

/-- A filtered change of presence (R422). -/
def presenceOp (n : Nat) (present : Bool) (s : State) : State :=
  let x := subOf s n
  if subPorts s ≤ n ∨ x.prsnt = present then s
  else farLostOp n (putSub n { x with prsnt := present, up := x.up && present } s)

/-- The mailbox issues a configuration request downstream, whose answer is `a` (R423, R426). -/
def rpCfgOp (q : Req) (a : Answer) (rd : Option W32) (s : State) : State :=
  regGuard q ⟨.FP_RP_CFG_CTL, 0, 0, 0⟩ (fun s =>
    if !s.lay.laid ∨ s.lay.img.farMode ∨ s.hp.rpBusy then s
    else
      let s := send Mk.rpCfg [rg s .FP_RP_CFG_ADDR, b2n rd.isNone, rg s .FP_RP_CFG_DATA] [] s
      match a with
      | .ok => match rd with
        | some v => rp .FP_RP_CFG_DATA 0 0 0 v.toNat { s with hp.rpRes := 0 }
        | none => { s with hp.rpRes := 0 }
      | .timeout => { s with hp.rpRes := 2 }
      | _ => { s with hp.rpRes := 1 }) s

/-- A Type 3 device's event record is logged (R421). -/
def cxlEventOp (n : Nat) (bs : List Byte) (s : State) : State :=
  if (subOf s n).enumd then evt Ev.CXL_EVENT (unitReq 0x91 16) (n + 4 * leNat (bs.take 8)) s else s

/-! ### The commands -/

def execRdmaWrite (qp : BitVec 12) (psn : BitVec 24) (rkey : W32) (va : W64) (data : List Byte) (ecn : Bool) (s : State) : Result :=
  .next (rdmaWriteOp qp.toNat psn rkey.toNat va.toNat data none ecn s)
def execRdmaWriteImm (qp : BitVec 12) (psn : BitVec 24) (rkey : W32) (va : W64) (data : List Byte) (imm : W32) (ecn : Bool)
    (s : State) : Result := .next (rdmaWriteOp qp.toNat psn rkey.toNat va.toNat data (some imm) ecn s)
def execRdmaRead (qp : BitVec 12) (psn : BitVec 24) (rkey : W32) (va : W64) (len : Nat) (ecn : Bool) (s : State) : Result :=
  .next (rdmaReadOp qp.toNat psn rkey.toNat va.toNat len ecn s)
def execRoceUnsupportedOp (qp : BitVec 12) (psn : BitVec 24) (ecn : Bool) (s : State) : Result := .next (roceBadOp qp.toNat psn ecn s)
def execArpRequest (n : Fin 2) (v6 : Bool) (addr : BitVec 128) (s : State) : Result := .next (arpOp n v6 addr s)
def execQpLoad (q : Req) (qp : BitVec 12) (s : State) : Result := .next (qpLoadOp q qp.toNat s)
def execQpReset (q : Req) (qp : BitVec 12) (s : State) : Result := .next (qpResetOp q qp.toNat s)
def execFpSubportTrain (n : Fin 4) (dvsec : Bool) (active : Bool) (decoder : Bool) (pages : Nat) (speed : BitVec 2) (width : BitVec 5)
    (s : State) : Result := .next (subTrainOp n dvsec active decoder pages speed.toNat width.toNat s)
def execFpRpCfgRead (q : Req) (a : Answer) (v : W32) (s : State) : Result := .next (rpCfgOp q a (some v) s)
def execFpRpCfgWrite (q : Req) (a : Answer) (s : State) : Result := .next (rpCfgOp q a none s)
def execEthernetLinkChange (n : Fin 2) (up : Bool) (s : State) : Result := .next (ethLinkOp n up s)
def execPfcPauseFrame (n : Fin 2) (prio : BitVec 3) (pause : Bool) (s : State) : Result := .next (pfcOp n prio.toNat pause s)
def execCxlEventRecord (n : Fin 4) (rec : List Byte) (s : State) : Result := .next (cxlEventOp n rec s)

end Sys2Proof.Machine
end

