-- ==== Sys2Proof/Machine/Reset.lean ====
section
/-! DEFINITION. The three reset levels (R537-R545), the start (R540, R546, R547, R550), recovery (R552-R554) and BOOT_GOOD
(R551). -/

namespace Sys2Proof.Machine

/-! ### PM_RESET_CAUSE, the backup registers and the reset history (R538, R539, R548, R549) -/

/-- PM_RESET_CAUSE as it reads. -/
def causeWord (s : State) : Nat := s.pm.level + 256 * s.pm.source + 65536 * b2n s.pm.multiple

def backup0 (s : State) : Nat := ngetD s.pm.backup 0 0
def putBackup (k v : Nat) (s : State) : State := { s with pm.backup := nset s.pm.backup k v }
/-- Failed starts (backup register 0). -/
def failedStarts (s : State) : Nat := backup0 s % 8

/-- A record of the reset history: span time, cause, failed starts. -/
def histPut (t : Nat) (s : State) : State :=
  let r := leBytes 10 t ++ leBytes 4 (causeWord s) ++ leBytes 1 (failedStarts s) ++ leBytes 17 0
  { s with pm.hist := (s.pm.hist ++ [r]).drop (s.pm.hist.length + 1 - 1024), pm.histHead := (s.pm.histHead + 1) % 1024 }

/-- A reset of a level from a source, at span time `was`: MULTIPLE where it is not the first trigger since READY. -/
def newCause (lvl src was : Nat) (s : State) : State :=
  let old := causeWord s
  let n := s.pm.trigs + 1
  histPut was (putBackup 1 old { s with pm.level := lvl, pm.source := src, pm.multiple := 1 < n, pm.trigs := n })

/-! ### What a system reset clears (R537) -/

/-- Registers a system reset spares: the filters' (R513) and backup registers 8-15. -/
def keepReg (o : Nat) : Bool := (0x800 ≤ o && o < 0x1000) || (0x1000440 ≤ o && o < 0x1000480)

/-- Contents of a far-port device: not the device's own. -/
def farMem (m : List Host.Cell) : List Host.Cell := m.filter fun c => farBase ≤ c.1 && c.1 < farEnd

/-- The state at the assertion of a system reset: everything else is as at power-on. -/
def sysState (s : State) : State :=
  let r := State.reset
  fltRebase (now s)
    { r with
      pending := s.pending, uptime := s.uptime, fv := s.fv, regs := s.regs.filter fun e => keepReg e.1
      mem := farMem s.mem, hmem := s.hmem, evts := s.evts, evtSeq := s.evtSeq, evtRate := s.evtRate, evtSupp := s.evtSupp
      journal := s.journal, tx := s.tx, recs := s.recs, tap := s.tap
      ly := { s.ly with grp := [], watch := false, hbmAt := 0, bankB := bit (backup0 s) 6, upd := none, pins := [], slotPwr := 0
                        ins := s.ly.ins.map fun (e : Nat × LyInput) => (e.1, { e.2 with stuck := false }) }
      lay := { r.lay with retired := s.lay.retired, spareLeft := s.lay.spareLeft, spared := s.lay.spared
                          rowsLeft := s.lay.rowsLeft, rowsSpared := s.lay.rowsSpared }
      hw := { r.hw with fuses := s.hw.fuses }
      hp := { r.hp with subs := s.hp.subs.map fun (e : Nat × SubPort) => (e.1, { sub0 with prsnt := e.2.prsnt }) }
      hf := { r.hf with devId := ngetD s.pm.backup 2 0 % 65536 }
      pm := { r.pm with
              stbyOk := s.pm.stbyOk, mainOk := s.pm.mainOk, mainEn := s.pm.mainEn, rstLow := s.pm.rstLow, enAt := s.pm.enAt
              offHold := s.pm.offHold, tripLow := s.pm.tripLow, level := s.pm.level, source := s.pm.source
              multiple := s.pm.multiple, trigs := s.pm.trigs, mean := s.pm.mean, spread := s.pm.spread, chipA := s.pm.chipA
              chipB := s.pm.chipB, flash := s.pm.flash, erased := s.pm.erased, backup := s.pm.backup, coreCnt := s.pm.coreCnt
              coreWin := s.pm.coreWin, ret := s.pm.ret, hist := s.pm.hist, histHead := s.pm.histHead, lowTo := s.pm.lowTo
              therm := s.pm.therm.map fun (e : Nat × Therm) => (e.1, { e.2 with level := 0, coolAt := 0 }) } }

/-! ### Step 1: CFG_SEL and the count of starts (R546, R547, R550) -/

/-- Boot slot of a band; the last good slot, else A, where the band says so. -/
def bandSlot (s : State) (b : Nat) : Nat :=
  if 7 ≤ b ∧ b ≤ 12 then 1 else if (b = 13 ∨ b = 14) ∧ bit (backup0 s) 5 then b2n (bit (backup0 s) 4) else 0
/-- Host-port role: 1 is C. -/
def bandRole (b : Nat) : Nat := if (4 ≤ b ∧ b ≤ 6) ∨ (10 ≤ b ∧ b ≤ 12) then 1 else 0
/-- Management default. -/
def bandMgmt (b : Nat) : Nat := if 1 ≤ b ∧ b ≤ 12 then (b - 1) % 3 else if b = 14 then 1 else 0

def step1 (s : State) : State :=
  let band := s.pm.mean / 256
  let unstable := decide (128 < s.pm.spread)
  let s := if unstable then evt Ev.CFG_SEL_UNSTABLE lyReq s.pm.spread s else s
  let r0 := backup0 s
  let r0 := if bit r0 3 then r0 / 16 * 16 else r0
  let rcv := band = 0 ∨ 15 ≤ band ∨ unstable ∨ 4 ≤ r0 % 8
  let s := putBackup 0 (if rcv then r0 else r0 + 1) s
  let s := if rcv then ctr .PM_RECOVERY_CNT 16 s else ctr .PM_FAILED_START_CNT 16 s
  ctr .PM_START_CNT 16
    { s with pm.band := band, pm.slot := bandSlot s band, pm.role := bandRole band, pm.mgmt := bandMgmt band
             pm.recovery := rcv, pm.step := 1 }

/-! ### Step 2: firmware (R465, R554) -/

/-- The first of a list of (place, image) that passes its check, and the places that failed before it. -/
def firstOk : List (Nat × FwImg) → Option (Nat × FwImg) × List Nat
  | [] => (none, [])
  | x :: r => if fwOk x.2 then (some x, []) else let t := firstOk r; (t.1, x.1 :: t.2)

/-- A failed check enters the reset history and, once Lanyard firmware runs, the event log. Kinds: 0 Heartwood, 1 Lanyard,
2 spine, 3 SerDes. -/
def fwFail (kind : Nat) (places : List Nat) (s : State) : State :=
  places.foldl (fun s k =>
    histPut (now s) (if s.pm.lyDead || s.pm.romRec then s else evt Ev.FW_CHECK_FAILED lyReq (kind + 16 * k) s)) s

/-- The operator key store: the copy at the fuse counter's value (R479). -/
def loadStore (s : State) : State :=
  match [s.pm.chipA.store, s.pm.chipB.store].find? fun c => c.any fun x => x.1 == s.hw.fuses with
  | some (some x) => { s with hw.store := x.2, hw.storeOk := true }
  | _ => { s with hw.store := [], hw.storeOk := false }

/-- A fresh scratch key (R477). -/
def freshScratch (s : State) : State :=
  let k := fresh s
  { k.2 with hw.scratch := k.1 }

/-- ROM recovery (R554): only the host port, the PM and LY_EVT blocks and the boot flash are served. A start in recovery mode
was not counted; it counts as failed here. -/
def romRecovery (s : State) : State :=
  let s := if s.pm.recovery then putBackup 0 (backup0 s / 8 * 8 + min 4 (failedStarts s + 1)) s else s
  { s with pm.romRec := true, pm.recovery := false, ax.inReset := (List.range 21).filter fun b => b != 0x10 && b != 0x11 }

/-- The Lanyard bank in use: the one backup register 0 names, else the other, which is then recorded. -/
def bootLanyard (s : State) : State × List Nat :=
  let a := (0, s.pm.chipA.ly)
  let b := (1, s.pm.chipB.ly)
  let t := firstOk (if bit (backup0 s) 6 then [b, a] else [a, b])
  match t.1 with
  | some x => (backupBit 6 (x.1 == 1) { s with ly.bankB := x.1 == 1, hw.ly := x.2 }, t.2)
  | none => ({ s with pm.lyDead := true }, t.2)

/-! ### Steps 5 to 10 -/

/-- The fixed layout of recovery mode (R552): rings 0 and 1 for PF0, stacks S0 and S1, Q0's text group, no Harah. -/
def recoveryPlan (rings : Bool) : PartPlan :=
  { enable := true, slotBase := 0, slotCount := 0, descBase := 0, clsBase := 0, clsCount := 0, meterBase := 0, meterCount := 0
    qlimit := 0, rings := if rings then [(0, 1)] else [], shares := [], channels := List.range 64, freeRuns := [], spillBase := 0
    spillKib := 0, spillPool := 0, nodeMax := 0, pfxCeil := 0, groups := [], adze := [], text := List.range 4, btCtx := 0
    gramCeil := 0, progMax := 0, ringCeil := 0, billetCeil := [], pageCeil := [], idxMax := 0, mergeBase := 0, mergePages := 0
    ownerPreset := none, conf := false }

/-- Access entries of recovery mode: PF0 in the LY, HW, WH, PM and LY_EVT blocks and the doorbells; the ring block and Q0's
Whittle engines in the channels of S0 and S1. -/
def recoveryAx : NMap W32 :=
  ([352, 353, 361, 368, 369, 320].map fun t => (256 * t + 0x90, (0xB0000 : W32))).foldl (fun m e => nset m e.1 e.2)
    (((List.range 64).map fun t => [0x30, 0x31, 0x32, 0x33, 0xA3].map fun m => (256 * t + m, (0x30001 : W32))).flatten)

def recoveryLay (rings : Bool) : Lay := { emptyLay with parts := [(0, recoveryPlan rings)], ax := recoveryAx }

/-- Recovery's rings: a pair, and EXTERNAL allowed for Whittle (R552). -/
def recoveryRings (s : State) : State :=
  rp .WH_PART_CFG 0 0 0 3 (rp .DB_CFG 0 0 0 (0x80 + 0x400) (rp .DB_CFG 1 0 0 (0x80 + 0x8) s))

/-- Applies the image of the selected flash slot (R370). -/
def layBoot (x : LayImg) (s : State) : State :=
  let c := layCause s none x
  if c ≠ 0 then layRefuse c 16 s
  else
    let l : Lay := { x.lay with serial := x.serial }
    let s := { s with lay.laid := true, lay.img := l, lay.floor := if x.raise then max s.lay.floor x.serial else s.lay.floor }
    let s := (layParts l).foldl (fun s e => plogStart e.1 l.digest e.2.conf (initPart e.1 e.2 (freshKeys e.1 s))) s
    evt Ev.LAY_APPLIED (unitReq 0xF0 16) x.serial (ctr .HW_LAY_APPLY_CNT 16 s)

/-- Domains powered in recovery mode (R552): Lanyard, Heartwood, spine, S0 and S1, Q0's Billet halves and text group, the host
port. -/
def recoveryDoms : List Nat := [47, 46, 45, 32, 33, 5, 6, 7, 43]

/-- Domains powered at a start (R563). -/
def bootDoms (s : State) : List Nat :=
  if s.pm.recovery then recoveryDoms else (List.range 48).filter fun i => !(s.pm.sdDead && 40 ≤ i && i ≤ 44 && i != 43)

def powerDoms (s : State) : State :=
  (bootDoms s).foldl (fun s i =>
    let s := ctrAdd .PM_DOM_ON_CNT i 16 1 (putDom i ⟨1, none, true, false⟩ s)
    if 32 ≤ i ∧ i < 40 then putStack (i - 32) { stackAt s (i - 32) with ready := true } s else s) s

/-- The retirement list: retired engines stay fenced and spares take over; a retired channel that no spare replaces is gone. -/
def applyRetired (s : State) : State :=
  let engs := s.lay.retired.filter fun r => r.1 != 0x13
  let s := engs.foldl (fun s r => putEng r.1 r.2 { eng0 r.2 with st := .fenced, retired := true } s) s
  let s := engs.foldl (fun s r => substitute r.1 r.2 s) s
  (s.lay.retired.filter fun r => r.1 == 0x13 && !s.lay.spared.contains r.2).foldl (fun s r => chanGone r.2 s) s

/-- Every instance the image assigns is served, by itself or by a spare (R551). -/
def selfTestOk (s : State) : Bool :=
  let served (b e : Nat) : Bool := !((engOf s b e).retired || (engOf s b e).st == .fenced) || (engOf s b e).subst
  (layParts s.lay.img).all fun x =>
    (x.2.groups.all fun g => (List.range 16).all fun e => served 6 (16 * g + e)) && (x.2.adze.all (served 8)) &&
    (x.2.text.all fun e => [9, 0xA, 0xB, 0xC].all fun b => served b e) && (x.2.channels.all fun t => !s.lay.chFenced.contains t)

/-- Steps 3 to 11 (R540), once firmware has passed. -/
def bootRest (s : State) : State :=
  let s := powerDoms (freshScratch (freshNonce s))
  let s := { s with pm.step := 6 }
  let s := if s.pm.recovery then
      (let s := { s with lay.laid := true, lay.img := recoveryLay (!s.pm.ringsOff) }
       if s.pm.ringsOff then s else recoveryRings s)
    else layBoot (chipOf s s.pm.slot).lay s
  let s := { s with pm.step := 8 }
  let s := send Mk.drs [] [] (if s.pm.recovery || s.pm.sdDead then s else linksUp s)
  let s := if lyRuns s then { s with ly.slotPwr := 2 ^ subPorts s - 1 } else s
  let s := applyRetired s
  { s with pm.step := 11, pm.trigs := 0, ax.inReset := [] }

/-- Steps 2 and on: a start outside recovery fails where the selected slot's spine or SerDes image does (R554). -/
def boot (s : State) : State :=
  let sel := s.pm.slot
  let both (f : FlashChip → FwImg) : List (Nat × FwImg) := [(sel, f (chipOf s sel)), (1 - sel, f (chipOf s (1 - sel)))]
  let one (f : FlashChip → FwImg) : List (Nat × FwImg) := if s.pm.recovery then both f else [(sel, f (chipOf s sel))]
  let hw := firstOk (both (·.hw))
  match hw.1 with
  | none => let t := romRecovery s; fwFail 0 hw.2 t
  | some h =>
    let s := loadStore { s with hw.ready := true, hw.fw := h.2, hw.fwSlot := h.1 }
    let ly := bootLanyard s
    let s := fwFail 1 ly.2 (fwFail 0 hw.2 ly.1)
    let sp := firstOk (one (·.spine))
    let sd := firstOk (one (·.serdes))
    let s := fwFail 3 sd.2 (fwFail 2 sp.2 s)
    if !s.pm.recovery && (sp.1.isNone || sd.1.isNone) then s
    else
      let s := match sp.1 with
        | some x => { s with hw.spine := x.2 }
        | none => { s with pm.ringsOff := true }
      let s := match sd.1 with
        | some x => { s with hw.serdes := x.2 }
        | none => { s with pm.sdDead := true }
      bootRest s

/-- The end of step 1: MAIN_PWR_EN rises unless something holds it low; the start goes on once the main rails are up (R574). -/
def powerUp (s : State) : State :=
  if s.pm.step ≠ 1 ∨ s.pm.offHold ∨ s.pm.tripLow ∨ s.uptime < s.pm.lowTo then s
  else
    let s := if s.pm.mainEn then s else { s with pm.mainEn := true, pm.enAt := s.uptime }
    if s.pm.mainOk then boot s else s

/-- A start: nothing while SYS_RST_N is low; held at the end of step 1 after a management power-off (R577). -/
def start (s : State) : State :=
  if !s.pm.stbyOk ∨ s.pm.rstLow then s
  else if s.pm.offHold then { s with pm.step := 1 }
  else powerUp (step1 s)

/-- MAIN_PWR_EN, held low for a time, rises by itself. -/
def pmSettle (s : State) : State :=
  if s.pm.stbyOk ∧ s.pm.step = 1 ∧ !s.pm.mainEn ∧ !s.pm.rstLow then powerUp s else s

/-- A system reset (R537, R538): from step 1, whatever is in progress. -/
def sysReset (src : Nat) (s : State) : State :=
  if !s.pm.stbyOk then s else start (newCause 2 src (now s) (sysState s))

/-! ### Core reset (R544, R545) -/

/-- Spine, Billet and engine blocks. -/
def coreBlocks : List Nat := [2, 3, 4, 5, 6, 7, 8, 9, 0xA, 0xB, 0xC]

/-- Registers of Capstan that are not written through (R363). -/
def capstanPlain (o : Nat) : Bool :=
  o == 0x300100 || o == 0x300140 || o == 0x300180 || (0x302000 ≤ o && o < 0x302400 && o % 64 == 0x14)

/-- Registers a core reset returns to their reset values. -/
def coreReg (o : Nat) : Bool :=
  0x2000000 ≤ o || (coreBlocks.contains (o / 0x100000) && (o / 0x100000 != 3 || capstanPlain o))

/-- A move in progress (R104): its slot returns to the state before; a copied migration waits to be asked for (R95), an
incomplete one is freed. -/
def coreMove (s : State) (m : Move) : State :=
  match s.ht.migIn.find? fun i => i.slot == m.slot with
  | some i =>
    if i.complete then
      { s with ht.migIn := s.ht.migIn.map fun y =>
                 if y.slot == m.slot then { y with askAt := now s + 1000 * rg s .HT_MIG_RETRY } else y }
    else migFree m.slot s
  | none =>
    let x := slotOf s m.slot
    let s := m.dst.foldl (fun s e => releaseBlk x.part m.slot x.gen e.2 s) (dropMove m.slot s)
    let s := if m.tier = 4 ∧ m.why ≠ .command then
        { s with sp.swap := nset s.sp.swap x.part (ngetD s.sp.swap x.part [] ++ m.exts) } else s
    commitSlot m.slot { x with st := x.before, dir := .none, revived := false } s

/-- A slot in STEPPING returns to ACTIVE (R104); held commands are gone. -/
def coreSlot (s : State) (n : Nat) : State :=
  let x := slotOf s n
  match x.step with
  | some st =>
    let s := st.newBlks.foldl (fun s e => releaseBlk x.part n x.gen e.2 s) s
    commitSlot n { x with st := .active, step := none, held := [], revived := false, stepAt := none } s
  | none => if x.held = [] then s else { s with ht.slots := nset s.ht.slots n { x with held := [] } }

/-- Hitch rebuilds itself from its descriptors (R104, R180). -/
def coreHitch (s : State) : State :=
  let s := s.ht.moves.foldl coreMove s
  let s := (s.ht.slots.map (·.1)).foldl coreSlot s
  { s with ht.migOut := [], ht.activeA := true, ht.aFenced := false, ht.bFenced := false, ht.inStep := true, ht.resync := false
           ht.journal := [], ht.waiting := [], ht.epoch := s.ht.epoch + 1, pfx.member := [] }

/-- An image slot at the release: READY is verified again; a load or an unload in progress leaves the slot EMPTY. -/
def coreImg (x : ImgSlot) (s : State) : ImgSlot × State :=
  match x.st with
  | .ready | .verifying => ({ x with st := .verifying, cmd := none }, s)
  | .empty => (x, s)
  | _ => (img0, dropCopies x s)

/-- Every slot of every kind (R235, R302, R316). -/
def coreImages (s : State) : State :=
  let s := s.wh.voc.foldl (fun s v => let t := coreImg v.2 s; putVoc v.1 t.1 t.2) s
  let s := s.bt.gram.foldl (fun s g => let t := coreImg g.2 s; putGram (g.1 / 16) (g.1 % 16) t.1 t.2) s
  let s := s.ad.progs.foldl (fun s k =>
    match k.2.st with
    | .ready | .verifying => putProg (k.1 / 256) (k.1 % 256) { k.2 with st := .verifying, cmd := none } s
    | .empty => s
    | _ => putProg (k.1 / 256) (k.1 % 256) prog0 (dropProg k.2 s)) s
  s.sk.idx.foldl (fun s k =>
    match k.2.st with
    | .ready | .verifying => putIdx (k.1 / 64) (k.1 % 64) { k.2 with st := .verifying, cmd := none } s
    | .empty => s
    | _ => putIdx (k.1 / 64) (k.1 % 64) idx0 s) s

/-- The units' own tables. -/
def coreUnits (s : State) : State :=
  { s with
    hp := { s.hp with rings := [], dma := [] }
    cp := { s.cp with items := [], vt := [], tags := [], ePrev := [], accSel := [], mtrSel := [], served := [], preempt := []
                      meters := s.cp.meters.map fun (e : Nat × Meter) => (e.1, { e.2 with used := false }) }
    sp := { s.sp with jobs := [], heldNotes := [], revOrder := []
                      hbm := s.sp.hbm.map fun (e : Nat × Stack) => (e.1, { e.2 with selfRefresh := false }) }
    la := { reqs := [], spills := [] }
    spn := s.spn.map fun (e : Nat × SpnCtx) => if e.2.st = 0 then e else
      (e.1, { e.2 with st := 0, failCause := 8, reqs := [], fills := [], held := [], sent := 0, rx := 0 })
    wh := { s.wh with xc := [], streams := s.wh.streams.map fun (e : Nat × Strm) => (e.1, { e.2 with chunks := [] }) }
    bt := { s.bt with gens := s.bt.gens.map fun (e : Nat × Gen) => (e.1, { e.2 with run := none }) }
    ad := { s.ad with runs := [], noSpec := [] }
    sk := { s.sk with runs := [], holds := [] } }

/-- Own requests over Harah that are not a mailbox's: their responses will be dropped (R383). -/
def unitHf (r : HfReq) : Bool := match r.what with | .mailbox _ => false | _ => true

/-- Epochs, registers, counters and captures of the blocks (R544 step 1, R60). -/
def coreRegs (s : State) : State :=
  let core (b : Nat) : Bool := coreBlocks.contains b
  let lost := (s.hf.reqs.filter unitHf).length
  let ep := ((List.range 389).filter fun t => core (tgtBlock t) || (320 ≤ t && t < 352)).foldl (fun m t => nmod m t 0 (· + 1)) s.ax.epoch
  { s with
    regs := s.regs.filter fun e => !coreReg e.1
    ctr := s.ctr.filter fun e => !core (Ct.blk (Ct.ofNat (e.1 / 2 ^ 24)))
    hf := { s.hf with reqs := s.hf.reqs.filter fun r => !unitHf r }
    ax := { s.ax with
            epoch := ep
            unitEp := coreBlocks.foldl (fun m b => nmod m b 0 (· + 1)) s.ax.unitEp
            capSeq := s.ax.capSeq.filter fun e => !core (e.1 / 32), capTs := s.ax.capTs.filter fun e => !core (e.1 / 32)
            capVal := s.ax.capVal.filter fun e => !core (e.1 / 32)
            parity := s.ax.parity.filter fun e => !core e.1, parInst := s.ax.parInst.filter fun e => !core (e.1 / 4096)
            unitFenced := s.ax.unitFenced.filter fun b => !core b
            owed := if lost = 0 then [] else [(4, (lost, now s))] } }

/-- Sleeping groups wake and the stacks leave self-refresh. -/
def coreDoms (s : State) : State :=
  let s := (s.sp.hbm.filter fun e => e.2.ready && !e.2.selfRefresh).foldl (fun s e => ctrAdd .HM_SR_ENTRY_CNT e.1 16 1 s) s
  let on := (List.range 32).filter fun i => (domOf s i).st == 0 && !s.pm.recovery
  let s := on.foldl (fun s i => ctrAdd .PM_DOM_ON_CNT i 16 1 (putDom i ⟨1, none, true, false⟩ s)) s
  let s := (List.range 13).foldl (fun s k => if (domOf s (32 + k)).st = 2 then putDom (32 + k) { domOf s (32 + k) with st := 1 } s else s) s
  { s with ly.grp := [], ly.watch := false }

def coreReset (src : Nat) (s : State) : State :=
  let s := newCause 3 src (now s) s
  let s := (List.range 16).foldl (fun s p => ckEnd p 8 s) s
  let s := coreDoms (coreImages (coreHitch s))
  let s := coreRegs (coreUnits s)
  let s := { s with engs := [], lay.instBusy := none, mem := s.mem.filter fun c => c.1 < billetBase || billetEnd ≤ c.1 }
  let s := applyRetired (if s.pm.recovery && !s.pm.ringsOff then recoveryRings s else s)
  ctr .PM_CORE_RESET_CNT 16 { s with pm.trigs := 0 }

/-- A core trigger (R538, R543): discarded before READY; the window of 60 s counts core resets, and at the limit a system
reset is made instead. -/
def coreTrigger (src : Nat) (s : State) : State :=
  if s.pm.step ≠ 11 then
    if s.pm.step = 0 then s
    else evt Ev.CORE_RESET_IGNORED lyReq src { s with pm.trigs := s.pm.trigs + 1, pm.multiple := true }
  else
    let old := s.pm.coreCnt = 0 ∨ s.pm.coreWin + 60000000000 ≤ s.uptime
    let n := if old then 0 else s.pm.coreCnt
    let win := if old then s.uptime else s.pm.coreWin
    let lim := bits (rg s .PM_CORE_LIMIT) 7 0
    if lim ≠ 0 ∧ lim ≤ n then ctr .PM_ESCALATE_CNT 16 (sysReset 0x19 s)
    else
      coreReset src (putBackup 4 (min 65535 (n + 1) + 65536 * (win / 1000 % 2 ^ 48)) { s with pm.coreCnt := n + 1, pm.coreWin := win })

/-! ### Pins and power (R542, R574-R577, R566) -/

/-- STBY_PWR_OK falls (R537): power-on reset. Flash, fuses, host memory and far-port devices are not the device's to clear. -/
def powerLoss (s : State) : State :=
  let r := State.reset
  { r with pending := s.pending, fv := s.fv, hmem := s.hmem, journal := s.journal, tx := s.tx, recs := s.recs, mem := farMem s.mem
           lay := { r.lay with retired := s.lay.retired }, hw := { r.hw with fuses := s.hw.fuses }
           pm := { r.pm with chipA := s.pm.chipA, chipB := s.pm.chipB, flash := s.pm.flash, erased := s.pm.erased } }

/-- STBY_PWR_OK rises (R540, R574). -/
def stbyRise (st : Start) (s : State) : State :=
  if s.pm.stbyOk then s
  else
    let s := match st.chips with
      | some c => { s with pm.chipA := c.1, pm.chipB := c.2 }
      | none => s
    start (histPut 0 { s with pm.stbyOk := true, pm.mean := st.mean.toNat, pm.spread := st.spread.toNat, pm.trigs := 1 })

/-- MAIN_PWR_OK rises: Heartwood is released where step 1 is over and MAIN_PWR_EN is high. -/
def mainRise (s : State) : State :=
  if s.pm.mainOk then s
  else
    let s := { s with pm.mainOk := true }
    if s.pm.mainEn ∧ s.pm.step = 1 ∧ s.pm.stbyOk ∧ !s.pm.rstLow then powerUp s else s

/-- MAIN_PWR_OK falls (R576): a system reset, unless the device itself holds MAIN_PWR_EN low. -/
def mainFall (s : State) : State :=
  if !s.pm.mainOk then s
  else
    let s := { s with pm.mainOk := false }
    if s.pm.mainEn then
      sysReset 0x10 { s with pm.mainEn := false, pm.lowTo := s.uptime + 100000000 }
    else s

/-- MAIN_PWR_TIMEOUT (R575). -/
def mainTimeout (s : State) : State :=
  if s.pm.mainEn ∧ !s.pm.mainOk ∧ s.pm.enAt + 500000000 ≤ s.uptime then
    evt Ev.MAIN_PWR_TIMEOUT lyReq 0 { s with pm.enAt := s.pm.enAt + 500000000 }
  else s

/-- A low pulse of SYS_RST_N (R542): `held` while the pin has not risen yet. -/
def rstPulse (ns : Nat) (held : Bool) (s : State) : State :=
  if !s.pm.stbyOk then s
  else if ns < 100 then ctr .PM_SYS_RST_N_REJECT_CNT 16 s
  else sysReset 0x11 { s with pm.rstLow := held, pm.offHold := false }

/-- A management power-off (R577). -/
def powerOff (s : State) : State := sysReset 0x15 { s with pm.offHold := true, pm.mainEn := false }

/-- A management power-on leaves the standby (R577). -/
def powerOn (s : State) : State := if s.pm.offHold then start { s with pm.offHold := false } else s

/-- THERMTRIP (R566): every domain but Lanyard's is switched off; the start holds at step 1. -/
def thermtripOp (s : State) : State :=
  if s.pm.tripLow ∨ !s.pm.stbyOk then s else sysReset 0x18 { s with pm.tripLow := true, pm.mainEn := false }

/-- Every die sensor reads 95 degrees or below: THERMTRIP_N is released. -/
def thermtripCooledOp (s : State) : State :=
  if s.pm.tripLow then powerUp { s with pm.tripLow := false } else s

/-! ### BOOT_GOOD and RECOVERY_DONE (R551, R553) -/

/-- LAID of PM_BOOT_STAT. -/
def laidBit (s : State) : Bool := s.lay.laid && !s.pm.recovery

def bootGoodOp (q : Req) (s : State) : State :=
  if s.pm.step = 11 ∧ laidBit s ∧ selfTestOk s ∧ !s.pm.lyDead then
    if s.pm.good then s
    else
      let r0 := backup0 s / 64 * 64 + 32 + 16 * s.pm.slot
      putBackup 3 (now s % 2 ^ 64) (putBackup 0 r0 { s with pm.good := true })
  else evt Ev.BOOT_GOOD_REFUSED q 0 s

def recoveryDoneOp (s : State) : State :=
  if s.pm.recovery ∧ !bit (backup0 s) 3 then putBackup 0 (backup0 s + 8) s else s

/-! ### The commands -/

def bootCtl : RegAt := ⟨.PM_BOOT_CTL, 0, 0, 0⟩

def execStbyPowerLoss (s : State) : Result := .next (powerLoss s)
def execStbyPwrOkRise (st : Start) (s : State) : Result := .next (stbyRise st s)
def execMainPwrOkRise (s : State) : Result := .next (mainRise s)
def execMainPwrOkFall (s : State) : Result := .next (mainFall s)
def execMainPwrTimeout (s : State) : Result := .next (mainTimeout s)
def execSysRstNPulse (ns : Nat) (held : Bool) (s : State) : Result := .next (rstPulse ns held s)
def execSysResetWrite (q : Req) (s : State) : Result := .next (regGuard q bootCtl (sysReset 0x16) s)
def execCoreResetWrite (q : Req) (s : State) : Result := .next (regGuard q bootCtl (coreTrigger 0x20) s)
def execSpineWatchdog (s : State) : Result := .next (coreTrigger 0x21 s)
def execThermtrip (s : State) : Result := .next (thermtripOp s)
def execThermtripCooled (s : State) : Result := .next (thermtripCooledOp s)
def execBootGood (q : Req) (s : State) : Result := .next (regGuard q bootCtl (bootGoodOp q) s)
def execRecoveryDone (q : Req) (s : State) : Result := .next (regGuard q bootCtl recoveryDoneOp s)
def execHeartwoodWatchdog (s : State) : Result := .next (if s.hw.ready then sysReset 0x14 s else s)
def execLanyardWatchdog (core : Fin 2) (s : State) : Result :=
  .next (if !lyRuns s || (core : Nat) > 1 then s else if s.ly.upd.isSome then lyRevert s else sysReset 0x12 s)
def execPldmOemReset (v : Via) (sid : Option W32) (s : State) : Result :=
  .next (pldmIn v sid false (fun s => sysReset 0x15 (pldmSend v 0x3F [] s)) s)
def execMgmtPowerOff (v : Via) (sid : Option W32) (s : State) : Result :=
  .next (pldmIn v sid false (fun s => powerOff (pldmSend v 0x3F [] s)) s)
def execMgmtPowerOn (v : Via) (s : State) : Result := .next (if v = .doe then s else powerOn s)
/-- PERST_N (R396): a system reset where the DEVICE section binds it, else the host port's reset. -/
def execPerstNAssert (s : State) : Result :=
  .next (if s.lay.laid && s.lay.img.perstReset then sysReset 0x17 s else linkDownOp s)

end Sys2Proof.Machine
end

