-- ==== Sys2Proof/Machine/Faults.lean ====
section
/-! DEFINITION. What a detected fault tears down (R376, R381, R382) and register parity (R40). -/

namespace Sys2Proof.Machine

/-- The active Hitch unit is fenced: the standby takes over; with none, both are fenced and the core is reset (R376, R539). -/
def hitchFault (s : State) : State := if hasStandby s then takeover s else coreTrigger 0x22 s

/-- An uncorrectable error in a line (R381, R586): the line is poisoned, and a channel counts it. -/
def lineFault (a : Nat) (s : State) : State :=
  let s := poisonRun (a / 64) 1 s
  if a < hbmEnd then ctrAdd .HM_UE_CNT (chanOf a) 16 1 s else s

/-- An uncorrectable error in a block of a session's table: the session, or the tree node and those below it (R376, R208). -/
def blockFault (n e : Nat) (s : State) : State :=
  let x := slotOf s n
  if x.st = .free ∨ x.st = .faulted ∨ x.blks.length ≤ e then s
  else if e / pLayers x.policy < x.chunks then
    match (heldPath s x)[e / pLayers x.policy]? with
    | some nd =>
      doom x.part (below s x.part nd.1) (evt Ev.ATTN_SHARED_POISON (hitchReq s x.part) (nodeId x.part nd.1 nd.2) s)
    | none => s
  else faultSlot n 2 false s

/-- An uncorrectable error in a page descriptor: RETIRED, and out of its free list. -/
def pageFault (n : Nat) (s : State) : State :=
  { s with ht.pages := nset s.ht.pages n { ngetD s.ht.pages n page0 with st := .retired }
           ht.runs := s.ht.runs.map fun (e : Nat × List (Nat × Nat)) => (e.1, (e.2.map (cutRun n (n + 1))).flatten) }

/-- The command a lost slot was loading or unloading for completes FAULT_CONTEXT. -/
def lostCmd (c : Option (Nat × BitVec 512)) (s : State) : State :=
  match c with
  | some c => finish c.1 c.2 stFaultContext 0 s
  | none => s

/-- An uncorrectable error in a copy (R376): a vocabulary or grammar slot goes EMPTY; a program slot drains (R302); an index
loses the die (R318). -/
def imageFault (x : ImgRef) (die : Nat) (s : State) : State :=
  match x with
  | .voc v =>
    let y := vocOf s v
    if y.st = .empty then s
    else lostCmd y.cmd (putVoc v img0 (dropCopies y (evt Ev.VOCAB_LOST (whReq 0 y.owner) v s)))
  | .gram p g =>
    let y := gramOf s p g
    if y.st = .empty then s
    else lostCmd y.cmd (putGram p g img0 (dropCopies y (evt Ev.VOCAB_LOST (unitReq 0x40 p) (256 + 16 * p + g) s)))
  | .prog p k =>
    let y := progOf s p k.toNat
    match y.st with
    | .ready => progDrained p k.toNat (putProg p k.toNat { y with st := .draining }
        (evt Ev.PROG_WEIGHT_MISMATCH (unitReq 0x10 p) k.toNat s))
    | .loading | .verifying => lostCmd y.cmd (putProg p k.toNat prog0 (dropProg y s))
    | _ => s
  | .idx p k => if bit (idxOf s p k).mask die then idxPoison p k die (skReq (4 * die) p) s else s

def struckOp (x : Struck) (s : State) : State :=
  match x with
  | .engine b e => engFence (kindBlk b) e.toNat s
  | .correctable t row => rowError t.toNat row s
  | .line a => lineFault a.toNat s
  | .block n e => blockFault n.toNat e s
  | .descriptor n => faultSlot n.toNat 3 false s
  | .page n => pageFault n.toNat s
  | .image x die => imageFault x die s
  | .structure p => tearDown p s
  | .channel t => chanFence t.toNat s
  | .hitch => hitchFault s
  | .capstan => coreTrigger 0x22 s
  | .heartwood => sysReset 0x14 s
  | .lanyard => sysReset 0x13 s

/-! ### Register parity (R40) -/

/-- The engine a register belongs to. -/
def regEngine (ra : RegAt) : Option (Nat × Nat) :=
  let b := regBlock ra.id
  if engCount b ≠ 0 ∧ (regRow ra.id).base / 0x100 * 0x100 = b * 0x100000 + 0x400 ∧ (regRow ra.id).d1 = (16, engCount b) then
    some (b, ra.i)
  else none

/-- The block of an offset in register space: doorbell pages are the ring blocks'. -/
def offBlock (off : Nat) : Nat := if 0x2000000 ≤ off then 0xE else off / 0x100000

/-- Marks the lowest failing offset of a block whose whole unit owns the register (R40). -/
def parityMark (off : Nat) (s : State) : State :=
  let b := offBlock off
  let o := off % 0x100000
  { s with ax.parity := nset s.ax.parity b (match nget s.ax.parity b with | some x => min x o | none => o) }

/-- A whole unit is fenced: Hitch, Capstan, Heartwood and Lanyard as their chapters say, the engines of a unit that has some. -/
def unitFence (b : Nat) (s : State) : State :=
  match b with
  | 0 => sysReset 0x13 s
  | 0x11 => sysReset 0x13 s
  | 1 => sysReset 0x14 s
  | 2 => hitchFault s
  | 3 => coreTrigger 0x22 s
  | _ =>
    let s := { s with ax.unitFenced := if s.ax.unitFenced.contains b then s.ax.unitFenced else s.ax.unitFenced ++ [b] }
    (List.range (engCount b)).foldl (fun s e => engFence b e s) s

def parityOp (off : Nat) (s : State) : State :=
  match regDecode off with
  | none => s
  | some ra =>
    let s := evt Ev.REG_PARITY lyReq off s
    match regEngine ra with
    | some e => engFence e.1 e.2 { s with ax.parInst := nset s.ax.parInst (4096 * e.1 + e.2) off }
    | none =>
      if ra.id = .HM_CH_STAT then chanFence ra.i { s with ax.parInst := nset s.ax.parInst (4096 * 0x13 + ra.i) off }
      else unitFence (offBlock off) (parityMark off s)

/-! ### The commands -/


end Sys2Proof.Machine
end

