-- ==== Sys2Proof/Machine/Pins.lean ====
section
/-! DEFINITION. Boot flash (R555-R557), firmware activations in service (R558, R559), the test access port and the release of
SYS_RST_N (R580-R582). -/

namespace Sys2Proof.Machine

/-! ### Boot flash -/

/-- Size of a chip. -/
def flashSize : Nat := 0x1000000

def flashKey (chip off : Nat) : Nat := chip * flashSize + off

/-- A byte of flash: as programmed, else FFH where it has been erased, else as the chip came. -/
def flashByte (s : State) (k : Nat) : Byte :=
  match nget s.pm.flash k with
  | some b => b
  | none => if s.pm.erased.any fun r => r.1 ≤ k && k < r.1 + r.2 then 0xFF else Config.flashInit k

/-- Two ranges of offsets meet. -/
def meets (a n b m : Nat) : Bool := a < b + m && b < a + n

/-- Offset and size of the operator key store's region. -/
def storeRegion : Nat × Nat := (0x10000, 0x10000)

/-- Regions that no command writes (R557); in recovery mode the key store may be written back (R480). -/
def flashProtected (s : State) (off n : Nat) : Bool :=
  meets off n 0 0x10000 || (meets off n storeRegion.1 storeRegion.2 && !s.pm.recovery) || meets off n 0x920000 0x210000

/-- What the regions of a slot's chip hold after a range of it has been written: the regions met take what `c` says. -/
def chipAfter (old c : FlashChip) (off n : Nat) : FlashChip :=
  { hw := if meets off n 0x20000 0x100000 then c.hw else old.hw
    ly := if meets off n 0x120000 0x100000 then c.ly else old.ly
    spine := if meets off n 0x220000 0x400000 then c.spine else old.spine
    serdes := if meets off n 0x620000 0x200000 then c.serdes else old.serdes
    lay := if meets off n 0x820000 0x100000 then c.lay else old.lay
    store := if meets off n storeRegion.1 storeRegion.2 then c.store else old.store }

/-- The chips after a write: the key store's copies are written alike (R556). -/
def putChip (chip : Nat) (c : FlashChip) (off n : Nat) (s : State) : State :=
  let one (k : Nat) (old : FlashChip) : FlashChip :=
    if k = chip then chipAfter old c off n
    else if meets off n storeRegion.1 storeRegion.2 then { old with store := c.store } else old
  { s with pm.chipA := one 0 s.pm.chipA, pm.chipB := one 1 s.pm.chipB }

/-- The chips a range is written on. -/
def flashChips (chip off n : Nat) : List Nat := if meets off n storeRegion.1 storeRegion.2 then [chip, 1 - chip] else [chip]

def flashEnd (r : Nat) (s : State) : State := { s with pm.flashRes := r }

/-- A write that meets a protected region is discarded. -/
def flashGuard (off n : Nat) (f : State → State) (s : State) : State :=
  if n = 0 then flashEnd 1 s
  else if flashProtected s off n then evt Ev.FLASH_PROTECTED lyReq off (flashEnd 2 s)
  else f s

/-- ERASE: whole sectors of 64 KiB. -/
def eraseOp (chip off len : Nat) (s : State) : State :=
  let lo := off / 65536 * 65536
  let n := if len = 0 then 0 else ceilDiv (min (off + len) flashSize) 65536 * 65536 - lo
  flashGuard lo n (fun s =>
    let s := (flashChips chip lo n).foldl (fun s c =>
      let k := flashKey c lo
      { s with pm.flash := s.pm.flash.filter fun x => x.1 < k || k + n ≤ x.1, pm.erased := s.pm.erased ++ [(k, n)] }) s
    flashEnd 1 (putChip chip chip0 lo n s)) s

/-- Bytes programmed from a key on: an erased byte takes its value, another keeps its own. -/
def programBytes (k : Nat) : List Byte → State → State
  | [], s => s
  | b :: r, s =>
    programBytes (k + 1) r (if flashByte s k = 0xFF then { s with pm.flash := nset s.pm.flash k b } else s)

/-- PROGRAM: the pages written are read back. -/
def programOp (chip off : Nat) (data : List Byte) (c : FlashChip) (s : State) : State :=
  let bs := data.take (flashSize - off)
  flashGuard off bs.length (fun s =>
    let s := (flashChips chip off bs.length).foldl (fun s c => programBytes (flashKey c off) bs s) s
    let good := (List.range bs.length).map (fun i => flashByte s (flashKey chip off + i)) == bs
    flashEnd (if good then 1 else 3) (putChip chip c off bs.length s)) s

/-- Fields of PM_FLASH_ADDR, PM_FLASH_SRC and PM_FLASH_LEN. -/
def faChip (s : State) : Nat := b2n (bit (rg s .PM_FLASH_ADDR) 24)
def faOff (s : State) : Nat := bits (rg s .PM_FLASH_ADDR) 23 0
def faSrc (s : State) : Nat := rg64 s .PM_FLASH_SRC_LO .PM_FLASH_SRC_HI 0 % 2 ^ 63
def faLen (s : State) : Nat := rg s .PM_FLASH_LEN

/-- PROGRAM from host memory: nothing is written while the host cannot be read. -/
def flashProgramOp (c : FlashChip) (s : State) : State :=
  if flashProtected s (faOff s) (faLen s) ∧ faLen s ≠ 0 then evt Ev.FLASH_PROTECTED lyReq (faOff s) (flashEnd 2 s)
  else if !s.hp.up then flashEnd 4 s
  else programOp (faChip s) (faOff s) (memRead s.hmem (faSrc s) (faLen s)) c s

/-- READ to host memory. -/
def flashReadOp (s : State) : State :=
  if !s.hp.up then flashEnd 4 s
  else
    let n := min (faLen s) (flashSize - faOff s)
    let bs := (List.range n).map fun i => flashByte s (flashKey (faChip s) (faOff s) + i)
    flashEnd 1 { s with hmem := memWrite s.hmem (faSrc s) bs }

/-! ### Firmware in service (R558, R559) -/

def fwRefused (slot : Nat) (s : State) : State := evt Ev.FW_REFUSED hwReq slot { s with pm.fwRes := 2 }

/-- SPINE_ACTIVATE. `fail`: the step whose unit fails its self-test on the new image, counted from 0; it stops there. -/
def spineActivateOp (slot : Nat) (fail : Option (Fin 4)) (s : State) : State :=
  let f := (chipOf s slot).spine
  if !fwOk f || !(f.journal == s.hw.spine.journal || f.journal == s.hw.spine.journal + 1) then fwRefused slot s
  else if fail = some 0 ∨ !hasStandby s then { s with pm.fwRes := 3 }
  else
    let s := resyncDone (reinstate true (takeover s))
    match fail with
    | some _ => { s with pm.fwRes := 3 }
    | none => evt Ev.FW_ACTIVATED hwReq slot { s with pm.fwRes := 1, hw.spine := f }

/-- Quads laid as Harah, and the far port, that have not taken the new SerDes image. -/
def serdesUsers (s : State) : List Nat := ((List.range 12).filter (isHarah s)) ++ [13]

/-- SERDES_ACTIVATE: every quad and port takes the image at its next training. -/
def serdesActivateOp (slot : Nat) (s : State) : State :=
  let f := (chipOf s slot).serdes
  if !fwOk f then fwRefused slot s
  else
    { s with pm.sdNext := some f, pm.sdPend := serdesUsers s, pm.fwRes := 1, hp.serdes := true
             hp.eth := [0, 1].foldl (fun m n => if ethLaid s n then nmod m n eth0 fun x => { x with serdes := true } else m) s.hp.eth }

/-- Whether a link trains. -/
def linkTrains (s : State) (k : Nat) : Bool := (linkOf s k).st == .training || (linkOf s k).st == .retraining

/-- The roll-out of new SerDes firmware: a training link takes it, the UP links are retrained one at a time, and with the last
user measurement 6 changes. -/
def serdesSweep (s : State) : State :=
  match s.pm.sdNext with
  | none => s
  | some f =>
    let s := { s with pm.sdPend := s.pm.sdPend.filter fun k => k == 13 || !linkTrains s k }
    let s := if (List.range 12).any fun k => isHarah s k && (linkOf s k).st == .retraining then s
      else match s.pm.sdPend.find? fun k => k != 13 && (linkOf s k).st == .up with
        | some k => linkRetrain k s
        | none => s
    if s.pm.sdPend = [] ∧ !s.hp.serdes ∧ (s.hp.eth.any (·.2.serdes)) = false then { s with pm.sdNext := none, hw.serdes := f } else s

/-- ETH_RETRAIN: the ports that wait for new firmware lose their links. -/
def ethRetrainOp (s : State) : State :=
  [0, 1].foldl (fun s n => if (ethOf s n).serdes && (ethOf s n).up then ethLinkOp n false s else s) s

/-! ### The test access port -/

/-- The port leaves Test-Logic-Reset only while SYS_RST_N is low, and needs every rail (R580, R581). -/
def tapLive (s : State) : Bool := s.pm.rstLow && s.pm.stbyOk && s.pm.mainOk

/-- A scan of a register of `cap.length` cells: what leaves TDO, what the cells hold after. -/
def scan (cap tdi : List Bool) : List Bool × List Bool := ((cap ++ tdi).take tdi.length, (cap ++ tdi).drop tdi.length)

def bits01 (l : List Bool) : List Nat := l.map b2n

/-- An instruction that selects a register without cells of its own: BYPASS, CLAMP and HIGHZ the bypass register. -/
def tapShift (i : TapIns) (cap tdi : List Bool) (s : State) : State :=
  if tapLive s then send Mk.tdo (bits01 (scan cap tdi).1) [] { s with tap.ins := some i } else s

/-- An instruction that selects the boundary register: the cells take what was shifted in. -/
def tapBoundary (i : TapIns) (cap tdi : List Bool) (s : State) : State :=
  if tapLive s then send Mk.tdo (bits01 (scan cap tdi).1) [] { s with tap.ins := some i, tap.cells := (scan cap tdi).2 } else s

/-- IDCODE (R580). -/
def idcodeWord : Nat := 1 + 2 * Config.jedec.toNat + 0x1000 * 0x4160 + 0x10000000 * (Config.stepping / 16)

/-- A number's low bits, least significant first. -/
def bitList (n v : Nat) : List Bool := (List.range n).map fun i => bit v i

/-- An instruction that drives pins. -/
def tapDrives (i : Option TapIns) : Bool :=
  match i with
  | some .extest | some .clamp | some .highz | some .extestPulse | some .extestTrain => true
  | _ => false

/-- SYS_RST_N rises (R581, R542): the port enters Test-Logic-Reset, pins that were driven pass through their fuse state, and
the start goes on. -/
def rstRelease (s : State) : State :=
  if !s.pm.rstLow then s
  else
    let s := if tapDrives s.tap.ins then
        { s with ly.pins := (List.range 24).foldl (fun m n => nset m n ⟨some s.uptime, none⟩) s.ly.pins } else s
    start { s with pm.rstLow := false, tap.ins := none }

/-! ### The commands -/

def execFlashErase (q : Req) (s : State) : Result :=
  .next (regGuard q ⟨.PM_FLASH_CMD, 0, 0, 0⟩ (fun s => eraseOp (faChip s) (faOff s) (faLen s) s) s)
def execFlashProgram (q : Req) (c : FlashChip) (s : State) : Result :=
  .next (regGuard q ⟨.PM_FLASH_CMD, 0, 0, 0⟩ (flashProgramOp c) s)
def execFlashRead (q : Req) (s : State) : Result := .next (regGuard q ⟨.PM_FLASH_CMD, 0, 0, 0⟩ flashReadOp s)
def execPldmOemFlashWrite (v : Via) (sid : Option W32) (erase : Bool) (chip : Bool) (off : BitVec 24) (len : Nat) (data : List Byte)
    (c : FlashChip) (s : State) : Result :=
  .next (pldmIn v sid false (fun s =>
    pldmSend v 0x3F [] (if erase then eraseOp (b2n chip) off.toNat len s else programOp (b2n chip) off.toNat data c s)) s)
def execSpineActivate (q : Req) (slot : Bool) (fail : Option (Fin 4)) (s : State) : Result :=
  .next (regGuard q ⟨.PM_FW_CTL, 0, 0, 0⟩ (spineActivateOp (b2n slot) fail) s)
def execSerdesActivate (q : Req) (slot : Bool) (s : State) : Result :=
  .next (regGuard q ⟨.PM_FW_CTL, 0, 0, 0⟩ (serdesActivateOp (b2n slot)) s)
def execEthRetrain (q : Req) (s : State) : Result := .next (regGuard q ⟨.PM_FW_CTL, 0, 0, 0⟩ ethRetrainOp s)
def execBypass (tdi : List Bool) (s : State) : Result := .next (tapShift .bypass [false] tdi s)
def execSamplePreload (cap tdi : List Bool) (s : State) : Result := .next (tapBoundary .samplePreload cap tdi s)
def execIdcode (tdi : List Bool) (s : State) : Result := .next (tapShift .idcode (bitList 32 idcodeWord) tdi s)
def execExtest (cap tdi : List Bool) (s : State) : Result := .next (tapBoundary .extest cap tdi s)
def execClamp (tdi : List Bool) (s : State) : Result := .next (tapShift .clamp [false] tdi s)
def execHighz (tdi : List Bool) (s : State) : Result := .next (tapShift .highz [false] tdi s)
def execExtestPulse (cap tdi : List Bool) (s : State) : Result := .next (tapBoundary .extestPulse cap tdi s)
def execExtestTrain (cap tdi : List Bool) (s : State) : Result := .next (tapBoundary .extestTrain cap tdi s)
def execSysRstNRelease (s : State) : Result := .next (rstRelease s)

end Sys2Proof.Machine
end

