-- ==== Sys2Proof/Machine/Restore.lean ====
section
/-! DEFINITION. Restores (R501-R505) and the commands of chapter 17. -/

namespace Sys2Proof.Machine

/-! ### The manifest as it is read (R498) -/

def mGroups (m : List Byte) : Nat := bAt m 100 4
def mSessions (m : List Byte) : Nat := bAt m 104 4
def mGroupAt (g : Nat) : Nat := 256 + 656 * g
def mShardAt (g i : Nat) : Nat := mGroupAt g + 16 + 64 * i
def mSessAt (m : List Byte) (k : Nat) : Nat := mGroupAt (mGroups m) + 32 * k

/-- A well-formed manifest (R498). -/
def manifestOk (m : List Byte) : Bool :=
  let a := mSessAt m (mSessions m)
  let c1 := bAt m a 4
  let c2 := bAt m (a + 4 + c1) 4
  bAt m 0 4 == 0x434B4D31 && bAt m 4 4 == 1 && bAt m 32 1 < 16 && bAt m 33 1 < 2 && bAt m 35 1 == 0 && bAt m 108 20 == 0 &&
  m.length == a + 8 + c1 + c2 + 96

/-- Sessions that a restore takes up: neither WITHDRAWN nor NOT_CAPTURED. -/
def mLive (m : List Byte) (k : Nat) : Bool := bAt m (mSessAt m k + 24) 4 % 4 == 0

/-- T1 pages a restore needs at most: the units of the groups that hold blocks. -/
def mPages (m : List Byte) : Nat :=
  ((List.range (mGroups m)).map fun g => if bAt m (mGroupAt g) 1 = 1 then 0 else 8 * bAt m (mGroupAt g + 4) 4).foldl (· + ·) 0

/-- The restore record of R502, well formed: tier, address, length, plan, report buffer and size. -/
def restoreRec (s : State) (p : Nat) : Option (Nat × Nat × Nat × Nat × Nat × Nat) :=
  let a := rg64 s .CK_RESTORE_LO .CK_RESTORE_HI p
  let f (o n : Nat) : Nat := rdNat s (a + o) n
  if hbmEnd ≤ a ∨ (inCheck s (hitchReq s p) a 44).st ≠ 0 ∨ f 0 1 < 3 ∨ 5 < f 0 1 ∨ f 1 7 ≠ 0 ∨ f 20 4 ≠ 0 ∨ hbmEnd ≤ f 32 8 then none
  else some (f 0 1, f 8 8, f 16 4, f 24 8, f 32 8, f 40 4)

/-! ### Rebuilding a group (R503) -/

/-- Data shards of a group from the usable ones: the missing rebuilt from P and Q. -/
def rebuild (n : Nat) (ok : List (Nat × List Byte)) : Option (List (List Byte)) :=
  let data := ok.filter fun e => e.1 < 8
  let p := (ok.find? fun e => e.1 == 8).map (·.2)
  let q := (ok.find? fun e => e.1 == 9).map (·.2)
  let miss := (List.range 8).filter fun i => !(data.any fun e => e.1 == i)
  let all (extra : List (Nat × List Byte)) : Option (List (List Byte)) :=
    some ((List.range 8).map fun i => (((data ++ extra).find? fun e => e.1 == i).map (·.2)).getD [])
  match miss, p, q with
  | [], _, _ => all []
  | [i], some p, _ => all [(i, xorBytes p (xorSum n data))]
  | [i], none, some q => all [(i, gfScale (gfInv (gfPow 2 i)) (xorBytes q (gfSum n data)))]
  | [i, j], some p, some q =>
    let a := xorBytes p (xorSum n data)
    let b := xorBytes q (gfSum n data)
    let di := gfScale (gfInv (gfPow 2 i ^^^ gfPow 2 j)) (xorBytes (gfScale (gfPow 2 j) a) b)
    all [(i, di), (j, xorBytes a di)]
  | _, _, _ => none

/-- The plaintext of a group from its eight stored data shards. -/
def openGroup (ckk g u : Nat) (ds : List (List Byte)) : List Byte :=
  let pl := (enum0 ds).map fun e => ((enum0 (tilesOf (e.2.take (65536 * u)))).map fun t => gcmXor ckk (ckNonce g e.1 t.1) t.2).flatten
  ((List.range (8 * u)).map fun k => ((pl.getD (k % 8) []).drop (k / 8 * 65536)).take 65536).flatten

/-- What the manifest says of a stored shard: LOST, length, digest. -/
def mShard (m : List Byte) (g i : Nat) : Bool × Nat × List Byte :=
  let a := mShardAt g i
  (bit (bAt m (a + 2) 2) 0, bAt m (a + 8) 8, (m.drop (a + 16)).take 48)

/-- The plaintext of a group from what was read of it, and whether it was rebuilt; none where it is lost. -/
def readGroup (r : CkRestore) (g : Nat) (rd : List (Nat × Option (List Byte))) : Option (List Byte × Bool) :=
  let good (e : Nat × Option (List Byte)) : Option (Nat × List Byte) :=
    e.2.bind fun b => let h := mShard r.man g e.1
      if !h.1 && b.length == h.2.1 && sha384 b == h.2.2 then some (e.1, b) else none
  let ok := rd.filterMap good
  let bad := (List.range 10).filter fun i => (mShard r.man g i).1 || (rd.any fun e => e.1 == i) && !(ok.any fun e => e.1 == i)
  let u := bAt r.man (mGroupAt g + 4) 4
  if 2 < bad.length then none
  else match rebuild (65600 * u) ok with
    | none => none
    | some ds =>
      -- a recomputed shard is checked against its digest where the manifest has one
      if (enum0 ds).all fun e => (mShard r.man g e.1).1 || sha384 e.2 == (mShard r.man g e.1).2.2 then
        some (openGroup r.ckk g u ds, (ok.filter fun e => e.1 < 8).length < 8)
      else none

/-! ### Tree nodes, shared blocks, ring tables (R504) -/

/-- Takes T1 pages for blocks of given bytes and writes them; none where a page is wanting. -/
def placeBlocks (p slot gen mask b0 l0 : Nat) : List (List Byte) → State → Option (List Blk × State)
  | [], s => some ([], s)
  | bs :: r, s =>
    let k := max 1 (ceilDiv bs.length 65536)
    match takeT1 p slot gen k .allocated (homeOrder mask b0 l0) s with
    | none => none
    | some (f, s) =>
      match placeBlocks p slot gen mask b0 (l0 + 1) r (wrBytes (f * 65536) bs s) with
      | none => none
      | some (l, s) => some (⟨1, false, k - 1, f, slot == slotShared, none, none, gensOf s f k⟩ :: l, s)

/-- A captured node is adopted or inserted as PUBLISH would (R174), its key recomputed under the group's key here (R169). -/
def restoreNode (p : Nat) (b : List Byte) (r : CkRestore) (s : State) : CkRestore × State :=
  let old := bAt b 0 8
  let oldPar := bAt b 8 8
  let par := if oldPar = 0 then some 0 else nget r.nodes oldPar
  let layers := bAt b 52 2
  let g := bAt b 57 1 % 64
  let toks := (List.range 128).map fun k => bAt b (128 + 4 * k) 4
  match par with
  | none => (r, s)
  | some par =>
    let prev := if par = 0 then 0 else ((nget s.pfx.nodes (nodeKey p (hSlot par))).map (·.hash)).getD 0
    let h := chunkKey s p g prev (bAt b 32 8) toks
    let geom (nd : Node) : Bool := nd.layers == layers && nd.heads == bAt b 54 1 && nd.hd16 == bAt b 55 1 && nd.fmt == bAt b 56 1
    match verify p toks par (bAt b 32 8) g geom (candidates s p h) s with
    | (some e, s) => ({ r with nodes := nset r.nodes old (nodeId p e.1 e.2) }, s)
    | (none, s) =>
      match freshNode s p with
      | none => (r, s)
      | some (idx, gen) =>
        let nd : Node := { gen := gen, parent := par, hash := h, ctx := bAt b 32 8, depth := bAt b 40 4, refs := 0, kids := 0,
                           layers := layers, heads := bAt b 54 1, hd16 := bAt b 55 1, fmt := bAt b 56 1, group := g, doomed := false,
                           lastUse := now s, toks := toks, blks := [] }
        let body := b.drop (ceilDiv (640 + 8 * layers) 64 * 64)
        let n := nodeBlkBytes nd
        match placeBlocks p slotShared 0 (maskOf s p 0 0) nd.depth 0 ((List.range layers).map fun l => (body.drop (l * n)).take n) s with
        | none => (r, s)
        | some (bl, s) =>
          let s := popNode p s
          let nodes := match nget s.pfx.nodes (nodeKey p (hSlot par)) with
            | some q => if par = 0 then s.pfx.nodes else nset s.pfx.nodes (nodeKey p (hSlot par)) { q with kids := q.kids + 1 }
            | none => s.pfx.nodes
          ({ r with nodes := nset r.nodes old (mkHandle 0 p idx gen) },
           { s with pfx.nodes := nset nodes (nodeKey p idx) { nd with blks := bl } })

/-- A shared block takes pages of the shared owner; the sessions that will reference it are counted as they restore. -/
def restoreShared (p ix : Nat) (b : List Byte) (r : CkRestore) (s : State) : CkRestore × State :=
  match placeBlocks p slotShared 0 (maskOf s p 0 0) 0 ix [b] s with
  | some ([x], s) => ({ r with shared := nset r.shared ix (x.addr, x.npages, x.pgen) }, { s with ht.share := nset s.ht.share x.addr 0 })
  | _ => (r, s)

/-- The k-th ring table goes to the k-th context of the partition that names a table; it is not armed. -/
def restoreRing (p k : Nat) (b : List Byte) (s : State) : State :=
  match ((List.range 8).filter fun c => bits (rg s .LG_SPN_PART c) 3 0 == p && rg64 s .LG_SPN_TABLE_LO .LG_SPN_TABLE_HI c != 0)[k]? with
  | some c => wrBytes (rg64 s .LG_SPN_TABLE_LO .LG_SPN_TABLE_HI c) b s
  | none => s

/-- The records of a group that holds no session, in order; `n` bounds them. -/
def restoreRecs (p : Nat) : Nat → List Byte → CkRestore → State → CkRestore × State
  | 0, _, r, s => (r, s)
  | n + 1, b, r, s =>
    let len := bAt b 16 8
    if len < 64 ∨ b.length < len then (r, s)
    else
      let body := (b.take len).drop 64
      let t := match bAt b 0 1 with
        | 2 => restoreNode p body r s
        | 3 => ({ r with rings := r.rings + 1 }, restoreRing p r.rings body s)
        | _ => restoreShared p r.recIx (body.drop 8) r s
      restoreRecs p n (b.drop len) { t.1 with recIx := r.recIx + 1 } t.2

/-! ### Sessions (R504) -/

/-- Takes a slot off the partition's list of free slots, wherever it stands (R74). -/
def takeSlot (p n : Nat) (s : State) : State :=
  match partPlan s p with
  | none => s
  | some pl =>
    let k := ngetD s.ht.slotNext p 0
    if n < pl.slotBase + k then { s with ht.freeQ := nset s.ht.freeQ p ((ngetD s.ht.freeQ p []).filter (· != n)) }
    else
      let rest := ((List.range (pl.slotCount - k)).map (pl.slotBase + k + ·)).filter (· != n)
      { s with ht.slotNext := nset s.ht.slotNext p pl.slotCount, ht.freeQ := nset s.ht.freeQ p (rest ++ ngetD s.ht.freeQ p []) }

/-- The block entries of a session record here: tree and shared blocks by their new places, private ones into T1; `Except` says
why not (2 a record lost, 1 no room). -/
def restoreEntries (p n gen mask : Nat) (pol : BitVec 512) (x : Slot) (b : List Byte) (r : CkRestore) (path : List (Nat × Node)) :
    List Nat → State → Except Nat (List Blk × State)
  | [], s => .ok ([], s)
  | e :: rest, s =>
    let v := bAt b (192 + 8 * e) 8
    let one : Except Nat (Blk × State) :=
      if v % 2 = 0 then
        let len := entBytes x e
        match placeBlocks p n gen mask (e / pLayers pol) (e % pLayers pol) [(b.drop (v / 2)).take len] s with
        | some ([y], s) => .ok (y, s)
        | _ => .error 1
      else if e / pLayers pol < x.chunks then
        match (path[e / pLayers pol]?).bind fun q => q.2.blks[e % pLayers pol]? with
        | some y => .ok (y, s)
        | none => .error 2
      else match nget r.shared (v / 2) with
        | some (a, np, pg) => .ok (⟨1, false, np, a, true, none, none, pg⟩, { s with ht.share := nmod s.ht.share a 0 (· + 1) })
        | none => .error 2
    match one with
    | .error c => .error c
    | .ok (y, s) => match restoreEntries p n gen mask pol x b r path rest s with
      | .error c => .error c
      | .ok (l, s) => .ok (y :: l, s)

/-- One session commits, alone and atomically, into the slot its captured handle names; answers the report's cause. -/
def restoreSession (p serial : Nat) (act : Bool) (h : Nat) (b : List Byte) (r : CkRestore) (s : State) : Nat × State :=
  let n := hSlot h
  let y := slotOf s n
  if !slotIn s p n ∨ !(y.st = .free ∨ (y.st = .evacuated ∧ nget s.evacBy n = some serial)) then (3, s)
  else
    let pol := BitVec.ofNat 512 (bAt b 128 64)
    let gen := bAt b 68 2
    let chunks := bAt b 88 4
    let node := if bAt b 80 8 = 0 then some 0 else nget r.nodes (bAt b 80 8)
    let s0 := if y.st = .free then takeSlot p n s else s
    match node with
    | none => (2, s)
    | some node =>
      let x := { slot0 with st := if act then .active else .parkedHot, gen := gen, prevGen := if gen = 1 then 0xFFFF else gen - 1,
                            part := p, acct := pAccount pol, tokens := bAt b 76 4, node := node, chunks := chunks, policy := pol,
                            home := bAt b 122 2 }
      match restoreEntries p n gen (maskOf s p 0 (pMask pol)) pol x b r (pathOf s p (chunks + 1) node) (List.range (bAt b 92 4)) s0 with
      | .error c => (c, s)
      | .ok (l, s) =>
        let s := refPath p true (chunks + 1) node s
        (0, { commitSlot n { x with blks := l } s with evacBy := ndel s.evacBy n })

/-- The bytes of session k of the manifest, from its groups; none where one of them is lost. -/
def sessBytes (r : CkRestore) (k : Nat) : Option (List Byte) :=
  let a := mSessAt r.man k
  let g := bAt r.man (a + 8) 4
  let c := bAt r.man (a + 12) 4
  if (List.range c).any fun i => r.lost.contains (g + i) then none
  else some ((((List.range c).map fun i => ngetD r.plain (g + i) []).flatten).drop (bAt r.man (a + 16) 8))

/-- The sessions whose last group is g are restored or reported lost. -/
def settleSessions (p g : Nat) (r : CkRestore) (s : State) : CkRestore × State :=
  ((List.range (mSessions r.man)).filter fun k =>
    bAt r.man (mSessAt r.man k + 8) 4 + bAt r.man (mSessAt r.man k + 12) 4 == g + 1).foldl (fun (t : CkRestore × State) k =>
      let h := bAt r.man (mSessAt r.man k) 8
      let fl := bAt r.man (mSessAt r.man k + 24) 4
      let out := if !mLive r.man k then (4, t.2)
        else match sessBytes t.1 k with
          | none => (1, t.2)
          | some b => restoreSession p (bAt r.man 24 8) (bit fl 2) h b t.1 t.2
      let s := if 1 ≤ out.1 ∧ out.1 ≤ 3 then ctr .CK_SESSION_LOST_CNT p out.2 else out.2
      ({ t.1 with ents := t.1.ents ++ [(h, if out.1 = 0 then handleOf (hSlot h) (slotOf s (hSlot h)) else 0, out.1)] }, s)) (r, s)

/-- The report (R505): lost entries first; what the buffer cannot hold is dropped. -/
def reportOut (p : Nat) (r : CkRestore) (s : State) : State :=
  let lost := r.ents.filter fun e => 1 ≤ e.2.2 && e.2.2 ≤ 3
  let rest := r.ents.filter fun e => !(1 ≤ e.2.2 && e.2.2 ≤ 3)
  let room := (r.report.2 - 64) / 24
  let ents := (lost ++ rest).take room
  let k (c : Nat) : Nat := (r.ents.filter fun e => e.2.2 == c).length
  let b := leBytes 4 (k 0) ++ leBytes 4 lost.length ++ leBytes 4 (k 4) ++ leBytes 4 r.rebuilt ++ leBytes 4 r.lost.length ++
    leBytes 4 (b2n (room < r.ents.length)) ++ leBytes 40 0 ++
    (ents.map fun e => leBytes 8 e.1 ++ leBytes 8 e.2.1 ++ leBytes 1 e.2.2 ++ leBytes 7 0).flatten
  let b := b.take r.report.2
  if (accessCheck s (hitchReq s p) .wr r.report.1 b.length).st = 0 then wrBytes r.report.1 b s else s

/-- Shared blocks that no restored session references are released. -/
def dropUnshared (p : Nat) (r : CkRestore) (s : State) : State :=
  r.shared.foldl (fun s e =>
    if nget s.ht.share e.2.1 = some 0 then
      releasePages e.2.1 (e.2.2.1 + 1) p slotShared 0 e.2.2.2 { s with ht.share := ndel s.ht.share e.2.1 }
    else s) s

/-- The restore ends with RESULT 1. -/
def restoreEnd (p : Nat) (r : CkRestore) (s : State) : State :=
  let s := reportOut p r (dropUnshared p r s)
  ckEnd p 1 (evt Ev.CKPT_RESTORED (unitReq 0x70 p) (r.ents.filter fun e => e.2.2 == 0).length s)

/-- CK_RESTORE_READ_DONE: the next group in stream order is restored, or lost (R503, R504). -/
def restoreGroup (p g : Nat) (rd : List (Nat × Option (List Byte))) (s : State) : State :=
  let x := ckOf s p
  match x.restore with
  | none => s
  | some r =>
    if x.phase ≠ 4 ∨ g ≠ r.next ∨ mGroups r.man ≤ g then s
    else
      let s := ctrAdd .CK_BYTES_READ 0 p ((rd.map fun e => (e.2.getD []).length).foldl (· + ·) 0) s
      let t : CkRestore × State := match readGroup r g rd with
        | none => ({ r with lost := r.lost ++ [g] }, ctr .CK_GROUP_LOST_CNT p s)
        | some (b, rebuilt) =>
          let r := if rebuilt then { r with rebuilt := r.rebuilt + 1 } else r
          let s := if rebuilt then ctr .CK_GROUP_REBUILT_CNT p s else s
          if bAt r.man (mGroupAt g) 1 = 3 then ({ r with plain := nset r.plain g b }, s)
          else restoreRecs p (b.length / 64) b r s
      let t := settleSessions p g { t.1 with next := g + 1 } t.2
      let s := putCk p { ckOf t.2 p with restore := some t.1, progress := g + 1 - t.1.lost.length } t.2
      if g + 1 = mGroups r.man then restoreEnd p t.1 s else s

/-- RESTORE (R502). The manifest's bytes come with the command but at T4; `sig` says that its certificates chain to the CA and
its signature verifies. -/
def restoreOp (p : Nat) (man : List Byte) (sig : Bool) (s : State) : State :=
  let x := ckOf s p
  if s.pm.recovery then s
  else if x.phase ≠ 0 then evt Ev.CKPT_BUSY (unitReq 0x70 p) p s
  else
    let s := ctr .CK_RESTORE_CNT p s
    let fail (r : Nat) : State := ctr .CK_FAIL_CNT p (putCk p { x with result := r } s)
    match restoreRec s p with
    | none => fail 2
    | some (tier, a, len, pa, ra, rn) =>
      match (if (partPlan s p).isSome then readPlan s p pa else none) with
      | none => fail 2
      | some pl =>
        let m := if tier = 4 then memRead s.hmem a len else man.take len
        if !manifestOk m ∨ !sig then fail 4
        else
          let kek := nget s.wkeys (p * 2 ^ 32 + bAt m 36 4)
          match kek.bind fun k => keyUnwrap k ((m.drop 40).take 40) with
          | none => fail 3
          | some ckk =>
            if (m.drop 128).take 128 ≠ shapeBytes s p ∨ bAt m 34 1 ≠ s.lay.img.conduct then fail 5
            else if freeT1 s p 0xFF < mPages m then fail 6
            else
              let r : CkRestore := { man := m, plan := pl, report := (ra, rn), ckk := ckk, next := 0, plain := [], nodes := [],
                                     shared := [], recIx := 0, rings := 0, ents := [], rebuilt := 0, lost := [] }
              let s := putCk p { x with phase := 4, result := 0, progress := 0, serial := bAt m 24 8, restore := some r } s
              if mGroups m = 0 then restoreEnd p r s else s

/-! ### The commands -/

def execCkRestore (q : Req) (p : Fin 16) (man : List Byte) (sig : Bool) (s : State) : Result :=
  .next (regGuard q ⟨.CK_CTL, p, 0, 0⟩ (restoreOp p man sig) s)

end Sys2Proof.Machine
end

