-- ==== Sys2Proof/Machine/Time.lean ====
section
/-! DEFINITION. Span time (R453-R457): measurements against the source, lock, the first step, slewing, PPS. -/

namespace Sys2Proof.Machine

def timeSrc (s : State) : Nat := bits (rg s .HF_TIME_CFG) 2 0
def lockNs (s : State) : Int := rg s .HF_TIME_LOCK_NS

/-- Span time plus an offset. -/
def shiftSpan (d : Int) (s : State) : State := { s with span := BitVec.ofInt 80 ((now s : Int) + d) }

/-- Before first lock: a measurement counts while it lies within the bound of the one before it (the step still to be made
taken away); the sixteenth locks, and span time steps once to its source (R455). -/
def firstLock (off : Int) (s : State) : State :=
  let t := s.hf.time
  let row := if t.inRow = 0 ∨ lockNs s < (off - t.last).natAbs then 1 else t.inRow + 1
  if 16 ≤ row then
    shiftSpan off { s with hf.time := { t with inRow := 0, outRow := 0, last := off, locked := true, stepped := true, everLock := true } }
  else { s with hf.time := { t with inRow := row, last := off } }

/-- LOCKED is lost. -/
def loseLock (s : State) : State :=
  if s.hf.time.locked then
    { ctr .HF_TIME_LOSS_CNT 16 s with hf.time := { s.hf.time with locked := false, inRow := 0, outRow := 0 } }
  else s

/-- A measurement after first lock: beyond 1 ms the device unlocks and does not slew until RESTEP; else it slews, locks after 16
within the bound, and unlocks after 4 beyond four times the bound (R455). -/
def followOn (off : Int) (s : State) : State :=
  let s := { s with hf.time.last := off }
  if s.hf.time.stopped then s
  else if 1000000 < off.natAbs then
    let s := loseLock s
    { s with hf.time := { s.hf.time with stopped := true, slew := 0 } }
  else
    let t := { s.hf.time with slew := off }
    let t := if off.natAbs ≤ lockNs s then { t with inRow := t.inRow + 1, outRow := 0 }
      else { t with inRow := 0, outRow := if 4 * lockNs s < off.natAbs then t.outRow + 1 else 0 }
    let s := { s with hf.time := { t with locked := t.locked || 16 ≤ t.inRow } }
    if 4 ≤ t.outRow then loseLock s else s

/-- An offset from the source has been measured. -/
def measure (off : Int) (s : State) : State := if s.hf.time.everLock then followOn off s else firstLock off s

/-- TIME_SYNC over a link (R454): the path delay is half the round trip. It steers under SRC 4 away from the marshal; a
free-running marshal is its own source (R453). -/
def timeSyncOp (k t1 rtt : Nat) (s : State) : State :=
  let s := if (nget s.hf.links k).isSome then putLink k { linkOf s k with rtt := min rtt 0xFFFF } s else s
  if timeSrc s = 0 ∧ s.hf.marshal then measure 0 s
  else if timeSrc s = 4 ∧ !s.hf.marshal ∧ (linkOf s k).st = .up then measure ((t1 : Int) + (rtt / 2 : Nat) - now s) s
  else s

/-- What a complete PTP exchange says: the source's time less this device's (R454); under SRC 5 it gives the time of day. -/
def ptpOffset (t1 : Int) (s : State) : State :=
  let off := t1 + s.hf.time.path - s.hf.time.t2
  if timeSrc s = 5 then { s with hf.time.coarse := some off } else measure off s

/-- The port a source listens on: 0 management, 1 and 2 Ethernet 0 and 1. -/
def ptpPort (src : Nat) : Option Nat := match src with | 1 => some 0 | 2 => some 1 | 3 => some 2 | 5 => some 0 | _ => none

/-- PTP_MESSAGE, timestamped at arrival (R454). -/
def ptpOp (port : Nat) (m : PtpMsg) (s : State) : State :=
  if ptpPort (timeSrc s) ≠ some port then s
  else match m with
  | .sync t1 =>
    let s := send Mk.ptpDelayReq [port, now s] [] { s with hf.time := { s.hf.time with t1 := t1.map fun x => x.toNat, t2 := now s, t3 := now s } }
    match t1 with | some x => ptpOffset x.toNat s | none => s
  | .followUp t1 =>
    if s.hf.time.t1.isSome then s else ptpOffset t1.toNat { s with hf.time.t1 := some t1.toNat }
  | .delayResp t4 =>
    match s.hf.time.t1 with
    | some t1 => { s with hf.time.path := ((s.hf.time.t2 - t1) + ((t4.toNat : Int) - s.hf.time.t3)) / 2 }
    | none => s
  | .pdelayResp t2 t3 =>
    { s with hf.time.path := (((now s : Int) - s.hf.time.t3) - ((t3.toNat : Int) - t2.toNat)) / 2 }

/-- PPS_IN (R453, R457): timestamped; under SRC 5 it is the phase of a whole second of the time of day. -/
def ppsInOp (s : State) : State :=
  let s := { s with hf.time.ppsTs := now s }
  match s.hf.time.coarse with
  | some c =>
    if timeSrc s = 5 then
      let sec : Int := ((now s : Int) + c + 500000000) / 1000000000
      measure (sec * 1000000000 - now s) s
    else s
  | none => s

/-- PPS_OUT rises at a whole second while LOCKED (R457). -/
def ppsOutOp (s : State) : State :=
  if s.hf.time.locked ∧ bit (rg s .HF_TIME_CFG) 3 ∧ now s % 1000000000 = 0 then
    { s with hf.time := { s.hf.time with ppsOut := true, ppsAt := now s } }
  else s

/-- RESTEP: a device stopped by an offset beyond 1 ms steps once more to its source (R455). -/
def restepOp (s : State) : State :=
  if s.hf.time.stopped then
    shiftSpan s.hf.time.last { s with hf.time := { s.hf.time with stopped := false, inRow := 0, outRow := 0, slew := 0 } }
  else s

/-! ### The commands -/

def execRestep (q : Req) (s : State) : Result := .next (regGuard q ⟨.HF_CTL, 0, 0, 0⟩ restepOp s)
def execTimeSync (k : Fin 12) (t1 : BitVec 80) (rtt : W32) (s : State) : Result := .next (timeSyncOp k t1.toNat rtt.toNat s)
def execPtpMessage (port : Fin 3) (m : PtpMsg) (s : State) : Result := .next (ptpOp port m s)
def execPpsInEdge (s : State) : Result := .next (ppsInOp s)
def execPpsOutSecond (s : State) : Result := .next (ppsOutOp s)

end Sys2Proof.Machine
end

