-- ==== Sys2Proof/Machine/Sequencing.lean ====
section
/-! DEFINITION. What follows from a command inside the block: held work that may now go on (R84, R87, R132), steps and
generations that have ended, images that have drained; then the commands that reach Hitch, Splice, Lathe, Spindle, Whittle,
Cleat, Bight, Adze and Skein. -/

namespace Sys2Proof.Machine

/-! ### Descriptors at their units -/

/-- PARK, REVIVE, MIGRATE as Hitch applies them, ring members refused (R220). -/
def memberCmd (ring : Nat) (d : BitVec 512) (f : State → State) (s : State) : State := memberRefuse ring d (hHandle d) f s

/-- FORK by its option bit (R90). -/
def forkOp (ring : Nat) (d : BitVec 512) (s : State) : State :=
  if bit (hOpt d) 0 then memberRefuse ring d (hArg0 d) (forkSessOp ring d) s else forkNodeOp ring d s

/-- FREE (R83, R87, R220): a STEPPING session's generation is cancelled with its step (R280). -/
def freeAll (ring : Nat) (d : BitVec 512) (s : State) : State :=
  memberFree ring d (hHandle d) (fun s =>
    let n := hSlot (hHandle d)
    let s' := freeOp ring d s
    if (slotOf s' n).held.contains (ring, d) then classifyCancel n s' else s') s

/-- A held command goes on (R87, R132). -/
def runDesc (ring : Nat) (d : BitVec 512) (s : State) : State :=
  match dOp d with
  | 0x01 => createOp ring d s
  | 0x02 => forkOp ring d s
  | 0x03 => memberCmd ring d (parkOp ring d) s
  | 0x04 => memberCmd ring d (reviveOp ring d) s
  | 0x05 => memberCmd ring d (migrateOp ring d) s
  | 0x06 => freeAll ring d s
  | 0x21 => publishOp ring d s
  | 0x30 => attendOp ring d s
  | 0x31 => fillOp ring d s
  | _ => s

/-- A held command whose wait has ended: the session rests, or its step is the one the request belongs to. -/
def heldReady (x : Slot) (c : Nat × BitVec 512) : Bool :=
  if x.st = .stepping ∨ x.st = .moving then dOp c.2 == 0x30 && x.step.any fun st => st.serial == aStep c.2 && !st.cancel
  else true

/-- Held commands of one slot, in their order of arrival (R87). -/
def resumeSlot (n : Nat) (s : State) : State :=
  let x := slotOf s n
  let go := x.held.filter (heldReady x)
  if go = [] then s
  else go.foldl (fun s c => runDesc c.1 c.2 s) (putSlot n { x with held := x.held.filter fun c => !heldReady x c } s)

def resumeHeld (s : State) : State :=
  (s.ht.slots.filter fun e => e.2.held != []).foldl (fun s e => resumeSlot e.1 s) s

/-- Evictions in flight for a partition. -/
def evictions (s : State) (p : Nat) : Nat :=
  (s.ht.moves.filter fun m => m.why == .eviction && (slotOf s m.slot).part == p).length

/-- Commands that wait for pages go on when an eviction has ended (R132). -/
def resumeWaiting (s0 s : State) : State :=
  let go (c : Nat × BitVec 512) : Bool := match ringPart s c.1 with
    | some p => evictions s p < evictions s0 p || evictions s p == 0
    | none => true
  let l := s.ht.waiting.filter go
  if l = [] then s
  else l.foldl (fun s c => runDesc c.1 c.2 s) { s with ht.waiting := s.ht.waiting.filter fun c => !go c }

/-! ### What follows a command -/

def stepCancelled (s : State) (n : Nat) : Bool := (slotOf s n).step.any (·.cancel)

/-- Cancel bits set by the command: requests are abandoned and the ring's members told (R205, R223). -/
def cancelSweep (s0 s : State) : State :=
  (s.ht.slots.filter fun e => e.2.step.any (·.cancel) && !stepCancelled s0 e.1).foldl
    (fun s e => spnForwardCancel e.1 (cancelReqs e.1 s)) s

/-- Ring members whose slots have faulted (R228). -/
def memberSweep (s : State) : State :=
  (s.ht.slots.filter fun e => e.2.st == .faulted && (memberCtx s e.1).isSome).foldl (fun s e => memberFaulted e.1 s) s

/-- What becomes of a step whose session has faulted, or whose revive was abandoned while it ran at its deadline (R83, R89): its
requests complete FAULT_STATE_LOST or FAULT_CONTEXT and the step is given up. -/
def fateSweep (s : State) : State :=
  let lost (x : Slot) : Bool := x.st == .faulted || x.st == .free || (x.step.isSome && x.st != .stepping && x.st != .moving)
  let s := (s.la.reqs.filter fun r => lost (slotOf s r.slot) && (memberCtx s r.slot).isNone).foldl (fun s r =>
    let x := slotOf s r.slot
    endAreq r (if x.st == .faulted && (x.cause == 1 || x.cause == 2) then stFaultStateLost else stFaultContext) 0 s) s
  (s.ht.slots.filter fun e => e.2.step.isSome && lost e.2).foldl (fun s e => dropStep e.1 s) s

/-- Steps and generations that have ended, images that have drained, text and runs that can go on. -/
def unitSweep (s : State) : State :=
  let s := (s.bt.gens.map (·.1)).foldl (fun s n => sampleStepEnd n s) s
  let s := sweepDrafts (sweepGens s)
  let s := (s.ad.progs.filter fun e => e.2.st == .draining).foldl (fun s e => progDrained (e.1 / 256) (e.1 % 256) s) s
  let s := (s.sk.idx.filter fun e => e.2.st == .draining).foldl (fun s e => idxDrained (e.1 / 64) (e.1 % 64) s) s
  startRuns ((s.wh.streams.map (·.1)).foldl (fun s n => flushStrm n 4096 s) (settleImages s))

/-- Requests on the host link and on Harah follow the work that needs them; the checkpoint engines and Lanyard look again. -/
def edgeSweep (s : State) : State :=
  serdesSweep (pmSettle (lySettle (lySweep (ckSweep (syncHarah (syncDma (settleEngines s)))))))

/-- Everything that follows a command inside the block. -/
def after (s0 s : State) : State :=
  edgeSweep (releaseSteps (settleTags (resumeWaiting s0 (resumeHeld (unitSweep (fateSweep (memberSweep (cancelSweep s0 s))))))))

/-- A descriptor at its unit, and what follows (R340, R353). -/
def unitDesc (r : BitVec 16) (d : BitVec 512) (f : Nat → BitVec 512 → State → State) (s : State) : State :=
  after s (atUnit r.toNat d (f r.toNat d) s)

/-- A descriptor at Hitch: HBM is touched (R518). -/
def hitchDesc (op : Nat) (drainOk : Bool) (r : BitVec 16) (d : BitVec 512) (f : Nat → BitVec 512 → State → State) (s : State) : State :=
  unitDesc r d (fun r d s => hitchArrive op r d drainOk (f r d) { s with ly.hbmAt := now s }) s

/-! ### Hitch -/

def execCreate (r : BitVec 16) (d : BitVec 512) (s : State) : Result := .next (hitchDesc 1 false r d createOp s)
def execForkFromNode (r : BitVec 16) (d : BitVec 512) (s : State) : Result := .next (hitchDesc 2 false r d forkNodeOp s)
def execForkFromSession (r : BitVec 16) (d : BitVec 512) (s : State) : Result :=
  .next (hitchDesc 2 false r d (fun r d => memberRefuse r d (hArg0 d) (forkSessOp r d)) s)
def execPark (r : BitVec 16) (d : BitVec 512) (s : State) : Result :=
  .next (hitchDesc 3 false r d (fun r d => memberCmd r d (parkOp r d)) s)
def execRevive (r : BitVec 16) (d : BitVec 512) (s : State) : Result :=
  .next (hitchDesc 4 false r d (fun r d => memberCmd r d (reviveOp r d)) s)
def execMigrate (r : BitVec 16) (d : BitVec 512) (s : State) : Result :=
  .next (hitchDesc 5 false r d (fun r d => memberCmd r d (migrateOp r d)) s)
def execMigrateForceAdopt (r : BitVec 16) (d : BitVec 512) (s : State) : Result :=
  .next (hitchDesc 5 false r d migrateOp s)
def execFree (r : BitVec 16) (d : BitVec 512) (s : State) : Result := .next (hitchDesc 6 true r d freeAll s)
def execQuery (r : BitVec 16) (d : BitVec 512) (s : State) : Result := .next (hitchDesc 7 true r d queryOp s)
def execLookup (r : BitVec 16) (d : BitVec 512) (s : State) : Result := .next (hitchDesc 0x20 false r d lookupOp s)
def execPublish (r : BitVec 16) (d : BitVec 512) (s : State) : Result := .next (hitchDesc 0x21 false r d publishOp s)
def execDrop (r : BitVec 16) (d : BitVec 512) (s : State) : Result := .next (hitchDesc 0x22 false r d dropOp s)
def execPfxRekey (q : Req) (v : W32) (s : State) : Result := .next (regGuard q ⟨.HT_PFX_REKEY, 0, 0, 0⟩ (rekeyOp v.toNat) s)

/-- FAILOVER and REINSTATE need the device-wide marker (R105). -/
def hitchCtl (q : Req) (f : State → State) (s : State) : State := regGuard q ⟨.HT_CTL, 0, 0, 0⟩ f s

def execHitchFailover (q : Req) (s : State) : Result := .next (hitchCtl q takeover s)
def execHitchHeartbeatMiss (s : State) : Result := .next (hitchFault s)
def execHitchReinstate (q : Req) (pass : Bool) (s : State) : Result := .next (hitchCtl q (reinstate pass) s)
def execHitchResyncDone (s : State) : Result := .next (resyncDone s)
def execHitchJournalAck (s : State) : Result := .next (journalAck s)

def execHtReserve (src tag : BitVec 16) (h : W64) (p : Fin 16) (pages : W32) (pol : W64) (tokens : W32) (s : State) : Result :=
  .next (after s (htReserveOp src.toNat tag.toNat h.toNat p pages.toNat pol.toNat tokens.toNat s))
def execHtArrived (src tag : BitVec 16) (h : W64) (s : State) : Result :=
  .next (after s (htArrivedOp src.toNat tag.toNat h.toNat s))

/-- HT_RELEASE: one that names another destination handle than the reserved slot's is answered STALE_HANDLE. -/
def htReleaseMsg (src tag h dst : Nat) (s : State) : State :=
  if s.ht.migIn.any fun m => m.old == h && handleOf m.slot (slotOf s m.slot) != dst then hfRespond 0x84 src tag stStaleHandle 0 [] s
  else htReleaseOp src tag h s

def execHtRelease (src tag : BitVec 16) (h dst : W64) (s : State) : Result :=
  .next (after s (htReleaseMsg src.toNat tag.toNat h.toNat dst.toNat s))
def execHtAsk (src tag : BitVec 16) (h : W64) (s : State) : Result := .next (htAskOp src.toNat tag.toNat h.toNat s)
def execMigRetryTimer (slot : BitVec 24) (s : State) : Result := .next (migRetryOp slot.toNat s)

/-- MOVE_COMMIT: an arriving migration commits by its release alone (R94). -/
def moveCommitOp (n : Nat) (s : State) : State :=
  if s.ht.migIn.any fun i => i.slot == n then s else commitMove n { s with ly.hbmAt := now s }

def execMoveCommit (slot : BitVec 24) (s : State) : Result := .next (after s (moveCommitOp slot.toNat s))
def execStepEnd (slot : BitVec 24) (s : State) : Result := .next (after s (stepEndOp slot.toNat s))

/-- DEADLINE_EXPIRY (R89, R128). -/
def deadlineOp (n : Nat) (s : State) : State :=
  match deadlineRun n s with
  | some (r, d, s') =>
    let x := slotOf s' n
    attendInStep r d n x.part (stepView s' n) ((if x.step.any (·.degraded) then flDegraded else 0) ||| (if x.revived then flRevived else 0))
      (putSlot n { x with revived := false } s')
  | none => s

def execDeadlineExpiry (slot : BitVec 24) (s : State) : Result := .next (after s (deadlineOp slot.toNat s))

/-- DEMOTION_DUE (R521, R522): Lanyard asks; HBM wakes for it (R519). -/
def demotionOp (p : Nat) (warm : Bool) (s : State) : State :=
  let due := (ngetD (if warm then s.ht.warm else s.ht.hot) p []).head?.any fun e =>
    demoteAfter s warm != 0 && e.2 + demoteAfter s warm ≤ now s
  if lyRuns s ∧ due then demoteOp p warm (hbmTouch 4 s) else s

def execDemotionDue (p : Fin 16) (warm : Bool) (s : State) : Result := .next (after s (demotionOp p warm s))

/-! ### Splice -/

def spliceDesc (op : Nat) (ring : Nat) (d : BitVec 512) (s : State) : State := copyOp op ring d (openCopies s) s

def execCopy (r : BitVec 16) (d : BitVec 512) (s : State) : Result := .next (unitDesc r d (spliceDesc 0x10) s)
def execZero (r : BitVec 16) (d : BitVec 512) (s : State) : Result := .next (unitDesc r d (spliceDesc 0x11) s)
def execSwapPost (r : BitVec 16) (d : BitVec 512) (s : State) : Result := .next (unitDesc r d swapPostOp s)

/-- SPLICE_TILE_ACK (R124): a tile of a COPY or ZERO, of a migration arriving, or of a session's move; one that nothing waits for
is owed under an earlier epoch, or nothing (R384). -/
def tileAckOp (x : TileRef) (rd : List Byte) (s : State) : State :=
  match x with
  | .job r d t =>
    match jobOf s r d with
    | some j => if j.pend.contains t then ackJobTile j t rd (markMixed j s) else epochDrop 4 s
    | none => epochDrop 4 s
  | .move n e t =>
    if !(moveOf s n).any fun m => (tilesFlying s m).contains (e, t) then epochDrop 4 s
    else
      let s := { s with ly.hbmAt := now s }
      if s.ht.migIn.any fun i => i.slot == n then migTile n e t rd s else ackMoveTile n e t rd s

def execSpliceTileAck (x : TileRef) (rd : List Byte) (s : State) : Result := .next (after s (tileAckOp x rd s))
def execT2WriteTimeout (x : TileRef) (error : Bool) (s : State) : Result := .next (after s (t2WriteFail x error s))
def execTornScrub (page : Nat) (ok : Bool) (s : State) : Result := .next (scrubPage page ok s)
def execT2Evict (q : Req) (n : Fin 4) (s : State) : Result :=
  .next (after s (regGuard q ⟨.SP_T2_CTL, n, 0, 0⟩ (t2EvictOp n) s))
def execT2EvictDone (n : Fin 4) (s : State) : Result := .next (t2EvictDoneOp n s)
def execT2Admit (q : Req) (n : Fin 4) (s : State) : Result :=
  .next (regGuard q ⟨.SP_T2_CTL, n, 0, 0⟩ (t2AdmitOp q n) s)
def execSurpriseWalkEnd (n : Fin 4) (s : State) : Result := .next (after s (walkEndOp n s))
def execPersistAck (q : Req) (p : Fin 16) (id : W64) (s : State) : Result :=
  .next (after s (regGuard q ⟨.SP_PART_PERSIST_ACK_HI, p, 0, 0⟩ (persistAckOp p id.toNat) s))
def execPersistTimeout (slot : BitVec 24) (s : State) : Result := .next (after s (persistTimeoutOp slot.toNat s))
def execSpillAreaLow (p : Fin 16) (s : State) : Result := .next (spillDown p s.la.spills.length s)

/-! ### Lathe and Spindle -/

def execAttend (r : BitVec 16) (d : BitVec 512) (s : State) : Result := .next (unitDesc r d attendOp s)

/-- ATTEND_OUTPUT_ACK: the output of an attention request, a FILL or a RUN is acknowledged (R206, R304). -/
def outputAckOp (ring : Nat) (d : BitVec 512) (s : State) : State :=
  if dOp d = 0x62 then (match runOf s ring d with | some r => runAck r s | none => s) else attendAckOp ring d s

def execAttendOutputAck (r : BitVec 16) (d : BitVec 512) (s : State) : Result := .next (after s (outputAckOp r.toNat d s))
def execFill (r : BitVec 16) (d : BitVec 512) (s : State) : Result := .next (unitDesc r d fillOp s)
def execFillCommit (c : Fin 8) (s : State) : Result := .next (after s (fillCommitOp c s))

/-- The preemption Capstan asked for on a server has been carried out (R362). -/
def preemptDone (srv : Nat) (s : State) : State := { s with cp.preempt := s.cp.preempt.filter fun e => e.1 % 18 != srv }

def execLathePreempt (g : Fin 16) (ns : Nat) (s : State) : Result := .next (preemptDone (g / 4) (preemptOp g ns s))
def execLatheResume (r : BitVec 16) (d : BitVec 512) (s : State) : Result := .next (resumeOp r.toNat d s)

/-- A write of LG_SPN_CTL[c] (R229). -/
def spnCtl (q : Req) (c : Fin 8) (f : Nat → State → State) (s : State) : State := regGuard q ⟨.LG_SPN_CTL, c, 0, 0⟩ (f c) s

def execSpnArm (q : Req) (c : Fin 8) (s : State) : Result := .next (spnCtl q c armOp s)
def execSpnDisarm (q : Req) (c : Fin 8) (s : State) : Result := .next (spnCtl q c disarmOp s)
def execSpnAbort (q : Req) (c : Fin 8) (s : State) : Result := .next (spnCtl q c spnAbortOp s)
def execSpnDigest (src tag ringId : BitVec 16) (dg : W64) (s : State) : Result :=
  .next (spnDigestOp src.toNat tag.toNat ringId.toNat dg.toNat s)
def execSpnFormTimeout (c : Fin 8) (s : State) : Result := .next (formTimeoutOp c s)
def execSpnNeighbourSilent (c : Fin 8) (pred : Bool) (s : State) : Result := .next (silentOp c pred s)
def execSpnStallTimeout (c : Fin 8) (s : State) : Result := .next (after s (stallOp c s))
def execSpnGateBoundary (c : Fin 8) (s : State) : Result := .next (gateOp c s)
def execSpnWork (src tag ringId layer step : BitVec 16) (d : BitVec 512) (tok : W32) (q : List Byte) (par : List Nat) (k v : List Byte) (s : State) : Result :=
  .next (spnWorkOp src.toNat tag.toNat ringId.toNat layer.toNat step.toNat d tok.toNat q par k v s)
def execSpnState (src tag ringId layer step rank fl : BitVec 16) (data : List Byte) (s : State) : Result :=
  .next (spnStateOp src.toNat tag.toNat ringId.toNat layer.toNat step.toNat rank.toNat fl.toNat data s)

/-- SPN_CTL commit at a rank, for the step in progress there (R222). -/
def spnCtlCommitOp (src tag ringId step tok : Nat) (rows : List Nat) (s : State) : State :=
  match (ringCtx s ringId).bind fun e => (slotOf s e.2.slot).step with
  | some st => if st.serial = step then spnCommitOp src tag ringId tok rows s else hfRespond 0x84 src tag stStaleHandle 0 [] s
  | none => hfRespond 0x84 src tag stStaleHandle 0 [] s

def execSpnCtlCommit (src tag ringId step : BitVec 16) (tok : W32) (rows : List Nat) (s : State) : Result :=
  .next (after s (spnCtlCommitOp src.toNat tag.toNat ringId.toNat step.toNat tok.toNat rows s))
def execSpnCtlCancel (src tag ringId step : BitVec 16) (s : State) : Result :=
  .next (after s (spnCancelOp src.toNat tag.toNat ringId.toNat step.toNat s))
def execSpnCtlDown (src tag ringId : BitVec 16) (s : State) : Result :=
  .next (after s (spnDownOp src.toNat tag.toNat ringId.toNat s))

/-! ### Whittle -/

def execTokenize (r : BitVec 16) (d : BitVec 512) (s : State) : Result := .next (unitDesc r d tokenizeOp s)
def execDetokenize (r : BitVec 16) (d : BitVec 512) (s : State) : Result := .next (unitDesc r d detokenizeOp s)
def execVocabLoad (r : BitVec 16) (d : BitVec 512) (s : State) : Result := .next (unitDesc r d vocabLoadOp s)
def execVocabUnload (r : BitVec 16) (d : BitVec 512) (s : State) : Result := .next (unitDesc r d vocabUnloadOp s)

/-- The end of a load or of a verification, by the kind of slot (R235, R261, R302, R316). -/
def imgDone (x : ImgRef) (s : State) : State :=
  match x with
  | .voc v => vocabDone v s
  | .gram p g => gramDone p g s
  | .prog p k => progDone p k.toNat s
  | .idx p k => idxDone p k s

def imgVerify (x : ImgRef) (s : State) : State :=
  match x with
  | .voc v => vocabVerify v s
  | .gram p g => gramVerify p g s
  | .prog p k => progVerify p k.toNat s
  | .idx p k => idxVerify p k s

def execVocabLoadDone (x : ImgRef) (s : State) : Result := .next (after s (imgDone x s))
def execSlotVerifyDone (x : ImgRef) (s : State) : Result := .next (after s (imgVerify x s))
def execStreamChunkAck (slot : BitVec 24) (s : State) : Result := .next (after s (chunkAck slot.toNat s))

/-! ### Cleat and Bight -/

def execGenOpen (r : BitVec 16) (d : BitVec 512) (s : State) : Result := .next (unitDesc r d genOpenOp s)
def execSample (r : BitVec 16) (d : BitVec 512) (s : State) : Result := .next (unitDesc r d sampleOp s)
def execCommitPoint (slot : BitVec 24) (s : State) : Result := .next (after s (commitPointOp slot.toNat s))
def execCancel (r : BitVec 16) (d : BitVec 512) (s : State) : Result := .next (unitDesc r d cancelOp s)

/-- A write of BT_CANCEL_HI[p], alone or as the upper half of an 8-byte write (R49, R280). -/
def btCancelWriteOp (q : Req) (p : Nat) (lo : Option Nat) (hi : Nat) (s : State) : State :=
  regGuard q ⟨.BT_CANCEL_HI, p, 0, 0⟩ (fun s =>
    let s := match lo with | some v => rp .BT_CANCEL_LO p 0 0 v s | none => s
    btCancelOp q p (rg s .BT_CANCEL_LO p + 2 ^ 32 * hi) s) s

def execBtCancelWrite (q : Req) (p : Fin 16) (lo : Option W32) (hi : W32) (s : State) : Result :=
  .next (after s (btCancelWriteOp q p (lo.map (·.toNat)) hi.toNat s))
def execGramLoad (r : BitVec 16) (d : BitVec 512) (s : State) : Result := .next (unitDesc r d gramLoadOp s)
def execGramUnload (r : BitVec 16) (d : BitVec 512) (s : State) : Result := .next (unitDesc r d gramUnloadOp s)

/-! ### Adze -/

def execLoad (r : BitVec 16) (d : BitVec 512) (s : State) : Result := .next (unitDesc r d loadOp s)
def execUnload (r : BitVec 16) (d : BitVec 512) (s : State) : Result := .next (unitDesc r d unloadOp s)
def execRun (r : BitVec 16) (d : BitVec 512) (s : State) : Result := .next (unitDesc r d runOp s)
def execDraftRun (r : BitVec 16) (d : BitVec 512) (s : State) : Result := .next (unitDesc r d runOp s)
def execDraftTileLate (r : BitVec 16) (d : BitVec 512) (s : State) : Result := .next (after s (draftLate r.toNat d s))
def execAdzePreempt (r : BitVec 16) (d : BitVec 512) (ns : Nat) (s : State) : Result :=
  .next (preemptDone 16 (adzePreemptOp r.toNat d ns s))
def execAdzeResume (r : BitVec 16) (d : BitVec 512) (s : State) : Result := .next (adzeResumeOp r.toNat d s)

/-! ### Skein -/

def execSearch (r : BitVec 16) (d : BitVec 512) (s : State) : Result := .next (unitDesc r d searchOp s)
def execSearchExhaustive (r : BitVec 16) (d : BitVec 512) (s : State) : Result := .next (unitDesc r d searchOp s)
def execSearchSharded (r : BitVec 16) (d : BitVec 512) (s : State) : Result := .next (unitDesc r d searchOp s)
def execShardAnswer (p : Fin 16) (serial : BitVec 16) (shard : Fin 64) (st : BitVec 8) (blocks : Option (List Byte)) (s : State) : Result :=
  .next (after s (shardAnswerOp p serial.toNat shard st.toNat blocks s))
def execShardTimeout (p : Fin 16) (serial : BitVec 16) (s : State) : Result := .next (after s (shardTimeoutOp p serial.toNat s))
def execShardHoldExpiry (p : Fin 16) (serial : BitVec 16) (s : State) : Result := .next (after s (shardHoldOp p serial.toNat s))
def execIndexOpen (r : BitVec 16) (d : BitVec 512) (s : State) : Result := .next (unitDesc r d indexOpenOp s)
def execIndexClose (r : BitVec 16) (d : BitVec 512) (s : State) : Result := .next (unitDesc r d indexCloseOp s)

/-! ### Commands of other units after which held work may go on -/

def execDescriptorFetch (r : BitVec 16) (s : State) : Result := .next (after s (fetchOp r.toNat s))
def execServerDispatch (p : Fin 16) (srv : Fin 18) (s : State) : Result := .next (after s (dispatchOp p srv s))
def execYellowTimeout (item : Nat) (s : State) : Result := .next (after s (yellowOp item s))
def execEngineEnable (q : Req) (b : EngKind) (e : BitVec 9) (v : Bool) (s : State) : Result := .next (after s (regGuard q ⟨engCtl (kindBlk b), e.toNat, 0, 0⟩ (fun s => if engCount (kindBlk b) ≤ e.toNat then s else engEnable (kindBlk b) e.toNat v s) s))
def execEngineDrain (q : Req) (b : EngKind) (e : BitVec 9) (s : State) : Result := .next (after s (regGuard q ⟨engCtl (kindBlk b), e.toNat, 0, 0⟩ (fun s => if engCount (kindBlk b) ≤ e.toNat then s else engDrain (kindBlk b) e.toNat s) s))
def execEngineAbort (q : Req) (b : EngKind) (e : BitVec 9) (s : State) : Result := .next (after s (regGuard q ⟨engCtl (kindBlk b), e.toNat, 0, 0⟩ (fun s => if engCount (kindBlk b) ≤ e.toNat then s else engAbort (kindBlk b) e.toNat s) s))
def execEngineFence (b : EngKind) (e : BitVec 9) (s : State) : Result := .next (after s (engFence (kindBlk b) e.toNat s))
def execPmInstReset (q : Req) (block : BitVec 8) (i : BitVec 12) (s : State) : Result := .next (after s (regGuard q ⟨.PM_INST_RESET, 0, 0, 0⟩ (instReset block.toNat i.toNat) s))
def execResponseTimeout (b : Fin 21) (s : State) : Result := .next (after s (responseTimeout b s))
def execUnitDrainWrite (q : Req) (u : DrainUnit) (v : Bool) (s : State) : Result := .next (after s (regGuard q ⟨drainReg u, 0, 0, 0⟩ (regSetBit (drainReg u) 0 0 v) s))
def execSpareCopyDone (t : BitVec 8) (readable : Bool) (bad : List (BitVec 25)) (s : State) : Result := .next (after s (copyDone t.toNat readable bad s))
def execHmSpare (q : Req) (t : BitVec 8) (s : State) : Result := .next (after s (regGuard q ⟨.HM_SPARE_CMD, 0, 0, 0⟩ (spareOp t.toNat) s))
def execDetectedFault (x : Struck) (inj : Option (Fin 64)) (s : State) : Result := .next (after s (reported inj (struckOp x) s))
def execRegisterParityFault (off : BitVec 26) (inj : Option (Fin 64)) (s : State) : Result := .next (after s (reported inj (parityOp off.toNat) s))
def execHeartwoodRestartDone (s : State) : Result := .next (after s (restartDone s))
def execGroupDrainsComplete (g : Fin 16) (s : State) : Result := .next (after s (grpDrainedOp g s))
def execGroupIdleExpiry (g : Fin 16) (s : State) : Result := .next (after s (grpIdleOp g s))
def execDomainReady (i : Fin 48) (s : State) : Result := .next (after s (domainReadyOp i s))
def execWakeStagger (g : Fin 16) (s : State) : Result := .next (after s (staggerOp g s))
def execWatchModeEntry (s : State) : Result := .next (after s (watchOp s))
def execLayApply (q : Req) (p : Fin 16) (img : LayImg) (s : State) : Result := .next (after s (regGuard q ⟨.HW_LAY_CTL, 0, 0, 0⟩ (layApplyWrite p img) s))
def execPartTeardown (q : Req) (p : Fin 16) (s : State) : Result := .next (after s (regGuard q ⟨.HW_PART_CTL, p, 0, 0⟩ (tearDown p) s))
def execPartDrain (q : Req) (p : Fin 16) (v : Bool) (s : State) : Result := .next (after s (regGuard q ⟨.HW_PART_CTL, p, 0, 0⟩ (regSetBit .HW_PART_CTL p 0 v) s))
def execHarahResponse (r : HfRsp) (data : List Byte) (s : State) : Result := .next (after s (responseOp r data s))
def execE2eTimeout (tag : BitVec 16) (s : State) : Result := .next (after s (e2eOp tag.toNat s))
def execFarPortLinkLoss (n : Fin 4) (s : State) : Result := .next (after s (farLinkLoss n s))
def execFarPortPresenceChange (n : Fin 4) (present : Bool) (s : State) : Result := .next (after s (presenceOp n present s))
def execMemActiveTimeout (n : Fin 4) (s : State) : Result := .next (after s (memActiveOp n s))
def execCkStart (q : Req) (p : Fin 16) (verify : Bool) (s : State) : Result := .next (after s (regGuard q ⟨.CK_CTL, p, 0, 0⟩ (ckStartOp p false verify) s))
def execCkEvacuate (q : Req) (p : Fin 16) (verify : Bool) (s : State) : Result := .next (after s (regGuard q ⟨.CK_CTL, p, 0, 0⟩ (ckStartOp p true verify) s))
def execCkAbort (q : Req) (p : Fin 16) (s : State) : Result := .next (after s (regGuard q ⟨.CK_CTL, p, 0, 0⟩ (ckEnd p 8) s))
def execCkShardDurable (p : Fin 16) (g : Nat) (i : Fin 10) (s : State) : Result := .next (after s (shardDurable p g i s))
def execCkShardFail (p : Fin 16) (x : Option (Nat × Fin 10)) (s : State) : Result := .next (after s (shardFail p (x.map fun e => (e.1, e.2.val)) s))
def execCkReadbackDone (p : Fin 16) (g : Nat) (i : Fin 10) (digest : BitVec 384) (s : State) : Result := .next (after s (readBack p g i digest.toNat s))
def execCkManifestDurable (p : Fin 16) (s : State) : Result := .next (after s (ckCommit p s))
def execCkRestoreReadDone (p : Fin 16) (g : Nat) (rd : List (Fin 10 × Option (List Byte))) (s : State) : Result := .next (after s (restoreGroup p g (rd.map fun e => (e.1.val, e.2)) s))
def execRingEnable (q : Req) (r : BitVec 16) (v : W32) (s : State) : Result := .next (after s (ringCfgOp q r.toNat v.toNat s))
def execRingDrain (q : Req) (r : BitVec 16) (s : State) : Result := .next (after s (regGuard q ⟨.DB_CFG, r.toNat, 0, 0⟩ (drainRing r.toNat) s))
def execRingAbort (q : Req) (r : BitVec 16) (s : State) : Result := .next (after s (regGuard q ⟨.DB_CFG, r.toNat, 0, 0⟩ (abortRing r.toNat) s))
def execFlr (f : BitVec 7) (s : State) : Result := .next (after s (flrOp f.toNat s))
def execHostLinkDown (s : State) : Result := .next (after s (linkDownOp s))
def execHostLinkUp (speed : BitVec 2) (width : BitVec 5) (s : State) : Result := .next (after s (linkUpOp speed.toNat width.toNat s))
def execHostDmaCompletionError (id : Nat) (poison : Bool) (s : State) : Result := .next (after s (dmaErrorOp id poison s))
def execHostDmaTimeout (id : Nat) (s : State) : Result := .next (after s (dmaTimeoutOp id s))
def execRouteHoldRelease (d : BitVec 16) (s : State) : Result := .next (after s (holdRelease d.toNat s))
def execRouteUpdate (es : List (BitVec 16 × BitVec 16)) (s : State) : Result := .next (after s (routesOp (es.map fun e => (e.1.toNat, e.2.toNat)) s))

end Sys2Proof.Machine
end

