-- ==== Sys2Proof/Machine/RegLive.lean ====
section
/-! DEFINITION. What the read-only, live and snapshot fields of the registers read (the register tables of every chapter): one
function per group of blocks, joined in `regLive`. RW fields are in the register file; WT fields read 0. -/

namespace Sys2Proof.Machine

/-- 32-bit word `i` of a number. -/
def wordOf (v i : Nat) : Nat := v / 2 ^ (32 * i) % 2 ^ 32

/-- A field of `w` bits at bit `lo`. -/
def fieldAt (v w lo : Nat) : Nat := v % 2 ^ w * 2 ^ lo

/-- A field that saturates. -/
def satAt (v w lo : Nat) : Nat := min v (2 ^ w - 1) * 2 ^ lo

/-- A one-bit field. -/
def flagAt (b : Bool) (lo : Nat) : Nat := if b then 2 ^ lo else 0

/-- A number of the partition's plan, 0 where the partition does not exist. -/
def planOf (s : State) (p : Nat) (f : PartPlan → Nat) : Nat := match partPlan s p with | some pl => f pl | none => 0

/-- The holding bank of a requester (R44). -/
def bankFor (q : Req) : Nat := if q.dev then 16 else q.part.toNat

/-- Word k of a big-endian digest. -/
def digestWord (d : List Byte) (k : Nat) : Nat := leNat ((d.drop (4 * k)).take 4)

/-! ### The common header (R37) -/

/-- Engines of a block that satisfy a test. -/
def engAny (s : State) (b : Nat) (f : Eng → Bool) : Bool := s.engs.any fun e => e.1 / 1024 == b && f e.2

/-- FENCED of XX_STAT. -/
def hdrFenced (s : State) (b : Nat) : Bool :=
  s.ax.unitFenced.contains b || engAny s b (·.st == .fenced) || (b == 0x13 && s.lay.chFenced != []) ||
  (b == 0x13 && s.sp.hbm.any (·.2.fenced)) || (b == 0xD && s.hf.links.any (·.2.fenced)) || (b == 2 && (s.ht.aFenced || s.ht.bFenced))

/-- The DRAIN bit of a unit reads 1 (R587), or an instance of it drains. -/
def hdrDraining (s : State) (b : Nat) : Bool :=
  engAny s b (·.st == .draining) || (b == 0xE && s.hp.rings.any (·.2.st == .draining)) ||
  (b == 0xD && s.hf.links.any (·.2.st == .draining)) ||
  (b == 1 && (List.range 16).any fun p => bit (rg s .HW_PART_CTL p) 0 && !partEmpty s p) ||
  (match b with
   | 2 => bit (rg s .HT_CTL) 0 | 3 => bit (rg s .CP_CTL) 0 | 4 => bit (rg s .SP_CTL) 0 | 6 => bit (rg s .LA_CTL) 0
   | 8 => bit (rg s .AD_CTL) 0 | 9 => bit (rg s .WH_CTL) 0 | 0xA => bit (rg s .CL_CTL) 0 | 0xB => bit (rg s .BT_CTL) 0
   | 0xC => bit (rg s .SK_CTL) 0 | _ => false)

/-- Block offsets of the registers whose parity fails. -/
def parityOffs (s : State) (b : Nat) : List Nat :=
  (nget s.ax.parity b).toList ++ (s.ax.parInst.filter fun e => e.1 / 4096 == b).map fun e => e.2 % 0x100000

/-- The unit's epoch: how often it has been raised, mod 16 (R378, R396, R383). -/
def unitEpoch (s : State) (b : Nat) : BitVec 4 :=
  ngetD s.ax.unitEp b 0 + (if b = 2 then s.ht.epoch else if b = 0xE then s.hp.epoch else 0)

def liveHdr (s : State) (q : Req) (b : Nat) (ra : RegAt) : Nat :=
  let key := 32 * b + bankFor q
  match ra.id with
  | .XX_BLOCK_ID => b + fieldAt Config.stepping 8 16
  | .XX_STAT =>
    flagAt (parityOffs s b != []) 0 + flagAt (hdrFenced s b) 1 +
    flagAt (s.ax.inReset.contains b || s.lay.instBusy.any fun i => i.1 == b) 2 + flagAt (hdrDraining s b) 3
  | .XX_EPOCH => (unitEpoch s b).toNat
  | .XX_PAR_LOC => ((parityOffs s b).min?).getD 0
  | .XX_SNAP_SEQ => (ngetD s.ax.capSeq key 0).toNat
  | .XX_SNAP_TS => wordOf (ngetD s.ax.capTs key 0) ra.i
  | _ => 0

/-! ### Engines (R378-R387) -/

/-- ACTIVE, DRAINING, FENCED, SUBSTITUTED of an ENG_STAT register. -/
def engStat (s : State) (b e : Nat) : Nat :=
  let x := engOf s b e
  flagAt (x.work != 0 || engMoves s b e) 0 + flagAt (x.st == .draining) 1 + flagAt (x.st == .fenced) 2 + flagAt x.subst 3

/-- The partition that owns an engine of a list of the plans. -/
def planOwner (s : State) (f : PartPlan → Bool) : Nat :=
  match (layParts s.lay.img).find? fun e => f e.2 with | some e => if s.lay.laid then e.1 else 0 | none => 0

/-- The partition that owns an engine (the ENG_MAP registers); a spare's is that of the engine it serves. -/
def engPart (s : State) (b e : Nat) : Nat :=
  let v := (engOf s b e).serves
  match b with
  | 6 => planOwner s fun pl => pl.groups.contains (if v < 256 then v / 16 else v - 256)
  | 8 => planOwner s fun pl => pl.adze.contains v
  | _ => planOwner s fun pl => pl.text.contains v

/-- ENG_STAT and ENG_MAP of the text group's kinds: RESERVE at bit 4, SERVES and PART. -/
def textStat (s : State) (b e : Nat) : Nat := engStat s b e + flagAt (reservedEng s b e) 4
def textMap (s : State) (b e : Nat) : Nat := fieldAt (engOf s b e).serves 4 0 + fieldAt (engPart s b e) 4 4

/-- Strands in use on an Adze engine: those of the stage of the RUN that holds it (R306, R307). -/
def adzeStrands (s : State) (e : Nat) : Nat :=
  match s.ad.runs.find? fun r => r.st == .running && r.engs.contains e with
  | some r => (stageAt (progOf s r.part r.k).cont 0).strands
  | none => 0

/-! ### Access tables, injection, Hitch, tiers -/

def liveAx (s : State) (ra : RegAt) : Nat :=
  match ra.id with
  | .AX_STAGE => (axEntry s ra.i ra.j).toNat &&& 0x0F000000
  | .AX_ACTIVE => (axEntry s ra.i ra.j).toNat
  | .AX_STAT => flagAt (axOld s ra.i == 0) 0 + fieldAt (axEpochOf s ra.i).toNat 4 4 + satAt (axOld s ra.i) 16 16
  | .AX_CEIL => ngetD s.lay.img.axCeil ra.i 0 % 0x10000
  | .INJ_AUTH_STAT => flagAt s.ax.injOn 0
  | .INJ_AUTH_EXPIRY => if s.ax.injOn then wordOf s.ax.injExp ra.i else 0
  | .INJ_STAT => flagAt (nget s.ax.armed ra.i).isSome 0
  | .INJ_FIRED => ngetD s.ax.firedCap ra.i 0 % 2 ^ 32
  | _ => 0

def liveHt (s : State) (ra : RegAt) : Nat :=
  let p := ra.i
  match ra.id with
  | .HT_STAT =>
    flagAt s.ht.activeA 0 + flagAt (!s.ht.activeA) 1 + flagAt (hasStandby s && s.ht.journal.isEmpty) 2 +
    flagAt (if s.ht.activeA then s.ht.bFenced else s.ht.aFenced) 3 + flagAt s.ht.resync 4 + flagAt (moveFull s) 5
  | .HT_JOURNAL_LAG => satAt s.ht.journal.length 16 0
  | .HT_PART_SLOT_BASE => planOf s p (·.slotBase) % 2 ^ 24
  | .HT_PART_SLOT_COUNT => planOf s p (·.slotCount) % 2 ^ 25
  | .HT_PART_DESC_BASE_LO => wordOf (planOf s p (·.descBase)) 0
  | .HT_PART_DESC_BASE_HI => wordOf (planOf s p (·.descBase)) 1 % 2 ^ 16
  | .HT_PART_LIVE => liveSlots s p
  | .HT_PART_MOVING => movingSlots s p
  | .HT_PFX_MEMBER_LO => wordOf (ngetD s.pfx.member (rg s .HT_PFX_MEMBER_SEL) 0) 0
  | .HT_PFX_MEMBER_HI => wordOf (ngetD s.pfx.member (rg s .HT_PFX_MEMBER_SEL) 0) 1
  | .HT_PFX_PAGES_CEIL => planOf s p (·.pfxCeil) % 2 ^ 26
  | .HT_PFX_PAGES => treePages s p
  | .HT_PFX_NODES_MAX => planOf s p (·.nodeMax) % 2 ^ 24
  | .HT_PFX_NODES => (treeNodes s p).length
  | .HT_PFX_STAT =>
    let none' := !(treeNodes s p).any fun e => evictable e.2
    flagAt (none' && min (rg s .HT_PFX_PAGES_MAX p) (planOf s p (·.pfxCeil)) ≤ treePages s p) 0 +
    flagAt (none' && planOf s p (·.nodeMax) ≤ (treeNodes s p).length) 1 + flagAt ((treeNodes s p).any (·.2.doomed)) 2
  | _ => 0

def liveSp (s : State) (ra : RegAt) : Nat :=
  let i := ra.i
  match ra.id with
  | .SP_ENG_STAT => engStat s 4 i + satAt (engOutstanding s 4 i) 11 4
  | .SP_PART_SWAP_PAGES => satAt (swapPages s i) 32 0
  | .SP_T2_STAT =>
    let d := farOf s i
    flagAt d.present 0 + flagAt d.accepting 1 + flagAt d.removing 2 + flagAt d.walking 3 + flagAt d.gone 4 + flagAt d.admitted 5
  | .SP_T2_CAP => (farOf s i).pages % 2 ^ 27
  | .CK_STAT =>
    let x := ckOf s i
    flagAt (x.phase != 0) 0 + flagAt (x.phase == 1) 1 + flagAt (x.phase == 3) 2 + flagAt (x.phase == 4) 3 + fieldAt x.result 4 4
  | .CK_SERIAL_LO => wordOf (ckOf s i).last 0
  | .CK_SERIAL_HI => wordOf (ckOf s i).last 1
  | .CK_PROGRESS => satAt (ckOf s i).progress 24 0
  | _ => 0

def liveHm (s : State) (ra : RegAt) : Nat :=
  let i := ra.i
  match ra.id with
  | .HM_STACK_STAT =>
    let x := stackAt s i
    flagAt x.ready 0 + flagAt x.selfRefresh 1 + flagAt x.throttled 2 + flagAt x.fenced 3
  | .HM_STACK_TEMP => ((stackAt s i).temp % 256).toNat
  | .HM_CH_STAT =>
    let st := stackAt s (i / 32)
    flagAt (st.ready && !st.selfRefresh && !s.lay.chFenced.contains i) 0 + flagAt (s.lay.spared.contains i) 1 +
    flagAt (s.lay.chFenced.contains i) 2 + flagAt (s.lay.scrubbing.contains i) 3 + satAt (ngetD s.lay.rowsSpared i 0) 8 8 +
    satAt (rowsLeft s i) 8 16
  | .HM_SPARE_STAT => satAt (spareLeft s i) 2 0 + flagAt (s.lay.copying.any fun t => t / 32 == i) 2
  | _ => 0

/-! ### Lathe, Spindle, Adze, text group -/

def liveLathe (s : State) (ra : RegAt) : Nat :=
  let i := ra.i
  let sp := ctxOf s i
  match ra.id with
  | .LA_ENG_STAT => engStat s 6 i + flagAt (engOf s 6 i).preempting 4 + satAt (engOf s 6 i).work 7 5
  | .LA_ENG_MAP => fieldAt (engOf s 6 i).serves 9 0 + fieldAt (engPart s 6 i) 4 9
  | .LG_PREEMPT_BOUND => 5000
  | .LG_GRP_STAT =>
    let es := (List.range 16).map (fun e => 16 * i + e) ++ [256 + i]
    flagAt ((domOf s (8 * (i / 4) + i % 4)).st == 1) 0 + flagAt (es.any fun e => (engOf s 6 e).preempting) 1 +
    flagAt ((engOf s 6 (256 + i)).serves != 256 + i) 2 + satAt ((es.filter fun e => (engOf s 6 e).st == .fenced).length) 5 3
  | .LG_GRP_SPILLS => satAt ((s.la.spills.filter fun x => x.group == i).length) 16 0
  | .LG_SPILL_BASE_LO => wordOf (planOf s i (·.spillBase)) 0
  | .LG_SPILL_BASE_HI => wordOf (planOf s i (·.spillBase)) 1 % 2 ^ 16
  | .LG_SPILL_SIZE => spillSize s i % 2 ^ 18
  | .LG_SPILL_USED => satAt (spillKib s i) 18 0
  | .LG_SPILL_POOL => planOf s i (·.spillPool) % 2 ^ 24
  | .LG_SPILL_POOL_USED => satAt (spillPages s i) 24 0
  | .LG_SPN_STAT => fieldAt sp.st 2 0 + flagAt (sp.st == 2 && sp.rank == 0) 2 + flagAt sp.slow 3 + fieldAt sp.rank 10 16
  | .LG_SPN_DIGEST_LO => wordOf sp.digest 0
  | .LG_SPN_DIGEST_HI => wordOf sp.digest 1
  | .LG_SPN_FAIL => fieldAt sp.failRank 10 0 + fieldAt sp.failCause 4 10
  | _ => 0

/-- STATE of a slot that changes as vocabulary slots do (R235). -/
def imgCode : ImgSt → Nat
  | .empty => 0 | .loading => 1 | .ready => 2 | .draining => 3 | .verifying => 4

def liveAdze (s : State) (ra : RegAt) : Nat :=
  let p := ra.i
  let x := progOf s p ra.j
  let held := x.st != .empty
  match ra.id with
  | .AD_ENG_STAT => engStat s 8 p + flagAt (engOf s 8 p).preempting 4 + satAt (adzeStrands s p) 8 5
  | .AD_ENG_MAP => fieldAt (engOf s 8 p).serves 6 0 + fieldAt (engPart s 8 p) 4 6
  | .AD_PART_PROG_MAX => planOf s p (·.progMax) % 2 ^ 9
  | .AD_PART_RING_CEIL => planOf s p (·.ringCeil) % 2 ^ 16
  | .AD_PART_RING_USED => satAt (ringUsed s p) 16 0
  | .AD_PART_BILLET_CEIL => planOf s p (fun pl => pl.billetCeil.getD ra.j 0) % 2 ^ 15
  | .AD_PART_BILLET_USED => satAt (billetUsed s p ra.j) 15 0
  | .AD_PART_PAGE_CEIL => planOf s p (fun pl => pl.pageCeil.getD ra.j 0) % 2 ^ 24
  | .AD_PART_PAGE_USED => satAt (pageUsed s p ra.j) 24 0
  | .AD_PROG_STAT =>
    imgCode x.st + (if held then fieldAt x.mask 4 4 + fieldAt (cStages x.cont - 1) 2 8 + fieldAt (cKind x.cont) 3 10 else 0)
  | .AD_PROG_RUNS => satAt (progRuns s p ra.j) 24 0
  | .AD_PROG_KEY => if held then cKey x.cont else 0
  | .AD_PROG_RING_BASE => if held then x.ringBase % 2 ^ 16 else 0
  | .AD_PROG_PLACE => if held then ngetD x.staged ra.k 0 % 2 ^ 32 else 0
  | _ => 0

def liveText (s : State) (ra : RegAt) : Nat :=
  let i := ra.i
  let v := vocOf s i
  match ra.id with
  | .WH_ENG_STAT => textStat s 9 i
  | .WH_ENG_MAP => textMap s 9 i
  | .WH_VOC_STAT => imgCode v.st + fieldAt v.entries 21 8
  | .WH_VOC_MAP => match nget s.lay.img.voc i with | some pl => fieldAt pl.part 4 0 + fieldAt pl.dies 4 4 | none => 0
  | .WH_VOC_CEIL => match nget s.lay.img.voc i with | some pl => pl.ceil % 2 ^ 24 | none => 0
  | .WH_VOC_USED => satAt v.pages 24 0
  | .WH_VOC_DIGEST => digestWord v.digest ra.j
  | .WH_XCACHE_STAT => satAt (ngetD s.wh.xc i xc0).pages.length 16 0
  | .CL_ENG_STAT => textStat s 0xA i
  | .CL_ENG_MAP => textMap s 0xA i
  | .CL_GRAM_STAT => imgCode (gramOf s i ra.j).st + fieldAt (gramOf s i ra.j).vocab 4 3
  | .CL_GRAM_PAGES => satAt (gramOf s i ra.j).pages 24 0
  | .CL_GRAM_OPEN => satAt (gramGens s i ra.j) 24 0
  | .CL_PART_GRAM_CEIL => planOf s i (·.gramCeil) % 2 ^ 24
  | .CL_PART_GRAM_USED => satAt (gramUsed s i) 24 0
  | .BT_ENG_STAT => textStat s 0xB i
  | .BT_ENG_MAP => textMap s 0xB i
  | .BT_PART_CTX_MAX => planOf s i (·.btCtx) % 2 ^ 24
  | .BT_PART_CTX_LIVE => satAt ((s.bt.gens.filter fun g => g.2.part == i).length) 24 0
  | .BT_PART_CANCELS => satAt ((s.bt.gens.filter fun g => g.2.part == i && g.2.cancel).length) 24 0
  | _ => 0

def liveSk (s : State) (ra : RegAt) : Nat :=
  let p := ra.i
  let x := idxOf s p ra.j
  let held := x.st != .empty && x.hdr != []
  match ra.id with
  | .SK_ENG_STAT => textStat s 0xC p + satAt (engOf s 0xC p).work 6 5
  | .SK_ENG_MAP => textMap s 0xC p
  | .SK_IDX_STAT => imgCode x.st + fieldAt x.mask 4 4 + (if held then fieldAt (xFmt x.hdr) 2 8 else 0)
  | .SK_IDX_NODES => if held then xNodes x.hdr % 2 ^ 29 else 0
  | .SK_IDX_SHAPE => if held then fieldAt (xDim x.hdr) 13 0 + fieldAt (xDegree x.hdr) 8 16 else 0
  | .SK_IDX_SEARCHES => satAt (idxSearches s p ra.j) 24 0
  | .SK_PART_IDX_MAX => planOf s p (·.idxMax) % 2 ^ 7
  | .SK_PART_MERGE_LO => wordOf (planOf s p (·.mergeBase)) 0
  | .SK_PART_MERGE_HI => wordOf (planOf s p (·.mergeBase)) 1 % 2 ^ 16
  | .SK_PART_MERGE_SIZE => planOf s p (·.mergePages) % 2 ^ 24
  | .SK_PART_MERGE_USED => satAt (ceilDiv (mergeUsed s p) 65536) 24 0
  | _ => 0

/-! ### Capstan (R364, R365) -/

/-- A signed 64-bit value as its bits. -/
def bits64 (v : Int) : Nat := (BitVec.ofInt 64 v).toNat

def liveAcct (s : State) (q : Req) (ra : RegAt) : Nat :=
  let x := acctOf s (acctSel s q)
  let m := meterAt s (mtrSel s q)
  match ra.id with
  | .CP_ACCT_SEL => acctSel s q
  | .CP_ACCT_CFG => x.cfg.toNat % 2 ^ 22
  | .CP_ACCT_METER_BASE => x.base
  | .CP_ACCT_BALANCE_LO => wordOf (bits64 x.balance) 0
  | .CP_ACCT_BALANCE_HI => wordOf (bits64 x.balance) 1
  | .CP_ACCT_CREDIT_LO => x.creditLo.toNat
  | .CP_ACCT_REFILL => x.refill % 2 ^ 32
  | .CP_ACCT_REFILL_MS => x.ms % 2 ^ 16
  | .CP_ACCT_CAP => x.cap % 2 ^ 32
  | .CP_ACCT_BILLED_LO => wordOf x.billed 0
  | .CP_ACCT_BILLED_HI => wordOf x.billed 1
  | .CP_METER_SEL => mtrSel s q
  | .CP_METER_CIR => m.cir % 2 ^ 32
  | .CP_METER_CBS => m.cbs % 2 ^ 32
  | .CP_METER_PIR => m.pir % 2 ^ 32
  | .CP_METER_PBS => m.pbs % 2 ^ 32
  | .CP_METER_TC => m.tc / 1000000 % 2 ^ 32
  | .CP_METER_TP => m.tp / 1000000 % 2 ^ 32
  | _ => 0

/-- Where a class stands among its partition's (its local index), with the partition. -/
def localClass (s : State) (c : Nat) : Option (Nat × Nat) := (classPart s c).map fun p => (p, c - planOf s p (·.clsBase))

/-- Entry i of the list in force, as it is staged. -/
def gclEntry (s : State) (p i : Nat) : Nat :=
  match gclNow s p (now s) with
  | some g => match g.entries[i]? with | some e => e.1 + 2 ^ 32 * (e.2 % 2 ^ 16) | none => 0
  | none => 0

/-- Times of the events the calendar wheel holds (R348). -/
def wheelEvents (s : State) : List Nat :=
  let due (i : Item) (id : RegId) : List Nat :=
    let us := rg s id i.cls
    if queuedItem i && !i.preempted && us != 0 then [i.admAt + 1000 * us] else []
  ((s.cp.accts.filter fun a => budgetEn a.2 && a.2.ms != 0).map fun a => a.2.next) ++
  (s.cp.items.map fun i =>
    (if i.released then [] else i.release.toList) ++
    (if i.gateHeld then (match localClass s i.cls with | some (p, k) => (gateNext s p k).toList | none => []) else []) ++
    (if i.deferred then [] else due i .CP_CLASS_DEFER_US) ++
    (if i.yellow && !i.shares.any (·.sent) then due i .CP_CLASS_YELLOW_MAX_US else [])).flatten

def liveCp (s : State) (q : Req) (ra : RegAt) : Nat :=
  let i := ra.i
  let ofCls := s.cp.items.filter fun x => queuedItem x && x.cls == i
  match ra.id with
  | .CP_STAT => flagAt (262144 ≤ queuedAll s) 0 + flagAt ((wheelEvents s).any fun t => now s + 4096000 < t) 1
  | .CP_QUEUED => satAt (queuedAll s) 19 0
  | .CP_CLASS_CFG => match classPart s i with | some p => fieldAt p 4 8 + 2 ^ 12 | none => 0
  | .CP_CLASS_QUEUED => satAt ofCls.length 19 0
  | .CP_CLASS_STAT =>
    flagAt (match localClass s i with | some (p, k) => gateOpen s p k (now s) | none => true) 0 +
    flagAt (ofCls.any fun x => x.release.isSome && !x.released) 1 + flagAt (ofCls.any fun x => !x.yellow) 2 +
    flagAt (ofCls.any (·.yellow)) 3
  | .CP_PART_CLASS => planOf s i (·.clsBase) % 2 ^ 6 + fieldAt (planOf s i (·.clsCount)) 5 8
  | .CP_PART_METER_BASE => planOf s i (·.meterBase) % 2 ^ 18
  | .CP_PART_METER_COUNT => planOf s i (·.meterCount) % 2 ^ 19
  | .CP_PART_QLIMIT => planOf s i (·.qlimit) % 2 ^ 19
  | .CP_PART_QUEUED => satAt (queuedIn s i) 19 0
  | .CP_GCL_STAT =>
    flagAt (gclNow s i (now s)).isSome 0 + flagAt ((ngetD s.cp.gcl i ⟨none, none⟩).pending.any fun g => now s < g.2) 1 +
    (match gclNow s i (now s) with | some g => fieldAt (gclAt g (now s)).1 6 2 | none => 0)
  | .CP_GCL_ACTIVE => wordOf (gclEntry s i ra.j) ra.k
  | _ => liveAcct s q ra

/-! ### Heartwood, host port, rings, far port -/

def liveHw (s : State) (ra : RegAt) : Nat :=
  let i := ra.i
  match ra.id with
  | .HW_LAY_STAT => flagAt s.lay.busy 0 + fieldAt s.lay.cause 4 4 + fieldAt (if s.lay.laid then s.lay.img.conduct else 0) 8 8
  | .HW_LAY_SERIAL_LO => wordOf s.lay.img.serial 0
  | .HW_LAY_SERIAL_HI => wordOf s.lay.img.serial 1
  | .HW_LAY_FLOOR_LO => wordOf s.lay.floor 0
  | .HW_LAY_FLOOR_HI => wordOf s.lay.floor 1
  | .HW_LAY_DIGEST => digestWord (beBytes 48 s.lay.img.digest) i
  | .HW_PART_STAT =>
    let e := partEmpty s i
    flagAt (partPlan s i).isSome 0 + flagAt (bit (rg s .HW_PART_CTL i) 0 && !e) 1 + flagAt e 2 + flagAt (partRt s i).faulted 3 +
    flagAt (partRt s i).applying 4
  | .HW_PART_SHARE =>
    let f (k : Nat) : Nat := planOf s i fun pl => pl.shares.getD k 0
    fieldAt (f 0) 8 0 + fieldAt (f 1) 8 8 + fieldAt (f 2) 8 16 + fieldAt (f 3) 8 24
  | .HW_STAT =>
    flagAt s.hw.ready 0 + flagAt (!s.lay.laid) 1 + flagAt s.hw.restarting.isSome 2 + flagAt s.hw.storeOk 3 +
    flagAt (s.hw.fuses == 0) 4 + flagAt s.ax.injOn 5
  | .HW_FW_SVN => fieldAt s.hw.fw.svn 16 0 + fieldAt Config.svnFloor 16 16
  | .HW_STORE_VER => s.hw.fuses % 2 ^ 7
  | .HW_CMD_STAT => flagAt (cmdBusy s) 0 + fieldAt s.hw.cmdRes 4 4
  | .HW_NONCE => wordOf s.hw.nonce i
  | .HW_SLOT_STAT => match nget s.hw.store i with | some k => 1 + fieldAt k.perms 4 4 | none => 0
  | .HW_MEAS => digestWord (measDigest s (rg s .HW_MEAS_SEL)) i
  | .HW_SPDM_STAT => satAt ((s.hw.sess.filter (·.live)).length) 4 0
  | .HW_PART_SEC =>
    flagAt (isConf s i) 0 + flagAt (nget s.hw.owner i).isSome 1 +
    flagAt (match partPlan s i with | some pl => pl.ownerPreset.isSome | none => false) 2
  | .HW_PART_KEYS => satAt (weightKeys s i) 7 0 + satAt ((s.hp.seals.filter fun x => x.2.part == i).length) 13 16
  | .HW_PART_LOG => let l := ngetD s.plog i plog0; satAt l.recs.length 11 0 + flagAt l.excess 11
  | _ => 0

/-- The index of a ring the device owns, and the one software owns (R398). -/
def ringIdx (s : State) (r : Nat) (own : Bool) : Nat :=
  let x := ringOf s r
  if (ringKind s r == 0) == own then x.c.toNat else x.p.toNat

/-- A ring holds descriptors that have not been fetched. -/
def ringWaits (s : State) (r : Nat) : Bool := ringKind s r == 0 && ringCount (ringOf s r) != 0

def liveHp (s : State) (q : Req) (ra : RegAt) : Nat :=
  let i := ra.i
  match ra.id with
  | .HP_LINK_STAT => if s.hp.up then s.hp.speed % 4 + fieldAt s.hp.width 5 2 else 0
  | .HP_FN_MAP => match fnPart s i with | some p => fieldAt p 4 0 + 16 | none => 0
  | .HP_QP_STAT =>
    let x := qpOf s (rg s .HP_QP_SEL)
    (match x.st with | .reset => 0 | .ready => 1 | .error => 2) + fieldAt x.cause 4 4 + fieldAt x.epsn 24 8
  | .HP_ETH_STAT => flagAt (ethOf s i).up 0 + flagAt (ethOf s i).paused 1
  | .HP_ETH_IP6 => wordOf (ethOf s i).ip6 (rg s .HP_ETH_IP6_SEL i)
  | .HP_SEAL_STAT => match nget s.hp.seals i with | some x => 1 + fieldAt x.part 4 1 | none => 0
  | .HP_DB_SUMMARY =>
    (List.range 32).foldl (fun m j =>
      m + flagAt (ringWaits s (32 * i + j) && (q.dev || ringPart s (32 * i + j) == some q.part.toNat)) j) 0
  | _ => 0

def liveDb (s : State) (ra : RegAt) : Nat :=
  let r := ra.i
  let x := ringOf s r
  match ra.id with
  | .DB_SW_IDX => ringIdx s r false
  | .DB_HW_IDX => ringIdx s r true
  | .DB_STAT =>
    flagAt (x.st == .enabled) 0 + flagAt (x.st == .draining) 1 + flagAt (ringCount x != 0) 2 +
    flagAt (ringSize s r ≤ ringCount x) 3 + flagAt x.stalled 4
  | .DB_OWNER => match ringPart s r with | some p => fieldAt p 4 8 | none => 0
  | _ => 0

def liveFp (s : State) (ra : RegAt) : Nat :=
  match ra.id with
  | .FP_CFG => if s.lay.laid then flagAt s.lay.img.farMode 0 + fieldAt s.lay.img.bifur 2 1 else 0
  | .FP_SUB_STAT =>
    let x := subOf s ra.i
    flagAt x.prsnt 0 + flagAt x.up 1 + (if x.up then fieldAt x.speed 2 2 + fieldAt x.width 5 4 else 0) + flagAt x.enumd 9 +
    flagAt x.failed 10
  | .FP_RP_CFG_CTL => flagAt s.hp.rpBusy 8 + fieldAt s.hp.rpRes 2 9
  | _ => 0

/-! ### Harah (R459-R461) -/

def lkCode : LkSt → Nat
  | .disabled => 0 | .training => 1 | .up => 2 | .widthChange => 3 | .retraining => 4 | .down => 5 | .draining => 6

def liveHf (s : State) (ra : RegAt) : Nat :=
  let i := ra.i
  let l := linkOf s i
  match ra.id with
  | .HF_STAT =>
    flagAt s.hf.idValid 0 + flagAt s.hf.routed 1 + flagAt (hfMember s) 2 + flagAt s.hf.marshal 3 + flagAt s.hf.standby 4
  | .HF_DEVICE_ID => s.hf.devId % 2 ^ 16
  | .HF_MARSHAL_ID => s.hf.marshalId % 2 ^ 16
  | .HF_UID => wordOf Config.uid.toNat i
  | .HF_TIME_STAT => flagAt s.hf.time.locked 0 + flagAt s.hf.time.stepped 1
  | .HF_TIME_OFFSET => (BitVec.ofInt 32 (sat32 s.hf.time.last)).toNat
  | .HF_SPAN_LO => wordOf (now s) 0
  | .HF_SPAN_MID => wordOf (now s) 1
  | .HF_SPAN_HI => wordOf (now s) 2
  | .HF_PPS_IN_TS => wordOf s.hf.time.ppsTs i
  | .HF_RT_ENTRY => routeOf s (rg s .HF_RT_SEL) % 2 ^ 16
  | .HF_LK_STAT =>
    lkCode l.st + fieldAt l.width 2 3 + fieldAt l.lanes 4 5 + flagAt (2047 ≤ l.unacked.length) 9 + flagAt l.border 10 +
    flagAt l.fenced 11 + fieldAt l.epoch.toNat 4 12
  | .HF_LK_PEER => fieldAt l.peer 16 0 + fieldAt l.peerQuad 4 16
  | .HF_LK_UNACKED => satAt l.unacked.length 12 0
  | .HF_LK_RTT_NS => satAt l.rtt 16 0
  | .HF_LK_TX_LO => wordOf l.tx 0
  | .HF_LK_TX_HI => wordOf l.tx 1
  | .HF_LK_RX_LO => wordOf l.rx 0
  | .HF_LK_RX_HI => wordOf l.rx 1
  | .HF_LK_REPLAY_LO => wordOf l.replayed 0
  | .HF_LK_REPLAY_HI => wordOf l.replayed 1
  | .HF_RA_STAT => flagAt (boxOf s i).busy 0 + fieldAt (boxOf s i).status 8 8
  | .HF_RA_RESULT_LO => wordOf (boxOf s i).result 0
  | .HF_RA_RESULT_HI => wordOf (boxOf s i).result 1
  | _ => 0

/-! ### Lanyard and power (R535, R567) -/

def liveLy (s : State) (ra : RegAt) : Nat :=
  let i := ra.i
  match ra.id with
  | .LY_STAT => flagAt s.ly.watch 0 + flagAt s.ly.bankB 1 + flagAt s.ly.upd.isSome 2
  | .LY_UPTIME_LO => wordOf (s.uptime / 1000) 0
  | .LY_UPTIME_HI => wordOf (s.uptime / 1000) 1
  | .LY_TELE_HEAD => s.ly.teleHead % 2 ^ 32
  | .LY_MGMT_STAT => flagAt Config.phyUp 0 + satAt ((s.hw.sess.filter fun x => x.live && x.mgmt).length) 3 1
  | .LY_GRP_STAT => (grpOf s i).st % 4
  | .LY_GRP_DOM_LO => wordOf (if s.lay.laid then ngetD s.lay.img.grpDom i 0 else 0) 0
  | .LY_GRP_DOM_HI => wordOf (if s.lay.laid then ngetD s.lay.img.grpDom i 0 else 0) 1 % 2 ^ 16
  | .LY_FLT_OUT => (BitVec.ofInt 32 (fltOf s i).y).toNat
  | .LY_FLT_STAT => flagAt (fltOf s i).tripped 0 + flagAt (fltOf s i).baseline 1
  | .LY_IN_STAT => flagAt (inActive s i) 0 + flagAt (inOf s i).stuck 1 + flagAt (inLimited s i) 2
  | .LY_PIN_STAT => flagAt (pinOf s i).sw.isSome 0 + flagAt (padLevel s i) 1 + fieldAt (fuseCode i) 3 2
  | .LY_EVT_HEAD => s.evtSeq % 2 ^ 32
  | _ => 0

/-- The temperatures of every die and stack. -/
def allTemps (s : State) : List Int :=
  (List.range 4).map (fun d => (thermOf s d).temp) ++ (List.range 8).map (fun n => (stackAt s n).temp)

def livePm (s : State) (ra : RegAt) : Nat :=
  let i := ra.i
  match ra.id with
  | .PM_INST_STAT => flagAt s.lay.instBusy.isSome 0 + fieldAt s.lay.instRes 2 1
  | .PM_RESET_CAUSE => causeWord s
  | .PM_BOOT_STAT =>
    flagAt (s.pm.step == 11) 0 + flagAt (laidBit s) 1 + flagAt (s.lay.laid && selfTestOk s) 2 + flagAt s.pm.recovery 3 +
    flagAt s.pm.good 4 + fieldAt s.pm.band 4 5 + fieldAt s.pm.slot 1 9 + fieldAt s.pm.role 1 10 + fieldAt s.pm.mgmt 2 11 +
    fieldAt (failedStarts s) 3 13 + flagAt s.pm.romRec 16
  | .PM_CFG_SEL_CODE => fieldAt s.pm.mean 12 0 + fieldAt s.pm.spread 12 16
  | .PM_THERM_STAT =>
    let ts := allTemps s
    flagAt ((List.range 4).any fun d => (thermOf s d).level != 0) 0 + flagAt (ts.any fun c => decide (105 ≤ c)) 1 +
    flagAt s.pm.tripLow 2 + fieldAt (ts.foldl max 0).toNat 8 8 +
    (List.range 4).foldl (fun m d => m + fieldAt ((thermOf s d).level / 4) 4 (16 + 4 * d)) 0
  | .PM_RST_HIST_HEAD => s.pm.histHead
  | .PM_FLASH_STAT => fieldAt s.pm.flashRes 3 1
  | .PM_FW_STAT => fieldAt s.pm.fwRes 2 1 + flagAt (s.pm.sdPend != []) 3
  | .PM_DOM_STAT =>
    let x := domOf s i
    (if x.goal.isSome then 3 else x.st % 4) + flagAt x.ready 2 + flagAt (domDrained s i) 3
  | .PM_BACKUP_LO => if i < 8 then wordOf (ngetD s.pm.backup i 0) 0 else 0
  | .PM_BACKUP_HI => if i < 8 then wordOf (ngetD s.pm.backup i 0) 1 else 0
  | _ => 0

/-- The read-only, live and snapshot fields of a register in block `b`, as requester `q` reads them. -/
def regLive (s : State) (q : Req) (b : Nat) (ra : RegAt) : Nat :=
  if (regRow ra.id).base < 0x24 then liveHdr s q b ra
  else if 0x2000000 ≤ (regRow ra.id).base then liveDb s ra
  else match b with
    | 0x0 => liveLy s ra
    | 0x1 => liveHw s ra
    | 0x2 => liveHt s ra
    | 0x3 => liveCp s q ra
    | 0x4 => liveSp s ra
    | 0x6 => liveLathe s ra
    | 0x7 => liveLathe s ra
    | 0x8 => liveAdze s ra
    | 0x9 => liveText s ra
    | 0xA => liveText s ra
    | 0xB => liveText s ra
    | 0xC => liveSk s ra
    | 0xD => liveHf s ra
    | 0xE => liveHp s q ra
    | 0xF => liveFp s ra
    | 0x10 => livePm s ra
    | 0x11 => liveLy s ra
    | 0x13 => liveHm s ra
    | _ => liveAx s ra

end Sys2Proof.Machine
end

