-- ==== Sys2Proof/Machine/RegAccess.lean ====
section
/-! DEFINITION. Accesses to register space (R36-R51) and to the device window from outside the units (R394, R423, R446): reads
with their shadows, writes with what each register does, the remote-access mailboxes (R461), the host port's BARs and
configuration space. -/

namespace Sys2Proof.Machine

/-! ### Reads -/

/-- The block an offset of register space lies in; none for a doorbell page or an offset of no block. -/
def spaceBlock (o : Nat) : Option Nat := if o < 0x1500000 then some (o / 0x100000) else none

/-- Target of an offset of register space, where it has one (R54). -/
def spaceTarget (o : Nat) : Option Nat :=
  if 0x2000000 ≤ o ∧ o < 0x4000000 then some (320 + (o - 0x2000000) / 0x200 / 2048) else (spaceBlock o).map (352 + ·)

/-- Blocks that no view shows (R38). -/
def hiddenBlock (b : Nat) : Bool := b == 0x12 || b == 0x14 || b == 0x01 || b == 0x10

/-- Whether a read by `q` sees a register of block `b` (R38). -/
def viewReads (s : State) (q : Req) (b : Nat) (ra : Option RegAt) : Bool :=
  q.dev || (!hiddenBlock b && match ra with
    | some ra => (regRow ra.id).base < 0x24 || viewSees s q.part.toNat ra
    | none => true)

/-- Bytes of the windows: event log (R529), telemetry (R532), retained memory and reset history (R549). -/
def windowBytes (s : State) (b o : Nat) : Option (List Byte) :=
  if b = 0x11 ∧ 0x10000 ≤ o ∧ o < 0x30000 then some ((evtAt s ((o - 0x10000) / 32)).drop (o % 32))
  else if b = 0 ∧ 0x20000 ≤ o ∧ o < 0x30000 then some ((ngetD s.ly.tele ((o - 0x20000) / 256) []).drop (o % 256))
  else if b = 0x10 ∧ 0x40000 ≤ o ∧ o < 0x48000 then some (leBytes 4 (ngetD s.pm.ret ((o - 0x40000) / 4) 0).toNat)
  else if b = 0x10 ∧ 0x48000 ≤ o ∧ o < 0x50000 then
    let age := (s.pm.histHead + 1023 - (o - 0x48000) / 32) % 1024
    some (((s.pm.hist.reverse[age]?).getD []).drop (o % 32))
  else none

/-- Words of a latched-high register, lowest first (R45, R460); of any other register none. -/
def lhGroup (ra : RegAt) : List RegAt :=
  let of' (l : List RegId) : List RegAt := l.map fun id => ⟨id, ra.i, ra.j, ra.k⟩
  match ra.id with
  | .HF_SPAN_LO | .HF_SPAN_MID | .HF_SPAN_HI => of' [.HF_SPAN_LO, .HF_SPAN_MID, .HF_SPAN_HI]
  | .LY_UPTIME_LO | .LY_UPTIME_HI => of' [.LY_UPTIME_LO, .LY_UPTIME_HI]
  | .HF_LK_TX_LO | .HF_LK_TX_HI => of' [.HF_LK_TX_LO, .HF_LK_TX_HI]
  | .HF_LK_RX_LO | .HF_LK_RX_HI => of' [.HF_LK_RX_LO, .HF_LK_RX_HI]
  | .HF_LK_REPLAY_LO | .HF_LK_REPLAY_HI => of' [.HF_LK_REPLAY_LO, .HF_LK_REPLAY_HI]
  | .HF_PPS_IN_TS => [0, 1, 2].map fun i => ⟨.HF_PPS_IN_TS, i, 0, 0⟩
  | _ => []

/-- Key of a shadow: the register and its reader (R46). -/
def shadowKey (q : Req) (ra : RegAt) : Nat := regOff ra.id ra.i ra.j ra.k * 2 ^ 15 + selKey q

/-- A register's word: its RW fields, at their reset values in reset (R51), and its live fields. -/
def regWord (s : State) (q : Req) (b : Nat) (ra : RegAt) : Nat :=
  let rw := if s.ax.inReset.contains b || regInReset s ra then rwReset s ra else regRw s ra
  (rw &&& rwMask ra) + regLive s q b ra

/-- The word at an aligned offset, as `q` sees it. `low`: the read includes byte 0 of it. -/
def wordRead (q : Req) (o : Nat) (low : Bool) (s : State) : Nat × State :=
  let b := (spaceBlock o).getD 0
  let ra := regDecode o
  if !viewReads s q b ra then (0, s)
  else match ra with
    | some ra =>
      let g := lhGroup ra
      if low && g.head? == some ra then
        (regWord s q b ra, { s with ax.shadow := (g.drop 1).foldl (fun m x =>
          nset m (shadowKey q x) (BitVec.ofNat 32 (regWord s q b x))) s.ax.shadow })
      else match (if g = [] then none else nget s.ax.shadow (shadowKey q ra)) with
        | some w => (w.toNat, s)
        | none => (regWord s q b ra, s)
    | none =>
      match windowBytes s b (o % 0x100000) with
      | some bs => (leNat (bs.take 4), s)
      | none => (0, s)

/-- A read in register space: the size rules (R47, R48), the access table (R35, R38), then its words. -/
def regRead (q : Req) (off len : Nat) (s : State) : List Byte × State :=
  if !([1, 2, 4, 8].contains len && off % len == 0) then (leBytes len 0, evt Ev.READ_SIZE_VIOLATION q off s)
  else if (spaceTarget off).any fun t => !axAdmits s q .rd t then (leBytes len 0, evt Ev.ACCESS_VIOLATION q off s)
  else if len = 8 then
    let a := wordRead q off true s
    let b := wordRead q (off + 4) true a.2
    (leBytes 4 a.1 ++ leBytes 4 b.1, b.2)
  else
    let a := wordRead q (off / 4 * 4) (off % 4 == 0) s
    (((leBytes 4 a.1).drop (off % 4)).take len, a.2)

/-- Counters of which the spec says no more than the name. -/
def openCounter (c : Ct) : Bool :=
  match c with
  | .HT_CACHE_HIT_CNT | .HT_CACHE_MISS_CNT | .HM_RD_BYTES | .HM_WR_BYTES | .FP_RX_BYTES | .FP_TX_BYTES | .FP_POISON_CNT
  | .HW_DRBG_RESEED_CNT | .HP_RX_BYTES | .HP_TX_BYTES => true
  | _ => false

/-- A counter as the reader's bank last captured it (R43, R44). -/
def counterRead (s : State) (q : Req) (c : Ct) (i : Nat) : Nat :=
  let b := Ct.blk c
  let bank := bankFor q
  let key := 32 * b + bank
  if !(axAdmits s q .rd (352 + b) && viewReads s q b none) then 0
  else if openCounter c then
    (if (nget s.ax.capSeq key).isSome then Config.openCtr (ctrKey c i bank) bank (ngetD s.ax.capSeq key 0).toNat % 2 ^ 64 else 0)
  else ngetD (ngetD s.ax.capVal key []) (ctrKey c i bank) 0

/-! ### The remote-access mailboxes (R461) -/

/-- The request a mailbox's local access is made under: its writer's master ID, the mailbox's partition (R446, R461). -/
def boxReq (q : Req) (p : Nat) : Req := ⟨q.mst, q.fn, BitVec.ofNat 4 p, false⟩

/-- New value of an atomic (R448); none for an AOP that names no operation. -/
def atomicNew (aop : Nat) (old x cmp : Nat) : Option Nat :=
  let a := BitVec.ofNat 64 old
  let b := BitVec.ofNat 64 x
  match aop with
  | 1 => some (a + b).toNat
  | 2 => some (if a.toInt ≤ b.toInt then a else b).toNat
  | 3 => some (min a.toNat b.toNat)
  | 4 => some (if a.toInt ≤ b.toInt then b else a).toNat
  | 5 => some (max a.toNat b.toNat)
  | 6 => some (if old = cmp then b.toNat else a.toNat)
  | _ => none

/-- What a request meets at the device window (R35); in register space R51 takes the place of the last check. -/
def winVerdict (s : State) (q : Req) (k : Acc) (a n : Nat) : Verdict :=
  let v := accessCheck s q k a n
  if regBase ≤ a ∧ v.st = stTargetReset then okV else v

/-- An atomic reaches register space or far-port memory (R447). -/
def atomicBarred (a : Nat) : Bool := farBase ≤ a && a < regEnd

/-- Performs an atomic on an aligned word whose access has been admitted: verdict and old value. -/
def atomicAt (aop a x cmp : Nat) (s : State) : Verdict × Nat × State :=
  let old := rdNat s a 8
  match atomicNew aop old x cmp with
  | none => (⟨stFaultAccess, detTarget none⟩, 0, s)
  | some v => if poisoned s a 8 then (⟨stFaultContext, 0⟩, 0, s) else (okV, old, wrBytes a (leBytes 8 v) s)

/-- Bits of a mailbox's operands. -/
def boxAddr (s : State) (p : Nat) : Nat := rg64 s .HF_RA_ADDR_LO .HF_RA_ADDR_HI p
def boxData (s : State) (p : Nat) : Nat := rg64 s .HF_RA_DATA_LO .HF_RA_DATA_HI p
def boxCmp (s : State) (p : Nat) : Nat := rg64 s .HF_RA_CMP_LO .HF_RA_CMP_HI p

/-- A request of the mailbox goes out (R446); one to a device without a route ends ADDRESS_HOLE (R443). -/
def boxIssue (p ty aop len : Nat) (data : List Byte) (s : State) : State :=
  let a := boxAddr s p
  match hfIssue ty (a / 2 ^ 48) p (a % 2 ^ 48) len aop data (.mailbox p) s with
  | some s => { s with hf.box := nset s.hf.box p { boxOf s p with busy := true } }
  | none => boxDone p stAddressHole (boxOf s p).result s

/-- A FENCE (R451): it completes at once where nothing is outstanding to its destination. -/
def boxFence (p : Nat) (s : State) : State :=
  fencesDone { s with hf.box := nset s.hf.box p { boxOf s p with busy := true, fence := some (storesTo s (boxAddr s p / 2 ^ 48)) } }

/-- A raw write takes the place of an operand that its own command carries: the next free value decides a verdict. -/
def freeBit (f : Bool → State → State) (s : State) : State := f (Config.free s.fv % 2 == 1) (useFree s)

/-! ### Writes -/

/-- The bits of an ENG_CTL, DRAIN or other unit register: its block, where it is an engine's. -/
def engBlk (id : RegId) : Option Nat :=
  match id with
  | .SP_ENG_CTL => some 4 | .LA_ENG_CTL => some 6 | .AD_ENG_CTL => some 8 | .WH_ENG_CTL => some 9 | .CL_ENG_CTL => some 0xA
  | .BT_ENG_CTL => some 0xB | .SK_ENG_CTL => some 0xC | _ => none

/-- Runs the effects whose bits are set, in ascending bit order. -/
def onBits (v : Nat) (l : List (Nat × (State → State))) (s : State) : State :=
  l.foldl (fun s e => if bit v e.1 then e.2 s else s) s

/-- A change of the account or meter that a requester has selected (R364). -/
def acctPut (q : Req) (f : Acct → Acct) (s : State) : State := putAcct (acctSel s q) (f (acctOf s (acctSel s q))) s

/-- A denial under R478. -/
def confDenied (q : Req) (ra : RegAt) (p : Nat) (s : State) : State :=
  evt Ev.CONF_DENIED q (regPay ra) (ctr .HW_CONF_DENIED_CNT p s)

/-- A register whose write does nothing but store its RW bits, where it has any. -/
def plainPut (ra : RegAt) (v : Nat) (s : State) : State := if rwMask ra = 0 then s else regPut ra v s

/-- Heartwood: signed commands, restarts, lay images, teardown (R371, R377, R389, R467, R482). -/
def hwWrite (q : Req) (ra : RegAt) (v : Nat) (s : State) : State :=
  match ra.id with
  | .HW_LAY_CTL =>
    if bit v 8 then layApplyWrite (bits v 3 0) ((Config.layAt s.fv).getD lay0Img) (useFree s) else regPut ra v s
  | .HW_PART_CTL => onBits v [(1, tearDown ra.i)] (regPut ra v s)
  | .HW_FW_CTL => onBits v [(0, activateOp (bits v 1 1))] s
  | .HW_CMD_CTL =>
    if bit v 0 then
      let op := leNat (memRead s.hmem (rg64 s .HW_CMD_ADDR_LO .HW_CMD_ADDR_HI 0 % 2 ^ 63 + 4) 1)
      freeBit (fun g => goOp op (fromPf0 q) g) s
    else s
  | _ => plainPut ra v s

/-- The power management block (R391, R551, R553, R557-R559, R562, R567). -/
def pmWrite (q : Req) (ra : RegAt) (v : Nat) (s : State) : State :=
  match ra.id with
  | .PM_INST_RESET => instReset (bits v 7 0) (bits v 19 8) s
  | .PM_BOOT_CTL => onBits v [(0, bootGoodOp q), (1, recoveryDoneOp), (2, coreTrigger 0x20), (3, sysReset 0x16)] s
  | .PM_SNAP_ALL => onBits v [(0, snapAllOp)] s
  | .PM_FLASH_CMD =>
    match bits v 1 0 with
    | 1 => eraseOp (faChip s) (faOff s) (faLen s) s
    | 2 => flashProgramOp ((Config.chipAt s.fv).getD (chipOf s (faChip s))) (useFree s)
    | 3 => flashReadOp s
    | _ => s
  | .PM_FW_CTL =>
    let k := bits v 3 3
    let fail (s : State) : Option (Fin 4) := if Config.free s.fv % 2 = 0 then none else some (Fin.ofNat 4 (Config.free s.fv / 2))
    onBits v [(0, fun s => spineActivateOp k (fail s) (useFree s)), (1, serdesActivateOp k), (2, ethRetrainOp)] s
  | .PM_DOM_REQ => domReqOp ra.i v s
  | _ => plainPut ra v s

/-- Capstan (R344-R347, R364). Its other registers with behaviour have operations with a guard of their own. -/
def cpWrite (q : Req) (ra : RegAt) (v : Nat) (s : State) : State :=
  match ra.id with
  | .CP_ACCT_SEL => { s with cp.accSel := nset s.cp.accSel (selKey q) (v % 2 ^ 16) }
  | .CP_METER_SEL => { s with cp.mtrSel := nset s.cp.mtrSel (selKey q) (v % 2 ^ 18) }
  | .CP_ACCT_CREDIT_LO => acctPut q (fun x => { x with creditLo := BitVec.ofNat 32 v }) s
  | .CP_ACCT_REFILL => acctPut q (fun x => { x with refill := v }) s
  | .CP_ACCT_CAP => acctPut q (fun x => { x with cap := v }) s
  | _ => plainPut ra v s

/-- Word `w` of a number replaced. -/
def setWord (x w v : Nat) : Nat := x - wordOf x w * 2 ^ (32 * w) + v * 2 ^ (32 * w)

/-- Host port, rings and far port (R397, R402, R424-R426). -/
def hpWrite (q : Req) (ra : RegAt) (v : Nat) (s : State) : State :=
  let i := ra.i
  match ra.id with
  | .HP_ETH_IP6 => putEth i { ethOf s i with ip6 := setWord (ethOf s i).ip6 (rg s .HP_ETH_IP6_SEL i) v } s
  | .DB_SW_IDX => doorbell q i (BitVec.ofNat 32 v) s
  | .DB_CFG => ringCfg q i v s
  | .DB_BASE_LO | .DB_BASE_HI | .DB_CQ => ringBusyWrite q ra v s
  | .DB_OWNER => if (confFn s i).isSome then confDenied q ra ((ringPart s i).getD 16) s else regPut ra v s
  | .FP_RP_PART => if isConf s (v % 16) then confDenied q ra (v % 16) s else regPut ra v s
  | _ => plainPut ra v s

/-- A write of HF_LK_CTL (R387, R431, R460): ABORT before DRAIN before ENABLE, then RETRAIN. -/
def lkCtlWrite (k v : Nat) (s : State) : State :=
  if !isHarah s k then s
  else
    let s := rp .HF_LK_CTL k 0 0 (bits v 5 4 * 16 + bits (rg s .HF_LK_CTL k) 0 0) s
    let s := if bit v 2 then linkStop k s else if bit v 1 then linkDrainOp k s else linkEnableOp k (bit v 0) s
    if bit v 3 then linkRetrain k s else s

/-- Harah's registers (R442, R444, R453, R459, R460); the mailbox's command is apart. -/
def hfWrite (ra : RegAt) (v : Nat) (s : State) : State :=
  match ra.id with
  | .HF_CTL => onBits v [(0, fun s => if s.hf.marshal then recompute s else s), (1, restepOp), (2, yieldOp)] s
  | .HF_MARSHAL_PRIO => elect (regPut ra v s)
  | .HF_LK_CTL => lkCtlWrite ra.i v s
  | _ => plainPut ra v s

/-- Hitch, Splice, tiers, Spindle, Skein, Lanyard. -/
def unitWrite (q : Req) (ra : RegAt) (v : Nat) (s : State) : State :=
  let i := ra.i
  match ra.id with
  | .HT_CTL => onBits v [(1, takeover), (2, freeBit reinstate)] (regPut ra v s)
  | .HT_PFX_MEMBER_LO => { s with pfx.member := nmod s.pfx.member (rg s .HT_PFX_MEMBER_SEL) 0 fun x => setWord x 0 v }
  | .HT_PFX_MEMBER_HI => { s with pfx.member := nmod s.pfx.member (rg s .HT_PFX_MEMBER_SEL) 0 fun x => setWord x 1 v }
  | .HT_PFX_REKEY => rekeyOp v s
  | .HT_PFX_PAGES_MAX => let s := regPut ra v s; shrinkTree i ((treeNodes s i).length + 1) s
  | .SP_PART_PERSIST_ACK_LO => { s with regs := nset s.regs (regPay ra) (BitVec.ofNat 32 v) }
  | .SP_PART_PERSIST_ACK_HI => persistAckOp i (rg s .SP_PART_PERSIST_ACK_LO i + 2 ^ 32 * v) s
  | .SP_T2_CTL => onBits v [(0, t2EvictOp i), (1, t2AdmitOp q i)] s
  | .SP_PART_NOTICE_RING =>
    let s := regPut ra v s
    flushNotices i (rg s .SP_PART_NOTICE_RING i) ((ngetD s.sp.heldNotes i []).length + 1) s
  | .HM_SPARE_CMD => onBits v [(8, spareOp (bits v 7 0))] s
  | .LG_SPN_CTL => if bit v 2 then spnAbortOp i s else if bit v 1 then disarmOp i s else if bit v 0 then armOp i s else s
  | .BT_CANCEL_HI => btCancelOp q i (rg s .BT_CANCEL_LO i + 2 ^ 32 * v) s
  | .SK_PART_CFG => if isConf s i && bit v 0 then confDenied q ra i s else regPut ra v s
  | .CK_CTL =>
    if bit v 4 then ckEnd i 8 s
    else if bit v 0 then ckStartOp i (bit v 1) (bit v 2) s
    else if bit v 3 then freeBit (restoreOp i (Config.manifestAt s.fv)) s
    else s
  | .LY_CTL => onBits v [(1, lyActivateOp)] (regPut ra v s)
  | .LY_FLT_CFG => fltCfgOp i v s
  | .LY_PIN_CFG => pinWrite i v s
  | .AX_CTL => onBits v [(0, axCommitOp q i), (1, axRestageOp i)] s
  | .INJ_ARM => onBits v [(0, injArmOp i), (1, injDisarmOp i)] s
  | _ => plainPut ra v s

/-- What an admitted write of a register does, by its block. A register without RW or WT bits takes no effect. -/
def regEffect (q : Req) (ra : RegAt) (v : Nat) (s : State) : State :=
  match engBlk ra.id with
  | some b => engCtlWrite b ra.i v s
  | none =>
    if 0x2000000 ≤ (regRow ra.id).base then hpWrite q ra v s
    else match regBlock ra.id with
      | 0x1 => hwWrite q ra v s
      | 0x3 => cpWrite q ra v s
      | 0xD => hfWrite ra v s
      | 0xE => hpWrite q ra v s
      | 0xF => hpWrite q ra v s
      | 0x10 => pmWrite q ra v s
      | _ => unitWrite q ra v s

/-- The mailbox's command, where its right has been checked: the local access, or the request. -/
def mailboxRun (q : Req) (p op aop : Nat) (size8 : Bool)
    (rd : Req → Nat → Nat → State → List Byte × State) (wr : Req → Nat → List Byte → State → State) (s : State) : State :=
  let a := boxAddr s p
  let n := if size8 || op == 3 then 8 else 4
  let data := (leBytes 8 (boxData s p)).take n
  let r := boxReq q p
  let o := a % 2 ^ 48
  if op = 4 then boxFence p s
  else if op = 0 ∨ 4 < op then s
  else if o % n ≠ 0 then boxDone p stFaultContext (boxOf s p).result s
  else if s.hf.idValid ∧ a / 2 ^ 48 = s.hf.devId then
    let s := { s with hf.box := nset s.hf.box p { boxOf s p with busy := true } }
    let v := winVerdict s r (match op with | 1 => .rd | 2 => .wr | _ => .at) o n
    if op = 3 then
      if atomicBarred o ∧ v.st ≠ stAddressHole then
        boxDone p stFaultAccess (boxOf s p).result (evt Ev.HARAH_ATOMIC_TARGET r o s)
      else if v.st ≠ 0 then boxDone p v.st (boxOf s p).result (logRefusal r o v s)
      else
        let z := atomicAt aop o (boxData s p) (boxCmp s p) s
        boxDone p z.1.st (if z.1.st = 0 then z.2.1 else (boxOf s p).result) z.2.2
    else if v.st ≠ 0 then boxDone p v.st (boxOf s p).result (logRefusal r o v s)
    else if op = 1 then
      if poisoned s o n then boxDone p stFaultContext (boxOf s p).result s
      else let z := rd r o n s; boxDone p stDone (leNat z.1) z.2
    else boxDone p stDone (boxOf s p).result (wr r o data s)
  else if op = 1 then boxIssue p tyRead 0 n [] s
  else if op = 2 then boxIssue p tyStore 0 n data s
  else boxIssue p tyAtomic aop 8 (leBytes 8 (boxData s p) ++ (if aop = 6 then leBytes 8 (boxCmp s p) else [])) s

/-- A mailbox command's guard (R461, R478): one of a confidential partition is discarded, as is one while BUSY. -/
def mailboxGuard (q : Req) (p : Nat) (f : State → State) (s : State) : State :=
  let ra : RegAt := ⟨.HF_RA_CMD, p, 0, 0⟩
  regGuard q ra (fun s =>
    if isConf s p then confDenied q ra p s
    else if (boxOf s p).busy then evt Ev.HF_RA_BUSY q p s
    else f s) s

/-- Word writes with a guard of their own, or the register's guard around its effect. The mailbox's command is left to the
caller, since a local access of its own may come back here. -/
def wordWrite (q : Req) (b : Nat) (ra : RegAt) (v : Nat) (s : State) : State :=
  match ra.id with
  | .XX_SNAP =>
    if bit v 0 then snapOp q b s else if snapSees s q b then s else evt Ev.ACCESS_VIOLATION q (b * 0x100000 + 0x10) s
  | .CP_ACCT_CFG => acctCfgOp q v s
  | .CP_ACCT_METER_BASE => meterBaseOp q v s
  | .CP_ACCT_REFILL_MS => refillMsOp q v s
  | .CP_ACCT_CREDIT_HI => creditOp q v s
  | .CP_METER_CIR => meterCfgOp q 0 v s
  | .CP_METER_CBS => meterCfgOp q 1 v s
  | .CP_METER_PIR => meterCfgOp q 2 v s
  | .CP_METER_PBS => meterCfgOp q 3 v s
  | .CP_RING_CFG => ringBindOp q ra.i v s
  | .CP_GCL_CTL => gclCommitOp q ra.i v s
  | .HP_QP_CMD =>
    if bits v 13 12 = 0 then regGuard q ra id s
    else
      let s := if bit v 12 then qpLoadOp q (bits v 11 0) s else s
      if bit v 13 then qpResetOp q (bits v 11 0) s else s
  | .FP_RP_CFG_CTL =>
    let ans : Answer := match Config.free s.fv % 3 with | 0 => .ok | 1 => .refused | _ => .timeout
    let rd := BitVec.ofNat 32 (Config.free (s.fv + 1))
    if bit v 0 then rpCfgOp q ans (some rd) (useFree (useFree s))
    else if bit v 1 then rpCfgOp q ans none (useFree s)
    else regGuard q ra id s
  | .INJ_CTL => injGuard q ra (regPut ra v) s
  | .INJ_ARM => injGuard q ra (regEffect q ra v) s
  | _ =>
    if (regRow ra.id).base < 0x24 then
      (if snapSees s q b then s else evt Ev.ACCESS_VIOLATION q (b * 0x100000 + (regRow ra.id).base) s)
    else regGuard q ra (regEffect q ra v) s

/-- A write of a window: only retained memory's lower half, under the marker (R549); the others are read-only. -/
def windowWrite (q : Req) (b o v : Nat) (s : State) : State :=
  if !(q.dev && axAdmits s q .wr (352 + b)) then evt Ev.ACCESS_VIOLATION q (b * 0x100000 + o) s
  else if b = 0x10 ∧ 0x40000 ≤ o ∧ o < 0x48000 then
    { s with pm.ret := nset s.pm.ret ((o - 0x40000) / 4) (BitVec.ofNat 32 v) }
  else s

/-- A write in register space (R36, R49): full aligned words, or a designated pair as one write; any other is discarded whole.
`cmd` performs a mailbox's command. -/
def regWriteBy (cmd : Req → Nat → Nat → State → State) (q : Req) (off : Nat) (data : List Byte) (s : State) : State :=
  let b := (spaceBlock off).getD 0
  let ra := regDecode off
  let one (ra : RegAt) (v : Nat) (s : State) : State :=
    if ra.id = .HF_RA_CMD then cmd q ra.i v s else wordWrite q b ra v s
  if data.length = 4 ∧ off % 4 = 0 then
    match ra with
    | some ra => one ra (leNat data) s
    | none =>
      if (spaceTarget off).isNone then s                       -- offsets of no block discard writes (R36)
      else if (windowBytes s b (off % 0x100000)).isSome then windowWrite q b (off % 0x100000) (leNat data) s
      else if (spaceTarget off).any (fun t => !axAdmits s q .wr t) || (!q.dev && hiddenBlock b) then
        evt Ev.ACCESS_VIOLATION q off s
      else s
  else match ra, regDecode (off + 4) with
    | some lo, some hi =>
      if data.length = 8 ∧ off % 8 = 0 ∧ (regRow lo.id).pair then
        regGuard q lo (fun s => one hi (leNat (data.drop 4)) (one lo (leNat (data.take 4)) s)) s
      else evt Ev.WRITE_SIZE_VIOLATION q off s
    | _, _ => evt Ev.WRITE_SIZE_VIOLATION q off s

/-! ### The device window from outside -/

/-- A read of the device window: refused reads give zeros and are logged by kind (R394). -/
def winRead (q : Req) (a n : Nat) (s : State) : List Byte × State :=
  let v := winVerdict s q .rd a n
  if v.st ≠ 0 then (leBytes n 0, logRefusal q a v s)
  else if regBase ≤ a then regRead q (a - regBase) n s
  else if poisoned s a n then ((List.range n).map (Config.poisonByte s.fv), useFree s)
  else (rdBytes s a n, if a < hbmEnd then hbmTouch 1 s else s)

/-- A write of the device window: a refused write is discarded. -/
def winWriteBy (cmd : Req → Nat → Nat → State → State) (q : Req) (a : Nat) (data : List Byte) (s : State) : State :=
  let v := winVerdict s q .wr a data.length
  if v.st ≠ 0 then logRefusal q a v s
  else if regBase ≤ a then regWriteBy cmd q (a - regBase) data s
  else wrBytes a data (if a < hbmEnd then hbmTouch 1 s else s)

/-- A write of HF_RA_CMD[p] (R461). A local store of one mailbox may reach another mailbox's command; each is BUSY meanwhile, so
sixteen levels suffice. -/
def mailboxFuel : Nat → Req → Nat → Nat → State → State
  | 0, _, _, _, s => s
  | n + 1, q, p, v, s =>
    mailboxGuard q p (fun s => mailboxRun q p (bits v 2 0) (bits v 7 4) (bit v 8) winRead (winWriteBy (mailboxFuel n)) s) s

def mailboxOp (q : Req) (p v : Nat) (s : State) : State := mailboxFuel 17 q p v s

def regWrite (q : Req) (off : Nat) (data : List Byte) (s : State) : State := regWriteBy mailboxOp q off data s
def winWrite (q : Req) (a : Nat) (data : List Byte) (s : State) : State := winWriteBy mailboxOp q a data s

/-! ### The host port (R394, R395, R552, R554) -/

/-- The requester a function's access makes; none where it is bound to no partition. -/
def fnReq (s : State) (f : Nat) : Option Req :=
  if f = 0 then some ⟨0x90, 0, 0, true⟩ else (fnPart s f).map fun p => ⟨0x90, BitVec.ofNat 7 f, BitVec.ofNat 4 p, false⟩

/-- What BAR 0 of PF0 exposes in recovery (R552) and in ROM recovery (R554). -/
def barShows (s : State) (off : Nat) : Bool :=
  let b := (spaceBlock off).getD 0xFF
  if s.pm.romRec then b == 0x10 || b == 0x11
  else if s.pm.recovery then [0x0, 0x11, 0x1, 0x10, 0x9].contains b || (0x2000000 ≤ off && off < 0x2000400)
  else true

/-- A VF exists while NumVFs covers it; PF0 and PF1 always do. -/
def fnExists (s : State) (f : Nat) : Bool := f < 2 || (f < 65 && f - 1 ≤ s.hp.numVfs)

/-- HOST_PORT_ACCESS: a TLP of `len` bytes through a BAR; `wr` holds a write's data. Reads are answered with data. -/
def hostAccess (f : Nat) (bar : Bar) (off len : Nat) (wr : Option (List Byte)) (s : State) : State :=
  let rec0 := s.pm.recovery || s.pm.romRec
  let size := match bar with | .bar0 => 0x4000000 | .bar2 => 0x10000000000
  let answer (x : List Byte × State) : State := send Mk.hostData [f, off] x.1 x.2
  if !s.hp.up ∨ !fnExists s f ∨ size < off + len then s
  else
    let q := fnReq s f
    let seen := match bar with | .bar0 => (!rec0 || f == 0) && barShows s off | .bar2 => !rec0
    match q, seen, wr with
    | some q, true, none => answer (match bar with | .bar0 => regRead q off len s | .bar2 => winRead q off len s)
    | some q, true, some d => match bar with | .bar0 => regWrite q off d s | .bar2 => winWrite q off d s
    | _, _, none => answer (leBytes len 0, s)
    | _, _, some _ => s

/-- DOWNSTREAM_REQUEST (R423): only in root-port mode. -/
def downAccess (off len : Nat) (wr : Option (List Byte)) (s : State) : State :=
  let q : Req := ⟨0x91, 0, BitVec.ofNat 4 (rg s .FP_RP_PART), false⟩
  if !s.lay.laid ∨ s.lay.img.farMode then s
  else match wr with
    | some d => winWrite q off d s
    | none => let x := winRead q off len s; send Mk.downData [off] x.1 x.2

/-! ### Configuration space (R42, R395, R541) -/

def cfgKey (f reg : Nat) : Nat := f * 1024 + reg
def cfgRead (s : State) (f reg : Nat) : W32 := (nget s.hp.cfg (cfgKey f reg)).getD (Config.pciInit (cfgKey f reg))

/-- Mask of the enabled bytes. -/
def beMask (be : BitVec 4) : W32 :=
  (List.range 4).foldl (fun m i => if be.getLsbD i then m ||| (BitVec.ofNat 32 (0xFF * 2 ^ (8 * i))) else m) 0

/-- A write of a dword: writable bits take the data, RW1C bits written 1 clear. -/
def cfgMerge (k : Nat) (old v : W32) (be : BitVec 4) : W32 :=
  let m := Config.pciMask k &&& beMask be
  ((old &&& ~~~m) ||| (v &&& m)) &&& ~~~(v &&& Config.pciW1c k &&& beMask be)

/-- What a configuration write does besides: NumVFs, an FLR, Retrain Link (R395, R396, R559). -/
def cfgEffect (f reg : Nat) (v : W32) (be : BitVec 4) (s : State) : State :=
  let s := if f = 1 ∧ reg = Config.pciDword 1 0 then { s with hp.numVfs := min 63 ((cfgRead s f reg).toNat % 0x10000) } else s
  let s := if reg = Config.pciDword f 1 ∧ v.getLsbD 15 ∧ be.getLsbD 1 then flrOp f s else s
  if reg = Config.pciDword f 2 ∧ v.getLsbD 5 ∧ be.getLsbD 0 then { s with hp.serdes := false } else s

/-- PCIE_CONFIG_REQUEST: until step 8 of R540 completes it is answered with Request Retry Status (R541). -/
def cfgOp (f reg : Nat) (be : BitVec 4) (wr : Option W32) (s : State) : State :=
  if s.pm.step < 8 ∧ !s.pm.romRec then send Mk.cfgRetry [f, reg] [] s
  else if !s.hp.up ∨ !fnExists s f then s
  else match wr with
    | none => send Mk.cfgData [f, reg] (leBytes 4 (cfgRead s f reg).toNat) s
    | some v =>
      let k := cfgKey f reg
      send Mk.cfgDone [f, reg] [] (cfgEffect f reg v be { s with hp.cfg := nset s.hp.cfg k (cfgMerge k (cfgRead s f reg) v be) })

/-! ### The commands -/

def execRegisterWrite (q : Req) (off : BitVec 26) (data : List Byte) (s : State) : Result :=
  .next (after s (regWrite q off.toNat data s))

/-- A register by its offset, or a captured counter by its name. -/
def regReadOp (q : Req) (src : RegSel) (len : Nat) (s : State) : State :=
  match src with
  | .off o => let x := regRead q o.toNat len s; send Mk.regData [o.toNat] x.1 x.2
  | .counter c i => send Mk.regData [ctrKey c i.toNat (bankFor q)] (leBytes 8 (counterRead s q c i.toNat)) s

def execRegisterRead (q : Req) (src : RegSel) (len : Nat) (s : State) : Result := .next (regReadOp q src len s)
def execHostPortAccess (f : BitVec 7) (bar : Bar) (off : W64) (len : Nat) (wr : Option (List Byte)) (s : State) : Result :=
  .next (after s (hostAccess f.toNat bar off.toNat len wr s))
def execDownstreamRequest (off : W64) (len : Nat) (wr : Option (List Byte)) (s : State) : Result :=
  .next (after s (downAccess off.toNat len wr s))
def execPcieConfigRequest (f : BitVec 7) (reg : BitVec 10) (be : BitVec 4) (wr : Option W32) (s : State) : Result :=
  .next (after s (cfgOp f.toNat reg.toNat be wr s))
def execHfRaRead (q : Req) (p : Fin 16) (size8 : Bool) (s : State) : Result :=
  .next (after s (mailboxOp q p (1 + flagAt size8 8) s))
def execHfRaStore (q : Req) (p : Fin 16) (size8 : Bool) (s : State) : Result :=
  .next (after s (mailboxOp q p (2 + flagAt size8 8) s))
def execHfRaAtomic (q : Req) (p : Fin 16) (aop : BitVec 4) (s : State) : Result :=
  .next (after s (mailboxOp q p (3 + 16 * aop.toNat) s))
def execHfRaFence (q : Req) (p : Fin 16) (s : State) : Result := .next (after s (mailboxOp q p 4 s))

end Sys2Proof.Machine
end

