-- ==== Sys2Proof/Machine/HarahIn.lean ====
section
/-! DEFINITION. Harah requests at their destination (R447-R449, R458): forwarding, the checks in R35's order, what each type
does, its response. -/

namespace Sys2Proof.Machine

/-- The requester a packet makes its access as: the quad it arrived on, its partition tag, never the marker (R52, R53, R446). -/
def hfReq (k : Fin 12) (h : HfHdr) : Req := ⟨BitVec.ofNat 8 (0x92 + k), 0, h.part, false⟩

/-- SRC lies in one of the ranges of the partition (R447, R461). -/
def inRange (s : State) (p src : Nat) : Bool :=
  (List.range 4).any fun j => let v := rg s .HF_IN_RANGE p j; v % 65536 ≤ src && src ≤ v / 65536

/-- A refusal at target 384. -/
def hfDenied : Verdict := ⟨stFaultAccess, detTarget (some 384)⟩

/-- The checks of R447 in the order of R35; no request is admitted for a confidential partition (R478). -/
def hfVerdict (s : State) (k : Fin 12) (h : HfHdr) (acc : Acc) (n : Nat) : Verdict :=
  let q := hfReq k h
  let v := winVerdict s q acc h.off.toNat n
  if v.st = stAddressHole then v
  else if isConf s h.part.toNat ∨ !inRange s h.part.toNat h.src.toNat ∨ !axAdmits s q acc 384 then hfDenied
  else v

/-- A packet for another device is forwarded unchecked, on the escape channel where it came on one (R436, R447). -/
def hfForward (ty : Nat) (h : HfHdr) (args : List Nat) (data : List Byte) (s : State) : State :=
  let d := h.dst.toNat
  let e := if h.esc ∧ ty ≠ 4 then (escQuad s d, 0) else egress s ty d h.tag.toNat
  let m : List Nat := [ty, h.part.toNat, h.src.toNat, d, h.off.toNat, h.tag.toNat, h.birth.toNat] ++ args
  if e.1 = 0xF then s
  else linkSend e.1 e.2 (2 + ceilDiv data.length 16) d none (ctr .HF_FWD_PKT_CNT 16 (send Mk.harahForward m data s))

/-- What every request meets: membership of the span (R456), its age (R452), its destination. `f` performs it here. -/
def hfArrive (ty : Nat) (h : HfHdr) (args : List Nat) (data : List Byte) (f : State → State) (s : State) : State :=
  if !hfMember s then s
  else if rg s .HF_LIFE_US < hfAge s h.birth.toNat then ctr .HF_AGE_DROP_CNT 16 s
  else if h.dst.toNat ≠ s.hf.devId then hfForward ty h args data s
  else f s

/-- A refused request is counted and answered with its verdict. -/
def hfRefuse (rty : Nat) (h : HfHdr) (v : Verdict) (s : State) : State :=
  hfRespond rty h.src.toNat h.tag.toNat v.st v.det [] (ctr .HF_IN_REFUSED_CNT h.part.toNat s)

/-- READ. Poisoned data ends it FAULT_CONTEXT (R586). -/
def hfReadOp (k : Fin 12) (h : HfHdr) (len : Nat) (s : State) : State :=
  hfArrive tyRead h [len] [] (fun s =>
    let v := hfVerdict s k h .rd len
    if v.st ≠ 0 then hfRefuse 0x81 h v s
    else if poisoned s h.off.toNat len then hfRefuse 0x81 h ⟨stFaultContext, 0⟩ s
    else
      let x := winRead (hfReq k h) h.off.toNat len (ctr .HF_IN_RD_CNT h.part.toNat s)
      hfRespond 0x81 h.src.toNat h.tag.toNat stDone 0 x.1 x.2) s

/-- STORE: a write discarded under R47-R49 is still acknowledged DONE. -/
def hfStoreOp (k : Fin 12) (h : HfHdr) (data : List Byte) (s : State) : State :=
  hfArrive tyStore h [] data (fun s =>
    let v := hfVerdict s k h .wr data.length
    if v.st ≠ 0 then hfRefuse 0x82 h v s
    else hfRespond 0x82 h.src.toNat h.tag.toNat stDone 0 []
      (winWrite (hfReq k h) h.off.toNat data (ctr .HF_IN_ST_CNT h.part.toNat s))) s

/-- ATOMIC (R448). The word is the aligned one that holds OFFSET. -/
def hfAtomicOp (k : Fin 12) (h : HfHdr) (aop x cmp : Nat) (s : State) : State :=
  hfArrive tyAtomic h [aop, x, cmp] (leBytes 8 x) (fun s =>
    let a := h.off.toNat / 8 * 8
    let v := hfVerdict s k { h with off := BitVec.ofNat 48 a } .at 8
    if v.st = stAddressHole then hfRefuse 0x83 h v s
    else if atomicBarred a then
      hfRefuse 0x83 h ⟨stFaultAccess, detTarget none⟩ (evt Ev.HARAH_ATOMIC_TARGET (hfReq k h) a s)
    else if v.st ≠ 0 then hfRefuse 0x83 h v s
    else
      let z := atomicAt aop a x cmp s
      if z.1.st ≠ 0 then hfRefuse 0x83 h z.1 s
      else hfRespond 0x83 h.src.toNat h.tag.toNat stDone 0 (leBytes 8 z.2.1)
        (let t := ctr .HF_IN_AT_CNT h.part.toNat z.2.2; if a < hbmEnd then hbmTouch 1 t else t)) s

/-- RING_DATA (R225, R458): its bytes go to OFFSET, and with the last stripe of a shard the rank has it whole. -/
def hfRingOp (k : Fin 12) (h : HfHdr) (data : List Byte) (shard : Option ShardEnd) (s : State) : State :=
  hfArrive tyRing h [] data (fun s =>
    let v := hfVerdict s k h .wr data.length
    if v.st ≠ 0 then hfRefuse 0x82 h v s
    else
      let s := hfRespond 0x82 h.src.toNat h.tag.toNat stDone 0 []
        (winWrite (hfReq k h) h.off.toNat data (ctr .HF_IN_ST_CNT h.part.toNat s))
      match shard with
      | some e => shardArrived e.c e.layer.toNat e.pass.toNat e.origin.toNat e.tokens.toNat e.log.toNat s
      | none => s) s

/-- A unit message at its unit (R440). -/
def unitMsg (src tag : Nat) (m : UnitMsg) (s : State) : State :=
  match m with
  | .reserve h p pages pol tok => htReserveOp src tag h.toNat p pages.toNat pol.toNat tok.toNat s
  | .arrived h => htArrivedOp src tag h.toNat s
  | .release h dst => htReleaseMsg src tag h.toNat dst.toNat s
  | .ask h => htAskOp src tag h.toNat s
  | .digest r dg => spnDigestOp src tag r.toNat dg.toNat s
  | .work r l st d tok q par kk v => spnWorkOp src tag r.toNat l.toNat st.toNat d tok.toNat q par kk v s
  | .state r l st rank fl data => spnStateOp src tag r.toNat l.toNat st.toNat rank.toNat fl.toNat data s
  | .commit r st tok rows => spnCtlCommitOp src tag r.toNat st.toNat tok.toNat rows s
  | .cancel r st => spnCancelOp src tag r.toNat st.toNat s
  | .down r => spnDownOp src tag r.toNat s

/-- The fields of a unit message, its code first. -/
def msgArgs (m : UnitMsg) : List Nat :=
  match m with
  | .reserve h p pages pol tok => [0x01, h.toNat, p, pages.toNat, pol.toNat, tok.toNat]
  | .arrived h => [0x02, h.toNat]
  | .release h dst => [0x03, h.toNat, dst.toNat]
  | .ask h => [0x04, h.toNat]
  | .digest r dg => [0x10, r.toNat, dg.toNat]
  | .work r l st d tok _ par _ _ => [0x11, r.toNat, l.toNat, st.toNat, d.toNat, tok.toNat] ++ par
  | .state r l st rank fl _ => [0x12, r.toNat, l.toNat, st.toNat, rank.toNat, fl.toNat]
  | .commit r st tok rows => [0x13, r.toNat, 0, st.toNat, tok.toNat] ++ rows
  | .cancel r st => [0x13, r.toNat, 1, st.toNat]
  | .down r => [0x13, r.toNat, 2]

/-- The data a unit message carries. -/
def msgData (m : UnitMsg) : List Byte :=
  match m with
  | .work _ _ _ _ _ q _ k v => q ++ k ++ v
  | .state _ _ _ _ _ data => data
  | _ => []

/-- UNIT_MSG needs only the check at target 384 (R447). -/
def hfMsgOp (k : Fin 12) (h : HfHdr) (m : UnitMsg) (s : State) : State :=
  hfArrive tyMsg h (msgArgs m) (msgData m) (fun s =>
    if isConf s h.part.toNat ∨ !axAdmits s (hfReq k h) .wr 384 then hfRefuse 0x84 h hfDenied s
    else unitMsg h.src.toNat h.tag.toNat m s) s

/-! ### The commands -/

def execHarahRead (k : Fin 12) (h : HfHdr) (len : Nat) (s : State) : Result := .next (after s (hfReadOp k h len s))
def execHarahStore (k : Fin 12) (h : HfHdr) (data : List Byte) (s : State) : Result := .next (after s (hfStoreOp k h data s))
def execHarahAtomic (k : Fin 12) (h : HfHdr) (aop : BitVec 4) (x cmp : W64) (s : State) : Result :=
  .next (after s (hfAtomicOp k h aop.toNat x.toNat cmp.toNat s))
def execHarahRingData (k : Fin 12) (h : HfHdr) (data : List Byte) (shard : Option ShardEnd) (s : State) : Result :=
  .next (after s (hfRingOp k h data shard s))
def execHarahUnitMsg (k : Fin 12) (h : HfHdr) (m : UnitMsg) (s : State) : Result := .next (after s (hfMsgOp k h m s))

end Sys2Proof.Machine
end

