-- ==== Sys2Proof/Machine/Dispatch.lean ====
section
/-! DEFINITION. One arm per command: each a direct call of its meaning, or rejected by name. -/

namespace Sys2Proof.Machine

def exec (i : Instr) (s : State) : Host.Outcome State Fault Refusal :=
  match i with
  | .dbSwIdxWrite q r v => Sys2Proof.Machine.execDbSwIdxWrite q r v s
  | .descriptorFetch r => Sys2Proof.Machine.execDescriptorFetch r s
  | .serverDispatch p srv => Sys2Proof.Machine.execServerDispatch p srv s
  | .shaperRelease item => Sys2Proof.Machine.execShaperRelease item s
  | .gateOpening p => Sys2Proof.Machine.execGateOpening p s
  | .gclListSwitch p => Sys2Proof.Machine.execGclListSwitch p s
  | .deferralTimer item => Sys2Proof.Machine.execDeferralTimer item s
  | .yellowTimeout item => Sys2Proof.Machine.execYellowTimeout item s
  | .budgetRefill a => Sys2Proof.Machine.execBudgetRefill a s
  | .preemptWaitExpiry item srv => Sys2Proof.Machine.execPreemptWaitExpiry item srv s
  | .accountCredit q hi => Sys2Proof.Machine.execAccountCredit q hi s
  | .refillPeriodWrite q period v => Sys2Proof.Machine.execRefillPeriodWrite q period v s
  | .meterConfigWrite q w v => Sys2Proof.Machine.execMeterConfigWrite q w v s
  | .meterPlacementWrite q base v => Sys2Proof.Machine.execMeterPlacementWrite q base v s
  | .ringClassBind q r v => Sys2Proof.Machine.execRingClassBind q r v s
  | .gclCommit q p v => Sys2Proof.Machine.execGclCommit q p v s
  | .ringEnable q r v => Sys2Proof.Machine.execRingEnable q r v s
  | .ringDrain q r => Sys2Proof.Machine.execRingDrain q r s
  | .ringAbort q r => Sys2Proof.Machine.execRingAbort q r s
  | .msixCoalesceTimer r => Sys2Proof.Machine.execMsixCoalesceTimer r s
  | .flr f => Sys2Proof.Machine.execFlr f s
  | .hostLinkDown => Sys2Proof.Machine.execHostLinkDown s
  | .perstNAssert => Sys2Proof.Machine.execPerstNAssert s
  | .hostPortAccess f bar off len wr => Sys2Proof.Machine.execHostPortAccess f bar off len wr s
  | .hostDmaCompletionError id poison => Sys2Proof.Machine.execHostDmaCompletionError id poison s
  | .hostDmaTimeout id => Sys2Proof.Machine.execHostDmaTimeout id s
  | .rdmaWrite qp psn rkey va data ecn => Sys2Proof.Machine.execRdmaWrite qp psn rkey va data ecn s
  | .rdmaWriteImm qp psn rkey va data imm ecn => Sys2Proof.Machine.execRdmaWriteImm qp psn rkey va data imm ecn s
  | .rdmaRead qp psn rkey va len ecn => Sys2Proof.Machine.execRdmaRead qp psn rkey va len ecn s
  | .roceUnsupportedOp qp psn ecn => Sys2Proof.Machine.execRoceUnsupportedOp qp psn ecn s
  | .arpRequest n v6 addr => Sys2Proof.Machine.execArpRequest n v6 addr s
  | .qpLoad q qp => Sys2Proof.Machine.execQpLoad q qp s
  | .qpReset q qp => Sys2Proof.Machine.execQpReset q qp s
  | .fpSubportTrain n dvsec active decoder pages speed width => Sys2Proof.Machine.execFpSubportTrain n dvsec active decoder pages speed width s
  | .memActiveTimeout n => Sys2Proof.Machine.execMemActiveTimeout n s
  | .farPortLinkLoss n => Sys2Proof.Machine.execFarPortLinkLoss n s
  | .farPortPresenceChange n present => Sys2Proof.Machine.execFarPortPresenceChange n present s
  | .fpRpCfgRead q a v => Sys2Proof.Machine.execFpRpCfgRead q a v s
  | .fpRpCfgWrite q a => Sys2Proof.Machine.execFpRpCfgWrite q a s
  | .downstreamRequest off len wr => Sys2Proof.Machine.execDownstreamRequest off len wr s
  | .create r d => Sys2Proof.Machine.execCreate r d s
  | .forkFromNode r d => Sys2Proof.Machine.execForkFromNode r d s
  | .forkFromSession r d => Sys2Proof.Machine.execForkFromSession r d s
  | .park r d => Sys2Proof.Machine.execPark r d s
  | .revive r d => Sys2Proof.Machine.execRevive r d s
  | .migrate r d => Sys2Proof.Machine.execMigrate r d s
  | .migrateForceAdopt r d => Sys2Proof.Machine.execMigrateForceAdopt r d s
  | .free r d => Sys2Proof.Machine.execFree r d s
  | .query r d => Sys2Proof.Machine.execQuery r d s
  | .hitchFailover q => Sys2Proof.Machine.execHitchFailover q s
  | .hitchHeartbeatMiss => Sys2Proof.Machine.execHitchHeartbeatMiss s
  | .hitchReinstate q pass => Sys2Proof.Machine.execHitchReinstate q pass s
  | .hitchJournalAck => Sys2Proof.Machine.execHitchJournalAck s
  | .htReserve src tag h p pages pol tokens => Sys2Proof.Machine.execHtReserve src tag h p pages pol tokens s
  | .htArrived src tag h => Sys2Proof.Machine.execHtArrived src tag h s
  | .htRelease src tag h dst => Sys2Proof.Machine.execHtRelease src tag h dst s
  | .htAsk src tag h => Sys2Proof.Machine.execHtAsk src tag h s
  | .migRetryTimer slot => Sys2Proof.Machine.execMigRetryTimer slot s
  | .moveCommit slot => Sys2Proof.Machine.execMoveCommit slot s
  | .stepEnd slot => Sys2Proof.Machine.execStepEnd slot s
  | .deadlineExpiry slot => Sys2Proof.Machine.execDeadlineExpiry slot s
  | .demotionDue p warm => Sys2Proof.Machine.execDemotionDue p warm s
  | .copy r d => Sys2Proof.Machine.execCopy r d s
  | .zero r d => Sys2Proof.Machine.execZero r d s
  | .swapPost r d => Sys2Proof.Machine.execSwapPost r d s
  | .spliceTileAck x rd => Sys2Proof.Machine.execSpliceTileAck x rd s
  | .t2WriteTimeout x error => Sys2Proof.Machine.execT2WriteTimeout x error s
  | .tornScrub page ok => Sys2Proof.Machine.execTornScrub page ok s
  | .t2Evict q n => Sys2Proof.Machine.execT2Evict q n s
  | .t2EvictDone n => Sys2Proof.Machine.execT2EvictDone n s
  | .t2Admit q n => Sys2Proof.Machine.execT2Admit q n s
  | .surpriseWalkEnd n => Sys2Proof.Machine.execSurpriseWalkEnd n s
  | .persistAck q p id => Sys2Proof.Machine.execPersistAck q p id s
  | .persistTimeout slot => Sys2Proof.Machine.execPersistTimeout slot s
  | .spillAreaLow p => Sys2Proof.Machine.execSpillAreaLow p s
  | .lookup r d => Sys2Proof.Machine.execLookup r d s
  | .publish r d => Sys2Proof.Machine.execPublish r d s
  | .drop r d => Sys2Proof.Machine.execDrop r d s
  | .pfxRekey q v => Sys2Proof.Machine.execPfxRekey q v s
  | .attend r d => Sys2Proof.Machine.execAttend r d s
  | .attendOutputAck r d => Sys2Proof.Machine.execAttendOutputAck r d s
  | .fill r d => Sys2Proof.Machine.execFill r d s
  | .fillCommit c => Sys2Proof.Machine.execFillCommit c s
  | .lathePreempt g ns => Sys2Proof.Machine.execLathePreempt g ns s
  | .latheResume r d => Sys2Proof.Machine.execLatheResume r d s
  | .spnArm q c => Sys2Proof.Machine.execSpnArm q c s
  | .spnDisarm q c => Sys2Proof.Machine.execSpnDisarm q c s
  | .spnAbort q c => Sys2Proof.Machine.execSpnAbort q c s
  | .spnDigest src tag ringId dg => Sys2Proof.Machine.execSpnDigest src tag ringId dg s
  | .spnFormTimeout c => Sys2Proof.Machine.execSpnFormTimeout c s
  | .spnNeighbourSilent c pred => Sys2Proof.Machine.execSpnNeighbourSilent c pred s
  | .spnStallTimeout c => Sys2Proof.Machine.execSpnStallTimeout c s
  | .spnGateBoundary c => Sys2Proof.Machine.execSpnGateBoundary c s
  | .spnWork src tag ringId layer step d tok q par k v => Sys2Proof.Machine.execSpnWork src tag ringId layer step d tok q par k v s
  | .spnState src tag ringId layer step rank fl data => Sys2Proof.Machine.execSpnState src tag ringId layer step rank fl data s
  | .spnCtlCommit src tag ringId step tok rows => Sys2Proof.Machine.execSpnCtlCommit src tag ringId step tok rows s
  | .spnCtlCancel src tag ringId step => Sys2Proof.Machine.execSpnCtlCancel src tag ringId step s
  | .spnCtlDown src tag ringId => Sys2Proof.Machine.execSpnCtlDown src tag ringId s
  | .tokenize r d => Sys2Proof.Machine.execTokenize r d s
  | .detokenize r d => Sys2Proof.Machine.execDetokenize r d s
  | .vocabLoad r d => Sys2Proof.Machine.execVocabLoad r d s
  | .vocabLoadDone x => Sys2Proof.Machine.execVocabLoadDone x s
  | .vocabUnload r d => Sys2Proof.Machine.execVocabUnload r d s
  | .streamChunkAck slot => Sys2Proof.Machine.execStreamChunkAck slot s
  | .genOpen r d => Sys2Proof.Machine.execGenOpen r d s
  | .sample r d => Sys2Proof.Machine.execSample r d s
  | .commitPoint slot => Sys2Proof.Machine.execCommitPoint slot s
  | .cancel r d => Sys2Proof.Machine.execCancel r d s
  | .btCancelWrite q p lo hi => Sys2Proof.Machine.execBtCancelWrite q p lo hi s
  | .gramLoad r d => Sys2Proof.Machine.execGramLoad r d s
  | .gramUnload r d => Sys2Proof.Machine.execGramUnload r d s
  | .load r d => Sys2Proof.Machine.execLoad r d s
  | .unload r d => Sys2Proof.Machine.execUnload r d s
  | .run r d => Sys2Proof.Machine.execRun r d s
  | .draftRun r d => Sys2Proof.Machine.execDraftRun r d s
  | .draftTileLate r d => Sys2Proof.Machine.execDraftTileLate r d s
  | .adzePreempt r d ns => Sys2Proof.Machine.execAdzePreempt r d ns s
  | .adzeResume r d => Sys2Proof.Machine.execAdzeResume r d s
  | .search r d => Sys2Proof.Machine.execSearch r d s
  | .searchExhaustive r d => Sys2Proof.Machine.execSearchExhaustive r d s
  | .searchSharded r d => Sys2Proof.Machine.execSearchSharded r d s
  | .shardAnswer p serial shard st blocks => Sys2Proof.Machine.execShardAnswer p serial shard st blocks s
  | .shardTimeout p serial => Sys2Proof.Machine.execShardTimeout p serial s
  | .shardHoldExpiry p serial => Sys2Proof.Machine.execShardHoldExpiry p serial s
  | .indexOpen r d => Sys2Proof.Machine.execIndexOpen r d s
  | .indexClose r d => Sys2Proof.Machine.execIndexClose r d s
  | .engineEnable q b e v => Sys2Proof.Machine.execEngineEnable q b e v s
  | .engineDrain q b e => Sys2Proof.Machine.execEngineDrain q b e s
  | .engineAbort q b e => Sys2Proof.Machine.execEngineAbort q b e s
  | .unitDrainWrite q u v => Sys2Proof.Machine.execUnitDrainWrite q u v s
  | .registerParityFault off inj => Sys2Proof.Machine.execRegisterParityFault off inj s
  | .detectedFault x inj => Sys2Proof.Machine.execDetectedFault x inj s
  | .engineFence b e => Sys2Proof.Machine.execEngineFence b e s
  | .pmInstReset q block inst => Sys2Proof.Machine.execPmInstReset q block inst s
  | .instSelftestDone pass => Sys2Proof.Machine.execInstSelftestDone pass s
  | .hmSpare q t => Sys2Proof.Machine.execHmSpare q t s
  | .spareCopyDone t readable bad => Sys2Proof.Machine.execSpareCopyDone t readable bad s
  | .patrolScrubPeriod n => Sys2Proof.Machine.execPatrolScrubPeriod n s
  | .responseTimeout b => Sys2Proof.Machine.execResponseTimeout b s
  | .axCommit q t => Sys2Proof.Machine.execAxCommit q t s
  | .axRestage q t => Sys2Proof.Machine.execAxRestage q t s
  | .layApply q p img => Sys2Proof.Machine.execLayApply q p img s
  | .partTeardown q p => Sys2Proof.Machine.execPartTeardown q p s
  | .partDrain q p v => Sys2Proof.Machine.execPartDrain q p v s
  | .injArm q k => Sys2Proof.Machine.execInjArm q k s
  | .injDisarm q k => Sys2Proof.Machine.execInjDisarm q k s
  | .injExpiry => Sys2Proof.Machine.execInjExpiry s
  | .snapCapture q b => Sys2Proof.Machine.execSnapCapture q b s
  | .pmSnapAll q => Sys2Proof.Machine.execPmSnapAll q s
  | .snapAllCapture => Sys2Proof.Machine.execSnapAllCapture s
  | .hwActivate q slot => Sys2Proof.Machine.execHwActivate q slot s
  | .hwCmdEnrol q sig => Sys2Proof.Machine.execHwCmdEnrol q sig s
  | .hwCmdFreshEnrol q => Sys2Proof.Machine.execHwCmdFreshEnrol q s
  | .hwCmdRemove q sig => Sys2Proof.Machine.execHwCmdRemove q sig s
  | .injAuthorise q sig => Sys2Proof.Machine.execInjAuthorise q sig s
  | .injRevoke q sig => Sys2Proof.Machine.execInjRevoke q sig s
  | .heartwoodWatchdog => Sys2Proof.Machine.execHeartwoodWatchdog s
  | .getVersion v => Sys2Proof.Machine.execGetVersion v s
  | .getCapabilities v => Sys2Proof.Machine.execGetCapabilities v s
  | .negotiateAlgorithms v offered => Sys2Proof.Machine.execNegotiateAlgorithms v offered s
  | .getDigests v => Sys2Proof.Machine.execGetDigests v s
  | .getCertificate v slot off len buf => Sys2Proof.Machine.execGetCertificate v slot off len buf s
  | .challenge v slot nonce => Sys2Proof.Machine.execChallenge v slot nonce s
  | .getMeasurements v idx nonce buf => Sys2Proof.Machine.execGetMeasurements v idx nonce buf s
  | .keyExchange v => Sys2Proof.Machine.execKeyExchange v s
  | .finish v sid ok leaf => Sys2Proof.Machine.execFinish v sid ok leaf s
  | .heartbeat v sid => Sys2Proof.Machine.execHeartbeat v sid s
  | .keyUpdate v sid => Sys2Proof.Machine.execKeyUpdate v sid s
  | .endSession v sid => Sys2Proof.Machine.execEndSession v sid s
  | .chunkSend v data last => Sys2Proof.Machine.execChunkSend v data last s
  | .chunkGet v n => Sys2Proof.Machine.execChunkGet v n s
  | .keyRelease v sid r key => Sys2Proof.Machine.execKeyRelease v sid r key s
  | .keyRevoke v sid r => Sys2Proof.Machine.execKeyRevoke v sid r s
  | .getPartLog v sid r => Sys2Proof.Machine.execGetPartLog v sid r s
  | .filterSample f x => Sys2Proof.Machine.execFilterSample f x s
  | .filterCfgWrite q f v => Sys2Proof.Machine.execFilterCfgWrite q f v s
  | .telemetryCapture power => Sys2Proof.Machine.execTelemetryCapture power s
  | .wakeAtExpiry p => Sys2Proof.Machine.execWakeAtExpiry p s
  | .doorbellSample => Sys2Proof.Machine.execDoorbellSample s
  | .groupIdleExpiry g => Sys2Proof.Machine.execGroupIdleExpiry g s
  | .groupDrainsComplete g => Sys2Proof.Machine.execGroupDrainsComplete g s
  | .watchModeEntry => Sys2Proof.Machine.execWatchModeEntry s
  | .domainReady k => Sys2Proof.Machine.execDomainReady k s
  | .gpioInputChange n level => Sys2Proof.Machine.execGpioInputChange n level s
  | .inputStuck n => Sys2Proof.Machine.execInputStuck n s
  | .rateWindowEnd => Sys2Proof.Machine.execRateWindowEnd s
  | .pinCfgWrite q n v => Sys2Proof.Machine.execPinCfgWrite q n v s
  | .lyFwActivate q => Sys2Proof.Machine.execLyFwActivate q s
  | .lyFwReverted => Sys2Proof.Machine.execLyFwReverted s
  | .lanyardWatchdog core => Sys2Proof.Machine.execLanyardWatchdog core s
  | .logSuppressed => Sys2Proof.Machine.execLogSuppressed s
  | .pldmDiscovery v sid => Sys2Proof.Machine.execPldmDiscovery v sid s
  | .pldmSensorRead v sid x => Sys2Proof.Machine.execPldmSensorRead v sid x s
  | .pldmEventLogRead v sid seq => Sys2Proof.Machine.execPldmEventLogRead v sid seq s
  | .pldmFruRead v sid => Sys2Proof.Machine.execPldmFruRead v sid s
  | .pldmFwStage v sid f => Sys2Proof.Machine.execPldmFwStage v sid f s
  | .pldmOemReset v sid => Sys2Proof.Machine.execPldmOemReset v sid s
  | .pldmOemFlashWrite v sid erase chip off len data c => Sys2Proof.Machine.execPldmOemFlashWrite v sid erase chip off len data c s
  | .pldmOemSignedCmd v sid op c sig => Sys2Proof.Machine.execPldmOemSignedCmd v sid op c sig s
  | .mgmtPowerOff v sid => Sys2Proof.Machine.execMgmtPowerOff v sid s
  | .mgmtPowerOn v => Sys2Proof.Machine.execMgmtPowerOn v s
  | .stbyPowerLoss => Sys2Proof.Machine.execStbyPowerLoss s
  | .stbyPwrOkRise st => Sys2Proof.Machine.execStbyPwrOkRise st s
  | .mainPwrOkRise => Sys2Proof.Machine.execMainPwrOkRise s
  | .mainPwrOkFall => Sys2Proof.Machine.execMainPwrOkFall s
  | .mainPwrTimeout => Sys2Proof.Machine.execMainPwrTimeout s
  | .sysRstNPulse ns held => Sys2Proof.Machine.execSysRstNPulse ns held s
  | .sysResetWrite q => Sys2Proof.Machine.execSysResetWrite q s
  | .coreResetWrite q => Sys2Proof.Machine.execCoreResetWrite q s
  | .spineWatchdog => Sys2Proof.Machine.execSpineWatchdog s
  | .thermtrip => Sys2Proof.Machine.execThermtrip s
  | .thermtripCooled => Sys2Proof.Machine.execThermtripCooled s
  | .bootGood q => Sys2Proof.Machine.execBootGood q s
  | .recoveryDone q => Sys2Proof.Machine.execRecoveryDone q s
  | .spineActivate q slot fail => Sys2Proof.Machine.execSpineActivate q slot fail s
  | .serdesActivate q slot => Sys2Proof.Machine.execSerdesActivate q slot s
  | .ethRetrain q => Sys2Proof.Machine.execEthRetrain q s
  | .flashErase q => Sys2Proof.Machine.execFlashErase q s
  | .flashProgram q c => Sys2Proof.Machine.execFlashProgram q c s
  | .flashRead q => Sys2Proof.Machine.execFlashRead q s
  | .domainRequest q k v => Sys2Proof.Machine.execDomainRequest q k v s
  | .throttleSample d c => Sys2Proof.Machine.execThrottleSample d c s
  | .powerLimitSample m10 m1000 => Sys2Proof.Machine.execPowerLimitSample m10 m1000 s
  | .bypass tdi => Sys2Proof.Machine.execBypass tdi s
  | .samplePreload cap tdi => Sys2Proof.Machine.execSamplePreload cap tdi s
  | .idcode tdi => Sys2Proof.Machine.execIdcode tdi s
  | .extest cap tdi => Sys2Proof.Machine.execExtest cap tdi s
  | .clamp tdi => Sys2Proof.Machine.execClamp tdi s
  | .highz tdi => Sys2Proof.Machine.execHighz tdi s
  | .extestPulse cap tdi => Sys2Proof.Machine.execExtestPulse cap tdi s
  | .extestTrain cap tdi => Sys2Proof.Machine.execExtestTrain cap tdi s
  | .linkPacketRx k crc kind seq ack nak cvc credits => Sys2Proof.Machine.execLinkPacketRx k crc kind seq ack nak cvc credits s
  | .replayTimeout k => Sys2Proof.Machine.execReplayTimeout k s
  | .nakResendTimer k => Sys2Proof.Machine.execNakResendTimer k s
  | .ackTimer k => Sys2Proof.Machine.execAckTimer k s
  | .controlRepeatTimer k => Sys2Proof.Machine.execControlRepeatTimer k s
  | .linkEnable q k v => Sys2Proof.Machine.execLinkEnable q k v s
  | .linkDrain q k => Sys2Proof.Machine.execLinkDrain q k s
  | .linkAbort q k => Sys2Proof.Machine.execLinkAbort q k s
  | .linkRetrain q k => Sys2Proof.Machine.execLinkRetrain q k s
  | .trainingDone k good theirs x credits rtt => Sys2Proof.Machine.execTrainingDone k good theirs x credits rtt s
  | .trainingTimeout k => Sys2Proof.Machine.execTrainingTimeout k s
  | .linkDownTimeout k => Sys2Proof.Machine.execLinkDownTimeout k s
  | .downRetryTimer k => Sys2Proof.Machine.execDownRetryTimer k s
  | .laneFailure k lost uncorr => Sys2Proof.Machine.execLaneFailure k lost uncorr s
  | .widthReq k mask dev uid answer => Sys2Proof.Machine.execWidthReq k mask dev uid answer s
  | .widthChangeDone k => Sys2Proof.Machine.execWidthChangeDone k s
  | .retrainReq k dev uid answer => Sys2Proof.Machine.execRetrainReq k dev uid answer s
  | .adaptiveEscapeTimeout k => Sys2Proof.Machine.execAdaptiveEscapeTimeout k s
  | .harahRead k h len => Sys2Proof.Machine.execHarahRead k h len s
  | .harahStore k h data => Sys2Proof.Machine.execHarahStore k h data s
  | .harahAtomic k h aop x cmp => Sys2Proof.Machine.execHarahAtomic k h aop x cmp s
  | .harahRingData k h data shard => Sys2Proof.Machine.execHarahRingData k h data shard s
  | .harahUnitMsg k h m => Sys2Proof.Machine.execHarahUnitMsg k h m s
  | .harahResponse r data => Sys2Proof.Machine.execHarahResponse r data s
  | .e2eTimeout tag => Sys2Proof.Machine.execE2eTimeout tag s
  | .routeHoldRelease d => Sys2Proof.Machine.execRouteHoldRelease d s
  | .discoveryMessage k m => Sys2Proof.Machine.execDiscoveryMessage k m s
  | .routeUpdate es => Sys2Proof.Machine.execRouteUpdate es s
  | .idAssign id => Sys2Proof.Machine.execIdAssign id s
  | .marshalSilence => Sys2Proof.Machine.execMarshalSilence s
  | .rediscover q => Sys2Proof.Machine.execRediscover q s
  | .yieldMarshal q => Sys2Proof.Machine.execYieldMarshal q s
  | .restep q => Sys2Proof.Machine.execRestep q s
  | .timeSync k t1 rtt => Sys2Proof.Machine.execTimeSync k t1 rtt s
  | .ptpMessage port m => Sys2Proof.Machine.execPtpMessage port m s
  | .ppsInEdge => Sys2Proof.Machine.execPpsInEdge s
  | .ppsOutSecond => Sys2Proof.Machine.execPpsOutSecond s
  | .hfRaRead q p size8 => Sys2Proof.Machine.execHfRaRead q p size8 s
  | .hfRaStore q p size8 => Sys2Proof.Machine.execHfRaStore q p size8 s
  | .hfRaAtomic q p aop => Sys2Proof.Machine.execHfRaAtomic q p aop s
  | .hfRaFence q p => Sys2Proof.Machine.execHfRaFence q p s
  | .ckStart q p verify => Sys2Proof.Machine.execCkStart q p verify s
  | .ckEvacuate q p verify => Sys2Proof.Machine.execCkEvacuate q p verify s
  | .ckRestore q p man sig => Sys2Proof.Machine.execCkRestore q p man sig s
  | .ckAbort q p => Sys2Proof.Machine.execCkAbort q p s
  | .ckShardDurable p g k => Sys2Proof.Machine.execCkShardDurable p g k s
  | .ckShardFail p x => Sys2Proof.Machine.execCkShardFail p x s
  | .ckReadbackDone p g k digest => Sys2Proof.Machine.execCkReadbackDone p g k digest s
  | .ckManifestDurable p => Sys2Proof.Machine.execCkManifestDurable p s
  | .ckRestoreReadDone p g rd => Sys2Proof.Machine.execCkRestoreReadDone p g rd s
  | .registerWrite q off data => Sys2Proof.Machine.execRegisterWrite q off data s
  | .registerRead q src len => Sys2Proof.Machine.execRegisterRead q src len s
  | .pcieConfigRequest f reg be wr => Sys2Proof.Machine.execPcieConfigRequest f reg be wr s
  | .hostLinkUp speed width => Sys2Proof.Machine.execHostLinkUp speed width s
  | .ethernetLinkChange n up => Sys2Proof.Machine.execEthernetLinkChange n up s
  | .pfcPauseFrame n prio pause => Sys2Proof.Machine.execPfcPauseFrame n prio pause s
  | .cxlEventRecord n rec => Sys2Proof.Machine.execCxlEventRecord n rec s
  | .sysRstNRelease => Sys2Proof.Machine.execSysRstNRelease s
  | .slotVerifyDone x => Sys2Proof.Machine.execSlotVerifyDone x s
  | .hitchResyncDone => Sys2Proof.Machine.execHitchResyncDone s
  | .heartwoodRestartDone => Sys2Proof.Machine.execHeartwoodRestartDone s
  | .wakeStagger g => Sys2Proof.Machine.execWakeStagger g s

end Sys2Proof.Machine
end

