-- ==== Sys2Proof/Machine/Tick.lean ====
section
/-! DEFINITION. What happens when no command waits: one nanosecond passes (DESIGN CHOICE, log 2). Uptime counts from standby
power (R535); span time counts from step 4 of the start (R540), slewed towards its source (R455); PPS_OUT falls after 1 ms
(R457); what waits inside the block looks again. -/

namespace Sys2Proof.Machine

/-- Nanoseconds span time gains in one nanosecond of TCLK, and the correction then left: at 200 ppm one nanosecond in 5,000 is
left out or counted twice, so that span time never runs backward (R455). -/
def slewTick (s : State) : Nat × Int :=
  let d := s.hf.time.slew
  if d = 0 ∨ s.uptime % 5000 ≠ 0 then (1, d) else if 0 < d then (2, d - 1) else (0, d + 1)

/-- TCLK counts once. -/
def spanTick (s : State) : State :=
  if 4 ≤ s.pm.step then
    let x := slewTick s
    { s with span := BitVec.ofNat 80 (now s + x.1), hf.time.slew := x.2 }
  else s

/-- PPS_OUT stays high for 1 ms (R457). -/
def ppsFall (s : State) : State :=
  if s.hf.time.ppsOut ∧ s.hf.time.ppsAt + 1000000 ≤ now s then { s with hf.time.ppsOut := false } else s

/-- One nanosecond with standby power. Without it nothing counts. -/
def tick (s : State) : State :=
  if s.pm.stbyOk then after s (ppsFall (spanTick { s with uptime := s.uptime + 1 })) else s

end Sys2Proof.Machine
end

