-- ==== Sys2Proof/Safety.lean ====
section
/-! DEFINITION. The terms in which claims speak of states: the canonical form of memory, the bounds of the logs, the right to
write a register, and the frames of an operation. -/

namespace Sys2Proof.Machine

/-- Keys strictly rising, all above `lo`, and no byte equal to what an unlisted address reads as. -/
def Memory.wfFrom : Option Nat → List Host.Cell → Bool
  | _, [] => true
  | lo, (a, b) :: r => (match lo with | some l => decide (l < a) | none => true) && b != 0 && Memory.wfFrom (some a) r

/-- The canonical form of memory: equal memories are equal lists. -/
def Memory.wf (m : List Host.Cell) : Bool := Memory.wfFrom none m

/-- What every step keeps: both memories in canonical form, the event log within 4,096 entries (R529) and the flash journal
within 65,536 (R530). -/
structure State.Inv (s : State) : Prop where
  mem  : Memory.wf s.mem = true
  hmem : Memory.wf s.hmem = true
  evts : s.evts.length ≤ 4096
  jrnl : s.journal.length ≤ 65536

/-- The requester may write the register and its block serves (R35, R38, R51). -/
abbrev Allowed (q : Req) (id : RegId) (i : Nat) (s : State) : Prop :=
  regWritable s q ⟨id, i, 0, 0⟩ = true ∧ regInReset s ⟨id, i, 0, 0⟩ = false

/-- Two states with the same memories: every byte of the device window and of host memory reads as before. -/
def SameMem (s t : State) : Prop := t.mem = s.mem ∧ t.hmem = s.hmem

/-- A byte by its address as the device sees it: host memory where bit 63 is set, else the device window. -/
def byteAt (s : State) (a : Nat) : Byte := if isHost a then memGet s.hmem (hostAddr a) else memGet s.mem a

/-- Every byte outside the listed ranges (first address, length) reads as before. -/
def KeepsOutside (l : List (Nat × Nat)) (s t : State) : Prop :=
  ∀ a, a < 2 ^ 64 → (∀ x ∈ l, a < x.1 ∨ x.1 + x.2 ≤ a) → byteAt t a = byteAt s a

/-- The bytes `bs` stand at `a`, as far as no listed range covers them. -/
def HoldsAt (t : State) (a : Nat) (bs : List Byte) (l : List (Nat × Nat)) : Prop :=
  ∀ i b, bs[i]? = some b → a + i < 2 ^ 64 → isHost a = isHost (a + i) → (∀ x ∈ l, a + i < x.1 ∨ x.1 + x.2 ≤ a + i) →
    byteAt t (a + i) = b

/-- Where the record of a command from a SUBMIT ring goes: the buffer of its completion ring and that ring's shadow (R401). -/
def recordSpans (s : State) (ring : Nat) : List (Nat × Nat) :=
  [(ringBase s (cqOf s ring), ringSize s (cqOf s ring) * ringEntry s (cqOf s ring)),
   (rg64 s .DB_SHADOW_LO .DB_SHADOW_HI (cqOf s ring), 4)]

/-- Exactly one completion record has been written: for the descriptor, with this status, these flags besides YELLOW and
PREEMPTED (R63), these counts, this handle and this DETAIL. -/
def OneRecord (s t : State) (r : BitVec 16) (d : BitVec 512) (st fl com bil hdl det : Nat) : Prop :=
  ∃ y, y ||| 12 = 12 ∧ t.recs = s.recs ++ [⟨r.toNat, dTag d, st, fl ||| y, com, bil, hdl, det⟩]

/-- Capstan has given the whole descriptor to its unit (R340, R353): nothing of it waits. -/
structure AtUnit (op : Nat) (r : BitVec 16) (d : BitVec 512) (p : Nat) (s : State) : Prop where
  part : ringPart s r.toNat = some p
  sent : waiting s r.toNat d = false
  code : dOp d = op

/-- The descriptor is at Hitch, which does not drain (R90, R105, R587); `u` is the state with its command counted (R105) and the
stacks in use (R518), to which the command is applied. -/
structure AtHitch (op : Nat) (r : BitVec 16) (d : BitVec 512) (p : Nat) (s u : State) : Prop where
  unit : AtUnit op r d p s
  runs : bit (rg s .HT_CTL) 0 = false
  seen : u = ctrAdd .HT_CMD_CNT op p 1 { s with ly.hbmAt := now s }

/-- The handle names slot `n` as partition `p` may use it (R75), and the session there is `x`. -/
structure Names (h : Nat) (p : Nat) (free : Bool) (n : Nat) (x : Slot) (s : State) : Prop where
  ok   : handleCheck s p false free h = stDone
  slot : hSlot h = n
  has  : slotOf s n = x

/-- Every slot but `n` is as it was. -/
def OtherSlots (n : Nat) (s t : State) : Prop := ∀ m, m ≠ n → slotOf t m = slotOf s m

end Sys2Proof.Machine
end

