-- ==== Sys2Proof/Certificates/Slice0/Obligations.lean ====
section
/-! DEFINITION. The statements for the provers. Each says what commands of the block do, for every state and operands that
meet its hypotheses. Where the block goes on by itself after a command, the next state is `after s t` of a state `t` that the
statement describes: `after` lets held and dependent work inside the block look again. -/

open Sys2Proof Sys2Proof.Machine

/-- One step takes the command at the front of the queue, first in first out, and runs it on the state with the queue's rest. -/
def Obligations.StepRunsTheFrontCommand : Prop :=
  ∀ (c : Instr) (rest : List Instr) (s : State), s.pending = c :: rest → step s = exec c { s with pending := rest }

/-- What happens when no command waits (log 2, the model's own choice of a clock): without standby power nothing changes; with
it uptime counts one nanosecond; span time counts on from step 4 of the start, one nanosecond at a time while nothing is left
to slew, and stays before it; neither log, memory nor any register changes by the counting itself. -/
def Obligations.AnEmptyQueueCountsOneNanosecond : Prop :=
  (∀ s : State, s.pending = [] → s.pm.stbyOk = false → step s = .next s) ∧
  (∀ s : State, s.pending = [] → s.pm.stbyOk = true → s.hf.time.ppsOut = false → 4 ≤ s.pm.step → s.hf.time.slew = 0 →
    step s = .next (after s { s with uptime := s.uptime + 1, span := BitVec.ofNat 80 (now s + 1) })) ∧
  (∀ s : State, s.pending = [] → s.pm.stbyOk = true → s.hf.time.ppsOut = false → s.pm.step < 4 →
    step s = .next (after s { s with uptime := s.uptime + 1 }))

/-- What every step keeps holds after reset: both memories canonical, the logs within their bounds. -/
def Obligations.TheInvariantHoldsAtReset : Prop := State.reset.Inv

/-- A step from any state with both memories in canonical form, the event log within its 4,096 entries (R529) and the journal
within its 65,536 (R530) answers a state of which the same holds. -/
def Obligations.EveryStepKeepsTheInvariant : Prop := ∀ s t : State, s.Inv → step s = .next t → t.Inv

/-- A read that is not one naturally aligned group of 1, 2, 4 or 8 bytes returns 0 in every requested byte, and is logged as
READ_SIZE_VIOLATION (R48). -/
def Obligations.ReadOfAWrongSizeReturnsZeros : Prop :=
  ∀ (q : Req) (o : BitVec 26) (len : Nat) (s : State), ¬ ((len = 1 ∨ len = 2 ∨ len = 4 ∨ len = 8) ∧ o.toNat % len = 0) →
    exec (.registerRead q (.off o) len) s =
      .next (send Mk.regData [o.toNat] (List.replicate len 0) (evt Ev.READ_SIZE_VIOLATION q o.toNat s))

/-- An admitted word read of a register outside the latched-high ones answers its word and changes nothing else (R47); a counter
reads as its reader's bank last captured it (R43, R44). -/
def Obligations.RegisterAndCounterReads : Prop :=
  (∀ (q : Req) (o : BitVec 26) (s : State) (ra : RegAt), regDecode o.toNat = some ra → lhGroup ra = [] →
    axAdmits s q .rd ((spaceTarget o.toNat).getD 0) = true → viewReads s q ((spaceBlock o.toNat).getD 0) (some ra) = true →
    exec (.registerRead q (.off o) 4) s =
      .next (send Mk.regData [o.toNat] (leBytes 4 (regWord s q ((spaceBlock o.toNat).getD 0) ra)) s)) ∧
  (∀ (q : Req) (c : Ct) (i : BitVec 16) (n v : Nat) (s : State), axAdmits s q .rd (352 + Ct.blk c) = true →
    viewReads s q (Ct.blk c) none = true → openCounter c = false →
    ngetD (ngetD s.ax.capVal (32 * Ct.blk c + bankFor q) []) (ctrKey c i.toNat (bankFor q)) 0 = v →
    exec (.registerRead q (.counter c i) n) s = .next (send Mk.regData [ctrKey c i.toNat (bankFor q)] (leBytes 8 v) s))

/-- An admitted, full, aligned 32-bit write of a plain register stores its RW bits, and nothing else (R49); a write of any other
size to it is discarded whole and logged as WRITE_SIZE_VIOLATION; one without the right is discarded and logged as
ACCESS_VIOLATION (R38); one while its block is in reset as WRITE_DURING_RESET (R51). -/
def Obligations.RegisterWritesByTheSizeRules : Prop :=
  ∀ (q : Req) (o : BitVec 26) (data : List Byte) (s : State) (id : RegId) (i : Nat),
    id ∈ [RegId.HP_CPL_TMO, .HF_E2E_TMO, .CP_CLASS_WEIGHT, .CP_CLASS_DEFER_US, .LA_STRAND_CFG, .PM_RSP_TMO] →
    regDecode o.toNat = some ⟨id, i, 0, 0⟩ →
    (data.length = 4 → o.toNat % 4 = 0 → Allowed q id i s →
      exec (.registerWrite q o data) s = .next (after s (rp id i 0 0 (leNat data) s))) ∧
    (data.length ≠ 4 → data.length ≠ 8 →
      exec (.registerWrite q o data) s = .next (after s (evt Ev.WRITE_SIZE_VIOLATION q o.toNat s))) ∧
    (data.length = 4 → o.toNat % 4 = 0 → regWritable s q ⟨id, i, 0, 0⟩ = false →
      exec (.registerWrite q o data) s = .next (after s (evt Ev.ACCESS_VIOLATION q (regOff id i 0 0) s))) ∧
    (data.length = 4 → o.toNat % 4 = 0 → regWritable s q ⟨id, i, 0, 0⟩ = true → regInReset s ⟨id, i, 0, 0⟩ = true →
      exec (.registerWrite q o data) s = .next (after s (evt Ev.WRITE_DURING_RESET q (regOff id i 0 0) s)))

/-- COMMIT of a target's access table (R57-R59): with no access of an earlier epoch outstanding the epoch rises by one, and every
staged entry becomes active at once within the ceiling, the entries of other targets staying as they were; while one is
outstanding it is discarded and logged as ACC_COMMIT_BUSY. RESTAGE makes the stage read as the active entries again. -/
def Obligations.AccessTableCommitAndRestage : Prop :=
  ∀ (q : Req) (t : BitVec 9) (s : State), t.toNat < 389 → Allowed q .AX_CTL t.toNat s →
    (axOld s t.toNat = 0 → confOwner s t.toNat = none →
      ∃ u, exec (.axCommit q t) s = .next u ∧ axEpochOf u t.toNat = axEpochOf s t.toNat + 1 ∧
        (∀ m v, m < 256 → nget s.regs (regOff .AX_STAGE t.toNat m 0) = some v →
          (axEntry u t.toNat m).toNat % 2 ^ 20 = axClip s t.toNat m (v.toNat % 2 ^ 20)) ∧
        (∀ m, m < 256 → nget s.regs (regOff .AX_STAGE t.toNat m 0) = none → axEntry u t.toNat m = axEntry s t.toNat m) ∧
        (∀ t' m, t' ≠ t.toNat → m < 256 → axEntry u t' m = axEntry s t' m ∧ axEpochOf u t' = axEpochOf s t') ∧
        u.regs = s.regs ∧ SameMem s u) ∧
    (axOld s t.toNat ≠ 0 → exec (.axCommit q t) s = .next (evt Ev.ACC_COMMIT_BUSY q t.toNat s)) ∧
    (∃ u, exec (.axRestage q t) s = .next u ∧
      (∀ m, m < 256 → rg u .AX_STAGE t.toNat m = (axEntry s t.toNat m).toNat) ∧
      (∀ a, (a < regOff .AX_STAGE t.toNat 0 0 ∨ regOff .AX_STAGE t.toNat 0 0 + 1024 ≤ a) → nget u.regs a = nget s.regs a) ∧
      u = { s with regs := u.regs })

/-- Injection slots (R68, R70): while ACTIVE reads 1, ARM arms slot k for one injection or COUNT of them by its MODE, or until
it is disarmed, and DISARM disarms it; at any other time the write is discarded and logged as INJ_UNAUTHORISED; when ACTIVE
falls at its EXPIRY or after a day of LCLK, every armed slot disarms. Captures (R43, R44): CAPTURE copies every counter of the
unit, as the caller's bank shows it, into that bank alone, and counts the capture; PM_SNAP_ALL arms a capture of every unit at
the span time in PM_SNAP_AT, taken once that time has passed, into the device-wide banks. -/
def Obligations.InjectionSlotsAndCaptures : Prop :=
  (∀ (q : Req) (k : Fin 64) (s : State), Allowed q .INJ_ARM k s → s.ax.injOn = true →
    (bits (rg s .INJ_CTL k) 17 16 = 1 → exec (.injArm q k) s = .next { s with ax.armed := nset s.ax.armed k 1 }) ∧
    (∀ n, bits (rg s .INJ_CTL k) 17 16 = 2 → bits (rg s .INJ_CTL k) 31 20 = n → n ≠ 0 →
      exec (.injArm q k) s = .next { s with ax.armed := nset s.ax.armed k n }) ∧
    (bits (rg s .INJ_CTL k) 17 16 = 3 → exec (.injArm q k) s = .next { s with ax.armed := nset s.ax.armed k 0 }) ∧
    (∃ u, exec (.injDisarm q k) s = .next u ∧ nget u.ax.armed k = none ∧
      (∀ j, j ≠ k.val → nget u.ax.armed j = nget s.ax.armed j) ∧ u = { s with ax.armed := u.ax.armed })) ∧
  (∀ (q : Req) (k : Fin 64) (s : State), Allowed q .INJ_ARM k s → s.ax.injOn = false →
    exec (.injArm q k) s = .next (evt Ev.INJ_UNAUTHORISED q (regOff .INJ_ARM k 0 0) s) ∧
    exec (.injDisarm q k) s = .next (evt Ev.INJ_UNAUTHORISED q (regOff .INJ_ARM k 0 0) s)) ∧
  (∀ s : State, s.ax.injOn = true → (s.ax.injExp ≤ now s ∨ s.ax.injLclk ≤ s.uptime) →
    exec .injExpiry s = .next { s with ax.injOn := false, ax.injExp := 0, ax.injLclk := 0, ax.armed := [] }) ∧
  (∀ (q : Req) (b : Fin 21) (s : State), b.val ≠ 0x12 → snapSees s q b = true → s.ax.inReset.contains b.val = false →
    ∃ u, exec (.snapCapture q b) s = .next u ∧
      (∀ c i, Ct.blk c = b.val → i < 65536 →
        nget (ngetD u.ax.capVal (32 * b + bankFor q) []) (ctrKey c i (bankFor q)) = nget s.ctr (ctrKey c i (bankFor q))) ∧
      ngetD u.ax.capTs (32 * b + bankFor q) 0 = now s ∧
      ngetD u.ax.capSeq (32 * b + bankFor q) 0 = ngetD s.ax.capSeq (32 * b + bankFor q) 0 + 1 ∧
      (∀ k, k ≠ 32 * b + bankFor q → nget u.ax.capVal k = nget s.ax.capVal k ∧ nget u.ax.capTs k = nget s.ax.capTs k ∧
        nget u.ax.capSeq k = nget s.ax.capSeq k) ∧
      u.ctr = s.ctr ∧ SameMem s u) ∧
  (∀ (q : Req) (s : State), Allowed q .PM_SNAP_ALL 0 s →
    exec (.pmSnapAll q) s = .next { s with ax.snapAll := some (rg80 s .PM_SNAP_AT 0 false) }) ∧
  (∀ (t : Nat) (s : State), s.ax.snapAll = some t → t < now s →
    ∃ u, exec .snapAllCapture s = .next u ∧ u.ax.snapAll = none ∧
      (∀ b, b < 21 → ngetD u.ax.capTs (32 * b + 16) 0 = now s ∧
        ngetD u.ax.capSeq (32 * b + 16) 0 = ngetD s.ax.capSeq (32 * b + 16) 0 + 1) ∧
      (∀ k, k % 32 ≠ 16 → nget u.ax.capVal k = nget s.ax.capVal k) ∧ u.ctr = s.ctr ∧ SameMem s u) ∧
  (∀ (t : Nat) (s : State), s.ax.snapAll = some t → now s ≤ t → exec .snapAllCapture s = .next s)

/-- CREATE (R74, R79, R83): a well-formed command with a well-formed policy record takes the head of the partition's list of free
slots; the slot goes ACTIVE with no token, under its present generation; its descriptor is written through to HBM (R81) and the
record carries the new handle. Without a free slot it is refused with the hint that no retry helps (R86). -/
def Obligations.CreateTakesTheHeadOfTheFreeList : Prop :=
  ∀ (r : BitVec 16) (d : BitVec 512) (s u : State) (p : Nat) (pol : BitVec 512), AtHitch 1 r d p s u →
    hClean d = true → hOpt d = 0 → hHandle d = 0 → hArg1 d = 0 → hArg2 d = 0 → inCheck u (hitchReq u p) (hArg0 d) 64 = okV →
    pol = BitVec.ofNat 512 (rdNat u (hArg0 d) 64) → policyOk u p pol = true →
    (∀ n x, freeSlot u p = some n → x = { newSlot u n p pol with last := now s } → (ringOf s (cqOf s r.toNat)).held = [] →
      ∃ t, exec (.create r d) s = .next (after s t) ∧ slotOf t n = x ∧ x.st = .active ∧ x.tokens = 0 ∧ x.gen = (slotOf s n).gen ∧
        x.policy = pol ∧ OtherSlots n s t ∧  OneRecord s t r d stDone 0 0 0 (handleOf n x) 0 ∧
        KeepsOutside (((descAddr s n).toList.map fun a => (a, 128)) ++ recordSpans s r.toNat) s t) ∧
    (freeSlot u p = none →
      ∃ t, exec (.create r d) s = .next (after s t) ∧ t.ht = s.ht ∧ OneRecord s t r d stRefusedCapacity 0 0 0 0 hintNever)

/-- FORK from a node (R175): the session starts with the node's first K chunks, shared, as its committed tokens, each node of the
path counted as referenced; FORK from a session at rest in T1 (R88, R164): the child has the parent's tokens, the parent stays as
it was but for blocks now shared; both records carry PREFIX_HIT and the new handle. -/
def Obligations.ForkStartsFromANodeOrASession : Prop :=
  (∀ (r : BitVec 16) (d : BitVec 512) (s u : State) (p n : Nat) (pol : BitVec 512) (nd : Node) (path : List (Nat × Node)) (k : Nat),
    AtHitch 2 r d p s u → hClean d = true → hOpt d = 0 → hHandle d = 0 → nodeOf u p (hArg0 d) = some nd →
    inCheck u (hitchReq u p) (hArg1 d) 64 = okV → pol = BitVec.ofNat 512 (rdNat u (hArg1 d) 64) → policyOk u p pol = true →
    path = pathOf u p (nd.depth + 1) (hArg0 d) → k = (if hArg2 d = 0 then path.length else hArg2 d) → k ≤ path.length →
    (path.any fun e => e.2.doomed) = false → memberOf u (pAccount pol) nd.group = true → pLayers pol = nd.layers →
    pHeads pol = nd.heads → pHd pol = 16 * nd.hd16 → pBody pol = nd.fmt → freeSlot u p = some n →
    ∃ t x, exec (.forkFromNode r d) s = .next (after s t) ∧ slotOf t n = x ∧ x.st = .active ∧ x.tokens = 128 * k ∧ x.chunks = k ∧
      x.blks = pathBlks (path.take k) ∧ x.policy = pol ∧ OtherSlots n s t ∧
      OneRecord s t r d stDone flPrefixHit 0 0 (handleOf n x) 0) ∧
  (∀ (r : BitVec 16) (d : BitVec 512) (s u : State) (p pn n : Nat) (pol : BitVec 512) (x : Slot) (c : List Blk) (v : State),
    AtHitch 2 r d p s u → hClean d = true → hOpt d = 1 → hHandle d = 0 → hArg2 d = 0 → Names (hArg0 d) p false pn x u →
    memberCtx u pn = none → (x.st = .active ∨ x.st = .stepping ∨ x.st = .parkedHot) → x.tier = 1 → x.frozen = false →
    inCheck u (hitchReq u p) (hArg1 d) 64 = okV → pol = BitVec.ofNat 512 (rdNat u (hArg1 d) 64) → policyOk u p pol = true →
    sameGeom pol x.policy = true → freeSlot u p = some n → n ≠ pn →
    copyTails x n (slotOf u n).gen (maskOf u p 0 (pMask pol)) ((enum0 x.blks).drop (x.tokens / 128 * pLayers x.policy)) u = some (c, v) →
    ∃ t y, exec (.forkFromSession r d) s = .next (after s t) ∧ slotOf t n = y ∧ y.st = .active ∧ y.tokens = x.tokens ∧
      y.chunks = x.chunks ∧ y.policy = pol ∧ y.blks.length = x.blks.length ∧
      slotOf t pn = { x with blks := (slotOf t pn).blks, last := now s } ∧ (slotOf t pn).blks.length = x.blks.length ∧
      (∀ m, m ≠ n → m ≠ pn → slotOf t m = slotOf s m) ∧ OneRecord s t r d stDone flPrefixHit 0 0 (handleOf n y) 0)

/-- PARK and REVIVE of a session at rest (R83, R85, R91): to T1 the park is a change of state alone, a session already as cold
completes at once, and one to a colder tier starts a move out whose record waits for its commit; REVIVE of an ACTIVE session
completes at once, of a PARKED_HOT one makes it ACTIVE with REVIVED, of a colder one starts a move in. -/
def Obligations.ParkAndReviveOfASessionAtRest : Prop :=
  (∀ (r : BitVec 16) (d : BitVec 512) (s u : State) (p n : Nat) (x : Slot), AtHitch 3 r d p s u → parkOk d = true →
    Names (hHandle d) p false n x u → memberCtx u n = none → x.frozen = false → x.st = .active →
    (hArg0 d = 1 → ∃ t, exec (.park r d) s = .next (after s t) ∧ slotOf t n = { x with st := .parkedHot, last := now s } ∧
      OtherSlots n s t ∧ OneRecord s t r d stDone 0 0 0 (handleOf n x) 0) ∧
    (∀ v, hArg0 d = 2 → moveFull u = false →
      outToT2 n x .command (some (r.toNat, d)) (farChoices u p (if hArg1 d = 0 then 0xF else hArg1 d)) u = some v →
      exec (.park r d) s = .next (after s v) ∧ (slotOf v n).st = .moving ∧ (slotOf v n).dir = .out ∧
        (slotOf v n).blks = x.blks ∧ v.recs = s.recs ∧ (v.ht.moves.any fun m => m.slot == n && m.cmd == some (r.toNat, d)) = true)) ∧
  (∀ (r : BitVec 16) (d : BitVec 512) (s u : State) (p n : Nat) (x : Slot), AtHitch 3 r d p s u → parkOk d = true →
    Names (hHandle d) p false n x u → memberCtx u n = none → x.frozen = false →
    (x.st = .parkedHot ∨ x.st = .parkedWarm ∨ x.st = .parkedCold) → hArg0 d ≤ x.tier →
    ∃ t, exec (.park r d) s = .next (after s t) ∧ t.ht = s.ht ∧ OneRecord s t r d stDone 0 0 0 (handleOf n x) 0) ∧
  (∀ (r : BitVec 16) (d : BitVec 512) (s u : State) (p n : Nat) (x : Slot), AtHitch 4 r d p s u → hClean d = true → hOpt d = 0 →
    hArg1 d = 0 → hArg2 d = 0 → reviveMaskOk u p (hArg0 d) = true → Names (hHandle d) p false n x u → memberCtx u n = none →
    x.frozen = false →
    (x.st = .active → ∃ t, exec (.revive r d) s = .next (after s t) ∧ t.ht = s.ht ∧
      OneRecord s t r d stDone 0 0 0 (handleOf n x) 0) ∧
    (x.st = .parkedHot → ∃ t, exec (.revive r d) s = .next (after s t) ∧ slotOf t n = { x with st := .active, last := now s } ∧
      OtherSlots n s t ∧ OneRecord s t r d stDone flRevived 0 0 (handleOf n x) 0) ∧
    (∀ v, (x.st = .parkedWarm ∨ x.st = .parkedCold) → moveFull u = false →
      beginIn n x (maskOf u p (hArg0 d) (pMask x.policy)) (some (r.toNat, d)) u = some v →
      exec (.revive r d) s = .next (after s v) ∧ (slotOf v n).st = .moving ∧ (slotOf v n).dir = .inn ∧
        (slotOf v n).blks = x.blks ∧ v.recs = s.recs))

/-- FREE (R73, R74, R83) of a session at rest: the slot is FREE with its generation advanced past the freed one, which it keeps as
the previous generation, at the tail of its partition's list; a second FREE by the same handle is then refused as
FAULT_OWNERSHIP (R75, R99). A STEPPING session's step is cancelled and the FREE held (R87). QUERY writes the 64-byte report and
changes no session in any state of it (R87, R92). -/
def Obligations.FreeAdvancesTheGenerationAndQueryReports : Prop :=
  (∀ (r : BitVec 16) (d : BitVec 512) (s u : State) (p n : Nat) (x : Slot), AtUnit 6 r d p s →
    u = ctrAdd .HT_CMD_CNT 6 p 1 { s with ly.hbmAt := now s } → hClean d = true → hOpt d = 0 → hArg0 d = 0 → hArg1 d = 0 →
    hArg2 d = 0 → Names (hHandle d) p true n x u → memberCtx u n = none →
    ((x.st = .active ∨ x.st = .parkedHot ∨ x.st = .parkedWarm ∨ x.st = .parkedCold) → x.held = [] →
      ∃ t, exec (.free r d) s = .next (after s t) ∧ (slotOf t n).st = .free ∧ (slotOf t n).gen = nextGen x.gen ∧
        (slotOf t n).prevGen = x.gen ∧ (slotOf t n).blks = [] ∧ OtherSlots n s t ∧
        (ngetD t.ht.freeQ x.part []).getLast? = some n ∧
        OneRecord s t r d stDone 0 0 0 (handleOf n x) 0 ∧
        handleCheck t p false true (hHandle d) = stFaultOwnership) ∧
    (∀ st, x.st = .stepping → x.step = some st → genOf s n = none →
      exec (.free r d) s = .next (after s (putSlot n
        { x with step := some { st with cancel := true }, held := x.held ++ [(r.toNat, d)] } u)))) ∧
  (∀ (r : BitVec 16) (d : BitVec 512) (s u : State) (p n : Nat) (x : Slot), AtUnit 7 r d p s →
    u = ctrAdd .HT_CMD_CNT 7 p 1 { s with ly.hbmAt := now s } → hClean d = true → hOpt d = 0 → hArg1 d = 0 →
    hArg2 d = 0 → Names (hHandle d) p false n x u → anyCheck u (hitchReq u p) .wr (hArg0 d) 64 = okV →
    (ringOf s (cqOf s r.toNat)).held = [] →
    ∃ t, exec (.query r d) s = .next (after s t) ∧ t.ht = s.ht ∧ OneRecord s t r d stDone 0 0 0 (hHandle d) 0 ∧
      KeepsOutside ((hArg0 d, 64) :: recordSpans s r.toNat) s t)

/-- The two Hitch instances (R100-R103): FAILOVER and a missed heartbeat make the standby the active instance, raise Hitch's epoch,
fence the old one, leave the journal empty and every session as its last commit left it; with no standby a missed heartbeat resets
the core. REINSTATE begins the resynchronisation of the fenced instance if its self-test passes; at its end the instance is the
standby in step; each acknowledgement takes the oldest record off the journal. -/
def Obligations.TheStandbyTakesOver : Prop :=
  (∀ (q : Req) (s : State), Allowed q .HT_CTL 0 s → hasStandby s = true →
    ∃ t, exec (.hitchFailover q) s = .next t ∧ exec .hitchHeartbeatMiss s = .next t ∧ t.ht.activeA = !s.ht.activeA ∧
      t.ht.epoch = s.ht.epoch + 1 ∧ (if s.ht.activeA then t.ht.aFenced else t.ht.bFenced) = true ∧ t.ht.inStep = false ∧
      t.ht.journal = [] ∧ t.ht.slots = s.ht.slots ∧ t.ht.pages = s.ht.pages ∧ t.ht.moves.length = s.ht.moves.length ∧
      hasStandby t = false ∧ t.recs = s.recs ∧ t.regs = s.regs ∧ SameMem s t) ∧
  (∀ (q : Req) (s : State), Allowed q .HT_CTL 0 s → hasStandby s = false →
    exec (.hitchFailover q) s = .next s ∧ exec .hitchHeartbeatMiss s = .next (coreTrigger 0x22 s)) ∧
  (∀ (q : Req) (s : State), Allowed q .HT_CTL 0 s → (s.ht.aFenced = true ∨ s.ht.bFenced = true) → s.ht.resync = false →
    exec (.hitchReinstate q true) s = .next { s with ht.resync := true } ∧ exec (.hitchReinstate q false) s = .next s) ∧
  (∀ s : State, s.ht.resync = true → exec .hitchResyncDone s = .next { s with
    ht.resync := false, ht.inStep := true, ht.aFenced := false, ht.bFenced := false }) ∧
  (∀ (s : State) (e : JRec) (l : List JRec), s.ht.journal = e :: l → exec .hitchJournalAck s = .next { s with ht.journal := l })

/-- Migration at the source (R83, R94, R95): MIGRATE of a session at rest asks the destination for a reservation and shows
MOVING(MIGRATE); HT_ARRIVED from the destination of a reserved migration is answered DONE, the session is freed here and the
command completes with the new handle; HT_ASK is answered 1 exactly when the handle's generation is the slot's previous one. -/
def Obligations.MigrationLeavesTheSource : Prop :=
  (∀ (r : BitVec 16) (d : BitVec 512) (s u v : State) (p n : Nat) (x : Slot), AtHitch 5 r d p s u → hClean d = true → hOpt d = 0 →
    hArg0 d < 2 ^ 20 → hArg2 d = 0 → Names (hHandle d) p false n x u → memberCtx u n = none → x.frozen = false →
    (x.st = .active ∨ x.st = .parkedHot ∨ x.st = .parkedWarm ∨ x.st = .parkedCold) → isConf u p = false → u.hf.idValid = true →
    moveFull u = false →
    hfIssue tyMsg (gDev d) p 0x01 24 0 (leBytes 8 (handleOf n x) ++ leBytes 1 (gPart d) ++ leBytes 3 0 ++
      leBytes 4 (privatePages x) ++ leBytes 8 (hArg1 d)) (.reserve n) u = some v →
    ∃ t, exec (.migrate r d) s = .next (after s t) ∧ (slotOf t n).st = .moving ∧ (slotOf t n).dir = .migrate ∧
      (slotOf t n).before = x.st ∧ (slotOf t n).blks = x.blks ∧ OtherSlots n s t ∧ t.recs = s.recs ∧ t.tx = v.tx ∧
      t.ht.migOut = s.ht.migOut ++ [⟨n, gDev d, gPart d, 0, 0, false⟩]) ∧
  (∀ (src tag : BitVec 16) (h : W64) (s : State) (n : Nat) (x : Slot) (o : MigOut) (m : Move) (r : BitVec 16) (d : BitVec 512),
    hSlot h.toNat = n → slotOf s n = x → handleOf n x = h.toNat → s.ht.migOut.find? (fun m => m.slot == n && m.reserved) = some o →
    moveOf s n = some m → o.dev = src.toNat → m.also = [] → m.cmd = some (r.toNat, d) →
    ∃ t, exec (.htArrived src tag h) s = .next (after s t) ∧ (slotOf t n).st = .free ∧ (slotOf t n).prevGen = x.gen ∧
      (slotOf t n).gen = nextGen x.gen ∧ OtherSlots n s t ∧
      OneRecord s t r d stDone 0 0 0 (mkHandle o.dev o.part o.rslot o.rgen) 0) ∧
  (∀ (src tag : BitVec 16) (h : W64) (s : State), hGen h.toNat ≠ 0 →
    exec (.htAsk src tag h) s = .next (hfRespond 0x84 src.toNat tag.toNat stDone 0
      [if (slotOf s (hSlot h.toNat)).prevGen = hGen h.toNat then 1 else 0] s))

/-- Migration at the destination (R94, R95): HT_RESERVE for a partition with a free slot and pages reserves them, MOVING(IN), and
answers with the new handle; HT_RELEASE makes the complete copy the session, ACTIVE in T1; HT_ASK goes out again when its interval
has passed; FORCE_ADOPT activates a complete copy whose source no route reaches. -/
def Obligations.MigrationArrivesAtTheDestination : Prop :=
  (∀ (src tag : BitVec 16) (h : W64) (p : Fin 16) (pages tokens : W32) (pol : W64) (s v : State) (g : BitVec 512) (n : Nat)
    (dst : List (Nat × Blk)) (x : Slot),
    bit (rg s .HT_CTL) 0 = false → partPlan s p ≠ none → moveFull s = false → isConf s p = false →
    inCheck s (hitchReq s p) pol.toNat 64 = okV → g = BitVec.ofNat 512 (rdNat s pol.toNat 64) → policyOk s p g = true →
    freeSlot s p = some n → x = { newSlot s n p g with tokens := tokens.toNat } →
    takeIn x n (maskOf s p 0 (pMask g)) (plainTable g tokens.toNat) s = some (dst, v) →
    ∃ t, exec (.htReserve src tag h p pages pol tokens) s = .next (after s (hfRespond 0x84 src.toNat tag.toNat stDone 0
        (leBytes 8 (handleOf n x) ++ leBytes 8 (Config.hitchTable n 2)) t)) ∧
      slotOf t n = { x with st := .moving, dir := .inn, blks := dst.map (·.2), last := now s } ∧ OtherSlots n s t ∧
      (∃ i ∈ t.ht.migIn, i.slot = n ∧ i.src = src.toNat ∧ i.old = h.toNat) ∧ t.recs = s.recs) ∧
  (∀ (src tag : BitVec 16) (h dst : W64) (s : State) (i : MigIn) (m : Move),
    s.ht.migIn = [i] → i.old = h.toNat → i.src = src.toNat → i.complete = true → moveOf s i.slot = some m →
    handleOf i.slot (slotOf s i.slot) = dst.toNat →
    ∃ t, exec (.htRelease src tag h dst) s = .next (after s (hfRespond 0x84 src.toNat tag.toNat stDone 0 [] t)) ∧
      slotOf t i.slot = { slotOf s i.slot with st := .active, dir := .none, tier := 1, last := now s } ∧
      OtherSlots i.slot s t ∧ t.ht.migIn = [] ∧ moveOf t i.slot = none ∧ t.recs = s.recs) ∧
  (∀ (slot : BitVec 24) (s v : State) (i : MigIn), s.ht.migIn.find? (fun m => m.slot == slot.toNat) = some i → i.complete = true →
    i.askAt ≤ now s →
    hfIssue tyMsg i.src (slotOf s slot.toNat).part 0x04 8 0 (leBytes 8 i.old) (.ask slot.toNat)
      { s with ht.migIn := s.ht.migIn.map fun (y : MigIn) =>
          if y.slot == slot.toNat then { i with askAt := now s + 1000 * rg s .HT_MIG_RETRY } else y } = some v →
    exec (.migRetryTimer slot) s = .next v) ∧
  (∀ (r : BitVec 16) (d : BitVec 512) (s u : State) (p : Nat) (i : MigIn) (m : Move), AtHitch 5 r d p s u → hClean d = true →
    hOpt d = 1 → hArg0 d < 2 ^ 20 → hArg2 d = 0 →
    u.ht.migIn.find? (fun m => m.old == hHandle d && m.complete && (slotOf u m.slot).part == p) = some i →
    routeWithdrawn u i.src = true → moveOf u i.slot = some m →
    ∃ t, exec (.migrateForceAdopt r d) s = .next (after s t) ∧
      slotOf t i.slot = { slotOf s i.slot with st := .active, dir := .none, tier := 1, last := now s } ∧ OtherSlots i.slot s t ∧
      OneRecord s t r d stDone 0 0 0 (handleOf i.slot (slotOf s i.slot)) 0)

/-- The commit of a move (R83): with every tile acknowledged, a move in makes the session ACTIVE in T1 with REVIVED, a move out
parks it at its tier, each with its command's record; the end of a step (R84, R188) commits its rows as tokens, and drops them when
the step was cancelled or failed. -/
def Obligations.MovesAndStepsCommit : Prop :=
  (∀ (slot : BitVec 24) (s : State) (n : Nat) (x : Slot) (m : Move) (r : BitVec 16) (d : BitVec 512), n = slot.toNat →
    slotOf s n = x → moveOf s n = some m → m.pend = [] → m.persist = none → (s.ht.migIn.any fun i => i.slot == n) = false →
    m.cmd = some (r.toNat, d) → m.also = [] →
    (m.dir = .inn → x.step = none →
      ∃ t, exec (.moveCommit slot) s = .next (after s t) ∧ (slotOf t n).st = .active ∧ (slotOf t n).dir = .none ∧
        (slotOf t n).tier = 1 ∧ (slotOf t n).tokens = x.tokens ∧ (slotOf t n).gen = x.gen ∧ moveOf t n = none ∧ OtherSlots n s t ∧
        OneRecord s t r d stDone flRevived 0 0 (handleOf n x) 0) ∧
    (m.dir = .out → m.why = .command →
      ∃ t, exec (.moveCommit slot) s = .next (after s t) ∧
        (slotOf t n).st = (if m.tier ≤ 3 then .parkedWarm else .parkedCold) ∧ (slotOf t n).dir = .none ∧
        (slotOf t n).tier = m.tier ∧ (slotOf t n).tokens = x.tokens ∧ (slotOf t n).gen = x.gen ∧ moveOf t n = none ∧
        OtherSlots n s t ∧ OneRecord s t r d stDone 0 0 0 (handleOf n x) 0)) ∧
  (∀ (slot : BitVec 24) (s : State) (n : Nat) (x : Slot) (st : Step), n = slot.toNat → slotOf s n = x → x.step = some st →
    memberCtx s n = none → stepOver s n = true → x.st = .stepping →
    (st.cancel = false → st.failed = false → pBody x.policy = pWin x.policy →
      ∃ t, exec (.stepEnd slot) s = .next (after s t) ∧ (slotOf t n).st = .active ∧
        (slotOf t n).tokens = x.tokens + (stepRows st).length ∧ (slotOf t n).step = none ∧
        (slotOf t n).lastSerial = some st.serial ∧ (slotOf t n).gen = x.gen ∧ OtherSlots n s t ∧ t.recs = s.recs) ∧
    ((st.cancel = true ∧ st.accept = none ∨ st.failed = true) →
      ∃ t, exec (.stepEnd slot) s = .next (after s t) ∧
        slotOf t n = { x with st := .active, step := none, lastSerial := some st.serial, last := now s } ∧
        OtherSlots n s t ∧ t.recs = s.recs))

/-- At its deadline a step whose late blocks all have shadows runs with the shadows in their place, marked DEGRADED (R89, R128); a
session idle for its stage's threshold is demoted, or goes to the tail of its queue and is counted where no move can start
(R522, R523). -/
def Obligations.DeadlinesAndDemotions : Prop :=
  (∀ (slot : BitVec 24) (s : State) (n t0 : Nat) (x : Slot) (m : Move) (c : Nat × BitVec 512) (late : List Nat), n = slot.toNat →
    slotOf s n = x → x.stepAt = some t0 → x.held.find? (fun c => dOp c.2 == 0x30) = some c → moveOf s n = some m →
    late = (m.pend.map (·.1)).eraseDups → late ≠ [] → x.st = .moving → x.dir = .inn → x.step = none → pDeadline x.policy ≠ 0 →
    t0 + 1000 * pDeadline x.policy ≤ now s →
    (∀ e ∈ late, ∃ b a, x.blks[e]? = some b ∧ b.shadow = some a) →
    ∃ v st, exec (.deadlineExpiry slot) s = .next (after s (attendPlain c.1 c.2 n x.part v)) ∧ (slotOf v n).step = some st ∧
      st.serial = aStep c.2 ∧ st.degraded = true ∧ st.shadowed = late.map (fun e => (e, shadowAt s x e)) ∧ (slotOf v n).stepAt = none ∧
      (slotOf v n).held = x.held.filter (· != c) ∧ OtherSlots n s v ∧ v.recs = s.recs ∧ SameMem s v) ∧
  (∀ (p : Fin 16) (s u : State) (n t0 : Nat) (x : Slot), lyRuns s = true → ngetD s.ht.hot p [] = [(n, t0)] →
    demoteAfter s false ≠ 0 → t0 + demoteAfter s false ≤ now s → u = ctrAdd .LY_DEMOTE_REQ_CNT 0 p 1 (hbmTouch 4 s) →
    slotOf s n = x → x.part = p → x.frozen = false → moveFull s = false →
    (∀ v, outToT2 n x .demotion none (farChoices u p 0xF) u = some v →
      exec (.demotionDue p false) s = .next (after s v) ∧ (slotOf v n).st = .moving ∧ (slotOf v n).dir = .out ∧
        (slotOf v n).blks = x.blks ∧ OtherSlots n s v ∧ v.recs = s.recs) ∧
    (outToT2 n x .demotion none (farChoices u p 0xF) u = none →
      exec (.demotionDue p false) s = .next (after s (ctr .LY_DEMOTE_SKIP_CNT p
        { u with ht.hot := nset u.ht.hot p [(n, now s)] }))))

/-- COPY and ZERO (R121, R122, R124): an admitted command of some length takes an engine and its tiles are issued; one of LENGTH 0
is done at once. The last acknowledged tile of a plain COPY inside the device window leaves the tile's bytes at the destination,
nothing else changed but the record's ring, and the command DONE. -/
def Obligations.CopyAndZeroMoveTheirTiles : Prop :=
  (∀ (r : BitVec 16) (d : BitVec 512) (s : State) (p e : Nat) (op : Nat), op = 0x10 ∨ op = 0x11 → AtUnit op r d p s →
    bit (rg s .SP_CTL) 0 = false → copyOk d = true → copyCheck s (unitReq 0x70 p) d = okV →
    (sDstTier d = 1 ∧ (openCopies s).any (fun x => overlaps (sDst d) (sLen d) x.1 x.2) = true → False) → dSealed d = false →
    sDstTier d ≤ 2 → (op = 0x10 → sSrcTier d ≤ 2) → engFree s 4 (spliceEngines s) = some e →
    exec (if op = 0x10 then .copy r d else .zero r d) s = .next (after s
      (if sLen d = 0 then complete r.toNat d stDone 0 0 0 0 0 s
       else engTake 4 e { s with sp.jobs := s.sp.jobs ++ [⟨r.toNat, d, p, e, List.range (tileCount (sLen d)), false, now s⟩] }))) ∧
  (∀ (r : BitVec 16) (d : BitVec 512) (s : State) (j : SpJob) (k n : Nat) (rd : List Byte), jobOf s r.toNat d = some j →
    j.pend = [k] → dOp d = 0x10 → copyOk d = true → dSealed d = false → sSrcTier d ≤ 2 → sDstTier d ≤ 2 → copySeals d = false →
    sXform d = 0 → n = min tileBytes (sLen d - k * tileBytes) → poisoned s (sSrc d + k * tileBytes) n = false →
    k < tileCount (sLen d) → j.eng < 34 → (ringOf s (cqOf s r.toNat)).held = [] →
    ∃ t, exec (.spliceTileAck (.job r.toNat d k) rd) s = .next (after s t) ∧ jobOf t r.toNat d = none ∧
      OneRecord s t r d stDone 0 0 0 0 0 ∧ t.ht = s.ht ∧
      KeepsOutside ((sDst d + k * tileBytes, n) :: recordSpans s r.toNat) s t ∧
      (∀ i, i < n → (∀ x ∈ recordSpans s r.toNat, sDst d + k * tileBytes + i < x.1 ∨ x.1 + x.2 ≤ sDst d + k * tileBytes + i) →
        byteAt t (sDst d + k * tileBytes + i) = memGet s.mem (sSrc d + k * tileBytes + i)))

/-- SWAP_POST appends the extents of a well-formed list to the partition's swap pool (R122, R133). A failed write of a COPY or ZERO
to T2 tears the page behind it and ends the command, FAULT_ACCESS for an error and TARGET_RESET for a timeout, with the far-port
target (R137, R588). A scrubbed page is zeroed and released with its PAGE_GEN advanced; at the third failure it is retired (R138). -/
def Obligations.SwapPoolAndTornPages : Prop :=
  (∀ (r : BitVec 16) (d : BitVec 512) (s : State) (p pid : Nat) (path : Bool) (l : List (Nat × Nat)), AtUnit 0x12 r d p s →
    bit (rg s .SP_CTL) 0 = false → fld d 44 20 = 0 → fld d 17 3 = 0 → sDst d = 0 → sDeadline d = 0 → sSrc d < 2 ^ 48 →
    inCheck s (unitReq 0x70 p) (sSrc d) (16 + 16 * sLen d) = okV → extentList s (sSrc d) 4 = some (path, pid, l) →
    l.length = sLen d →
    ∃ t, exec (.swapPost r d) s = .next (after s t) ∧ swapOf t p = swapOf s p ++ l ∧ (∀ p', p' ≠ p → swapOf t p' = swapOf s p') ∧
      t.ht = s.ht ∧ OneRecord s t r d stDone 0 0 0 0 0) ∧
  (∀ (r : BitVec 16) (d : BitVec 512) (s : State) (j : SpJob) (k pg : Nat) (error : Bool), jobOf s r.toNat d = some j →
    j.ring = r.toNat → j.desc = d → sDstTier d = 2 → j.pend.contains k = true →
    (error = true ∨ j.since + 1000 * rg s .SP_T2_WR_TMO ≤ now s) → pg = sDst d / 65536 + k * tileBytes / 65536 →
    ∃ t, exec (.t2WriteTimeout (.job r.toNat d k) error) s = .next (after s t) ∧ (pageOf t pg).st = .torn ∧
      jobOf t r.toNat d = none ∧ t.ht.slots = s.ht.slots ∧
      OneRecord s t r d (if error then stFaultAccess else stTargetReset) 0 0 0 0
        (if error then 385 + (sDst d - farBase) / 0x40000000000
         else 385 + (sDst d - farBase) / 0x40000000000 + 512 * (axEpochOf s (385 + (sDst d - farBase) / 0x40000000000)).toNat)) ∧
  (∀ (pg : Nat) (s : State) (x : Page), pageOf s pg = x → x.st = .torn →
    (∃ t, exec (.tornScrub pg true) s = .next t ∧ (pageOf t pg).st = .free ∧ (pageOf t pg).pgen = (x.pgen + 1) % 65536 ∧
      (∀ i, i < 65536 → memGet t.mem (pg * 65536 + i) = 0) ∧
      (∀ a, (a < pg * 65536 ∨ pg * 65536 + 65536 ≤ a) → memGet t.mem a = memGet s.mem a) ∧ t.hmem = s.hmem ∧
      (∀ q, q ≠ pg → pageOf t q = pageOf s q) ∧ t.recs = s.recs) ∧
    (ngetD s.sp.scrubFail pg 0 = 2 → ∃ t, exec (.tornScrub pg false) s = .next t ∧ (pageOf t pg).st = .retired ∧
      (∀ q, q ≠ pg → pageOf t q = pageOf s q) ∧ SameMem s t) ∧
    (ngetD s.sp.scrubFail pg 0 < 2 → ∃ t, exec (.tornScrub pg false) s = .next t ∧ pageOf t pg = x ∧
      ngetD t.sp.scrubFail pg 0 = ngetD s.sp.scrubFail pg 0 + 1 ∧ t.ht = s.ht ∧ SameMem s t))

/-- Far-port devices as T2 (R138-R140): EVICT of a device that holds no session ends its accepting and shows REMOVING; once it holds
nothing the removal is done and its slot power falls; ADMIT of a present device makes every page of it FREE in one run; one that is
not present is refused and logged. After a surprise removal the walk faults every session with blocks there. -/
def Obligations.FarMemoryIsEvictedAndAdmitted : Prop :=
  (∀ (q : Req) (n : Fin 4) (s : State), Allowed q .SP_T2_CTL n s → (farOf s n).admitted = true → farSlots s n = [] →
    exec (.t2Evict q n) s = .next (after s (putFar n { farOf s n with accepting := false, removing := true } s))) ∧
  (∀ (n : Fin 4) (s : State), (farOf s n).removing = true → farSlots s n = [] →
    (s.ht.moves.any fun m => m.tier == 2 && m.dev == n.val) = false →
    ∃ t, exec (.t2EvictDone n) s = .next t ∧ (farOf t n).removing = false ∧ (farOf t n).admitted = false ∧
      bit t.ly.slotPwr n = false ∧ t.ht = s.ht ∧ t.recs = s.recs ∧ t.regs = s.regs) ∧
  (∀ (q : Req) (n : Fin 4) (s : State), Allowed q .SP_T2_CTL n s → (farOf s n).present = true → (farOf s n).admitted = false →
    (farOf s n).walking = false → (farOf s n).removing = false →
    (s.ht.pages.any fun e => e.2.st == .retired) = false → 0 < (farOf s n).pages →
    ∃ t, exec (.t2Admit q n) s = .next t ∧ (farOf t n).accepting = true ∧ (farOf t n).admitted = true ∧
      ngetD t.ht.runs (runKey2 0 n) [] = [(farStart n / 65536, (farOf s n).pages)] ∧
      (∀ e ∈ t.ht.pages, farStart n / 65536 ≤ e.1 → e.1 < farStart n / 65536 + (farOf s n).pages → e.2.st = .free) ∧
      t.ht.slots = s.ht.slots ∧ SameMem s t) ∧
  (∀ (q : Req) (n : Fin 4) (s : State), Allowed q .SP_T2_CTL n s → (farOf s n).present = false →
    exec (.t2Admit q n) s = .next (evt Ev.T2_ADMIT_REFUSED q n s)) ∧
  (∀ (n : Fin 4) (s : State) (v : State), (farOf s n).walking = true →
    v = ((s.ht.slots.filter fun e => e.2.st != .free && e.2.st != .faulted && e.2.blks.any (onFar n)).map (·.1)).foldl
      (fun s k => faultSlot k 1 false s) s →
    ∃ t, exec (.surpriseWalkEnd n) s = .next (after s t) ∧ (farOf t n).walking = false ∧ t.ht = v.ht ∧ t.recs = v.recs)

/-- Persistence (R134): the runtime's acknowledgement of a T5 move that asked for its ID commits the move; one that is late is
abandoned, the session as it was before, and its PARK REFUSED_CAPACITY with the hint that no retry helps. -/
def Obligations.PersistenceCommitsOrAbandonsAMove : Prop :=
  (∀ (q : Req) (p : Fin 16) (id : W64) (s : State) (m : Move) (x : Slot) (r : BitVec 16) (d : BitVec 512),
    Allowed q .SP_PART_PERSIST_ACK_HI p s → s.ht.moves = [m] → m.asked.isSome = true → m.persist = some id.toNat → m.pend = [] →
    m.dir = .out → m.tier = 5 → m.why = .command → m.cmd = some (r.toNat, d) → m.also = [] → slotOf s m.slot = x → x.part = p →
    ∃ t, exec (.persistAck q p id) s = .next (after s t) ∧ (slotOf t m.slot).st = .parkedCold ∧ (slotOf t m.slot).tier = 5 ∧
      (slotOf t m.slot).dir = .none ∧ (slotOf t m.slot).tokens = x.tokens ∧ OtherSlots m.slot s t ∧ t.ht.moves = [] ∧
      OneRecord s t r d stDone 0 0 0 (handleOf m.slot x) 0) ∧
  (∀ (slot : BitVec 24) (s : State) (m : Move) (x : Slot) (t0 : Nat) (r : BitVec 16) (d : BitVec 512),
    moveOf s slot.toNat = some m → m.slot = slot.toNat → m.asked = some t0 → slotOf s slot.toNat = x →
    t0 + 1000000 * rg s .SP_PART_PERSIST_TMO x.part ≤ now s → m.cmd = some (r.toNat, d) → m.also = [] →
    ∃ t, exec (.persistTimeout slot) s = .next (after s t) ∧
      slotOf t slot.toNat = { x with st := x.before, dir := .none, last := now s } ∧ OtherSlots slot.toNat s t ∧
      moveOf t slot.toNat = none ∧ OneRecord s t r d stRefusedCapacity 0 0 0 (handleOf slot.toNat x) hintNever)

/-- The prefix tree (R172-R178): LOOKUP answers the longest verified path and marks its nodes used; PUBLISH of chunks beyond the
held ones attaches the session to the last node; DROP dooms every node at or below its target; a re-keyed group gets a key that
the model leaves free (log 5) and its nodes are doomed. No session's tokens change. -/
def Obligations.ThePrefixTree : Prop :=
  (∀ (r : BitVec 16) (d : BitVec 512) (s u v w : State) (p : Nat) (path : List (Nat × Node)) (res : List Byte), AtHitch 0x20 r d p s u →
    v = ctr .HT_PFX_LOOKUP_CNT p u → xClean d = true → xTarget d = 0 → 1 ≤ xCount d → xCount d ≤ 1048576 → pfxOn v p = true →
    acctHeld v p (xAccount d) = true → memberOf v (xAccount d) (xGroup d) = true →
    inCheck v (hitchReq v p) (xTokens d) (512 * xCount d) = okV →
    longestPath p (xGroup d) (xContext d) (xTokens d) (xCount d) 0 0 0 v = (path, w) →
    anyCheck v (hitchReq v p) .wr (xResult d) 64 = okV → (ringOf s (cqOf s r.toNat)).held = [] →
    res = pfxResult (match path.getLast? with | some e => nodeId p e.1 e.2 | none => 0) path.length 0 0 →
    ∃ t, exec (.lookup r d) s = .next (after s t) ∧ OneRecord s t r d stDone (if path = [] then 0 else flPrefixHit) 0 0 0 0 ∧
      KeepsOutside ((xResult d, 64) :: recordSpans s r.toNat) s t ∧ t.ht = s.ht ∧
      (∀ i b, res[i]? = some b → xResult d + i < 2 ^ 64 → (isHost (xResult d) = isHost (xResult d + i)) →
        (∀ x ∈ recordSpans s r.toNat, xResult d + i < x.1 ∨ x.1 + x.2 ≤ xResult d + i) → byteAt t (xResult d + i) = b) ∧
      (∀ e ∈ path, ∀ nd, nget t.pfx.nodes (nodeKey p e.1) = some nd → nd.lastUse = now s)) ∧
  (∀ (r : BitVec 16) (d : BitVec 512) (s u v : State) (p n : Nat) (x : Slot) (need : Nat × Nat) (a : PubAcc), AtHitch 0x21 r d p s u →
    xClean d = true → xAccount d = 0 → 1 ≤ xCount d → xCount d ≤ 1048576 → pfxOn u p = true → Names (xTarget d) p false n x u →
    x.frozen = false → (x.st = .active ∨ x.st = .parkedHot) → memberOf u x.acct (xGroup d) = true → x.chunks = 0 →
    inCheck u (hitchReq u p) (xTokens d) (512 * xCount d) = okV → (List.range (xCount d)).all (eligible u x) = true →
    need = pubNeed u x p (xGroup d) (xContext d) (xTokens d) (xCount d) 0 0 0 →
    evictNodes p need.1 need.2 (treeNodes u p).length u = some v →
    a = (List.range (xCount d)).foldl (pubChunk n p (xGroup d) (xContext d) (xTokens d))
      { s := v, x := x, prev := 0, parent := 0, adopted := 0, inserted := 0, hit := false, ok := true } → a.ok = true →
    anyCheck a.s (hitchReq a.s p) .wr (xResult d) 64 = okV →
    ∃ t, exec (.publish r d) s = .next (after s t) ∧ (slotOf t n).node = a.parent ∧ (slotOf t n).chunks = xCount d ∧
      (slotOf t n).tokens = x.tokens ∧ (slotOf t n).st = x.st ∧ OtherSlots n s t ∧
      OneRecord s t r d stDone (flIf a.hit flPrefixHit) 0 0 (xTarget d) 0) ∧
  (∀ (r : BitVec 16) (d : BitVec 512) (s u : State) (p : Nat), AtHitch 0x22 r d p s u → xClean d = true → xGroup d = 0 →
    xAccount d = 0 → xTokens d = 0 → xCount d = 0 → xContext d = 0 → xResult d = 0 → nodeOf u p (xTarget d) ≠ none →
    ∃ t, exec (.drop r d) s = .next (after s t) ∧ t.ht.slots = s.ht.slots ∧ OneRecord s t r d stDone 0 0 0 0 0 ∧
      (∀ i nd, i < 2 ^ 24 → nget u.pfx.nodes (nodeKey p i) = some nd → below u p (hSlot (xTarget d)) (i, nd) = true →
        ∀ nd', nget t.pfx.nodes (nodeKey p i) = some nd' → nd'.doomed = true)) ∧
  (∀ (q : Req) (v : W32) (s : State), Allowed q .HT_PFX_REKEY 0 s →
    ∃ t, exec (.pfxRekey q v) s = .next t ∧
      ngetD t.pfx.keys (64 * bits v.toNat 11 8 + bits v.toNat 5 0) 0 = Config.free s.fv % 2 ^ 256 ∧ t.fv = s.fv + 1 ∧
      t.ht.slots = s.ht.slots ∧ t.recs = s.recs ∧ SameMem s t ∧
      (∀ i nd, i < 2 ^ 24 → nget s.pfx.nodes (nodeKey (bits v.toNat 11 8) i) = some nd → nd.group = bits v.toNat 5 0 →
        ∀ nd', nget t.pfx.nodes (nodeKey (bits v.toNat 11 8) i) = some nd' → nd'.doomed = true))

/-- ATTEND opens a step on an ACTIVE session (R84, R186, R206): the session is STEPPING under the request's serial, the request's
rows are staged and folded, and it waits on engines of the dies that hold its KV; no record is written and no token committed.
When its output is acknowledged the output stands at OUT and the record is DONE; no session's tokens change by it. -/
def Obligations.AttendStagesFoldsAndAnswers : Prop :=
  (∀ (r : BitVec 16) (d : BitVec 512) (s u v : State) (p n : Nat) (x : Slot) (st : Step) (w : AView) (rows : List ARow)
    (par engs : List Nat) (kv : List Byte × List Byte) (st' : Step),
    AtUnit 0x30 r d p s → bit (rg s .LA_CTL) 0 = false → Names (aHandle d) p false n x s → memberCtx s n = none →
    x.st = .active → x.frozen = false → stepEnded x (aStep d) = false →
    st = { step0 (aStep d) with deadline := if pDeadline x.policy = 0 then none else some (now s + 1000 * pDeadline x.policy) } →
    u = commitSlot n { x with revived := false, st := .stepping, step := some st, stepAt := none }
      (ctr .HT_STEP_ADMIT_CNT p (putSlot n { x with revived := false } s)) →
    attendOk d x.policy = true → (aVerify d = true → genOpenNow s n = true) → attendReach u (latheReq u p) d x.policy = okV →
    par = reqParents u d x.policy → stageOk d x.policy st par x.tokens = true → kv = newKv u d x.policy →
    stageRows n d 0 par kv.1 kv.2 x.tokens u = some v → w = plainView (slotOf u n) →
    (slotOf v n).step = some st' → rows = aRowsOf d x.tokens (stagedPar st' (aLayer d)) (aBase d) (aRows d) →
    poisonedEntry v w (aLayer d) rows (unitsOf w rows 0 (2 ^ 32)) = none →
    enginesFor v x.part (diesOf v w st' (aLayer d) (unitsOf w rows 0 (2 ^ 32))) = some engs →
    ∃ t q, exec (.attend r d) s = .next (after s t) ∧ t.la.reqs = s.la.reqs ++ [q] ∧ q.ring = r.toNat ∧ q.desc = d ∧ q.slot = n ∧
      q.st = .running ∧ q.engs = engs ∧ q.fl = (if x.revived then flRevived else 0) ∧ (slotOf t n).st = .stepping ∧
      ((slotOf t n).step.any fun y => y.serial == aStep d) = true ∧ (slotOf t n).tokens = x.tokens ∧ (slotOf t n).gen = x.gen ∧
      OtherSlots n s t ∧ t.recs = s.recs) ∧
  (∀ (r : BitVec 16) (d : BitVec 512) (s : State) (q : AReq), areqOf s r.toNat d = some q → q.st = .running → dOp d ≠ 0x62 →
    (∀ e ∈ q.engs, e < 272) → dSealed d = false → aOut d < 2 ^ 64 → (ringOf s (cqOf s r.toNat)).held = [] →
    ∃ t, exec (.attendOutputAck r d) s = .next (after s t) ∧ areqOf t r.toNat d = none ∧
      OneRecord s t r d stDone q.fl 0 0 (aHandle d) 0 ∧ KeepsOutside ((aOut d, q.out.length) :: recordSpans s r.toNat) s t ∧
      (∀ i b, q.out[i]? = some b → isHost (aOut d) = isHost (aOut d + i) → aOut d + i < 2 ^ 64 →
        (∀ x ∈ recordSpans s r.toNat, aOut d + i < x.1 ∨ x.1 + x.2 ≤ aOut d + i) → byteAt t (aOut d + i) = b) ∧
      (∀ n, (slotOf t n).tokens = (slotOf s n).tokens ∧ (slotOf t n).st = (slotOf s n).st))

/-- Preemption of Lathe (R201-R204): with PREEMPT enabled, the request on the group gives up its engines and spills its lanes;
granted again and with engines of the spilled dies, it runs on and its spills are gone. When the free Billet space is low the
oldest spill records move to the pool, none is lost. -/
def Obligations.PreemptedRequestsSpillAndResume : Prop :=
  (∀ (g : Fin 16) (ns : Nat) (s : State) (q : AReq), bit (rg s .LG_PREEMPT_CTL) 0 = true → s.la.reqs = [q] → q.st = .running →
    (q.engs.any fun e => engGroup e == g.val) = true →
    ∃ t x, exec (.lathePreempt g ns) s = .next t ∧
      t.la.reqs = [{ q with st := .preempted, engs := [], fl := q.fl ||| flPreempted }] ∧
      t.la.spills = s.la.spills ++ [x] ∧ x.ring = q.ring ∧ x.desc = q.desc ∧ x.group = g.val ∧ t.ht = s.ht ∧ t.recs = s.recs ∧
      SameMem s t) ∧
  (∀ (g : Fin 16) (ns : Nat) (s : State), bit (rg s .LG_PREEMPT_CTL) 0 = false →
    ∃ t, exec (.lathePreempt g ns) s = .next t ∧ t.la = s.la ∧ t.ht = s.ht ∧ t.engs = s.engs ∧ t.recs = s.recs ∧ SameMem s t) ∧
  (∀ (r : BitVec 16) (d : BitVec 512) (s : State) (q : AReq) (engs : List Nat), areqOf s r.toNat d = some q → q.ring = r.toNat →
    q.desc = d → q.st = .preempted → ungranted s r.toNat d = false →
    enginesFor s q.part (((s.la.spills.filter fun x => x.ring == r.toNat && x.desc == d).map (·.group)).map (· / 4)).eraseDups = some engs →
    ∃ t, exec (.latheResume r d) s = .next t ∧ areqOf t r.toNat d = some { q with st := .running, engs := engs } ∧
      (t.la.spills.any fun x => x.ring == r.toNat && x.desc == d) = false ∧ t.ht = s.ht ∧ t.recs = s.recs ∧ SameMem s t) ∧
  (∀ (p : Fin 16) (s : State), ∃ t, exec (.spillAreaLow p) s = .next t ∧
    (rg s .LG_SPILL_LOW p ≤ spillSize t p - spillKib t p ∨ (t.la.spills.any fun x => x.part == p.val && x.billet) = false) ∧
    t.la.spills.length = s.la.spills.length ∧ t.la.reqs = s.la.reqs ∧ t.ht = s.ht ∧ t.recs = s.recs ∧ SameMem s t)

/-- Formation and the end of a Spindle context (R217-R219, R228): ARM of a DOWN context with a well-formed table that names this
device and a matching session makes it FORMING at its rank; equal digests of both neighbours make it UP; DISARM of an idle context,
ABORT, a formation that lasts too long, a silent neighbour and a DOWN from a neighbour bring it DOWN, each with its cause. -/
def Obligations.SpindleContextsFormAndFall : Prop :=
  (∀ (q : Req) (c : Fin 8) (s : State) (x : SpnCtx) (k : Nat) (h : Nat) (sl : Slot), Allowed q .LG_SPN_CTL c s → (ctxOf s c).st = 0 →
    inCheck s (spnReq s c) (spnTable s c) 64 = okV → readTable s c = some x →
    inCheck s (spnReq s c) (spnTable s c) (64 + 8 * x.n) = okV → myRank s c x.table = some k → h = x.table.getD k 0 →
    sl = slotOf s (hSlot h) → (sl.st = .active ∨ sl.st = .parkedHot) → slotIn s (hPart h) (hSlot h) = true → sl.gen = hGen h →
    rdNat s (spnTable s c + 32) 12 = sl.policy.toNat % 2 ^ 96 → rankUnits x ≤ 67108864 / pLayers sl.policy →
    bufOk s c { x with rank := k, slot := hSlot h, formAt := now s, predAt := now s, succAt := now s } sl.policy = true →
    hfMember s = true → isConf s (spnPart s c) = false →
    ∃ t, exec (.spnArm q c) s = .next t ∧ (ctxOf t c).st = 1 ∧ (ctxOf t c).rank = k ∧ (ctxOf t c).slot = hSlot h ∧
      (ctxOf t c).ringId = x.ringId ∧
      (ctxOf t c).digest = leNat ((sha256 (rdBytes s (spnTable s c) (64 + 8 * x.n))).take 8) ∧ t.ht = s.ht ∧ t.recs = s.recs ∧
      SameMem s t) ∧
  (∀ (src tag ringId : BitVec 16) (dg : W64) (s : State) (c : Nat) (x : SpnCtx), ringCtx s ringId.toNat = some (c, x) →
    ctxOf s c = x → x.st = 1 → devOf x (predRank x) ≠ src.toNat → devOf x (succRank x) = src.toNat → x.dPred = some x.digest →
    dg.toNat = x.digest →
    ∃ t, exec (.spnDigest src tag ringId dg) s = .next (hfRespond 0x84 src.toNat tag.toNat stDone 0 (leBytes 8 x.digest) t) ∧
      ctxOf t c = { x with st := 2, dSucc := some x.digest, succAt := now s } ∧ t.ht = s.ht ∧ t.recs = s.recs ∧ SameMem s t) ∧
  (∀ (q : Req) (c : Fin 8) (s : State) (x : SpnCtx), Allowed q .LG_SPN_CTL c s → ctxOf s c = x → x.reqs = [] → x.fills = [] →
    (x.st = 2 → ∃ t, exec (.spnDisarm q c) s = .next t ∧ (ctxOf t c).st = 0 ∧ (ctxOf t c).failCause = 6 ∧ t.ht = s.ht ∧
      t.recs = s.recs) ∧
    (x.st ≠ 0 → ∃ t, exec (.spnAbort q c) s = .next t ∧ (ctxOf t c).st = 0 ∧ (ctxOf t c).failCause = 7 ∧ t.ht = s.ht ∧
      t.recs = s.recs)) ∧
  (∀ (c : Fin 8) (s : State) (x : SpnCtx), ctxOf s c = x →
    (x.st = 1 → x.formAt + 1000 * rg s .LG_SPN_FORM_TMO c ≤ now s →
      exec (.spnFormTimeout c) s = .next (evt Ev.SPINDLE_FORM_FAILED (spnReq s c) (x.rank + 1024 * 3)
        (putCtx c { x with st := 0, failRank := x.rank, failCause := 3 } s))) ∧
    (∀ pred : Bool, x.st = 2 → (if pred then x.predAt else x.succAt) + 20000 ≤ now s → x.reqs = [] → x.fills = [] →
      ∃ t, exec (.spnNeighbourSilent c pred) s = .next t ∧ (ctxOf t c).st = 0 ∧ (ctxOf t c).failCause = 4 ∧
        (ctxOf t c).failRank = (if pred then predRank x else succRank x) ∧ t.ht = s.ht ∧ t.recs = s.recs)) ∧
  (∀ (src tag ringId : BitVec 16) (s : State) (c : Nat) (x : SpnCtx), ringCtx s ringId.toNat = some (c, x) → ctxOf s c = x →
    x.reqs = [] → x.fills = [] →
    ∃ t, exec (.spnCtlDown src tag ringId) s = .next (after s t) ∧ (ctxOf t c).st = 0 ∧ (ctxOf t c).failCause = 4 ∧ t.ht = s.ht ∧
      t.recs = s.recs)

/-- The gather and rotation paths (R221-R228): work at a rank that has tree children waits for their states; a child's state is
taken; a commit at the tail is answered and spliced, a cancel drops the step there. FILL at the home joins the context's fills
with its own shard folded, and its commit makes TOKENS the filled count; at a gate boundary a held shard leaves for the successor;
a stalled request at the home completes FAULT_CONTEXT and fails its step. -/
def Obligations.SpindleRingsGatherAndRotate : Prop :=
  (∀ (src tag ringId layer step : BitVec 16) (d : BitVec 512) (tok : W32) (q : List Byte) (par : List Nat) (s : State) (c : Nat)
    (x : SpnCtx), ringCtx s ringId.toNat = some (c, x) → treeKids x (aRowsOf d tok.toNat par (aBase d) (aRows d)) tok.toNat ≠ [] →
    (x.reqs.any fun y => y.layer == layer.toNat && y.step == step.toNat && y.desc == d) = false →
    ∃ t y, exec (.spnWork src tag ringId layer step d tok q par [] []) s = .next t ∧ (ctxOf t c).reqs = x.reqs ++ [y] ∧
      y.layer = layer.toNat ∧ y.step = step.toNat ∧ y.desc = d ∧ y.par = par ∧ y.got = [] ∧
      y.need = treeKids x (aRowsOf d tok.toNat par (aBase d) (aRows d)) tok.toNat ∧ t.recs = s.recs ∧ SameMem s t) ∧
  (∀ (src tag ringId layer step rank fl : BitVec 16) (data : List Byte) (s : State) (c : Nat) (x : SpnCtx) (y : SpnReq) (k : Nat),
    ringCtx s ringId.toNat = some (c, x) → ctxOf s c = x → x.reqs = [y] → y.layer = layer.toNat → y.step = step.toNat →
    y.need = [rank.toNat, k] → k ≠ rank.toNat →
    ∃ t, exec (.spnState src tag ringId layer step rank fl data) s = .next t ∧ (ctxOf t c).reqs = [{ y with
        got := nset y.got rank.toNat ((List.range y.own.length).map fun i =>
          stateOf (pHd (slotOf s x.slot).policy) (data.drop ((8 + 4 * pHd (slotOf s x.slot).policy) * i)))
        need := [k], fl := y.fl ||| fl.toNat }] ∧ t.ht = s.ht ∧ t.recs = s.recs ∧ SameMem s t) ∧
  (∀ (src tag ringId step : BitVec 16) (tok : W32) (rows : List Nat) (s : State) (c : Nat) (x : SpnCtx) (st : Step),
    ringCtx s ringId.toNat = some (c, x) → (slotOf s x.slot).step = some st → st.serial = step.toNat →
    exec (.spnCtlCommit src tag ringId step tok rows) s = .next (after s (hfRespond 0x84 src.toNat tag.toNat stDone 0 []
      (commitStep x.slot (x.rank * rankUnits x) tok.toNat rows rows.length s))) ∧
    (x.rank ≠ 0 → ∃ t, exec (.spnCtlCancel src tag ringId step) s = .next (after s t) ∧ (slotOf t x.slot).step = none ∧
      (slotOf t x.slot).tokens = (slotOf s x.slot).tokens ∧ (ctxOf t c).reqs = x.reqs.filter (fun r => r.step != step.toNat) ∧
      OtherSlots x.slot s t ∧ t.recs = s.recs)) ∧
  (∀ (r : BitVec 16) (d : BitVec 512) (s u v : State) (p n c : Nat) (x : Slot) (ctx : SpnCtx), AtUnit 0x31 r d p s →
    bit (rg s .LA_CTL) 0 = false → Names (aHandle d) p false n x s → x.st ≠ .faulted → x.st ≠ .evacuated → x.frozen = false →
    memberCtx s n = some (c, ctx) → ctxOf s c = ctx → ctx.st = 2 → ctx.disarm = false → attendForm d x.policy = true →
    fld d 17 1 = 0 → 6 ≤ fLog d → fLog d ≤ 16 → fld d 62 2 = 0 → (passRows ctx d).2 ≠ 0 → ctx.rank = 0 → x.tokens = 0 →
    passFits s c ctx d x.policy = true → fillOp.attendReachFill s (latheReq s p) d x.policy ctx = okV →
    u = ctr .LG_SPN_FILL_CNT p s → (if fPass d = 0 then fillEncode n d ctx u else some u) = some v →
    ∃ t f q, exec (.fill r d) s = .next (after s t) ∧ (ctxOf t c).fills = ctx.fills.map (fun y =>
        if y.desc = d ∧ y.ring = r.toNat then f else y) ++ [f] ∧ f.ring = r.toNat ∧ f.desc = d ∧ f.done = true ∧
      t.la.reqs = s.la.reqs ++ [q] ∧ q.ring = r.toNat ∧ q.desc = d ∧ q.st = .running ∧ t.recs = s.recs) ∧
  (∀ (c : Fin 8) (s : State) (x : SpnCtx) (f : FillReq), ctxOf s c = x → x.fills.getLast? = some f → x.rank = 0 →
    x.fills.all (·.done) = true → x.disarm = false →
    ∃ t, exec (.fillCommit c) s = .next (after s t) ∧
      slotOf t x.slot = { slotOf s x.slot with tokens := fTokens f.desc, last := now s } ∧ (ctxOf t c).fills = [] ∧
      OtherSlots x.slot s t ∧ t.recs = s.recs) ∧
  (∀ (c : Fin 8) (s : State) (x : SpnCtx) (h : Nat × Nat × Nat) (l : List (Nat × Nat × Nat)), ctxOf s c = x → x.st = 2 →
    x.period ≠ 0 → x.t0 ≤ now s → (now s - x.t0) % x.period = 0 → x.held = h :: l →
    (succRank x ≠ 0 → x.sent < 2 → ∃ t, exec (.spnGateBoundary c) s = .next t ∧
      ctxOf t c = { x with held := l, sent := x.sent + 1, slips := 0, slow := false } ∧ t.ht = s.ht ∧ t.recs = s.recs ∧
      SameMem s t) ∧
    (succRank x = 0 → exec (.spnGateBoundary c) s = .next (putCtx c { x with held := l } s))) ∧
  (∀ (c : Fin 8) (s : State) (x : SpnCtx) (y : SpnReq) (st : Step) (r : BitVec 16), ctxOf s c = x → x.reqs = [y] → x.fills = [] →
    x.rank = 0 → y.since + 1000 * rg s .LG_SPN_STALL_TMO c ≤ now s → y.ring = r.toNat → (slotOf s x.slot).step = some st →
    ∃ t, exec (.spnStallTimeout c) s = .next (after s t) ∧ (ctxOf t c).reqs = [] ∧
      (slotOf t x.slot).step = some { st with failed := true } ∧ OtherSlots x.slot s t ∧
      OneRecord s t r y.desc stFaultContext 0 0 0 (aHandle y.desc) 0)

/-- TOKENIZE and DETOKENIZE over a READY vocabulary (R236-R249): the tokens of the segments stand at the output address, their offsets
behind them where asked, and the 32-byte result at its own; the bytes of the tokens stand at the output address and the stream
record as they leave it, closed with LAST. The oldest written chunk of a stream is acknowledged: its record is written (R250). -/
def Obligations.TextIsTokenizedDetokenizedAndStreamed : Prop :=
  (∀ (r : BitVec 16) (d : BitVec 512) (s s1 c u : State) (p die e max n ctl : Nat) (pl : VocPlan) (w : Voc) (q : Req)
      (list : List Byte) (gs : List Segm) (segs : List (Segm × List Byte)) (R : List Tok × Nat × Nat),
    AtUnit 0x40 r d p s → bit (rg s .WH_CTL) 0 = false → tokForm d = true → fld d 17 1 < 16 → fld d 48 8 = 0 → dSealed d = false →
    vocBound s p (fld d 17 1) = some pl → (vocOf s (fld d 17 1)).st = .ready → textOn s p 9 (dieBits pl.dies) = some (die, e) →
    copyPoison s (vocOf s (fld d 17 1)) die = false → parseVoc (copyBytes s (vocOf s (fld d 17 1)) die) = some w → q = whReq e p →
    readPlain q (fld d 24 8) (16 * fld d 20 4) s = (okV, list, s) →
    gs = ((List.range (fld d 20 4)).map fun i => (list.drop (16 * i)).take 16).map segmOf →
    (∀ i, i < fld d 20 4 → segmOk w.entries (bit (rg s .WH_PART_CFG p) 0) ((list.drop (16 * i)).take 16) = true) →
    n = ((gs.filter fun g => !g.literal).map (·.len)).foldl (· + ·) 0 → n ≤ 16777216 → readSegs d q p gs s = (okV, segs, s1) →
    R = segAll w (bit (fld d 18 1) 3) true 0 segs → ctl = (if bits (fld d 18 1) 2 1 = 0 then 0 else R.2.1) →
    (bits (fld d 18 1) 2 1 = 2 → ctl = 0) → max = fld d 40 4 → R.1.length ≤ max →
    c = ctr .WH_TOK_CMD_CNT p (ctrAdd .WH_TOK_IN_BYTES 0 p n (ctrAdd .WH_ILLFORMED_IN_CNT 0 p R.2.2
      (ctrAdd .WH_CONTROL_TEXT_CNT 0 p ctl s1))) → u = (if 0 < ctl then evt Ev.CONTROL_TEXT_FOUND q ctl c else c) →
    outCheck u q (fld d 32 8) (if bit (fld d 18 1) 0 then 4 * max + 4 * R.1.length else 4 * R.1.length) = okV →
    outCheck u q (fld d 56 8) 32 = okV → (ringOf s (cqOf s r.toNat)).held = [] →
    ∃ t, exec (.tokenize r d) s = .next (after s t) ∧ OneRecord s t r d stDone 0 0 0 0 0 ∧
      HoldsAt t (fld d 32 8) (R.1.map fun k => leBytes 4 k.id).flatten ((fld d 56 8, 32) :: recordSpans s r.toNat) ∧
      (bit (fld d 18 1) 0 = true → HoldsAt t (fld d 32 8 + 4 * max) (R.1.map fun k => leBytes 4 k.off).flatten
        ((fld d 56 8, 32) :: recordSpans s r.toNat)) ∧
      HoldsAt t (fld d 56 8) (tokResult R.1.length n ctl R.2.2 (R.1.filter fun k => k.kind == .byte).length
        (R.1.filter fun k => k.kind == .unk).length) (recordSpans s r.toNat) ∧
      KeepsOutside ((fld d 32 8, 4 * max + 4 * R.1.length) :: (fld d 56 8, 32) :: recordSpans s r.toNat) s t) ∧
  (∀ (r : BitVec 16) (d : BitVec 512) (s : State) (p die e : Nat) (pl : VocPlan) (w : Voc) (q : Req) (ids b : List Byte) (r0 r1 : SRec)
      (x : List (Byte × Bool) × SRec × List Nat) (out : List (Byte × Bool)),
    AtUnit 0x41 r d p s → bit (rg s .WH_CTL) 0 = false → detokForm d = true → fld d 17 1 < 16 → fld d 48 8 = 0 → dSealed d = false →
    vocBound s p (fld d 17 1) = some pl → (vocOf s (fld d 17 1)).st = .ready → textOn s p 9 (dieBits pl.dies) = some (die, e) →
    copyPoison s (vocOf s (fld d 17 1)) die = false → parseVoc (copyBytes s (vocOf s (fld d 17 1)) die) = some w → q = whReq e p →
    readPlain q (fld d 24 8) (4 * fld d 20 4) s = (okV, ids, s) →
    (bit (fld d 18 1) 0 = false → readPlain q (fld d 56 8) 64 s = (okV, b, s)) →
    outCheck s q (fld d 56 8) 64 = okV → r0 = (if bit (fld d 18 1) 0 then srecNew d else srecOf b) → r0.ended = false →
    x = detokRun w (fld d 40 4) ((List.range (fld d 20 4)).map fun i => bAt ids (4 * i) 4) [] { r0 with opened := true } →
    x.2.2 = [] → out = (if bit (fld d 18 1) 1 then x.1 ++ (srecClose w x.2.1).1 else x.1) →
    r1 = (if bit (fld d 18 1) 1 then (srecClose w x.2.1).2 else x.2.1) → out.length ≤ fld d 40 4 →
    outCheck s q (fld d 32 8) out.length = okV → (ringOf s (cqOf s r.toNat)).held = [] →
    ∃ t, exec (.detokenize r d) s = .next (after s t) ∧ OneRecord s t r d stDone 0 0 0 0 0 ∧
      HoldsAt t (fld d 32 8) (out.map (·.1)) ((fld d 56 8, 64) :: recordSpans s r.toNat) ∧
      HoldsAt t (fld d 56 8) (srecBytes r1) (recordSpans s r.toNat) ∧
      KeepsOutside ((fld d 32 8, out.length) :: (fld d 56 8, 64) :: recordSpans s r.toNat) s t) ∧
  (∀ (slot : BitVec 24) (s : State) (x : Strm) (c : Chunk) (l : List Chunk) (b : List Byte),
    nget s.wh.streams slot.toNat = some x → x.chunks = c :: l → c.written = true → c.record = some b →
    (∃ t y, exec (.streamChunkAck slot) s = .next (after s t) ∧ nget t.wh.streams slot.toNat = some { x with chunks := y } ∧
      y.map (·.bytes) = l.map (·.bytes) ∧ y.map (·.record) = l.map (·.record)) ∧
    ((∀ k ∈ l, k.written = true) → exec (.streamChunkAck slot) s =
      .next (after s { wrBytes x.addr b s with wh.streams := nset s.wh.streams slot.toNat { x with chunks := l } })))

/-- Vocabulary and grammar slots (R234-R236, R261, R470): a load into an EMPTY slot of the partition leaves it LOADING with the
image's length; its end makes it READY where every die's copy verifies, DONE and, for a vocabulary, measured, and EMPTY with
FAULT_CONTEXT otherwise; a verification of copies makes the slot READY again or loses it; an unload empties a slot that nothing
names, or drains it. -/
def Obligations.VocabularyAndGrammarSlotsLoadVerifyAndEmpty : Prop :=
  (∀ (r : BitVec 16) (d : BitVec 512) (s : State) (p v a : Nat) (pl : VocPlan), AtUnit 0x42 r d p s →
    bit (rg s .WH_CTL) 0 = false → v = fld d 17 1 → v < 16 → (fld d 18 1 = 1 ∧ a = fld d 24 8 ∨ fld d 18 1 = 4 ∧ a = 2 ^ 63 + fld d 24 8 % 2 ^ 63) →
    fld d 19 1 = 0 → fld d 32 32 = 0 → vocBound s p v = some pl → (vocOf s v).st = .empty →
    inCheck s (spliceReqOf s p) a (fld d 20 4) = okV → 256 ≤ fld d 20 4 → vocPages (rdBytes s a (fld d 20 4)) ≤ pl.ceil →
    ∃ t, exec (.vocabLoad r d) s = .next (after s t) ∧ (vocOf t v).st = .loading ∧ (vocOf t v).cmd = some (r.toNat, d) ∧
      (vocOf t v).len = fld d 20 4 ∧ (vocOf t v).owner = p ∧ (∀ k, k ≠ v → vocOf t k = vocOf s k) ∧ t.recs = s.recs ∧
      t.hmem = s.hmem ∧ t.ht.slots = s.ht.slots) ∧
  (∀ (r : BitVec 16) (d : BitVec 512) (s : State) (p g v a need : Nat) (pl : PartPlan), AtUnit 0x53 r d p s →
    bit (rg s .CL_CTL) 0 = false → g = fld d 17 1 → g < 16 → v = fld d 19 1 → v < 16 → partPlan s p = some pl →
    (fld d 18 1 = 1 ∧ a = fld d 24 8 ∨ fld d 18 1 = 4 ∧ a = 2 ^ 63 + fld d 24 8 % 2 ^ 63) → fld d 20 4 = 0 → fld d 40 24 = 0 →
    (vocBound s p v).isSome = true → (gramOf s p g).st = .empty → (vocOf s v).st = .ready → 256 ≤ fld d 32 8 → fld d 32 8 ≤ 2 ^ 40 →
    inCheck s (spliceReqOf s p) a (fld d 32 8) = okV → need = gramPages (rdBytes s a 256) → need + gramUsed s p ≤ pl.gramCeil →
    ∃ t, exec (.gramLoad r d) s = .next (after s t) ∧ (gramOf t p g).st = .loading ∧ (gramOf t p g).cmd = some (r.toNat, d) ∧
      (gramOf t p g).vocab = v ∧ (gramOf t p g).pages = need ∧ (∀ k, k ≠ 16 * p + g → nget t.bt.gram k = nget s.bt.gram k) ∧
      t.recs = s.recs ∧ t.hmem = s.hmem ∧ t.ht.slots = s.ht.slots) ∧
  (∀ (v : Fin 16) (r : BitVec 16) (d : BitVec 512) (s : State) (x : ImgSlot), vocOf s v = x → x.st = .loading →
    x.cmd = some (r.toNat, d) →
    (vocCopiesOk s x = true → ∃ t, exec (.vocabLoadDone (.voc v)) s = .next (after s t) ∧
      vocOf t v = { x with st := .ready, cmd := none } ∧ OneRecord s t r d stDone 0 0 0 0 0 ∧
      (ngetD t.plog x.owner plog0).l = sha384 ((ngetD s.plog x.owner plog0).l ++ plogRec 1 v 0 x.digest 0)) ∧
    (vocCopiesOk s x = false → ∃ t, exec (.vocabLoadDone (.voc v)) s = .next (after s t) ∧ vocOf t v = img0 ∧
      OneRecord s t r d stFaultContext 0 0 0 0 0 ∧ t.plog = s.plog)) ∧
  (∀ (p g : Fin 16) (r : BitVec 16) (d : BitVec 512) (s : State) (x : ImgSlot), gramOf s p g = x → x.st = .loading →
    x.cmd = some (r.toNat, d) →
    (gramCopiesOk s x = true → ∃ t, exec (.vocabLoadDone (.gram p g)) s = .next (after s t) ∧
      gramOf t p g = { x with st := .ready, cmd := none } ∧ OneRecord s t r d stDone 0 0 0 0 0 ∧ t.plog = s.plog) ∧
    (gramCopiesOk s x = false → ∃ t, exec (.vocabLoadDone (.gram p g)) s = .next (after s t) ∧ gramOf t p g = img0 ∧
      OneRecord s t r d stFaultContext 0 0 0 0 0)) ∧
  (∀ (v : Fin 16) (s : State) (x : ImgSlot), vocOf s v = x → x.st = .verifying →
    (vocCopiesOk s x = true → exec (.slotVerifyDone (.voc v)) s = .next (after s (putVoc v { x with st := .ready } s))) ∧
    (vocCopiesOk s x = false → exec (.slotVerifyDone (.voc v)) s =
      .next (after s (putVoc v img0 (dropCopies x (evt Ev.VOCAB_LOST (whReq 0 x.owner) v s)))))) ∧
  (∀ (p g : Fin 16) (s : State) (x : ImgSlot), gramOf s p g = x → x.st = .verifying → gramCopiesOk s x = true →
    exec (.slotVerifyDone (.gram p g)) s = .next (after s (putGram p g { x with st := .ready } s))) ∧
  (∀ (r : BitVec 16) (d : BitVec 512) (s : State) (p v : Nat), AtUnit 0x43 r d p s → bit (rg s .WH_CTL) 0 = false →
    v = fld d 17 1 → v < 16 → fld d 18 46 = 0 → (vocBound s p v).isSome = true → (vocOf s v).st = .ready →
    (vocBusy s v = true → exec (.vocabUnload r d) s =
      .next (after s (putVoc v { vocOf s v with st := .draining, cmd := some (r.toNat, d) } s))) ∧
    (vocBusy s v = false → ∃ t, exec (.vocabUnload r d) s = .next (after s t) ∧ vocOf t v = img0 ∧
      (∀ k, k ≠ v → vocOf t k = vocOf s k) ∧ OneRecord s t r d stDone 0 0 0 0 0)) ∧
  (∀ (r : BitVec 16) (d : BitVec 512) (s : State) (p g : Nat), AtUnit 0x54 r d p s → g = fld d 17 1 → g < 16 → fld d 18 46 = 0 →
    (gramOf s p g).st = .ready →
    (gramGens s p g ≠ 0 → exec (.gramUnload r d) s =
      .next (after s (putGram p g { gramOf s p g with st := .draining, cmd := some (r.toNat, d) } s))) ∧
    (gramGens s p g = 0 → ∃ t, exec (.gramUnload r d) s = .next (after s t) ∧ gramOf t p g = img0 ∧
      OneRecord s t r d stDone 0 0 0 0 0 ∧ t.wh = s.wh))

/-- GEN_OPEN of a well-formed sampling record opens the session's generation with the record copied, its seed drawn where it asks
for one (a free value, log 5), and its stream if it names one (R254-R258). SAMPLE walks the staged rows and keeps what it drew for
the commit point (R274-R276). At the commit point the tokens are committed and billed, the accepted rows fixed, and an end
condition met ends the generation (R277-R279, R343). -/
def Obligations.GenerationsOpenSampleAndCommit : Prop :=
  (∀ (r : BitVec 16) (d : BitVec 512) (s : State) (p n die v g : Nat) (x : Slot) (q : Req) (b sb : List Byte) (vp : VocPlan)
      (pl : PartPlan) (allow : List Nat) (counts : List (Nat × Nat)) (m : MaskCtx),
    AtUnit 0x50 r d p s → bit (rg s .BT_CTL) 0 = false → Names (gHandle d) p false n x s → x.st ≠ .faulted → x.st ≠ .evacuated →
    x.frozen = false → fld d 17 1 = 0 → fld d 22 2 = 0 → fld d 48 16 = 0 → ringOk s (gTokRing d) 2 p = true → gParams d < hbmEnd →
    (gStream d = 0 ∧ gTextRing d = 0xFFFF ∨ gStream d ≠ 0 ∧ gTextRing d ≠ 0xFFFF ∧ gStream d < hbmEnd ∧
      ringOk s (gTextRing d) 2 p = true ∧ readPlain q (gStream d) 64 s = (okV, sb, s) ∧ (srecOf sb).ended = false ∧
      (textOn s p 9 [die]).isSome = true) →
    genOf s n = none → die = dieOf (gParams d) → q = btReq (4 * die) p → readPlain q (gParams d) 256 s = (okV, b, s) →
    v = bAt b 1 1 % 16 → g = bAt b 2 1 % 16 → vocBound s p v = some vp → (vocOf s v).st = .ready →
    (bit (bAt b 2 1) 7 = true → bit (rg s .CL_CTL) 0 = false ∧ (gramOf s p g).st = .ready ∧ (gramOf s p g).vocab = v ∧
      (nget (gramOf s p g).copies die).isSome = true) →
    recordOk b (vocOf s v).entries = true → classOk s p b = true → bit vp.dies die = true → genLists q b s = (okV, allow, counts, s) →
    ascending allow = true → ascending (counts.map (·.1)) = true → (∀ e ∈ counts, 1 ≤ e.2 ∧ e.2 ≤ 16777215) →
    partPlan s p = some pl → (s.bt.gens.filter fun e => e.2.part == p).length < pl.btCtx → m = maskCtx s p die b allow →
    deadEnd m (match m.gram with | some img => gramStart img | none => 0) [] = false →
    ∃ t y, exec (.genOpen r d) s = .next (after s t) ∧ genOf t n = some y ∧ y.ring = r.toNat ∧ y.desc = d ∧ y.handle = gHandle d ∧
      y.part = p ∧ y.com = 0 ∧ y.stack = [] ∧ y.allow = allow ∧ y.last = bAt b 44 4 ∧ y.run = none ∧ y.endSt = none ∧
      (bit (bAt b 3 1) 0 = false → y.param = b ∧ SameMem s t ∧ t.fv = s.fv) ∧
      (bit (bAt b 3 1) 0 = true → y.param = b.take 8 ++ leBytes 8 (Config.free s.fv % 2 ^ 64) ++ b.drop 16 ∧ t.fv = s.fv + 1 ∧
        HoldsAt t (gParams d + 8) (leBytes 8 (Config.free s.fv % 2 ^ 64)) [] ∧ KeepsOutside [(gParams d + 8, 8)] s t) ∧
      (gStream d = 0 → t.wh = s.wh) ∧
      (gStream d ≠ 0 → ∃ z, nget t.wh.streams n = some z ∧ z.addr = gStream d ∧ z.ring = gTextRing d ∧ z.chunks = []) ∧
      (∀ k, k ≠ n → genOf t k = genOf s k) ∧ t.recs = s.recs ∧ t.ht.slots = s.ht.slots) ∧
  (∀ (r : BitVec 16) (d : BitVec 512) (s u : State) (p n ents e c : Nat) (x : Slot) (g : Gen) (st : Step) (tb : List Byte)
      (q : Req) (w : Walk) (dd : Nat × Nat),
    AtUnit 0x51 r d p s → Names (gHandle d) p false n x s → x.st ≠ .faulted → x.st ≠ .evacuated → x.frozen = false →
    genOf s n = some g → g.endSt = none → g.run = none → ents = (vocOf s (gVoc g)).entries → x.step = some st →
    fld d 17 1 = 0 → fld d 19 1 = 0 → fld d 22 2 = 0 → fld d 48 16 = 0 → 1 ≤ sRows d → sRows d ≤ 64 → sLogits d % 64 = 0 →
    sLogits d < billetEnd → sRowTok d < hbmEnd → dieOf (sLogits d) = g.die → dieOf (sRowTok d) = g.die → sStep d = st.serial →
    sRows d = stagedRows st 0 → q = btReq (4 * g.die) p → readPlain q (sRowTok d) (4 * sRows d) s = (okV, tb, s) →
    inCheck s q (sLogits d) (sRows d * 4 * (16 * ceilDiv ents 16)) = okV →
    (∀ a ∈ enum0 (stagedPar st 0), (a.2 = 0xFFFF ↔ a.1 = 0)) → bAt tb 0 4 = g.last → (∀ i, i < sRows d → bAt tb (4 * i) 4 < ents) →
    textOn s p 0xB [g.die] = some (dd.1, e) → textOn s p 0xA [g.die] = some (dd.2, c) → u = ctr .BT_STEP_CNT p s →
    walkFrom u g (genMask u g) d (stagedPar st 0) ((List.range (sRows d)).map fun i => bAt tb (4 * i) 4)
      (pWin x.policy != pBody x.policy) x.tokens 16 0 1 ⟨g.gq, g.stack, g.counts, [], [0], none⟩ = some w →
    ∃ t, exec (.sample r d) s = .next (after s t) ∧
      genOf t n = some { g with run := some ⟨r.toNat, d, w.out, w.rows, false, e, c, w.endSt, w.q, w.stack, w.counts⟩ } ∧
      (∀ k, k ≠ n → genOf t k = genOf s k) ∧ (slotOf t n).tokens = x.tokens ∧ (slotOf t n).st = x.st ∧ OtherSlots n s t ∧
      t.recs = s.recs ∧ t.cp.accts = s.cp.accts ∧ SameMem s t) ∧
  (∀ (slot : BitVec 24) (s : State) (g : Gen) (st : Step) (x : Slot) (w : SampleRun) (y : Acct), genOf s slot.toNat = some g →
    slotOf s slot.toNat = x → x.step = some st → g.run = some w → g.endSt = none → commitReady s slot.toNat = true →
    acctOf s g.acct = y →
    ∃ t, exec (.commitPoint slot) s = .next (after s t) ∧
      genOf t slot.toNat = some { g with
        com := g.com + w.out.length, counts := w.counts, gq := w.gq, stack := w.stack, run := some { w with passed := true }
        last := ((w.out.getLast?).map (·.1)).getD g.last, natural := w.endSt.isSome, endSt := w.endSt } ∧
      slotOf t slot.toNat = { x with step := some { st with accept := some w.rows } } ∧ OtherSlots slot.toNat s t ∧
      acctOf t g.acct = { y with balance := y.balance - w.out.length, billed := (y.billed + w.out.length) % 2 ^ 64 } ∧
      (∀ a, a ≠ g.acct → acctOf t a = acctOf s a) ∧ t.recs = s.recs)

/-- A cancel, by a descriptor or by BT_CANCEL (R280, R281): without a generation nothing changes; before the commit point of its step
the step is marked cancelled and the generation ends CANCELLED_BEFORE_COMMIT with its record; between steps, once tokens are
committed, it ends CANCELLED_AFTER_COMMIT. The command itself is DONE. A register cancel of a stale handle is logged. -/
def Obligations.CancelsAreClassified : Prop :=
  (∀ (r : BitVec 16) (d : BitVec 512) (s : State) (p n : Nat) (x : Slot), AtUnit 0x52 r d p s → fld d 17 7 = 0 → fld d 32 32 = 0 →
    Names (gHandle d) p false n x s → genOf s n = none →
    ∃ t, exec (.cancel r d) s = .next (after s t) ∧ t.bt = s.bt ∧ t.ht = s.ht ∧ OneRecord s t r d stDone 0 0 0 (gHandle d) 0) ∧
  (∀ (r : BitVec 16) (d : BitVec 512) (s : State) (p n : Nat) (x : Slot) (g : Gen) (st : Step), AtUnit 0x52 r d p s →
    fld d 17 7 = 0 → fld d 32 32 = 0 → Names (gHandle d) p false n x s → genOf s n = some g → g.handle = gHandle d →
    g.natural = false → g.endSt = none → g.run = none → nget s.wh.streams n = none →
    (∀ i ∈ s.cp.items, fld i.desc 24 8 ≠ gHandle d) → (∀ a ∈ s.la.reqs, a.slot ≠ n) →
    (x.step = some st → st.accept = none → st.failed = false →
      ∃ t fl y, exec (.cancel r d) s = .next (after s t) ∧ genOf t n = none ∧ y ||| 12 = 12 ∧
        slotOf t n = { x with step := some { st with cancel := true } } ∧ OtherSlots n s t ∧
        t.recs = s.recs ++ [⟨g.ring, dTag g.desc, stCancelledBefore, fl, g.com, g.com, g.handle, 0⟩,
          ⟨r.toNat, dTag d, stDone, y, 0, 0, gHandle d, 0⟩]) ∧
    (x.step = none → g.com ≠ 0 →
      ∃ t fl y, exec (.cancel r d) s = .next (after s t) ∧ genOf t n = none ∧ t.ht.slots = s.ht.slots ∧ y ||| 12 = 12 ∧
        t.recs = s.recs ++ [⟨g.ring, dTag g.desc, stCancelledAfter, fl, g.com, g.com, g.handle, 0⟩,
          ⟨r.toNat, dTag d, stDone, y, 0, 0, gHandle d, 0⟩])) ∧
  (∀ (q : Req) (p : Fin 16) (lo : Option W32) (hi : W32) (s u : State) (h : Nat), Allowed q .BT_CANCEL_HI p s →
    u = (match lo with | some v => rp .BT_CANCEL_LO p 0 0 v.toNat s | none => s) → h = rg u .BT_CANCEL_LO p + 2 ^ 32 * hi.toNat →
    (handleCheck u p false false h ≠ stDone →
      exec (.btCancelWrite q p lo hi) s = .next (after s (evt Ev.CANCEL_REJECTED q h u))) ∧
    (handleCheck u p false false h = stDone → genOf u (hSlot h) = none →
      exec (.btCancelWrite q p lo hi) s = .next (after s (ctr .BT_CANCEL_IDLE_CNT p u))) ∧
    (∀ g, handleCheck u p false false h = stDone → genOf u (hSlot h) = some g → g.endSt = none → g.natural = false → g.run = none →
      g.com ≠ 0 → (slotOf u (hSlot h)).step = none → nget u.wh.streams (hSlot h) = none →
      (∀ i ∈ u.cp.items, fld i.desc 24 8 ≠ g.handle) →
      ∃ t fl, exec (.btCancelWrite q p lo hi) s = .next (after s t) ∧ genOf t (hSlot h) = none ∧ t.ht.slots = s.ht.slots ∧
        t.recs = s.recs ++ [⟨g.ring, dTag g.desc, stCancelledAfter, fl, g.com, g.com, g.handle, 0⟩]))

/-- Program slots (R291-R303, R470): a LOAD that is short of a resource is REFUSED_LOAD with the report; one that is not copies its
stages; its end makes the slot READY and measures it, or empties it, by the checks; a verification keeps or loses it; an UNLOAD
empties a slot without RUNs and drains one with them. -/
def Obligations.ProgramSlotsLoadVerifyAndEmpty : Prop :=
  (∀ (r : BitVec 16) (d : BitVec 512) (s : State) (p k mask a : Nat) (c : List Byte) (ks : List KindNeed), AtUnit 0x60 r d p s →
    bit (rg s .AD_CTL) 0 = false → k = fld d 17 1 → k < planNat s p (·.progMax) → mask = fld d 19 1 → mask < 16 →
    (fld d 18 1 = 1 ∧ a = fld d 24 8 ∨ fld d 18 1 = 4 ∧ a = 2 ^ 63 + fld d 24 8 % 2 ^ 63) → fld d 32 8 < hbmEnd →
    fld d 40 24 = 0 → (progOf s p k).st = .empty → inCheck s (spliceReqOf s p) a (fld d 20 4) = okV →
    c = rdBytes s a (fld d 20 4) → contOk c (fld d 20 4) s.lay.img.conduct = true →
    (cStages c = 0 ∨ mask ≠ 0 ∧ (dieBits mask).length % cStages c = 0) → ks = kindNeeds s p c mask →
    (fld d 32 8 = 0 ∨ outCheck s (spliceReqOf s p) (fld d 32 8) 64 = okV) →
    (∀ det, loadDetail ks = some det → (ringOf s (cqOf s r.toNat)).held = [] →
      ∃ t, exec (.load r d) s = .next (after s t) ∧ OneRecord s t r d stRefusedLoad 0 0 0 0 det ∧ t.ad = s.ad ∧
        (fld d 32 8 ≠ 0 → HoldsAt t (fld d 32 8) (loadReport ks) (recordSpans s r.toNat)) ∧
        KeepsOutside ((fld d 32 8, 64) :: recordSpans s r.toNat) s t) ∧
    (∀ x u, loadDetail ks = none →
      (if cKey c = 0 then bit (rg s .AD_PART_CFG p) 0 = true else (nget s.wkeys (2 ^ 32 * p + cKey c)).isSome = true) →
      copyStages p ⟨.loading, mask, c, [], [], ringBaseFor s p (progRings c), p, some (r.toNat, d)⟩ (dieBits mask) s = some (x, u) →
      exec (.load r d) s = .next (after s (putProg p k x u)) ∧ x.st = .loading ∧ x.cont = c ∧ x.mask = mask ∧
        x.cmd = some (r.toNat, d) ∧ u.recs = s.recs ∧ u.ad = s.ad ∧ u.ht.slots = s.ht.slots)) ∧
  (∀ (p : Fin 16) (k : BitVec 8) (r : BitVec 16) (d : BitVec 512) (s : State) (x : Prog), progOf s p k.toNat = x →
    x.st = .loading → x.cmd = some (r.toNat, d) →
    (progChecks s x = true → ∃ t, exec (.vocabLoadDone (.prog p k)) s = .next (after s t) ∧
      progOf t p k.toNat = { x with st := .ready, cmd := none } ∧ OneRecord s t r d stDone 0 0 0 0 0 ∧
      (ngetD t.plog p plog0).l =
        sha384 ((ngetD s.plog p plog0).l ++ plogRec 3 k.toNat 0 (cDigest x.cont) (cBuild x.cont))) ∧
    (progChecks s x = false → ∃ t, exec (.vocabLoadDone (.prog p k)) s = .next (after s t) ∧ progOf t p k.toNat = prog0 ∧
      OneRecord s t r d stFaultContext 0 0 0 0 0 ∧ t.plog = s.plog)) ∧
  (∀ (p : Fin 16) (k : BitVec 8) (s : State) (x : Prog), progOf s p k.toNat = x → x.st = .verifying →
    (progChecks s x = true →
      exec (.slotVerifyDone (.prog p k)) s = .next (after s (putProg p k.toNat { x with st := .ready } s))) ∧
    (progChecks s x = false → exec (.slotVerifyDone (.prog p k)) s = .next (after s (putProg p k.toNat prog0
      (dropProg x (evt Ev.VOCAB_LOST (unitReq 0x10 p) (65536 + 256 * p + k.toNat) s)))))) ∧
  (∀ (r : BitVec 16) (d : BitVec 512) (s : State) (p k : Nat), AtUnit 0x61 r d p s → k = fld d 17 1 →
    k < planNat s p (·.progMax) → fld d 18 46 = 0 → (progOf s p k).st = .ready →
    (progRuns s p k ≠ 0 → exec (.unload r d) s =
      .next (after s (putProg p k { progOf s p k with st := .draining, cmd := some (r.toNat, d) } s))) ∧
    (progRuns s p k = 0 → ∃ t, exec (.unload r d) s = .next (after s t) ∧ progOf t p k = prog0 ∧
      (∀ j, j ≠ 256 * p + k → nget t.ad.progs j = nget s.ad.progs j) ∧ t.ad.runs = s.ad.runs ∧
      OneRecord s t r d stDone 0 0 0 0 0))

/-- RUNs (R302-R312): a RUN in form of a READY program is admitted, and runs on a free replica with engines for it, else waits; once
its output is acknowledged its bytes stand at OUT and it is DONE; a draft that waits for a late tile is DONE with NO_SPECULATION
and a proposal of no candidates; preempted, a RUN gives up its engines and is spilled; granted again, it goes on on its replica. -/
def Obligations.RunsDraftsAndTheirPreemption : Prop :=
  (∀ (r : BitVec 16) (d : BitVec 512) (s : State) (p k n : Nat) (x : Prog) (y : Slot) (q : Req) (args : List Byte) (dr : Option Nat),
    AtUnit 0x62 r d p s → bit (rg s .AD_CTL) 0 = false → k = fld d 17 1 → k < planNat s p (·.progMax) → progOf s p k = x →
    x.st = .ready → runForm d x = true → q = unitReq (BitVec.ofNat 8 (0x10 + 8 * (dieBits x.mask).head?.getD 0)) p →
    readPlain q (fld d 32 8) (Config.argBytes x.cont).toNat s = (okV, args, s) →
    (runOutMax d = 0 ∨ outCheck s q (fld d 40 8) (runOutMax d) = okV) →
    (runDraft d = false ∧ dr = none ∨ runDraft d = true ∧ dr = some n ∧ Names (gHandle d) p false n y s ∧ y.st ≠ .faulted ∧
      y.st ≠ .evacuated ∧ y.frozen = false ∧ genOpenNow s n = true ∧ inCheck s q (fld d 48 8) (stageAt x.cont 0).state = okV) →
    runOf s r.toNat d = none →
    ∃ t, exec (if dr.isSome then .draftRun r d else .run r d) s = .next (after s t) ∧ t.recs = s.recs ∧ SameMem s t ∧ t.ht = s.ht ∧
      t.ad.progs = s.ad.progs ∧
      (∀ i es, (List.range (repCount x)).find? (fun i => !((s.ad.runs.filter fun y => y.part == p && y.k == k &&
          y.st != .queued).map (·.rep)).contains i && (grantFor s p x i).isSome) = some i → grantFor s p x i = some es →
        runOf t r.toNat d = some ⟨r.toNat, d, p, k, i, .running, es, args, now s, dr, false, false⟩) ∧
      ((∀ i, i < repCount x → grantFor s p x i = none) →
        runOf t r.toNat d = some ⟨r.toNat, d, p, k, 0, .queued, [], args, now s, dr, false, false⟩)) ∧
  (∀ (r : BitVec 16) (d : BitVec 512) (s : State) (y : Run) (out : List Byte), runOf s r.toNat d = some y → y.st = .running →
    y.draft = none → dOp d = 0x62 → (progOf s y.part y.k).st = .ready → runTilesOk s y = true → dSealed d = false →
    out = runOut (progOf s y.part y.k).cont y.args → out.length ≤ runOutMax d → (ringOf s (cqOf s r.toNat)).held = [] →
    ∃ t, exec (.attendOutputAck r d) s = .next (after s t) ∧ runOf t r.toNat d = none ∧ OneRecord s t r d stDone 0 0 0 0 0 ∧
      HoldsAt t (fld d 40 8) out (recordSpans s r.toNat) ∧
      KeepsOutside ((fld d 40 8, out.length) :: recordSpans s r.toNat) s t ∧ t.ht = s.ht) ∧
  (∀ (r : BitVec 16) (d : BitVec 512) (s : State) (y : Run) (n : Nat), runOf s r.toNat d = some y → y.st = .running →
    y.draft = some n → (progOf s y.part y.k).st = .ready → dSealed d = false → (ringOf s (cqOf s r.toNat)).held = [] →
    (waitJobs s (progOf s y.part y.k) y.start).any (jobLate s) = true →
    ∃ t, exec (.draftTileLate r d) s = .next (after s t) ∧ runOf t r.toNat d = none ∧ (n, runStep d) ∈ t.ad.noSpec ∧
      OneRecord s t r d stDone flNoSpec 0 0 (gHandle d) 0 ∧ HoldsAt t (fld d 40 8) (proposal []) (recordSpans s r.toNat) ∧
      KeepsOutside ((fld d 40 8, 16) :: recordSpans s r.toNat) s t) ∧
  (∀ (r : BitVec 16) (d : BitVec 512) (s : State) (y : Run) (ns : Nat), runOf s r.toNat d = some y → y.st = .running →
    bit (rg s .AD_CTL) 1 = true → (stageAt (progOf s y.part y.k).cont 0).bound ≠ 0 →
    ∃ t, exec (.adzePreempt r d ns) s = .next t ∧
      runOf t r.toNat d = some { y with st := .preempted, engs := [], pre := true } ∧
      t.la.spills.length = s.la.spills.length + y.engs.length ∧ t.recs = s.recs ∧ t.ht = s.ht ∧ SameMem s t ∧
      t.ad.progs = s.ad.progs) ∧
  (∀ (r : BitVec 16) (d : BitVec 512) (s : State) (y : Run) (es : List Nat), runOf s r.toNat d = some y → y.st = .preempted →
    ungranted s r.toNat d = false → grantFor s y.part (progOf s y.part y.k) y.rep = some es →
    ∃ t, exec (.adzeResume r d) s = .next t ∧ runOf t r.toNat d = some { y with st := .running, engs := es } ∧
      t.la.spills = s.la.spills.filter (fun x => !(x.ring == r.toNat && x.desc == d)) ∧ t.recs = s.recs ∧ t.ht = s.ht ∧ SameMem s t)

/-- Index slots and searches (R315-R330): INDEX_OPEN of copies in their places leaves the slot LOADING with the header; its checks
make it READY or EMPTY; INDEX_CLOSE empties or drains it. A SEARCH or an exhaustive one writes its result blocks at OUT and is
DONE, or DONE_LIMIT where a query met its limit. A sharded one takes a serial and waits for its shards or, with every shard
answered, ends; an answer is kept, a late one counted; at the last answer or the time-out the home merges and completes. -/
def Obligations.IndexSlotsAndSearches : Prop :=
  (∀ (r : BitVec 16) (d : BitVec 512) (s : State) (p k mask : Nat) (cp : List Nat) (q : Req) (h : List Byte), AtUnit 0x70 r d p s →
    bit (rg s .SK_CTL) 0 = false → k = fld d 17 1 → k < 64 → k < planNat s p (·.idxMax) → mask = fld d 18 1 → mask < 16 → mask ≠ 0 →
    fld d 19 1 < 2 → fld d 20 4 = 0 → fld d 56 8 = 0 → cp = ((List.range 4).map fun i => fld d (24 + 8 * i) 8) →
    (∀ i, i < 4 → bit mask i = false → fld d (24 + 8 * i) 8 = 0) → (idxOf s p k).st = .empty →
    q = skReq (4 * (dieBits mask).head?.getD 0) p → (∀ i ∈ dieBits mask, inCheck s q (cp.getD i 0) 256 = okV) →
    h = rdBytes s (cp.getD ((dieBits mask).head?.getD 0) 0) 256 →
    (∀ i ∈ dieBits mask, copyPlaceOk s p i (cp.getD i 0) (max 256 (xTotal h)) = true) →
    exec (.indexOpen r d) s =
      .next (after s (putIdx p k ⟨.loading, mask, bit (fld d 19 1) 0, cp, h, p, some (r.toNat, d)⟩ s))) ∧
  (∀ (p : Fin 16) (k : Fin 64) (r : BitVec 16) (d : BitVec 512) (s : State) (x : IdxSlot), idxOf s p k = x → x.st = .loading →
    x.cmd = some (r.toNat, d) →
    (idxChecks s x = true → ∃ t, exec (.vocabLoadDone (.idx p k)) s = .next (after s t) ∧
      idxOf t p k = { x with st := .ready, cmd := none } ∧ OneRecord s t r d stDone 0 0 0 0 0 ∧ t.plog = s.plog) ∧
    (idxChecks s x = false → ∃ t, exec (.vocabLoadDone (.idx p k)) s = .next (after s t) ∧ idxOf t p k = idx0 ∧
      OneRecord s t r d stFaultContext 0 0 0 0 0)) ∧
  (∀ (p : Fin 16) (k : Fin 64) (s : State) (x : IdxSlot), idxOf s p k = x → x.st = .verifying →
    exec (.slotVerifyDone (.idx p k)) s = .next (after s (if idxChecks s x then putIdx p k { x with st := .ready } s
      else putIdx p k idx0 (evt Ev.VOCAB_LOST (skReq 0 p) (131072 + 64 * p + k) s)))) ∧
  (∀ (r : BitVec 16) (d : BitVec 512) (s : State) (p k : Nat), AtUnit 0x71 r d p s → k = fld d 17 1 → k < 64 → fld d 18 46 = 0 →
    (idxOf s p k).st = .ready →
    (idxSearches s p k ≠ 0 → exec (.indexClose r d) s =
      .next (after s (putIdx p k { idxOf s p k with st := .draining, cmd := some (r.toNat, d) } s))) ∧
    (idxSearches s p k = 0 → ∃ t, exec (.indexClose r d) s = .next (after s t) ∧ idxOf t p k = idx0 ∧ t.sk.runs = s.sk.runs ∧
      (∀ j, j ≠ 64 * p + k → nget t.sk.idx j = nget s.sk.idx j) ∧ OneRecord s t r d stDone 0 0 0 0 0)) ∧
  (∀ (r : BitVec 16) (d : BitVec 512) (s : State) (p die eng n : Nat) (x : IdxSlot) (g : Staging) (outs : List QOut) (nonf : Bool),
    AtUnit 0x72 r d p s → bit (rg s .SK_CTL) 0 = false → searchForm s p d = true → x = idxOf s p (fld d 17 1 % 64) → x.st = .ready →
    textOn s p 0xC (dieBits x.mask) = some (die, eng) → stageSearch d (skReq eng p) x s = (okV, g, s) →
    searchRecOk g.record x.hdr = true → bit (fld d 17 1) 6 = false → dSealed d = false →
    n = (searchCfg g.record (xDim x.hdr)).k → outCheck s (skReq eng p) (fld d 40 8) (fld d 18 1 * blockBytes n) = okV →
    runQueries s d x die g = some (outs, nonf) → (ringOf s (cqOf s r.toNat)).held = [] →
    ∃ t, exec (if bit (fld d 17 1) 7 then .searchExhaustive r d else .search r d) s = .next (after s t) ∧
      OneRecord s t r d (if outs.any (·.limit) then stDoneLimit else stDone) 0 0 0 0 0 ∧
      HoldsAt t (fld d 40 8) (plainBlocks n (dTag d) outs) (recordSpans s r.toNat) ∧
      KeepsOutside ((fld d 40 8, (plainBlocks n (dTag d) outs).length) :: recordSpans s r.toNat) s t ∧
      t.sk.idx = s.sk.idx ∧ t.sk.runs = s.sk.runs ∧ t.ht = s.ht) ∧
  (∀ (r : BitVec 16) (d : BitVec 512) (s : State) (p die eng n k : Nat) (x : IdxSlot) (g : Staging) (h b : List Byte) (pl : PartPlan),
    AtUnit 0x72 r d p s → bit (rg s .SK_CTL) 0 = false → searchForm s p d = true → x = idxOf s p (fld d 17 1 % 64) → x.st = .ready →
    textOn s p 0xC (dieBits x.mask) = some (die, eng) → stageSearch d (skReq eng p) x s = (okV, g, s) →
    searchRecOk g.record x.hdr = true → bit (fld d 17 1) 6 = true → readPlain (skReq eng p) (fld d 48 8) 16 s = (okV, h, s) →
    readPlain (skReq eng p) (fld d 48 8) (16 + 16 * min 64 (bAt h 0 2)) s = (okV, b, s) → n = bAt b 0 2 → shardTabOk b = true →
    rg s .SK_PART_ANSWER_RING p ≠ 0xFFFF → partPlan s p = some pl → k = (searchCfg g.record (xDim x.hdr)).k →
    n * fld d 18 1 * blockBytes k + mergeUsed s p ≤ 65536 * pl.mergePages → shardOf s p (s.sk.serial % 65536) = none →
    ∃ t, exec (.searchSharded r d) s = .next (after s t) ∧ t.sk.serial = (s.sk.serial + 1) % 2 ^ 64 ∧
      ((∃ y, shardOf t p (s.sk.serial % 65536) = some y ∧ y.ring = r.toNat ∧ y.desc = d ∧ y.n = n ∧ y.k = k ∧ y.start = now s ∧
        y.status.length < n ∧ t.recs = s.recs) ∨
       (shardOf t p (s.sk.serial % 65536) = none ∧ ∃ st det, OneRecord s t r d st 0 0 0 0 det))) ∧
  (∀ (p : Fin 16) (serial : BitVec 16) (shard : Fin 64) (st : BitVec 8) (blocks : Option (List Byte)) (s : State),
    (shardOf s p serial.toNat = none →
      exec (.shardAnswer p serial shard st blocks) s = .next (after s (ctr .SK_SHARD_LATE_CNT p s))) ∧
    (∀ y b z good, shardOf s p serial.toNat = some y → shard.val < y.n → nget y.status shard = none →
      b = (blocks.getD []).take (y.queries * blockBytes y.k) →
      good = (st.toNat < 2 && b.length == y.queries * blockBytes y.k &&
        (List.range y.queries).all fun j => bAt b (j * blockBytes y.k + 32) 8 == serial.toNat) →
      z = { y with status := nset y.status shard st.toNat, blocks := if good then nset y.blocks shard b else y.blocks } →
      (z.status.length ≠ y.n → exec (.shardAnswer p serial shard st blocks) s = .next (after s (putShard z s))) ∧
      (z.status.length = y.n → (idxOf s p (fld y.desc 17 1 % 64)).st ≠ .draining → dSealed y.desc = false → y.eng < 16 →
        outCheck s (skReq y.eng p) (fld y.desc 40 8) (y.queries * blockBytes y.k) = okV →
        ∃ t fl, exec (.shardAnswer p serial shard st blocks) s = .next (after s t) ∧
          (∀ w ∈ t.sk.runs, ¬ (w.part = y.part ∧ w.serial = y.serial)) ∧
          t.recs = s.recs ++ [⟨y.ring, dTag y.desc, if z.blocks.length < y.n ∨ (z.blocks.any fun e => (List.range y.queries).any
            fun j => bit (bAt e.2 (j * blockBytes y.k + 3) 1) 0) = true then stDoneLimit else stDone, fl, 0, 0, 0, 0⟩]))) ∧
  (∀ (p : Fin 16) (serial : BitVec 16) (s : State) (y : ShardRun), shardOf s p serial.toNat = some y →
    y.start + 1000 * y.tmo ≤ now s → y.blocks.length < y.n → (idxOf s p (fld y.desc 17 1 % 64)).st ≠ .draining →
    dSealed y.desc = false → y.eng < 16 → outCheck s (skReq y.eng p) (fld y.desc 40 8) (y.queries * blockBytes y.k) = okV →
    ∃ t fl, exec (.shardTimeout p serial) s = .next (after s t) ∧
      (∀ w ∈ t.sk.runs, ¬ (w.part = y.part ∧ w.serial = y.serial)) ∧
      t.recs = s.recs ++ [⟨y.ring, dTag y.desc, stDoneLimit, fl, 0, 0, 0, 0⟩]) ∧
  (∀ (p : Fin 16) (serial : BitVec 16) (s : State),
    ∃ t, exec (.shardHoldExpiry p serial) s = .next (after s t) ∧ t.sk.runs = s.sk.runs ∧ t.sk.idx = s.sk.idx ∧ t.recs = s.recs ∧
      (∀ h, h ∈ t.sk.holds ↔ h ∈ s.sk.holds ∧
        ¬ (h.part = p.val ∧ h.serial = serial.toNat ∧ h.since + 1000 * rg s .SK_PART_HOLD_US p ≤ now s)))

/-- Writes of accounts and meters (R333, R342, R347, R352). ACCOUNT_CREDIT adds its signed 64-bit pair to the selected account's
balance without regard to CAP (as a 64-bit two's-complement sum); a write of CP_ACCT_REFILL_MS stores the period and, while
BUDGET_EN is 1, restarts its phase; setting BUDGET_EN starts the phase; a placement inside the partition's meter range is taken,
one outside it is discarded and logged. A meter's parameter takes the value, clips the committed bucket to the new CBS and the
peak bucket to the new max(PBS, CBS), both in micro-units, and raises neither. Nothing else changes. -/
def Obligations.AccountAndMeterWrites : Prop :=
  ((∀ (q : Req) (hi : W32) (s : State) (x : Acct), Allowed q .CP_ACCT_CREDIT_HI 0 s → acctOf s (acctSel s q) = x →
     exec (.accountCredit q hi) s = .next (putAcct (acctSel s q)
       { x with balance := (BitVec.ofInt 64 x.balance + (hi ++ x.creditLo)).toInt } s)) ∧
   (∀ (q : Req) (v : W32) (s : State) (x : Acct), Allowed q .CP_ACCT_REFILL_MS 0 s → acctOf s (acctSel s q) = x →
     exec (.refillPeriodWrite q true v) s = .next (putAcct (acctSel s q)
       { x with ms := v.toNat % 2 ^ 16
                next := if x.cfg.toNat.testBit 5 then now s + v.toNat % 2 ^ 16 * 1000000 else x.next } s)) ∧
   (∀ (q : Req) (v : W32) (s : State) (x : Acct), Allowed q .CP_ACCT_CFG 0 s → acctOf s (acctSel s q) = x →
     metersFit s (v.toNat % 2 ^ 22) x.base = true →
     exec (.meterPlacementWrite q false v) s = exec (.refillPeriodWrite q false v) s ∧
     exec (.refillPeriodWrite q false v) s = .next (putAcct (acctSel s q)
       { x with cfg := BitVec.ofNat 32 (v.toNat % 2 ^ 22)
                next := if v.toNat.testBit 5 = true ∧ x.cfg.toNat.testBit 5 = false then now s + x.ms * 1000000 else x.next } s)) ∧
   (∀ (q : Req) (v : W32) (s : State) (x : Acct), Allowed q .CP_ACCT_METER_BASE 0 s → acctOf s (acctSel s q) = x →
     metersFit s x.cfg.toNat (v.toNat % 2 ^ 18) = true →
     exec (.meterPlacementWrite q true v) s = .next (putAcct (acctSel s q)
       { x with base := v.toNat % 2 ^ 18 } s)) ∧
   (∀ (q : Req) (v : W32) (s : State), Allowed q .CP_ACCT_METER_BASE 0 s →
     metersFit s (acctOf s (acctSel s q)).cfg.toNat (v.toNat % 2 ^ 18) = false →
     exec (.meterPlacementWrite q true v) s = .next (evt Ev.METER_RANGE q (acctSel s q) s))) ∧
  (∀ (q : Req) (v : W32) (s : State) (x : Meter), meterAt s (mtrSel s q) = x →
     (Allowed q .CP_METER_CIR 0 s → exec (.meterConfigWrite q 0 v) s = .next (putMeter (mtrSel s q)
       { x with cir := v.toNat, tc := min x.tc (x.cbs * 1000000), tp := min x.tp (max x.pbs x.cbs * 1000000) } s)) ∧
     (Allowed q .CP_METER_CBS 0 s → exec (.meterConfigWrite q 1 v) s = .next (putMeter (mtrSel s q)
       { x with cbs := v.toNat, tc := min x.tc (v.toNat * 1000000), tp := min x.tp (max x.pbs v.toNat * 1000000) } s)) ∧
     (Allowed q .CP_METER_PIR 0 s → exec (.meterConfigWrite q 2 v) s = .next (putMeter (mtrSel s q)
       { x with pir := v.toNat, tc := min x.tc (x.cbs * 1000000), tp := min x.tp (max x.pbs x.cbs * 1000000) } s)) ∧
     (Allowed q .CP_METER_PBS 0 s → exec (.meterConfigWrite q 3 v) s = .next (putMeter (mtrSel s q)
       { x with pbs := v.toNat, tc := min x.tc (x.cbs * 1000000), tp := min x.tp (max v.toNat x.cbs * 1000000) } s)))

/-- A ring is bound to a class of its own partition by storing the RW bits of CP_RING_CFG; a binding to another partition's class
is discarded and logged. A COMMIT of a gate list whose durations sum to CYCLE makes it the pending list, which takes over at the
first BASE + n x CYCLE at or after both CHANGE and the COMMIT; the list in force until then stays (R335, R351). The events of
Capstan's wheel act at or after their time (R344, R348, R349, R351, R352): a refill raises a balance below CAP by REFILL, to at
most CAP, and sets the next refill one period on; a shaped head is released; held work of an open gate becomes dispatchable; the
pending gate list takes over. -/
def Obligations.BindingsGateListsAndTheWheel : Prop :=
  ((∀ (q : Req) (r : BitVec 16) (v : W32) (s : State), Allowed q .CP_RING_CFG r.toNat s →
     (v.toNat.testBit 6 = false ∨
       (classPart s (v.toNat % 64) = ringPart s r.toNat ∧ classPart s (v.toNat % 64) ≠ none)) →
     exec (.ringClassBind q r v) s = .next (rp .CP_RING_CFG r.toNat 0 0 v.toNat s)) ∧
   (∀ (q : Req) (r : BitVec 16) (v : W32) (s : State), Allowed q .CP_RING_CFG r.toNat s → v.toNat.testBit 6 = true →
     classPart s (v.toNat % 64) ≠ ringPart s r.toNat →
     exec (.ringClassBind q r v) s = .next (evt Ev.CP_CLASS_CEILING q r.toNat s)) ∧
   (∀ (q : Req) (p : Fin 16) (v : W32) (s u : State) (g : Gcl) (old : GclRt), Allowed q .CP_GCL_CTL p s →
     v.toNat.testBit 1 = true → u = rp .CP_GCL_CTL p 0 0 v.toNat s → stagedGcl u p = some g →
     ngetD s.cp.gcl p ⟨none, none⟩ = old → old.pending = none →
     ∃ t : Nat, exec (.gclCommit q p v) s =
         .next { u with cp.gcl := nset u.cp.gcl p ⟨old.active, some (g, t)⟩ } ∧
       now s ≤ t ∧ rg80 u .CP_GCL_CHANGE p true ≤ t ∧ (∃ n, t = g.base + n * g.cycle) ∧
       ∀ n, now s ≤ g.base + n * g.cycle → rg80 u .CP_GCL_CHANGE p true ≤ g.base + n * g.cycle → t ≤ g.base + n * g.cycle) ∧
   (∀ (q : Req) (p : Fin 16) (v : W32) (s : State), Allowed q .CP_GCL_CTL p s → v.toNat.testBit 1 = true →
     stagedGcl (rp .CP_GCL_CTL p 0 0 v.toNat s) p = none →
     exec (.gclCommit q p v) s = .next (evt Ev.GCL_INVALID q p (rp .CP_GCL_CTL p 0 0 v.toNat s)))) ∧
  ((∀ (a : BitVec 16) (s : State) (x : Acct), acctOf s a.toNat = x → x.cfg.toNat.testBit 5 = true → x.ms ≠ 0 → x.next ≤ now s →
     exec (.budgetRefill a) s = .next (putAcct a.toNat
       { x with balance := if x.balance < x.cap then min (x.cap : Int) (x.balance + x.refill) else x.balance
                next := x.next + x.ms * 1000000 }
       (if x.next + 1000 < now s then ctr .CP_WHEEL_LATE_CNT (bits x.cfg.toNat 3 0) s else s))) ∧
   (∀ (n t : Nat) (s : State) (i : Item), itemById s n = some i → i.release = some t → t ≤ now s → i.released = false →
     exec (.shaperRelease n) s = .next (putItem { i with released := true }
       (if t + 1000 < now s then ctr .CP_WHEEL_LATE_CNT i.part s else s))) ∧
   (∀ (p : Fin 16) (s : State) (pl : PartPlan), partPlan s p = some pl →
     ∃ t, exec (.gateOpening p) s = .next t ∧ t = { s with cp.items := t.cp.items } ∧
       t.cp.items.length = s.cp.items.length ∧
       ∀ i ∈ t.cp.items, i.part = p → i.gateHeld = true → gateOpen s p (i.cls - pl.clsBase) (now s) = false) ∧
   (∀ (p : Fin 16) (s : State) (a : Option Gcl) (l : Gcl) (t : Nat),
     ngetD s.cp.gcl p ⟨none, none⟩ = ⟨a, some (l, t)⟩ → t ≤ now s →
     exec (.gclListSwitch p) s = .next { s with cp.gcl := nset s.cp.gcl p ⟨some l, none⟩ }))

/-- Rings and functions (R386, R387, R396, R398, R402, R403). A doorbell write that keeps P - C within the ring's size, forward from
the present index, becomes the software index; one beyond it is discarded and counted as an overrun; one on a DISABLED ring is
discarded and logged. Enabling an aligned DISABLED ring sets both indices to 0 and ENABLES it; DRAIN of a SUBMIT ring that still
has descriptors makes it DRAINING; ABORT leaves it DISABLED with nothing held and its ENABLE bit 0. Once the coalescing time of
accrued entries has passed, the ring's vector is sent to its function and the accrual starts again; FLR of PF1 clears NumVFs, and
the function counts as reset. -/
def Obligations.RingsTakeIndicesAndEnableDrainAndAbort : Prop :=
  (∀ (q : Req) (r : BitVec 16) (v : W32) (s : State) (x : Ring), Allowed q .DB_SW_IDX r.toNat s → ringOf s r.toNat = x →
     let p := (ringPart s r.toNat).getD 16
     (x.st = .enabled → ringKind s r.toNat = 0 → (v - x.c).toNat ≤ ringSize s r.toNat → (v - x.p).toNat ≤ ringSize s r.toNat →
       exec (.dbSwIdxWrite q r v) s = .next (setRing r.toNat { x with p := v } (ctr .HP_DOORBELL_CNT p s))) ∧
     (x.st = .enabled → ringKind s r.toNat = 0 → ringSize s r.toNat < (v - x.c).toNat →
       exec (.dbSwIdxWrite q r v) s =
         .next (evt Ev.DOORBELL_OVERRUN q r.toNat (ctr .HP_OVERRUN_CNT p (ctr .HP_DOORBELL_CNT p s)))) ∧
     (x.st = .disabled → exec (.dbSwIdxWrite q r v) s = .next (evt Ev.RING_DISABLED q r.toNat (ctr .HP_DOORBELL_CNT p s)))) ∧
  ((∀ (q : Req) (r : BitVec 16) (v : W32) (s : State), Allowed q .DB_CFG r.toNat s → (ringOf s r.toNat).st = .disabled →
     v.toNat.testBit 0 = true → ringAligned (rp .DB_CFG r.toNat 0 0 (v.toNat / 2 * 2) s) r.toNat = true →
     ∃ t, exec (.ringEnable q r v) s = .next (after s t) ∧ (ringOf t r.toNat).st = .enabled ∧ (ringOf t r.toNat).p = 0 ∧
       (ringOf t r.toNat).c = 0 ∧ (ringOf t r.toNat).held = [] ∧ (∀ r', r' ≠ r.toNat → ringOf t r' = ringOf s r') ∧
       t = { s with regs := t.regs, hp.rings := t.hp.rings }) ∧
   (∀ (q : Req) (r : BitVec 16) (s : State) (x : Ring), Allowed q .DB_CFG r.toNat s → ringOf s r.toNat = x → x.st = .enabled →
     ringKind s r.toNat = 0 → x.p ≠ x.c →
     exec (.ringDrain q r) s = .next (after s (setRing r.toNat { x with st := .draining } s))) ∧
   (∀ (q : Req) (r : BitVec 16) (s : State), Allowed q .DB_CFG r.toNat s → (ringOf s r.toNat).st ≠ .disabled →
     ∃ t, exec (.ringAbort q r) s = .next (after s t) ∧ (ringOf t r.toNat).st = .disabled ∧
       (rg t .DB_CFG r.toNat).testBit 0 = false ∧
       (ringKind s r.toNat ≠ 0 → (ringOf t r.toNat).held = [] ∧ SameMem s t ∧ t.recs = s.recs ∧
         ∀ r', r' ≠ r.toNat → ringOf t r' = ringOf s r'))) ∧
  ((∀ (r : BitVec 16) (s : State) (x : Ring), ringOf s r.toNat = x → x.irqAcc ≠ 0 →
     x.irqAt + 1000 * bits (rg s .DB_IRQ r.toNat) 31 24 ≤ now s →
     bits (rg s .DB_IRQ r.toNat) 11 0 < fnVectors (bits (rg s .DB_OWNER r.toNat) 6 0) →
     exec (.msixCoalesceTimer r) s = .next (send Mk.msix [bits (rg s .DB_OWNER r.toNat) 6 0, bits (rg s .DB_IRQ r.toNat) 11 0] []
       (setRing r.toNat { x with irqAcc := 0 } s))) ∧
   (∀ (f : BitVec 7) (s : State), ∃ t, exec (.flr f) s = .next (after s t) ∧ f.toNat ∈ t.hp.flrDone ∧
     (f = 1 → t.hp.numVfs = 0) ∧ (t.hp.cfg.any fun e => e.1 / 1024 == f.toNat) = false))

/-- Fetch and dispatch (R339, R356, R357, R399, R405). An unmetered descriptor whose header passes is taken from the ring at C, its
record is reserved in the completion ring, and it joins the items without charge, meter or queue. Where a server can accept work
and one green class alone has a dispatchable head, that head is dispatched on it; the class's next head takes the dispatched
head's F as its S, or the queue keeps it as its last F. -/
def Obligations.FetchAndDispatch : Prop :=
  (∀ (r : BitVec 16) (s : State) (x : Ring) (p : Nat) (d : BitVec 512) (u : State), ringOf s r.toNat = x →
     x.st ≠ .disabled → ringKind s r.toNat = 0 → x.p ≠ x.c → isHost (ringBase s r.toNat) = false →
     cqUsable s r.toNat = true → ringRoom s (cqOf s r.toNat) ≠ 0 → takeEntry r.toNat s = (d, okV, false, u) →
     ringPart s r.toNat = some p → headerOk s r.toNat d = true → unmetered (dOp d) = true → s.pm.recovery = false →
     ∃ t, exec (.descriptorFetch r) s = .next (after s t) ∧ (ringOf t r.toNat).c = x.c + 1 ∧
       (ringOf t (cqOf s r.toNat)).resv = (ringOf s (cqOf s r.toNat)).resv + 1 ∧
       (∃ i : Item, t.cp.items = s.cp.items ++ [i] ∧ i.ring = r.toNat ∧ i.desc = d ∧ i.part = p ∧ i.charge = 0 ∧
         i.metered = false ∧ i.shares = []) ∧ t.recs = s.recs ∧ SameMem u t) ∧
  (∀ (p : Fin 16) (srv : Fin 18) (s : State) (c : Nat) (i : Item), canAccept s p srv = true → readyClasses s p srv false = [c] →
     (queueOf s p srv c false).head? = some i →
     ∃ t, exec (.serverDispatch p srv) s = .next (after s t) ∧
       (∃ j ∈ t.cp.items, j.id = i.id ∧ j.desc = i.desc ∧ ∀ x ∈ j.shares, x.srv = srv → x.sent = true) ∧
       (qTag t p srv c false).fLast = (qTag s p srv c false).f ∧
       ((queueOf t p srv c false).head? ≠ none → (qTag t p srv c false).s = (qTag s p srv c false).f) ∧
       t.recs = s.recs ∧ SameMem s t)

/-- A metered item still queued at the end of its class's deferral time gets one interim DEFERRED record, and stays; a yellow item
at the end of its class's limit leaves with REFUSED_CAPACITY and the estimated wait as its hint (R359, R360). Green work of a
level above 0 that waits on a server asks for the preemption of lower work once its wait has passed (R362). -/
def Obligations.DeferralWithdrawalAndPreemptionRequests : Prop :=
  (∀ (n : Nat) (s : State) (i : Item), itemById s n = some i → queuedItem i = true → i.deferred = false → i.preempted = false →
    rg s .CP_CLASS_DEFER_US i.cls ≠ 0 → i.admAt + 1000 * rg s .CP_CLASS_DEFER_US i.cls ≤ now s →
    ringRoom s (cqOf s i.ring) ≠ 0 →
    ∃ t det, exec (.deferralTimer n) s = .next t ∧
      t.recs = s.recs ++ [⟨i.ring, dTag i.desc, stDeferred, 0, 0, 0, (namedHandle i.desc).getD 0, det⟩] ∧
      (∃ j, itemById t n = some j ∧ j.deferred = true ∧ j.desc = i.desc) ∧ t.ht = s.ht) ∧
  (∀ (n : Nat) (s : State) (i : Item), itemById s n = some i → queuedItem i = true → i.yellow = true → i.preempted = false →
    rg s .CP_CLASS_YELLOW_MAX_US i.cls ≠ 0 → i.admAt + 1000 * rg s .CP_CLASS_YELLOW_MAX_US i.cls ≤ now s →
    i.shares.any (·.sent) = false →
    ∃ t, exec (.yellowTimeout n) s = .next (after s t) ∧
      t.recs = s.recs ++ [⟨i.ring, dTag i.desc, stRefusedCapacity, flYellow, 0, 0, (namedHandle i.desc).getD 0, itemWait s i⟩] ∧
      itemById t n = none ∧ t.ht = s.ht) ∧
  (∀ (n : Nat) (srv : Fin 18) (s : State) (i v : Item), itemById s n = some i → i.yellow = false →
    preemptLevel s i.cls ≠ 0 → (srv.val < 4 ∨ srv.val = 16) → (queueOf s i.part srv i.cls false).head?.map (·.id) = some n →
    dispatchable s i = true → canAccept s i.part srv = false →
    i.admAt + rg s .CP_PART_PREEMPT_WAIT_NS i.part ≤ now s → nget s.cp.preempt (i.part * 18 + srv) = none →
    preemptVictim s i.part srv (preemptLevel s i.cls) = some v →
    exec (.preemptWaitExpiry n srv) s = .next (ctr .CP_PREEMPT_REQ_CNT i.part
      { s with cp.preempt := nset s.cp.preempt (i.part * 18 + srv) v.id }))

/-- The state table of an engine (R378-R380, R386, R387): ENABLE of a DISABLED engine enables it; DRAIN of one with work leaves it
DRAINING, of one without DISABLED with its ENABLE at 0; ABORT leaves it DISABLED without work; a fence leaves it FENCED under a new
epoch, and a spare that is free takes its number. A fenced instance is reset, tested, and left DISABLED or RETIRED. -/
def Obligations.EnginesByTheirStateTable : Prop :=
  (∀ (q : Req) (b : EngKind) (e : BitVec 9) (s : State) (n : Nat) (x : Eng), n = kindBlk b → e.toNat < engCount n →
    Allowed q (engCtl n) e.toNat s → engOf s n e.toNat = x →
    (x.st = .disabled → x.retired = false → x.subst = false →
      ∃ t, exec (.engineEnable q b e true) s = .next (after s t) ∧ engOf t n e.toNat = { x with st := .enabled } ∧
        bit (rg t (engCtl n) e.toNat) 0 = true ∧ (∀ k, k ≠ 1024 * n + e.toNat → nget t.engs k = nget s.engs k) ∧ t.recs = s.recs ∧
        t.ht = s.ht ∧ SameMem s t) ∧
    (x.st = .enabled → x.work = 0 → engMoves s n e.toNat = false → x.serves = e.toNat →
      ∃ t, exec (.engineDrain q b e) s = .next (after s t) ∧ engOf t n e.toNat = { x with st := .disabled } ∧
        bit (rg t (engCtl n) e.toNat) 0 = false ∧ (∀ k, k ≠ 1024 * n + e.toNat → nget t.engs k = nget s.engs k) ∧ t.recs = s.recs ∧
        t.ht = s.ht ∧ SameMem s t) ∧
    (x.st = .enabled → x.work ≠ 0 →
      exec (.engineDrain q b e) s = .next (after s (putEng n e.toNat { x with st := .draining } s))) ∧
    (x.st = .enabled ∨ x.st = .draining →
      ∃ t, exec (.engineAbort q b e) s = .next (after s t) ∧ (engOf t n e.toNat).st = .disabled ∧ (engOf t n e.toNat).work = 0 ∧
        bit (rg t (engCtl n) e.toNat) 0 = false)) ∧
  (∀ (b : EngKind) (e : BitVec 9) (s : State) (n : Nat) (x : Eng), n = kindBlk b → e.toNat < engCount n → engOf s n e.toNat = x →
    x.st ≠ .fenced →
    (∃ t, exec (.engineFence b e) s = .next (after s t) ∧ (engOf t n e.toNat).st = .fenced ∧ (engOf t n e.toNat).work = 0 ∧
      (engOf t n e.toNat).epoch = x.epoch + 1 ∧ ngetD t.ax.unitEp n 0 = ngetD s.ax.unitEp n 0 + 1 ∧
      (∀ k, x.serves = e.toNat → (∀ j, (engOf s n j).st ≠ .draining) →
        (sparesFor s n e.toNat).find? (fun k => (engOf s n k).st == .enabled && (engOf s n k).serves == k) = some k →
        (engOf t n k).serves = e.toNat ∧ (engOf t n e.toNat).subst = true)) ∧
    exec (.detectedFault (.engine b e) none) s = exec (.engineFence b e) s) ∧
  (∀ (q : Req) (block : BitVec 8) (i : BitVec 12) (s : State), Allowed q .PM_INST_RESET 0 s →
    (instBlocks.contains block.toNat = true → s.lay.instBusy = none → instFenced s block.toNat i.toNat = true →
      ∃ t, exec (.pmInstReset q block i) s = .next (after s t) ∧ t.lay.instBusy = some (block.toNat, i.toNat) ∧ t.recs = s.recs ∧
        t.ht = s.ht ∧ t.engs = s.engs ∧ SameMem s t) ∧
    (instFenced s block.toNat i.toNat = false → exec (.pmInstReset q block i) s = .next (after s
      (evt Ev.INST_RESET_DENIED (unitReq 0xF0 16) (4096 * block.toNat + i.toNat) { s with lay.instRes := 3 })))) ∧
  (∀ (s : State) (b i : Nat), s.lay.instBusy = some (b, i) → (ngetD s.ax.owed b (0, 0)).1 = 0 →
    (b ≠ 0x13 → ∃ t, exec (.instSelftestDone true) s = .next t ∧ t.lay.instBusy = none ∧ t.lay.instRes = 1 ∧
      engOf t b i = { engOf s b i with st := .disabled } ∧ t.ht = s.ht ∧ t.recs = s.recs ∧ SameMem s t) ∧
    (b = 0x13 → exec (.instSelftestDone true) s = .next { s with
      lay.instBusy := none, lay.instRes := 1, lay.chFenced := s.lay.chFenced.filter (· != i) }) ∧
    (∃ t, exec (.instSelftestDone false) s = .next t ∧ t.lay.instBusy = none ∧ t.lay.instRes = 2 ∧ (b, i) ∈ t.lay.retired ∧
      (b ≠ 0x13 → engOf t b i = { engOf s b i with retired := true }) ∧ t.ht = s.ht ∧ t.recs = s.recs ∧ SameMem s t)) ∧
  (∀ (b : Fin 21) (s : State) (n t0 : Nat), nget s.ax.owed b = some (n, t0) → 0 < n → t0 + 1000 * rg s .PM_RSP_TMO ≤ now s →
    exec (.responseTimeout b) s = .next (after s { s with ax.owed := ndel s.ax.owed b }))

/-- Faults of memory and registers (R40, R376, R381, R382): an uncorrectable line is poisoned; a session whose descriptor is struck is
FAULTED with cause 3; a struck page is RETIRED; an error of Heartwood resets the system. A parity error fences the instance that
owns the register, or marks and fences its whole unit. SPARE begins the copy of a channel, at whose end lines that could not be
read are poisoned; the patrol scrub runs at its period. An injected report without an armed slot does nothing. -/
def Obligations.FaultsOfMemoryAndRegisters : Prop :=
  (∀ (a : BitVec 48) (s : State), ∃ t, exec (.detectedFault (.line a) none) s = .next (after s t) ∧
    poisoned t (a.toNat / 64 * 64) 64 = true ∧ (∀ b n, poisoned s b n = true → poisoned t b n = true) ∧ SameMem s t ∧ t.ht = s.ht) ∧
  (∀ (n : BitVec 24) (s : State) (x : Slot), slotOf s n.toNat = x → x.st ≠ .free → x.st ≠ .faulted →
    ∃ t, exec (.detectedFault (.descriptor n) none) s = .next (after s t) ∧ (slotOf t n.toNat).st = .faulted ∧
      (slotOf t n.toNat).cause = 3 ∧ (slotOf t n.toNat).blks = [] ∧ (slotOf t n.toNat).step = none ∧ OtherSlots n.toNat s t) ∧
  (∀ (n : BitVec 32) (s : State), ∃ t, exec (.detectedFault (.page n) none) s = .next (after s t) ∧ (pageOf t n.toNat).st = .retired ∧
    (∀ k, k ≠ n.toNat → pageOf t k = pageOf s k) ∧ t.recs = s.recs ∧ SameMem s t ∧ t.ht.slots = s.ht.slots) ∧
  (∀ s : State, exec (.detectedFault .heartwood none) s = .next (after s (sysReset 0x14 s))) ∧
  (∀ (x : Struck) (k : Fin 64) (s : State), nget s.ax.armed k = none → exec (.detectedFault x (some k)) s = .next (after s s)) ∧
  (∀ (off : BitVec 26) (s : State) (ra : RegAt), regDecode off.toNat = some ra →
    (∀ b e, regEngine ra = some (b, e) → (engOf s b e).st ≠ .fenced → e < engCount b →
      ∃ t, exec (.registerParityFault off none) s = .next (after s t) ∧ nget t.ax.parInst (4096 * b + e) = some off.toNat ∧
        (engOf t b e).st = .fenced) ∧
    (∀ b, regEngine ra = none → ra.id ≠ .HM_CH_STAT → b = offBlock off.toNat → b ∈ [0xD, 0xE, 0xF, 0x10, 0x12] →
      ∃ t, exec (.registerParityFault off none) s = .next (after s t) ∧ b ∈ t.ax.unitFenced ∧
        ngetD t.ax.parity b 0 = min (ngetD s.ax.parity b (off.toNat % 0x100000)) (off.toNat % 0x100000) ∧ t.ht = s.ht ∧
        t.recs = s.recs ∧ SameMem s t)) ∧
  (∀ (q : Req) (t : BitVec 8) (s : State), Allowed q .HM_SPARE_CMD 0 s → 0 < spareLeft s (t.toNat / 32) →
    s.lay.copying.contains t.toNat = false → s.lay.chFenced.contains t.toNat = false →
    exec (.hmSpare q t) s = .next (after s { s with
      lay.spareLeft := nset s.lay.spareLeft (t.toNat / 32) (spareLeft s (t.toNat / 32) - 1)
      lay.copying := s.lay.copying ++ [t.toNat] })) ∧
  (∀ (t : BitVec 8) (s : State), s.lay.copying.contains t.toNat = true →
    (∀ bad, ∃ u, exec (.spareCopyDone t true bad) s = .next (after s u) ∧ t.toNat ∉ u.lay.copying ∧ t.toNat ∈ u.lay.spared ∧
      (∀ l ∈ bad, l.toNat * 64 < 0x60000000 → poisoned u (chanBase t.toNat + l.toNat * 64) 64 = true) ∧ SameMem s u ∧ u.ht = s.ht) ∧
    (∀ bad, ∃ u, exec (.spareCopyDone t false bad) s = .next (after s u) ∧ t.toNat ∉ u.lay.copying ∧ t.toNat ∈ u.lay.spared ∧
      (∀ i, i < 0x60000000 → poisoned u (chanBase t.toNat + i) 1 = true ∧ memGet u.mem (chanBase t.toNat + i) = 0) ∧
      (∀ a, (a < chanBase t.toNat ∨ chanBase t.toNat + 0x60000000 ≤ a) → memGet u.mem a = memGet s.mem a) ∧ u.ht = s.ht)) ∧
  (∀ (n : Fin 8) (s : State), (stackAt s n).ready = true →
    (stackAt s n).lastScrub + 3600000000000 * rg s .HM_SCRUB_CFG ≤ now s →
    exec (.patrolScrubPeriod n) s = .next (putStack n { stackAt s n with lastScrub := now s } s))

/-- Partitions and the lay (R366-R372, R377, R389, R587): APPLY of an image that passes its checks puts it in force, starts the
partition's log anew, zeroes what changed hands and leaves other partitions' sessions alone; one that fails them is refused with its
cause. A teardown faults every session of the partition and reads FAULTED. The DRAIN bits of partitions and units read as
written, and nothing else changes. -/
def Obligations.PartitionsAreLaidDrainedAndTornDown : Prop :=
  (∀ (q : Req) (p : Fin 16) (x : LayImg) (s u : State), Allowed q .HW_LAY_CTL 0 s → s.lay.busy = false → s.hw.restarting = none →
    u = rp .HW_LAY_CTL 0 0 0 p s → s.lay.laid = true → s.pm.recovery = false →
    (layCause u (some p.val) x = 0 →
      ∃ t, exec (.layApply q p x) s = .next (after s t) ∧ t.lay.img = { x.lay with serial := x.serial } ∧
        t.lay.floor = (if x.raise then max s.lay.floor x.serial else s.lay.floor) ∧ nget t.lay.part p = some ⟨false, false, false⟩ ∧
        (ngetD t.plog p plog0).recs = [] ∧
        (ngetD t.plog p plog0).l =
          sha384 (beBytes 48 x.lay.digest ++ leBytes 1 p ++ leBytes 1 (b2n ((nget x.lay.parts p).any (·.conf)))) ∧
        (∀ k, k < 256 → layOwner s.lay.img k ≠ layOwner x.lay k → ∀ i, i < 0x60000000 → memGet t.mem (chanBase k + i) = 0) ∧
        (∀ n, (slotOf s n).part ≠ p → (slotOf s n).st ≠ .free → slotOf t n = slotOf s n) ∧ t.hmem = s.hmem ∧ t.recs = s.recs) ∧
    (layCause u (some p.val) x ≠ 0 →
      exec (.layApply q p x) s = .next (after s (evt Ev.LAY_REFUSED (unitReq 0xF0 p) (layCause u (some p.val) x)
        (ctr .HW_LAY_REFUSE_CNT 16 { u with lay.cause := layCause u (some p.val) x }))))) ∧
  (∀ (q : Req) (p : Fin 16) (s : State), Allowed q .HW_PART_CTL p s → (partPlan s p).isSome = true →
    ∃ t, exec (.partTeardown q p) s = .next (after s t) ∧ nget t.lay.part p = some ⟨true, false, true⟩ ∧
      (∀ n, (slotOf t n).part = p → (slotOf t n).st = .free ∨ (slotOf t n).st = .faulted) ∧
      (∀ i ∈ t.sp.jobs, i.part ≠ p) ∧ (∀ i ∈ t.la.spills, i.part ≠ p)) ∧
  (∀ (q : Req) (p : Fin 16) (v : Bool) (s : State), Allowed q .HW_PART_CTL p s →
    ∃ t, exec (.partDrain q p v) s = .next (after s t) ∧ bit (rg t .HW_PART_CTL p) 0 = v ∧
      (∀ a, a ≠ regOff .HW_PART_CTL p 0 0 → nget t.regs a = nget s.regs a) ∧ t = { s with regs := t.regs }) ∧
  (∀ (q : Req) (u : DrainUnit) (v : Bool) (s : State), Allowed q (drainReg u) 0 s →
    ∃ t, exec (.unitDrainWrite q u v) s = .next (after s t) ∧ bit (rg t (drainReg u) 0) 0 = v ∧
      (∀ a, a ≠ regOff (drainReg u) 0 0 0 → nget t.regs a = nget s.regs a) ∧ t = { s with regs := t.regs })

/-- The RoCEv2 responder (R415, R417, R418, R424): a WRITE in order, inside a region with the right key and permission, stores its
payload and is acknowledged, and the expected PSN moves on by its packets; a WRITE with an immediate and no payload rings the
queue pair's doorbell with it; a READ is answered with the bytes of the device window; an opcode the responder does not support is
refused and puts the queue pair in ERROR; RESET makes it anew. -/
def Obligations.RdmaWritesReadsAndRefusals : Prop :=
  ∀ (qp : BitVec 12) (psn : BitVec 24) (s : State) (x : Qp) (c : State), qpOf s qp.toNat = x → x.st = .ready →
    psn.toNat = x.epsn → c = ctr .HP_ROCE_RX_PKT_CNT ((ringPart s (qpRing x)).getD 16) s →
    (∀ (rkey : W32) (va : W64) (data : List Byte), data ≠ [] → regionOk x rkey.toNat va.toNat data.length true = true →
      accessCheck c (qpReq c x) .wr va.toNat data.length = okV →
      exec (.rdmaWrite qp psn rkey va data false) s = .next (send Mk.roceAck [qp.toNat, psn.toNat] []
        (putQp qp.toNat { x with epsn := (x.epsn + packets x data.length) % 2 ^ 24 } (wrBytes va.toNat data c)))) ∧
    (∀ (rkey : W32) (va : W64) (imm : W32),
      exec (.rdmaWriteImm qp psn rkey va [] imm false) s = .next (send Mk.roceAck [qp.toNat, psn.toNat] []
        (doorbell (qpReq c x) (qpRing x) imm
          (putQp qp.toNat { x with epsn := (x.epsn + packets x 0) % 2 ^ 24 } c)))) ∧
    (∀ (rkey : W32) (va : W64) (len : Nat), regionOk x rkey.toNat va.toNat len false = true →
      accessCheck c (qpReq c x) .rd va.toNat len = okV → poisoned c va.toNat len = false →
      exec (.rdmaRead qp psn rkey va len false) s = .next (putQp qp.toNat
        { x with epsn := (x.epsn + packets x len) % 2 ^ 24 }
        (send Mk.roceRead [qp.toNat, psn.toNat] (rdBytes s va.toNat len) c))) ∧
    (∃ t, exec (.roceUnsupportedOp qp psn false) s = .next t ∧ (qpOf t qp.toNat).st = .error ∧ (qpOf t qp.toNat).cause = 5 ∧
      t.tx = s.tx ++ [⟨Mk.roceNak, [qp.toNat, psn.toNat, 1], []⟩] ∧ SameMem s t) ∧
    (∀ (q : Req), Allowed q .HP_QP_CMD 0 s → exec (.qpReset q qp) s = .next (putQp qp.toNat ⟨.reset, 0, 0, []⟩ s)) ∧
    (∀ (q : Req) (a : Nat) (b : List Byte), Allowed q .HP_QP_CMD 0 s →
      a = rg64 s .HP_QP_TABLE_LO .HP_QP_TABLE_HI 0 + 128 * qp.toNat → a + 128 ≤ hbmEnd → poisoned s a 128 = false →
      readPlain (unitReq 0x90 16) a 128 s = (okV, b, s) → b = rdBytes s a 128 → qpCause s b = 0 → b ≠ [] →
      exec (.qpLoad q qp) s = .next (putQp qp.toNat { st := .ready, cause := 0, epsn := bAt b 4 3, ctx := b } s))

/-- The Ethernet ports (R414) and the far port's sub-ports (R421-R423): an ARP request or neighbour solicitation for the port's own
address is answered with its MAC; PFC on the configured priority pauses or resumes; a laid port follows its link; an
enumerated Type 3 device's event record is logged; a sub-port that trains with its DVSECs, Memory_Active and decoder in order
makes its device PRESENT with its capacity up to 4 TiB; one that waits too long for Memory_Active fails; a link loss or a
change of presence is taken; in root-port mode the mailbox reads and writes configuration space downstream. -/
def Obligations.EthernetAndFarPortEvents : Prop :=
  (∀ (n : Fin 2) (addr : BitVec 128) (s : State), ethLaid s n = true → (ethOf s n).up = true →
    rg s .HP_ETH_IP4 n ≠ 0 → rg s .HP_ETH_IP4 n = addr.toNat →
    exec (.arpRequest n false addr) s = .next (send Mk.arpReply [n, 0, addr.toNat, rg64 s .HP_ETH_MAC_LO .HP_ETH_MAC_HI n] [] s)) ∧
  (∀ (n : Fin 2) (prio : BitVec 3) (pause : Bool) (s : State), (ethOf s n).up = true → prio.toNat = rg s .HP_ETH_PFC_PRIO n →
    exec (.pfcPauseFrame n prio pause) s = .next (putEth n { ethOf s n with paused := pause } s)) ∧
  (∀ (n : Fin 2) (s : State), ethLaid s n = true →
    exec (.ethernetLinkChange n true) s = .next (putEth n { ethOf s n with up := true } s) ∧
    exec (.ethernetLinkChange n false) s = .next (putEth n { ethOf s n with up := false, paused := false, serdes := false } s)) ∧
  (∀ (n : Fin 4) (b : List Byte) (s : State), (subOf s n).enumd = true →
    exec (.cxlEventRecord n b) s = .next (evt Ev.CXL_EVENT (unitReq 0x91 16) (n + 4 * leNat (b.take 8)) s)) ∧
  (∀ (n : Fin 4) (pages : Nat) (speed : BitVec 2) (width : BitVec 5) (s : State), n.val < subPorts s → speed ≠ 0 →
    s.lay.img.farMode = true →
    ∃ t, exec (.fpSubportTrain n true true true pages speed width) s = .next t ∧ (farOf t n).present = true ∧
      (farOf t n).pages = min pages 0x4000000 ∧ (subOf t n).up = true ∧ (subOf t n).enumd = true ∧
      (subOf t n).speed = speed.toNat ∧ (subOf t n).width = width.toNat ∧ SameMem s t ∧ t.ht = s.ht) ∧
  (∀ (n : Fin 4) (s : State) (w : Nat), (subOf s n).wait = some w → w + 1000000 * rg s .FP_MEM_ACTIVE_TMO ≤ now s →
    exec (.memActiveTimeout n) s = .next (after s (evt Ev.FP_ENUM_FAILED (unitReq 0x91 16) n
      (putSub n { subOf s n with failed := true, wait := none } s)))) ∧
  (∀ (n : Fin 4) (s : State), (subOf s n).up = true → (farOf s n).present = false →
    exec (.farPortLinkLoss n) s = .next (after s (putSub n { subOf s n with
      up := false, speed := 0, width := 0, enumd := false, wait := none } (ctr .FP_LINK_DOWN_CNT 16 s)))) ∧
  (∀ (n : Fin 4) (present : Bool) (s : State), n.val < subPorts s → (subOf s n).prsnt ≠ present → (farOf s n).present = false →
    exec (.farPortPresenceChange n present) s = .next (after s (putSub n { subOf s n with
      prsnt := present, up := (subOf s n).up && present } s))) ∧
  (∀ (q : Req) (v : W32) (s : State), Allowed q .FP_RP_CFG_CTL 0 s → s.lay.laid = true → s.lay.img.farMode = false →
    s.hp.rpBusy = false →
    (∃ t, exec (.fpRpCfgRead q .ok v) s = .next t ∧ rg t .FP_RP_CFG_DATA = v.toNat ∧ t.hp.rpRes = 0 ∧
      t.tx = s.tx ++ [⟨Mk.rpCfg, [rg s .FP_RP_CFG_ADDR, 0, rg s .FP_RP_CFG_DATA], []⟩]) ∧
    exec (.fpRpCfgWrite q .ok) s = .next { send Mk.rpCfg [rg s .FP_RP_CFG_ADDR, 1, rg s .FP_RP_CFG_DATA] [] s with hp.rpRes := 0 } ∧
    exec (.fpRpCfgWrite q .timeout) s =
      .next { send Mk.rpCfg [rg s .FP_RP_CFG_ADDR, 1, rg s .FP_RP_CFG_DATA] [] s with hp.rpRes := 2 })

/-- The host link (R396, R406): it comes up at the speed and width trained; it goes down with the epoch raised, and so it does at
PERST_N where the lay does not make that a reset; a failed or late completion ends the COPY or ZERO that waits for it with
FAULT_ACCESS and target index 0x1FF. -/
def Obligations.HostLinkAndFailedHostRequests : Prop :=
  (∀ (speed : BitVec 2) (width : BitVec 5) (s : State), speed ≠ 0 → (width = 4 ∨ width = 8 ∨ width = 16) → 8 ≤ s.pm.step →
    s.pm.romRec = false → s.pm.sdDead = false → s.pm.role ≠ 1 → (∀ e ∈ s.hp.rings, e.2.held = []) →
    exec (.hostLinkUp speed width) s = .next (after s { s with
      hp.up := true, hp.speed := speed.toNat, hp.width := width.toNat, hp.serdes := false })) ∧
  (∀ (s : State), s.hp.dma = [] →
    exec .hostLinkDown s = .next (after s { s with
      hp.epoch := s.hp.epoch + 1, hp.up := false, hp.speed := 0, hp.width := 0 }) ∧
    (s.lay.img.perstReset = false → exec .perstNAssert s = .next { s with
      hp.epoch := s.hp.epoch + 1, hp.up := false, hp.speed := 0, hp.width := 0 })) ∧
  (∀ (s : State), s.lay.laid = true → s.lay.img.perstReset = true → exec .perstNAssert s = .next (sysReset 0x17 s)) ∧
  (∀ (id : Nat) (s : State) (x : Dma) (j : SpJob), s.hp.dma.find? (fun x => x.id == id) = some x → x.slot = none →
    s.sp.jobs.find? (fun j => j.ring == x.ring && j.desc == x.desc) = some j →
    (∃ t fl, exec (.hostDmaCompletionError id false) s = .next (after s t) ∧
      t.recs = s.recs ++ [⟨x.ring, dTag x.desc, stFaultAccess, fl, 0, 0, 0, 0x1FF⟩] ∧ jobOf t x.ring x.desc = none) ∧
    (∃ t fl, exec (.hostDmaCompletionError id true) s = .next (after s t) ∧
      t.recs = s.recs ++ [⟨x.ring, dTag x.desc, stFaultContext, fl, 0, 0, 0, 0⟩] ∧ jobOf t x.ring x.desc = none) ∧
    (x.start + 1000 * rg s .HP_CPL_TMO ≤ now s →
      ∃ t fl, exec (.hostDmaTimeout id) s = .next (after s t) ∧
        t.recs = s.recs ++ [⟨x.ring, dTag x.desc, stFaultAccess, fl, 0, 0, 0, 0x1FF⟩] ∧ jobOf t x.ring x.desc = none))

/-- Accesses of the host and of a device below the root port (R394, R423, R541): PF0 reads and writes HBM through BAR 2, and a
device below the root port through the device window under the port's partition tag; until step 8 of the start configuration
requests are answered Request Retry Status, afterwards with the dword. -/
def Obligations.HostWindowAndConfigurationAccesses : Prop :=
  (∀ (off : W64) (d : List Byte) (s : State), s.hp.up = true → s.pm.recovery = false → s.pm.romRec = false →
    off.toNat + d.length ≤ hbmEnd → off.toNat < hbmEnd → winVerdict s Req.pf0 .wr off.toNat d.length = okV →
    exec (.hostPortAccess 0 .bar2 off d.length (some d)) s = .next (after s (wrBytes off.toNat d (hbmTouch 1 s)))) ∧
  (∀ (off : W64) (n : Nat) (s : State), s.hp.up = true → s.pm.recovery = false → s.pm.romRec = false →
    off.toNat + n ≤ hbmEnd → off.toNat < hbmEnd → winVerdict s Req.pf0 .rd off.toNat n = okV → poisoned s off.toNat n = false →
    exec (.hostPortAccess 0 .bar2 off n none) s =
      .next (after s (send Mk.hostData [0, off.toNat] (rdBytes s off.toNat n) (hbmTouch 1 s)))) ∧
  (∀ (off : W64) (d : List Byte) (s : State) (q : Req), s.lay.laid = true → s.lay.img.farMode = false → off.toNat < hbmEnd →
    q = ⟨0x91, 0, BitVec.ofNat 4 (rg s .FP_RP_PART), false⟩ →
    (winVerdict s q .wr off.toNat d.length = okV →
      exec (.downstreamRequest off d.length (some d)) s = .next (after s (wrBytes off.toNat d (hbmTouch 1 s)))) ∧
    (winVerdict s q .wr off.toNat d.length = ⟨stFaultAccess, detTarget (some (chanOf off.toNat))⟩ →
      exec (.downstreamRequest off d.length (some d)) s = .next (after s (evt Ev.ACCESS_VIOLATION q off.toNat s)))) ∧
  (∀ (f : BitVec 7) (reg : BitVec 10) (be : BitVec 4) (wr : Option W32) (s : State), s.pm.step < 8 → s.pm.romRec = false →
    exec (.pcieConfigRequest f reg be wr) s = .next (after s (send Mk.cfgRetry [f.toNat, reg.toNat] [] s))) ∧
  (∀ (f : BitVec 7) (reg : BitVec 10) (be : BitVec 4) (s : State), 8 ≤ s.pm.step → s.hp.up = true →
    fnExists s f.toNat = true →
    exec (.pcieConfigRequest f reg be none) s =
      .next (after s (send Mk.cfgData [f.toNat, reg.toNat] (leBytes 4 (cfgRead s f.toNat reg.toNat).toNat) s)))

/-- A Harah link in service (R428-R430, R436): a packet in order is accepted and its acknowledgement owed, the packets it
acknowledges leave the replay buffer, one ahead or with a failed CRC is answered NAK once; the replay, NAK, acknowledgement and
control timers send again what is due; packets that wait too long for adaptive credits leave the adaptive channels. -/
def Obligations.HarahLinksCarryPackets : Prop :=
  (∀ (k : Fin 12) (seq ack : BitVec 12) (cvc : Fin 8) (credits : BitVec 12) (s : State) (l : HLink) (n : Nat), isHarah s k = true →
    linkOf s k = l → l.st = .up → l.wait = [] →
    n = (if (ack.toNat + 1 + 4096 - (l.txSeq + 4096 - l.unacked.length) % 4096) % 4096 ≤ l.unacked.length then
      (ack.toNat + 1 + 4096 - (l.txSeq + 4096 - l.unacked.length) % 4096) % 4096 else 0) →
    (l.rxSeq = seq.toNat →
      ∃ t, exec (.linkPacketRx k true 0 seq ack false cvc credits) s = .next t ∧
        linkOf t k = { l with
          credit := nmod l.credit cvc 0 (· + credits.toNat), unacked := l.unacked.drop n, ackAt := if n = 0 then l.ackAt else now s
          runs := if n = 0 then l.runs else 0, rxSeq := (l.rxSeq + 1) % 4096, rx := l.rx + 1, naking := false, owed := true
          owedAt := if l.owed then l.owedAt else now s } ∧
        (∀ j, j ≠ k.val → linkOf t j = linkOf s j) ∧ t.tx = s.tx ∧ t.regs = s.regs ∧ t.recs = s.recs ∧ SameMem s t) ∧
    ((seq.toNat + 4096 - l.rxSeq) % 4096 ≠ 0 → (seq.toNat + 4096 - l.rxSeq) % 4096 < 2049 → l.naking = false →
      ∃ t, exec (.linkPacketRx k true 0 seq ack false cvc credits) s = .next t ∧ (linkOf t k).naking = true ∧
        (linkOf t k).rxSeq = l.rxSeq ∧ (linkOf t k).rx = l.rx ∧ t.tx = s.tx ++ [⟨Mk.harahAck, [k, (l.rxSeq + 4095) % 4096, 1], []⟩]) ∧
    (∀ kind nak, l.naking = false → ∃ t, exec (.linkPacketRx k false kind seq ack nak cvc credits) s = .next t ∧
      (linkOf t k).naking = true ∧ (linkOf t k).unacked = l.unacked ∧ (linkOf t k).credit = l.credit ∧
      t.tx = s.tx ++ [⟨Mk.harahAck, [k, (l.rxSeq + 4095) % 4096, 1], []⟩] ∧
      ctrGet .HF_LK_CRC_FAIL_CNT k 16 t = (ctrGet .HF_LK_CRC_FAIL_CNT k 16 s + 1) % 2 ^ 64)) ∧
  (∀ (k : Fin 12) (s : State) (l : HLink), linkOf s k = l →
    (linkSends l = true → l.unacked ≠ [] → l.ackAt + 4000 ≤ now s → l.runs + 1 < rg s .HF_REPLAY_LIMIT →
      ∃ t, exec (.replayTimeout k) s = .next t ∧
        linkOf t k = { l with replayed := l.replayed + l.unacked.length, ackAt := now s, owed := false, runs := l.runs + 1 } ∧
        t.tx = s.tx ++ [⟨Mk.harahReplay, [k, (l.txSeq + 4096 - l.unacked.length) % 4096, l.unacked.length], []⟩] ∧
        t.regs = s.regs) ∧
    (l.st = .up → l.unacked ≠ [] → l.ackAt + 4000 ≤ now s → max 1 (rg s .HF_REPLAY_LIMIT) ≤ l.runs + 1 →
      ∃ t, exec (.replayTimeout k) s = .next t ∧ (linkOf t k).st = .retraining ∧ (linkOf t k).unacked = l.unacked ∧
        (linkOf t k).ownReq = some 1) ∧
    (linkHears l = true → l.naking = true → l.nakAt + 2000 ≤ now s →
      ∃ t, exec (.nakResendTimer k) s = .next t ∧ linkOf t k = { l with owed := false, nakAt := now s } ∧
        t.tx = s.tx ++ [⟨Mk.harahAck, [k, (l.rxSeq + 4095) % 4096, 1], []⟩]) ∧
    (linkHears l = true → l.owed = true → l.owedAt + 100 ≤ now s →
      ∃ t, exec (.ackTimer k) s = .next t ∧ linkOf t k = { l with owed := false } ∧
        t.tx = s.tx ++ [⟨Mk.harahAck, [k, (l.rxSeq + 4095) % 4096, 0], []⟩]) ∧
    (l.st ≠ .disabled → l.st ≠ .down → l.ctl ≠ [] → l.ctlAt + 2000 ≤ now s →
      ∃ t, exec (.controlRepeatTimer k) s = .next t ∧ linkOf t k = { l with ctlAt := now s } ∧ t.tx = s.tx ++ l.ctl)) ∧
  (∀ (k : Fin 12) (s : State),
    ∃ t, exec (.adaptiveEscapeTimeout k) s = .next t ∧ t.recs = s.recs ∧ SameMem s t ∧ t.hf.reqs = s.hf.reqs ∧
      (∀ x ∈ (linkOf t k).wait, (x.vc = 1 ∨ x.vc = 3) → x.since + 1000 ≤ now s → escQuad s x.dst = 0xF))

/-- The states of a Harah link (R427, R431-R434): ENABLE trains it; trained at a width in bounds it is UP with its peer; training
that takes too long starts again; DRAIN ends it once nothing is outstanding, ABORT at once under a new epoch; RETRAIN and too
little width retrain it, and a retraining that takes too long brings it DOWN, to be trained again. Lanes lost change its width by
agreement: the request goes out, the answer or the peer's request fixes it, and it is UP at the new one. -/
def Obligations.HarahLinksTrainChangeWidthAndFall : Prop :=
  (∀ (q : Req) (k : Fin 12) (s : State) (l : HLink), Allowed q .HF_LK_CTL k s → isHarah s k = true → linkOf s k = l →
    (l.st = .disabled → l.fenced = false →
      ∃ t, exec (.linkEnable q k true) s = .next t ∧
        linkOf t k = { l with st := .training, since := now s, width := 0, lanes := 0, good := 0xF } ∧
        bit (rg t .HF_LK_CTL k) 0 = true ∧ t.tx.length = s.tx.length + 1) ∧
    (l.st = .up → l.wait = [] → l.unacked = [] →
      ∃ t, exec (.linkDrain q k) s = .next t ∧ (linkOf t k).st = .disabled ∧ bit (rg t .HF_LK_CTL k) 0 = false) ∧
    (l.st = .up → l.wait = [] → l.unacked ≠ [] →
      ∃ t, exec (.linkDrain q k) s = .next t ∧ (linkOf t k).st = .draining ∧ (linkOf t k).unacked = l.unacked) ∧
    (l.st ≠ .disabled →
      ∃ t, exec (.linkAbort q k) s = .next t ∧ (linkOf t k).st = .disabled ∧ (linkOf t k).epoch = l.epoch + 1 ∧
        (linkOf t k).unacked = [] ∧ bit (rg t .HF_LK_CTL k) 0 = false) ∧
    (l.st = .up ∨ l.st = .widthChange →
      ∃ t, exec (.linkRetrain q k) s = .next t ∧ (linkOf t k).st = .retraining ∧ (linkOf t k).since = now s ∧
        (linkOf t k).ownReq = some 1 ∧ (linkOf t k).unacked = l.unacked ∧ (linkOf t k).txSeq = l.txSeq ∧
        t.tx = s.tx ++ [⟨Mk.harahRetrainReq, k :: ctlId s, []⟩])) ∧
  (∀ (k : Fin 12) (good theirs : BitVec 4) (x : Peer) (credits : BitVec 12) (rtt : BitVec 16) (s : State) (l : HLink) (w : Nat × Nat),
    isHarah s k = true → linkOf s k = l → (l.st = .training ∨ l.st = .retraining) → w = pickWidth (good.toNat &&& theirs.toNat) →
    w.1 ≠ 0 → minWidth s k ≤ w.1 → l.again = none →
    ∃ t, exec (.trainingDone k good theirs x credits rtt) s = .next t ∧ (linkOf t k).st = .up ∧ (linkOf t k).width = w.1 ∧
      (linkOf t k).lanes = w.2 ∧ (linkOf t k).peerUid = x.uid.toNat ∧ (linkOf t k).rtt = rtt.toNat ∧
      (l.st = .training → l.wait = [] → (linkOf t k).txSeq = 0 ∧ (linkOf t k).rxSeq = 0 ∧ (linkOf t k).unacked = [])) ∧
  (∀ (k : Fin 12) (s : State) (l : HLink), linkOf s k = l →
    (l.st = .training → l.since + 10000000 ≤ now s →
      ∃ t, exec (.trainingTimeout k) s = .next t ∧
        linkOf t k = { l with st := .training, since := now s, width := 0, lanes := 0 } ∧
        ctrGet .HF_LK_TRAIN_FAIL_CNT k 16 t = (ctrGet .HF_LK_TRAIN_FAIL_CNT k 16 s + 1) % 2 ^ 64) ∧
    (l.st = .retraining → l.since + 1000000 * rg s .HF_LK_DOWN_MS k ≤ now s →
      ∃ t, exec (.linkDownTimeout k) s = .next t ∧ (linkOf t k).st = .down ∧ (linkOf t k).epoch = l.epoch + 1 ∧
        (linkOf t k).unacked = []) ∧
    (l.st = .down → l.since + 1000000 ≤ now s →
      ∃ t, exec (.downRetryTimer k) s = .next t ∧
        linkOf t k = { l with st := .training, since := now s, width := 0, lanes := 0, good := 0xF }) ∧
    (∀ (lost : BitVec 4) (uncorr : BitVec 8), l.st = .up → l.lanes &&& lost.toNat ≠ 0 →
      (l.good &&& (0xF ^^^ lost.toNat) ≠ 0 →
        ∃ t, exec (.laneFailure k lost uncorr) s = .next t ∧ (linkOf t k).st = .widthChange ∧
          (linkOf t k).good = l.good &&& (0xF ^^^ lost.toNat) ∧ (linkOf t k).ownReq = some 0 ∧
          t.tx = s.tx ++ [⟨Mk.harahWidthReq, k :: (l.good &&& (0xF ^^^ lost.toNat)) :: ctlId s, []⟩]) ∧
      (l.good &&& (0xF ^^^ lost.toNat) = 0 →
        ∃ t, exec (.laneFailure k lost uncorr) s = .next t ∧ (linkOf t k).st = .retraining)) ∧
    (∀ (mask : BitVec 4) (dev : Option (BitVec 16)) (uid : BitVec 128), (l.st = .up ∨ l.st = .widthChange) →
      (l.st = .up → pickWidth (l.good &&& mask.toNat) ≠ (l.width, l.lanes)) →
      minWidth s k ≤ (pickWidth (l.good &&& mask.toNat)).1 →
      (l.ownReq = some 0 → ∃ t, exec (.widthReq k mask dev uid true) s = .next t ∧ (linkOf t k).st = .widthChange ∧
        (linkOf t k).want = some (pickWidth (l.good &&& mask.toNat)) ∧ (linkOf t k).ownReq = none ∧ t.tx = s.tx) ∧
      (l.ownReq = none → ∃ t, exec (.widthReq k mask dev uid false) s = .next t ∧ (linkOf t k).st = .widthChange ∧
        (linkOf t k).want = some (pickWidth (l.good &&& mask.toNat)) ∧
        t.tx = s.tx ++ [⟨Mk.harahWidthAnswer, [k, l.good], []⟩])) ∧
    (∀ w, l.want = some w → l.st = .widthChange → l.again = none →
      ∃ t, exec (.widthChangeDone k) s = .next t ∧ (linkOf t k).st = .up ∧ (linkOf t k).width = w.1 ∧ (linkOf t k).lanes = w.2 ∧
        (linkOf t k).want = none) ∧
    (∀ (dev : Option (BitVec 16)) (uid : BitVec 128), (l.st = .up ∨ l.st = .widthChange) →
      ∃ t, exec (.retrainReq k dev uid false) s = .next t ∧ (linkOf t k).st = .retraining ∧ (linkOf t k).unacked = l.unacked ∧
        t.tx = s.tx ++ [⟨Mk.harahRetrainAnswer, [k], []⟩]) ∧
    (∀ (dev : Option (BitVec 16)) (uid : BitVec 128), l.ownReq = some 1 →
      ∃ t, exec (.retrainReq k dev uid true) s = .next t ∧ (linkOf t k).ownReq = none ∧ (linkOf t k).st = l.st ∧ t.tx = s.tx))

/-- Requests over Harah (R437-R452, R458, R461): an admitted READ is answered with the bytes, a STORE or RING_DATA performed and
acknowledged, an ATOMIC performed with its old value answered, a unit message given to its unit. The response to a mailbox's
request ends it and frees the mailbox, as the timeout does with TARGET_RESET; held requests leave once nothing sent on the old
route is outstanding. A mailbox's command to another device goes out as a request; a FENCE with nothing outstanding is DONE at once. -/
def Obligations.HarahRequestsAreServedAndAnswered : Prop :=
  (∀ (k : Fin 12) (h : HfHdr) (s : State), hfMember s = true → hfAge s h.birth.toNat ≤ rg s .HF_LIFE_US →
    h.dst.toNat = s.hf.devId →
    (∀ len, hfVerdict s k h .rd len = okV → h.off.toNat < regBase → poisoned s h.off.toNat len = false →
      ∃ t m, exec (.harahRead k h len) s = .next (after s t) ∧ SameMem s t ∧
        t.tx = s.tx ++ m ++ [⟨Mk.harahRsp, [0x81, stDone, h.src.toNat, 0, h.tag.toNat], rdBytes s h.off.toNat len⟩]) ∧
    (∀ data, hfVerdict s k h .wr data.length = okV → h.off.toNat < regBase →
      (∃ t m, exec (.harahStore k h data) s = .next (after s t) ∧ t.mem = memWrite s.mem h.off.toNat data ∧ t.hmem = s.hmem ∧
        t.tx = s.tx ++ m ++ [⟨Mk.harahRsp, [0x82, stDone, h.src.toNat, 0, h.tag.toNat], []⟩]) ∧
      (∃ t m, exec (.harahRingData k h data none) s = .next (after s t) ∧ t.mem = memWrite s.mem h.off.toNat data ∧
        t.hmem = s.hmem ∧ t.tx = s.tx ++ m ++ [⟨Mk.harahRsp, [0x82, stDone, h.src.toNat, 0, h.tag.toNat], []⟩]) ∧
      (∀ e, ∃ u m, exec (.harahRingData k h data (some e)) s = .next (after s
          (shardArrived e.c e.layer.toNat e.pass.toNat e.origin.toNat e.tokens.toNat e.log.toNat u)) ∧
        u.mem = memWrite s.mem h.off.toNat data ∧ u.spn = s.spn ∧
        u.tx = s.tx ++ m ++ [⟨Mk.harahRsp, [0x82, stDone, h.src.toNat, 0, h.tag.toNat], []⟩])) ∧
    (∀ (aop : BitVec 4) (x cmp : W64) a v, a = h.off.toNat / 8 * 8 → hfVerdict s k { h with off := BitVec.ofNat 48 a } .at 8 = okV → atomicBarred a = false →
      atomicNew aop.toNat (rdNat s a 8) x.toNat cmp.toNat = some v → poisoned s a 8 = false →
      ∃ t m, exec (.harahAtomic k h aop x cmp) s = .next (after s t) ∧ t.mem = memWrite s.mem a (leBytes 8 v) ∧ t.hmem = s.hmem ∧
        t.tx = s.tx ++ m ++ [⟨Mk.harahRsp, [0x83, stDone, h.src.toNat, 0, h.tag.toNat], leBytes 8 (rdNat s a 8)⟩]) ∧
    (∀ m, isConf s h.part.toNat = false → axAdmits s (hfReq k h) .wr 384 = true →
      exec (.harahUnitMsg k h m) s = .next (after s (unitMsg h.src.toNat h.tag.toNat m s)))) ∧
  (∀ (x : HfRsp) (data : List Byte) (s : State) (r : HfReq) (p : Nat), hfMember s = true → x.dst.toNat = s.hf.devId →
    hfAge s x.birth.toNat ≤ 2 * rg s .HF_LIFE_US → reqOf s x.tag.toNat = some r → r.dst = x.src.toNat → r.what = .mailbox p →
    ∃ t, exec (.harahResponse x data) s = .next (after s t) ∧ reqOf t x.tag.toNat = none ∧ (boxOf t p).busy = false ∧
      (boxOf t p).status = x.st.toNat ∧ (boxOf t p).result = (if x.st.toNat = stDone ∧ r.ty ≠ 2 then leNat data else (boxOf s p).result) ∧
      t.recs = s.recs ∧ SameMem s t) ∧
  (∀ (tag : BitVec 16) (s : State) (r : HfReq) (p : Nat), reqOf s tag.toNat = some r → r.held = false →
    r.birth + e2eNs s ≤ now s → r.what = .mailbox p →
    ∃ t, exec (.e2eTimeout tag) s = .next (after s t) ∧ reqOf t tag.toNat = none ∧ (boxOf t p).busy = false ∧
      (boxOf t p).status = stTargetReset ∧ t.recs = s.recs ∧ SameMem s t) ∧
  (∀ (d : BitVec 16) (s : State), s.hf.holdDst.contains d.toNat = true → orderedOut s d.toNat = false →
    ∃ t, exec (.routeHoldRelease d) s = .next (after s t) ∧ d.toNat ∉ t.hf.holdDst ∧
      (∀ r ∈ t.hf.reqs, r.dst = d.toNat → r.held = false) ∧ t.recs = s.recs ∧ SameMem s t) ∧
  (∀ (q : Req) (p : Fin 16) (s : State), Allowed q .HF_RA_CMD p s → isConf s p = false → (boxOf s p).busy = false →
    hfMember s = true → boxAddr s p / 2 ^ 48 ≠ s.hf.devId → escQuad s (boxAddr s p / 2 ^ 48) ≠ 0xF →
    (∀ (size8 : Bool) n, n = (if size8 then 8 else 4) → boxAddr s p % 2 ^ 48 % n = 0 →
      (∃ t, exec (.hfRaRead q p size8) s = .next (after s t) ∧ (boxOf t p).busy = true ∧
        (∃ r ∈ t.hf.reqs, r.what = .mailbox p ∧ r.ty = tyRead ∧ r.dst = boxAddr s p / 2 ^ 48 ∧ r.off = boxAddr s p % 2 ^ 48 ∧
          r.len = n ∧ r.tag = s.hf.tagNext) ∧ t.recs = s.recs ∧ SameMem s t) ∧
      (∃ t, exec (.hfRaStore q p size8) s = .next (after s t) ∧ (boxOf t p).busy = true ∧
        (∃ r ∈ t.hf.reqs, r.what = .mailbox p ∧ r.ty = tyStore ∧ r.dst = boxAddr s p / 2 ^ 48 ∧ r.off = boxAddr s p % 2 ^ 48 ∧
          r.len = n ∧ r.tag = s.hf.tagNext) ∧ t.recs = s.recs ∧ SameMem s t)) ∧
    (∀ (aop : BitVec 4), boxAddr s p % 2 ^ 48 % 8 = 0 →
      ∃ t, exec (.hfRaAtomic q p aop) s = .next (after s t) ∧ (boxOf t p).busy = true ∧
        (∃ r ∈ t.hf.reqs, r.what = .mailbox p ∧ r.ty = tyAtomic ∧ r.aop = aop.toNat ∧ r.dst = boxAddr s p / 2 ^ 48 ∧
          r.off = boxAddr s p % 2 ^ 48 ∧ r.tag = s.hf.tagNext) ∧ t.recs = s.recs ∧ SameMem s t)) ∧
  (∀ (q : Req) (p : Fin 16) (s : State), Allowed q .HF_RA_CMD p s → isConf s p = false → (boxOf s p).busy = false →
    storesTo s (boxAddr s p / 2 ^ 48) = [] →
    ∃ t, exec (.hfRaFence q p) s = .next (after s t) ∧ (boxOf t p).busy = false ∧ (boxOf t p).status = stDone ∧
      t.hf.reqs = s.hf.reqs ∧ t.tx = s.tx ∧ t.recs = s.recs ∧ SameMem s t)

/-- The span (R441-R445, R453-R457): discovery and route messages are answered and taken; routes install; an ID is taken and
retained; the standby takes over from a silent marshal, a marshal recomputes and yields. A measurement in bounds is slewed, the
first sixteen in a row lock and step; beyond 1 ms the device stops until RESTEP; PTP messages give path delay and offset; PPS_IN
is timestamped and PPS_OUT rises at whole seconds. -/
def Obligations.TheSpanItsMarshalAndItsTime : Prop :=
  (∀ (k : Fin 12) (s : State), (linkOf s k).st = .up →
    exec (.discoveryMessage k .answer) s = .next (ctlDone k Mk.harahDiscovery s) ∧
    (∀ uid id, s.hf.marshalId ≠ id.toNat → ∃ t m, exec (.discoveryMessage k (.marshal uid id)) s = .next t ∧
      t.hf.marshalId = id.toNat ∧ t.hf.marshalAt = now s ∧ t.tx = s.tx ++ ⟨Mk.harahAnswer, [k], []⟩ :: m) ∧
    (∀ uid d e, uid.toNat = ownUid → ∃ t, exec (.discoveryMessage k (.routes uid [(d, e)])) s = .next t ∧
      routeOf t d.toNat = e.toNat ∧ t.hf.routed = true ∧ t.tx = s.tx ++ [⟨Mk.harahAnswer, [k], []⟩])) ∧
  (∀ (d e : BitVec 16) (s : State), ∃ t, exec (.routeUpdate [(d, e)]) s = .next (after s t) ∧ routeOf t d.toNat = e.toNat ∧
    (∀ j, j ≠ d.toNat → routeOf t j = routeOf s j) ∧ t.hf.routed = true ∧ t.recs = s.recs ∧ SameMem s t) ∧
  (∀ (id : BitVec 16) (s : State), ∃ t, exec (.idAssign id) s = .next t ∧ t.hf.idValid = true ∧ t.hf.devId = id.toNat ∧
    nget t.pm.backup 2 = some (id.toNat + 65536) ∧ t.recs = s.recs ∧ SameMem s t) ∧
  (∀ (s : State), s.hf.standby = true → s.hf.marshalAt + 10000000 ≤ now s →
    exec .marshalSilence s = .next { s with
      hf.marshal := true, hf.standby := false, hf.marshalId := s.hf.devId, hf.marshalAt := now s }) ∧
  (∀ (q : Req) (s : State), Allowed q .HF_CTL 0 s →
    (s.hf.marshal = true → ∃ t, exec (.rediscover q) s = .next t ∧ t.hf.routed = true ∧ t.hf.marshalId = t.hf.devId ∧
      t.recs = s.recs ∧ SameMem s t) ∧
    (∀ b, s.hf.marshal = true → bestOf ((marshalCandidates s).filter fun n => n.uid != ownUid) = some b →
      ∃ t, exec (.yieldMarshal q) s = .next t ∧ t.hf.marshal = false ∧ t.hf.standby = true ∧
        (∀ i, b.id = some i → t.hf.marshalId = i)) ∧
    (s.hf.time.stopped = true → ∃ t, exec (.restep q) s = .next t ∧
      t.span = BitVec.ofInt 80 ((now s : Int) + s.hf.time.last) ∧ t.hf.time.stopped = false ∧ t.recs = s.recs ∧ SameMem s t)) ∧
  (∀ (k : Fin 12) (t1 : BitVec 80) (rtt : W32) (s : State) (off : Int), timeSrc s = 4 → s.hf.marshal = false → (linkOf s k).st = .up →
    (nget s.hf.links k).isSome = true → off = (t1.toNat : Int) + (rtt.toNat / 2 : Nat) - now s →
    (s.hf.time.everLock = true → s.hf.time.stopped = false → (off.natAbs : Int) ≤ lockNs s → off.natAbs ≤ 1000000 →
      ∃ t, exec (.timeSync k t1 rtt) s = .next t ∧ t.hf.time.slew = off ∧ t.hf.time.last = off ∧
        t.hf.time.inRow = s.hf.time.inRow + 1 ∧ t.hf.time.outRow = 0 ∧ t.span = s.span ∧
        t.hf.time.locked = (s.hf.time.locked || decide (16 ≤ s.hf.time.inRow + 1))) ∧
    (s.hf.time.everLock = true → s.hf.time.stopped = false → 1000000 < off.natAbs →
      ∃ t, exec (.timeSync k t1 rtt) s = .next t ∧ t.hf.time.stopped = true ∧ t.hf.time.locked = false ∧ t.hf.time.slew = 0 ∧
        t.span = s.span) ∧
    (s.hf.time.everLock = false → s.hf.time.inRow = 15 → ((off - s.hf.time.last).natAbs : Int) ≤ lockNs s →
      ∃ t, exec (.timeSync k t1 rtt) s = .next t ∧ t.hf.time.locked = true ∧ t.hf.time.stepped = true ∧
        t.span = BitVec.ofInt 80 ((now s : Int) + off))) ∧
  (∀ (port : Fin 3) (s : State), ptpPort (timeSrc s) = some port.val →
    (∃ t, exec (.ptpMessage port (.sync none)) s = .next t ∧ t.hf.time.t1 = none ∧ t.hf.time.t2 = now s ∧ t.hf.time.t3 = now s ∧
      t.tx = s.tx ++ [⟨Mk.ptpDelayReq, [port, now s], []⟩] ∧ t.span = s.span) ∧
    (∀ t1 t4, s.hf.time.t1 = some t1 → exec (.ptpMessage port (.delayResp t4)) s = .next { s with
      hf.time.path := ((s.hf.time.t2 - t1) + ((t4.toNat : Int) - s.hf.time.t3)) / 2 })) ∧
  (∀ (s : State), s.hf.time.coarse = none → exec .ppsInEdge s = .next { s with hf.time.ppsTs := now s }) ∧
  (∀ (s : State), s.hf.time.locked = true → bit (rg s .HF_TIME_CFG) 3 = true → now s % 1000000000 = 0 →
    exec .ppsOutSecond s = .next { s with hf.time.ppsOut := true, hf.time.ppsAt := now s })

/-- Signed commands (R479-R482, R484): GO on the 280 bytes at HW_CMD_ADDR ends in the first check that fails, and the nonce is
regenerated whatever the result (its value is free); accepted, ENROL and REMOVE change the store in both flash chips and advance
the fuse counter, INJ_AUTHORISE opens injection until EXPIRY or a day of LCLK, INJ_REVOKE ends it; refused, nothing else changes. -/
def Obligations.SignedCommandsChangeTheStoreOrNothing : Prop :=
  ∀ (q : Req) (s : State) (c : List Byte), Allowed q .HW_CMD_CTL 0 s → cmdBusy s = false → s.hw.restarting = none → s.hp.up = true →
    c = memRead s.hmem (rg64 s .HW_CMD_ADDR_LO .HW_CMD_ADDR_HI 0 % 2 ^ 63) 280 →
    ∀ (op : Nat) (i : Instr) (sig : Bool),
      (op, i, sig) ∈ [(1, .hwCmdEnrol q sig, sig), (1, .hwCmdFreshEnrol q, false), (2, .hwCmdRemove q sig, sig),
        (3, .injAuthorise q sig, sig), (4, .injRevoke q sig, sig)] →
      ∃ t, exec i s = .next t ∧ t.hw.cmdRes = cmdResult s op (fromPf0 q) c sig ∧ t.hw.nonce = Config.free s.fv % 2 ^ 256 ∧
        t.recs = s.recs ∧ t.tx = s.tx ∧ t.regs = s.regs ∧ SameMem s t ∧
        (cmdResult s op (fromPf0 q) c sig ≠ 0 → t = { s with
          hw.cmdRes := cmdResult s op (fromPf0 q) c sig, hw.nonce := Config.free s.fv % 2 ^ 256, fv := s.fv + 1, ctr := t.ctr }) ∧
        (cmdResult s op (fromPf0 q) c sig = 0 →
          (op = 1 → nget t.hw.store (bAt c 56 1) = some ⟨bAt c 57 1, beNat ((c.drop 60).take 96)⟩ ∧
            ∀ k, k ≠ bAt c 56 1 → nget t.hw.store k = nget s.hw.store k) ∧
          (op = 2 → nget t.hw.store (bAt c 56 1) = none ∧ ∀ k, k ≠ bAt c 56 1 → nget t.hw.store k = nget s.hw.store k) ∧
          (op ≤ 2 → t.hw.fuses = s.hw.fuses + 1 ∧ s.hw.fuses < 127 ∧ t.pm.chipA.store = some (t.hw.fuses, t.hw.store) ∧
            t.pm.chipB.store = some (t.hw.fuses, t.hw.store) ∧ t.ax = s.ax) ∧
          (2 < op → t.hw.store = s.hw.store ∧ t.hw.fuses = s.hw.fuses ∧ t.pm = s.pm) ∧
          (op = 3 → t.ax.injOn = true ∧ t.ax.injExp = bAt c 56 10 ∧ t.ax.injLclk = s.uptime + 86400000000000 ∧
            now s < t.ax.injExp ∧ t.ax.injExp ≤ now s + 86400000000000) ∧
          (op = 4 → t.ax.injOn = false ∧ t.ax.armed = []))

/-- Heartwood's restarts and keys (R467, R470, R472-R475). ACTIVATE ends sessions and destroys what was released
without KEEP_ON_UPDATE; at its end the new firmware runs, or the old one where the new fails its check. A key request that the
checks admit installs the key under its partition and binds the owner, or destroys it; one refused changes nothing but its
count. -/
def Obligations.HeartwoodRestartsReleasesAndRevokes : Prop :=
  (∀ (q : Req) (slot : Bool) (s : State), Allowed q .HW_FW_CTL 0 s → s.hw.restarting = none →
    ∃ t, exec (.hwActivate q slot) s = .next t ∧ t.hw.restarting = some (if slot then 1 else 0) ∧ t.hw.ready = false ∧
      t.hw.sess = [] ∧ (∀ e ∈ t.wkeys, e ∈ s.wkeys ∧ e.1 ∈ s.hw.keep) ∧ (∀ e ∈ t.hp.seals, e ∈ s.hp.seals ∧ e.1 ∈ s.hw.keepCtx)) ∧
  (∀ (s : State) (slot : Nat), s.hw.restarting = some slot → s.hw.held = [] →
    (fwOk (chipOf s slot).hw = true → exec .heartwoodRestartDone s = .next (after s { s with
      hw.fw := (chipOf s slot).hw, hw.fwSlot := slot, hw.restarting := none, hw.ready := true, hw.held := [] })) ∧
    (fwOk (chipOf s slot).hw = false → ∃ t, exec .heartwoodRestartDone s = .next (after s t) ∧ t.hw.fw = s.hw.fw ∧
      t.hw.fwSlot = s.hw.fwSlot ∧ t.hw.restarting = none ∧ t.hw.ready = true)) ∧
  (∀ (v : Via) (sid : W32) (r : List Byte) (s : State) (x : HwSess) (leaf p : Nat), viaOpen s v = true → s.hw.ready = true →
    sessOf s sid.toNat = some x → x.via = viaCode v → x.leaf = some leaf → krPart r = p →
    (∀ (key : BitVec 256), krOk 1 r = true → releaseCode s leaf r (some key.toNat) = 0 →
      ∃ t, exec (.keyRelease v sid r (some key)) s = .next t ∧
        (krKind r = 1 → nget t.wkeys (p * 2 ^ 32 + krId r) = some key.toNat ∧ t.hp = s.hp) ∧
        (krKind r = 2 → nget t.hp.seals (krId r) = some ⟨p, key.toNat, 0, 0, []⟩ ∧ t.wkeys = s.wkeys) ∧
        ownerHash t p = some ((ownerHash s p).getD (leafHash leaf)) ∧
        ctrGet .HW_RELEASE_CNT 0 p t = (ctrGet .HW_RELEASE_CNT 0 p s + 1) % 2 ^ 64 ∧
        t.tx = s.tx ++ [⟨Mk.spdm, [x.via, 0x7E], [0]⟩] ∧ t.recs = s.recs ∧ SameMem s t) ∧
    (∀ (key : Option (BitVec 256)) c, krOk 1 r = true → releaseCode s leaf r (key.map (·.toNat)) = c → c ≠ 0 →
      exec (.keyRelease v sid r key) s = .next (send Mk.spdm [x.via, 0x7E] (leBytes 1 c)
        (ctrAdd .HW_RELEASE_REFUSE_CNT c p 1 s))) ∧
    (krOk 2 r = true → (partPlan s p).isSome = true → ownerHash s p = some (leafHash leaf) →
      ∃ t, exec (.keyRevoke v sid r) s = .next t ∧ (krKind r = 1 → nget t.wkeys (p * 2 ^ 32 + krId r) = none) ∧
        (krKind r = 2 → ∀ y, nget s.hp.seals (krId r) = some y → y.part = p → nget t.hp.seals (krId r) = none)) ∧
    (krOk 2 r = true → (partPlan s p).isSome = true → ownerHash s p ≠ some (leafHash leaf) →
      exec (.keyRevoke v sid r) s = .next (send Mk.spdm [x.via, 0x7E] (leBytes 1 2) s)) ∧
    (∀ l, krOk 3 r = true → (partPlan s p).isSome = true → ngetD s.plog p plog0 = l →
      exec (.getPartLog v sid r) s = .next (send Mk.spdm [x.via, 0x7E]
        (leBytes 1 (if l.excess then 1 else 0) ++ leBytes 2 l.recs.length ++ l.recs.flatten) s)))

/-- The SPDM responder (R466, R469, R471): each request of the negotiation is answered once the one before it was; certificates
come from slot 0; measurements are signed; at most eight sessions are open, a session needs its FINISH, and lives on its own
transport; large messages go in chunks. Response codes are SPDM's (log: presumed, the spec cites the protocol). -/
def Obligations.SpdmRequestsAreAnswered : Prop :=
  ∀ (v : Via) (s : State), viaOpen s v = true → s.hw.ready = true →
    exec (.getVersion v) s =
      .next (send Mk.spdm [viaCode v, 0x04] [0x12, 0x13] { s with hw.stage := nset s.hw.stage (viaCode v) 1 }) ∧
    (∀ n, ngetD s.hw.stage (viaCode v) 0 = n →
      (1 ≤ n → exec (.getCapabilities v) s =
        .next (send Mk.spdm [viaCode v, 0x61] [] { s with hw.stage := nset s.hw.stage (viaCode v) 2 })) ∧
      (n < 1 → exec (.getCapabilities v) s = .next (send Mk.spdm [viaCode v, 0x7F] [4] s)) ∧
      (2 ≤ n → exec (.negotiateAlgorithms v true) s =
        .next (send Mk.spdm [viaCode v, 0x63] [] { s with hw.stage := nset s.hw.stage (viaCode v) 3 }) ∧
        exec (.negotiateAlgorithms v false) s = .next (send Mk.spdm [viaCode v, 0x7F] [1] s)) ∧
      (n < 3 → exec (.keyExchange v) s = .next (send Mk.spdm [viaCode v, 0x7F] [4] s)) ∧
      (3 ≤ n → ∀ c, Config.certChain s.hw.fw.digest = c →
        exec (.getDigests v) s = .next (send Mk.spdm [viaCode v, 0x01] (sha384 c) s) ∧
        (∀ (off len : W16) buf, exec (.getCertificate v 0 off len buf) s = .next (send Mk.spdm [viaCode v, 0x02]
          (((c.drop off.toNat).take len.toNat).take buf)
          { s with hw.chunkOut := nset s.hw.chunkOut (viaCode v) (((c.drop off.toNat).take len.toNat).drop buf) })) ∧
        (∀ (k : BitVec 4) (off len : W16) buf, k ≠ 0 →
          exec (.getCertificate v k off len buf) s = .next (send Mk.spdm [viaCode v, 0x7F] [1] s)) ∧
        (∀ (w : BitVec 256), exec (.challenge v 0 w) s =
          .next (send Mk.spdm [viaCode v, 0x03] (Config.aliasSign s.hw.fw.digest (leBytes 32 w.toNat)) s)) ∧
        (∀ (i : BitVec 8) (w : BitVec 256) buf m a, ((1 ≤ i.toNat ∧ i.toNat ≤ 11) ∨ (16 ≤ i.toNat ∧ i.toNat < 32)) →
          measBlock s i.toNat = m → m ++ Config.aliasSign s.hw.fw.digest (m ++ leBytes 32 w.toNat) = a →
          exec (.getMeasurements v (some i) w buf) s = .next (send Mk.spdm [viaCode v, 0x60] (a.take buf)
            { s with hw.chunkOut := nset s.hw.chunkOut (viaCode v) (a.drop buf) })) ∧
        (∀ b out, ngetD s.hw.chunk (viaCode v) [] = b → ngetD s.hw.chunkOut (viaCode v) [] = out →
          (∀ data, exec (.chunkSend v data false) s =
            .next (send Mk.spdm [viaCode v, 0x05] [] { s with hw.chunk := nset s.hw.chunk (viaCode v) (b ++ data) }) ∧
            exec (.chunkSend v data true) s = .next (send Mk.spdm [viaCode v, 0x05] (leBytes 4 (b ++ data).length)
              { s with hw.chunk := nset s.hw.chunk (viaCode v) [] })) ∧
          (∀ k, out ≠ [] → exec (.chunkGet v k) s = .next (send Mk.spdm [viaCode v, 0x06] (out.take k)
            { s with hw.chunkOut := nset s.hw.chunkOut (viaCode v) (out.drop k) }))) ∧
        (∀ z, z = s.hw.sessNext + 1 → s.hw.sess.length < 8 → exec (.keyExchange v) s =
          .next (send Mk.spdm [viaCode v, 0x64] (leBytes 4 z)
            { s with hw.sess := s.hw.sess ++ [⟨z, false, none, false, viaCode v⟩], hw.sessNext := z })) ∧
        (8 ≤ s.hw.sess.length → exec (.keyExchange v) s = .next (send Mk.spdm [viaCode v, 0x7F] [3] s)) ∧
        (∀ (sid : W32) (leaf : Option (BitVec 768)) x,
          (s.hw.sess.find? fun x => x.id == sid.toNat && !x.live && x.via == viaCode v) = some x →
          (∃ t, exec (.finish v sid true leaf) s = .next t ∧
            { x with live := true, leaf := leaf.map (·.toNat), mgmt := (leaf.map (·.toNat)).any (mgmtKey s) } ∈ t.hw.sess ∧
            (∀ y ∈ s.hw.sess, y.id ≠ sid.toNat → y ∈ t.hw.sess) ∧ t.tx = s.tx ++ [⟨Mk.spdm, [viaCode v, 0x65], []⟩] ∧
            t.recs = s.recs ∧ SameMem s t) ∧
          (∃ t, exec (.finish v sid false leaf) s = .next t ∧ (∀ y ∈ t.hw.sess, y ∈ s.hw.sess ∧ y.id ≠ sid.toNat) ∧
            t.tx = s.tx ++ [⟨Mk.spdm, [viaCode v, 0x7F], [6]⟩])))) ∧
    (∀ (sid : W32) x, sessOf s sid.toNat = some x →
      (x.via = viaCode v →
        exec (.heartbeat v sid) s = .next (send Mk.spdm [viaCode v, 0x68] (leBytes 4 sid.toNat) s) ∧
        exec (.keyUpdate v sid) s = .next (send Mk.spdm [viaCode v, 0x69] (leBytes 4 sid.toNat) s) ∧
        exec (.endSession v sid) s = .next (send Mk.spdm [viaCode v, 0x6C] (leBytes 4 sid.toNat)
          { s with hw.sess := s.hw.sess.filter fun y => y.id != sid.toNat })) ∧
      (x.via ≠ viaCode v → exec (.heartbeat v sid) s = .next (send Mk.spdm [viaCode v, 0x7F] [4] s)))

/-- Checkpoints and restores (R486-R505). START and EVACUATE with a readable plan and its key take serial LAST + 1, wait for the
sessions that are stepping or moving, and write the shards once none is; a durable shard counts its bytes and is done, or is read
back first under VERIFY; a failed one is written once more, then is lost; the durable manifest commits: the serial is kept, an
evacuation leaves the captured sessions EVACUATED and a checkpoint leaves every session's state. RESTORE of a manifest that
passes its checks begins with group 0; each group's reads bring the next, or lose it; ABORT ends with RESULT 8. -/
def Obligations.CheckpointsCaptureStoreCommitAndRestore : Prop :=
  (∀ (q : Req) (p : Fin 16) (verify : Bool) (s : State) (pl : CkPlan), Allowed q .CK_CTL p s → s.pm.recovery = false →
    (ckOf s p).phase = 0 → (partPlan s p).isSome = true → readPlan s p (rg64 s .CK_PLAN_LO .CK_PLAN_HI p) = some pl →
    (nget s.wkeys (p * 2 ^ 32 + pl.key)).isSome = true → (∀ e ∈ s.ht.slots, slotOf s e.1 = e.2) →
    ∀ (i : Instr) (evac : Bool), (i, evac) ∈ [(.ckStart q p verify, false), (.ckEvacuate q p verify, true)] →
      ∃ t, exec i s = .next (after s t) ∧ (ckOf t p).serial = (ckOf s p).last + 1 ∧ (ckOf t p).last = (ckOf s p).last ∧
        (ckOf t p).evac = evac ∧ (ckOf t p).verify = verify ∧ (ckOf t p).plan = some pl ∧ (ckOf t p).start = now s ∧
        ((∃ e ∈ s.ht.slots, e.2.part = p ∧ capturable e.2 = true ∧ atRest e.2 = false) →
          (ckOf t p).phase = 1 ∧ ∀ n ∈ (ckOf t p).wait, atRest (slotOf s n) = false) ∧
        ((∀ e ∈ s.ht.slots, e.2.part = p → capturable e.2 = true → atRest e.2 = true) →
          (ckOf t p).phase = 2 ∧ (ckOf t p).wait = [])) ∧
  (∀ (q : Req) (p : Fin 16) (s : State), Allowed q .CK_CTL p s → (ckOf s p).phase ≠ 0 → s.pm.recovery = false →
    exec (.ckStart q p false) s = .next (after s (evt Ev.CKPT_BUSY (unitReq 0x70 p) p s)) ∧
    ∃ t, exec (.ckAbort q p) s = .next (after s t) ∧ (ckOf t p).phase = 0 ∧ (ckOf t p).result = 8 ∧
      (ckOf t p).last = (ckOf s p).last ∧ (∀ n, (slotOf t n).st = (slotOf s n).st) ∧ t.recs = s.recs ∧ SameMem s t) ∧
  (∀ (p : Fin 16) (g : Nat) (i : Fin 10) (s : State) (y : CkShard), (ckOf s p).phase = 2 → shardOfCk (ckOf s p) g i = some y →
    (y.st = 0 → ∃ t, exec (.ckShardDurable p g i) s = .next (after s t) ∧
      shardOfCk (ckOf t p) g i = some { y with st := if (ckOf s p).verify then 1 else 2 } ∧
      ctrGet .CK_BYTES_WRITTEN 0 p t = (ctrGet .CK_BYTES_WRITTEN 0 p s + y.bytes.length) % 2 ^ 64 ∧ t.recs = s.recs ∧ SameMem s t) ∧
    (y.st = 0 → y.tries ≠ 0 → ∃ t, exec (.ckShardFail p (some (g, i))) s = .next (after s t) ∧
      shardOfCk (ckOf t p) g i = some { y with lost := true, st := 2 } ∧ t.recs = s.recs ∧ SameMem s t) ∧
    (y.st = 0 → y.tries = 0 → ∃ t z, exec (.ckShardFail p (some (g, i))) s = .next (after s t) ∧
      shardOfCk (ckOf t p) g i = some z ∧ z.tries = 1 ∧ z.bytes = y.bytes ∧ t.mem = s.mem) ∧
    (y.st = 1 → ∀ (d : BitVec 384), d.toNat = beNat (sha384 y.bytes) →
      ∃ t, exec (.ckReadbackDone p g i d) s = .next (after s t) ∧ shardOfCk (ckOf t p) g i = some { y with st := 2 } ∧
        ctrGet .CK_BYTES_READ 0 p t = (ctrGet .CK_BYTES_READ 0 p s + y.bytes.length) % 2 ^ 64 ∧ t.recs = s.recs ∧ SameMem s t) ∧
    (y.st = 1 → y.vfails ≠ 0 → ∀ (d : BitVec 384), d.toNat ≠ beNat (sha384 y.bytes) →
      ∃ t, exec (.ckReadbackDone p g i d) s = .next (after s t) ∧
        shardOfCk (ckOf t p) g i = some { y with lost := true, st := 2 } ∧ t.recs = s.recs ∧ SameMem s t)) ∧
  (∀ (p : Fin 16) (s : State) (x : Ck), ckOf s p = x → x.phase = 3 →
    (∃ t, exec (.ckManifestDurable p) s = .next (after s t) ∧ (ckOf t p).phase = 0 ∧ (ckOf t p).result = 1 ∧
      (ckOf t p).last = x.serial ∧
      (∀ y ∈ x.sess, x.evac = true → withdrawn s y = false → notCaptured x (ckForm x) y = false →
        (slotOf t (hSlot y.handle)).st = .evacuated ∧ nget t.evacBy (hSlot y.handle) = some x.serial) ∧
      (∀ n, (x.evac = false ∨ ∀ y ∈ x.sess, hSlot y.handle ≠ n) → (slotOf t n).st = (slotOf s n).st)) ∧
    (∃ t, exec (.ckShardFail p none) s = .next (after s t) ∧ (ckOf t p).phase = 0 ∧ (ckOf t p).result = 7 ∧
      (ckOf t p).last = x.last ∧ (∀ n, (slotOf t n).st = (slotOf s n).st) ∧ t.recs = s.recs ∧ SameMem s t)) ∧
  (∀ (q : Req) (p : Fin 16) (man : List Byte) (sig : Bool) (s : State) (tier a len pa ra rn : Nat) (pl : CkPlan) (m : List Byte),
    Allowed q .CK_CTL p s → s.pm.recovery = false → (ckOf s p).phase = 0 →
    restoreRec s p = some (tier, a, len, pa, ra, rn) → (partPlan s p).isSome = true → readPlan s p pa = some pl →
    m = (if tier = 4 then memRead s.hmem a len else man.take len) →
    (manifestOk m = false ∨ sig = false → ∃ t, exec (.ckRestore q p man sig) s = .next t ∧ (ckOf t p).phase = 0 ∧
      (ckOf t p).result = 4 ∧ t.ht = s.ht ∧ t.recs = s.recs ∧ SameMem s t) ∧
    (∀ k ckk, manifestOk m = true → sig = true → nget s.wkeys (p * 2 ^ 32 + bAt m 36 4) = some k →
      keyUnwrap k ((m.drop 40).take 40) = some ckk → (m.drop 128).take 128 = shapeBytes s p →
      bAt m 34 1 = s.lay.img.conduct → mPages m ≤ freeT1 s p 0xFF → mGroups m ≠ 0 →
      ∃ t r, exec (.ckRestore q p man sig) s = .next t ∧ (ckOf t p).phase = 4 ∧ (ckOf t p).serial = bAt m 24 8 ∧
        (ckOf t p).progress = 0 ∧ (ckOf t p).restore = some r ∧ r.next = 0 ∧ r.man = m ∧ r.ckk = ckk ∧ r.lost = [] ∧
        t.ht = s.ht ∧ t.recs = s.recs ∧ SameMem s t)) ∧
  (∀ (p : Fin 16) (g : Nat) (rd : List (Fin 10 × Option (List Byte))) (s : State) (r : CkRestore), (ckOf s p).phase = 4 →
    (ckOf s p).restore = some r → r.next = g → g < mGroups r.man →
    (g + 1 < mGroups r.man → ∃ t r', exec (.ckRestoreReadDone p g rd) s = .next (after s t) ∧ (ckOf t p).phase = 4 ∧
      (ckOf t p).restore = some r' ∧ r'.next = g + 1 ∧ r'.man = r.man ∧
      (readGroup r g (rd.map fun e => (e.1.val, e.2)) = none → r'.lost = r.lost ++ [g] ∧ r'.nodes = r.nodes)) ∧
    (g + 1 = mGroups r.man → ∃ t, exec (.ckRestoreReadDone p g rd) s = .next (after s t) ∧ (ckOf t p).phase = 0 ∧
      (ckOf t p).result = 1))

/-- Lanyard's filters, sleep groups and watch mode (R510-R520, R532, R562). A filter's sample moves its output by the EWMA in
saturating s24.8 arithmetic and trips after HOLD samples at or above HI, until an output below LO; a write of its configuration
seeds it. An idle group drains its engines, switches off once they are quiet, and wakes at a doorbell or LY_WAKE_AT; its domains
start in wake order; with every group asleep and HBM untouched the device enters watch mode; telemetry is recorded on time. -/
def Obligations.FiltersGroupsAndWatchMode : Prop :=
  (∀ (f : Fin 64) (w : BitVec 32) (s : State) (x : LyFilter) (k : Nat) (v y : Int), lyRuns s = true → fltOf s f = x → x.due ≤ now s →
    fltKind s f = 1 → fltCounter s f w.toNat = none → fltLevel s f w.toNat = v → k = min 16 (bits (rg s .LY_FLT_CFG f) 6 2) →
    y = sat32 (x.y + sat32 (v - x.y) / (2 ^ k : Nat)) →
    ∃ t, exec (.filterSample f w) s = .next t ∧ (fltOf t f).y = y ∧ (fltOf t f).p = x.p ∧
      now s < (fltOf t f).due ∧ (fltOf t f).due ≤ now s + fltPeriod s f ∧ ((fltOf t f).due - x.due) % fltPeriod s f = 0 ∧
      (fltOf t f).tripped = (if x.tripped then !decide (y < sgn32 (rg s .LY_FLT_LO f))
        else decide (sgn32 (rg s .LY_FLT_HI f) ≤ y) && decide (max 1 (bits (rg s .LY_FLT_CFG f) 14 11) ≤ x.run + 1) && fltCond s f) ∧
      (∀ j, j ≠ f.val → fltOf t j = fltOf s j) ∧
      (y < sgn32 (rg s .LY_FLT_HI f) → t = { s with ly.flt := t.ly.flt, ctr := t.ctr })) ∧
  (∀ (f : Fin 64) (w : BitVec 32) (s : State) (x : LyFilter) (c : Nat), lyRuns s = true → fltOf s f = x → x.due ≤ now s →
    (fltKind s f = 1 ∨ fltKind s f = 2) → fltCounter s f w.toNat = some c → x.base = none →
    ∃ t, exec (.filterSample f w) s = .next t ∧ (fltOf t f).base = some c ∧ (fltOf t f).baseline = true ∧ (fltOf t f).y = x.y ∧
      t = { s with ly.flt := t.ly.flt, ctr := t.ctr }) ∧
  (∀ (q : Req) (f : Fin 64) (v : W32) (s : State), Allowed q .LY_FLT_CFG f s →
    ∃ t, exec (.filterCfgWrite q f v) s = .next t ∧ t.regs = (rp .LY_FLT_CFG f 0 0 v.toNat s).regs ∧
      (fltOf t f).y = sgn32 (rg t .LY_FLT_SEED f) ∧ (fltOf t f).p = sgn32 (rg t .LY_FLT_SEED_X f) ∧ (fltOf t f).base = none ∧
      (fltOf t f).run = 0 ∧ (fltOf t f).due = now s + fltPeriod s f ∧ (∀ j, j ≠ f.val → fltOf t j = fltOf s j) ∧
      t = { s with regs := t.regs, ly.flt := t.ly.flt }) ∧
  (∀ (power : W32) (s : State), lyRuns s = true → s.ly.teleAt ≤ now s →
    ∃ t, exec (.telemetryCapture power) s = .next t ∧ nget t.ly.tele (s.ly.teleHead % 256) = some (teleBytes s power.toNat) ∧
      t.ly.teleHead = (s.ly.teleHead + 1) % 2 ^ 32 ∧ now s < t.ly.teleAt ∧ t = { s with ly := t.ly }) ∧
  (∀ (g : Fin 16) (s : State) (x : LyGroup), grpOf s g = x → grpDoms s g ≠ [] →
    (∀ t0, lyServes s = true → x.st = 0 → grpIdle s g = true → x.idleAt = some t0 → t0 + watchIdleNs s ≤ now s →
      ∃ t, exec (.groupIdleExpiry g) s = .next (after s t) ∧ (grpOf t g).st = 1 ∧
        (∀ i ∈ grpDoms s g, ∀ e ∈ domEngines i, (engOf s e.1 e.2).st = .enabled → inReserve s e = false → e ∈ (grpOf t g).drained) ∧
        (∀ j, j ≠ g.val → grpOf t j = grpOf s j)) ∧
    (x.st = 1 → (grpDoms s g).all (domQuiet s) = true → grpIdle s g = true →
      ∃ t, exec (.groupDrainsComplete g) s = .next (after s t) ∧ (grpOf t g).st = 2 ∧ (grpOf t g).drained = x.drained) ∧
    (x.st = 1 → (grpDoms s g).all (domQuiet s) = true → grpIdle s g = false →
      ∃ t, exec (.groupDrainsComplete g) s = .next (after s t) ∧ ((grpOf t g).st = 3 ∨ (grpOf t g).st = 0)) ∧
    (∀ i r, x.st = 3 → x.queue = i :: r → x.lastAt + rg s .LY_WAKE_STAGGER_NS ≤ now s →
      ∃ t, exec (.wakeStagger g) s = .next (after s t) ∧ (grpOf t g).queue = r ∧ (grpOf t g).lastAt = now s ∧
        ((domOf s i).st = 0 → (domOf s i).goal = none → (domOf t i).goal = some 1) ∧ (∀ k, k ≠ i → domOf t k = domOf s k))) ∧
  (∀ (s : State), lyRuns s = true →
    ∃ t, exec .doorbellSample s = .next t ∧ (∀ g ∈ groups s, (grpOf s g).st = 2 → (∃ p ∈ grpParts s g, summaryOf s p = true) →
        (grpOf t g).st = 3 ∨ (grpOf t g).st = 0) ∧
      (∀ g, (∀ p ∈ grpParts s g, summaryOf s p = false) → grpOf t g = grpOf s g)) ∧
  (∀ (p : Fin 16) (s : State) (w : Nat), lyRuns s = true → rg64 s .LY_WAKE_AT_LO .LY_WAKE_AT_HI p = w → w ≠ 0 → w ≤ now s →
    ∃ t, exec (.wakeAtExpiry p) s = .next t ∧
      (∀ g ∈ groups s, (grpOf s g).st = 2 → (grpParts s g).contains p.val = true → (grpOf t g).st = 3 ∨ (grpOf t g).st = 0)) ∧
  (∀ (s : State), lyServes s = true → s.ly.watch = false → bit (rg s .LY_CTL) 0 = true → (∀ g ∈ groups s, (grpOf s g).st = 2) →
    s.ht.moves = [] → s.sp.jobs = [] → s.ly.hbmAt + watchIdleNs s ≤ now s →
    ∃ t, exec .watchModeEntry s = .next (after s t) ∧ t.ly.watch = true ∧
      (∀ k, k < 13 → (domOf s (32 + k)).st = 1 → (domOf t (32 + k)).st = 2) ∧ t.recs = s.recs ∧ SameMem s t) ∧
  (∀ (i : Fin 48) (s : State) (v : Nat), (domOf s i).goal = some v → (domOf s i).defer = false →
    ∃ t, exec (.domainReady i) s = .next (after s t) ∧ (domOf t i).ready = true ∧ (domOf t i).goal = none ∧
      (domOf t i).st = (if v = 2 then 2 else 1) ∧ t.recs = s.recs ∧ SameMem s t)

/-- Lanyard's inputs, pins, firmware and log (R524, R525, R529, R533, R534, R572). A debounced edge is an event within its rate
limit and is coalesced beyond it; an input active for its STUCK time is reported; a window's end starts the counts again. A pin's
change of function passes through the fuse state, and a write during it is held. New firmware enters the other bank, and goes
back at its failure or a watchdog's expiry, which otherwise resets the system. -/
def Obligations.InputsPinsAndLanyardFirmware : Prop :=
  (∀ (n : Fin 24) (v : Bool) (s : State) (x : LyInput), inOf s n = x → x.level ≠ v → lyRuns s = true → isInput s n = true →
    x.stuck = false → bit (rg s .LY_IN_CFG n) 15 = true → s.uptime / 100000000 = s.ly.win →
    ((rg s .LY_IN_RATE n = 0 ∨ x.cnt < rg s .LY_IN_RATE n) → ∃ t, exec (.gpioInputChange n v) s = .next t ∧
      inOf t n = ⟨v, s.uptime, false, x.cnt + 1, x.excess⟩ ∧
      ctrGet .LY_IN_EVENT_CNT n 16 t = (ctrGet .LY_IN_EVENT_CNT n 16 s + 1) % 2 ^ 64 ∧ t.regs = s.regs ∧ SameMem s t) ∧
    (rg s .LY_IN_RATE n ≠ 0 → rg s .LY_IN_RATE n ≤ x.cnt → ∃ t, exec (.gpioInputChange n v) s = .next t ∧
      inOf t n = ⟨v, s.uptime, false, x.cnt, x.excess + 1⟩ ∧ t = { s with ly.ins := t.ly.ins })) ∧
  (∀ (n : Fin 24) (s : State) (x : LyInput) (ms : Nat), inOf s n = x → lyRuns s = true → inActive s n = true → x.stuck = false →
    bits (rg s .LY_IN_CFG n) 31 16 = ms → ms ≠ 0 → x.since + 1000000 * ms ≤ s.uptime →
    exec (.inputStuck n) s = .next (evt Ev.INPUT_STUCK lyReq n (putIn n { x with stuck := true } s))) ∧
  (∀ (s : State), s.uptime / 100000000 ≠ s.ly.win → ∃ t, exec .rateWindowEnd s = .next t ∧ t.ly.win = s.uptime / 100000000 ∧
    (∀ n, (inOf t n).cnt = 0 ∧ (inOf t n).excess = 0) ∧ t.regs = s.regs ∧ SameMem s t) ∧
  (∀ (q : Req) (n : Fin 24) (v : W32) (s : State), Allowed q .LY_PIN_CFG n s →
    ((pinOf s n).sw = none → bits v.toNat 2 0 ≠ bits (rg s .LY_PIN_CFG n) 2 0 →
      exec (.pinCfgWrite q n v) s = .next (putPin n ⟨some s.uptime, none⟩ (rp .LY_PIN_CFG n 0 0 v.toNat s))) ∧
    ((pinOf s n).sw = none → bits v.toNat 2 0 = bits (rg s .LY_PIN_CFG n) 2 0 →
      exec (.pinCfgWrite q n v) s = .next (putPin n ⟨none, none⟩ (rp .LY_PIN_CFG n 0 0 v.toNat s))) ∧
    (∀ a, (pinOf s n).sw = some a → exec (.pinCfgWrite q n v) s = .next (putPin n ⟨some a, some v⟩ s))) ∧
  (∀ (q : Req) (s : State), Allowed q .LY_CTL 0 s → lyRuns s = true → s.ly.upd = none → fwOk (lyStaged s) = true →
    exec (.lyFwActivate q) s = .next (ctr .LY_FW_ACTIVATE_CNT 16 { s with
      ly.upd := some (s.uptime, lyStaged s), ly.bankB := !s.ly.bankB })) ∧
  (∀ (core : Fin 2) (s : State) (a : Nat × FwImg), s.ly.upd = some a → ∀ t,
    t = evt Ev.LY_FW_REVERTED lyReq 0 (ctr .LY_FW_REVERT_CNT 16 { s with ly.upd := none, ly.bankB := !s.ly.bankB }) →
    exec .lyFwReverted s = .next t ∧ (lyRuns s = true → exec (.lanyardWatchdog core) s = .next t)) ∧
  (∀ (core : Fin 2) (s : State), s.ly.upd = none → lyRuns s = true → exec (.lanyardWatchdog core) s = .next (sysReset 0x12 s)) ∧
  (∀ (s u : State), s.ly.secAt ≤ s.uptime →
    u = { s with evtRate := [], evtSupp := [], ly.secAt := (s.uptime / 1000000000 + 1) * 1000000000 } →
    (s.evtSupp = [] → exec .logSuppressed s = .next u) ∧
    (∀ b n, s.evtSupp = [(b, n)] → n ≠ 0 → exec .logSuppressed s = .next (evt Ev.LOG_SUPPRESSED lyReq (b + 256 * n) u)))

/-- PLDM (R526, R527, R533, R557, R577): inside a management session every request is answered and has its effect; MCTP carries
discovery, sensors and the FRU record without one; no request is carried by DOE. A management power-off resets the system to the
standby that a power-on leaves. -/
def Obligations.PldmRequestsAreAnswered : Prop :=
  (∀ (v : Via) (sid : Option W32) (s : State), viaOpen s v = true → v ≠ .doe → inMgmt s v sid = true →
    exec (.pldmDiscovery v sid) s = .next (send Mk.pldm [viaCode v, 0] [] s) ∧
    (∀ x, exec (.pldmSensorRead v sid x) s = .next (send Mk.pldm [viaCode v, 2] (sensorBytes (sensorOf s x)) s)) ∧
    (∀ seq : W32, exec (.pldmEventLogRead v sid seq) s = .next (send Mk.pldm [viaCode v, 2] (evtAt s (seq.toNat % 4096)) s)) ∧
    exec (.pldmFruRead v sid) s = .next (send Mk.pldm [viaCode v, 4]
      (leBytes 16 Config.uid.toNat ++ leBytes 1 Config.stepping ++ orderCode) s) ∧
    (∀ f, (s.ly.bankB = true → exec (.pldmFwStage v sid f) s = .next (send Mk.pldm [viaCode v, 5] []
        { s with pm.chipA := { s.pm.chipA with ly := f } })) ∧
      (s.ly.bankB = false → exec (.pldmFwStage v sid f) s = .next (send Mk.pldm [viaCode v, 5] []
        { s with pm.chipB := { s.pm.chipB with ly := f } }))) ∧
    exec (.pldmOemReset v sid) s = .next (sysReset 0x15 (send Mk.pldm [viaCode v, 0x3F] [] s)) ∧
    (∀ (chip : Bool) (off : BitVec 24) len data c,
      exec (.pldmOemFlashWrite v sid true chip off len data c) s =
        .next (send Mk.pldm [viaCode v, 0x3F] [] (eraseOp (if chip then 1 else 0) off.toNat len s)) ∧
      exec (.pldmOemFlashWrite v sid false chip off len data c) s =
        .next (send Mk.pldm [viaCode v, 0x3F] [] (programOp (if chip then 1 else 0) off.toNat data c s))) ∧
    (∀ (op : BitVec 8) c sig, s.hw.restarting = none → exec (.pldmOemSignedCmd v sid op c sig) s =
      .next (send Mk.pldm [viaCode v, 0x3F] [] (commandOp op.toNat false c sig s))) ∧
    (s.pm.stbyOk = true → s.pm.rstLow = false → ∃ t, exec (.mgmtPowerOff v sid) s = .next t ∧ t.pm.offHold = true ∧
      t.pm.mainEn = false ∧ t.pm.step = 1 ∧ t.pm.level = 2 ∧ t.pm.source = 0x15 ∧ t.wkeys = [])) ∧
  (∀ (s : State), viaOpen s .mctp = true →
    exec (.pldmDiscovery .mctp none) s = .next (send Mk.pldm [1, 0] [] s) ∧
    (∀ x, exec (.pldmSensorRead .mctp none x) s = .next (send Mk.pldm [1, 2] (sensorBytes (sensorOf s x)) s)) ∧
    exec (.pldmOemReset .mctp none) s = .next s) ∧
  (∀ (v : Via) (s : State), v ≠ .doe → s.pm.offHold = true →
    exec (.mgmtPowerOn v) s = .next (start { s with pm.offHold := false }))

/-- A register-parity fault in Heartwood, or the expiry of Heartwood's firmware watchdog, causes a system reset (R468), whose level
and source read so afterwards (a register of Heartwood's block is no engine's and no channel's). -/
def Obligations.AHeartwoodFaultResetsTheSystem : Prop :=
  ∀ (s : State), s.pm.stbyOk = true →
    (∀ (off : BitVec 26) (ra : RegAt), regDecode off.toNat = some ra → offBlock off.toNat = 1 → regEngine ra = none →
      ra.id ≠ .HM_CH_STAT →
      exec (.registerParityFault off none) s = .next (after s (sysReset 0x14 (evt Ev.REG_PARITY lyReq off.toNat s)))) ∧
    (s.hw.ready = true → exec .heartwoodWatchdog s = .next (sysReset 0x14 s)) ∧
    (∀ src, (sysReset src s).pm.level = 2 ∧ (sysReset src s).pm.source = src ∧ (sysReset src s).wkeys = [] ∧
      (sysReset src s).hw.sess = [] ∧ (sysReset src s).hw.fuses = s.hw.fuses ∧ (sysReset src s).uptime = s.uptime)

/-- The reset levels and what causes them (R537-R545, R551, R553, R566, R574-R577). Loss of standby power leaves only flash, fuses,
the retirement list and the journal; its return starts the device, which waits at step 1 for the main rails and then runs to
READY. Each system-reset source resets so; a core trigger is discarded before READY, counted in its window, and escalates at the
limit; a pulse of SYS_RST_N below 100 ns is rejected. BOOT_GOOD and RECOVERY_DONE are recorded in the backup registers. -/
def Obligations.ResetsAndTheStart : Prop :=
  (∀ (s : State), ∃ t, exec .stbyPowerLoss s = .next t ∧ t.pm.stbyOk = false ∧ t.uptime = 0 ∧ t.regs = [] ∧ t.wkeys = [] ∧
    t.hw.fuses = s.hw.fuses ∧ t.lay.retired = s.lay.retired ∧ t.journal = s.journal ∧ t.pm.chipA = s.pm.chipA ∧
    t.pm.chipB = s.pm.chipB ∧ t.pm.flash = s.pm.flash ∧ t.hmem = s.hmem ∧ t.pending = s.pending) ∧
  (∀ (st : Start) (s : State), s.pm.stbyOk = false → s.pm.rstLow = false → s.pm.offHold = false → s.pm.tripLow = false →
    s.pm.lowTo ≤ s.uptime → s.pm.mainOk = false →
    ∃ t, exec (.stbyPwrOkRise st) s = .next t ∧ t.pm.stbyOk = true ∧ t.pm.step = 1 ∧ t.pm.mainEn = true ∧
      t.pm.band = st.mean.toNat / 256 ∧ (∀ c, st.chips = some c → t.pm.chipA = c.1 ∧ t.pm.chipB = c.2) ∧ SameMem s t) ∧
  (∀ (s : State), s.pm.mainOk = false → s.pm.mainEn = true → s.pm.step = 1 → s.pm.stbyOk = true → s.pm.rstLow = false →
    s.pm.offHold = false → s.pm.tripLow = false → s.pm.lowTo ≤ s.uptime → fwOk (chipOf s s.pm.slot).hw = true →
    fwOk (chipOf s s.pm.slot).spine = true → fwOk (chipOf s s.pm.slot).serdes = true →
    ∃ t, exec .mainPwrOkRise s = .next t ∧ t.pm.step = 11 ∧ t.pm.trigs = 0 ∧ t.ax.inReset = [] ∧ t.pm.mainOk = true) ∧
  (∀ (s : State), s.pm.mainOk = true → s.pm.mainEn = true → exec .mainPwrOkFall s =
    .next (sysReset 0x10 { s with pm.mainOk := false, pm.mainEn := false, pm.lowTo := s.uptime + 100000000 })) ∧
  (∀ (s : State), s.pm.mainEn = true → s.pm.mainOk = false → s.pm.enAt + 500000000 ≤ s.uptime → exec .mainPwrTimeout s =
    .next (evt Ev.MAIN_PWR_TIMEOUT lyReq 0 { s with pm.enAt := s.pm.enAt + 500000000 })) ∧
  (∀ (ns : Nat) (held : Bool) (s : State), s.pm.stbyOk = true →
    (ns < 100 → exec (.sysRstNPulse ns held) s = .next (ctr .PM_SYS_RST_N_REJECT_CNT 16 s)) ∧
    (100 ≤ ns → exec (.sysRstNPulse ns held) s = .next (sysReset 0x11 { s with pm.rstLow := held, pm.offHold := false }))) ∧
  (∀ (s : State), s.pm.rstLow = true → tapDrives s.tap.ins = false →
    exec .sysRstNRelease s = .next (start { s with pm.rstLow := false, tap.ins := none })) ∧
  (∀ (q : Req) (s : State), Allowed q .PM_BOOT_CTL 0 s → exec (.sysResetWrite q) s = .next (sysReset 0x16 s)) ∧
  (∀ (q : Req) (s : State), Allowed q .PM_BOOT_CTL 0 s →
    ∀ (i : Instr) (src : Nat), (i, src) ∈ [(.coreResetWrite q, 0x20), (.spineWatchdog, 0x21)] →
      (s.pm.step ≠ 11 → s.pm.step ≠ 0 → exec i s =
        .next (evt Ev.CORE_RESET_IGNORED lyReq src { s with pm.trigs := s.pm.trigs + 1, pm.multiple := true })) ∧
      (∀ n lim, s.pm.step = 11 → bits (rg s .PM_CORE_LIMIT) 7 0 = lim → s.pm.coreCnt = n → n ≠ 0 →
        s.uptime < s.pm.coreWin + 60000000000 →
        (lim ≠ 0 → lim ≤ n → exec i s = .next (ctr .PM_ESCALATE_CNT 16 (sysReset 0x19 s))) ∧
        ((lim = 0 ∨ n < lim) → ∃ t, exec i s = .next t ∧ t.pm.level = 3 ∧ t.pm.source = src ∧ t.pm.coreCnt = n + 1 ∧
          t.pm.coreWin = s.pm.coreWin ∧ t.pm.step = 11 ∧ t.wkeys = s.wkeys ∧ t.lay.img = s.lay.img ∧ t.uptime = s.uptime))) ∧
  (∀ (s : State), s.pm.tripLow = false → s.pm.stbyOk = true →
    exec .thermtrip s = .next (sysReset 0x18 { s with pm.tripLow := true, pm.mainEn := false })) ∧
  (∀ (s : State), s.pm.tripLow = true → s.pm.step = 1 → s.pm.offHold = false → s.pm.lowTo ≤ s.uptime → s.pm.mainEn = false →
    s.pm.mainOk = false →
    exec .thermtripCooled s = .next { s with pm.tripLow := false, pm.mainEn := true, pm.enAt := s.uptime }) ∧
  (∀ (q : Req) (s : State), Allowed q .PM_BOOT_CTL 0 s →
    (s.pm.step = 11 → laidBit s = true → selfTestOk s = true → s.pm.lyDead = false → s.pm.good = false →
      ∃ t, exec (.bootGood q) s = .next t ∧ t.pm.good = true ∧
        nget t.pm.backup 0 = some (backup0 s / 64 * 64 + 32 + 16 * s.pm.slot) ∧ nget t.pm.backup 3 = some (now s % 2 ^ 64) ∧
        t = { s with pm := t.pm }) ∧
    (laidBit s = false → exec (.bootGood q) s = .next (evt Ev.BOOT_GOOD_REFUSED q 0 s)) ∧
    (s.pm.recovery = true → bit (backup0 s) 3 = false →
      exec (.recoveryDone q) s = .next { s with pm.backup := nset s.pm.backup 0 (backup0 s + 8) }))

/-- Firmware in service, boot flash, power domains, throttling and the test access port (R555-R566, R580-R582). SPINE_ACTIVATE
of an image whose check and journal level pass rolls through the standby, another is refused; new SerDes firmware waits for every
link. ERASE leaves FFH and PROGRAM the bytes it was given, protected regions stay, READ copies to host memory. A domain starts
once what it depends on is ready and stops only drained. At 105 degrees a die throttles fully, at its limit by one level. A
boundary instruction takes its cells and drives TDO, and nothing happens unless SYS_RST_N is low with the rails up. -/
def Obligations.FirmwareFlashDomainsAndTestPort : Prop :=
  (∀ (q : Req) (slot : Bool) (s : State) (f : FwImg), Allowed q .PM_FW_CTL 0 s →
    (f = (chipOf s (if slot then 1 else 0)).spine → fwOk f = true →
      (f.journal = s.hw.spine.journal ∨ f.journal = s.hw.spine.journal + 1) → hasStandby s = true →
      exec (.spineActivate q slot none) s = .next (evt Ev.FW_ACTIVATED hwReq (if slot then 1 else 0)
        { resyncDone (reinstate true (takeover s)) with pm.fwRes := 1, hw.spine := f })) ∧
    (f = (chipOf s (if slot then 1 else 0)).spine → fwOk f = false → ∀ x,
      exec (.spineActivate q slot x) s = .next (evt Ev.FW_REFUSED hwReq (if slot then 1 else 0) { s with pm.fwRes := 2 })) ∧
    (f = (chipOf s (if slot then 1 else 0)).serdes → fwOk f = true →
      ∃ t, exec (.serdesActivate q slot) s = .next t ∧ t.pm.sdNext = some f ∧ t.pm.fwRes = 1 ∧ t.hw.serdes = s.hw.serdes ∧
        13 ∈ t.pm.sdPend ∧ (∀ k, k < 12 → isHarah s k = true → k ∈ t.pm.sdPend) ∧ t.recs = s.recs ∧ SameMem s t) ∧
    (∃ t, exec (.ethRetrain q) s = .next t ∧ (∀ n, n < 2 → ethLaid s n = true → (ethOf s n).serdes = true → (ethOf s n).up = true →
      (ethOf t n).up = false ∧ (ethOf t n).serdes = false) ∧ t = { s with hp := t.hp })) ∧
  (∀ (q : Req) (s : State) (o n c : Nat), Allowed q .PM_FLASH_CMD 0 s → faOff s = o → faLen s = n → faChip s = c →
    (∀ lo m, lo = o / 65536 * 65536 → n ≠ 0 → m = ceilDiv (min (o + n) flashSize) 65536 * 65536 - lo → m ≠ 0 →
      (flashProtected s lo m = false → ∃ t, exec (.flashErase q) s = .next t ∧ t.pm.flashRes = 1 ∧
        (∀ i, i < m → flashByte t (flashKey c lo + i) = 0xFF) ∧
        (∀ i, meets lo m storeRegion.1 storeRegion.2 = false → (i < flashKey c lo ∨ flashKey c lo + m ≤ i) →
          flashByte t i = flashByte s i) ∧ SameMem s t) ∧
      (flashProtected s lo m = true → exec (.flashErase q) s = .next (evt Ev.FLASH_PROTECTED lyReq lo { s with pm.flashRes := 2 }))) ∧
    (∀ (k : FlashChip) bs, s.hp.up = true → n ≠ 0 → o + n ≤ flashSize → flashProtected s o n = false →
      memRead s.hmem (faSrc s) n = bs → (∀ i, i < n → flashByte s (flashKey c o + i) = 0xFF) →
      ∃ t, exec (.flashProgram q k) s = .next t ∧ t.pm.flashRes = 1 ∧
        (∀ i b, bs[i]? = some b → flashByte t (flashKey c o + i) = b) ∧ SameMem s t) ∧
    (∀ m, s.hp.up = true → m = min n (flashSize - o) → exec (.flashRead q) s = .next { s with
      hmem := memWrite s.hmem (faSrc s) ((List.range m).map fun i => flashByte s (flashKey c o + i)), pm.flashRes := 1 }) ∧
    (s.hp.up = false → exec (.flashRead q) s = .next { s with pm.flashRes := 4 })) ∧
  (∀ (q : Req) (i : Fin 48) (s : State), Allowed q .PM_DOM_REQ i s → i.val < 45 → i.val ≠ 43 → (domOf s i).goal = none →
    ((domOf s i).st = 0 → (∀ k ∈ domDeps i, (domOf s k).ready = true ∧ (domOf s k).st ≠ 0) → ∃ t, exec (.domainRequest q i 1) s = .next t ∧
      domOf t i = ⟨0, some 1, false, false⟩ ∧ (∀ k, k ≠ i.val → domOf t k = domOf s k) ∧ t.recs = s.recs ∧ SameMem s t) ∧
    ((domOf s i).st ≠ 0 → domMayOff (rp .PM_DOM_REQ i 0 0 0 s) i = true → ∃ t, exec (.domainRequest q i 0) s = .next t ∧
      domOf t i = dom0 ∧ (∀ k, k ≠ i.val → domOf t k = domOf s k) ∧ t.hmem = s.hmem ∧ t.recs = s.recs) ∧
    ((domOf s i).st ≠ 0 → domMayOff (rp .PM_DOM_REQ i 0 0 0 s) i = false → exec (.domainRequest q i 0) s =
      .next (evt Ev.POWER_REQ_NOT_DRAINED lyReq i (ctr .PM_POWER_REQ_REFUSED_CNT 16 (rp .PM_DOM_REQ i 0 0 0 s))))) ∧
  (∀ (d : Fin 4) (c : Int) (s : State) (x : Therm), thermOf s d = x →
    (105 ≤ c → ∃ t, exec (.throttleSample d c) s = .next t ∧ thermOf t d = ⟨12, c, now s⟩ ∧ t.regs = s.regs ∧ SameMem s t) ∧
    (throttleC s ≤ c → c < 105 → ∃ t, exec (.throttleSample d c) s = .next t ∧ thermOf t d = ⟨min 12 (x.level + 1), c, now s⟩ ∧
      t = { s with ctr := t.ctr, pm.therm := t.pm.therm }) ∧
    (c + 3 ≤ throttleC s → s.pm.excess = false → x.temp + 3 ≤ throttleC s → x.coolAt + 1000000 ≤ now s →
      ∃ t, exec (.throttleSample d c) s = .next t ∧ thermOf t d = ⟨x.level - 1, c, x.coolAt + 1000000⟩)) ∧
  (∀ (a b : Nat) (s : State),
    (a ≤ 1800 → b ≤ powerCap s → exec (.powerLimitSample a b) s = .next { s with pm.excess := false, ly.power := 256 * a }) ∧
    (1800 < a ∨ powerCap s < b → ∃ t, exec (.powerLimitSample a b) s = .next t ∧ t.pm.excess = true ∧
      (∀ d, d < 4 → (thermOf t d).level = min 12 ((thermOf s d).level + 1)) ∧ t.regs = s.regs ∧ SameMem s t)) ∧
  (∀ (cap tdi : List Bool) (s : State),
    (tapLive s = true →
      (∀ i x, (i, x) ∈ [(Instr.samplePreload cap tdi, TapIns.samplePreload), (.extest cap tdi, .extest),
          (.extestPulse cap tdi, .extestPulse), (.extestTrain cap tdi, .extestTrain)] →
        exec i s = .next (send Mk.tdo (((cap ++ tdi).take tdi.length).map fun b => if b then 1 else 0) []
          { s with tap.ins := some x, tap.cells := (cap ++ tdi).drop tdi.length })) ∧
      (∀ i x, (i, x) ∈ [(Instr.bypass tdi, TapIns.bypass), (.clamp tdi, .clamp), (.highz tdi, .highz)] →
        exec i s = .next (send Mk.tdo (((false :: tdi).take tdi.length).map fun b => if b then 1 else 0) []
          { s with tap.ins := some x })) ∧
      exec (.idcode tdi) s = .next (send Mk.tdo (((bitList 32 idcodeWord ++ tdi).take tdi.length).map fun b => if b then 1 else 0) []
        { s with tap.ins := some .idcode })) ∧
    (tapLive s = false → exec (.extest cap tdi) s = .next s ∧ exec (.idcode tdi) s = .next s))
end

