-- ==== Sys2Proof/Laws/Maps.lean ====
section
/-! SUPPORT. The laws of the sparse maps: what is written is read, and a write leaves every other key alone. -/

namespace Sys2Proof

theorem nget_nset_self {V : Type} (m : NMap V) (k : Nat) (v : V) : nget (nset m k v) k = some v := by
  induction m with
  | nil => simp [nset, nget]
  | cons e r ih =>
    obtain ⟨k', v'⟩ := e
    unfold nset
    split
    · simp [nget]
    · split
      · simp [nget]
      · rename_i h1 h2
        simp [nget, h2, ih]

theorem nget_nset_ne {V : Type} (m : NMap V) (k j : Nat) (v : V) (h : j ≠ k) : nget (nset m k v) j = nget m j := by
  induction m with
  | nil => simp [nset, nget, h]
  | cons e r ih =>
    obtain ⟨k', v'⟩ := e
    unfold nset
    split
    · simp [nget, h]
    · split
      · rename_i h1 h2
        subst h2
        simp [nget, h]
      · simp only [nget]
        split
        · rfl
        · exact ih

theorem nget_nset {V : Type} (m : NMap V) (k j : Nat) (v : V) :
    nget (nset m k v) j = if j = k then some v else nget m j := by
  split
  · next h => rw [h, nget_nset_self]
  · next h => exact nget_nset_ne m k j v h

theorem ngetD_nset_self {V : Type} (m : NMap V) (k : Nat) (v d : V) : ngetD (nset m k v) k d = v := by
  simp [ngetD, nget_nset_self]

theorem ngetD_nset_ne {V : Type} (m : NMap V) (k j : Nat) (v d : V) (h : j ≠ k) :
    ngetD (nset m k v) j d = ngetD m j d := by
  simp [ngetD, nget_nset_ne m k j v h]

theorem ngetD_nmod_self {V : Type} (m : NMap V) (k : Nat) (d : V) (f : V → V) :
    ngetD (nmod m k d f) k d = f (ngetD m k d) := by
  simp [nmod, ngetD_nset_self]

theorem ndel_cons {V : Type} (k' : Nat) (v : V) (r : NMap V) (k : Nat) :
    ndel ((k', v) :: r) k = if k' = k then ndel r k else (k', v) :: ndel r k := by
  by_cases h : k' = k <;> simp [ndel, h]

theorem nget_ndel_self {V : Type} (m : NMap V) (k : Nat) : nget (ndel m k) k = none := by
  induction m with
  | nil => rfl
  | cons e r ih =>
    rw [ndel_cons]
    split
    · exact ih
    · next h => simp [nget, Ne.symm h, ih]

theorem nget_ndel_ne {V : Type} (m : NMap V) (k j : Nat) (h : j ≠ k) : nget (ndel m k) j = nget m j := by
  induction m with
  | nil => rfl
  | cons e r ih =>
    rw [ndel_cons]
    split
    · next h' => rw [ih]; simp [nget, h', h]
    · simp only [nget, ih]

end Sys2Proof
end

