-- ==== Sys2Proof/Laws/Memory.lean ====
section
/-! SUPPORT. The laws of memory: every operation keeps the canonical form, a read after a write gives what was written, and a
write leaves every other byte alone. -/

namespace Sys2Proof.Machine

theorem Memory.wfFrom_cons {lo : Option Nat} {e : Host.Cell} {r : List Host.Cell} :
    Memory.wfFrom lo (e :: r) = true ↔ (∀ l, lo = some l → l < e.1) ∧ e.2 ≠ 0 ∧ Memory.wfFrom (some e.1) r = true := by
  cases lo <;> simp [Memory.wfFrom, and_assoc]

/-- A bound below every key may be lowered or left out. -/
theorem Memory.wfFrom_lower {m : List Host.Cell} {lo : Option Nat} {a : Nat} (h : Memory.wfFrom (some a) m = true)
    (hl : ∀ l, lo = some l → l ≤ a) : Memory.wfFrom lo m = true := by
  cases m with
  | nil => rfl
  | cons e r =>
    rw [Memory.wfFrom_cons] at h ⊢
    exact ⟨fun l hh => Nat.lt_of_le_of_lt (hl l hh) (h.1 a rfl), h.2⟩

theorem Memory.wfFrom_nset {m : List Host.Cell} {lo : Option Nat} {a : Nat} {b : Byte} (hb : b ≠ 0)
    (hlo : ∀ l, lo = some l → l < a) (h : Memory.wfFrom lo m = true) : Memory.wfFrom lo (nset m a b) = true := by
  induction m generalizing lo with
  | nil => exact Memory.wfFrom_cons.2 ⟨hlo, hb, rfl⟩
  | cons e r ih =>
    have h' := Memory.wfFrom_cons.1 h
    unfold nset
    split
    · next hk =>
      refine Memory.wfFrom_cons.2 ⟨hlo, hb, Memory.wfFrom_cons.2 ⟨?_, h'.2⟩⟩
      intro l hl
      cases hl
      exact hk
    · split
      · next _ he =>
        rw [he]
        exact Memory.wfFrom_cons.2 ⟨h'.1, hb, h'.2.2⟩
      · next h1 h2 =>
        refine Memory.wfFrom_cons.2 ⟨h'.1, h'.2.1, ih ?_ h'.2.2⟩
        intro l hl
        cases hl
        show e.1 < a
        have : ¬ a < e.1 := h1
        have : ¬ a = e.1 := h2
        omega

theorem Memory.wfFrom_filter {m : List Host.Cell} {lo : Option Nat} (p : Host.Cell → Bool) (h : Memory.wfFrom lo m = true) :
    Memory.wfFrom lo (m.filter p) = true := by
  induction m generalizing lo with
  | nil => exact h
  | cons e r ih =>
    have h' := Memory.wfFrom_cons.1 h
    rw [List.filter_cons]
    split
    · exact Memory.wfFrom_cons.2 ⟨h'.1, h'.2.1, ih h'.2.2⟩
    · exact ih (Memory.wfFrom_lower h'.2.2 fun l hl => Nat.le_of_lt (h'.1 l hl))

/-- Unlisting addresses keeps the form. -/
theorem Memory.wf_filter {m : List Host.Cell} (p : Host.Cell → Bool) (h : Memory.wf m = true) : Memory.wf (m.filter p) = true :=
  Memory.wfFrom_filter p h

/-- Writing one byte keeps the form. -/
theorem Memory.wf_memPut {m : List Host.Cell} (a : Nat) (b : Byte) (h : Memory.wf m = true) : Memory.wf (memPut m a b) = true := by
  unfold memPut
  split
  · exact Memory.wf_filter _ h
  · next hb => exact Memory.wfFrom_nset hb (by intro l hl; cases hl) h

/-- Writing bytes keeps the form. -/
theorem Memory.wf_memWrite {m : List Host.Cell} (a : Nat) (bs : List Byte) (h : Memory.wf m = true) :
    Memory.wf (memWrite m a bs) = true := by
  induction bs generalizing m a with
  | nil => exact h
  | cons b r ih => exact ih _ (Memory.wf_memPut a b h)

theorem memGet_memPut_self (m : List Host.Cell) (a : Nat) (b : Byte) : memGet (memPut m a b) a = b := by
  unfold memGet memPut
  split
  · next h => simp [ngetD, nget_ndel_self, h]
  · exact ngetD_nset_self m a b 0

theorem memGet_memPut_ne (m : List Host.Cell) (a x : Nat) (b : Byte) (h : x ≠ a) : memGet (memPut m a b) x = memGet m x := by
  unfold memGet memPut
  split
  · simp [ngetD, nget_ndel_ne m a x h]
  · exact ngetD_nset_ne m a x b 0 h

/-- A write leaves every byte outside it alone. -/
theorem memGet_memWrite_out (m : List Host.Cell) (a x : Nat) (bs : List Byte) (h : x < a ∨ a + bs.length ≤ x) :
    memGet (memWrite m a bs) x = memGet m x := by
  induction bs generalizing m a with
  | nil => rfl
  | cons b r ih =>
    simp only [List.length_cons] at h
    unfold memWrite
    rw [ih (memPut m a b) (a + 1) (by omega), memGet_memPut_ne m a x b (by omega)]

/-- A read after a write gives what was written. -/
theorem memRead_memWrite (m : List Host.Cell) (a : Nat) (bs : List Byte) : memRead (memWrite m a bs) a bs.length = bs := by
  induction bs generalizing m a with
  | nil => rfl
  | cons b r ih =>
    simp only [memWrite, List.length_cons, memRead, ih]
    rw [memGet_memWrite_out _ _ _ _ (by omega), memGet_memPut_self]

end Sys2Proof.Machine
end

