-- ==== Sys2Proof/Laws/State.lean ====
section
/-! SUPPORT. What the shared operations leave alone, field by field: each lemma says that an operation does not change a field
of the state, so that no later proof unfolds a record update. -/

namespace Sys2Proof.Machine

@[simp] theorem useFree_pending (s : State) : (useFree s).pending = s.pending := rfl
@[simp] theorem useFree_span (s : State) : (useFree s).span = s.span := rfl
@[simp] theorem useFree_uptime (s : State) : (useFree s).uptime = s.uptime := rfl
@[simp] theorem useFree_regs (s : State) : (useFree s).regs = s.regs := rfl
@[simp] theorem useFree_ctr (s : State) : (useFree s).ctr = s.ctr := rfl
@[simp] theorem useFree_mem (s : State) : (useFree s).mem = s.mem := rfl
@[simp] theorem useFree_hmem (s : State) : (useFree s).hmem = s.hmem := rfl
@[simp] theorem useFree_evts (s : State) : (useFree s).evts = s.evts := rfl
@[simp] theorem useFree_evtSeq (s : State) : (useFree s).evtSeq = s.evtSeq := rfl
@[simp] theorem useFree_evtRate (s : State) : (useFree s).evtRate = s.evtRate := rfl
@[simp] theorem useFree_evtSupp (s : State) : (useFree s).evtSupp = s.evtSupp := rfl
@[simp] theorem useFree_journal (s : State) : (useFree s).journal = s.journal := rfl
@[simp] theorem useFree_tx (s : State) : (useFree s).tx = s.tx := rfl
@[simp] theorem useFree_recs (s : State) : (useFree s).recs = s.recs := rfl
@[simp] theorem useFree_ax (s : State) : (useFree s).ax = s.ax := rfl
@[simp] theorem useFree_lay (s : State) : (useFree s).lay = s.lay := rfl
@[simp] theorem useFree_hp (s : State) : (useFree s).hp = s.hp := rfl
@[simp] theorem useFree_cp (s : State) : (useFree s).cp = s.cp := rfl
@[simp] theorem useFree_ht (s : State) : (useFree s).ht = s.ht := rfl
@[simp] theorem useFree_pfx (s : State) : (useFree s).pfx = s.pfx := rfl
@[simp] theorem useFree_sp (s : State) : (useFree s).sp = s.sp := rfl
@[simp] theorem useFree_engs (s : State) : (useFree s).engs = s.engs := rfl
@[simp] theorem useFree_la (s : State) : (useFree s).la = s.la := rfl
@[simp] theorem useFree_spn (s : State) : (useFree s).spn = s.spn := rfl
@[simp] theorem useFree_wh (s : State) : (useFree s).wh = s.wh := rfl
@[simp] theorem useFree_bt (s : State) : (useFree s).bt = s.bt := rfl
@[simp] theorem useFree_ad (s : State) : (useFree s).ad = s.ad := rfl
@[simp] theorem useFree_sk (s : State) : (useFree s).sk = s.sk := rfl
@[simp] theorem useFree_hf (s : State) : (useFree s).hf = s.hf := rfl
@[simp] theorem useFree_plog (s : State) : (useFree s).plog = s.plog := rfl
@[simp] theorem useFree_wkeys (s : State) : (useFree s).wkeys = s.wkeys := rfl
@[simp] theorem useFree_hw (s : State) : (useFree s).hw = s.hw := rfl
@[simp] theorem useFree_pm (s : State) : (useFree s).pm = s.pm := rfl
@[simp] theorem useFree_ck (s : State) : (useFree s).ck = s.ck := rfl
@[simp] theorem useFree_evacBy (s : State) : (useFree s).evacBy = s.evacBy := rfl
@[simp] theorem useFree_ly (s : State) : (useFree s).ly = s.ly := rfl
@[simp] theorem useFree_tap (s : State) : (useFree s).tap = s.tap := rfl
@[simp] theorem ctrAdd_pending (c : Ct) (i p n : Nat) (s : State) : (ctrAdd c i p n s).pending = s.pending := by unfold ctrAdd; (try dsimp only) <;> (repeat' split) <;> first | rfl | simp
@[simp] theorem ctrAdd_span (c : Ct) (i p n : Nat) (s : State) : (ctrAdd c i p n s).span = s.span := by unfold ctrAdd; (try dsimp only) <;> (repeat' split) <;> first | rfl | simp
@[simp] theorem ctrAdd_uptime (c : Ct) (i p n : Nat) (s : State) : (ctrAdd c i p n s).uptime = s.uptime := by unfold ctrAdd; (try dsimp only) <;> (repeat' split) <;> first | rfl | simp
@[simp] theorem ctrAdd_fv (c : Ct) (i p n : Nat) (s : State) : (ctrAdd c i p n s).fv = s.fv := by unfold ctrAdd; (try dsimp only) <;> (repeat' split) <;> first | rfl | simp
@[simp] theorem ctrAdd_regs (c : Ct) (i p n : Nat) (s : State) : (ctrAdd c i p n s).regs = s.regs := by unfold ctrAdd; (try dsimp only) <;> (repeat' split) <;> first | rfl | simp
@[simp] theorem ctrAdd_mem (c : Ct) (i p n : Nat) (s : State) : (ctrAdd c i p n s).mem = s.mem := by unfold ctrAdd; (try dsimp only) <;> (repeat' split) <;> first | rfl | simp
@[simp] theorem ctrAdd_hmem (c : Ct) (i p n : Nat) (s : State) : (ctrAdd c i p n s).hmem = s.hmem := by unfold ctrAdd; (try dsimp only) <;> (repeat' split) <;> first | rfl | simp
@[simp] theorem ctrAdd_evts (c : Ct) (i p n : Nat) (s : State) : (ctrAdd c i p n s).evts = s.evts := by unfold ctrAdd; (try dsimp only) <;> (repeat' split) <;> first | rfl | simp
@[simp] theorem ctrAdd_evtSeq (c : Ct) (i p n : Nat) (s : State) : (ctrAdd c i p n s).evtSeq = s.evtSeq := by unfold ctrAdd; (try dsimp only) <;> (repeat' split) <;> first | rfl | simp
@[simp] theorem ctrAdd_evtRate (c : Ct) (i p n : Nat) (s : State) : (ctrAdd c i p n s).evtRate = s.evtRate := by unfold ctrAdd; (try dsimp only) <;> (repeat' split) <;> first | rfl | simp
@[simp] theorem ctrAdd_evtSupp (c : Ct) (i p n : Nat) (s : State) : (ctrAdd c i p n s).evtSupp = s.evtSupp := by unfold ctrAdd; (try dsimp only) <;> (repeat' split) <;> first | rfl | simp
@[simp] theorem ctrAdd_journal (c : Ct) (i p n : Nat) (s : State) : (ctrAdd c i p n s).journal = s.journal := by unfold ctrAdd; (try dsimp only) <;> (repeat' split) <;> first | rfl | simp
@[simp] theorem ctrAdd_tx (c : Ct) (i p n : Nat) (s : State) : (ctrAdd c i p n s).tx = s.tx := by unfold ctrAdd; (try dsimp only) <;> (repeat' split) <;> first | rfl | simp
@[simp] theorem ctrAdd_recs (c : Ct) (i p n : Nat) (s : State) : (ctrAdd c i p n s).recs = s.recs := by unfold ctrAdd; (try dsimp only) <;> (repeat' split) <;> first | rfl | simp
@[simp] theorem ctrAdd_ax (c : Ct) (i p n : Nat) (s : State) : (ctrAdd c i p n s).ax = s.ax := by unfold ctrAdd; (try dsimp only) <;> (repeat' split) <;> first | rfl | simp
@[simp] theorem ctrAdd_lay (c : Ct) (i p n : Nat) (s : State) : (ctrAdd c i p n s).lay = s.lay := by unfold ctrAdd; (try dsimp only) <;> (repeat' split) <;> first | rfl | simp
@[simp] theorem ctrAdd_hp (c : Ct) (i p n : Nat) (s : State) : (ctrAdd c i p n s).hp = s.hp := by unfold ctrAdd; (try dsimp only) <;> (repeat' split) <;> first | rfl | simp
@[simp] theorem ctrAdd_cp (c : Ct) (i p n : Nat) (s : State) : (ctrAdd c i p n s).cp = s.cp := by unfold ctrAdd; (try dsimp only) <;> (repeat' split) <;> first | rfl | simp
@[simp] theorem ctrAdd_ht (c : Ct) (i p n : Nat) (s : State) : (ctrAdd c i p n s).ht = s.ht := by unfold ctrAdd; (try dsimp only) <;> (repeat' split) <;> first | rfl | simp
@[simp] theorem ctrAdd_pfx (c : Ct) (i p n : Nat) (s : State) : (ctrAdd c i p n s).pfx = s.pfx := by unfold ctrAdd; (try dsimp only) <;> (repeat' split) <;> first | rfl | simp
@[simp] theorem ctrAdd_sp (c : Ct) (i p n : Nat) (s : State) : (ctrAdd c i p n s).sp = s.sp := by unfold ctrAdd; (try dsimp only) <;> (repeat' split) <;> first | rfl | simp
@[simp] theorem ctrAdd_engs (c : Ct) (i p n : Nat) (s : State) : (ctrAdd c i p n s).engs = s.engs := by unfold ctrAdd; (try dsimp only) <;> (repeat' split) <;> first | rfl | simp
@[simp] theorem ctrAdd_la (c : Ct) (i p n : Nat) (s : State) : (ctrAdd c i p n s).la = s.la := by unfold ctrAdd; (try dsimp only) <;> (repeat' split) <;> first | rfl | simp
@[simp] theorem ctrAdd_spn (c : Ct) (i p n : Nat) (s : State) : (ctrAdd c i p n s).spn = s.spn := by unfold ctrAdd; (try dsimp only) <;> (repeat' split) <;> first | rfl | simp
@[simp] theorem ctrAdd_wh (c : Ct) (i p n : Nat) (s : State) : (ctrAdd c i p n s).wh = s.wh := by unfold ctrAdd; (try dsimp only) <;> (repeat' split) <;> first | rfl | simp
@[simp] theorem ctrAdd_bt (c : Ct) (i p n : Nat) (s : State) : (ctrAdd c i p n s).bt = s.bt := by unfold ctrAdd; (try dsimp only) <;> (repeat' split) <;> first | rfl | simp
@[simp] theorem ctrAdd_ad (c : Ct) (i p n : Nat) (s : State) : (ctrAdd c i p n s).ad = s.ad := by unfold ctrAdd; (try dsimp only) <;> (repeat' split) <;> first | rfl | simp
@[simp] theorem ctrAdd_sk (c : Ct) (i p n : Nat) (s : State) : (ctrAdd c i p n s).sk = s.sk := by unfold ctrAdd; (try dsimp only) <;> (repeat' split) <;> first | rfl | simp
@[simp] theorem ctrAdd_hf (c : Ct) (i p n : Nat) (s : State) : (ctrAdd c i p n s).hf = s.hf := by unfold ctrAdd; (try dsimp only) <;> (repeat' split) <;> first | rfl | simp
@[simp] theorem ctrAdd_plog (c : Ct) (i p n : Nat) (s : State) : (ctrAdd c i p n s).plog = s.plog := by unfold ctrAdd; (try dsimp only) <;> (repeat' split) <;> first | rfl | simp
@[simp] theorem ctrAdd_wkeys (c : Ct) (i p n : Nat) (s : State) : (ctrAdd c i p n s).wkeys = s.wkeys := by unfold ctrAdd; (try dsimp only) <;> (repeat' split) <;> first | rfl | simp
@[simp] theorem ctrAdd_hw (c : Ct) (i p n : Nat) (s : State) : (ctrAdd c i p n s).hw = s.hw := by unfold ctrAdd; (try dsimp only) <;> (repeat' split) <;> first | rfl | simp
@[simp] theorem ctrAdd_pm (c : Ct) (i p n : Nat) (s : State) : (ctrAdd c i p n s).pm = s.pm := by unfold ctrAdd; (try dsimp only) <;> (repeat' split) <;> first | rfl | simp
@[simp] theorem ctrAdd_ck (c : Ct) (i p n : Nat) (s : State) : (ctrAdd c i p n s).ck = s.ck := by unfold ctrAdd; (try dsimp only) <;> (repeat' split) <;> first | rfl | simp
@[simp] theorem ctrAdd_evacBy (c : Ct) (i p n : Nat) (s : State) : (ctrAdd c i p n s).evacBy = s.evacBy := by unfold ctrAdd; (try dsimp only) <;> (repeat' split) <;> first | rfl | simp
@[simp] theorem ctrAdd_ly (c : Ct) (i p n : Nat) (s : State) : (ctrAdd c i p n s).ly = s.ly := by unfold ctrAdd; (try dsimp only) <;> (repeat' split) <;> first | rfl | simp
@[simp] theorem ctrAdd_tap (c : Ct) (i p n : Nat) (s : State) : (ctrAdd c i p n s).tap = s.tap := by unfold ctrAdd; (try dsimp only) <;> (repeat' split) <;> first | rfl | simp
@[simp] theorem ctr_pending (c : Ct) (p : Nat) (s : State) : (ctr c p s).pending = s.pending := by simp [ctr]
@[simp] theorem ctr_span (c : Ct) (p : Nat) (s : State) : (ctr c p s).span = s.span := by simp [ctr]
@[simp] theorem ctr_uptime (c : Ct) (p : Nat) (s : State) : (ctr c p s).uptime = s.uptime := by simp [ctr]
@[simp] theorem ctr_fv (c : Ct) (p : Nat) (s : State) : (ctr c p s).fv = s.fv := by simp [ctr]
@[simp] theorem ctr_regs (c : Ct) (p : Nat) (s : State) : (ctr c p s).regs = s.regs := by simp [ctr]
@[simp] theorem ctr_mem (c : Ct) (p : Nat) (s : State) : (ctr c p s).mem = s.mem := by simp [ctr]
@[simp] theorem ctr_hmem (c : Ct) (p : Nat) (s : State) : (ctr c p s).hmem = s.hmem := by simp [ctr]
@[simp] theorem ctr_evts (c : Ct) (p : Nat) (s : State) : (ctr c p s).evts = s.evts := by simp [ctr]
@[simp] theorem ctr_evtSeq (c : Ct) (p : Nat) (s : State) : (ctr c p s).evtSeq = s.evtSeq := by simp [ctr]
@[simp] theorem ctr_evtRate (c : Ct) (p : Nat) (s : State) : (ctr c p s).evtRate = s.evtRate := by simp [ctr]
@[simp] theorem ctr_evtSupp (c : Ct) (p : Nat) (s : State) : (ctr c p s).evtSupp = s.evtSupp := by simp [ctr]
@[simp] theorem ctr_journal (c : Ct) (p : Nat) (s : State) : (ctr c p s).journal = s.journal := by simp [ctr]
@[simp] theorem ctr_tx (c : Ct) (p : Nat) (s : State) : (ctr c p s).tx = s.tx := by simp [ctr]
@[simp] theorem ctr_recs (c : Ct) (p : Nat) (s : State) : (ctr c p s).recs = s.recs := by simp [ctr]
@[simp] theorem ctr_ax (c : Ct) (p : Nat) (s : State) : (ctr c p s).ax = s.ax := by simp [ctr]
@[simp] theorem ctr_lay (c : Ct) (p : Nat) (s : State) : (ctr c p s).lay = s.lay := by simp [ctr]
@[simp] theorem ctr_hp (c : Ct) (p : Nat) (s : State) : (ctr c p s).hp = s.hp := by simp [ctr]
@[simp] theorem ctr_cp (c : Ct) (p : Nat) (s : State) : (ctr c p s).cp = s.cp := by simp [ctr]
@[simp] theorem ctr_ht (c : Ct) (p : Nat) (s : State) : (ctr c p s).ht = s.ht := by simp [ctr]
@[simp] theorem ctr_pfx (c : Ct) (p : Nat) (s : State) : (ctr c p s).pfx = s.pfx := by simp [ctr]
@[simp] theorem ctr_sp (c : Ct) (p : Nat) (s : State) : (ctr c p s).sp = s.sp := by simp [ctr]
@[simp] theorem ctr_engs (c : Ct) (p : Nat) (s : State) : (ctr c p s).engs = s.engs := by simp [ctr]
@[simp] theorem ctr_la (c : Ct) (p : Nat) (s : State) : (ctr c p s).la = s.la := by simp [ctr]
@[simp] theorem ctr_spn (c : Ct) (p : Nat) (s : State) : (ctr c p s).spn = s.spn := by simp [ctr]
@[simp] theorem ctr_wh (c : Ct) (p : Nat) (s : State) : (ctr c p s).wh = s.wh := by simp [ctr]
@[simp] theorem ctr_bt (c : Ct) (p : Nat) (s : State) : (ctr c p s).bt = s.bt := by simp [ctr]
@[simp] theorem ctr_ad (c : Ct) (p : Nat) (s : State) : (ctr c p s).ad = s.ad := by simp [ctr]
@[simp] theorem ctr_sk (c : Ct) (p : Nat) (s : State) : (ctr c p s).sk = s.sk := by simp [ctr]
@[simp] theorem ctr_hf (c : Ct) (p : Nat) (s : State) : (ctr c p s).hf = s.hf := by simp [ctr]
@[simp] theorem ctr_plog (c : Ct) (p : Nat) (s : State) : (ctr c p s).plog = s.plog := by simp [ctr]
@[simp] theorem ctr_wkeys (c : Ct) (p : Nat) (s : State) : (ctr c p s).wkeys = s.wkeys := by simp [ctr]
@[simp] theorem ctr_hw (c : Ct) (p : Nat) (s : State) : (ctr c p s).hw = s.hw := by simp [ctr]
@[simp] theorem ctr_pm (c : Ct) (p : Nat) (s : State) : (ctr c p s).pm = s.pm := by simp [ctr]
@[simp] theorem ctr_ck (c : Ct) (p : Nat) (s : State) : (ctr c p s).ck = s.ck := by simp [ctr]
@[simp] theorem ctr_evacBy (c : Ct) (p : Nat) (s : State) : (ctr c p s).evacBy = s.evacBy := by simp [ctr]
@[simp] theorem ctr_ly (c : Ct) (p : Nat) (s : State) : (ctr c p s).ly = s.ly := by simp [ctr]
@[simp] theorem ctr_tap (c : Ct) (p : Nat) (s : State) : (ctr c p s).tap = s.tap := by simp [ctr]
@[simp] theorem ctrMax_pending (c : Ct) (p n : Nat) (s : State) : (ctrMax c p n s).pending = s.pending := by unfold ctrMax; (try dsimp only) <;> (repeat' split) <;> first | rfl | simp
@[simp] theorem ctrMax_span (c : Ct) (p n : Nat) (s : State) : (ctrMax c p n s).span = s.span := by unfold ctrMax; (try dsimp only) <;> (repeat' split) <;> first | rfl | simp
@[simp] theorem ctrMax_uptime (c : Ct) (p n : Nat) (s : State) : (ctrMax c p n s).uptime = s.uptime := by unfold ctrMax; (try dsimp only) <;> (repeat' split) <;> first | rfl | simp
@[simp] theorem ctrMax_fv (c : Ct) (p n : Nat) (s : State) : (ctrMax c p n s).fv = s.fv := by unfold ctrMax; (try dsimp only) <;> (repeat' split) <;> first | rfl | simp
@[simp] theorem ctrMax_regs (c : Ct) (p n : Nat) (s : State) : (ctrMax c p n s).regs = s.regs := by unfold ctrMax; (try dsimp only) <;> (repeat' split) <;> first | rfl | simp
@[simp] theorem ctrMax_mem (c : Ct) (p n : Nat) (s : State) : (ctrMax c p n s).mem = s.mem := by unfold ctrMax; (try dsimp only) <;> (repeat' split) <;> first | rfl | simp
@[simp] theorem ctrMax_hmem (c : Ct) (p n : Nat) (s : State) : (ctrMax c p n s).hmem = s.hmem := by unfold ctrMax; (try dsimp only) <;> (repeat' split) <;> first | rfl | simp
@[simp] theorem ctrMax_evts (c : Ct) (p n : Nat) (s : State) : (ctrMax c p n s).evts = s.evts := by unfold ctrMax; (try dsimp only) <;> (repeat' split) <;> first | rfl | simp
@[simp] theorem ctrMax_evtSeq (c : Ct) (p n : Nat) (s : State) : (ctrMax c p n s).evtSeq = s.evtSeq := by unfold ctrMax; (try dsimp only) <;> (repeat' split) <;> first | rfl | simp
@[simp] theorem ctrMax_evtRate (c : Ct) (p n : Nat) (s : State) : (ctrMax c p n s).evtRate = s.evtRate := by unfold ctrMax; (try dsimp only) <;> (repeat' split) <;> first | rfl | simp
@[simp] theorem ctrMax_evtSupp (c : Ct) (p n : Nat) (s : State) : (ctrMax c p n s).evtSupp = s.evtSupp := by unfold ctrMax; (try dsimp only) <;> (repeat' split) <;> first | rfl | simp
@[simp] theorem ctrMax_journal (c : Ct) (p n : Nat) (s : State) : (ctrMax c p n s).journal = s.journal := by unfold ctrMax; (try dsimp only) <;> (repeat' split) <;> first | rfl | simp
@[simp] theorem ctrMax_tx (c : Ct) (p n : Nat) (s : State) : (ctrMax c p n s).tx = s.tx := by unfold ctrMax; (try dsimp only) <;> (repeat' split) <;> first | rfl | simp
@[simp] theorem ctrMax_recs (c : Ct) (p n : Nat) (s : State) : (ctrMax c p n s).recs = s.recs := by unfold ctrMax; (try dsimp only) <;> (repeat' split) <;> first | rfl | simp
@[simp] theorem ctrMax_ax (c : Ct) (p n : Nat) (s : State) : (ctrMax c p n s).ax = s.ax := by unfold ctrMax; (try dsimp only) <;> (repeat' split) <;> first | rfl | simp
@[simp] theorem ctrMax_lay (c : Ct) (p n : Nat) (s : State) : (ctrMax c p n s).lay = s.lay := by unfold ctrMax; (try dsimp only) <;> (repeat' split) <;> first | rfl | simp
@[simp] theorem ctrMax_hp (c : Ct) (p n : Nat) (s : State) : (ctrMax c p n s).hp = s.hp := by unfold ctrMax; (try dsimp only) <;> (repeat' split) <;> first | rfl | simp
@[simp] theorem ctrMax_cp (c : Ct) (p n : Nat) (s : State) : (ctrMax c p n s).cp = s.cp := by unfold ctrMax; (try dsimp only) <;> (repeat' split) <;> first | rfl | simp
@[simp] theorem ctrMax_ht (c : Ct) (p n : Nat) (s : State) : (ctrMax c p n s).ht = s.ht := by unfold ctrMax; (try dsimp only) <;> (repeat' split) <;> first | rfl | simp
@[simp] theorem ctrMax_pfx (c : Ct) (p n : Nat) (s : State) : (ctrMax c p n s).pfx = s.pfx := by unfold ctrMax; (try dsimp only) <;> (repeat' split) <;> first | rfl | simp
@[simp] theorem ctrMax_sp (c : Ct) (p n : Nat) (s : State) : (ctrMax c p n s).sp = s.sp := by unfold ctrMax; (try dsimp only) <;> (repeat' split) <;> first | rfl | simp
@[simp] theorem ctrMax_engs (c : Ct) (p n : Nat) (s : State) : (ctrMax c p n s).engs = s.engs := by unfold ctrMax; (try dsimp only) <;> (repeat' split) <;> first | rfl | simp
@[simp] theorem ctrMax_la (c : Ct) (p n : Nat) (s : State) : (ctrMax c p n s).la = s.la := by unfold ctrMax; (try dsimp only) <;> (repeat' split) <;> first | rfl | simp
@[simp] theorem ctrMax_spn (c : Ct) (p n : Nat) (s : State) : (ctrMax c p n s).spn = s.spn := by unfold ctrMax; (try dsimp only) <;> (repeat' split) <;> first | rfl | simp
@[simp] theorem ctrMax_wh (c : Ct) (p n : Nat) (s : State) : (ctrMax c p n s).wh = s.wh := by unfold ctrMax; (try dsimp only) <;> (repeat' split) <;> first | rfl | simp
@[simp] theorem ctrMax_bt (c : Ct) (p n : Nat) (s : State) : (ctrMax c p n s).bt = s.bt := by unfold ctrMax; (try dsimp only) <;> (repeat' split) <;> first | rfl | simp
@[simp] theorem ctrMax_ad (c : Ct) (p n : Nat) (s : State) : (ctrMax c p n s).ad = s.ad := by unfold ctrMax; (try dsimp only) <;> (repeat' split) <;> first | rfl | simp
@[simp] theorem ctrMax_sk (c : Ct) (p n : Nat) (s : State) : (ctrMax c p n s).sk = s.sk := by unfold ctrMax; (try dsimp only) <;> (repeat' split) <;> first | rfl | simp
@[simp] theorem ctrMax_hf (c : Ct) (p n : Nat) (s : State) : (ctrMax c p n s).hf = s.hf := by unfold ctrMax; (try dsimp only) <;> (repeat' split) <;> first | rfl | simp
@[simp] theorem ctrMax_plog (c : Ct) (p n : Nat) (s : State) : (ctrMax c p n s).plog = s.plog := by unfold ctrMax; (try dsimp only) <;> (repeat' split) <;> first | rfl | simp
@[simp] theorem ctrMax_wkeys (c : Ct) (p n : Nat) (s : State) : (ctrMax c p n s).wkeys = s.wkeys := by unfold ctrMax; (try dsimp only) <;> (repeat' split) <;> first | rfl | simp
@[simp] theorem ctrMax_hw (c : Ct) (p n : Nat) (s : State) : (ctrMax c p n s).hw = s.hw := by unfold ctrMax; (try dsimp only) <;> (repeat' split) <;> first | rfl | simp
@[simp] theorem ctrMax_pm (c : Ct) (p n : Nat) (s : State) : (ctrMax c p n s).pm = s.pm := by unfold ctrMax; (try dsimp only) <;> (repeat' split) <;> first | rfl | simp
@[simp] theorem ctrMax_ck (c : Ct) (p n : Nat) (s : State) : (ctrMax c p n s).ck = s.ck := by unfold ctrMax; (try dsimp only) <;> (repeat' split) <;> first | rfl | simp
@[simp] theorem ctrMax_evacBy (c : Ct) (p n : Nat) (s : State) : (ctrMax c p n s).evacBy = s.evacBy := by unfold ctrMax; (try dsimp only) <;> (repeat' split) <;> first | rfl | simp
@[simp] theorem ctrMax_ly (c : Ct) (p n : Nat) (s : State) : (ctrMax c p n s).ly = s.ly := by unfold ctrMax; (try dsimp only) <;> (repeat' split) <;> first | rfl | simp
@[simp] theorem ctrMax_tap (c : Ct) (p n : Nat) (s : State) : (ctrMax c p n s).tap = s.tap := by unfold ctrMax; (try dsimp only) <;> (repeat' split) <;> first | rfl | simp
@[simp] theorem evtAs_pending (e : Ev) (inj : Bool) (q : Req) (pay : Nat) (s : State) : (evtAs e inj q pay s).pending = s.pending := by by_cases h : 1024 ≤ ngetD s.evtRate e.blk 0 <;> simp [evtAs, h]
@[simp] theorem evtAs_span (e : Ev) (inj : Bool) (q : Req) (pay : Nat) (s : State) : (evtAs e inj q pay s).span = s.span := by by_cases h : 1024 ≤ ngetD s.evtRate e.blk 0 <;> simp [evtAs, h]
@[simp] theorem evtAs_uptime (e : Ev) (inj : Bool) (q : Req) (pay : Nat) (s : State) : (evtAs e inj q pay s).uptime = s.uptime := by by_cases h : 1024 ≤ ngetD s.evtRate e.blk 0 <;> simp [evtAs, h]
@[simp] theorem evtAs_fv (e : Ev) (inj : Bool) (q : Req) (pay : Nat) (s : State) : (evtAs e inj q pay s).fv = s.fv := by by_cases h : 1024 ≤ ngetD s.evtRate e.blk 0 <;> simp [evtAs, h]
@[simp] theorem evtAs_regs (e : Ev) (inj : Bool) (q : Req) (pay : Nat) (s : State) : (evtAs e inj q pay s).regs = s.regs := by by_cases h : 1024 ≤ ngetD s.evtRate e.blk 0 <;> simp [evtAs, h]
@[simp] theorem evtAs_mem (e : Ev) (inj : Bool) (q : Req) (pay : Nat) (s : State) : (evtAs e inj q pay s).mem = s.mem := by by_cases h : 1024 ≤ ngetD s.evtRate e.blk 0 <;> simp [evtAs, h]
@[simp] theorem evtAs_hmem (e : Ev) (inj : Bool) (q : Req) (pay : Nat) (s : State) : (evtAs e inj q pay s).hmem = s.hmem := by by_cases h : 1024 ≤ ngetD s.evtRate e.blk 0 <;> simp [evtAs, h]
@[simp] theorem evtAs_tx (e : Ev) (inj : Bool) (q : Req) (pay : Nat) (s : State) : (evtAs e inj q pay s).tx = s.tx := by by_cases h : 1024 ≤ ngetD s.evtRate e.blk 0 <;> simp [evtAs, h]
@[simp] theorem evtAs_recs (e : Ev) (inj : Bool) (q : Req) (pay : Nat) (s : State) : (evtAs e inj q pay s).recs = s.recs := by by_cases h : 1024 ≤ ngetD s.evtRate e.blk 0 <;> simp [evtAs, h]
@[simp] theorem evtAs_ax (e : Ev) (inj : Bool) (q : Req) (pay : Nat) (s : State) : (evtAs e inj q pay s).ax = s.ax := by by_cases h : 1024 ≤ ngetD s.evtRate e.blk 0 <;> simp [evtAs, h]
@[simp] theorem evtAs_lay (e : Ev) (inj : Bool) (q : Req) (pay : Nat) (s : State) : (evtAs e inj q pay s).lay = s.lay := by by_cases h : 1024 ≤ ngetD s.evtRate e.blk 0 <;> simp [evtAs, h]
@[simp] theorem evtAs_hp (e : Ev) (inj : Bool) (q : Req) (pay : Nat) (s : State) : (evtAs e inj q pay s).hp = s.hp := by by_cases h : 1024 ≤ ngetD s.evtRate e.blk 0 <;> simp [evtAs, h]
@[simp] theorem evtAs_cp (e : Ev) (inj : Bool) (q : Req) (pay : Nat) (s : State) : (evtAs e inj q pay s).cp = s.cp := by by_cases h : 1024 ≤ ngetD s.evtRate e.blk 0 <;> simp [evtAs, h]
@[simp] theorem evtAs_ht (e : Ev) (inj : Bool) (q : Req) (pay : Nat) (s : State) : (evtAs e inj q pay s).ht = s.ht := by by_cases h : 1024 ≤ ngetD s.evtRate e.blk 0 <;> simp [evtAs, h]
@[simp] theorem evtAs_pfx (e : Ev) (inj : Bool) (q : Req) (pay : Nat) (s : State) : (evtAs e inj q pay s).pfx = s.pfx := by by_cases h : 1024 ≤ ngetD s.evtRate e.blk 0 <;> simp [evtAs, h]
@[simp] theorem evtAs_sp (e : Ev) (inj : Bool) (q : Req) (pay : Nat) (s : State) : (evtAs e inj q pay s).sp = s.sp := by by_cases h : 1024 ≤ ngetD s.evtRate e.blk 0 <;> simp [evtAs, h]
@[simp] theorem evtAs_engs (e : Ev) (inj : Bool) (q : Req) (pay : Nat) (s : State) : (evtAs e inj q pay s).engs = s.engs := by by_cases h : 1024 ≤ ngetD s.evtRate e.blk 0 <;> simp [evtAs, h]
@[simp] theorem evtAs_la (e : Ev) (inj : Bool) (q : Req) (pay : Nat) (s : State) : (evtAs e inj q pay s).la = s.la := by by_cases h : 1024 ≤ ngetD s.evtRate e.blk 0 <;> simp [evtAs, h]
@[simp] theorem evtAs_spn (e : Ev) (inj : Bool) (q : Req) (pay : Nat) (s : State) : (evtAs e inj q pay s).spn = s.spn := by by_cases h : 1024 ≤ ngetD s.evtRate e.blk 0 <;> simp [evtAs, h]
@[simp] theorem evtAs_wh (e : Ev) (inj : Bool) (q : Req) (pay : Nat) (s : State) : (evtAs e inj q pay s).wh = s.wh := by by_cases h : 1024 ≤ ngetD s.evtRate e.blk 0 <;> simp [evtAs, h]
@[simp] theorem evtAs_bt (e : Ev) (inj : Bool) (q : Req) (pay : Nat) (s : State) : (evtAs e inj q pay s).bt = s.bt := by by_cases h : 1024 ≤ ngetD s.evtRate e.blk 0 <;> simp [evtAs, h]
@[simp] theorem evtAs_ad (e : Ev) (inj : Bool) (q : Req) (pay : Nat) (s : State) : (evtAs e inj q pay s).ad = s.ad := by by_cases h : 1024 ≤ ngetD s.evtRate e.blk 0 <;> simp [evtAs, h]
@[simp] theorem evtAs_sk (e : Ev) (inj : Bool) (q : Req) (pay : Nat) (s : State) : (evtAs e inj q pay s).sk = s.sk := by by_cases h : 1024 ≤ ngetD s.evtRate e.blk 0 <;> simp [evtAs, h]
@[simp] theorem evtAs_hf (e : Ev) (inj : Bool) (q : Req) (pay : Nat) (s : State) : (evtAs e inj q pay s).hf = s.hf := by by_cases h : 1024 ≤ ngetD s.evtRate e.blk 0 <;> simp [evtAs, h]
@[simp] theorem evtAs_plog (e : Ev) (inj : Bool) (q : Req) (pay : Nat) (s : State) : (evtAs e inj q pay s).plog = s.plog := by by_cases h : 1024 ≤ ngetD s.evtRate e.blk 0 <;> simp [evtAs, h]
@[simp] theorem evtAs_wkeys (e : Ev) (inj : Bool) (q : Req) (pay : Nat) (s : State) : (evtAs e inj q pay s).wkeys = s.wkeys := by by_cases h : 1024 ≤ ngetD s.evtRate e.blk 0 <;> simp [evtAs, h]
@[simp] theorem evtAs_hw (e : Ev) (inj : Bool) (q : Req) (pay : Nat) (s : State) : (evtAs e inj q pay s).hw = s.hw := by by_cases h : 1024 ≤ ngetD s.evtRate e.blk 0 <;> simp [evtAs, h]
@[simp] theorem evtAs_pm (e : Ev) (inj : Bool) (q : Req) (pay : Nat) (s : State) : (evtAs e inj q pay s).pm = s.pm := by by_cases h : 1024 ≤ ngetD s.evtRate e.blk 0 <;> simp [evtAs, h]
@[simp] theorem evtAs_ck (e : Ev) (inj : Bool) (q : Req) (pay : Nat) (s : State) : (evtAs e inj q pay s).ck = s.ck := by by_cases h : 1024 ≤ ngetD s.evtRate e.blk 0 <;> simp [evtAs, h]
@[simp] theorem evtAs_evacBy (e : Ev) (inj : Bool) (q : Req) (pay : Nat) (s : State) : (evtAs e inj q pay s).evacBy = s.evacBy := by by_cases h : 1024 ≤ ngetD s.evtRate e.blk 0 <;> simp [evtAs, h]
@[simp] theorem evtAs_ly (e : Ev) (inj : Bool) (q : Req) (pay : Nat) (s : State) : (evtAs e inj q pay s).ly = s.ly := by by_cases h : 1024 ≤ ngetD s.evtRate e.blk 0 <;> simp [evtAs, h]
@[simp] theorem evtAs_tap (e : Ev) (inj : Bool) (q : Req) (pay : Nat) (s : State) : (evtAs e inj q pay s).tap = s.tap := by by_cases h : 1024 ≤ ngetD s.evtRate e.blk 0 <;> simp [evtAs, h]
@[simp] theorem evt_pending (e : Ev) (q : Req) (pay : Nat) (s : State) : (evt e q pay s).pending = s.pending := by simp [evt]
@[simp] theorem evt_span (e : Ev) (q : Req) (pay : Nat) (s : State) : (evt e q pay s).span = s.span := by simp [evt]
@[simp] theorem evt_uptime (e : Ev) (q : Req) (pay : Nat) (s : State) : (evt e q pay s).uptime = s.uptime := by simp [evt]
@[simp] theorem evt_fv (e : Ev) (q : Req) (pay : Nat) (s : State) : (evt e q pay s).fv = s.fv := by simp [evt]
@[simp] theorem evt_regs (e : Ev) (q : Req) (pay : Nat) (s : State) : (evt e q pay s).regs = s.regs := by simp [evt]
@[simp] theorem evt_mem (e : Ev) (q : Req) (pay : Nat) (s : State) : (evt e q pay s).mem = s.mem := by simp [evt]
@[simp] theorem evt_hmem (e : Ev) (q : Req) (pay : Nat) (s : State) : (evt e q pay s).hmem = s.hmem := by simp [evt]
@[simp] theorem evt_tx (e : Ev) (q : Req) (pay : Nat) (s : State) : (evt e q pay s).tx = s.tx := by simp [evt]
@[simp] theorem evt_recs (e : Ev) (q : Req) (pay : Nat) (s : State) : (evt e q pay s).recs = s.recs := by simp [evt]
@[simp] theorem evt_ax (e : Ev) (q : Req) (pay : Nat) (s : State) : (evt e q pay s).ax = s.ax := by simp [evt]
@[simp] theorem evt_lay (e : Ev) (q : Req) (pay : Nat) (s : State) : (evt e q pay s).lay = s.lay := by simp [evt]
@[simp] theorem evt_hp (e : Ev) (q : Req) (pay : Nat) (s : State) : (evt e q pay s).hp = s.hp := by simp [evt]
@[simp] theorem evt_cp (e : Ev) (q : Req) (pay : Nat) (s : State) : (evt e q pay s).cp = s.cp := by simp [evt]
@[simp] theorem evt_ht (e : Ev) (q : Req) (pay : Nat) (s : State) : (evt e q pay s).ht = s.ht := by simp [evt]
@[simp] theorem evt_pfx (e : Ev) (q : Req) (pay : Nat) (s : State) : (evt e q pay s).pfx = s.pfx := by simp [evt]
@[simp] theorem evt_sp (e : Ev) (q : Req) (pay : Nat) (s : State) : (evt e q pay s).sp = s.sp := by simp [evt]
@[simp] theorem evt_engs (e : Ev) (q : Req) (pay : Nat) (s : State) : (evt e q pay s).engs = s.engs := by simp [evt]
@[simp] theorem evt_la (e : Ev) (q : Req) (pay : Nat) (s : State) : (evt e q pay s).la = s.la := by simp [evt]
@[simp] theorem evt_spn (e : Ev) (q : Req) (pay : Nat) (s : State) : (evt e q pay s).spn = s.spn := by simp [evt]
@[simp] theorem evt_wh (e : Ev) (q : Req) (pay : Nat) (s : State) : (evt e q pay s).wh = s.wh := by simp [evt]
@[simp] theorem evt_bt (e : Ev) (q : Req) (pay : Nat) (s : State) : (evt e q pay s).bt = s.bt := by simp [evt]
@[simp] theorem evt_ad (e : Ev) (q : Req) (pay : Nat) (s : State) : (evt e q pay s).ad = s.ad := by simp [evt]
@[simp] theorem evt_sk (e : Ev) (q : Req) (pay : Nat) (s : State) : (evt e q pay s).sk = s.sk := by simp [evt]
@[simp] theorem evt_hf (e : Ev) (q : Req) (pay : Nat) (s : State) : (evt e q pay s).hf = s.hf := by simp [evt]
@[simp] theorem evt_plog (e : Ev) (q : Req) (pay : Nat) (s : State) : (evt e q pay s).plog = s.plog := by simp [evt]
@[simp] theorem evt_wkeys (e : Ev) (q : Req) (pay : Nat) (s : State) : (evt e q pay s).wkeys = s.wkeys := by simp [evt]
@[simp] theorem evt_hw (e : Ev) (q : Req) (pay : Nat) (s : State) : (evt e q pay s).hw = s.hw := by simp [evt]
@[simp] theorem evt_pm (e : Ev) (q : Req) (pay : Nat) (s : State) : (evt e q pay s).pm = s.pm := by simp [evt]
@[simp] theorem evt_ck (e : Ev) (q : Req) (pay : Nat) (s : State) : (evt e q pay s).ck = s.ck := by simp [evt]
@[simp] theorem evt_evacBy (e : Ev) (q : Req) (pay : Nat) (s : State) : (evt e q pay s).evacBy = s.evacBy := by simp [evt]
@[simp] theorem evt_ly (e : Ev) (q : Req) (pay : Nat) (s : State) : (evt e q pay s).ly = s.ly := by simp [evt]
@[simp] theorem evt_tap (e : Ev) (q : Req) (pay : Nat) (s : State) : (evt e q pay s).tap = s.tap := by simp [evt]
@[simp] theorem send_pending (k : Mk) (args : List Nat) (data : List Byte) (s : State) : (send k args data s).pending = s.pending := rfl
@[simp] theorem send_span (k : Mk) (args : List Nat) (data : List Byte) (s : State) : (send k args data s).span = s.span := rfl
@[simp] theorem send_uptime (k : Mk) (args : List Nat) (data : List Byte) (s : State) : (send k args data s).uptime = s.uptime := rfl
@[simp] theorem send_fv (k : Mk) (args : List Nat) (data : List Byte) (s : State) : (send k args data s).fv = s.fv := rfl
@[simp] theorem send_regs (k : Mk) (args : List Nat) (data : List Byte) (s : State) : (send k args data s).regs = s.regs := rfl
@[simp] theorem send_ctr (k : Mk) (args : List Nat) (data : List Byte) (s : State) : (send k args data s).ctr = s.ctr := rfl
@[simp] theorem send_mem (k : Mk) (args : List Nat) (data : List Byte) (s : State) : (send k args data s).mem = s.mem := rfl
@[simp] theorem send_hmem (k : Mk) (args : List Nat) (data : List Byte) (s : State) : (send k args data s).hmem = s.hmem := rfl
@[simp] theorem send_evts (k : Mk) (args : List Nat) (data : List Byte) (s : State) : (send k args data s).evts = s.evts := rfl
@[simp] theorem send_evtSeq (k : Mk) (args : List Nat) (data : List Byte) (s : State) : (send k args data s).evtSeq = s.evtSeq := rfl
@[simp] theorem send_evtRate (k : Mk) (args : List Nat) (data : List Byte) (s : State) : (send k args data s).evtRate = s.evtRate := rfl
@[simp] theorem send_evtSupp (k : Mk) (args : List Nat) (data : List Byte) (s : State) : (send k args data s).evtSupp = s.evtSupp := rfl
@[simp] theorem send_journal (k : Mk) (args : List Nat) (data : List Byte) (s : State) : (send k args data s).journal = s.journal := rfl
@[simp] theorem send_recs (k : Mk) (args : List Nat) (data : List Byte) (s : State) : (send k args data s).recs = s.recs := rfl
@[simp] theorem send_ax (k : Mk) (args : List Nat) (data : List Byte) (s : State) : (send k args data s).ax = s.ax := rfl
@[simp] theorem send_lay (k : Mk) (args : List Nat) (data : List Byte) (s : State) : (send k args data s).lay = s.lay := rfl
@[simp] theorem send_hp (k : Mk) (args : List Nat) (data : List Byte) (s : State) : (send k args data s).hp = s.hp := rfl
@[simp] theorem send_cp (k : Mk) (args : List Nat) (data : List Byte) (s : State) : (send k args data s).cp = s.cp := rfl
@[simp] theorem send_ht (k : Mk) (args : List Nat) (data : List Byte) (s : State) : (send k args data s).ht = s.ht := rfl
@[simp] theorem send_pfx (k : Mk) (args : List Nat) (data : List Byte) (s : State) : (send k args data s).pfx = s.pfx := rfl
@[simp] theorem send_sp (k : Mk) (args : List Nat) (data : List Byte) (s : State) : (send k args data s).sp = s.sp := rfl
@[simp] theorem send_engs (k : Mk) (args : List Nat) (data : List Byte) (s : State) : (send k args data s).engs = s.engs := rfl
@[simp] theorem send_la (k : Mk) (args : List Nat) (data : List Byte) (s : State) : (send k args data s).la = s.la := rfl
@[simp] theorem send_spn (k : Mk) (args : List Nat) (data : List Byte) (s : State) : (send k args data s).spn = s.spn := rfl
@[simp] theorem send_wh (k : Mk) (args : List Nat) (data : List Byte) (s : State) : (send k args data s).wh = s.wh := rfl
@[simp] theorem send_bt (k : Mk) (args : List Nat) (data : List Byte) (s : State) : (send k args data s).bt = s.bt := rfl
@[simp] theorem send_ad (k : Mk) (args : List Nat) (data : List Byte) (s : State) : (send k args data s).ad = s.ad := rfl
@[simp] theorem send_sk (k : Mk) (args : List Nat) (data : List Byte) (s : State) : (send k args data s).sk = s.sk := rfl
@[simp] theorem send_hf (k : Mk) (args : List Nat) (data : List Byte) (s : State) : (send k args data s).hf = s.hf := rfl
@[simp] theorem send_plog (k : Mk) (args : List Nat) (data : List Byte) (s : State) : (send k args data s).plog = s.plog := rfl
@[simp] theorem send_wkeys (k : Mk) (args : List Nat) (data : List Byte) (s : State) : (send k args data s).wkeys = s.wkeys := rfl
@[simp] theorem send_hw (k : Mk) (args : List Nat) (data : List Byte) (s : State) : (send k args data s).hw = s.hw := rfl
@[simp] theorem send_pm (k : Mk) (args : List Nat) (data : List Byte) (s : State) : (send k args data s).pm = s.pm := rfl
@[simp] theorem send_ck (k : Mk) (args : List Nat) (data : List Byte) (s : State) : (send k args data s).ck = s.ck := rfl
@[simp] theorem send_evacBy (k : Mk) (args : List Nat) (data : List Byte) (s : State) : (send k args data s).evacBy = s.evacBy := rfl
@[simp] theorem send_ly (k : Mk) (args : List Nat) (data : List Byte) (s : State) : (send k args data s).ly = s.ly := rfl
@[simp] theorem send_tap (k : Mk) (args : List Nat) (data : List Byte) (s : State) : (send k args data s).tap = s.tap := rfl
@[simp] theorem wrBytes_pending (a : Nat) (bs : List Byte) (s : State) : (wrBytes a bs s).pending = s.pending := by unfold wrBytes; (try dsimp only) <;> (repeat' split) <;> first | rfl | simp
@[simp] theorem wrBytes_span (a : Nat) (bs : List Byte) (s : State) : (wrBytes a bs s).span = s.span := by unfold wrBytes; (try dsimp only) <;> (repeat' split) <;> first | rfl | simp
@[simp] theorem wrBytes_uptime (a : Nat) (bs : List Byte) (s : State) : (wrBytes a bs s).uptime = s.uptime := by unfold wrBytes; (try dsimp only) <;> (repeat' split) <;> first | rfl | simp
@[simp] theorem wrBytes_fv (a : Nat) (bs : List Byte) (s : State) : (wrBytes a bs s).fv = s.fv := by unfold wrBytes; (try dsimp only) <;> (repeat' split) <;> first | rfl | simp
@[simp] theorem wrBytes_regs (a : Nat) (bs : List Byte) (s : State) : (wrBytes a bs s).regs = s.regs := by unfold wrBytes; (try dsimp only) <;> (repeat' split) <;> first | rfl | simp
@[simp] theorem wrBytes_ctr (a : Nat) (bs : List Byte) (s : State) : (wrBytes a bs s).ctr = s.ctr := by unfold wrBytes; (try dsimp only) <;> (repeat' split) <;> first | rfl | simp
@[simp] theorem wrBytes_evts (a : Nat) (bs : List Byte) (s : State) : (wrBytes a bs s).evts = s.evts := by unfold wrBytes; (try dsimp only) <;> (repeat' split) <;> first | rfl | simp
@[simp] theorem wrBytes_evtSeq (a : Nat) (bs : List Byte) (s : State) : (wrBytes a bs s).evtSeq = s.evtSeq := by unfold wrBytes; (try dsimp only) <;> (repeat' split) <;> first | rfl | simp
@[simp] theorem wrBytes_evtRate (a : Nat) (bs : List Byte) (s : State) : (wrBytes a bs s).evtRate = s.evtRate := by unfold wrBytes; (try dsimp only) <;> (repeat' split) <;> first | rfl | simp
@[simp] theorem wrBytes_evtSupp (a : Nat) (bs : List Byte) (s : State) : (wrBytes a bs s).evtSupp = s.evtSupp := by unfold wrBytes; (try dsimp only) <;> (repeat' split) <;> first | rfl | simp
@[simp] theorem wrBytes_journal (a : Nat) (bs : List Byte) (s : State) : (wrBytes a bs s).journal = s.journal := by unfold wrBytes; (try dsimp only) <;> (repeat' split) <;> first | rfl | simp
@[simp] theorem wrBytes_tx (a : Nat) (bs : List Byte) (s : State) : (wrBytes a bs s).tx = s.tx := by unfold wrBytes; (try dsimp only) <;> (repeat' split) <;> first | rfl | simp
@[simp] theorem wrBytes_recs (a : Nat) (bs : List Byte) (s : State) : (wrBytes a bs s).recs = s.recs := by unfold wrBytes; (try dsimp only) <;> (repeat' split) <;> first | rfl | simp
@[simp] theorem wrBytes_ax (a : Nat) (bs : List Byte) (s : State) : (wrBytes a bs s).ax = s.ax := by unfold wrBytes; (try dsimp only) <;> (repeat' split) <;> first | rfl | simp
@[simp] theorem wrBytes_hp (a : Nat) (bs : List Byte) (s : State) : (wrBytes a bs s).hp = s.hp := by unfold wrBytes; (try dsimp only) <;> (repeat' split) <;> first | rfl | simp
@[simp] theorem wrBytes_cp (a : Nat) (bs : List Byte) (s : State) : (wrBytes a bs s).cp = s.cp := by unfold wrBytes; (try dsimp only) <;> (repeat' split) <;> first | rfl | simp
@[simp] theorem wrBytes_ht (a : Nat) (bs : List Byte) (s : State) : (wrBytes a bs s).ht = s.ht := by unfold wrBytes; (try dsimp only) <;> (repeat' split) <;> first | rfl | simp
@[simp] theorem wrBytes_pfx (a : Nat) (bs : List Byte) (s : State) : (wrBytes a bs s).pfx = s.pfx := by unfold wrBytes; (try dsimp only) <;> (repeat' split) <;> first | rfl | simp
@[simp] theorem wrBytes_sp (a : Nat) (bs : List Byte) (s : State) : (wrBytes a bs s).sp = s.sp := by unfold wrBytes; (try dsimp only) <;> (repeat' split) <;> first | rfl | simp
@[simp] theorem wrBytes_engs (a : Nat) (bs : List Byte) (s : State) : (wrBytes a bs s).engs = s.engs := by unfold wrBytes; (try dsimp only) <;> (repeat' split) <;> first | rfl | simp
@[simp] theorem wrBytes_la (a : Nat) (bs : List Byte) (s : State) : (wrBytes a bs s).la = s.la := by unfold wrBytes; (try dsimp only) <;> (repeat' split) <;> first | rfl | simp
@[simp] theorem wrBytes_spn (a : Nat) (bs : List Byte) (s : State) : (wrBytes a bs s).spn = s.spn := by unfold wrBytes; (try dsimp only) <;> (repeat' split) <;> first | rfl | simp
@[simp] theorem wrBytes_wh (a : Nat) (bs : List Byte) (s : State) : (wrBytes a bs s).wh = s.wh := by unfold wrBytes; (try dsimp only) <;> (repeat' split) <;> first | rfl | simp
@[simp] theorem wrBytes_bt (a : Nat) (bs : List Byte) (s : State) : (wrBytes a bs s).bt = s.bt := by unfold wrBytes; (try dsimp only) <;> (repeat' split) <;> first | rfl | simp
@[simp] theorem wrBytes_ad (a : Nat) (bs : List Byte) (s : State) : (wrBytes a bs s).ad = s.ad := by unfold wrBytes; (try dsimp only) <;> (repeat' split) <;> first | rfl | simp
@[simp] theorem wrBytes_sk (a : Nat) (bs : List Byte) (s : State) : (wrBytes a bs s).sk = s.sk := by unfold wrBytes; (try dsimp only) <;> (repeat' split) <;> first | rfl | simp
@[simp] theorem wrBytes_hf (a : Nat) (bs : List Byte) (s : State) : (wrBytes a bs s).hf = s.hf := by unfold wrBytes; (try dsimp only) <;> (repeat' split) <;> first | rfl | simp
@[simp] theorem wrBytes_plog (a : Nat) (bs : List Byte) (s : State) : (wrBytes a bs s).plog = s.plog := by unfold wrBytes; (try dsimp only) <;> (repeat' split) <;> first | rfl | simp
@[simp] theorem wrBytes_wkeys (a : Nat) (bs : List Byte) (s : State) : (wrBytes a bs s).wkeys = s.wkeys := by unfold wrBytes; (try dsimp only) <;> (repeat' split) <;> first | rfl | simp
@[simp] theorem wrBytes_hw (a : Nat) (bs : List Byte) (s : State) : (wrBytes a bs s).hw = s.hw := by unfold wrBytes; (try dsimp only) <;> (repeat' split) <;> first | rfl | simp
@[simp] theorem wrBytes_pm (a : Nat) (bs : List Byte) (s : State) : (wrBytes a bs s).pm = s.pm := by unfold wrBytes; (try dsimp only) <;> (repeat' split) <;> first | rfl | simp
@[simp] theorem wrBytes_ck (a : Nat) (bs : List Byte) (s : State) : (wrBytes a bs s).ck = s.ck := by unfold wrBytes; (try dsimp only) <;> (repeat' split) <;> first | rfl | simp
@[simp] theorem wrBytes_evacBy (a : Nat) (bs : List Byte) (s : State) : (wrBytes a bs s).evacBy = s.evacBy := by unfold wrBytes; (try dsimp only) <;> (repeat' split) <;> first | rfl | simp
@[simp] theorem wrBytes_ly (a : Nat) (bs : List Byte) (s : State) : (wrBytes a bs s).ly = s.ly := by unfold wrBytes; (try dsimp only) <;> (repeat' split) <;> first | rfl | simp
@[simp] theorem wrBytes_tap (a : Nat) (bs : List Byte) (s : State) : (wrBytes a bs s).tap = s.tap := by unfold wrBytes; (try dsimp only) <;> (repeat' split) <;> first | rfl | simp
@[simp] theorem regPut_pending (ra : RegAt) (v : Nat) (s : State) : (regPut ra v s).pending = s.pending := rfl
@[simp] theorem regPut_span (ra : RegAt) (v : Nat) (s : State) : (regPut ra v s).span = s.span := rfl
@[simp] theorem regPut_uptime (ra : RegAt) (v : Nat) (s : State) : (regPut ra v s).uptime = s.uptime := rfl
@[simp] theorem regPut_fv (ra : RegAt) (v : Nat) (s : State) : (regPut ra v s).fv = s.fv := rfl
@[simp] theorem regPut_ctr (ra : RegAt) (v : Nat) (s : State) : (regPut ra v s).ctr = s.ctr := rfl
@[simp] theorem regPut_mem (ra : RegAt) (v : Nat) (s : State) : (regPut ra v s).mem = s.mem := rfl
@[simp] theorem regPut_hmem (ra : RegAt) (v : Nat) (s : State) : (regPut ra v s).hmem = s.hmem := rfl
@[simp] theorem regPut_evts (ra : RegAt) (v : Nat) (s : State) : (regPut ra v s).evts = s.evts := rfl
@[simp] theorem regPut_evtSeq (ra : RegAt) (v : Nat) (s : State) : (regPut ra v s).evtSeq = s.evtSeq := rfl
@[simp] theorem regPut_evtRate (ra : RegAt) (v : Nat) (s : State) : (regPut ra v s).evtRate = s.evtRate := rfl
@[simp] theorem regPut_evtSupp (ra : RegAt) (v : Nat) (s : State) : (regPut ra v s).evtSupp = s.evtSupp := rfl
@[simp] theorem regPut_journal (ra : RegAt) (v : Nat) (s : State) : (regPut ra v s).journal = s.journal := rfl
@[simp] theorem regPut_tx (ra : RegAt) (v : Nat) (s : State) : (regPut ra v s).tx = s.tx := rfl
@[simp] theorem regPut_recs (ra : RegAt) (v : Nat) (s : State) : (regPut ra v s).recs = s.recs := rfl
@[simp] theorem regPut_ax (ra : RegAt) (v : Nat) (s : State) : (regPut ra v s).ax = s.ax := rfl
@[simp] theorem regPut_lay (ra : RegAt) (v : Nat) (s : State) : (regPut ra v s).lay = s.lay := rfl
@[simp] theorem regPut_hp (ra : RegAt) (v : Nat) (s : State) : (regPut ra v s).hp = s.hp := rfl
@[simp] theorem regPut_cp (ra : RegAt) (v : Nat) (s : State) : (regPut ra v s).cp = s.cp := rfl
@[simp] theorem regPut_ht (ra : RegAt) (v : Nat) (s : State) : (regPut ra v s).ht = s.ht := rfl
@[simp] theorem regPut_pfx (ra : RegAt) (v : Nat) (s : State) : (regPut ra v s).pfx = s.pfx := rfl
@[simp] theorem regPut_sp (ra : RegAt) (v : Nat) (s : State) : (regPut ra v s).sp = s.sp := rfl
@[simp] theorem regPut_engs (ra : RegAt) (v : Nat) (s : State) : (regPut ra v s).engs = s.engs := rfl
@[simp] theorem regPut_la (ra : RegAt) (v : Nat) (s : State) : (regPut ra v s).la = s.la := rfl
@[simp] theorem regPut_spn (ra : RegAt) (v : Nat) (s : State) : (regPut ra v s).spn = s.spn := rfl
@[simp] theorem regPut_wh (ra : RegAt) (v : Nat) (s : State) : (regPut ra v s).wh = s.wh := rfl
@[simp] theorem regPut_bt (ra : RegAt) (v : Nat) (s : State) : (regPut ra v s).bt = s.bt := rfl
@[simp] theorem regPut_ad (ra : RegAt) (v : Nat) (s : State) : (regPut ra v s).ad = s.ad := rfl
@[simp] theorem regPut_sk (ra : RegAt) (v : Nat) (s : State) : (regPut ra v s).sk = s.sk := rfl
@[simp] theorem regPut_hf (ra : RegAt) (v : Nat) (s : State) : (regPut ra v s).hf = s.hf := rfl
@[simp] theorem regPut_plog (ra : RegAt) (v : Nat) (s : State) : (regPut ra v s).plog = s.plog := rfl
@[simp] theorem regPut_wkeys (ra : RegAt) (v : Nat) (s : State) : (regPut ra v s).wkeys = s.wkeys := rfl
@[simp] theorem regPut_hw (ra : RegAt) (v : Nat) (s : State) : (regPut ra v s).hw = s.hw := rfl
@[simp] theorem regPut_pm (ra : RegAt) (v : Nat) (s : State) : (regPut ra v s).pm = s.pm := rfl
@[simp] theorem regPut_ck (ra : RegAt) (v : Nat) (s : State) : (regPut ra v s).ck = s.ck := rfl
@[simp] theorem regPut_evacBy (ra : RegAt) (v : Nat) (s : State) : (regPut ra v s).evacBy = s.evacBy := rfl
@[simp] theorem regPut_ly (ra : RegAt) (v : Nat) (s : State) : (regPut ra v s).ly = s.ly := rfl
@[simp] theorem regPut_tap (ra : RegAt) (v : Nat) (s : State) : (regPut ra v s).tap = s.tap := rfl
@[simp] theorem rp_pending (id : RegId) (i j k : Nat) (v : Nat) (s : State) : (rp id i j k v s).pending = s.pending := by simp [rp]
@[simp] theorem rp_span (id : RegId) (i j k : Nat) (v : Nat) (s : State) : (rp id i j k v s).span = s.span := by simp [rp]
@[simp] theorem rp_uptime (id : RegId) (i j k : Nat) (v : Nat) (s : State) : (rp id i j k v s).uptime = s.uptime := by simp [rp]
@[simp] theorem rp_fv (id : RegId) (i j k : Nat) (v : Nat) (s : State) : (rp id i j k v s).fv = s.fv := by simp [rp]
@[simp] theorem rp_ctr (id : RegId) (i j k : Nat) (v : Nat) (s : State) : (rp id i j k v s).ctr = s.ctr := by simp [rp]
@[simp] theorem rp_mem (id : RegId) (i j k : Nat) (v : Nat) (s : State) : (rp id i j k v s).mem = s.mem := by simp [rp]
@[simp] theorem rp_hmem (id : RegId) (i j k : Nat) (v : Nat) (s : State) : (rp id i j k v s).hmem = s.hmem := by simp [rp]
@[simp] theorem rp_evts (id : RegId) (i j k : Nat) (v : Nat) (s : State) : (rp id i j k v s).evts = s.evts := by simp [rp]
@[simp] theorem rp_evtSeq (id : RegId) (i j k : Nat) (v : Nat) (s : State) : (rp id i j k v s).evtSeq = s.evtSeq := by simp [rp]
@[simp] theorem rp_evtRate (id : RegId) (i j k : Nat) (v : Nat) (s : State) : (rp id i j k v s).evtRate = s.evtRate := by simp [rp]
@[simp] theorem rp_evtSupp (id : RegId) (i j k : Nat) (v : Nat) (s : State) : (rp id i j k v s).evtSupp = s.evtSupp := by simp [rp]
@[simp] theorem rp_journal (id : RegId) (i j k : Nat) (v : Nat) (s : State) : (rp id i j k v s).journal = s.journal := by simp [rp]
@[simp] theorem rp_tx (id : RegId) (i j k : Nat) (v : Nat) (s : State) : (rp id i j k v s).tx = s.tx := by simp [rp]
@[simp] theorem rp_recs (id : RegId) (i j k : Nat) (v : Nat) (s : State) : (rp id i j k v s).recs = s.recs := by simp [rp]
@[simp] theorem rp_ax (id : RegId) (i j k : Nat) (v : Nat) (s : State) : (rp id i j k v s).ax = s.ax := by simp [rp]
@[simp] theorem rp_lay (id : RegId) (i j k : Nat) (v : Nat) (s : State) : (rp id i j k v s).lay = s.lay := by simp [rp]
@[simp] theorem rp_hp (id : RegId) (i j k : Nat) (v : Nat) (s : State) : (rp id i j k v s).hp = s.hp := by simp [rp]
@[simp] theorem rp_cp (id : RegId) (i j k : Nat) (v : Nat) (s : State) : (rp id i j k v s).cp = s.cp := by simp [rp]
@[simp] theorem rp_ht (id : RegId) (i j k : Nat) (v : Nat) (s : State) : (rp id i j k v s).ht = s.ht := by simp [rp]
@[simp] theorem rp_pfx (id : RegId) (i j k : Nat) (v : Nat) (s : State) : (rp id i j k v s).pfx = s.pfx := by simp [rp]
@[simp] theorem rp_sp (id : RegId) (i j k : Nat) (v : Nat) (s : State) : (rp id i j k v s).sp = s.sp := by simp [rp]
@[simp] theorem rp_engs (id : RegId) (i j k : Nat) (v : Nat) (s : State) : (rp id i j k v s).engs = s.engs := by simp [rp]
@[simp] theorem rp_la (id : RegId) (i j k : Nat) (v : Nat) (s : State) : (rp id i j k v s).la = s.la := by simp [rp]
@[simp] theorem rp_spn (id : RegId) (i j k : Nat) (v : Nat) (s : State) : (rp id i j k v s).spn = s.spn := by simp [rp]
@[simp] theorem rp_wh (id : RegId) (i j k : Nat) (v : Nat) (s : State) : (rp id i j k v s).wh = s.wh := by simp [rp]
@[simp] theorem rp_bt (id : RegId) (i j k : Nat) (v : Nat) (s : State) : (rp id i j k v s).bt = s.bt := by simp [rp]
@[simp] theorem rp_ad (id : RegId) (i j k : Nat) (v : Nat) (s : State) : (rp id i j k v s).ad = s.ad := by simp [rp]
@[simp] theorem rp_sk (id : RegId) (i j k : Nat) (v : Nat) (s : State) : (rp id i j k v s).sk = s.sk := by simp [rp]
@[simp] theorem rp_hf (id : RegId) (i j k : Nat) (v : Nat) (s : State) : (rp id i j k v s).hf = s.hf := by simp [rp]
@[simp] theorem rp_plog (id : RegId) (i j k : Nat) (v : Nat) (s : State) : (rp id i j k v s).plog = s.plog := by simp [rp]
@[simp] theorem rp_wkeys (id : RegId) (i j k : Nat) (v : Nat) (s : State) : (rp id i j k v s).wkeys = s.wkeys := by simp [rp]
@[simp] theorem rp_hw (id : RegId) (i j k : Nat) (v : Nat) (s : State) : (rp id i j k v s).hw = s.hw := by simp [rp]
@[simp] theorem rp_pm (id : RegId) (i j k : Nat) (v : Nat) (s : State) : (rp id i j k v s).pm = s.pm := by simp [rp]
@[simp] theorem rp_ck (id : RegId) (i j k : Nat) (v : Nat) (s : State) : (rp id i j k v s).ck = s.ck := by simp [rp]
@[simp] theorem rp_evacBy (id : RegId) (i j k : Nat) (v : Nat) (s : State) : (rp id i j k v s).evacBy = s.evacBy := by simp [rp]
@[simp] theorem rp_ly (id : RegId) (i j k : Nat) (v : Nat) (s : State) : (rp id i j k v s).ly = s.ly := by simp [rp]
@[simp] theorem rp_tap (id : RegId) (i j k : Nat) (v : Nat) (s : State) : (rp id i j k v s).tap = s.tap := by simp [rp]
@[simp] theorem regSetBit_pending (id : RegId) (i bitNo : Nat) (v : Bool) (s : State) : (regSetBit id i bitNo v s).pending = s.pending := by unfold regSetBit; (try dsimp only) <;> (repeat' split) <;> first | rfl | simp
@[simp] theorem regSetBit_span (id : RegId) (i bitNo : Nat) (v : Bool) (s : State) : (regSetBit id i bitNo v s).span = s.span := by unfold regSetBit; (try dsimp only) <;> (repeat' split) <;> first | rfl | simp
@[simp] theorem regSetBit_uptime (id : RegId) (i bitNo : Nat) (v : Bool) (s : State) : (regSetBit id i bitNo v s).uptime = s.uptime := by unfold regSetBit; (try dsimp only) <;> (repeat' split) <;> first | rfl | simp
@[simp] theorem regSetBit_fv (id : RegId) (i bitNo : Nat) (v : Bool) (s : State) : (regSetBit id i bitNo v s).fv = s.fv := by unfold regSetBit; (try dsimp only) <;> (repeat' split) <;> first | rfl | simp
@[simp] theorem regSetBit_ctr (id : RegId) (i bitNo : Nat) (v : Bool) (s : State) : (regSetBit id i bitNo v s).ctr = s.ctr := by unfold regSetBit; (try dsimp only) <;> (repeat' split) <;> first | rfl | simp
@[simp] theorem regSetBit_mem (id : RegId) (i bitNo : Nat) (v : Bool) (s : State) : (regSetBit id i bitNo v s).mem = s.mem := by unfold regSetBit; (try dsimp only) <;> (repeat' split) <;> first | rfl | simp
@[simp] theorem regSetBit_hmem (id : RegId) (i bitNo : Nat) (v : Bool) (s : State) : (regSetBit id i bitNo v s).hmem = s.hmem := by unfold regSetBit; (try dsimp only) <;> (repeat' split) <;> first | rfl | simp
@[simp] theorem regSetBit_evts (id : RegId) (i bitNo : Nat) (v : Bool) (s : State) : (regSetBit id i bitNo v s).evts = s.evts := by unfold regSetBit; (try dsimp only) <;> (repeat' split) <;> first | rfl | simp
@[simp] theorem regSetBit_evtSeq (id : RegId) (i bitNo : Nat) (v : Bool) (s : State) : (regSetBit id i bitNo v s).evtSeq = s.evtSeq := by unfold regSetBit; (try dsimp only) <;> (repeat' split) <;> first | rfl | simp
@[simp] theorem regSetBit_evtRate (id : RegId) (i bitNo : Nat) (v : Bool) (s : State) : (regSetBit id i bitNo v s).evtRate = s.evtRate := by unfold regSetBit; (try dsimp only) <;> (repeat' split) <;> first | rfl | simp
@[simp] theorem regSetBit_evtSupp (id : RegId) (i bitNo : Nat) (v : Bool) (s : State) : (regSetBit id i bitNo v s).evtSupp = s.evtSupp := by unfold regSetBit; (try dsimp only) <;> (repeat' split) <;> first | rfl | simp
@[simp] theorem regSetBit_journal (id : RegId) (i bitNo : Nat) (v : Bool) (s : State) : (regSetBit id i bitNo v s).journal = s.journal := by unfold regSetBit; (try dsimp only) <;> (repeat' split) <;> first | rfl | simp
@[simp] theorem regSetBit_tx (id : RegId) (i bitNo : Nat) (v : Bool) (s : State) : (regSetBit id i bitNo v s).tx = s.tx := by unfold regSetBit; (try dsimp only) <;> (repeat' split) <;> first | rfl | simp
@[simp] theorem regSetBit_recs (id : RegId) (i bitNo : Nat) (v : Bool) (s : State) : (regSetBit id i bitNo v s).recs = s.recs := by unfold regSetBit; (try dsimp only) <;> (repeat' split) <;> first | rfl | simp
@[simp] theorem regSetBit_ax (id : RegId) (i bitNo : Nat) (v : Bool) (s : State) : (regSetBit id i bitNo v s).ax = s.ax := by unfold regSetBit; (try dsimp only) <;> (repeat' split) <;> first | rfl | simp
@[simp] theorem regSetBit_lay (id : RegId) (i bitNo : Nat) (v : Bool) (s : State) : (regSetBit id i bitNo v s).lay = s.lay := by unfold regSetBit; (try dsimp only) <;> (repeat' split) <;> first | rfl | simp
@[simp] theorem regSetBit_hp (id : RegId) (i bitNo : Nat) (v : Bool) (s : State) : (regSetBit id i bitNo v s).hp = s.hp := by unfold regSetBit; (try dsimp only) <;> (repeat' split) <;> first | rfl | simp
@[simp] theorem regSetBit_cp (id : RegId) (i bitNo : Nat) (v : Bool) (s : State) : (regSetBit id i bitNo v s).cp = s.cp := by unfold regSetBit; (try dsimp only) <;> (repeat' split) <;> first | rfl | simp
@[simp] theorem regSetBit_ht (id : RegId) (i bitNo : Nat) (v : Bool) (s : State) : (regSetBit id i bitNo v s).ht = s.ht := by unfold regSetBit; (try dsimp only) <;> (repeat' split) <;> first | rfl | simp
@[simp] theorem regSetBit_pfx (id : RegId) (i bitNo : Nat) (v : Bool) (s : State) : (regSetBit id i bitNo v s).pfx = s.pfx := by unfold regSetBit; (try dsimp only) <;> (repeat' split) <;> first | rfl | simp
@[simp] theorem regSetBit_sp (id : RegId) (i bitNo : Nat) (v : Bool) (s : State) : (regSetBit id i bitNo v s).sp = s.sp := by unfold regSetBit; (try dsimp only) <;> (repeat' split) <;> first | rfl | simp
@[simp] theorem regSetBit_engs (id : RegId) (i bitNo : Nat) (v : Bool) (s : State) : (regSetBit id i bitNo v s).engs = s.engs := by unfold regSetBit; (try dsimp only) <;> (repeat' split) <;> first | rfl | simp
@[simp] theorem regSetBit_la (id : RegId) (i bitNo : Nat) (v : Bool) (s : State) : (regSetBit id i bitNo v s).la = s.la := by unfold regSetBit; (try dsimp only) <;> (repeat' split) <;> first | rfl | simp
@[simp] theorem regSetBit_spn (id : RegId) (i bitNo : Nat) (v : Bool) (s : State) : (regSetBit id i bitNo v s).spn = s.spn := by unfold regSetBit; (try dsimp only) <;> (repeat' split) <;> first | rfl | simp
@[simp] theorem regSetBit_wh (id : RegId) (i bitNo : Nat) (v : Bool) (s : State) : (regSetBit id i bitNo v s).wh = s.wh := by unfold regSetBit; (try dsimp only) <;> (repeat' split) <;> first | rfl | simp
@[simp] theorem regSetBit_bt (id : RegId) (i bitNo : Nat) (v : Bool) (s : State) : (regSetBit id i bitNo v s).bt = s.bt := by unfold regSetBit; (try dsimp only) <;> (repeat' split) <;> first | rfl | simp
@[simp] theorem regSetBit_ad (id : RegId) (i bitNo : Nat) (v : Bool) (s : State) : (regSetBit id i bitNo v s).ad = s.ad := by unfold regSetBit; (try dsimp only) <;> (repeat' split) <;> first | rfl | simp
@[simp] theorem regSetBit_sk (id : RegId) (i bitNo : Nat) (v : Bool) (s : State) : (regSetBit id i bitNo v s).sk = s.sk := by unfold regSetBit; (try dsimp only) <;> (repeat' split) <;> first | rfl | simp
@[simp] theorem regSetBit_hf (id : RegId) (i bitNo : Nat) (v : Bool) (s : State) : (regSetBit id i bitNo v s).hf = s.hf := by unfold regSetBit; (try dsimp only) <;> (repeat' split) <;> first | rfl | simp
@[simp] theorem regSetBit_plog (id : RegId) (i bitNo : Nat) (v : Bool) (s : State) : (regSetBit id i bitNo v s).plog = s.plog := by unfold regSetBit; (try dsimp only) <;> (repeat' split) <;> first | rfl | simp
@[simp] theorem regSetBit_wkeys (id : RegId) (i bitNo : Nat) (v : Bool) (s : State) : (regSetBit id i bitNo v s).wkeys = s.wkeys := by unfold regSetBit; (try dsimp only) <;> (repeat' split) <;> first | rfl | simp
@[simp] theorem regSetBit_hw (id : RegId) (i bitNo : Nat) (v : Bool) (s : State) : (regSetBit id i bitNo v s).hw = s.hw := by unfold regSetBit; (try dsimp only) <;> (repeat' split) <;> first | rfl | simp
@[simp] theorem regSetBit_pm (id : RegId) (i bitNo : Nat) (v : Bool) (s : State) : (regSetBit id i bitNo v s).pm = s.pm := by unfold regSetBit; (try dsimp only) <;> (repeat' split) <;> first | rfl | simp
@[simp] theorem regSetBit_ck (id : RegId) (i bitNo : Nat) (v : Bool) (s : State) : (regSetBit id i bitNo v s).ck = s.ck := by unfold regSetBit; (try dsimp only) <;> (repeat' split) <;> first | rfl | simp
@[simp] theorem regSetBit_evacBy (id : RegId) (i bitNo : Nat) (v : Bool) (s : State) : (regSetBit id i bitNo v s).evacBy = s.evacBy := by unfold regSetBit; (try dsimp only) <;> (repeat' split) <;> first | rfl | simp
@[simp] theorem regSetBit_ly (id : RegId) (i bitNo : Nat) (v : Bool) (s : State) : (regSetBit id i bitNo v s).ly = s.ly := by unfold regSetBit; (try dsimp only) <;> (repeat' split) <;> first | rfl | simp
@[simp] theorem regSetBit_tap (id : RegId) (i bitNo : Nat) (v : Bool) (s : State) : (regSetBit id i bitNo v s).tap = s.tap := by unfold regSetBit; (try dsimp only) <;> (repeat' split) <;> first | rfl | simp
@[simp] theorem setRing_pending (r : Nat) (x : Ring) (s : State) : (setRing r x s).pending = s.pending := rfl
@[simp] theorem setRing_span (r : Nat) (x : Ring) (s : State) : (setRing r x s).span = s.span := rfl
@[simp] theorem setRing_uptime (r : Nat) (x : Ring) (s : State) : (setRing r x s).uptime = s.uptime := rfl
@[simp] theorem setRing_fv (r : Nat) (x : Ring) (s : State) : (setRing r x s).fv = s.fv := rfl
@[simp] theorem setRing_regs (r : Nat) (x : Ring) (s : State) : (setRing r x s).regs = s.regs := rfl
@[simp] theorem setRing_ctr (r : Nat) (x : Ring) (s : State) : (setRing r x s).ctr = s.ctr := rfl
@[simp] theorem setRing_mem (r : Nat) (x : Ring) (s : State) : (setRing r x s).mem = s.mem := rfl
@[simp] theorem setRing_hmem (r : Nat) (x : Ring) (s : State) : (setRing r x s).hmem = s.hmem := rfl
@[simp] theorem setRing_evts (r : Nat) (x : Ring) (s : State) : (setRing r x s).evts = s.evts := rfl
@[simp] theorem setRing_evtSeq (r : Nat) (x : Ring) (s : State) : (setRing r x s).evtSeq = s.evtSeq := rfl
@[simp] theorem setRing_evtRate (r : Nat) (x : Ring) (s : State) : (setRing r x s).evtRate = s.evtRate := rfl
@[simp] theorem setRing_evtSupp (r : Nat) (x : Ring) (s : State) : (setRing r x s).evtSupp = s.evtSupp := rfl
@[simp] theorem setRing_journal (r : Nat) (x : Ring) (s : State) : (setRing r x s).journal = s.journal := rfl
@[simp] theorem setRing_tx (r : Nat) (x : Ring) (s : State) : (setRing r x s).tx = s.tx := rfl
@[simp] theorem setRing_recs (r : Nat) (x : Ring) (s : State) : (setRing r x s).recs = s.recs := rfl
@[simp] theorem setRing_ax (r : Nat) (x : Ring) (s : State) : (setRing r x s).ax = s.ax := rfl
@[simp] theorem setRing_lay (r : Nat) (x : Ring) (s : State) : (setRing r x s).lay = s.lay := rfl
@[simp] theorem setRing_cp (r : Nat) (x : Ring) (s : State) : (setRing r x s).cp = s.cp := rfl
@[simp] theorem setRing_ht (r : Nat) (x : Ring) (s : State) : (setRing r x s).ht = s.ht := rfl
@[simp] theorem setRing_pfx (r : Nat) (x : Ring) (s : State) : (setRing r x s).pfx = s.pfx := rfl
@[simp] theorem setRing_sp (r : Nat) (x : Ring) (s : State) : (setRing r x s).sp = s.sp := rfl
@[simp] theorem setRing_engs (r : Nat) (x : Ring) (s : State) : (setRing r x s).engs = s.engs := rfl
@[simp] theorem setRing_la (r : Nat) (x : Ring) (s : State) : (setRing r x s).la = s.la := rfl
@[simp] theorem setRing_spn (r : Nat) (x : Ring) (s : State) : (setRing r x s).spn = s.spn := rfl
@[simp] theorem setRing_wh (r : Nat) (x : Ring) (s : State) : (setRing r x s).wh = s.wh := rfl
@[simp] theorem setRing_bt (r : Nat) (x : Ring) (s : State) : (setRing r x s).bt = s.bt := rfl
@[simp] theorem setRing_ad (r : Nat) (x : Ring) (s : State) : (setRing r x s).ad = s.ad := rfl
@[simp] theorem setRing_sk (r : Nat) (x : Ring) (s : State) : (setRing r x s).sk = s.sk := rfl
@[simp] theorem setRing_hf (r : Nat) (x : Ring) (s : State) : (setRing r x s).hf = s.hf := rfl
@[simp] theorem setRing_plog (r : Nat) (x : Ring) (s : State) : (setRing r x s).plog = s.plog := rfl
@[simp] theorem setRing_wkeys (r : Nat) (x : Ring) (s : State) : (setRing r x s).wkeys = s.wkeys := rfl
@[simp] theorem setRing_hw (r : Nat) (x : Ring) (s : State) : (setRing r x s).hw = s.hw := rfl
@[simp] theorem setRing_pm (r : Nat) (x : Ring) (s : State) : (setRing r x s).pm = s.pm := rfl
@[simp] theorem setRing_ck (r : Nat) (x : Ring) (s : State) : (setRing r x s).ck = s.ck := rfl
@[simp] theorem setRing_evacBy (r : Nat) (x : Ring) (s : State) : (setRing r x s).evacBy = s.evacBy := rfl
@[simp] theorem setRing_ly (r : Nat) (x : Ring) (s : State) : (setRing r x s).ly = s.ly := rfl
@[simp] theorem setRing_tap (r : Nat) (x : Ring) (s : State) : (setRing r x s).tap = s.tap := rfl
@[simp] theorem sendIrq_pending (r : Nat) (s : State) : (sendIrq r s).pending = s.pending := by unfold sendIrq; (try dsimp only) <;> (repeat' split) <;> first | rfl | simp
@[simp] theorem sendIrq_span (r : Nat) (s : State) : (sendIrq r s).span = s.span := by unfold sendIrq; (try dsimp only) <;> (repeat' split) <;> first | rfl | simp
@[simp] theorem sendIrq_uptime (r : Nat) (s : State) : (sendIrq r s).uptime = s.uptime := by unfold sendIrq; (try dsimp only) <;> (repeat' split) <;> first | rfl | simp
@[simp] theorem sendIrq_fv (r : Nat) (s : State) : (sendIrq r s).fv = s.fv := by unfold sendIrq; (try dsimp only) <;> (repeat' split) <;> first | rfl | simp
@[simp] theorem sendIrq_regs (r : Nat) (s : State) : (sendIrq r s).regs = s.regs := by unfold sendIrq; (try dsimp only) <;> (repeat' split) <;> first | rfl | simp
@[simp] theorem sendIrq_mem (r : Nat) (s : State) : (sendIrq r s).mem = s.mem := by unfold sendIrq; (try dsimp only) <;> (repeat' split) <;> first | rfl | simp
@[simp] theorem sendIrq_hmem (r : Nat) (s : State) : (sendIrq r s).hmem = s.hmem := by unfold sendIrq; (try dsimp only) <;> (repeat' split) <;> first | rfl | simp
@[simp] theorem sendIrq_recs (r : Nat) (s : State) : (sendIrq r s).recs = s.recs := by unfold sendIrq; (try dsimp only) <;> (repeat' split) <;> first | rfl | simp
@[simp] theorem sendIrq_ax (r : Nat) (s : State) : (sendIrq r s).ax = s.ax := by unfold sendIrq; (try dsimp only) <;> (repeat' split) <;> first | rfl | simp
@[simp] theorem sendIrq_lay (r : Nat) (s : State) : (sendIrq r s).lay = s.lay := by unfold sendIrq; (try dsimp only) <;> (repeat' split) <;> first | rfl | simp
@[simp] theorem sendIrq_cp (r : Nat) (s : State) : (sendIrq r s).cp = s.cp := by unfold sendIrq; (try dsimp only) <;> (repeat' split) <;> first | rfl | simp
@[simp] theorem sendIrq_ht (r : Nat) (s : State) : (sendIrq r s).ht = s.ht := by unfold sendIrq; (try dsimp only) <;> (repeat' split) <;> first | rfl | simp
@[simp] theorem sendIrq_pfx (r : Nat) (s : State) : (sendIrq r s).pfx = s.pfx := by unfold sendIrq; (try dsimp only) <;> (repeat' split) <;> first | rfl | simp
@[simp] theorem sendIrq_sp (r : Nat) (s : State) : (sendIrq r s).sp = s.sp := by unfold sendIrq; (try dsimp only) <;> (repeat' split) <;> first | rfl | simp
@[simp] theorem sendIrq_engs (r : Nat) (s : State) : (sendIrq r s).engs = s.engs := by unfold sendIrq; (try dsimp only) <;> (repeat' split) <;> first | rfl | simp
@[simp] theorem sendIrq_la (r : Nat) (s : State) : (sendIrq r s).la = s.la := by unfold sendIrq; (try dsimp only) <;> (repeat' split) <;> first | rfl | simp
@[simp] theorem sendIrq_spn (r : Nat) (s : State) : (sendIrq r s).spn = s.spn := by unfold sendIrq; (try dsimp only) <;> (repeat' split) <;> first | rfl | simp
@[simp] theorem sendIrq_wh (r : Nat) (s : State) : (sendIrq r s).wh = s.wh := by unfold sendIrq; (try dsimp only) <;> (repeat' split) <;> first | rfl | simp
@[simp] theorem sendIrq_bt (r : Nat) (s : State) : (sendIrq r s).bt = s.bt := by unfold sendIrq; (try dsimp only) <;> (repeat' split) <;> first | rfl | simp
@[simp] theorem sendIrq_ad (r : Nat) (s : State) : (sendIrq r s).ad = s.ad := by unfold sendIrq; (try dsimp only) <;> (repeat' split) <;> first | rfl | simp
@[simp] theorem sendIrq_sk (r : Nat) (s : State) : (sendIrq r s).sk = s.sk := by unfold sendIrq; (try dsimp only) <;> (repeat' split) <;> first | rfl | simp
@[simp] theorem sendIrq_hf (r : Nat) (s : State) : (sendIrq r s).hf = s.hf := by unfold sendIrq; (try dsimp only) <;> (repeat' split) <;> first | rfl | simp
@[simp] theorem sendIrq_plog (r : Nat) (s : State) : (sendIrq r s).plog = s.plog := by unfold sendIrq; (try dsimp only) <;> (repeat' split) <;> first | rfl | simp
@[simp] theorem sendIrq_wkeys (r : Nat) (s : State) : (sendIrq r s).wkeys = s.wkeys := by unfold sendIrq; (try dsimp only) <;> (repeat' split) <;> first | rfl | simp
@[simp] theorem sendIrq_hw (r : Nat) (s : State) : (sendIrq r s).hw = s.hw := by unfold sendIrq; (try dsimp only) <;> (repeat' split) <;> first | rfl | simp
@[simp] theorem sendIrq_pm (r : Nat) (s : State) : (sendIrq r s).pm = s.pm := by unfold sendIrq; (try dsimp only) <;> (repeat' split) <;> first | rfl | simp
@[simp] theorem sendIrq_ck (r : Nat) (s : State) : (sendIrq r s).ck = s.ck := by unfold sendIrq; (try dsimp only) <;> (repeat' split) <;> first | rfl | simp
@[simp] theorem sendIrq_evacBy (r : Nat) (s : State) : (sendIrq r s).evacBy = s.evacBy := by unfold sendIrq; (try dsimp only) <;> (repeat' split) <;> first | rfl | simp
@[simp] theorem sendIrq_ly (r : Nat) (s : State) : (sendIrq r s).ly = s.ly := by unfold sendIrq; (try dsimp only) <;> (repeat' split) <;> first | rfl | simp
@[simp] theorem sendIrq_tap (r : Nat) (s : State) : (sendIrq r s).tap = s.tap := by unfold sendIrq; (try dsimp only) <;> (repeat' split) <;> first | rfl | simp
@[simp] theorem accrueIrq_pending (r : Nat) (notify : Bool) (s : State) : (accrueIrq r notify s).pending = s.pending := by unfold accrueIrq; (try dsimp only) <;> (repeat' split) <;> first | rfl | simp
@[simp] theorem accrueIrq_span (r : Nat) (notify : Bool) (s : State) : (accrueIrq r notify s).span = s.span := by unfold accrueIrq; (try dsimp only) <;> (repeat' split) <;> first | rfl | simp
@[simp] theorem accrueIrq_uptime (r : Nat) (notify : Bool) (s : State) : (accrueIrq r notify s).uptime = s.uptime := by unfold accrueIrq; (try dsimp only) <;> (repeat' split) <;> first | rfl | simp
@[simp] theorem accrueIrq_fv (r : Nat) (notify : Bool) (s : State) : (accrueIrq r notify s).fv = s.fv := by unfold accrueIrq; (try dsimp only) <;> (repeat' split) <;> first | rfl | simp
@[simp] theorem accrueIrq_regs (r : Nat) (notify : Bool) (s : State) : (accrueIrq r notify s).regs = s.regs := by unfold accrueIrq; (try dsimp only) <;> (repeat' split) <;> first | rfl | simp
@[simp] theorem accrueIrq_mem (r : Nat) (notify : Bool) (s : State) : (accrueIrq r notify s).mem = s.mem := by unfold accrueIrq; (try dsimp only) <;> (repeat' split) <;> first | rfl | simp
@[simp] theorem accrueIrq_hmem (r : Nat) (notify : Bool) (s : State) : (accrueIrq r notify s).hmem = s.hmem := by unfold accrueIrq; (try dsimp only) <;> (repeat' split) <;> first | rfl | simp
@[simp] theorem accrueIrq_recs (r : Nat) (notify : Bool) (s : State) : (accrueIrq r notify s).recs = s.recs := by unfold accrueIrq; (try dsimp only) <;> (repeat' split) <;> first | rfl | simp
@[simp] theorem accrueIrq_ax (r : Nat) (notify : Bool) (s : State) : (accrueIrq r notify s).ax = s.ax := by unfold accrueIrq; (try dsimp only) <;> (repeat' split) <;> first | rfl | simp
@[simp] theorem accrueIrq_lay (r : Nat) (notify : Bool) (s : State) : (accrueIrq r notify s).lay = s.lay := by unfold accrueIrq; (try dsimp only) <;> (repeat' split) <;> first | rfl | simp
@[simp] theorem accrueIrq_cp (r : Nat) (notify : Bool) (s : State) : (accrueIrq r notify s).cp = s.cp := by unfold accrueIrq; (try dsimp only) <;> (repeat' split) <;> first | rfl | simp
@[simp] theorem accrueIrq_ht (r : Nat) (notify : Bool) (s : State) : (accrueIrq r notify s).ht = s.ht := by unfold accrueIrq; (try dsimp only) <;> (repeat' split) <;> first | rfl | simp
@[simp] theorem accrueIrq_pfx (r : Nat) (notify : Bool) (s : State) : (accrueIrq r notify s).pfx = s.pfx := by unfold accrueIrq; (try dsimp only) <;> (repeat' split) <;> first | rfl | simp
@[simp] theorem accrueIrq_sp (r : Nat) (notify : Bool) (s : State) : (accrueIrq r notify s).sp = s.sp := by unfold accrueIrq; (try dsimp only) <;> (repeat' split) <;> first | rfl | simp
@[simp] theorem accrueIrq_engs (r : Nat) (notify : Bool) (s : State) : (accrueIrq r notify s).engs = s.engs := by unfold accrueIrq; (try dsimp only) <;> (repeat' split) <;> first | rfl | simp
@[simp] theorem accrueIrq_la (r : Nat) (notify : Bool) (s : State) : (accrueIrq r notify s).la = s.la := by unfold accrueIrq; (try dsimp only) <;> (repeat' split) <;> first | rfl | simp
@[simp] theorem accrueIrq_spn (r : Nat) (notify : Bool) (s : State) : (accrueIrq r notify s).spn = s.spn := by unfold accrueIrq; (try dsimp only) <;> (repeat' split) <;> first | rfl | simp
@[simp] theorem accrueIrq_wh (r : Nat) (notify : Bool) (s : State) : (accrueIrq r notify s).wh = s.wh := by unfold accrueIrq; (try dsimp only) <;> (repeat' split) <;> first | rfl | simp
@[simp] theorem accrueIrq_bt (r : Nat) (notify : Bool) (s : State) : (accrueIrq r notify s).bt = s.bt := by unfold accrueIrq; (try dsimp only) <;> (repeat' split) <;> first | rfl | simp
@[simp] theorem accrueIrq_ad (r : Nat) (notify : Bool) (s : State) : (accrueIrq r notify s).ad = s.ad := by unfold accrueIrq; (try dsimp only) <;> (repeat' split) <;> first | rfl | simp
@[simp] theorem accrueIrq_sk (r : Nat) (notify : Bool) (s : State) : (accrueIrq r notify s).sk = s.sk := by unfold accrueIrq; (try dsimp only) <;> (repeat' split) <;> first | rfl | simp
@[simp] theorem accrueIrq_hf (r : Nat) (notify : Bool) (s : State) : (accrueIrq r notify s).hf = s.hf := by unfold accrueIrq; (try dsimp only) <;> (repeat' split) <;> first | rfl | simp
@[simp] theorem accrueIrq_plog (r : Nat) (notify : Bool) (s : State) : (accrueIrq r notify s).plog = s.plog := by unfold accrueIrq; (try dsimp only) <;> (repeat' split) <;> first | rfl | simp
@[simp] theorem accrueIrq_wkeys (r : Nat) (notify : Bool) (s : State) : (accrueIrq r notify s).wkeys = s.wkeys := by unfold accrueIrq; (try dsimp only) <;> (repeat' split) <;> first | rfl | simp
@[simp] theorem accrueIrq_hw (r : Nat) (notify : Bool) (s : State) : (accrueIrq r notify s).hw = s.hw := by unfold accrueIrq; (try dsimp only) <;> (repeat' split) <;> first | rfl | simp
@[simp] theorem accrueIrq_pm (r : Nat) (notify : Bool) (s : State) : (accrueIrq r notify s).pm = s.pm := by unfold accrueIrq; (try dsimp only) <;> (repeat' split) <;> first | rfl | simp
@[simp] theorem accrueIrq_ck (r : Nat) (notify : Bool) (s : State) : (accrueIrq r notify s).ck = s.ck := by unfold accrueIrq; (try dsimp only) <;> (repeat' split) <;> first | rfl | simp
@[simp] theorem accrueIrq_evacBy (r : Nat) (notify : Bool) (s : State) : (accrueIrq r notify s).evacBy = s.evacBy := by unfold accrueIrq; (try dsimp only) <;> (repeat' split) <;> first | rfl | simp
@[simp] theorem accrueIrq_ly (r : Nat) (notify : Bool) (s : State) : (accrueIrq r notify s).ly = s.ly := by unfold accrueIrq; (try dsimp only) <;> (repeat' split) <;> first | rfl | simp
@[simp] theorem accrueIrq_tap (r : Nat) (notify : Bool) (s : State) : (accrueIrq r notify s).tap = s.tap := by unfold accrueIrq; (try dsimp only) <;> (repeat' split) <;> first | rfl | simp
@[simp] theorem ringWrite_pending (r a : Nat) (bs : List Byte) (s : State) : (ringWrite r a bs s).pending = s.pending := by unfold ringWrite; (try dsimp only) <;> (repeat' split) <;> first | rfl | simp
@[simp] theorem ringWrite_span (r a : Nat) (bs : List Byte) (s : State) : (ringWrite r a bs s).span = s.span := by unfold ringWrite; (try dsimp only) <;> (repeat' split) <;> first | rfl | simp
@[simp] theorem ringWrite_uptime (r a : Nat) (bs : List Byte) (s : State) : (ringWrite r a bs s).uptime = s.uptime := by unfold ringWrite; (try dsimp only) <;> (repeat' split) <;> first | rfl | simp
@[simp] theorem ringWrite_fv (r a : Nat) (bs : List Byte) (s : State) : (ringWrite r a bs s).fv = s.fv := by unfold ringWrite; (try dsimp only) <;> (repeat' split) <;> first | rfl | simp
@[simp] theorem ringWrite_regs (r a : Nat) (bs : List Byte) (s : State) : (ringWrite r a bs s).regs = s.regs := by unfold ringWrite; (try dsimp only) <;> (repeat' split) <;> first | rfl | simp
@[simp] theorem ringWrite_ctr (r a : Nat) (bs : List Byte) (s : State) : (ringWrite r a bs s).ctr = s.ctr := by unfold ringWrite; (try dsimp only) <;> (repeat' split) <;> first | rfl | simp
@[simp] theorem ringWrite_evts (r a : Nat) (bs : List Byte) (s : State) : (ringWrite r a bs s).evts = s.evts := by unfold ringWrite; (try dsimp only) <;> (repeat' split) <;> first | rfl | simp
@[simp] theorem ringWrite_evtSeq (r a : Nat) (bs : List Byte) (s : State) : (ringWrite r a bs s).evtSeq = s.evtSeq := by unfold ringWrite; (try dsimp only) <;> (repeat' split) <;> first | rfl | simp
@[simp] theorem ringWrite_evtRate (r a : Nat) (bs : List Byte) (s : State) : (ringWrite r a bs s).evtRate = s.evtRate := by unfold ringWrite; (try dsimp only) <;> (repeat' split) <;> first | rfl | simp
@[simp] theorem ringWrite_evtSupp (r a : Nat) (bs : List Byte) (s : State) : (ringWrite r a bs s).evtSupp = s.evtSupp := by unfold ringWrite; (try dsimp only) <;> (repeat' split) <;> first | rfl | simp
@[simp] theorem ringWrite_journal (r a : Nat) (bs : List Byte) (s : State) : (ringWrite r a bs s).journal = s.journal := by unfold ringWrite; (try dsimp only) <;> (repeat' split) <;> first | rfl | simp
@[simp] theorem ringWrite_tx (r a : Nat) (bs : List Byte) (s : State) : (ringWrite r a bs s).tx = s.tx := by unfold ringWrite; (try dsimp only) <;> (repeat' split) <;> first | rfl | simp
@[simp] theorem ringWrite_recs (r a : Nat) (bs : List Byte) (s : State) : (ringWrite r a bs s).recs = s.recs := by unfold ringWrite; (try dsimp only) <;> (repeat' split) <;> first | rfl | simp
@[simp] theorem ringWrite_ax (r a : Nat) (bs : List Byte) (s : State) : (ringWrite r a bs s).ax = s.ax := by unfold ringWrite; (try dsimp only) <;> (repeat' split) <;> first | rfl | simp
@[simp] theorem ringWrite_hp (r a : Nat) (bs : List Byte) (s : State) : (ringWrite r a bs s).hp = s.hp := by unfold ringWrite; (try dsimp only) <;> (repeat' split) <;> first | rfl | simp
@[simp] theorem ringWrite_cp (r a : Nat) (bs : List Byte) (s : State) : (ringWrite r a bs s).cp = s.cp := by unfold ringWrite; (try dsimp only) <;> (repeat' split) <;> first | rfl | simp
@[simp] theorem ringWrite_ht (r a : Nat) (bs : List Byte) (s : State) : (ringWrite r a bs s).ht = s.ht := by unfold ringWrite; (try dsimp only) <;> (repeat' split) <;> first | rfl | simp
@[simp] theorem ringWrite_pfx (r a : Nat) (bs : List Byte) (s : State) : (ringWrite r a bs s).pfx = s.pfx := by unfold ringWrite; (try dsimp only) <;> (repeat' split) <;> first | rfl | simp
@[simp] theorem ringWrite_sp (r a : Nat) (bs : List Byte) (s : State) : (ringWrite r a bs s).sp = s.sp := by unfold ringWrite; (try dsimp only) <;> (repeat' split) <;> first | rfl | simp
@[simp] theorem ringWrite_engs (r a : Nat) (bs : List Byte) (s : State) : (ringWrite r a bs s).engs = s.engs := by unfold ringWrite; (try dsimp only) <;> (repeat' split) <;> first | rfl | simp
@[simp] theorem ringWrite_la (r a : Nat) (bs : List Byte) (s : State) : (ringWrite r a bs s).la = s.la := by unfold ringWrite; (try dsimp only) <;> (repeat' split) <;> first | rfl | simp
@[simp] theorem ringWrite_spn (r a : Nat) (bs : List Byte) (s : State) : (ringWrite r a bs s).spn = s.spn := by unfold ringWrite; (try dsimp only) <;> (repeat' split) <;> first | rfl | simp
@[simp] theorem ringWrite_wh (r a : Nat) (bs : List Byte) (s : State) : (ringWrite r a bs s).wh = s.wh := by unfold ringWrite; (try dsimp only) <;> (repeat' split) <;> first | rfl | simp
@[simp] theorem ringWrite_bt (r a : Nat) (bs : List Byte) (s : State) : (ringWrite r a bs s).bt = s.bt := by unfold ringWrite; (try dsimp only) <;> (repeat' split) <;> first | rfl | simp
@[simp] theorem ringWrite_ad (r a : Nat) (bs : List Byte) (s : State) : (ringWrite r a bs s).ad = s.ad := by unfold ringWrite; (try dsimp only) <;> (repeat' split) <;> first | rfl | simp
@[simp] theorem ringWrite_sk (r a : Nat) (bs : List Byte) (s : State) : (ringWrite r a bs s).sk = s.sk := by unfold ringWrite; (try dsimp only) <;> (repeat' split) <;> first | rfl | simp
@[simp] theorem ringWrite_hf (r a : Nat) (bs : List Byte) (s : State) : (ringWrite r a bs s).hf = s.hf := by unfold ringWrite; (try dsimp only) <;> (repeat' split) <;> first | rfl | simp
@[simp] theorem ringWrite_plog (r a : Nat) (bs : List Byte) (s : State) : (ringWrite r a bs s).plog = s.plog := by unfold ringWrite; (try dsimp only) <;> (repeat' split) <;> first | rfl | simp
@[simp] theorem ringWrite_wkeys (r a : Nat) (bs : List Byte) (s : State) : (ringWrite r a bs s).wkeys = s.wkeys := by unfold ringWrite; (try dsimp only) <;> (repeat' split) <;> first | rfl | simp
@[simp] theorem ringWrite_hw (r a : Nat) (bs : List Byte) (s : State) : (ringWrite r a bs s).hw = s.hw := by unfold ringWrite; (try dsimp only) <;> (repeat' split) <;> first | rfl | simp
@[simp] theorem ringWrite_pm (r a : Nat) (bs : List Byte) (s : State) : (ringWrite r a bs s).pm = s.pm := by unfold ringWrite; (try dsimp only) <;> (repeat' split) <;> first | rfl | simp
@[simp] theorem ringWrite_ck (r a : Nat) (bs : List Byte) (s : State) : (ringWrite r a bs s).ck = s.ck := by unfold ringWrite; (try dsimp only) <;> (repeat' split) <;> first | rfl | simp
@[simp] theorem ringWrite_evacBy (r a : Nat) (bs : List Byte) (s : State) : (ringWrite r a bs s).evacBy = s.evacBy := by unfold ringWrite; (try dsimp only) <;> (repeat' split) <;> first | rfl | simp
@[simp] theorem ringWrite_ly (r a : Nat) (bs : List Byte) (s : State) : (ringWrite r a bs s).ly = s.ly := by unfold ringWrite; (try dsimp only) <;> (repeat' split) <;> first | rfl | simp
@[simp] theorem ringWrite_tap (r a : Nat) (bs : List Byte) (s : State) : (ringWrite r a bs s).tap = s.tap := by unfold ringWrite; (try dsimp only) <;> (repeat' split) <;> first | rfl | simp
@[simp] theorem writeShadow_pending (r : Nat) (i : W32) (s : State) : (writeShadow r i s).pending = s.pending := by unfold writeShadow; (try dsimp only) <;> (repeat' split) <;> first | rfl | simp
@[simp] theorem writeShadow_span (r : Nat) (i : W32) (s : State) : (writeShadow r i s).span = s.span := by unfold writeShadow; (try dsimp only) <;> (repeat' split) <;> first | rfl | simp
@[simp] theorem writeShadow_uptime (r : Nat) (i : W32) (s : State) : (writeShadow r i s).uptime = s.uptime := by unfold writeShadow; (try dsimp only) <;> (repeat' split) <;> first | rfl | simp
@[simp] theorem writeShadow_fv (r : Nat) (i : W32) (s : State) : (writeShadow r i s).fv = s.fv := by unfold writeShadow; (try dsimp only) <;> (repeat' split) <;> first | rfl | simp
@[simp] theorem writeShadow_regs (r : Nat) (i : W32) (s : State) : (writeShadow r i s).regs = s.regs := by unfold writeShadow; (try dsimp only) <;> (repeat' split) <;> first | rfl | simp
@[simp] theorem writeShadow_ctr (r : Nat) (i : W32) (s : State) : (writeShadow r i s).ctr = s.ctr := by unfold writeShadow; (try dsimp only) <;> (repeat' split) <;> first | rfl | simp
@[simp] theorem writeShadow_evts (r : Nat) (i : W32) (s : State) : (writeShadow r i s).evts = s.evts := by unfold writeShadow; (try dsimp only) <;> (repeat' split) <;> first | rfl | simp
@[simp] theorem writeShadow_evtSeq (r : Nat) (i : W32) (s : State) : (writeShadow r i s).evtSeq = s.evtSeq := by unfold writeShadow; (try dsimp only) <;> (repeat' split) <;> first | rfl | simp
@[simp] theorem writeShadow_evtRate (r : Nat) (i : W32) (s : State) : (writeShadow r i s).evtRate = s.evtRate := by unfold writeShadow; (try dsimp only) <;> (repeat' split) <;> first | rfl | simp
@[simp] theorem writeShadow_evtSupp (r : Nat) (i : W32) (s : State) : (writeShadow r i s).evtSupp = s.evtSupp := by unfold writeShadow; (try dsimp only) <;> (repeat' split) <;> first | rfl | simp
@[simp] theorem writeShadow_journal (r : Nat) (i : W32) (s : State) : (writeShadow r i s).journal = s.journal := by unfold writeShadow; (try dsimp only) <;> (repeat' split) <;> first | rfl | simp
@[simp] theorem writeShadow_tx (r : Nat) (i : W32) (s : State) : (writeShadow r i s).tx = s.tx := by unfold writeShadow; (try dsimp only) <;> (repeat' split) <;> first | rfl | simp
@[simp] theorem writeShadow_recs (r : Nat) (i : W32) (s : State) : (writeShadow r i s).recs = s.recs := by unfold writeShadow; (try dsimp only) <;> (repeat' split) <;> first | rfl | simp
@[simp] theorem writeShadow_ax (r : Nat) (i : W32) (s : State) : (writeShadow r i s).ax = s.ax := by unfold writeShadow; (try dsimp only) <;> (repeat' split) <;> first | rfl | simp
@[simp] theorem writeShadow_hp (r : Nat) (i : W32) (s : State) : (writeShadow r i s).hp = s.hp := by unfold writeShadow; (try dsimp only) <;> (repeat' split) <;> first | rfl | simp
@[simp] theorem writeShadow_cp (r : Nat) (i : W32) (s : State) : (writeShadow r i s).cp = s.cp := by unfold writeShadow; (try dsimp only) <;> (repeat' split) <;> first | rfl | simp
@[simp] theorem writeShadow_ht (r : Nat) (i : W32) (s : State) : (writeShadow r i s).ht = s.ht := by unfold writeShadow; (try dsimp only) <;> (repeat' split) <;> first | rfl | simp
@[simp] theorem writeShadow_pfx (r : Nat) (i : W32) (s : State) : (writeShadow r i s).pfx = s.pfx := by unfold writeShadow; (try dsimp only) <;> (repeat' split) <;> first | rfl | simp
@[simp] theorem writeShadow_sp (r : Nat) (i : W32) (s : State) : (writeShadow r i s).sp = s.sp := by unfold writeShadow; (try dsimp only) <;> (repeat' split) <;> first | rfl | simp
@[simp] theorem writeShadow_engs (r : Nat) (i : W32) (s : State) : (writeShadow r i s).engs = s.engs := by unfold writeShadow; (try dsimp only) <;> (repeat' split) <;> first | rfl | simp
@[simp] theorem writeShadow_la (r : Nat) (i : W32) (s : State) : (writeShadow r i s).la = s.la := by unfold writeShadow; (try dsimp only) <;> (repeat' split) <;> first | rfl | simp
@[simp] theorem writeShadow_spn (r : Nat) (i : W32) (s : State) : (writeShadow r i s).spn = s.spn := by unfold writeShadow; (try dsimp only) <;> (repeat' split) <;> first | rfl | simp
@[simp] theorem writeShadow_wh (r : Nat) (i : W32) (s : State) : (writeShadow r i s).wh = s.wh := by unfold writeShadow; (try dsimp only) <;> (repeat' split) <;> first | rfl | simp
@[simp] theorem writeShadow_bt (r : Nat) (i : W32) (s : State) : (writeShadow r i s).bt = s.bt := by unfold writeShadow; (try dsimp only) <;> (repeat' split) <;> first | rfl | simp
@[simp] theorem writeShadow_ad (r : Nat) (i : W32) (s : State) : (writeShadow r i s).ad = s.ad := by unfold writeShadow; (try dsimp only) <;> (repeat' split) <;> first | rfl | simp
@[simp] theorem writeShadow_sk (r : Nat) (i : W32) (s : State) : (writeShadow r i s).sk = s.sk := by unfold writeShadow; (try dsimp only) <;> (repeat' split) <;> first | rfl | simp
@[simp] theorem writeShadow_hf (r : Nat) (i : W32) (s : State) : (writeShadow r i s).hf = s.hf := by unfold writeShadow; (try dsimp only) <;> (repeat' split) <;> first | rfl | simp
@[simp] theorem writeShadow_plog (r : Nat) (i : W32) (s : State) : (writeShadow r i s).plog = s.plog := by unfold writeShadow; (try dsimp only) <;> (repeat' split) <;> first | rfl | simp
@[simp] theorem writeShadow_wkeys (r : Nat) (i : W32) (s : State) : (writeShadow r i s).wkeys = s.wkeys := by unfold writeShadow; (try dsimp only) <;> (repeat' split) <;> first | rfl | simp
@[simp] theorem writeShadow_hw (r : Nat) (i : W32) (s : State) : (writeShadow r i s).hw = s.hw := by unfold writeShadow; (try dsimp only) <;> (repeat' split) <;> first | rfl | simp
@[simp] theorem writeShadow_pm (r : Nat) (i : W32) (s : State) : (writeShadow r i s).pm = s.pm := by unfold writeShadow; (try dsimp only) <;> (repeat' split) <;> first | rfl | simp
@[simp] theorem writeShadow_ck (r : Nat) (i : W32) (s : State) : (writeShadow r i s).ck = s.ck := by unfold writeShadow; (try dsimp only) <;> (repeat' split) <;> first | rfl | simp
@[simp] theorem writeShadow_evacBy (r : Nat) (i : W32) (s : State) : (writeShadow r i s).evacBy = s.evacBy := by unfold writeShadow; (try dsimp only) <;> (repeat' split) <;> first | rfl | simp
@[simp] theorem writeShadow_ly (r : Nat) (i : W32) (s : State) : (writeShadow r i s).ly = s.ly := by unfold writeShadow; (try dsimp only) <;> (repeat' split) <;> first | rfl | simp
@[simp] theorem writeShadow_tap (r : Nat) (i : W32) (s : State) : (writeShadow r i s).tap = s.tap := by unfold writeShadow; (try dsimp only) <;> (repeat' split) <;> first | rfl | simp
@[simp] theorem putEntry_pending (r : Nat) (notify : Bool) (bs : List Byte) (s : State) : (putEntry r notify bs s).pending = s.pending := by simp [putEntry]
@[simp] theorem putEntry_span (r : Nat) (notify : Bool) (bs : List Byte) (s : State) : (putEntry r notify bs s).span = s.span := by simp [putEntry]
@[simp] theorem putEntry_uptime (r : Nat) (notify : Bool) (bs : List Byte) (s : State) : (putEntry r notify bs s).uptime = s.uptime := by simp [putEntry]
@[simp] theorem putEntry_fv (r : Nat) (notify : Bool) (bs : List Byte) (s : State) : (putEntry r notify bs s).fv = s.fv := by simp [putEntry]
@[simp] theorem putEntry_regs (r : Nat) (notify : Bool) (bs : List Byte) (s : State) : (putEntry r notify bs s).regs = s.regs := by simp [putEntry]
@[simp] theorem putEntry_recs (r : Nat) (notify : Bool) (bs : List Byte) (s : State) : (putEntry r notify bs s).recs = s.recs := by simp [putEntry]
@[simp] theorem putEntry_ax (r : Nat) (notify : Bool) (bs : List Byte) (s : State) : (putEntry r notify bs s).ax = s.ax := by simp [putEntry]
@[simp] theorem putEntry_cp (r : Nat) (notify : Bool) (bs : List Byte) (s : State) : (putEntry r notify bs s).cp = s.cp := by simp [putEntry]
@[simp] theorem putEntry_ht (r : Nat) (notify : Bool) (bs : List Byte) (s : State) : (putEntry r notify bs s).ht = s.ht := by simp [putEntry]
@[simp] theorem putEntry_pfx (r : Nat) (notify : Bool) (bs : List Byte) (s : State) : (putEntry r notify bs s).pfx = s.pfx := by simp [putEntry]
@[simp] theorem putEntry_sp (r : Nat) (notify : Bool) (bs : List Byte) (s : State) : (putEntry r notify bs s).sp = s.sp := by simp [putEntry]
@[simp] theorem putEntry_engs (r : Nat) (notify : Bool) (bs : List Byte) (s : State) : (putEntry r notify bs s).engs = s.engs := by simp [putEntry]
@[simp] theorem putEntry_la (r : Nat) (notify : Bool) (bs : List Byte) (s : State) : (putEntry r notify bs s).la = s.la := by simp [putEntry]
@[simp] theorem putEntry_spn (r : Nat) (notify : Bool) (bs : List Byte) (s : State) : (putEntry r notify bs s).spn = s.spn := by simp [putEntry]
@[simp] theorem putEntry_wh (r : Nat) (notify : Bool) (bs : List Byte) (s : State) : (putEntry r notify bs s).wh = s.wh := by simp [putEntry]
@[simp] theorem putEntry_bt (r : Nat) (notify : Bool) (bs : List Byte) (s : State) : (putEntry r notify bs s).bt = s.bt := by simp [putEntry]
@[simp] theorem putEntry_ad (r : Nat) (notify : Bool) (bs : List Byte) (s : State) : (putEntry r notify bs s).ad = s.ad := by simp [putEntry]
@[simp] theorem putEntry_sk (r : Nat) (notify : Bool) (bs : List Byte) (s : State) : (putEntry r notify bs s).sk = s.sk := by simp [putEntry]
@[simp] theorem putEntry_hf (r : Nat) (notify : Bool) (bs : List Byte) (s : State) : (putEntry r notify bs s).hf = s.hf := by simp [putEntry]
@[simp] theorem putEntry_plog (r : Nat) (notify : Bool) (bs : List Byte) (s : State) : (putEntry r notify bs s).plog = s.plog := by simp [putEntry]
@[simp] theorem putEntry_wkeys (r : Nat) (notify : Bool) (bs : List Byte) (s : State) : (putEntry r notify bs s).wkeys = s.wkeys := by simp [putEntry]
@[simp] theorem putEntry_hw (r : Nat) (notify : Bool) (bs : List Byte) (s : State) : (putEntry r notify bs s).hw = s.hw := by simp [putEntry]
@[simp] theorem putEntry_pm (r : Nat) (notify : Bool) (bs : List Byte) (s : State) : (putEntry r notify bs s).pm = s.pm := by simp [putEntry]
@[simp] theorem putEntry_ck (r : Nat) (notify : Bool) (bs : List Byte) (s : State) : (putEntry r notify bs s).ck = s.ck := by simp [putEntry]
@[simp] theorem putEntry_evacBy (r : Nat) (notify : Bool) (bs : List Byte) (s : State) : (putEntry r notify bs s).evacBy = s.evacBy := by simp [putEntry]
@[simp] theorem putEntry_ly (r : Nat) (notify : Bool) (bs : List Byte) (s : State) : (putEntry r notify bs s).ly = s.ly := by simp [putEntry]
@[simp] theorem putEntry_tap (r : Nat) (notify : Bool) (bs : List Byte) (s : State) : (putEntry r notify bs s).tap = s.tap := by simp [putEntry]
@[simp] theorem flushHeld_pending (r n : Nat) (s : State) : (flushHeld r n s).pending = s.pending := by
  induction n generalizing s with
  | zero => rfl
  | succ n ih => dsimp only [flushHeld]; (repeat' split) <;> simp [ih]
@[simp] theorem flushHeld_span (r n : Nat) (s : State) : (flushHeld r n s).span = s.span := by
  induction n generalizing s with
  | zero => rfl
  | succ n ih => dsimp only [flushHeld]; (repeat' split) <;> simp [ih]
@[simp] theorem flushHeld_uptime (r n : Nat) (s : State) : (flushHeld r n s).uptime = s.uptime := by
  induction n generalizing s with
  | zero => rfl
  | succ n ih => dsimp only [flushHeld]; (repeat' split) <;> simp [ih]
@[simp] theorem flushHeld_fv (r n : Nat) (s : State) : (flushHeld r n s).fv = s.fv := by
  induction n generalizing s with
  | zero => rfl
  | succ n ih => dsimp only [flushHeld]; (repeat' split) <;> simp [ih]
@[simp] theorem flushHeld_regs (r n : Nat) (s : State) : (flushHeld r n s).regs = s.regs := by
  induction n generalizing s with
  | zero => rfl
  | succ n ih => dsimp only [flushHeld]; (repeat' split) <;> simp [ih]
@[simp] theorem flushHeld_recs (r n : Nat) (s : State) : (flushHeld r n s).recs = s.recs := by
  induction n generalizing s with
  | zero => rfl
  | succ n ih => dsimp only [flushHeld]; (repeat' split) <;> simp [ih]
@[simp] theorem flushHeld_ax (r n : Nat) (s : State) : (flushHeld r n s).ax = s.ax := by
  induction n generalizing s with
  | zero => rfl
  | succ n ih => dsimp only [flushHeld]; (repeat' split) <;> simp [ih]
@[simp] theorem flushHeld_cp (r n : Nat) (s : State) : (flushHeld r n s).cp = s.cp := by
  induction n generalizing s with
  | zero => rfl
  | succ n ih => dsimp only [flushHeld]; (repeat' split) <;> simp [ih]
@[simp] theorem flushHeld_ht (r n : Nat) (s : State) : (flushHeld r n s).ht = s.ht := by
  induction n generalizing s with
  | zero => rfl
  | succ n ih => dsimp only [flushHeld]; (repeat' split) <;> simp [ih]
@[simp] theorem flushHeld_pfx (r n : Nat) (s : State) : (flushHeld r n s).pfx = s.pfx := by
  induction n generalizing s with
  | zero => rfl
  | succ n ih => dsimp only [flushHeld]; (repeat' split) <;> simp [ih]
@[simp] theorem flushHeld_sp (r n : Nat) (s : State) : (flushHeld r n s).sp = s.sp := by
  induction n generalizing s with
  | zero => rfl
  | succ n ih => dsimp only [flushHeld]; (repeat' split) <;> simp [ih]
@[simp] theorem flushHeld_engs (r n : Nat) (s : State) : (flushHeld r n s).engs = s.engs := by
  induction n generalizing s with
  | zero => rfl
  | succ n ih => dsimp only [flushHeld]; (repeat' split) <;> simp [ih]
@[simp] theorem flushHeld_la (r n : Nat) (s : State) : (flushHeld r n s).la = s.la := by
  induction n generalizing s with
  | zero => rfl
  | succ n ih => dsimp only [flushHeld]; (repeat' split) <;> simp [ih]
@[simp] theorem flushHeld_spn (r n : Nat) (s : State) : (flushHeld r n s).spn = s.spn := by
  induction n generalizing s with
  | zero => rfl
  | succ n ih => dsimp only [flushHeld]; (repeat' split) <;> simp [ih]
@[simp] theorem flushHeld_wh (r n : Nat) (s : State) : (flushHeld r n s).wh = s.wh := by
  induction n generalizing s with
  | zero => rfl
  | succ n ih => dsimp only [flushHeld]; (repeat' split) <;> simp [ih]
@[simp] theorem flushHeld_bt (r n : Nat) (s : State) : (flushHeld r n s).bt = s.bt := by
  induction n generalizing s with
  | zero => rfl
  | succ n ih => dsimp only [flushHeld]; (repeat' split) <;> simp [ih]
@[simp] theorem flushHeld_ad (r n : Nat) (s : State) : (flushHeld r n s).ad = s.ad := by
  induction n generalizing s with
  | zero => rfl
  | succ n ih => dsimp only [flushHeld]; (repeat' split) <;> simp [ih]
@[simp] theorem flushHeld_sk (r n : Nat) (s : State) : (flushHeld r n s).sk = s.sk := by
  induction n generalizing s with
  | zero => rfl
  | succ n ih => dsimp only [flushHeld]; (repeat' split) <;> simp [ih]
@[simp] theorem flushHeld_hf (r n : Nat) (s : State) : (flushHeld r n s).hf = s.hf := by
  induction n generalizing s with
  | zero => rfl
  | succ n ih => dsimp only [flushHeld]; (repeat' split) <;> simp [ih]
@[simp] theorem flushHeld_plog (r n : Nat) (s : State) : (flushHeld r n s).plog = s.plog := by
  induction n generalizing s with
  | zero => rfl
  | succ n ih => dsimp only [flushHeld]; (repeat' split) <;> simp [ih]
@[simp] theorem flushHeld_wkeys (r n : Nat) (s : State) : (flushHeld r n s).wkeys = s.wkeys := by
  induction n generalizing s with
  | zero => rfl
  | succ n ih => dsimp only [flushHeld]; (repeat' split) <;> simp [ih]
@[simp] theorem flushHeld_hw (r n : Nat) (s : State) : (flushHeld r n s).hw = s.hw := by
  induction n generalizing s with
  | zero => rfl
  | succ n ih => dsimp only [flushHeld]; (repeat' split) <;> simp [ih]
@[simp] theorem flushHeld_pm (r n : Nat) (s : State) : (flushHeld r n s).pm = s.pm := by
  induction n generalizing s with
  | zero => rfl
  | succ n ih => dsimp only [flushHeld]; (repeat' split) <;> simp [ih]
@[simp] theorem flushHeld_ck (r n : Nat) (s : State) : (flushHeld r n s).ck = s.ck := by
  induction n generalizing s with
  | zero => rfl
  | succ n ih => dsimp only [flushHeld]; (repeat' split) <;> simp [ih]
@[simp] theorem flushHeld_evacBy (r n : Nat) (s : State) : (flushHeld r n s).evacBy = s.evacBy := by
  induction n generalizing s with
  | zero => rfl
  | succ n ih => dsimp only [flushHeld]; (repeat' split) <;> simp [ih]
@[simp] theorem flushHeld_ly (r n : Nat) (s : State) : (flushHeld r n s).ly = s.ly := by
  induction n generalizing s with
  | zero => rfl
  | succ n ih => dsimp only [flushHeld]; (repeat' split) <;> simp [ih]
@[simp] theorem flushHeld_tap (r n : Nat) (s : State) : (flushHeld r n s).tap = s.tap := by
  induction n generalizing s with
  | zero => rfl
  | succ n ih => dsimp only [flushHeld]; (repeat' split) <;> simp [ih]
@[simp] theorem pushEntry_pending (r : Nat) (notify : Bool) (bs : List Byte) (s : State) : (pushEntry r notify bs s).pending = s.pending := by unfold pushEntry; (try dsimp only) <;> (repeat' split) <;> first | rfl | simp
@[simp] theorem pushEntry_span (r : Nat) (notify : Bool) (bs : List Byte) (s : State) : (pushEntry r notify bs s).span = s.span := by unfold pushEntry; (try dsimp only) <;> (repeat' split) <;> first | rfl | simp
@[simp] theorem pushEntry_uptime (r : Nat) (notify : Bool) (bs : List Byte) (s : State) : (pushEntry r notify bs s).uptime = s.uptime := by unfold pushEntry; (try dsimp only) <;> (repeat' split) <;> first | rfl | simp
@[simp] theorem pushEntry_fv (r : Nat) (notify : Bool) (bs : List Byte) (s : State) : (pushEntry r notify bs s).fv = s.fv := by unfold pushEntry; (try dsimp only) <;> (repeat' split) <;> first | rfl | simp
@[simp] theorem pushEntry_regs (r : Nat) (notify : Bool) (bs : List Byte) (s : State) : (pushEntry r notify bs s).regs = s.regs := by unfold pushEntry; (try dsimp only) <;> (repeat' split) <;> first | rfl | simp
@[simp] theorem pushEntry_recs (r : Nat) (notify : Bool) (bs : List Byte) (s : State) : (pushEntry r notify bs s).recs = s.recs := by unfold pushEntry; (try dsimp only) <;> (repeat' split) <;> first | rfl | simp
@[simp] theorem pushEntry_ax (r : Nat) (notify : Bool) (bs : List Byte) (s : State) : (pushEntry r notify bs s).ax = s.ax := by unfold pushEntry; (try dsimp only) <;> (repeat' split) <;> first | rfl | simp
@[simp] theorem pushEntry_cp (r : Nat) (notify : Bool) (bs : List Byte) (s : State) : (pushEntry r notify bs s).cp = s.cp := by unfold pushEntry; (try dsimp only) <;> (repeat' split) <;> first | rfl | simp
@[simp] theorem pushEntry_ht (r : Nat) (notify : Bool) (bs : List Byte) (s : State) : (pushEntry r notify bs s).ht = s.ht := by unfold pushEntry; (try dsimp only) <;> (repeat' split) <;> first | rfl | simp
@[simp] theorem pushEntry_pfx (r : Nat) (notify : Bool) (bs : List Byte) (s : State) : (pushEntry r notify bs s).pfx = s.pfx := by unfold pushEntry; (try dsimp only) <;> (repeat' split) <;> first | rfl | simp
@[simp] theorem pushEntry_sp (r : Nat) (notify : Bool) (bs : List Byte) (s : State) : (pushEntry r notify bs s).sp = s.sp := by unfold pushEntry; (try dsimp only) <;> (repeat' split) <;> first | rfl | simp
@[simp] theorem pushEntry_engs (r : Nat) (notify : Bool) (bs : List Byte) (s : State) : (pushEntry r notify bs s).engs = s.engs := by unfold pushEntry; (try dsimp only) <;> (repeat' split) <;> first | rfl | simp
@[simp] theorem pushEntry_la (r : Nat) (notify : Bool) (bs : List Byte) (s : State) : (pushEntry r notify bs s).la = s.la := by unfold pushEntry; (try dsimp only) <;> (repeat' split) <;> first | rfl | simp
@[simp] theorem pushEntry_spn (r : Nat) (notify : Bool) (bs : List Byte) (s : State) : (pushEntry r notify bs s).spn = s.spn := by unfold pushEntry; (try dsimp only) <;> (repeat' split) <;> first | rfl | simp
@[simp] theorem pushEntry_wh (r : Nat) (notify : Bool) (bs : List Byte) (s : State) : (pushEntry r notify bs s).wh = s.wh := by unfold pushEntry; (try dsimp only) <;> (repeat' split) <;> first | rfl | simp
@[simp] theorem pushEntry_bt (r : Nat) (notify : Bool) (bs : List Byte) (s : State) : (pushEntry r notify bs s).bt = s.bt := by unfold pushEntry; (try dsimp only) <;> (repeat' split) <;> first | rfl | simp
@[simp] theorem pushEntry_ad (r : Nat) (notify : Bool) (bs : List Byte) (s : State) : (pushEntry r notify bs s).ad = s.ad := by unfold pushEntry; (try dsimp only) <;> (repeat' split) <;> first | rfl | simp
@[simp] theorem pushEntry_sk (r : Nat) (notify : Bool) (bs : List Byte) (s : State) : (pushEntry r notify bs s).sk = s.sk := by unfold pushEntry; (try dsimp only) <;> (repeat' split) <;> first | rfl | simp
@[simp] theorem pushEntry_hf (r : Nat) (notify : Bool) (bs : List Byte) (s : State) : (pushEntry r notify bs s).hf = s.hf := by unfold pushEntry; (try dsimp only) <;> (repeat' split) <;> first | rfl | simp
@[simp] theorem pushEntry_plog (r : Nat) (notify : Bool) (bs : List Byte) (s : State) : (pushEntry r notify bs s).plog = s.plog := by unfold pushEntry; (try dsimp only) <;> (repeat' split) <;> first | rfl | simp
@[simp] theorem pushEntry_wkeys (r : Nat) (notify : Bool) (bs : List Byte) (s : State) : (pushEntry r notify bs s).wkeys = s.wkeys := by unfold pushEntry; (try dsimp only) <;> (repeat' split) <;> first | rfl | simp
@[simp] theorem pushEntry_hw (r : Nat) (notify : Bool) (bs : List Byte) (s : State) : (pushEntry r notify bs s).hw = s.hw := by unfold pushEntry; (try dsimp only) <;> (repeat' split) <;> first | rfl | simp
@[simp] theorem pushEntry_pm (r : Nat) (notify : Bool) (bs : List Byte) (s : State) : (pushEntry r notify bs s).pm = s.pm := by unfold pushEntry; (try dsimp only) <;> (repeat' split) <;> first | rfl | simp
@[simp] theorem pushEntry_ck (r : Nat) (notify : Bool) (bs : List Byte) (s : State) : (pushEntry r notify bs s).ck = s.ck := by unfold pushEntry; (try dsimp only) <;> (repeat' split) <;> first | rfl | simp
@[simp] theorem pushEntry_evacBy (r : Nat) (notify : Bool) (bs : List Byte) (s : State) : (pushEntry r notify bs s).evacBy = s.evacBy := by unfold pushEntry; (try dsimp only) <;> (repeat' split) <;> first | rfl | simp
@[simp] theorem pushEntry_ly (r : Nat) (notify : Bool) (bs : List Byte) (s : State) : (pushEntry r notify bs s).ly = s.ly := by unfold pushEntry; (try dsimp only) <;> (repeat' split) <;> first | rfl | simp
@[simp] theorem pushEntry_tap (r : Nat) (notify : Bool) (bs : List Byte) (s : State) : (pushEntry r notify bs s).tap = s.tap := by unfold pushEntry; (try dsimp only) <;> (repeat' split) <;> first | rfl | simp
@[simp] theorem dropItem_pending (id : Nat) (s : State) : (dropItem id s).pending = s.pending := rfl
@[simp] theorem dropItem_span (id : Nat) (s : State) : (dropItem id s).span = s.span := rfl
@[simp] theorem dropItem_uptime (id : Nat) (s : State) : (dropItem id s).uptime = s.uptime := rfl
@[simp] theorem dropItem_fv (id : Nat) (s : State) : (dropItem id s).fv = s.fv := rfl
@[simp] theorem dropItem_regs (id : Nat) (s : State) : (dropItem id s).regs = s.regs := rfl
@[simp] theorem dropItem_ctr (id : Nat) (s : State) : (dropItem id s).ctr = s.ctr := rfl
@[simp] theorem dropItem_mem (id : Nat) (s : State) : (dropItem id s).mem = s.mem := rfl
@[simp] theorem dropItem_hmem (id : Nat) (s : State) : (dropItem id s).hmem = s.hmem := rfl
@[simp] theorem dropItem_evts (id : Nat) (s : State) : (dropItem id s).evts = s.evts := rfl
@[simp] theorem dropItem_evtSeq (id : Nat) (s : State) : (dropItem id s).evtSeq = s.evtSeq := rfl
@[simp] theorem dropItem_evtRate (id : Nat) (s : State) : (dropItem id s).evtRate = s.evtRate := rfl
@[simp] theorem dropItem_evtSupp (id : Nat) (s : State) : (dropItem id s).evtSupp = s.evtSupp := rfl
@[simp] theorem dropItem_journal (id : Nat) (s : State) : (dropItem id s).journal = s.journal := rfl
@[simp] theorem dropItem_tx (id : Nat) (s : State) : (dropItem id s).tx = s.tx := rfl
@[simp] theorem dropItem_recs (id : Nat) (s : State) : (dropItem id s).recs = s.recs := rfl
@[simp] theorem dropItem_ax (id : Nat) (s : State) : (dropItem id s).ax = s.ax := rfl
@[simp] theorem dropItem_lay (id : Nat) (s : State) : (dropItem id s).lay = s.lay := rfl
@[simp] theorem dropItem_hp (id : Nat) (s : State) : (dropItem id s).hp = s.hp := rfl
@[simp] theorem dropItem_ht (id : Nat) (s : State) : (dropItem id s).ht = s.ht := rfl
@[simp] theorem dropItem_pfx (id : Nat) (s : State) : (dropItem id s).pfx = s.pfx := rfl
@[simp] theorem dropItem_sp (id : Nat) (s : State) : (dropItem id s).sp = s.sp := rfl
@[simp] theorem dropItem_engs (id : Nat) (s : State) : (dropItem id s).engs = s.engs := rfl
@[simp] theorem dropItem_la (id : Nat) (s : State) : (dropItem id s).la = s.la := rfl
@[simp] theorem dropItem_spn (id : Nat) (s : State) : (dropItem id s).spn = s.spn := rfl
@[simp] theorem dropItem_wh (id : Nat) (s : State) : (dropItem id s).wh = s.wh := rfl
@[simp] theorem dropItem_bt (id : Nat) (s : State) : (dropItem id s).bt = s.bt := rfl
@[simp] theorem dropItem_ad (id : Nat) (s : State) : (dropItem id s).ad = s.ad := rfl
@[simp] theorem dropItem_sk (id : Nat) (s : State) : (dropItem id s).sk = s.sk := rfl
@[simp] theorem dropItem_hf (id : Nat) (s : State) : (dropItem id s).hf = s.hf := rfl
@[simp] theorem dropItem_plog (id : Nat) (s : State) : (dropItem id s).plog = s.plog := rfl
@[simp] theorem dropItem_wkeys (id : Nat) (s : State) : (dropItem id s).wkeys = s.wkeys := rfl
@[simp] theorem dropItem_hw (id : Nat) (s : State) : (dropItem id s).hw = s.hw := rfl
@[simp] theorem dropItem_pm (id : Nat) (s : State) : (dropItem id s).pm = s.pm := rfl
@[simp] theorem dropItem_ck (id : Nat) (s : State) : (dropItem id s).ck = s.ck := rfl
@[simp] theorem dropItem_evacBy (id : Nat) (s : State) : (dropItem id s).evacBy = s.evacBy := rfl
@[simp] theorem dropItem_ly (id : Nat) (s : State) : (dropItem id s).ly = s.ly := rfl
@[simp] theorem dropItem_tap (id : Nat) (s : State) : (dropItem id s).tap = s.tap := rfl
@[simp] theorem ringDrainDone_pending (r : Nat) (s : State) : (ringDrainDone r s).pending = s.pending := by unfold ringDrainDone; (try dsimp only) <;> (repeat' split) <;> first | rfl | simp
@[simp] theorem ringDrainDone_span (r : Nat) (s : State) : (ringDrainDone r s).span = s.span := by unfold ringDrainDone; (try dsimp only) <;> (repeat' split) <;> first | rfl | simp
@[simp] theorem ringDrainDone_uptime (r : Nat) (s : State) : (ringDrainDone r s).uptime = s.uptime := by unfold ringDrainDone; (try dsimp only) <;> (repeat' split) <;> first | rfl | simp
@[simp] theorem ringDrainDone_fv (r : Nat) (s : State) : (ringDrainDone r s).fv = s.fv := by unfold ringDrainDone; (try dsimp only) <;> (repeat' split) <;> first | rfl | simp
@[simp] theorem ringDrainDone_ctr (r : Nat) (s : State) : (ringDrainDone r s).ctr = s.ctr := by unfold ringDrainDone; (try dsimp only) <;> (repeat' split) <;> first | rfl | simp
@[simp] theorem ringDrainDone_mem (r : Nat) (s : State) : (ringDrainDone r s).mem = s.mem := by unfold ringDrainDone; (try dsimp only) <;> (repeat' split) <;> first | rfl | simp
@[simp] theorem ringDrainDone_hmem (r : Nat) (s : State) : (ringDrainDone r s).hmem = s.hmem := by unfold ringDrainDone; (try dsimp only) <;> (repeat' split) <;> first | rfl | simp
@[simp] theorem ringDrainDone_evts (r : Nat) (s : State) : (ringDrainDone r s).evts = s.evts := by unfold ringDrainDone; (try dsimp only) <;> (repeat' split) <;> first | rfl | simp
@[simp] theorem ringDrainDone_evtSeq (r : Nat) (s : State) : (ringDrainDone r s).evtSeq = s.evtSeq := by unfold ringDrainDone; (try dsimp only) <;> (repeat' split) <;> first | rfl | simp
@[simp] theorem ringDrainDone_evtRate (r : Nat) (s : State) : (ringDrainDone r s).evtRate = s.evtRate := by unfold ringDrainDone; (try dsimp only) <;> (repeat' split) <;> first | rfl | simp
@[simp] theorem ringDrainDone_evtSupp (r : Nat) (s : State) : (ringDrainDone r s).evtSupp = s.evtSupp := by unfold ringDrainDone; (try dsimp only) <;> (repeat' split) <;> first | rfl | simp
@[simp] theorem ringDrainDone_journal (r : Nat) (s : State) : (ringDrainDone r s).journal = s.journal := by unfold ringDrainDone; (try dsimp only) <;> (repeat' split) <;> first | rfl | simp
@[simp] theorem ringDrainDone_tx (r : Nat) (s : State) : (ringDrainDone r s).tx = s.tx := by unfold ringDrainDone; (try dsimp only) <;> (repeat' split) <;> first | rfl | simp
@[simp] theorem ringDrainDone_recs (r : Nat) (s : State) : (ringDrainDone r s).recs = s.recs := by unfold ringDrainDone; (try dsimp only) <;> (repeat' split) <;> first | rfl | simp
@[simp] theorem ringDrainDone_ax (r : Nat) (s : State) : (ringDrainDone r s).ax = s.ax := by unfold ringDrainDone; (try dsimp only) <;> (repeat' split) <;> first | rfl | simp
@[simp] theorem ringDrainDone_lay (r : Nat) (s : State) : (ringDrainDone r s).lay = s.lay := by unfold ringDrainDone; (try dsimp only) <;> (repeat' split) <;> first | rfl | simp
@[simp] theorem ringDrainDone_cp (r : Nat) (s : State) : (ringDrainDone r s).cp = s.cp := by unfold ringDrainDone; (try dsimp only) <;> (repeat' split) <;> first | rfl | simp
@[simp] theorem ringDrainDone_ht (r : Nat) (s : State) : (ringDrainDone r s).ht = s.ht := by unfold ringDrainDone; (try dsimp only) <;> (repeat' split) <;> first | rfl | simp
@[simp] theorem ringDrainDone_pfx (r : Nat) (s : State) : (ringDrainDone r s).pfx = s.pfx := by unfold ringDrainDone; (try dsimp only) <;> (repeat' split) <;> first | rfl | simp
@[simp] theorem ringDrainDone_sp (r : Nat) (s : State) : (ringDrainDone r s).sp = s.sp := by unfold ringDrainDone; (try dsimp only) <;> (repeat' split) <;> first | rfl | simp
@[simp] theorem ringDrainDone_engs (r : Nat) (s : State) : (ringDrainDone r s).engs = s.engs := by unfold ringDrainDone; (try dsimp only) <;> (repeat' split) <;> first | rfl | simp
@[simp] theorem ringDrainDone_la (r : Nat) (s : State) : (ringDrainDone r s).la = s.la := by unfold ringDrainDone; (try dsimp only) <;> (repeat' split) <;> first | rfl | simp
@[simp] theorem ringDrainDone_spn (r : Nat) (s : State) : (ringDrainDone r s).spn = s.spn := by unfold ringDrainDone; (try dsimp only) <;> (repeat' split) <;> first | rfl | simp
@[simp] theorem ringDrainDone_wh (r : Nat) (s : State) : (ringDrainDone r s).wh = s.wh := by unfold ringDrainDone; (try dsimp only) <;> (repeat' split) <;> first | rfl | simp
@[simp] theorem ringDrainDone_bt (r : Nat) (s : State) : (ringDrainDone r s).bt = s.bt := by unfold ringDrainDone; (try dsimp only) <;> (repeat' split) <;> first | rfl | simp
@[simp] theorem ringDrainDone_ad (r : Nat) (s : State) : (ringDrainDone r s).ad = s.ad := by unfold ringDrainDone; (try dsimp only) <;> (repeat' split) <;> first | rfl | simp
@[simp] theorem ringDrainDone_sk (r : Nat) (s : State) : (ringDrainDone r s).sk = s.sk := by unfold ringDrainDone; (try dsimp only) <;> (repeat' split) <;> first | rfl | simp
@[simp] theorem ringDrainDone_hf (r : Nat) (s : State) : (ringDrainDone r s).hf = s.hf := by unfold ringDrainDone; (try dsimp only) <;> (repeat' split) <;> first | rfl | simp
@[simp] theorem ringDrainDone_plog (r : Nat) (s : State) : (ringDrainDone r s).plog = s.plog := by unfold ringDrainDone; (try dsimp only) <;> (repeat' split) <;> first | rfl | simp
@[simp] theorem ringDrainDone_wkeys (r : Nat) (s : State) : (ringDrainDone r s).wkeys = s.wkeys := by unfold ringDrainDone; (try dsimp only) <;> (repeat' split) <;> first | rfl | simp
@[simp] theorem ringDrainDone_hw (r : Nat) (s : State) : (ringDrainDone r s).hw = s.hw := by unfold ringDrainDone; (try dsimp only) <;> (repeat' split) <;> first | rfl | simp
@[simp] theorem ringDrainDone_pm (r : Nat) (s : State) : (ringDrainDone r s).pm = s.pm := by unfold ringDrainDone; (try dsimp only) <;> (repeat' split) <;> first | rfl | simp
@[simp] theorem ringDrainDone_ck (r : Nat) (s : State) : (ringDrainDone r s).ck = s.ck := by unfold ringDrainDone; (try dsimp only) <;> (repeat' split) <;> first | rfl | simp
@[simp] theorem ringDrainDone_evacBy (r : Nat) (s : State) : (ringDrainDone r s).evacBy = s.evacBy := by unfold ringDrainDone; (try dsimp only) <;> (repeat' split) <;> first | rfl | simp
@[simp] theorem ringDrainDone_ly (r : Nat) (s : State) : (ringDrainDone r s).ly = s.ly := by unfold ringDrainDone; (try dsimp only) <;> (repeat' split) <;> first | rfl | simp
@[simp] theorem ringDrainDone_tap (r : Nat) (s : State) : (ringDrainDone r s).tap = s.tap := by unfold ringDrainDone; (try dsimp only) <;> (repeat' split) <;> first | rfl | simp
@[simp] theorem writeRecord_pending (ring tag : Nat) (notify : Bool) (st fl com bil hdl det : Nat) (s : State) : (writeRecord ring tag notify st fl com bil hdl det s).pending = s.pending := by simp [writeRecord]
@[simp] theorem writeRecord_span (ring tag : Nat) (notify : Bool) (st fl com bil hdl det : Nat) (s : State) : (writeRecord ring tag notify st fl com bil hdl det s).span = s.span := by simp [writeRecord]
@[simp] theorem writeRecord_uptime (ring tag : Nat) (notify : Bool) (st fl com bil hdl det : Nat) (s : State) : (writeRecord ring tag notify st fl com bil hdl det s).uptime = s.uptime := by simp [writeRecord]
@[simp] theorem writeRecord_fv (ring tag : Nat) (notify : Bool) (st fl com bil hdl det : Nat) (s : State) : (writeRecord ring tag notify st fl com bil hdl det s).fv = s.fv := by simp [writeRecord]
@[simp] theorem writeRecord_regs (ring tag : Nat) (notify : Bool) (st fl com bil hdl det : Nat) (s : State) : (writeRecord ring tag notify st fl com bil hdl det s).regs = s.regs := by simp [writeRecord]
@[simp] theorem writeRecord_ax (ring tag : Nat) (notify : Bool) (st fl com bil hdl det : Nat) (s : State) : (writeRecord ring tag notify st fl com bil hdl det s).ax = s.ax := by simp [writeRecord]
@[simp] theorem writeRecord_cp (ring tag : Nat) (notify : Bool) (st fl com bil hdl det : Nat) (s : State) : (writeRecord ring tag notify st fl com bil hdl det s).cp = s.cp := by simp [writeRecord]
@[simp] theorem writeRecord_ht (ring tag : Nat) (notify : Bool) (st fl com bil hdl det : Nat) (s : State) : (writeRecord ring tag notify st fl com bil hdl det s).ht = s.ht := by simp [writeRecord]
@[simp] theorem writeRecord_pfx (ring tag : Nat) (notify : Bool) (st fl com bil hdl det : Nat) (s : State) : (writeRecord ring tag notify st fl com bil hdl det s).pfx = s.pfx := by simp [writeRecord]
@[simp] theorem writeRecord_sp (ring tag : Nat) (notify : Bool) (st fl com bil hdl det : Nat) (s : State) : (writeRecord ring tag notify st fl com bil hdl det s).sp = s.sp := by simp [writeRecord]
@[simp] theorem writeRecord_engs (ring tag : Nat) (notify : Bool) (st fl com bil hdl det : Nat) (s : State) : (writeRecord ring tag notify st fl com bil hdl det s).engs = s.engs := by simp [writeRecord]
@[simp] theorem writeRecord_la (ring tag : Nat) (notify : Bool) (st fl com bil hdl det : Nat) (s : State) : (writeRecord ring tag notify st fl com bil hdl det s).la = s.la := by simp [writeRecord]
@[simp] theorem writeRecord_spn (ring tag : Nat) (notify : Bool) (st fl com bil hdl det : Nat) (s : State) : (writeRecord ring tag notify st fl com bil hdl det s).spn = s.spn := by simp [writeRecord]
@[simp] theorem writeRecord_wh (ring tag : Nat) (notify : Bool) (st fl com bil hdl det : Nat) (s : State) : (writeRecord ring tag notify st fl com bil hdl det s).wh = s.wh := by simp [writeRecord]
@[simp] theorem writeRecord_bt (ring tag : Nat) (notify : Bool) (st fl com bil hdl det : Nat) (s : State) : (writeRecord ring tag notify st fl com bil hdl det s).bt = s.bt := by simp [writeRecord]
@[simp] theorem writeRecord_ad (ring tag : Nat) (notify : Bool) (st fl com bil hdl det : Nat) (s : State) : (writeRecord ring tag notify st fl com bil hdl det s).ad = s.ad := by simp [writeRecord]
@[simp] theorem writeRecord_sk (ring tag : Nat) (notify : Bool) (st fl com bil hdl det : Nat) (s : State) : (writeRecord ring tag notify st fl com bil hdl det s).sk = s.sk := by simp [writeRecord]
@[simp] theorem writeRecord_hf (ring tag : Nat) (notify : Bool) (st fl com bil hdl det : Nat) (s : State) : (writeRecord ring tag notify st fl com bil hdl det s).hf = s.hf := by simp [writeRecord]
@[simp] theorem writeRecord_plog (ring tag : Nat) (notify : Bool) (st fl com bil hdl det : Nat) (s : State) : (writeRecord ring tag notify st fl com bil hdl det s).plog = s.plog := by simp [writeRecord]
@[simp] theorem writeRecord_wkeys (ring tag : Nat) (notify : Bool) (st fl com bil hdl det : Nat) (s : State) : (writeRecord ring tag notify st fl com bil hdl det s).wkeys = s.wkeys := by simp [writeRecord]
@[simp] theorem writeRecord_hw (ring tag : Nat) (notify : Bool) (st fl com bil hdl det : Nat) (s : State) : (writeRecord ring tag notify st fl com bil hdl det s).hw = s.hw := by simp [writeRecord]
@[simp] theorem writeRecord_pm (ring tag : Nat) (notify : Bool) (st fl com bil hdl det : Nat) (s : State) : (writeRecord ring tag notify st fl com bil hdl det s).pm = s.pm := by simp [writeRecord]
@[simp] theorem writeRecord_ck (ring tag : Nat) (notify : Bool) (st fl com bil hdl det : Nat) (s : State) : (writeRecord ring tag notify st fl com bil hdl det s).ck = s.ck := by simp [writeRecord]
@[simp] theorem writeRecord_evacBy (ring tag : Nat) (notify : Bool) (st fl com bil hdl det : Nat) (s : State) : (writeRecord ring tag notify st fl com bil hdl det s).evacBy = s.evacBy := by simp [writeRecord]
@[simp] theorem writeRecord_ly (ring tag : Nat) (notify : Bool) (st fl com bil hdl det : Nat) (s : State) : (writeRecord ring tag notify st fl com bil hdl det s).ly = s.ly := by simp [writeRecord]
@[simp] theorem writeRecord_tap (ring tag : Nat) (notify : Bool) (st fl com bil hdl det : Nat) (s : State) : (writeRecord ring tag notify st fl com bil hdl det s).tap = s.tap := by simp [writeRecord]
@[simp] theorem complete_pending (ring : Nat) (d : BitVec 512) (st fl com bil hdl det : Nat) (s : State) : (complete ring d st fl com bil hdl det s).pending = s.pending := by unfold complete; dsimp only; split <;> simp
@[simp] theorem complete_span (ring : Nat) (d : BitVec 512) (st fl com bil hdl det : Nat) (s : State) : (complete ring d st fl com bil hdl det s).span = s.span := by unfold complete; dsimp only; split <;> simp
@[simp] theorem complete_uptime (ring : Nat) (d : BitVec 512) (st fl com bil hdl det : Nat) (s : State) : (complete ring d st fl com bil hdl det s).uptime = s.uptime := by unfold complete; dsimp only; split <;> simp
@[simp] theorem complete_fv (ring : Nat) (d : BitVec 512) (st fl com bil hdl det : Nat) (s : State) : (complete ring d st fl com bil hdl det s).fv = s.fv := by unfold complete; dsimp only; split <;> simp
@[simp] theorem complete_ax (ring : Nat) (d : BitVec 512) (st fl com bil hdl det : Nat) (s : State) : (complete ring d st fl com bil hdl det s).ax = s.ax := by unfold complete; dsimp only; split <;> simp
@[simp] theorem complete_ht (ring : Nat) (d : BitVec 512) (st fl com bil hdl det : Nat) (s : State) : (complete ring d st fl com bil hdl det s).ht = s.ht := by unfold complete; dsimp only; split <;> simp
@[simp] theorem complete_pfx (ring : Nat) (d : BitVec 512) (st fl com bil hdl det : Nat) (s : State) : (complete ring d st fl com bil hdl det s).pfx = s.pfx := by unfold complete; dsimp only; split <;> simp
@[simp] theorem complete_sp (ring : Nat) (d : BitVec 512) (st fl com bil hdl det : Nat) (s : State) : (complete ring d st fl com bil hdl det s).sp = s.sp := by unfold complete; dsimp only; split <;> simp
@[simp] theorem complete_engs (ring : Nat) (d : BitVec 512) (st fl com bil hdl det : Nat) (s : State) : (complete ring d st fl com bil hdl det s).engs = s.engs := by unfold complete; dsimp only; split <;> simp
@[simp] theorem complete_la (ring : Nat) (d : BitVec 512) (st fl com bil hdl det : Nat) (s : State) : (complete ring d st fl com bil hdl det s).la = s.la := by unfold complete; dsimp only; split <;> simp
@[simp] theorem complete_spn (ring : Nat) (d : BitVec 512) (st fl com bil hdl det : Nat) (s : State) : (complete ring d st fl com bil hdl det s).spn = s.spn := by unfold complete; dsimp only; split <;> simp
@[simp] theorem complete_wh (ring : Nat) (d : BitVec 512) (st fl com bil hdl det : Nat) (s : State) : (complete ring d st fl com bil hdl det s).wh = s.wh := by unfold complete; dsimp only; split <;> simp
@[simp] theorem complete_bt (ring : Nat) (d : BitVec 512) (st fl com bil hdl det : Nat) (s : State) : (complete ring d st fl com bil hdl det s).bt = s.bt := by unfold complete; dsimp only; split <;> simp
@[simp] theorem complete_ad (ring : Nat) (d : BitVec 512) (st fl com bil hdl det : Nat) (s : State) : (complete ring d st fl com bil hdl det s).ad = s.ad := by unfold complete; dsimp only; split <;> simp
@[simp] theorem complete_sk (ring : Nat) (d : BitVec 512) (st fl com bil hdl det : Nat) (s : State) : (complete ring d st fl com bil hdl det s).sk = s.sk := by unfold complete; dsimp only; split <;> simp
@[simp] theorem complete_hf (ring : Nat) (d : BitVec 512) (st fl com bil hdl det : Nat) (s : State) : (complete ring d st fl com bil hdl det s).hf = s.hf := by unfold complete; dsimp only; split <;> simp
@[simp] theorem complete_plog (ring : Nat) (d : BitVec 512) (st fl com bil hdl det : Nat) (s : State) : (complete ring d st fl com bil hdl det s).plog = s.plog := by unfold complete; dsimp only; split <;> simp
@[simp] theorem complete_wkeys (ring : Nat) (d : BitVec 512) (st fl com bil hdl det : Nat) (s : State) : (complete ring d st fl com bil hdl det s).wkeys = s.wkeys := by unfold complete; dsimp only; split <;> simp
@[simp] theorem complete_hw (ring : Nat) (d : BitVec 512) (st fl com bil hdl det : Nat) (s : State) : (complete ring d st fl com bil hdl det s).hw = s.hw := by unfold complete; dsimp only; split <;> simp
@[simp] theorem complete_pm (ring : Nat) (d : BitVec 512) (st fl com bil hdl det : Nat) (s : State) : (complete ring d st fl com bil hdl det s).pm = s.pm := by unfold complete; dsimp only; split <;> simp
@[simp] theorem complete_ck (ring : Nat) (d : BitVec 512) (st fl com bil hdl det : Nat) (s : State) : (complete ring d st fl com bil hdl det s).ck = s.ck := by unfold complete; dsimp only; split <;> simp
@[simp] theorem complete_evacBy (ring : Nat) (d : BitVec 512) (st fl com bil hdl det : Nat) (s : State) : (complete ring d st fl com bil hdl det s).evacBy = s.evacBy := by unfold complete; dsimp only; split <;> simp
@[simp] theorem complete_ly (ring : Nat) (d : BitVec 512) (st fl com bil hdl det : Nat) (s : State) : (complete ring d st fl com bil hdl det s).ly = s.ly := by unfold complete; dsimp only; split <;> simp
@[simp] theorem complete_tap (ring : Nat) (d : BitVec 512) (st fl com bil hdl det : Nat) (s : State) : (complete ring d st fl com bil hdl det s).tap = s.tap := by unfold complete; dsimp only; split <;> simp
@[simp] theorem finish_pending (ring : Nat) (d : BitVec 512) (st det : Nat) (s : State) : (finish ring d st det s).pending = s.pending := by simp [finish]
@[simp] theorem finish_span (ring : Nat) (d : BitVec 512) (st det : Nat) (s : State) : (finish ring d st det s).span = s.span := by simp [finish]
@[simp] theorem finish_uptime (ring : Nat) (d : BitVec 512) (st det : Nat) (s : State) : (finish ring d st det s).uptime = s.uptime := by simp [finish]
@[simp] theorem finish_fv (ring : Nat) (d : BitVec 512) (st det : Nat) (s : State) : (finish ring d st det s).fv = s.fv := by simp [finish]
@[simp] theorem finish_ax (ring : Nat) (d : BitVec 512) (st det : Nat) (s : State) : (finish ring d st det s).ax = s.ax := by simp [finish]
@[simp] theorem finish_ht (ring : Nat) (d : BitVec 512) (st det : Nat) (s : State) : (finish ring d st det s).ht = s.ht := by simp [finish]
@[simp] theorem finish_pfx (ring : Nat) (d : BitVec 512) (st det : Nat) (s : State) : (finish ring d st det s).pfx = s.pfx := by simp [finish]
@[simp] theorem finish_sp (ring : Nat) (d : BitVec 512) (st det : Nat) (s : State) : (finish ring d st det s).sp = s.sp := by simp [finish]
@[simp] theorem finish_engs (ring : Nat) (d : BitVec 512) (st det : Nat) (s : State) : (finish ring d st det s).engs = s.engs := by simp [finish]
@[simp] theorem finish_la (ring : Nat) (d : BitVec 512) (st det : Nat) (s : State) : (finish ring d st det s).la = s.la := by simp [finish]
@[simp] theorem finish_spn (ring : Nat) (d : BitVec 512) (st det : Nat) (s : State) : (finish ring d st det s).spn = s.spn := by simp [finish]
@[simp] theorem finish_wh (ring : Nat) (d : BitVec 512) (st det : Nat) (s : State) : (finish ring d st det s).wh = s.wh := by simp [finish]
@[simp] theorem finish_bt (ring : Nat) (d : BitVec 512) (st det : Nat) (s : State) : (finish ring d st det s).bt = s.bt := by simp [finish]
@[simp] theorem finish_ad (ring : Nat) (d : BitVec 512) (st det : Nat) (s : State) : (finish ring d st det s).ad = s.ad := by simp [finish]
@[simp] theorem finish_sk (ring : Nat) (d : BitVec 512) (st det : Nat) (s : State) : (finish ring d st det s).sk = s.sk := by simp [finish]
@[simp] theorem finish_hf (ring : Nat) (d : BitVec 512) (st det : Nat) (s : State) : (finish ring d st det s).hf = s.hf := by simp [finish]
@[simp] theorem finish_plog (ring : Nat) (d : BitVec 512) (st det : Nat) (s : State) : (finish ring d st det s).plog = s.plog := by simp [finish]
@[simp] theorem finish_wkeys (ring : Nat) (d : BitVec 512) (st det : Nat) (s : State) : (finish ring d st det s).wkeys = s.wkeys := by simp [finish]
@[simp] theorem finish_hw (ring : Nat) (d : BitVec 512) (st det : Nat) (s : State) : (finish ring d st det s).hw = s.hw := by simp [finish]
@[simp] theorem finish_pm (ring : Nat) (d : BitVec 512) (st det : Nat) (s : State) : (finish ring d st det s).pm = s.pm := by simp [finish]
@[simp] theorem finish_ck (ring : Nat) (d : BitVec 512) (st det : Nat) (s : State) : (finish ring d st det s).ck = s.ck := by simp [finish]
@[simp] theorem finish_evacBy (ring : Nat) (d : BitVec 512) (st det : Nat) (s : State) : (finish ring d st det s).evacBy = s.evacBy := by simp [finish]
@[simp] theorem finish_ly (ring : Nat) (d : BitVec 512) (st det : Nat) (s : State) : (finish ring d st det s).ly = s.ly := by simp [finish]
@[simp] theorem finish_tap (ring : Nat) (d : BitVec 512) (st det : Nat) (s : State) : (finish ring d st det s).tap = s.tap := by simp [finish]
@[simp] theorem notice_pending (p ty n pages addr hdl : Nat) (s : State) : (notice p ty n pages addr hdl s).pending = s.pending := by unfold notice; (try dsimp only) <;> (repeat' split) <;> first | rfl | simp
@[simp] theorem notice_span (p ty n pages addr hdl : Nat) (s : State) : (notice p ty n pages addr hdl s).span = s.span := by unfold notice; (try dsimp only) <;> (repeat' split) <;> first | rfl | simp
@[simp] theorem notice_uptime (p ty n pages addr hdl : Nat) (s : State) : (notice p ty n pages addr hdl s).uptime = s.uptime := by unfold notice; (try dsimp only) <;> (repeat' split) <;> first | rfl | simp
@[simp] theorem notice_fv (p ty n pages addr hdl : Nat) (s : State) : (notice p ty n pages addr hdl s).fv = s.fv := by unfold notice; (try dsimp only) <;> (repeat' split) <;> first | rfl | simp
@[simp] theorem notice_regs (p ty n pages addr hdl : Nat) (s : State) : (notice p ty n pages addr hdl s).regs = s.regs := by unfold notice; (try dsimp only) <;> (repeat' split) <;> first | rfl | simp
@[simp] theorem notice_recs (p ty n pages addr hdl : Nat) (s : State) : (notice p ty n pages addr hdl s).recs = s.recs := by unfold notice; (try dsimp only) <;> (repeat' split) <;> first | rfl | simp
@[simp] theorem notice_ax (p ty n pages addr hdl : Nat) (s : State) : (notice p ty n pages addr hdl s).ax = s.ax := by unfold notice; (try dsimp only) <;> (repeat' split) <;> first | rfl | simp
@[simp] theorem notice_cp (p ty n pages addr hdl : Nat) (s : State) : (notice p ty n pages addr hdl s).cp = s.cp := by unfold notice; (try dsimp only) <;> (repeat' split) <;> first | rfl | simp
@[simp] theorem notice_ht (p ty n pages addr hdl : Nat) (s : State) : (notice p ty n pages addr hdl s).ht = s.ht := by unfold notice; (try dsimp only) <;> (repeat' split) <;> first | rfl | simp
@[simp] theorem notice_pfx (p ty n pages addr hdl : Nat) (s : State) : (notice p ty n pages addr hdl s).pfx = s.pfx := by unfold notice; (try dsimp only) <;> (repeat' split) <;> first | rfl | simp
@[simp] theorem notice_engs (p ty n pages addr hdl : Nat) (s : State) : (notice p ty n pages addr hdl s).engs = s.engs := by unfold notice; (try dsimp only) <;> (repeat' split) <;> first | rfl | simp
@[simp] theorem notice_la (p ty n pages addr hdl : Nat) (s : State) : (notice p ty n pages addr hdl s).la = s.la := by unfold notice; (try dsimp only) <;> (repeat' split) <;> first | rfl | simp
@[simp] theorem notice_spn (p ty n pages addr hdl : Nat) (s : State) : (notice p ty n pages addr hdl s).spn = s.spn := by unfold notice; (try dsimp only) <;> (repeat' split) <;> first | rfl | simp
@[simp] theorem notice_wh (p ty n pages addr hdl : Nat) (s : State) : (notice p ty n pages addr hdl s).wh = s.wh := by unfold notice; (try dsimp only) <;> (repeat' split) <;> first | rfl | simp
@[simp] theorem notice_bt (p ty n pages addr hdl : Nat) (s : State) : (notice p ty n pages addr hdl s).bt = s.bt := by unfold notice; (try dsimp only) <;> (repeat' split) <;> first | rfl | simp
@[simp] theorem notice_ad (p ty n pages addr hdl : Nat) (s : State) : (notice p ty n pages addr hdl s).ad = s.ad := by unfold notice; (try dsimp only) <;> (repeat' split) <;> first | rfl | simp
@[simp] theorem notice_sk (p ty n pages addr hdl : Nat) (s : State) : (notice p ty n pages addr hdl s).sk = s.sk := by unfold notice; (try dsimp only) <;> (repeat' split) <;> first | rfl | simp
@[simp] theorem notice_hf (p ty n pages addr hdl : Nat) (s : State) : (notice p ty n pages addr hdl s).hf = s.hf := by unfold notice; (try dsimp only) <;> (repeat' split) <;> first | rfl | simp
@[simp] theorem notice_plog (p ty n pages addr hdl : Nat) (s : State) : (notice p ty n pages addr hdl s).plog = s.plog := by unfold notice; (try dsimp only) <;> (repeat' split) <;> first | rfl | simp
@[simp] theorem notice_wkeys (p ty n pages addr hdl : Nat) (s : State) : (notice p ty n pages addr hdl s).wkeys = s.wkeys := by unfold notice; (try dsimp only) <;> (repeat' split) <;> first | rfl | simp
@[simp] theorem notice_hw (p ty n pages addr hdl : Nat) (s : State) : (notice p ty n pages addr hdl s).hw = s.hw := by unfold notice; (try dsimp only) <;> (repeat' split) <;> first | rfl | simp
@[simp] theorem notice_pm (p ty n pages addr hdl : Nat) (s : State) : (notice p ty n pages addr hdl s).pm = s.pm := by unfold notice; (try dsimp only) <;> (repeat' split) <;> first | rfl | simp
@[simp] theorem notice_ck (p ty n pages addr hdl : Nat) (s : State) : (notice p ty n pages addr hdl s).ck = s.ck := by unfold notice; (try dsimp only) <;> (repeat' split) <;> first | rfl | simp
@[simp] theorem notice_evacBy (p ty n pages addr hdl : Nat) (s : State) : (notice p ty n pages addr hdl s).evacBy = s.evacBy := by unfold notice; (try dsimp only) <;> (repeat' split) <;> first | rfl | simp
@[simp] theorem notice_ly (p ty n pages addr hdl : Nat) (s : State) : (notice p ty n pages addr hdl s).ly = s.ly := by unfold notice; (try dsimp only) <;> (repeat' split) <;> first | rfl | simp
@[simp] theorem notice_tap (p ty n pages addr hdl : Nat) (s : State) : (notice p ty n pages addr hdl s).tap = s.tap := by unfold notice; (try dsimp only) <;> (repeat' split) <;> first | rfl | simp
@[simp] theorem putEng_pending (b e : Nat) (x : Eng) (s : State) : (putEng b e x s).pending = s.pending := rfl
@[simp] theorem putEng_span (b e : Nat) (x : Eng) (s : State) : (putEng b e x s).span = s.span := rfl
@[simp] theorem putEng_uptime (b e : Nat) (x : Eng) (s : State) : (putEng b e x s).uptime = s.uptime := rfl
@[simp] theorem putEng_fv (b e : Nat) (x : Eng) (s : State) : (putEng b e x s).fv = s.fv := rfl
@[simp] theorem putEng_regs (b e : Nat) (x : Eng) (s : State) : (putEng b e x s).regs = s.regs := rfl
@[simp] theorem putEng_ctr (b e : Nat) (x : Eng) (s : State) : (putEng b e x s).ctr = s.ctr := rfl
@[simp] theorem putEng_mem (b e : Nat) (x : Eng) (s : State) : (putEng b e x s).mem = s.mem := rfl
@[simp] theorem putEng_hmem (b e : Nat) (x : Eng) (s : State) : (putEng b e x s).hmem = s.hmem := rfl
@[simp] theorem putEng_evts (b e : Nat) (x : Eng) (s : State) : (putEng b e x s).evts = s.evts := rfl
@[simp] theorem putEng_evtSeq (b e : Nat) (x : Eng) (s : State) : (putEng b e x s).evtSeq = s.evtSeq := rfl
@[simp] theorem putEng_evtRate (b e : Nat) (x : Eng) (s : State) : (putEng b e x s).evtRate = s.evtRate := rfl
@[simp] theorem putEng_evtSupp (b e : Nat) (x : Eng) (s : State) : (putEng b e x s).evtSupp = s.evtSupp := rfl
@[simp] theorem putEng_journal (b e : Nat) (x : Eng) (s : State) : (putEng b e x s).journal = s.journal := rfl
@[simp] theorem putEng_tx (b e : Nat) (x : Eng) (s : State) : (putEng b e x s).tx = s.tx := rfl
@[simp] theorem putEng_recs (b e : Nat) (x : Eng) (s : State) : (putEng b e x s).recs = s.recs := rfl
@[simp] theorem putEng_ax (b e : Nat) (x : Eng) (s : State) : (putEng b e x s).ax = s.ax := rfl
@[simp] theorem putEng_lay (b e : Nat) (x : Eng) (s : State) : (putEng b e x s).lay = s.lay := rfl
@[simp] theorem putEng_hp (b e : Nat) (x : Eng) (s : State) : (putEng b e x s).hp = s.hp := rfl
@[simp] theorem putEng_cp (b e : Nat) (x : Eng) (s : State) : (putEng b e x s).cp = s.cp := rfl
@[simp] theorem putEng_ht (b e : Nat) (x : Eng) (s : State) : (putEng b e x s).ht = s.ht := rfl
@[simp] theorem putEng_pfx (b e : Nat) (x : Eng) (s : State) : (putEng b e x s).pfx = s.pfx := rfl
@[simp] theorem putEng_sp (b e : Nat) (x : Eng) (s : State) : (putEng b e x s).sp = s.sp := rfl
@[simp] theorem putEng_la (b e : Nat) (x : Eng) (s : State) : (putEng b e x s).la = s.la := rfl
@[simp] theorem putEng_spn (b e : Nat) (x : Eng) (s : State) : (putEng b e x s).spn = s.spn := rfl
@[simp] theorem putEng_wh (b e : Nat) (x : Eng) (s : State) : (putEng b e x s).wh = s.wh := rfl
@[simp] theorem putEng_bt (b e : Nat) (x : Eng) (s : State) : (putEng b e x s).bt = s.bt := rfl
@[simp] theorem putEng_ad (b e : Nat) (x : Eng) (s : State) : (putEng b e x s).ad = s.ad := rfl
@[simp] theorem putEng_sk (b e : Nat) (x : Eng) (s : State) : (putEng b e x s).sk = s.sk := rfl
@[simp] theorem putEng_hf (b e : Nat) (x : Eng) (s : State) : (putEng b e x s).hf = s.hf := rfl
@[simp] theorem putEng_plog (b e : Nat) (x : Eng) (s : State) : (putEng b e x s).plog = s.plog := rfl
@[simp] theorem putEng_wkeys (b e : Nat) (x : Eng) (s : State) : (putEng b e x s).wkeys = s.wkeys := rfl
@[simp] theorem putEng_hw (b e : Nat) (x : Eng) (s : State) : (putEng b e x s).hw = s.hw := rfl
@[simp] theorem putEng_pm (b e : Nat) (x : Eng) (s : State) : (putEng b e x s).pm = s.pm := rfl
@[simp] theorem putEng_ck (b e : Nat) (x : Eng) (s : State) : (putEng b e x s).ck = s.ck := rfl
@[simp] theorem putEng_evacBy (b e : Nat) (x : Eng) (s : State) : (putEng b e x s).evacBy = s.evacBy := rfl
@[simp] theorem putEng_ly (b e : Nat) (x : Eng) (s : State) : (putEng b e x s).ly = s.ly := rfl
@[simp] theorem putEng_tap (b e : Nat) (x : Eng) (s : State) : (putEng b e x s).tap = s.tap := rfl
@[simp] theorem engSettle_pending (b e : Nat) (s : State) : (engSettle b e s).pending = s.pending := by unfold engSettle; (try dsimp only) <;> (repeat' split) <;> first | rfl | simp
@[simp] theorem engSettle_span (b e : Nat) (s : State) : (engSettle b e s).span = s.span := by unfold engSettle; (try dsimp only) <;> (repeat' split) <;> first | rfl | simp
@[simp] theorem engSettle_uptime (b e : Nat) (s : State) : (engSettle b e s).uptime = s.uptime := by unfold engSettle; (try dsimp only) <;> (repeat' split) <;> first | rfl | simp
@[simp] theorem engSettle_fv (b e : Nat) (s : State) : (engSettle b e s).fv = s.fv := by unfold engSettle; (try dsimp only) <;> (repeat' split) <;> first | rfl | simp
@[simp] theorem engSettle_ctr (b e : Nat) (s : State) : (engSettle b e s).ctr = s.ctr := by unfold engSettle; (try dsimp only) <;> (repeat' split) <;> first | rfl | simp
@[simp] theorem engSettle_mem (b e : Nat) (s : State) : (engSettle b e s).mem = s.mem := by unfold engSettle; (try dsimp only) <;> (repeat' split) <;> first | rfl | simp
@[simp] theorem engSettle_hmem (b e : Nat) (s : State) : (engSettle b e s).hmem = s.hmem := by unfold engSettle; (try dsimp only) <;> (repeat' split) <;> first | rfl | simp
@[simp] theorem engSettle_evts (b e : Nat) (s : State) : (engSettle b e s).evts = s.evts := by unfold engSettle; (try dsimp only) <;> (repeat' split) <;> first | rfl | simp
@[simp] theorem engSettle_evtSeq (b e : Nat) (s : State) : (engSettle b e s).evtSeq = s.evtSeq := by unfold engSettle; (try dsimp only) <;> (repeat' split) <;> first | rfl | simp
@[simp] theorem engSettle_evtRate (b e : Nat) (s : State) : (engSettle b e s).evtRate = s.evtRate := by unfold engSettle; (try dsimp only) <;> (repeat' split) <;> first | rfl | simp
@[simp] theorem engSettle_evtSupp (b e : Nat) (s : State) : (engSettle b e s).evtSupp = s.evtSupp := by unfold engSettle; (try dsimp only) <;> (repeat' split) <;> first | rfl | simp
@[simp] theorem engSettle_journal (b e : Nat) (s : State) : (engSettle b e s).journal = s.journal := by unfold engSettle; (try dsimp only) <;> (repeat' split) <;> first | rfl | simp
@[simp] theorem engSettle_tx (b e : Nat) (s : State) : (engSettle b e s).tx = s.tx := by unfold engSettle; (try dsimp only) <;> (repeat' split) <;> first | rfl | simp
@[simp] theorem engSettle_recs (b e : Nat) (s : State) : (engSettle b e s).recs = s.recs := by unfold engSettle; (try dsimp only) <;> (repeat' split) <;> first | rfl | simp
@[simp] theorem engSettle_ax (b e : Nat) (s : State) : (engSettle b e s).ax = s.ax := by unfold engSettle; (try dsimp only) <;> (repeat' split) <;> first | rfl | simp
@[simp] theorem engSettle_lay (b e : Nat) (s : State) : (engSettle b e s).lay = s.lay := by unfold engSettle; (try dsimp only) <;> (repeat' split) <;> first | rfl | simp
@[simp] theorem engSettle_hp (b e : Nat) (s : State) : (engSettle b e s).hp = s.hp := by unfold engSettle; (try dsimp only) <;> (repeat' split) <;> first | rfl | simp
@[simp] theorem engSettle_cp (b e : Nat) (s : State) : (engSettle b e s).cp = s.cp := by unfold engSettle; (try dsimp only) <;> (repeat' split) <;> first | rfl | simp
@[simp] theorem engSettle_ht (b e : Nat) (s : State) : (engSettle b e s).ht = s.ht := by unfold engSettle; (try dsimp only) <;> (repeat' split) <;> first | rfl | simp
@[simp] theorem engSettle_pfx (b e : Nat) (s : State) : (engSettle b e s).pfx = s.pfx := by unfold engSettle; (try dsimp only) <;> (repeat' split) <;> first | rfl | simp
@[simp] theorem engSettle_sp (b e : Nat) (s : State) : (engSettle b e s).sp = s.sp := by unfold engSettle; (try dsimp only) <;> (repeat' split) <;> first | rfl | simp
@[simp] theorem engSettle_la (b e : Nat) (s : State) : (engSettle b e s).la = s.la := by unfold engSettle; (try dsimp only) <;> (repeat' split) <;> first | rfl | simp
@[simp] theorem engSettle_spn (b e : Nat) (s : State) : (engSettle b e s).spn = s.spn := by unfold engSettle; (try dsimp only) <;> (repeat' split) <;> first | rfl | simp
@[simp] theorem engSettle_wh (b e : Nat) (s : State) : (engSettle b e s).wh = s.wh := by unfold engSettle; (try dsimp only) <;> (repeat' split) <;> first | rfl | simp
@[simp] theorem engSettle_bt (b e : Nat) (s : State) : (engSettle b e s).bt = s.bt := by unfold engSettle; (try dsimp only) <;> (repeat' split) <;> first | rfl | simp
@[simp] theorem engSettle_ad (b e : Nat) (s : State) : (engSettle b e s).ad = s.ad := by unfold engSettle; (try dsimp only) <;> (repeat' split) <;> first | rfl | simp
@[simp] theorem engSettle_sk (b e : Nat) (s : State) : (engSettle b e s).sk = s.sk := by unfold engSettle; (try dsimp only) <;> (repeat' split) <;> first | rfl | simp
@[simp] theorem engSettle_hf (b e : Nat) (s : State) : (engSettle b e s).hf = s.hf := by unfold engSettle; (try dsimp only) <;> (repeat' split) <;> first | rfl | simp
@[simp] theorem engSettle_plog (b e : Nat) (s : State) : (engSettle b e s).plog = s.plog := by unfold engSettle; (try dsimp only) <;> (repeat' split) <;> first | rfl | simp
@[simp] theorem engSettle_wkeys (b e : Nat) (s : State) : (engSettle b e s).wkeys = s.wkeys := by unfold engSettle; (try dsimp only) <;> (repeat' split) <;> first | rfl | simp
@[simp] theorem engSettle_hw (b e : Nat) (s : State) : (engSettle b e s).hw = s.hw := by unfold engSettle; (try dsimp only) <;> (repeat' split) <;> first | rfl | simp
@[simp] theorem engSettle_pm (b e : Nat) (s : State) : (engSettle b e s).pm = s.pm := by unfold engSettle; (try dsimp only) <;> (repeat' split) <;> first | rfl | simp
@[simp] theorem engSettle_ck (b e : Nat) (s : State) : (engSettle b e s).ck = s.ck := by unfold engSettle; (try dsimp only) <;> (repeat' split) <;> first | rfl | simp
@[simp] theorem engSettle_evacBy (b e : Nat) (s : State) : (engSettle b e s).evacBy = s.evacBy := by unfold engSettle; (try dsimp only) <;> (repeat' split) <;> first | rfl | simp
@[simp] theorem engSettle_ly (b e : Nat) (s : State) : (engSettle b e s).ly = s.ly := by unfold engSettle; (try dsimp only) <;> (repeat' split) <;> first | rfl | simp
@[simp] theorem engSettle_tap (b e : Nat) (s : State) : (engSettle b e s).tap = s.tap := by unfold engSettle; (try dsimp only) <;> (repeat' split) <;> first | rfl | simp
@[simp] theorem engTake_pending (b e : Nat) (s : State) : (engTake b e s).pending = s.pending := by simp [engTake]
@[simp] theorem engTake_span (b e : Nat) (s : State) : (engTake b e s).span = s.span := by simp [engTake]
@[simp] theorem engTake_uptime (b e : Nat) (s : State) : (engTake b e s).uptime = s.uptime := by simp [engTake]
@[simp] theorem engTake_fv (b e : Nat) (s : State) : (engTake b e s).fv = s.fv := by simp [engTake]
@[simp] theorem engTake_regs (b e : Nat) (s : State) : (engTake b e s).regs = s.regs := by simp [engTake]
@[simp] theorem engTake_ctr (b e : Nat) (s : State) : (engTake b e s).ctr = s.ctr := by simp [engTake]
@[simp] theorem engTake_mem (b e : Nat) (s : State) : (engTake b e s).mem = s.mem := by simp [engTake]
@[simp] theorem engTake_hmem (b e : Nat) (s : State) : (engTake b e s).hmem = s.hmem := by simp [engTake]
@[simp] theorem engTake_evts (b e : Nat) (s : State) : (engTake b e s).evts = s.evts := by simp [engTake]
@[simp] theorem engTake_evtSeq (b e : Nat) (s : State) : (engTake b e s).evtSeq = s.evtSeq := by simp [engTake]
@[simp] theorem engTake_evtRate (b e : Nat) (s : State) : (engTake b e s).evtRate = s.evtRate := by simp [engTake]
@[simp] theorem engTake_evtSupp (b e : Nat) (s : State) : (engTake b e s).evtSupp = s.evtSupp := by simp [engTake]
@[simp] theorem engTake_journal (b e : Nat) (s : State) : (engTake b e s).journal = s.journal := by simp [engTake]
@[simp] theorem engTake_tx (b e : Nat) (s : State) : (engTake b e s).tx = s.tx := by simp [engTake]
@[simp] theorem engTake_recs (b e : Nat) (s : State) : (engTake b e s).recs = s.recs := by simp [engTake]
@[simp] theorem engTake_ax (b e : Nat) (s : State) : (engTake b e s).ax = s.ax := by simp [engTake]
@[simp] theorem engTake_lay (b e : Nat) (s : State) : (engTake b e s).lay = s.lay := by simp [engTake]
@[simp] theorem engTake_hp (b e : Nat) (s : State) : (engTake b e s).hp = s.hp := by simp [engTake]
@[simp] theorem engTake_cp (b e : Nat) (s : State) : (engTake b e s).cp = s.cp := by simp [engTake]
@[simp] theorem engTake_ht (b e : Nat) (s : State) : (engTake b e s).ht = s.ht := by simp [engTake]
@[simp] theorem engTake_pfx (b e : Nat) (s : State) : (engTake b e s).pfx = s.pfx := by simp [engTake]
@[simp] theorem engTake_sp (b e : Nat) (s : State) : (engTake b e s).sp = s.sp := by simp [engTake]
@[simp] theorem engTake_la (b e : Nat) (s : State) : (engTake b e s).la = s.la := by simp [engTake]
@[simp] theorem engTake_spn (b e : Nat) (s : State) : (engTake b e s).spn = s.spn := by simp [engTake]
@[simp] theorem engTake_wh (b e : Nat) (s : State) : (engTake b e s).wh = s.wh := by simp [engTake]
@[simp] theorem engTake_bt (b e : Nat) (s : State) : (engTake b e s).bt = s.bt := by simp [engTake]
@[simp] theorem engTake_ad (b e : Nat) (s : State) : (engTake b e s).ad = s.ad := by simp [engTake]
@[simp] theorem engTake_sk (b e : Nat) (s : State) : (engTake b e s).sk = s.sk := by simp [engTake]
@[simp] theorem engTake_hf (b e : Nat) (s : State) : (engTake b e s).hf = s.hf := by simp [engTake]
@[simp] theorem engTake_plog (b e : Nat) (s : State) : (engTake b e s).plog = s.plog := by simp [engTake]
@[simp] theorem engTake_wkeys (b e : Nat) (s : State) : (engTake b e s).wkeys = s.wkeys := by simp [engTake]
@[simp] theorem engTake_hw (b e : Nat) (s : State) : (engTake b e s).hw = s.hw := by simp [engTake]
@[simp] theorem engTake_pm (b e : Nat) (s : State) : (engTake b e s).pm = s.pm := by simp [engTake]
@[simp] theorem engTake_ck (b e : Nat) (s : State) : (engTake b e s).ck = s.ck := by simp [engTake]
@[simp] theorem engTake_evacBy (b e : Nat) (s : State) : (engTake b e s).evacBy = s.evacBy := by simp [engTake]
@[simp] theorem engTake_ly (b e : Nat) (s : State) : (engTake b e s).ly = s.ly := by simp [engTake]
@[simp] theorem engTake_tap (b e : Nat) (s : State) : (engTake b e s).tap = s.tap := by simp [engTake]
@[simp] theorem engDone_pending (b e : Nat) (s : State) : (engDone b e s).pending = s.pending := by simp [engDone]
@[simp] theorem engDone_span (b e : Nat) (s : State) : (engDone b e s).span = s.span := by simp [engDone]
@[simp] theorem engDone_uptime (b e : Nat) (s : State) : (engDone b e s).uptime = s.uptime := by simp [engDone]
@[simp] theorem engDone_fv (b e : Nat) (s : State) : (engDone b e s).fv = s.fv := by simp [engDone]
@[simp] theorem engDone_ctr (b e : Nat) (s : State) : (engDone b e s).ctr = s.ctr := by simp [engDone]
@[simp] theorem engDone_mem (b e : Nat) (s : State) : (engDone b e s).mem = s.mem := by simp [engDone]
@[simp] theorem engDone_hmem (b e : Nat) (s : State) : (engDone b e s).hmem = s.hmem := by simp [engDone]
@[simp] theorem engDone_evts (b e : Nat) (s : State) : (engDone b e s).evts = s.evts := by simp [engDone]
@[simp] theorem engDone_evtSeq (b e : Nat) (s : State) : (engDone b e s).evtSeq = s.evtSeq := by simp [engDone]
@[simp] theorem engDone_evtRate (b e : Nat) (s : State) : (engDone b e s).evtRate = s.evtRate := by simp [engDone]
@[simp] theorem engDone_evtSupp (b e : Nat) (s : State) : (engDone b e s).evtSupp = s.evtSupp := by simp [engDone]
@[simp] theorem engDone_journal (b e : Nat) (s : State) : (engDone b e s).journal = s.journal := by simp [engDone]
@[simp] theorem engDone_tx (b e : Nat) (s : State) : (engDone b e s).tx = s.tx := by simp [engDone]
@[simp] theorem engDone_recs (b e : Nat) (s : State) : (engDone b e s).recs = s.recs := by simp [engDone]
@[simp] theorem engDone_ax (b e : Nat) (s : State) : (engDone b e s).ax = s.ax := by simp [engDone]
@[simp] theorem engDone_lay (b e : Nat) (s : State) : (engDone b e s).lay = s.lay := by simp [engDone]
@[simp] theorem engDone_hp (b e : Nat) (s : State) : (engDone b e s).hp = s.hp := by simp [engDone]
@[simp] theorem engDone_cp (b e : Nat) (s : State) : (engDone b e s).cp = s.cp := by simp [engDone]
@[simp] theorem engDone_ht (b e : Nat) (s : State) : (engDone b e s).ht = s.ht := by simp [engDone]
@[simp] theorem engDone_pfx (b e : Nat) (s : State) : (engDone b e s).pfx = s.pfx := by simp [engDone]
@[simp] theorem engDone_sp (b e : Nat) (s : State) : (engDone b e s).sp = s.sp := by simp [engDone]
@[simp] theorem engDone_la (b e : Nat) (s : State) : (engDone b e s).la = s.la := by simp [engDone]
@[simp] theorem engDone_spn (b e : Nat) (s : State) : (engDone b e s).spn = s.spn := by simp [engDone]
@[simp] theorem engDone_wh (b e : Nat) (s : State) : (engDone b e s).wh = s.wh := by simp [engDone]
@[simp] theorem engDone_bt (b e : Nat) (s : State) : (engDone b e s).bt = s.bt := by simp [engDone]
@[simp] theorem engDone_ad (b e : Nat) (s : State) : (engDone b e s).ad = s.ad := by simp [engDone]
@[simp] theorem engDone_sk (b e : Nat) (s : State) : (engDone b e s).sk = s.sk := by simp [engDone]
@[simp] theorem engDone_hf (b e : Nat) (s : State) : (engDone b e s).hf = s.hf := by simp [engDone]
@[simp] theorem engDone_plog (b e : Nat) (s : State) : (engDone b e s).plog = s.plog := by simp [engDone]
@[simp] theorem engDone_wkeys (b e : Nat) (s : State) : (engDone b e s).wkeys = s.wkeys := by simp [engDone]
@[simp] theorem engDone_hw (b e : Nat) (s : State) : (engDone b e s).hw = s.hw := by simp [engDone]
@[simp] theorem engDone_pm (b e : Nat) (s : State) : (engDone b e s).pm = s.pm := by simp [engDone]
@[simp] theorem engDone_ck (b e : Nat) (s : State) : (engDone b e s).ck = s.ck := by simp [engDone]
@[simp] theorem engDone_evacBy (b e : Nat) (s : State) : (engDone b e s).evacBy = s.evacBy := by simp [engDone]
@[simp] theorem engDone_ly (b e : Nat) (s : State) : (engDone b e s).ly = s.ly := by simp [engDone]
@[simp] theorem engDone_tap (b e : Nat) (s : State) : (engDone b e s).tap = s.tap := by simp [engDone]
@[simp] theorem dmaAdd_pending (ring : Nat) (d : BitVec 512) (slot : Option Nat) (s : State) : (dmaAdd ring d slot s).pending = s.pending := rfl
@[simp] theorem dmaAdd_span (ring : Nat) (d : BitVec 512) (slot : Option Nat) (s : State) : (dmaAdd ring d slot s).span = s.span := rfl
@[simp] theorem dmaAdd_uptime (ring : Nat) (d : BitVec 512) (slot : Option Nat) (s : State) : (dmaAdd ring d slot s).uptime = s.uptime := rfl
@[simp] theorem dmaAdd_fv (ring : Nat) (d : BitVec 512) (slot : Option Nat) (s : State) : (dmaAdd ring d slot s).fv = s.fv := rfl
@[simp] theorem dmaAdd_regs (ring : Nat) (d : BitVec 512) (slot : Option Nat) (s : State) : (dmaAdd ring d slot s).regs = s.regs := rfl
@[simp] theorem dmaAdd_ctr (ring : Nat) (d : BitVec 512) (slot : Option Nat) (s : State) : (dmaAdd ring d slot s).ctr = s.ctr := rfl
@[simp] theorem dmaAdd_mem (ring : Nat) (d : BitVec 512) (slot : Option Nat) (s : State) : (dmaAdd ring d slot s).mem = s.mem := rfl
@[simp] theorem dmaAdd_hmem (ring : Nat) (d : BitVec 512) (slot : Option Nat) (s : State) : (dmaAdd ring d slot s).hmem = s.hmem := rfl
@[simp] theorem dmaAdd_evts (ring : Nat) (d : BitVec 512) (slot : Option Nat) (s : State) : (dmaAdd ring d slot s).evts = s.evts := rfl
@[simp] theorem dmaAdd_evtSeq (ring : Nat) (d : BitVec 512) (slot : Option Nat) (s : State) : (dmaAdd ring d slot s).evtSeq = s.evtSeq := rfl
@[simp] theorem dmaAdd_evtRate (ring : Nat) (d : BitVec 512) (slot : Option Nat) (s : State) : (dmaAdd ring d slot s).evtRate = s.evtRate := rfl
@[simp] theorem dmaAdd_evtSupp (ring : Nat) (d : BitVec 512) (slot : Option Nat) (s : State) : (dmaAdd ring d slot s).evtSupp = s.evtSupp := rfl
@[simp] theorem dmaAdd_journal (ring : Nat) (d : BitVec 512) (slot : Option Nat) (s : State) : (dmaAdd ring d slot s).journal = s.journal := rfl
@[simp] theorem dmaAdd_tx (ring : Nat) (d : BitVec 512) (slot : Option Nat) (s : State) : (dmaAdd ring d slot s).tx = s.tx := rfl
@[simp] theorem dmaAdd_recs (ring : Nat) (d : BitVec 512) (slot : Option Nat) (s : State) : (dmaAdd ring d slot s).recs = s.recs := rfl
@[simp] theorem dmaAdd_ax (ring : Nat) (d : BitVec 512) (slot : Option Nat) (s : State) : (dmaAdd ring d slot s).ax = s.ax := rfl
@[simp] theorem dmaAdd_lay (ring : Nat) (d : BitVec 512) (slot : Option Nat) (s : State) : (dmaAdd ring d slot s).lay = s.lay := rfl
@[simp] theorem dmaAdd_cp (ring : Nat) (d : BitVec 512) (slot : Option Nat) (s : State) : (dmaAdd ring d slot s).cp = s.cp := rfl
@[simp] theorem dmaAdd_ht (ring : Nat) (d : BitVec 512) (slot : Option Nat) (s : State) : (dmaAdd ring d slot s).ht = s.ht := rfl
@[simp] theorem dmaAdd_pfx (ring : Nat) (d : BitVec 512) (slot : Option Nat) (s : State) : (dmaAdd ring d slot s).pfx = s.pfx := rfl
@[simp] theorem dmaAdd_sp (ring : Nat) (d : BitVec 512) (slot : Option Nat) (s : State) : (dmaAdd ring d slot s).sp = s.sp := rfl
@[simp] theorem dmaAdd_engs (ring : Nat) (d : BitVec 512) (slot : Option Nat) (s : State) : (dmaAdd ring d slot s).engs = s.engs := rfl
@[simp] theorem dmaAdd_la (ring : Nat) (d : BitVec 512) (slot : Option Nat) (s : State) : (dmaAdd ring d slot s).la = s.la := rfl
@[simp] theorem dmaAdd_spn (ring : Nat) (d : BitVec 512) (slot : Option Nat) (s : State) : (dmaAdd ring d slot s).spn = s.spn := rfl
@[simp] theorem dmaAdd_wh (ring : Nat) (d : BitVec 512) (slot : Option Nat) (s : State) : (dmaAdd ring d slot s).wh = s.wh := rfl
@[simp] theorem dmaAdd_bt (ring : Nat) (d : BitVec 512) (slot : Option Nat) (s : State) : (dmaAdd ring d slot s).bt = s.bt := rfl
@[simp] theorem dmaAdd_ad (ring : Nat) (d : BitVec 512) (slot : Option Nat) (s : State) : (dmaAdd ring d slot s).ad = s.ad := rfl
@[simp] theorem dmaAdd_sk (ring : Nat) (d : BitVec 512) (slot : Option Nat) (s : State) : (dmaAdd ring d slot s).sk = s.sk := rfl
@[simp] theorem dmaAdd_hf (ring : Nat) (d : BitVec 512) (slot : Option Nat) (s : State) : (dmaAdd ring d slot s).hf = s.hf := rfl
@[simp] theorem dmaAdd_plog (ring : Nat) (d : BitVec 512) (slot : Option Nat) (s : State) : (dmaAdd ring d slot s).plog = s.plog := rfl
@[simp] theorem dmaAdd_wkeys (ring : Nat) (d : BitVec 512) (slot : Option Nat) (s : State) : (dmaAdd ring d slot s).wkeys = s.wkeys := rfl
@[simp] theorem dmaAdd_hw (ring : Nat) (d : BitVec 512) (slot : Option Nat) (s : State) : (dmaAdd ring d slot s).hw = s.hw := rfl
@[simp] theorem dmaAdd_pm (ring : Nat) (d : BitVec 512) (slot : Option Nat) (s : State) : (dmaAdd ring d slot s).pm = s.pm := rfl
@[simp] theorem dmaAdd_ck (ring : Nat) (d : BitVec 512) (slot : Option Nat) (s : State) : (dmaAdd ring d slot s).ck = s.ck := rfl
@[simp] theorem dmaAdd_evacBy (ring : Nat) (d : BitVec 512) (slot : Option Nat) (s : State) : (dmaAdd ring d slot s).evacBy = s.evacBy := rfl
@[simp] theorem dmaAdd_ly (ring : Nat) (d : BitVec 512) (slot : Option Nat) (s : State) : (dmaAdd ring d slot s).ly = s.ly := rfl
@[simp] theorem dmaAdd_tap (ring : Nat) (d : BitVec 512) (slot : Option Nat) (s : State) : (dmaAdd ring d slot s).tap = s.tap := rfl
@[simp] theorem dmaDrop_pending (ring : Nat) (d : BitVec 512) (slot : Option Nat) (s : State) : (dmaDrop ring d slot s).pending = s.pending := rfl
@[simp] theorem dmaDrop_span (ring : Nat) (d : BitVec 512) (slot : Option Nat) (s : State) : (dmaDrop ring d slot s).span = s.span := rfl
@[simp] theorem dmaDrop_uptime (ring : Nat) (d : BitVec 512) (slot : Option Nat) (s : State) : (dmaDrop ring d slot s).uptime = s.uptime := rfl
@[simp] theorem dmaDrop_fv (ring : Nat) (d : BitVec 512) (slot : Option Nat) (s : State) : (dmaDrop ring d slot s).fv = s.fv := rfl
@[simp] theorem dmaDrop_regs (ring : Nat) (d : BitVec 512) (slot : Option Nat) (s : State) : (dmaDrop ring d slot s).regs = s.regs := rfl
@[simp] theorem dmaDrop_ctr (ring : Nat) (d : BitVec 512) (slot : Option Nat) (s : State) : (dmaDrop ring d slot s).ctr = s.ctr := rfl
@[simp] theorem dmaDrop_mem (ring : Nat) (d : BitVec 512) (slot : Option Nat) (s : State) : (dmaDrop ring d slot s).mem = s.mem := rfl
@[simp] theorem dmaDrop_hmem (ring : Nat) (d : BitVec 512) (slot : Option Nat) (s : State) : (dmaDrop ring d slot s).hmem = s.hmem := rfl
@[simp] theorem dmaDrop_evts (ring : Nat) (d : BitVec 512) (slot : Option Nat) (s : State) : (dmaDrop ring d slot s).evts = s.evts := rfl
@[simp] theorem dmaDrop_evtSeq (ring : Nat) (d : BitVec 512) (slot : Option Nat) (s : State) : (dmaDrop ring d slot s).evtSeq = s.evtSeq := rfl
@[simp] theorem dmaDrop_evtRate (ring : Nat) (d : BitVec 512) (slot : Option Nat) (s : State) : (dmaDrop ring d slot s).evtRate = s.evtRate := rfl
@[simp] theorem dmaDrop_evtSupp (ring : Nat) (d : BitVec 512) (slot : Option Nat) (s : State) : (dmaDrop ring d slot s).evtSupp = s.evtSupp := rfl
@[simp] theorem dmaDrop_journal (ring : Nat) (d : BitVec 512) (slot : Option Nat) (s : State) : (dmaDrop ring d slot s).journal = s.journal := rfl
@[simp] theorem dmaDrop_tx (ring : Nat) (d : BitVec 512) (slot : Option Nat) (s : State) : (dmaDrop ring d slot s).tx = s.tx := rfl
@[simp] theorem dmaDrop_recs (ring : Nat) (d : BitVec 512) (slot : Option Nat) (s : State) : (dmaDrop ring d slot s).recs = s.recs := rfl
@[simp] theorem dmaDrop_ax (ring : Nat) (d : BitVec 512) (slot : Option Nat) (s : State) : (dmaDrop ring d slot s).ax = s.ax := rfl
@[simp] theorem dmaDrop_lay (ring : Nat) (d : BitVec 512) (slot : Option Nat) (s : State) : (dmaDrop ring d slot s).lay = s.lay := rfl
@[simp] theorem dmaDrop_cp (ring : Nat) (d : BitVec 512) (slot : Option Nat) (s : State) : (dmaDrop ring d slot s).cp = s.cp := rfl
@[simp] theorem dmaDrop_ht (ring : Nat) (d : BitVec 512) (slot : Option Nat) (s : State) : (dmaDrop ring d slot s).ht = s.ht := rfl
@[simp] theorem dmaDrop_pfx (ring : Nat) (d : BitVec 512) (slot : Option Nat) (s : State) : (dmaDrop ring d slot s).pfx = s.pfx := rfl
@[simp] theorem dmaDrop_sp (ring : Nat) (d : BitVec 512) (slot : Option Nat) (s : State) : (dmaDrop ring d slot s).sp = s.sp := rfl
@[simp] theorem dmaDrop_engs (ring : Nat) (d : BitVec 512) (slot : Option Nat) (s : State) : (dmaDrop ring d slot s).engs = s.engs := rfl
@[simp] theorem dmaDrop_la (ring : Nat) (d : BitVec 512) (slot : Option Nat) (s : State) : (dmaDrop ring d slot s).la = s.la := rfl
@[simp] theorem dmaDrop_spn (ring : Nat) (d : BitVec 512) (slot : Option Nat) (s : State) : (dmaDrop ring d slot s).spn = s.spn := rfl
@[simp] theorem dmaDrop_wh (ring : Nat) (d : BitVec 512) (slot : Option Nat) (s : State) : (dmaDrop ring d slot s).wh = s.wh := rfl
@[simp] theorem dmaDrop_bt (ring : Nat) (d : BitVec 512) (slot : Option Nat) (s : State) : (dmaDrop ring d slot s).bt = s.bt := rfl
@[simp] theorem dmaDrop_ad (ring : Nat) (d : BitVec 512) (slot : Option Nat) (s : State) : (dmaDrop ring d slot s).ad = s.ad := rfl
@[simp] theorem dmaDrop_sk (ring : Nat) (d : BitVec 512) (slot : Option Nat) (s : State) : (dmaDrop ring d slot s).sk = s.sk := rfl
@[simp] theorem dmaDrop_hf (ring : Nat) (d : BitVec 512) (slot : Option Nat) (s : State) : (dmaDrop ring d slot s).hf = s.hf := rfl
@[simp] theorem dmaDrop_plog (ring : Nat) (d : BitVec 512) (slot : Option Nat) (s : State) : (dmaDrop ring d slot s).plog = s.plog := rfl
@[simp] theorem dmaDrop_wkeys (ring : Nat) (d : BitVec 512) (slot : Option Nat) (s : State) : (dmaDrop ring d slot s).wkeys = s.wkeys := rfl
@[simp] theorem dmaDrop_hw (ring : Nat) (d : BitVec 512) (slot : Option Nat) (s : State) : (dmaDrop ring d slot s).hw = s.hw := rfl
@[simp] theorem dmaDrop_pm (ring : Nat) (d : BitVec 512) (slot : Option Nat) (s : State) : (dmaDrop ring d slot s).pm = s.pm := rfl
@[simp] theorem dmaDrop_ck (ring : Nat) (d : BitVec 512) (slot : Option Nat) (s : State) : (dmaDrop ring d slot s).ck = s.ck := rfl
@[simp] theorem dmaDrop_evacBy (ring : Nat) (d : BitVec 512) (slot : Option Nat) (s : State) : (dmaDrop ring d slot s).evacBy = s.evacBy := rfl
@[simp] theorem dmaDrop_ly (ring : Nat) (d : BitVec 512) (slot : Option Nat) (s : State) : (dmaDrop ring d slot s).ly = s.ly := rfl
@[simp] theorem dmaDrop_tap (ring : Nat) (d : BitVec 512) (slot : Option Nat) (s : State) : (dmaDrop ring d slot s).tap = s.tap := rfl

end Sys2Proof.Machine
end

