-- ==== Sys2Proof/Laws/Records.lean ====
section
/-! SUPPORT. The laws of completion records: exactly one is written, and only the completion ring's buffer and shadow change. -/

namespace Sys2Proof.Machine

/-- Completing a command writes exactly one record (R61, R63). -/
theorem complete_oneRecord (r : BitVec 16) (d : BitVec 512) (st fl com bil hdl det : Nat) (s : State) :
    OneRecord s (complete r.toNat d st fl com bil hdl det s) r d st fl com bil hdl det := by
  unfold complete
  cases h : itemOf s r.toNat d with
  | none => exact ⟨0, by decide, by simp [flIf, writeRecord]⟩
  | some i =>
    refine ⟨flIf i.yellow flYellow ||| flIf i.preempted flPreempted, ?_, ?_⟩
    · cases i.yellow <;> cases i.preempted <;> decide
    · simp [writeRecord, Nat.or_assoc, flIf]

theorem oneRecord_of_recs {s s' t : State} {r : BitVec 16} {d : BitVec 512} {st fl com bil hdl det : Nat}
    (h : OneRecord s' t r d st fl com bil hdl det) (e : s'.recs = s.recs) : OneRecord s t r d st fl com bil hdl det := by
  obtain ⟨y, hy, ht⟩ := h
  exact ⟨y, hy, by rw [ht, e]⟩

theorem atUnit_sent {op : Nat} {r : BitVec 16} {d : BitVec 512} {p : Nat} {s : State} (h : AtUnit op r d p s)
    (f : State → State) : atUnit r.toNat d f s = f s := by simp [atUnit, h.sent]

/-- A command that has reached Hitch is applied to the state that `AtHitch` names. -/
theorem hitchArrive_at {op : Nat} {r : BitVec 16} {d : BitVec 512} {p : Nat} {s u : State} (h : AtHitch op r d p s u)
    (ok : Bool) (f : State → State) : hitchArrive op r.toNat d ok f { s with ly.hbmAt := now s } = f u := by
  have hp : ringPart { s with ly.hbmAt := now s } r.toNat = some p := h.unit.part
  have hr : bit (rg u .HT_CTL) 0 = false := by rw [h.seen]; exact h.runs
  simp only [hitchArrive, hitchEntry, hp, h.unit.code, ne_eq, not_true, if_false, ← h.seen, hr]
  simp

/-- The same for the commands that HT_CTL.DRAIN does not refuse (R105). -/
theorem hitchArrive_drain {op : Nat} {r : BitVec 16} {d : BitVec 512} {p : Nat} {s u : State} (h : AtUnit op r d p s)
    (e : u = ctrAdd .HT_CMD_CNT op p 1 { s with ly.hbmAt := now s }) (f : State → State) :
    hitchArrive op r.toNat d true f { s with ly.hbmAt := now s } = f u := by
  have hp : ringPart { s with ly.hbmAt := now s } r.toNat = some p := h.part
  simp only [hitchArrive, hitchEntry, hp, h.code, ne_eq, not_true, if_false, ← e]
  simp

/-! ### Memory -/

theorem keepsOutside_refl (l : List (Nat × Nat)) (s : State) : KeepsOutside l s s := fun _ _ _ => rfl

theorem keepsOutside_trans {l : List (Nat × Nat)} {s t u : State} (h : KeepsOutside l s t) (g : KeepsOutside l t u) :
    KeepsOutside l s u := fun a ha hl => (g a ha hl).trans (h a ha hl)

theorem keepsOutside_mono {l m : List (Nat × Nat)} {s t : State} (h : KeepsOutside l s t) (i : ∀ x ∈ l, x ∈ m) :
    KeepsOutside m s t := fun a ha hl => h a ha fun x hx => hl x (i x hx)

theorem keepsOutside_same {l : List (Nat × Nat)} {s t : State} (h : t.mem = s.mem) (g : t.hmem = s.hmem) :
    KeepsOutside l s t := fun a _ _ => by simp [byteAt, h, g]

theorem isHost_iff {a : Nat} (h : a < 2 ^ 64) : isHost a = true ↔ 2 ^ 63 ≤ a := by
  simp [isHost, bit, Nat.testBit_eq_decide_div_mod_eq]
  omega

/-- A write leaves every byte outside its range as it was. -/
theorem wrBytes_keeps (a : Nat) (bs : List Byte) (s : State) (h : a < 2 ^ 64 + 2 ^ 62) :
    KeepsOutside [(a, bs.length)] s (wrBytes a bs s) := by
  intro x hx hl
  have ho := hl (a, bs.length) (by simp)
  simp only at ho
  simp only [byteAt, wrBytes]
  by_cases hx' : isHost x = true
  · have h1 := (isHost_iff hx).1 hx'
    by_cases ha : isHost a = true
    · have h2 : 2 ^ 63 ≤ a ∧ a < 2 ^ 64 := by
        simp [isHost, bit, Nat.testBit_eq_decide_div_mod_eq] at ha
        omega
      simp only [hx', ha, if_true]
      refine memGet_memWrite_out _ _ _ _ ?_
      simp only [hostAddr]
      omega
    · simp [hx', ha]
  · have h1 : x < 2 ^ 63 := by
      refine Nat.lt_of_not_le fun hc => hx' ?_
      exact (isHost_iff hx).2 hc
    by_cases ha : isHost a = true
    · simp [hx', ha]
    · simp only [hx', ha, if_false, Bool.false_eq_true]
      exact memGet_memWrite_out _ _ _ _ ho

theorem ringWrite_keeps (r a : Nat) (bs : List Byte) (s : State) (h : a < 2 ^ 64 + 2 ^ 62) :
    KeepsOutside [(a, bs.length)] s (ringWrite r a bs s) := by
  unfold ringWrite
  split
  · split
    · exact wrBytes_keeps a bs s h
    · exact keepsOutside_refl _ _
  · split
    · exact wrBytes_keeps a bs s h
    · exact keepsOutside_refl _ _

/-- What a ring block writes for one ring: its buffer and its shadow. -/
def ringSpans (s : State) (r : Nat) : List (Nat × Nat) :=
  [(ringBase s r, ringSize s r * ringEntry s r), (rg64 s .DB_SHADOW_LO .DB_SHADOW_HI r, 4)]

theorem rg_lt (s : State) (id : RegId) (i : Nat) (h : id ≠ .DB_OWNER) (hr : rwReset s ⟨id, i, 0, 0⟩ < 2 ^ 32) :
    rg s id i < 2 ^ 32 := by
  simp only [rg, regRw, h, if_false]
  split
  · exact BitVec.isLt _
  · exact hr

theorem ringBase_lt (s : State) (r : Nat) : ringBase s r < 2 ^ 64 := by
  have h1 := rg_lt s .DB_BASE_LO r (by decide) (show 0 < 2 ^ 32 by decide)
  have h2 := rg_lt s .DB_BASE_HI r (by decide) (show 0 < 2 ^ 32 by decide)
  simp only [ringBase, rg64]
  omega

theorem ringShadow_lt (s : State) (r : Nat) : rg64 s .DB_SHADOW_LO .DB_SHADOW_HI r < 2 ^ 64 := by
  have h1 := rg_lt s .DB_SHADOW_LO r (by decide) (show 0 < 2 ^ 32 by decide)
  have h2 := rg_lt s .DB_SHADOW_HI r (by decide) (show 0 < 2 ^ 32 by decide)
  simp only [rg64]
  omega

theorem ringSize_le (s : State) (r : Nat) : ringSize s r ≤ 2 ^ 16 := by
  refine Nat.pow_le_pow_right (by decide) ?_
  simp only [ringLog2]
  omega

theorem ringEntry_bounds (s : State) (r : Nat) : 32 ≤ ringEntry s r ∧ ringEntry s r ≤ 64 := by
  unfold ringEntry
  split <;> omega

/-- A slot lies in its ring's buffer. -/
theorem ringSlot_in (s : State) (r : Nat) (i : W32) :
    ringBase s r ≤ ringSlot s r i ∧ ringSlot s r i + ringEntry s r ≤ ringBase s r + ringSize s r * ringEntry s r := by
  have hpos : 0 < ringSize s r := Nat.two_pow_pos _
  have hm : i.toNat % ringSize s r + 1 ≤ ringSize s r := Nat.mod_lt _ hpos
  have := Nat.mul_le_mul_right (ringEntry s r) hm
  simp only [ringSlot]
  rw [Nat.add_mul] at this
  omega

theorem leBytes_length (n v : Nat) : (leBytes n v).length = n := by
  induction n generalizing v with
  | zero => rfl
  | succ k ih => simp [leBytes, ih]

theorem recBytes_length (st fl com bil ts hdl tag det : Nat) : (recBytes st fl com bil ts hdl tag det).length = 32 := by
  simp [recBytes, leBytes_length]

/-- Ranges inside listed ranges. -/
theorem keepsOutside_in {l m : List (Nat × Nat)} {s t : State} (h : KeepsOutside l s t)
    (i : ∀ x ∈ l, ∃ y ∈ m, y.1 ≤ x.1 ∧ x.1 + x.2 ≤ y.1 + y.2) : KeepsOutside m s t := by
  intro a ha hl
  refine h a ha fun x hx => ?_
  obtain ⟨y, hy, h1, h2⟩ := i x hx
  have := hl y hy
  omega

theorem putEntry_keeps (r : Nat) (nt : Bool) (bs : List Byte) (s : State) (h : bs.length ≤ ringEntry s r) :
    KeepsOutside (ringSpans s r) s (putEntry r nt bs s) := by
  have hs := ringSlot_in s r (ringOf s r).p
  have hb := ringBase_lt s r
  have hz := ringSize_le s r
  have he := (ringEntry_bounds s r).2
  have hmul := Nat.mul_le_mul hz he
  have h1 := ringWrite_keeps r (ringSlot s r (ringOf s r).p) bs s (by omega)
  have h1' : KeepsOutside (ringSpans s r) s (ringWrite r (ringSlot s r (ringOf s r).p) bs s) :=
    keepsOutside_in h1 fun x hx => ⟨_, List.mem_cons_self, by simp at hx; subst hx; simp; omega⟩
  refine keepsOutside_trans h1' ?_
  have acc : ∀ u : State, KeepsOutside (ringSpans s r) u (accrueIrq r nt u) := fun u =>
    keepsOutside_same (by simp) (by simp)
  refine keepsOutside_trans ?_ (acc _)
  unfold writeShadow
  dsimp only
  split
  · exact keepsOutside_same (by simp) (by simp)
  · refine keepsOutside_trans (t := setRing r { ringOf s r with p := (ringOf s r).p + 1 }
      (ringWrite r (ringSlot s r (ringOf s r).p) bs s)) (keepsOutside_same rfl rfl) ?_
    have e : ∀ u : State, u.regs = s.regs → rg64 u .DB_SHADOW_LO .DB_SHADOW_HI r = rg64 s .DB_SHADOW_LO .DB_SHADOW_HI r := by
      intro u hu
      simp [rg64, rg, regRw, hu, rwReset]
    rw [e _ (by simp)]
    refine keepsOutside_in (ringWrite_keeps r _ _ _ (Nat.lt_of_lt_of_le (ringShadow_lt s r) (by decide))) ?_
    intro x hx
    refine ⟨_, List.mem_cons_of_mem _ List.mem_cons_self, ?_⟩
    simp at hx
    subst hx
    simp [leBytes_length]

theorem pushEntry_keeps (r : Nat) (nt : Bool) (bs : List Byte) (s : State) (h : bs.length ≤ ringEntry s r)
    (hh : (ringOf s r).held = []) : KeepsOutside (ringSpans s r) s (pushEntry r nt bs s) := by
  unfold pushEntry
  dsimp only
  split
  · exact keepsOutside_same (by simp) (by simp)
  · rw [hh]
    simp only [List.nil_append, List.length_nil, Nat.zero_add]
    have hsp : ∀ x, ringSpans (setRing r x s) r = ringSpans s r := fun _ => rfl
    simp only [flushHeld, ringOf, setRing, ngetD_nset_self]
    split
    · exact keepsOutside_same rfl rfl
    · exact keepsOutside_trans (keepsOutside_same rfl rfl) (putEntry_keeps r nt bs (setRing r _ (setRing r _ s)) h)

/-- Completing a command stores its record in the completion ring's buffer, that ring's shadow, and nowhere else (R401). -/
theorem complete_keeps (r : Nat) (d : BitVec 512) (st fl com bil hdl det : Nat) (s : State)
    (hh : (ringOf s (cqOf s r)).held = []) : KeepsOutside (recordSpans s r) s (complete r d st fl com bil hdl det s) := by
  have drain : ∀ (x : Nat) (u : State), (ringDrainDone x u).mem = u.mem ∧ (ringDrainDone x u).hmem = u.hmem := fun x u => by simp
  have key : ∀ (f : Nat) (u : State), u.regs = s.regs → u.lay = s.lay → u.mem = s.mem → u.hmem = s.hmem →
      (ringOf u (cqOf s r)).held = [] →
      KeepsOutside (recordSpans s r) s (ringDrainDone (cqOf s r) (ringDrainDone r (writeRecord r (dTag d) (dNotify d) st f com bil hdl det u))) := by
    intro f u h1 h2 h3 h4 h5
    have hcq : cqOf u r = cqOf s r := by simp [cqOf, rg, regRw, h1, rwReset]
    have hsp : ringSpans u (cqOf s r) = recordSpans s r := by
      simp [ringSpans, recordSpans, ringBase, ringSize, ringLog2, ringEntry, ringKind, rg64, rg, regRw, h1, rwReset]
    have h6 := pushEntry_keeps (cqOf s r) (dNotify d) (recBytes st f com bil (now u) hdl (dTag d) det) u
      (by rw [recBytes_length]; exact (ringEntry_bounds _ _).1) h5
    rw [hsp] at h6
    refine keepsOutside_trans (keepsOutside_same h3 h4) (keepsOutside_trans h6 (keepsOutside_same ?_ ?_))
    · simp [writeRecord, hcq]
    · simp [writeRecord, hcq]
  unfold complete
  dsimp only
  split
  · refine key _ _ (by simp) (by simp) (by simp) (by simp) ?_
    simp [ringOf, setRing, ngetD_nset_self, dropItem]
    exact hh
  · exact key _ s rfl rfl rfl rfl hh

end Sys2Proof.Machine
end

