-- ==== Sys2Proof/Laws/Regs.lean ====
section
/-! SUPPORT. The laws of register writes: what a guard lets through, and what a stored register reads as. -/

namespace Sys2Proof.Machine

theorem regGuard_allowed {q : Req} {id : RegId} {i : Nat} {s : State} (f : State → State) (h : Allowed q id i s) :
    regGuard q ⟨id, i, 0, 0⟩ f s = f s := by
  simp [regGuard, h.1, h.2]

/-- A register without a reading rule of its own reads the RW bits written to it. -/
theorem rg_rp_self (id : RegId) (i v : Nat) (s : State) (h : id ≠ .DB_OWNER) :
    rg (rp id i 0 0 v s) id i = (BitVec.ofNat 32 v &&& BitVec.ofNat 32 (rwMask ⟨id, i, 0, 0⟩)).toNat := by
  simp [rg, regRw, rp, regPut, h, nget_nset_self]

theorem ringOf_setRing_self (r : Nat) (x : Ring) (s : State) : ringOf (setRing r x s) r = x := by
  simp [ringOf, setRing, ngetD_nset_self]

theorem ringOf_setRing_ne (r r' : Nat) (x : Ring) (s : State) (h : r' ≠ r) : ringOf (setRing r x s) r' = ringOf s r' := by
  simp [ringOf, setRing, ngetD_nset_ne _ _ _ _ _ h]

theorem engOf_putEng_self (b e : Nat) (x : Eng) (s : State) : engOf (putEng b e x s) b e = x := by
  simp [engOf, putEng, ngetD_nset_self]

end Sys2Proof.Machine
end

