-- ==== Sys2Proof/WellFormed.lean ====
section
/-! DEFINITION. Well-formed commands: the checks on a command's operands that hold whatever state the block is in. The spec gives
commands no bits, so an ill-formed command is one no sender spells (log 1): a descriptor that another row takes, an engine the
block has not, a size the carrying protocol does not have. What the block itself refuses is no matter of form: it is in the
meanings. -/

namespace Sys2Proof

/-- Why a command is ill-formed. -/
inductive IllFormed where
  | opcode      -- a descriptor whose OP byte is another command's (R405)
  | form        -- an option of the descriptor makes it another row's form (R84, R305, R323)
  | engine      -- an engine number beyond the unit's engines and spares (R52)
  | function    -- a function beyond the host port's (R393)
  | target      -- a target number the access tables do not have (R33)
  | block       -- a block number beyond the register blocks (R31)
  | length      -- an access whose length is not its data's, or of none
  | payload     -- a packet of a size its protocol does not carry (R415, R439)
  | alignment   -- a packet's offset below the alignment of its type (R439)
  | width       -- a link width the port does not have (R393, R419)
  | flash       -- a range beyond the flash chip (R555)
  | repeated    -- the same member twice
  | request     -- a request shorter or longer than its layout (R472, R481)
deriving DecidableEq, Repr

/-- A check: the reason where it fails. -/
def need (ok : Bool) (why : IllFormed) : Option IllFormed := if ok then none else some why

/-- OP of a descriptor: byte 16 (R405). -/
def opOf (d : BitVec 512) : Nat := (d.toNat / 2 ^ 128) % 256

/-- Bit `i` of byte 17, the options (R84, R323). -/
def optBit (d : BitVec 512) (i : Nat) : Bool := d.getLsbD (136 + i)

/-- PF0, PF1 and its virtual functions (R393). -/
def functions : Nat := 65

/-- Engines of a kind, spares included (R52). -/
def EngKind.count : EngKind → Nat
  | .lathe => 272 | .adze => 36 | .whittle => 16 | .cleat => 16 | .bight => 16 | .skein => 16 | .splice => 34

/-- A read of at least one byte, or a write of as many bytes as its length says. -/
def accessOk (len : Nat) (wr : Option (List Byte)) : Bool :=
  match wr with
  | none => decide (0 < len)
  | some l => decide (0 < len) && l.length == len

/-- Sizes of READ and STORE (R439). -/
def rwSize (off n : Nat) : Bool := 4 ≤ n && n ≤ 4096 && n % 4 == 0 && off % 4 == 0 && off % 4096 + n ≤ 4096

def hostWidth (w : Nat) : Bool := w == 4 || w == 8 || w == 16
def farWidth (w : Nat) : Bool := w == 1 || w == 2 || w == 4 || w == 8 || w == 16

/-- No number stands in a list twice. -/
def distinct : List Nat → Bool
  | [] => true
  | a :: r => !r.contains a && distinct r

/-- What a detector names exists. -/
def Struck.check : Struck → Option IllFormed
  | .engine b e => need (e.toNat < b.count) .engine
  | .correctable _ _ | .line _ | .block _ _ | .descriptor _ | .page _ | .image _ _ | .structure _ | .channel _ | .hitch
  | .capstan | .heartwood | .lanyard => none

/-- Why a command is ill-formed, by the first check that fails. -/
def Instr.illFormed : Instr → Option IllFormed
  | .dbSwIdxWrite q _ _ => need (q.fn.toNat < functions) .function
  | .accountCredit q _ => need (q.fn.toNat < functions) .function
  | .refillPeriodWrite q _ _ => need (q.fn.toNat < functions) .function
  | .meterConfigWrite q _ _ => need (q.fn.toNat < functions) .function
  | .meterPlacementWrite q _ _ => need (q.fn.toNat < functions) .function
  | .ringClassBind q _ _ => need (q.fn.toNat < functions) .function
  | .gclCommit q _ _ => need (q.fn.toNat < functions) .function
  | .ringEnable q _ _ => need (q.fn.toNat < functions) .function
  | .ringDrain q _ => need (q.fn.toNat < functions) .function
  | .ringAbort q _ => need (q.fn.toNat < functions) .function
  | .flr f => need (f.toNat < functions) .function
  | .hostPortAccess f _ _ len wr => (need (f.toNat < functions) .function).or (need (accessOk len wr) .length)
  | .rdmaWrite _ _ _ _ data _ => need (data.length ≤ 4096) .payload
  | .rdmaWriteImm _ _ _ _ data _ _ => need (data.length ≤ 4096) .payload
  | .qpLoad q _ => need (q.fn.toNat < functions) .function
  | .qpReset q _ => need (q.fn.toNat < functions) .function
  | .fpSubportTrain _ _ _ _ _ _ width => need (farWidth width.toNat) .width
  | .fpRpCfgRead q _ _ => need (q.fn.toNat < functions) .function
  | .fpRpCfgWrite q _ => need (q.fn.toNat < functions) .function
  | .downstreamRequest _ len wr => need (accessOk len wr) .length
  | .create _ d => need (opOf d = 0x01) .opcode
  | .forkFromNode _ d => (need (opOf d = 0x02) .opcode).or (need (!optBit d 0) .form)
  | .forkFromSession _ d => (need (opOf d = 0x02) .opcode).or (need (optBit d 0) .form)
  | .park _ d => need (opOf d = 0x03) .opcode
  | .revive _ d => need (opOf d = 0x04) .opcode
  | .migrate _ d => (need (opOf d = 0x05) .opcode).or (need (!optBit d 0) .form)
  | .migrateForceAdopt _ d => (need (opOf d = 0x05) .opcode).or (need (optBit d 0) .form)
  | .free _ d => need (opOf d = 0x06) .opcode
  | .query _ d => need (opOf d = 0x07) .opcode
  | .hitchFailover q => need (q.fn.toNat < functions) .function
  | .hitchReinstate q _ => need (q.fn.toNat < functions) .function
  | .copy _ d => need (opOf d = 0x10) .opcode
  | .zero _ d => need (opOf d = 0x11) .opcode
  | .swapPost _ d => need (opOf d = 0x12) .opcode
  | .t2Evict q _ => need (q.fn.toNat < functions) .function
  | .t2Admit q _ => need (q.fn.toNat < functions) .function
  | .persistAck q _ _ => need (q.fn.toNat < functions) .function
  | .lookup _ d => need (opOf d = 0x20) .opcode
  | .publish _ d => need (opOf d = 0x21) .opcode
  | .drop _ d => need (opOf d = 0x22) .opcode
  | .pfxRekey q _ => need (q.fn.toNat < functions) .function
  | .attend _ d => need (opOf d = 0x30) .opcode
  | .attendOutputAck _ d => need (opOf d = 0x30 ∨ opOf d = 0x31) .opcode
  | .fill _ d => need (opOf d = 0x31) .opcode
  | .latheResume _ d => need (opOf d = 0x30 ∨ opOf d = 0x31) .opcode
  | .spnArm q _ => need (q.fn.toNat < functions) .function
  | .spnDisarm q _ => need (q.fn.toNat < functions) .function
  | .spnAbort q _ => need (q.fn.toNat < functions) .function
  | .spnWork _ _ _ _ _ d _ _ _ _ _ => need (opOf d = 0x30) .opcode
  | .tokenize _ d => need (opOf d = 0x40) .opcode
  | .detokenize _ d => need (opOf d = 0x41) .opcode
  | .vocabLoad _ d => need (opOf d = 0x42) .opcode
  | .vocabUnload _ d => need (opOf d = 0x43) .opcode
  | .genOpen _ d => need (opOf d = 0x50) .opcode
  | .sample _ d => need (opOf d = 0x51) .opcode
  | .cancel _ d => need (opOf d = 0x52) .opcode
  | .btCancelWrite q _ _ _ => need (q.fn.toNat < functions) .function
  | .gramLoad _ d => need (opOf d = 0x53) .opcode
  | .gramUnload _ d => need (opOf d = 0x54) .opcode
  | .load _ d => need (opOf d = 0x60) .opcode
  | .unload _ d => need (opOf d = 0x61) .opcode
  | .run _ d => (need (opOf d = 0x62) .opcode).or (need (!d.getLsbD 144) .form)
  | .draftRun _ d => (need (opOf d = 0x62) .opcode).or (need (d.getLsbD 144) .form)
  | .draftTileLate _ d => (need (opOf d = 0x62) .opcode).or (need (d.getLsbD 144) .form)
  | .adzePreempt _ d _ => need (opOf d = 0x62) .opcode
  | .adzeResume _ d => need (opOf d = 0x62) .opcode
  | .search _ d => (need (opOf d = 0x72) .opcode).or (need (!optBit d 6 && !optBit d 7) .form)
  | .searchExhaustive _ d => (need (opOf d = 0x72) .opcode).or (need (!optBit d 6 && optBit d 7) .form)
  | .searchSharded _ d => (need (opOf d = 0x72) .opcode).or (need (optBit d 6) .form)
  | .indexOpen _ d => need (opOf d = 0x70) .opcode
  | .indexClose _ d => need (opOf d = 0x71) .opcode
  | .engineEnable q b e _ => (need (q.fn.toNat < functions) .function).or (need (e.toNat < b.count) .engine)
  | .engineDrain q b e => (need (q.fn.toNat < functions) .function).or (need (e.toNat < b.count) .engine)
  | .engineAbort q b e => (need (q.fn.toNat < functions) .function).or (need (e.toNat < b.count) .engine)
  | .unitDrainWrite q _ _ => need (q.fn.toNat < functions) .function
  | .detectedFault x _ => x.check
  | .engineFence b e => need (e.toNat < b.count) .engine
  | .pmInstReset q block _ => (need (q.fn.toNat < functions) .function).or (need (block.toNat < 21) .block)
  | .hmSpare q _ => need (q.fn.toNat < functions) .function
  | .axCommit q t => (need (q.fn.toNat < functions) .function).or (need (t.toNat < 389) .target)
  | .axRestage q t => (need (q.fn.toNat < functions) .function).or (need (t.toNat < 389) .target)
  | .layApply q _ _ => need (q.fn.toNat < functions) .function
  | .partTeardown q _ => need (q.fn.toNat < functions) .function
  | .partDrain q _ _ => need (q.fn.toNat < functions) .function
  | .injArm q _ => need (q.fn.toNat < functions) .function
  | .injDisarm q _ => need (q.fn.toNat < functions) .function
  | .snapCapture q _ => need (q.fn.toNat < functions) .function
  | .pmSnapAll q => need (q.fn.toNat < functions) .function
  | .hwActivate q _ => need (q.fn.toNat < functions) .function
  | .hwCmdEnrol q _ => need (q.fn.toNat < functions) .function
  | .hwCmdFreshEnrol q => need (q.fn.toNat < functions) .function
  | .hwCmdRemove q _ => need (q.fn.toNat < functions) .function
  | .injAuthorise q _ => need (q.fn.toNat < functions) .function
  | .injRevoke q _ => need (q.fn.toNat < functions) .function
  | .keyRelease _ _ r _ => need (r.length = 104) .request
  | .keyRevoke _ _ r => need (r.length = 64) .request
  | .getPartLog _ _ r => need (r.length = 64) .request
  | .filterCfgWrite q _ _ => need (q.fn.toNat < functions) .function
  | .pinCfgWrite q _ _ => need (q.fn.toNat < functions) .function
  | .lyFwActivate q => need (q.fn.toNat < functions) .function
  | .pldmOemFlashWrite _ _ erase _ off len data _ => need (off.toNat + (if erase then len else data.length) ≤ 0x1000000) .flash
  | .pldmOemSignedCmd _ _ _ c _ => need (c.length = 280) .request
  | .sysResetWrite q => need (q.fn.toNat < functions) .function
  | .coreResetWrite q => need (q.fn.toNat < functions) .function
  | .bootGood q => need (q.fn.toNat < functions) .function
  | .recoveryDone q => need (q.fn.toNat < functions) .function
  | .spineActivate q _ _ => need (q.fn.toNat < functions) .function
  | .serdesActivate q _ => need (q.fn.toNat < functions) .function
  | .ethRetrain q => need (q.fn.toNat < functions) .function
  | .flashErase q => need (q.fn.toNat < functions) .function
  | .flashProgram q _ => need (q.fn.toNat < functions) .function
  | .flashRead q => need (q.fn.toNat < functions) .function
  | .domainRequest q _ _ => need (q.fn.toNat < functions) .function
  | .linkEnable q _ _ => need (q.fn.toNat < functions) .function
  | .linkDrain q _ => need (q.fn.toNat < functions) .function
  | .linkAbort q _ => need (q.fn.toNat < functions) .function
  | .linkRetrain q _ => need (q.fn.toNat < functions) .function
  | .harahRead _ h len => need (rwSize h.off.toNat len) .payload
  | .harahStore _ h data => need (rwSize h.off.toNat data.length) .payload
  | .harahAtomic _ h _ _ _ => need (h.off.toNat % 8 = 0) .alignment
  | .harahRingData _ h data _ =>
    (need (64 ≤ data.length ∧ data.length ≤ 4096) .payload).or (need (h.off.toNat % 64 = 0) .alignment)
  | .routeUpdate es => need (distinct (es.map (·.1.toNat))) .repeated
  | .rediscover q => need (q.fn.toNat < functions) .function
  | .yieldMarshal q => need (q.fn.toNat < functions) .function
  | .restep q => need (q.fn.toNat < functions) .function
  | .hfRaRead q _ _ => need (q.fn.toNat < functions) .function
  | .hfRaStore q _ _ => need (q.fn.toNat < functions) .function
  | .hfRaAtomic q _ _ => need (q.fn.toNat < functions) .function
  | .hfRaFence q _ => need (q.fn.toNat < functions) .function
  | .ckStart q _ _ => need (q.fn.toNat < functions) .function
  | .ckEvacuate q _ _ => need (q.fn.toNat < functions) .function
  | .ckRestore q _ _ _ => need (q.fn.toNat < functions) .function
  | .ckAbort q _ => need (q.fn.toNat < functions) .function
  | .ckRestoreReadDone _ _ rd => need (distinct (rd.map (·.1.val))) .repeated
  | .registerWrite q _ data => (need (q.fn.toNat < functions) .function).or (need (data ≠ [] ∧ data.length ≤ 64) .length)
  | .registerRead q _ len => (need (q.fn.toNat < functions) .function).or (need (0 < len ∧ len ≤ 64) .length)
  | .pcieConfigRequest f _ _ _ => need (f.toNat < functions) .function
  | .hostLinkUp _ width => need (hostWidth width.toNat) .width
  | .descriptorFetch _ | .serverDispatch _ _ | .shaperRelease _ | .gateOpening _ | .gclListSwitch _ | .deferralTimer _
  | .yellowTimeout _ | .budgetRefill _ | .preemptWaitExpiry _ _ | .msixCoalesceTimer _ | .hostLinkDown | .perstNAssert
  | .hostDmaCompletionError _ _ | .hostDmaTimeout _ | .rdmaRead _ _ _ _ _ _ | .roceUnsupportedOp _ _ _ | .arpRequest _ _ _
  | .memActiveTimeout _ | .farPortLinkLoss _ | .farPortPresenceChange _ _ | .hitchHeartbeatMiss | .hitchJournalAck
  | .htReserve _ _ _ _ _ _ _ | .htArrived _ _ _ | .htRelease _ _ _ _ | .htAsk _ _ _ | .migRetryTimer _ | .moveCommit _
  | .stepEnd _ | .deadlineExpiry _ | .demotionDue _ _ | .spliceTileAck _ _ | .t2WriteTimeout _ _ | .tornScrub _ _
  | .t2EvictDone _ | .surpriseWalkEnd _ | .persistTimeout _ | .spillAreaLow _ | .fillCommit _ | .lathePreempt _ _
  | .spnDigest _ _ _ _ | .spnFormTimeout _ | .spnNeighbourSilent _ _ | .spnStallTimeout _ | .spnGateBoundary _
  | .spnState _ _ _ _ _ _ _ _ | .spnCtlCommit _ _ _ _ _ _ | .spnCtlCancel _ _ _ _ | .spnCtlDown _ _ _ | .vocabLoadDone _
  | .streamChunkAck _ | .commitPoint _ | .shardAnswer _ _ _ _ _ | .shardTimeout _ _ | .shardHoldExpiry _ _
  | .registerParityFault _ _ | .instSelftestDone _ | .spareCopyDone _ _ _ | .patrolScrubPeriod _ | .responseTimeout _
  | .injExpiry | .snapAllCapture | .heartwoodWatchdog | .getVersion _ | .getCapabilities _ | .negotiateAlgorithms _ _
  | .getDigests _ | .getCertificate _ _ _ _ _ | .challenge _ _ _ | .getMeasurements _ _ _ _ | .keyExchange _
  | .finish _ _ _ _ | .heartbeat _ _ | .keyUpdate _ _ | .endSession _ _ | .chunkSend _ _ _ | .chunkGet _ _
  | .filterSample _ _ | .telemetryCapture _ | .wakeAtExpiry _ | .doorbellSample | .groupIdleExpiry _
  | .groupDrainsComplete _ | .watchModeEntry | .domainReady _ | .gpioInputChange _ _ | .inputStuck _ | .rateWindowEnd
  | .lyFwReverted | .lanyardWatchdog _ | .logSuppressed | .pldmDiscovery _ _ | .pldmSensorRead _ _ _
  | .pldmEventLogRead _ _ _ | .pldmFruRead _ _ | .pldmFwStage _ _ _ | .pldmOemReset _ _ | .mgmtPowerOff _ _
  | .mgmtPowerOn _ | .stbyPowerLoss | .stbyPwrOkRise _ | .mainPwrOkRise | .mainPwrOkFall | .mainPwrTimeout
  | .sysRstNPulse _ _ | .spineWatchdog | .thermtrip | .thermtripCooled | .throttleSample _ _ | .powerLimitSample _ _
  | .bypass _ | .samplePreload _ _ | .idcode _ | .extest _ _ | .clamp _ | .highz _ | .extestPulse _ _ | .extestTrain _ _
  | .linkPacketRx _ _ _ _ _ _ _ _ | .replayTimeout _ | .nakResendTimer _ | .ackTimer _ | .controlRepeatTimer _
  | .trainingDone _ _ _ _ _ _ | .trainingTimeout _ | .linkDownTimeout _ | .downRetryTimer _ | .laneFailure _ _ _
  | .widthReq _ _ _ _ _ | .widthChangeDone _ | .retrainReq _ _ _ _ | .adaptiveEscapeTimeout _ | .harahUnitMsg _ _ _
  | .harahResponse _ _ | .e2eTimeout _ | .routeHoldRelease _ | .discoveryMessage _ _ | .idAssign _ | .marshalSilence
  | .timeSync _ _ _ | .ptpMessage _ _ | .ppsInEdge | .ppsOutSecond | .ckShardDurable _ _ _ | .ckShardFail _ _
  | .ckReadbackDone _ _ _ _ | .ckManifestDurable _ | .ethernetLinkChange _ _ | .pfcPauseFrame _ _ _ | .cxlEventRecord _ _
  | .sysRstNRelease | .slotVerifyDone _ | .hitchResyncDone | .heartwoodRestartDone | .wakeStagger _ => none

/-- A command whose operands pass every check. -/
def Instr.wellFormed (i : Instr) : Bool := i.illFormed.isNone

end Sys2Proof
end

