-- ==== Sys2Proof/Tests/Slice0.lean ====
section
/-! SUPPORT. The package's own tests. First one ill-formed command for every check of WellFormed, which it refuses; then the ciphers
and hashes at their standards' published vectors, and a few commands at one step. Then, for every obligation that has hypotheses,
`wit_<its name>`: for each of its clauses, in order, concrete states and operands that meet all of the clause's hypotheses
together, so that none is empty. -/

open Sys2Proof Sys2Proof.Machine

namespace Sys2Proof.Tests

set_option Elab.async false
set_option maxRecDepth 100000
set_option exponentiation.threshold 4096

/-- Running, unlaid, out of reset: PF0 may write every register. -/
def bare : State :=
  { State.reset with ax.inReset := [], pm.stbyOk := true, pm.mainOk := true, pm.mainEn := true, pm.step := 11, hw.ready := true,
                     hp.up := true }

/-- A 64-byte descriptor or record with the numbers given at their byte offsets. -/
def desc (l : List (Nat × Nat)) : BitVec 512 := BitVec.ofNat 512 (l.foldl (fun (n : Nat) (x : Nat × Nat) => n + x.2 * 2 ^ (8 * x.1)) 0)

/-- One partition, number 0, with something of everything. -/
def plan0 : PartPlan :=
  { enable := true, slotBase := 0, slotCount := 8, descBase := 0x100000, clsBase := 0, clsCount := 4, meterBase := 0, meterCount := 4,
    qlimit := 16, rings := [(0, 7)], shares := [1, 1, 1, 1], channels := [0, 1, 2, 3], freeRuns := [(64, 64)], spillBase := 0,
    spillKib := 0, spillPool := 0, nodeMax := 8, pfxCeil := 64, groups := [0], adze := [0], text := [0, 1, 2, 3], btCtx := 4,
    gramCeil := 64, progMax := 2, ringCeil := 64, billetCeil := [], pageCeil := [64, 64, 64, 64], idxMax := 2, mergeBase := 0x400000,
    mergePages := 1, ownerPreset := none, conf := false }

/-- The targets at which the test lay lets every master in: the first HBM channel, the ring blocks and the register blocks. -/
def axAll (m : List Nat) : NMap W32 :=
  ([0, 320] ++ (List.range 21).map (352 + ·) ++ [384]).flatMap fun t => m.map fun x => (256 * t + x, 0xFFFFF)

/-- The same, laid with that partition, PF0 admitted to every block. -/
def laid : State :=
  { bare with lay.laid := true, lay.img.parts := [(0, plan0)], lay.img.fns := [(0, 0)], lay.img.voc := [(0, ⟨0, 1, 64⟩)],
              lay.img.ax := axAll [0x90], cp.accts := [(0, { acct0 with cfg := 0x10 })], hf.devId := 0 }

/-- A well-formed policy record: one layer, one head of 64, account 0. -/
def pol0 : BitVec 512 := desc [(0, 1), (2, 1), (3, 4)]

/-- A session of partition 0 with no tokens. -/
def sess0 : Slot := { slot0 with st := .active, policy := pol0 }

/-- The laid state with memory listed: a policy record at host address 0x1000. -/
def host (l : List Host.Cell) : State := { laid with hmem := l }

def polAt (a : Nat) : List Host.Cell := [(a, 1), (a + 2, 1), (a + 3, 4)]
def hostA (a : Nat) : Nat := 2 ^ 63 + a

/-- Session 0 in slot 0, handle 1. -/
def withSess (x : Slot) : State := { host (polAt 0x1000) with ht.slots := [(0, x)], ht.slotNext := [(0, 1)] }

/-- What Hitch sees of the state: its command counted. -/
def seen (op : Nat) (s : State) : State := ctrAdd .HT_CMD_CNT op 0 1 { s with ly.hbmAt := now s }

/-- The `n` bytes of a record with the numbers given at their byte offsets. -/
def bytesOf (n : Nat) (l : List (Nat × Nat)) : List Byte := leBytes n (l.foldl (fun (n : Nat) (x : Nat × Nat) => n + x.2 * 2 ^ (8 * x.1)) 0)

/-- Memory cells that hold the bytes from address `a` on. -/
def cells (a : Nat) (l : List Byte) : List Host.Cell := ((enum0 l).filter fun e => e.2 != 0).map fun e => (a + e.1, e.2)

/-- A vocabulary of one entry, "a"; its SHA-384 is computed outside the model. -/
def vocDg : Nat := 0xa6a9c0e3d265cc123ab2bd4d926a191b28e2f4a5f854e57d5e0eddcecba335f9c979af0ff2482cec7d2f851ab21c1031
def vocImg : List Byte := bytesOf 273 [(0, 0x5748564F), (4, 1), (8, 1), (32, 1), (36, 0x0F01), (48, vocDg), (264, 1), (272, 0x61)]

/-- A grammar for it: one state that accepts, no edge. -/
def gramImg : List Byte :=
  bytesOf 384 [(0, 0x434C4154), (4, 1), (8, 1), (12, 1), (24, 1), (32, vocDg), (326, 1),
    (80, 0x6c7e46974d3910231f6f5c77596b9c3863edbde44d8c1ec06a4ed1bb3d31ef7c730e3f675e6fb5fede9b447ac55d86b9)]

/-- A container of kind ORDER, with one layer. -/
def contImg : List Byte :=
  bytesOf 258 [(0, 0x4F545541), (4, 1), (8, 5), (16, 1), (20, 256), (28, 258),
    (48, 0x7c0aae60eb15f324f8136122b124c6a3ceec0fe981656845ea5993b5e4948e68ab3b2861c9410d840d88ad57b4f7d61d)]

/-- An image at the fused SVN floor passes its check. -/
theorem fwOk_top (j d : Nat) : fwOk ⟨true, Config.svnFloor, j, d⟩ = true := by simp [fwOk]

/-! ### Ill-formed commands, one for each check, and a well-formed one -/

theorem test_illFormed_opcode : (Instr.create 0 (desc [(16, 2)])).illFormed = some .opcode := by decide +kernel
theorem test_illFormed_form : (Instr.forkFromNode 0 (desc [(16, 2), (17, 1)])).illFormed = some .form := by decide +kernel
theorem test_illFormed_engine : (Instr.engineFence .whittle 16).illFormed = some .engine := by decide +kernel
theorem test_illFormed_function : (Instr.flr 65).illFormed = some .function := by decide +kernel
theorem test_illFormed_target : (Instr.axCommit .pf0 389).illFormed = some .target := by decide +kernel
theorem test_illFormed_block : (Instr.pmInstReset .pf0 21 0).illFormed = some .block := by decide +kernel
theorem test_illFormed_length : (Instr.hostPortAccess 0 .bar0 0 4 (some [1])).illFormed = some .length := by decide +kernel
theorem test_illFormed_payload : (Instr.rdmaWrite 0 0 0 0 (List.replicate 4097 0) false).illFormed = some .payload := by decide +kernel
theorem test_illFormed_alignment : (Instr.harahAtomic 0 ⟨0, 1, 0, 4, 0, 0, false⟩ 0 0 0).illFormed = some .alignment := by decide +kernel
theorem test_illFormed_width : (Instr.hostLinkUp 0 2).illFormed = some .width := by decide +kernel
theorem test_illFormed_flash :
    (Instr.pldmOemFlashWrite .mctp none true false 0xFFF000 0x2000 [] State.reset.pm.chipA).illFormed = some .flash := by decide +kernel
theorem test_illFormed_repeated : (Instr.routeUpdate [(1, 2), (1, 3)]).illFormed = some .repeated := by decide +kernel
theorem test_illFormed_request : (Instr.keyRelease .mctp 0 [0] none).illFormed = some .request := by decide +kernel
theorem test_wellFormed : (Instr.create 0 (desc [(16, 1)])).wellFormed = true := by decide +kernel

/-! ### Hashes, ciphers and number forms at vectors computed outside the model -/

/-- A number's bytes, the most significant first, as the standards print them. -/
def printed (n x : Nat) : List Byte := (leBytes n x).reverse
/-- A key or nonce as the registers and descriptors hold it: byte i is bits [8i+7:8i] (R17). -/
def held (n x : Nat) : Nat := flipBytes n x 0

/-- FIPS 180-4, the example "abc". -/
theorem test_sha256 : sha256 [97, 98, 99] =
    printed 32 0xBA7816BF8F01CFEA414140DE5DAE2223B00361A396177A9CB410FF61F20015AD := by decide +kernel
theorem test_sha384 : sha384 [97, 98, 99] =
    printed 48 0xCB00753F45A35E8BB5A03D699AC65007272C32AB0EDED1631A8B605A43FF5BED8086072BA1E7CC2358BAECA134C825A7 := by decide +kernel
/-- NIST SP 800-38D, test case 16. -/
theorem test_gcm :
    (let k := held 32 0xFEFFE9928665731C6D6A8F9467308308FEFFE9928665731C6D6A8F9467308308
     let n := held 12 0xCAFEBABEFACEDBADDECAF888
     let c := gcmXor k n (printed 60 (0xD9313225F88406E5A55909C5AFF5269A86A7A9531534F7DA2E4C303D8A318A721C3C0C95956809532FCF0E24 * 2 ^ 128 +
       0x49A6B525B16AEDF5AA0DE657BA637B39))
     printed 16 0x76FC6ECE0F4E1768CDDF8853BB2D551B =
       leBytes 16 (gcmTag k n (printed 20 0xFEEDFACEDEADBEEFFEEDFACEDEADBEEFABADDAD2) c)) := by decide +kernel
/-- RFC 3394, section 4.6. -/
theorem test_keyWrap :
    keyWrap (held 32 0x000102030405060708090A0B0C0D0E0F101112131415161718191A1B1C1D1E1F)
      (held 32 0x00112233445566778899AABBCCDDEEFF000102030405060708090A0B0C0D0E0F) =
    printed 40 0x28C9F404C4B810F4CBCCB35CFB87F8263F5786E2D80ED326CBC7F0E71A99F43BFB988B9B7A02DD21 := by decide +kernel
theorem test_keyUnwrap :
    keyUnwrap (held 32 0x000102030405060708090A0B0C0D0E0F101112131415161718191A1B1C1D1E1F)
      (printed 40 0x28C9F404C4B810F4CBCCB35CFB87F8263F5786E2D80ED326CBC7F0E71A99F43BFB988B9B7A02DD21) =
    some (held 32 0x00112233445566778899AABBCCDDEEFF000102030405060708090A0B0C0D0E0F) := by decide +kernel
/-- A tie rounds to the even neighbour; a sum beyond the largest number saturates (R144, R266). -/
theorem test_bf16_tie : bf16Of (f32Val 0x3F808000) = 0x3F80 ∧ bf16Of (f32Val 0x3F818000) = 0x3F82 := by decide +kernel
theorem test_f32_saturates : f32Add 0x7F7FFFFF 0x7F7FFFFF = 0x7F7FFFFF := by decide +kernel

/-! ### One step -/

theorem test_reset_idles : step State.reset = .next (tick State.reset) := rfl
theorem test_core_reset : core.reset = State.reset := rfl
/-- R31, R48: a register of the device written through BAR0 by PF0 reads back what was written. -/
theorem test_register_write :
    (match exec (.registerWrite .pf0 (BitVec.ofNat 26 (regOff .HP_CPL_TMO 0 0 0)) (leBytes 4 77)) bare with
     | .next t => rg t .HP_CPL_TMO
     | _ => 0) = 77 := by decide +kernel

/-! ### What each statement's hypotheses are met by -/

def w01a : State := { bare with pending := [.injExpiry] }
def w01b : State := { bare with pm.step := 4 }
def w01c : State := { bare with pm.step := 3 }

/-- StepRunsTheFrontCommand: what meets the hypotheses of its clause. -/
theorem wit_StepRunsTheFrontCommand :
    w01a.pending = [Instr.injExpiry] :=
  by decide +kernel

/-- AnEmptyQueueCountsOneNanosecond: what meets the hypotheses of its clauses, in order. -/
theorem wit_AnEmptyQueueCountsOneNanosecond :
    (State.reset.pending = [] ∧ State.reset.pm.stbyOk = false) ∧
    (w01b.pending = [] ∧ w01b.pm.stbyOk = true ∧ w01b.hf.time.ppsOut = false ∧ 4 ≤ w01b.pm.step ∧ w01b.hf.time.slew = 0) ∧
    (w01c.pending = [] ∧ w01c.pm.stbyOk = true ∧ w01c.hf.time.ppsOut = false ∧ w01c.pm.step < 4) :=
  ⟨by decide +kernel,
   by decide +kernel,
   by decide +kernel⟩

/-- EveryStepKeepsTheInvariant: what meets the hypotheses of its clause. -/
theorem wit_EveryStepKeepsTheInvariant :
    State.reset.Inv ∧ step State.reset = Host.Outcome.next State.reset :=
  ⟨⟨by decide, by decide, by decide, by decide⟩, rfl⟩

/-- ReadOfAWrongSizeReturnsZeros: what meets the hypotheses of its clause. -/
theorem wit_ReadOfAWrongSizeReturnsZeros :
    (¬((4 = 1 ∨ 4 = 2 ∨ 4 = 4 ∨ 4 = 8) ∧ 2 % 4 = 0)) :=
  by decide +kernel

/-- RegisterAndCounterReads: what meets the hypotheses of its clauses, in order. -/
theorem wit_RegisterAndCounterReads :
    (regDecode 14680324 = some (⟨RegId.HP_CPL_TMO, 0, 0, 0⟩ : RegAt) ∧ lhGroup (⟨RegId.HP_CPL_TMO, 0, 0, 0⟩ : RegAt) = [] ∧
      axAdmits bare Req.pf0 Acc.rd ((spaceTarget 14680324).getD 0) = true ∧ viewReads bare Req.pf0 ((spaceBlock 14680324).getD
      0) (some (⟨RegId.HP_CPL_TMO, 0, 0, 0⟩ : RegAt)) = true) ∧
    (axAdmits bare Req.pf0 Acc.rd (352 + Ct.blk Ct.PM_START_CNT) = true ∧ viewReads bare Req.pf0 (Ct.blk Ct.PM_START_CNT) none =
      true ∧ openCounter Ct.PM_START_CNT = false) :=
  ⟨by decide +kernel,
   by decide +kernel⟩

def notPf0 : Req := ⟨0x91, 1, 0, false⟩
def w02a : State := { bare with ax.inReset := [14] }
def w02b : State := { bare with ax.out := [(0, [.job 0 0 0])], sp.jobs := [⟨0, 0, 0, 0, [0], false, 0⟩] }
def injS (mode n : Nat) : State :=
  { bare with ax.injOn := true, ax.injExp := 1, ax.injLclk := 1, regs := [(regOff .INJ_CTL 63 0 0, BitVec.ofNat 32 (mode * 65536 + n * 2 ^ 20))] }
def w02c : State := { injS 0 0 with span := 1 }
def snapS (t n : Nat) : State := { bare with ax.snapAll := some t, span := BitVec.ofNat 80 n }

/-- RegisterWritesByTheSizeRules: what meets the hypotheses of its clauses, in order. -/
theorem wit_RegisterWritesByTheSizeRules :
    (RegId.CP_CLASS_WEIGHT ∈ [RegId.HP_CPL_TMO, RegId.HF_E2E_TMO, RegId.CP_CLASS_WEIGHT, RegId.CP_CLASS_DEFER_US,
      RegId.LA_STRAND_CFG, RegId.PM_RSP_TMO] ∧ regDecode 3153860 = some (⟨RegId.CP_CLASS_WEIGHT, 63, 0, 0⟩ : RegAt) ∧ [1, 2, 3,
      4].length = 4 ∧ 3153860 % 4 = 0 ∧ Allowed Req.pf0 RegId.CP_CLASS_WEIGHT 63 bare) ∧
    (RegId.HP_CPL_TMO ∈ [RegId.HP_CPL_TMO, RegId.HF_E2E_TMO, RegId.CP_CLASS_WEIGHT, RegId.CP_CLASS_DEFER_US,
      RegId.LA_STRAND_CFG, RegId.PM_RSP_TMO] ∧ regDecode 14680324 = some (⟨RegId.HP_CPL_TMO, 0, 0, 0⟩ : RegAt) ∧ [1, 2].length ≠
      4 ∧ [1, 2].length ≠ 8) ∧
    (RegId.PM_RSP_TMO ∈ [RegId.HP_CPL_TMO, RegId.HF_E2E_TMO, RegId.CP_CLASS_WEIGHT, RegId.CP_CLASS_DEFER_US,
      RegId.LA_STRAND_CFG, RegId.PM_RSP_TMO] ∧ regDecode 17301512 = some (⟨RegId.PM_RSP_TMO, 0, 0, 0⟩ : RegAt) ∧ [1, 2, 3,
      4].length = 4 ∧ 17301512 % 4 = 0 ∧ regWritable bare notPf0 (⟨RegId.PM_RSP_TMO, 0, 0, 0⟩ : RegAt) = false) ∧
    (RegId.HP_CPL_TMO ∈ [RegId.HP_CPL_TMO, RegId.HF_E2E_TMO, RegId.CP_CLASS_WEIGHT, RegId.CP_CLASS_DEFER_US,
      RegId.LA_STRAND_CFG, RegId.PM_RSP_TMO] ∧ regDecode 14680324 = some (⟨RegId.HP_CPL_TMO, 0, 0, 0⟩ : RegAt) ∧ [1, 2, 3,
      4].length = 4 ∧ 14680324 % 4 = 0 ∧ regWritable w02a Req.pf0 (⟨RegId.HP_CPL_TMO, 0, 0, 0⟩ : RegAt) = true ∧ regInReset w02a
      (⟨RegId.HP_CPL_TMO, 0, 0, 0⟩ : RegAt) = true) :=
  ⟨by decide +kernel,
   by decide +kernel,
   by decide +kernel,
   by decide +kernel⟩

/-- AccessTableCommitAndRestage: what meets the hypotheses of its clauses, in order. -/
theorem wit_AccessTableCommitAndRestage :
    (388 < 389 ∧ Allowed Req.pf0 RegId.AX_CTL 388 bare ∧ axOld bare 388 = 0 ∧ confOwner bare 388 = none) ∧
    (0 < 389 ∧ Allowed Req.pf0 RegId.AX_CTL 0 w02b ∧ axOld w02b 0 ≠ 0) ∧
    (0 < 389 ∧ Allowed Req.pf0 RegId.AX_CTL 0 bare) :=
  ⟨by decide +kernel,
   by decide +kernel,
   by decide +kernel⟩

/-- InjectionSlotsAndCaptures: what meets the hypotheses of its clauses, in order. -/
theorem wit_InjectionSlotsAndCaptures :
    (Allowed Req.pf0 RegId.INJ_ARM 63 (injS 1 0) ∧ (injS 1 0).ax.injOn = true ∧ bits (rg (injS 1 0) RegId.INJ_CTL 63) 17 16 = 1) ∧
    (Allowed Req.pf0 RegId.INJ_ARM 63 (injS 2 4095) ∧ (injS 2 4095).ax.injOn = true ∧ bits (rg (injS 2 4095) RegId.INJ_CTL 63)
      17 16 = 2 ∧ bits (rg (injS 2 4095) RegId.INJ_CTL 63) 31 20 ≠ 0) ∧
    (Allowed Req.pf0 RegId.INJ_ARM 63 (injS 3 0) ∧ (injS 3 0).ax.injOn = true ∧ bits (rg (injS 3 0) RegId.INJ_CTL 63) 17 16 = 3) ∧
    (Allowed Req.pf0 RegId.INJ_ARM 0 (injS 0 0) ∧ (injS 0 0).ax.injOn = true) ∧
    (Allowed Req.pf0 RegId.INJ_ARM 0 bare ∧ bare.ax.injOn = false) ∧
    (w02c.ax.injOn = true ∧ (w02c.ax.injExp ≤ now w02c ∨ w02c.ax.injLclk ≤ w02c.uptime)) ∧
    (20 ≠ 18 ∧ snapSees bare Req.pf0 20 = true ∧ bare.ax.inReset.contains 20 = false) ∧
    (Allowed Req.pf0 RegId.PM_SNAP_ALL 0 bare) ∧
    ((snapS 5 6).ax.snapAll = some 5 ∧ 5 < now (snapS 5 6)) ∧
    ((snapS 5 5).ax.snapAll = some 5 ∧ now (snapS 5 5) ≤ 5) :=
  ⟨by decide +kernel,
   by decide +kernel,
   by decide +kernel,
   by decide +kernel,
   by decide +kernel,
   by decide +kernel,
   by decide +kernel,
   by decide +kernel,
   by decide +kernel,
   by decide +kernel⟩

def d03c : BitVec 512 := desc [(16, 1), (32, hostA 0x1000)]
def w03c : State := host (polAt 0x1000)
def w03d : State := { w03c with ht.slotNext := [(0, 8)] }
def node0 : Node := ⟨1, 0, 0, 0, 0, 0, 0, 1, 1, 4, 0, 0, false, 0, [], []⟩
def d03n : BitVec 512 := desc [(16, 2), (32, 1), (40, hostA 0x1000)]
def w03n : State := { w03c with pfx.nodes := [(0, node0)], pfx.member := [(0, 1)] }
def d03f : BitVec 512 := desc [(16, 2), (17, 1), (32, 1), (40, hostA 0x1000)]
def w03f : State := withSess sess0
def dPark (t : Nat) : BitVec 512 := desc [(16, 3), (24, 1), (32, t)]
def dRev : BitVec 512 := desc [(16, 4), (24, 1)]
def far0 : FarDev := { farDev0 with present := true, accepting := true, admitted := true, pages := 16 }
def w03g : State := { w03f with sp.far := [(0, far0)] }
def v03g : State := (outToT2 0 sess0 MvWhy.command (some (0, dPark 2)) [0] (seen 3 w03g)).getD bare
def sessIn (x : SlotSt) (t : Nat) : Slot := { sess0 with st := x, tier := t }
def w03h (x : SlotSt) (t : Nat) : State := withSess (sessIn x t)
def v03i : State := (beginIn 0 (sessIn .parkedCold 5) (maskOf (seen 4 (w03h .parkedCold 5)) 0 (hArg0 dRev) (pMask pol0)) (some (0, dRev)) (seen 4 (w03h .parkedCold 5))).getD bare
def dFree : BitVec 512 := desc [(16, 6), (24, 1)]
def dQuery : BitVec 512 := desc [(16, 7), (24, 1), (32, hostA 0x2000)]
def step00 : Step := step0 1
def stepping : Slot := { sess0 with st := .stepping, step := some step00 }
def w03j : State := withSess stepping
def w03k : State := { bare with ht.aFenced := true, ht.activeA := false, ht.inStep := false, ht.journal := [⟨1, 0⟩] }
def w03l : State := { w03k with ht.resync := true }

/-- CreateTakesTheHeadOfTheFreeList: what meets the hypotheses of its clauses, in order. -/
theorem wit_CreateTakesTheHeadOfTheFreeList :
    (AtHitch 1 0 d03c 0 w03c (seen 1 w03c) ∧ hClean d03c = true ∧ hOpt d03c = 0 ∧ hHandle d03c = 0 ∧ hArg1 d03c = 0 ∧ hArg2 d03c
      = 0 ∧ inCheck (seen 1 w03c) (hitchReq (seen 1 w03c) 0) (hArg0 d03c) 64 = okV ∧ pol0 = BitVec.ofNat 512 (rdNat (seen 1
      w03c) (hArg0 d03c) 64) ∧ policyOk (seen 1 w03c) 0 pol0 = true ∧ freeSlot (seen 1 w03c) 0 = some 0 ∧ (ringOf w03c (cqOf
      w03c 0)).held = []) ∧
    (AtHitch 1 0 d03c 0 w03d (seen 1 w03d) ∧ hClean d03c = true ∧ hOpt d03c = 0 ∧ hHandle d03c = 0 ∧ hArg1 d03c = 0 ∧ hArg2 d03c
      = 0 ∧ inCheck (seen 1 w03d) (hitchReq (seen 1 w03d) 0) (hArg0 d03c) 64 = okV ∧ pol0 = BitVec.ofNat 512 (rdNat (seen 1
      w03d) (hArg0 d03c) 64) ∧ policyOk (seen 1 w03d) 0 pol0 = true ∧ freeSlot (seen 1 w03d) 0 = none) :=
  ⟨⟨⟨⟨by decide, by decide, by decide⟩, by decide, rfl⟩, by decide +kernel, by decide +kernel, by decide +kernel,
     by decide +kernel, by decide +kernel, by decide +kernel, by decide +kernel, by decide +kernel, by decide +kernel,
     by decide +kernel⟩,
   ⟨⟨⟨by decide, by decide, by decide⟩, by decide, rfl⟩, by decide +kernel, by decide +kernel, by decide +kernel,
     by decide +kernel, by decide +kernel, by decide +kernel, by decide +kernel, by decide +kernel, by decide +kernel⟩⟩

/-- ForkStartsFromANodeOrASession: what meets the hypotheses of its clauses, in order. -/
theorem wit_ForkStartsFromANodeOrASession :
    (AtHitch 2 0 d03n 0 w03n (seen 2 w03n) ∧ hClean d03n = true ∧ hOpt d03n = 0 ∧ hHandle d03n = 0 ∧ nodeOf (seen 2 w03n) 0
      (hArg0 d03n) = some node0 ∧ inCheck (seen 2 w03n) (hitchReq (seen 2 w03n) 0) (hArg1 d03n) 64 = okV ∧ pol0 = BitVec.ofNat
      512 (rdNat (seen 2 w03n) (hArg1 d03n) 64) ∧ policyOk (seen 2 w03n) 0 pol0 = true ∧ [(0, node0)] = pathOf (seen 2 w03n) 0
      (node0.depth + 1) (hArg0 d03n) ∧ 1 = (if hArg2 d03n = 0 then [(0, node0)].length else hArg2 d03n) ∧ 1 ≤ [(0,
      node0)].length ∧ ([(0, node0)].any fun e => e.snd.doomed) = false ∧ memberOf (seen 2 w03n) (pAccount pol0) node0.group =
      true ∧ pLayers pol0 = node0.layers ∧ pHeads pol0 = node0.heads ∧ pHd pol0 = 16 * node0.hd16 ∧ pBody pol0 = node0.fmt ∧
      freeSlot (seen 2 w03n) 0 = some 0) ∧
    (AtHitch 2 0 d03f 0 w03f (seen 2 w03f) ∧ hClean d03f = true ∧ hOpt d03f = 1 ∧ hHandle d03f = 0 ∧ hArg2 d03f = 0 ∧ Names
      (hArg0 d03f) 0 false 0 sess0 (seen 2 w03f) ∧ memberCtx (seen 2 w03f) 0 = none ∧ (sess0.st = SlotSt.active ∨ sess0.st =
      SlotSt.stepping ∨ sess0.st = SlotSt.parkedHot) ∧ sess0.tier = 1 ∧ sess0.frozen = false ∧ inCheck (seen 2 w03f) (hitchReq
      (seen 2 w03f) 0) (hArg1 d03f) 64 = okV ∧ pol0 = BitVec.ofNat 512 (rdNat (seen 2 w03f) (hArg1 d03f) 64) ∧ policyOk (seen 2
      w03f) 0 pol0 = true ∧ sameGeom pol0 sess0.policy = true ∧ freeSlot (seen 2 w03f) 0 = some 1 ∧ 1 ≠ 0 ∧ copyTails sess0 1
      (slotOf (seen 2 w03f) 1).gen (maskOf (seen 2 w03f) 0 0 (pMask pol0)) (List.drop (sess0.tokens / 128 * pLayers
      sess0.policy) (enum0 sess0.blks)) (seen 2 w03f) = some ([], seen 2 w03f)) :=
  ⟨⟨⟨⟨by decide, by decide, by decide⟩, by decide, rfl⟩, by decide +kernel, by decide +kernel, by decide +kernel,
     by decide +kernel, by decide +kernel, by decide +kernel, by decide +kernel, by decide +kernel, by decide +kernel,
     by decide +kernel, by decide +kernel, by decide +kernel, by decide +kernel, by decide +kernel, by decide +kernel,
     by decide +kernel, by decide +kernel⟩,
   ⟨⟨⟨by decide, by decide, by decide⟩, by decide, rfl⟩, by decide +kernel, by decide +kernel, by decide +kernel,
     by decide +kernel, ⟨by decide, rfl, rfl⟩, by decide +kernel, by decide +kernel, by decide +kernel, by decide +kernel,
     by decide +kernel, by decide +kernel, by decide +kernel, by decide +kernel, by decide +kernel, by decide +kernel,
     by decide +kernel⟩⟩

/-- ParkAndReviveOfASessionAtRest: what meets the hypotheses of its clauses, in order. -/
theorem wit_ParkAndReviveOfASessionAtRest :
    (AtHitch 3 0 (dPark 1) 0 w03f (seen 3 w03f) ∧ parkOk (dPark 1) = true ∧ Names (hHandle (dPark 1)) 0 false 0 sess0 (seen 3
      w03f) ∧ memberCtx (seen 3 w03f) 0 = none ∧ sess0.frozen = false ∧ sess0.st = SlotSt.active ∧ hArg0 (dPark 1) = 1) ∧
    (AtHitch 3 0 (dPark 2) 0 w03g (seen 3 w03g) ∧ parkOk (dPark 2) = true ∧ Names (hHandle (dPark 2)) 0 false 0 sess0 (seen 3
      w03g) ∧ memberCtx (seen 3 w03g) 0 = none ∧ sess0.frozen = false ∧ sess0.st = SlotSt.active ∧ hArg0 (dPark 2) = 2 ∧
      moveFull (seen 3 w03g) = false ∧ outToT2 0 sess0 MvWhy.command (some (0, dPark 2)) (farChoices (seen 3 w03g) 0 (if hArg1
      (dPark 2) = 0 then 15 else hArg1 (dPark 2))) (seen 3 w03g) = some v03g) ∧
    (AtHitch 3 0 (dPark 2) 0 (w03h SlotSt.parkedWarm 2) (seen 3 (w03h SlotSt.parkedWarm 2)) ∧ parkOk (dPark 2) = true ∧ Names
      (hHandle (dPark 2)) 0 false 0 (sessIn SlotSt.parkedWarm 2) (seen 3 (w03h SlotSt.parkedWarm 2)) ∧ memberCtx (seen 3 (w03h
      SlotSt.parkedWarm 2)) 0 = none ∧ (sessIn SlotSt.parkedWarm 2).frozen = false ∧ ((sessIn SlotSt.parkedWarm 2).st =
      SlotSt.parkedHot ∨ (sessIn SlotSt.parkedWarm 2).st = SlotSt.parkedWarm ∨ (sessIn SlotSt.parkedWarm 2).st =
      SlotSt.parkedCold) ∧ hArg0 (dPark 2) ≤ (sessIn SlotSt.parkedWarm 2).tier) ∧
    (AtHitch 4 0 dRev 0 w03f (seen 4 w03f) ∧ hClean dRev = true ∧ hOpt dRev = 0 ∧ hArg1 dRev = 0 ∧ hArg2 dRev = 0 ∧ reviveMaskOk
      (seen 4 w03f) 0 (hArg0 dRev) = true ∧ Names (hHandle dRev) 0 false 0 sess0 (seen 4 w03f) ∧ memberCtx (seen 4 w03f) 0 =
      none ∧ sess0.frozen = false ∧ sess0.st = SlotSt.active) ∧
    (AtHitch 4 0 dRev 0 (w03h SlotSt.parkedHot 1) (seen 4 (w03h SlotSt.parkedHot 1)) ∧ hClean dRev = true ∧ hOpt dRev = 0 ∧
      hArg1 dRev = 0 ∧ hArg2 dRev = 0 ∧ reviveMaskOk (seen 4 (w03h SlotSt.parkedHot 1)) 0 (hArg0 dRev) = true ∧ Names (hHandle
      dRev) 0 false 0 (sessIn SlotSt.parkedHot 1) (seen 4 (w03h SlotSt.parkedHot 1)) ∧ memberCtx (seen 4 (w03h SlotSt.parkedHot
      1)) 0 = none ∧ (sessIn SlotSt.parkedHot 1).frozen = false ∧ (sessIn SlotSt.parkedHot 1).st = SlotSt.parkedHot) ∧
    (AtHitch 4 0 dRev 0 (w03h SlotSt.parkedCold 5) (seen 4 (w03h SlotSt.parkedCold 5)) ∧ hClean dRev = true ∧ hOpt dRev = 0 ∧
      hArg1 dRev = 0 ∧ hArg2 dRev = 0 ∧ reviveMaskOk (seen 4 (w03h SlotSt.parkedCold 5)) 0 (hArg0 dRev) = true ∧ Names (hHandle
      dRev) 0 false 0 (sessIn SlotSt.parkedCold 5) (seen 4 (w03h SlotSt.parkedCold 5)) ∧ memberCtx (seen 4 (w03h
      SlotSt.parkedCold 5)) 0 = none ∧ (sessIn SlotSt.parkedCold 5).frozen = false ∧ ((sessIn SlotSt.parkedCold 5).st =
      SlotSt.parkedWarm ∨ (sessIn SlotSt.parkedCold 5).st = SlotSt.parkedCold) ∧ moveFull (seen 4 (w03h SlotSt.parkedCold 5)) =
      false ∧ beginIn 0 (sessIn SlotSt.parkedCold 5) (maskOf (seen 4 (w03h SlotSt.parkedCold 5)) 0 (hArg0 dRev) (pMask (sessIn
      SlotSt.parkedCold 5).policy)) (some (0, dRev)) (seen 4 (w03h SlotSt.parkedCold 5)) = some v03i) :=
  ⟨⟨⟨⟨by decide, by decide, by decide⟩, by decide, rfl⟩, by decide +kernel, ⟨by decide, rfl, rfl⟩, by decide +kernel,
     by decide +kernel, by decide +kernel, by decide +kernel⟩,
   ⟨⟨⟨by decide, by decide, by decide⟩, by decide, rfl⟩, by decide +kernel, ⟨by decide, rfl, rfl⟩, by decide +kernel,
     by decide +kernel, by decide +kernel, by decide +kernel, by decide +kernel, by decide +kernel⟩,
   ⟨⟨⟨by decide, by decide, by decide⟩, by decide, rfl⟩, by decide +kernel, ⟨by decide, rfl, rfl⟩, by decide +kernel,
     by decide +kernel, by decide +kernel, by decide +kernel⟩,
   ⟨⟨⟨by decide, by decide, by decide⟩, by decide, rfl⟩, by decide +kernel, by decide +kernel, by decide +kernel,
     by decide +kernel, by decide +kernel, ⟨by decide, rfl, rfl⟩, by decide +kernel, by decide +kernel, by decide +kernel⟩,
   ⟨⟨⟨by decide, by decide, by decide⟩, by decide, rfl⟩, by decide +kernel, by decide +kernel, by decide +kernel,
     by decide +kernel, by decide +kernel, ⟨by decide, rfl, rfl⟩, by decide +kernel, by decide +kernel, by decide +kernel⟩,
   ⟨⟨⟨by decide, by decide, by decide⟩, by decide, rfl⟩, by decide +kernel, by decide +kernel, by decide +kernel,
     by decide +kernel, by decide +kernel, ⟨by decide, rfl, rfl⟩, by decide +kernel, by decide +kernel, by decide +kernel,
     by decide +kernel, by decide +kernel⟩⟩

/-- FreeAdvancesTheGenerationAndQueryReports: what meets the hypotheses of its clauses, in order. -/
theorem wit_FreeAdvancesTheGenerationAndQueryReports :
    (AtUnit 6 0 dFree 0 w03f ∧ seen 6 w03f = ctrAdd Ct.HT_CMD_CNT 6 0 1 { w03f with ly.hbmAt := now w03f } ∧ hClean dFree = true
      ∧ hOpt dFree = 0 ∧ hArg0 dFree = 0 ∧ hArg1 dFree = 0 ∧ hArg2 dFree = 0 ∧ Names (hHandle dFree) 0 true 0 sess0 (seen 6
      w03f) ∧ memberCtx (seen 6 w03f) 0 = none ∧ (sess0.st = SlotSt.active ∨ sess0.st = SlotSt.parkedHot ∨ sess0.st =
      SlotSt.parkedWarm ∨ sess0.st = SlotSt.parkedCold) ∧ sess0.held = []) ∧
    (AtUnit 6 0 dFree 0 w03j ∧ seen 6 w03j = ctrAdd Ct.HT_CMD_CNT 6 0 1 { w03j with ly.hbmAt := now w03j } ∧ hClean dFree = true
      ∧ hOpt dFree = 0 ∧ hArg0 dFree = 0 ∧ hArg1 dFree = 0 ∧ hArg2 dFree = 0 ∧ Names (hHandle dFree) 0 true 0 stepping (seen 6
      w03j) ∧ memberCtx (seen 6 w03j) 0 = none ∧ stepping.st = SlotSt.stepping ∧ stepping.step = some step00 ∧ genOf w03j 0 =
      none) ∧
    (AtUnit 7 0 dQuery 0 w03f ∧ seen 7 w03f = ctrAdd Ct.HT_CMD_CNT 7 0 1 { w03f with ly.hbmAt := now w03f } ∧ hClean dQuery =
      true ∧ hOpt dQuery = 0 ∧ hArg1 dQuery = 0 ∧ hArg2 dQuery = 0 ∧ Names (hHandle dQuery) 0 false 0 sess0 (seen 7 w03f) ∧
      anyCheck (seen 7 w03f) (hitchReq (seen 7 w03f) 0) Acc.wr (hArg0 dQuery) 64 = okV ∧ (ringOf w03f (cqOf w03f 0)).held = []) :=
  ⟨⟨⟨by decide, rfl, rfl⟩, by decide +kernel, by decide +kernel, by decide +kernel, by decide +kernel, by decide +kernel,
     by decide +kernel, ⟨by decide, rfl, rfl⟩, by decide +kernel, by decide +kernel, by decide +kernel⟩,
   ⟨⟨by decide, rfl, rfl⟩, by decide +kernel, by decide +kernel, by decide +kernel, by decide +kernel, by decide +kernel,
     by decide +kernel, ⟨by decide, rfl, rfl⟩, by decide +kernel, by decide +kernel, by decide +kernel, by decide +kernel⟩,
   ⟨⟨by decide, rfl, rfl⟩, by decide +kernel, by decide +kernel, by decide +kernel, by decide +kernel, by decide +kernel,
     ⟨by decide, rfl, rfl⟩, by decide +kernel, by decide +kernel⟩⟩

/-- TheStandbyTakesOver: what meets the hypotheses of its clauses, in order. -/
theorem wit_TheStandbyTakesOver :
    (Allowed Req.pf0 RegId.HT_CTL 0 bare ∧ hasStandby bare = true) ∧
    (Allowed Req.pf0 RegId.HT_CTL 0 w03k ∧ hasStandby w03k = false) ∧
    (Allowed Req.pf0 RegId.HT_CTL 0 w03k ∧ (w03k.ht.aFenced = true ∨ w03k.ht.bFenced = true) ∧ w03k.ht.resync = false) ∧
    (w03l.ht.resync = true) ∧
    (w03k.ht.journal = [{ n := 1, slot := 0 }]) :=
  ⟨by decide +kernel,
   by decide +kernel,
   by decide +kernel,
   by decide +kernel,
   by decide +kernel⟩

def sessH : Slot := { sess0 with home := 1 }
def dMig : BitVec 512 := desc [(16, 5), (24, 2 ^ 48 + 1), (32, 1), (40, hostA 0x1000)]
def w04a : State := { withSess sessH with hf.idValid := true, hf.devId := 1 }
def v04a : State := (hfIssue tyMsg (gDev dMig) 0 1 24 0 (leBytes 8 (handleOf 0 sessH) ++ leBytes 1 (gPart dMig) ++ leBytes 3 0 ++ leBytes 4 (privatePages sessH) ++ leBytes 8 (hArg1 dMig)) (HfWhat.reserve 0) (seen 5 w04a)).getD bare
def mov04 : Move := { move0 0 with dir := .migrate, cmd := some (0, dMig) }
def out04 : MigOut := ⟨0, 2, 0, 3, 4, true⟩
def movingS (d : MvDir) : Slot := { sess0 with st := .moving, dir := d, before := .active }
def w04b : State := { withSess (movingS .migrate) with ht.moves := [mov04], ht.migOut := [out04] }
def w04c : State := host (polAt 0x1000)
def x04c : Slot := { newSlot w04c 0 0 pol0 with tokens := 0 }
def in04 : MigIn := ⟨0, 2, 9, true, 0⟩
def mov04i : Move := { move0 0 with dir := .inn }
def w04d : State := { withSess (movingS .inn) with ht.moves := [mov04i], ht.migIn := [in04], hf.idValid := true, hf.devId := 2 }
def v04d : State := (hfIssue tyMsg 2 0 4 8 0 (leBytes 8 9) (HfWhat.ask 0) { w04d with ht.migIn := [{ in04 with askAt := now w04d + 1000 * rg w04d .HT_MIG_RETRY }] }).getD bare
def dAdopt : BitVec 512 := desc [(16, 5), (17, 1), (24, 9)]
def mov04c : Move := { mov04i with cmd := some (0, dRev) }
def w04e : State := { withSess (movingS .inn) with ht.moves := [mov04c] }
def mov04o : Move := { move0 0 with dir := .out, tier := 2, cmd := some (0, dPark 2) }
def w04f : State := { withSess (movingS .out) with ht.moves := [mov04o] }
def stepDone : Step := { step0 1 with last := true }
def sess04 : Slot := { sess0 with st := .stepping, step := some stepDone }
def w04g : State := withSess sess04
def stepFail : Step := { step0 1 with last := true, failed := true }
def w04h : State := withSess { sess0 with st := .stepping, step := some stepFail }
def blk04 : Blk := ⟨2, false, 0, 0, false, none, some 0x500000, []⟩
def dAtt : BitVec 512 := desc [(16, 0x30), (24, 1)]
def polDl : BitVec 512 := desc [(0, 1), (2, 1), (3, 4), (12, 1)]
def sess04d : Slot := { movingS .inn with policy := polDl, tokens := 128, blks := [blk04], held := [(0, dAtt)], stepAt := some 0 }
def mov04d : Move := { mov04i with pend := [(0, 0)] }
def w04i : State := { withSess sess04d with ht.moves := [mov04d], span := 1000 }
def w04j : State := { w03g with ht.hot := [(0, [(0, 0)])], span := 1000000000000000, regs := [(regOff .LY_DEMOTE_HOT_MS 0 0 0, 1)] }
def u04j (s : State) : State := ctrAdd .LY_DEMOTE_REQ_CNT 0 0 1 (hbmTouch 4 s)
def v04j : State := (outToT2 0 sess0 .demotion none (farChoices (u04j w04j) 0 15) (u04j w04j)).getD bare
def w04k : State := { w04j with sp.far := [] }

/-- MigrationLeavesTheSource: what meets the hypotheses of its clauses, in order. -/
theorem wit_MigrationLeavesTheSource :
    (AtHitch 5 0 dMig 0 w04a (seen 5 w04a) ∧ hClean dMig = true ∧ hOpt dMig = 0 ∧ hArg0 dMig < 2 ^ 20 ∧ hArg2 dMig = 0 ∧ Names
      (hHandle dMig) 0 false 0 sessH (seen 5 w04a) ∧ memberCtx (seen 5 w04a) 0 = none ∧ sessH.frozen = false ∧ (sessH.st =
      SlotSt.active ∨ sessH.st = SlotSt.parkedHot ∨ sessH.st = SlotSt.parkedWarm ∨ sessH.st = SlotSt.parkedCold) ∧ isConf (seen
      5 w04a) 0 = false ∧ (seen 5 w04a).hf.idValid = true ∧ moveFull (seen 5 w04a) = false ∧ hfIssue tyMsg (gDev dMig) 0 1 24 0
      (leBytes 8 (handleOf 0 sessH) ++ leBytes 1 (gPart dMig) ++ leBytes 3 0 ++ leBytes 4 (privatePages sessH) ++ leBytes 8
      (hArg1 dMig)) (HfWhat.reserve 0) (seen 5 w04a) = some v04a) ∧
    (hSlot 1 = 0 ∧ handleOf 0 (slotOf w04b 0) = 1 ∧ List.find? (fun m => m.slot == 0 && m.reserved) w04b.ht.migOut = some out04
      ∧ moveOf w04b 0 = some mov04 ∧ out04.dev = 2 ∧ mov04.also = [] ∧ mov04.cmd = some (0, dMig)) ∧
    (hGen 1 ≠ 0) :=
  ⟨⟨⟨⟨by decide, by decide, by decide⟩, by decide, rfl⟩, by decide +kernel, by decide +kernel, by decide +kernel,
     by decide +kernel, ⟨by decide, rfl, rfl⟩, by decide +kernel, by decide +kernel, by decide +kernel, by decide +kernel,
     by decide +kernel, by decide +kernel, by decide +kernel⟩,
   by decide +kernel,
   by decide +kernel⟩

/-- MigrationArrivesAtTheDestination: what meets the hypotheses of its clauses, in order. -/
theorem wit_MigrationArrivesAtTheDestination :
    (bit (rg w04c RegId.HT_CTL) 0 = false ∧ partPlan w04c 0 ≠ none ∧ moveFull w04c = false ∧ isConf w04c 0 = false ∧ inCheck
      w04c (hitchReq w04c 0) 9223372036854779904 64 = okV ∧ pol0 = BitVec.ofNat 512 (rdNat w04c 9223372036854779904 64) ∧
      policyOk w04c 0 pol0 = true ∧ freeSlot w04c 0 = some 0 ∧ x04c = { newSlot w04c 0 0 pol0 with tokens := 0 } ∧ takeIn x04c 0
      (maskOf w04c 0 0 (pMask pol0)) (plainTable pol0 0) w04c = some ([], w04c)) ∧
    (w04d.ht.migIn = [in04] ∧ in04.old = 9 ∧ in04.src = 2 ∧ in04.complete = true ∧ moveOf w04d in04.slot = some mov04i ∧
      handleOf in04.slot (slotOf w04d in04.slot) = 1) ∧
    (List.find? (fun m => m.slot == 0) w04d.ht.migIn = some in04 ∧ in04.complete = true ∧ in04.askAt ≤ now w04d ∧ hfIssue tyMsg
      in04.src (slotOf w04d 0).part 4 8 0 (leBytes 8 in04.old) (HfWhat.ask 0) { w04d with ht.migIn := List.map (fun y => if
      (y.slot == 0) = true then { in04 with askAt := now w04d + 1000 * rg w04d RegId.HT_MIG_RETRY } else y) w04d.ht.migIn } =
      some v04d) ∧
    (AtHitch 5 0 dAdopt 0 w04d (seen 5 w04d) ∧ hClean dAdopt = true ∧ hOpt dAdopt = 1 ∧ hArg0 dAdopt < 2 ^ 20 ∧ hArg2 dAdopt = 0
      ∧ List.find? (fun m => m.old == hHandle dAdopt && m.complete && (slotOf (seen 5 w04d) m.slot).part == 0) (seen 5
      w04d).ht.migIn = some in04 ∧ routeWithdrawn (seen 5 w04d) in04.src = true ∧ moveOf (seen 5 w04d) in04.slot = some mov04i) :=
  ⟨by decide +kernel,
   by decide +kernel,
   by decide +kernel,
   ⟨⟨⟨by decide, by decide, by decide⟩, by decide, rfl⟩, by decide +kernel, by decide +kernel, by decide +kernel,
     by decide +kernel, by decide +kernel, by decide +kernel, by decide +kernel⟩⟩

/-- MovesAndStepsCommit: what meets the hypotheses of its clauses, in order. -/
theorem wit_MovesAndStepsCommit :
    (0 = 0 ∧ moveOf w04e 0 = some mov04c ∧ mov04c.pend = [] ∧ mov04c.persist = none ∧ (w04e.ht.migIn.any fun i => i.slot == 0) =
      false ∧ mov04c.cmd = some (0, dRev) ∧ mov04c.also = [] ∧ mov04c.dir = MvDir.inn ∧ (slotOf w04e 0).step = none) ∧
    (0 = 0 ∧ moveOf w04f 0 = some mov04o ∧ mov04o.pend = [] ∧ mov04o.persist = none ∧ (w04f.ht.migIn.any fun i => i.slot == 0) =
      false ∧ mov04o.cmd = some (0, dPark 2) ∧ mov04o.also = [] ∧ mov04o.dir = MvDir.out ∧ mov04o.why = MvWhy.command) ∧
    (0 = 0 ∧ (slotOf w04g 0).step = some stepDone ∧ memberCtx w04g 0 = none ∧ stepOver w04g 0 = true ∧ (slotOf w04g 0).st =
      SlotSt.stepping ∧ stepDone.cancel = false ∧ stepDone.failed = false ∧ pBody (slotOf w04g 0).policy = pWin (slotOf w04g
      0).policy) ∧
    (0 = 0 ∧ (slotOf w04h 0).step = some stepFail ∧ memberCtx w04h 0 = none ∧ stepOver w04h 0 = true ∧ (slotOf w04h 0).st =
      SlotSt.stepping ∧ (stepFail.cancel = true ∧ stepFail.accept = none ∨ stepFail.failed = true)) :=
  ⟨by decide +kernel,
   by decide +kernel,
   by decide +kernel,
   by decide +kernel⟩

/-- DeadlinesAndDemotions: what meets the hypotheses of its clauses, in order. -/
theorem wit_DeadlinesAndDemotions :
    (0 = 0 ∧ (slotOf w04i 0).stepAt = some 0 ∧ List.find? (fun c => dOp c.snd == 48) (slotOf w04i 0).held = some (0, dAtt) ∧
      moveOf w04i 0 = some mov04d ∧ (List.map (fun x => x.fst) mov04d.pend).eraseDups ≠ [] ∧ (slotOf w04i 0).st = SlotSt.moving
      ∧ (slotOf w04i 0).dir = MvDir.inn ∧ (slotOf w04i 0).step = none ∧ pDeadline (slotOf w04i 0).policy ≠ 0 ∧ 0 + 1000 *
      pDeadline (slotOf w04i 0).policy ≤ now w04i ∧ (∀ (e : Nat), e ∈ (List.map (fun x => x.fst) mov04d.pend).eraseDups → ∃ b a,
      (slotOf w04i 0).blks[e]? = some b ∧ b.shadow = some a)) ∧
    (lyRuns w04j = true ∧ ngetD w04j.ht.hot 0 [] = [(0, 0)] ∧ demoteAfter w04j false ≠ 0 ∧ 0 + demoteAfter w04j false ≤ now w04j
      ∧ u04j w04j = ctrAdd Ct.LY_DEMOTE_REQ_CNT 0 0 1 (hbmTouch 4 w04j) ∧ slotOf w04j 0 = sess0 ∧ sess0.part = 0 ∧ sess0.frozen
      = false ∧ moveFull w04j = false ∧ outToT2 0 sess0 MvWhy.demotion none (farChoices (u04j w04j) 0 15) (u04j w04j) = some
      v04j) ∧
    (lyRuns w04k = true ∧ ngetD w04k.ht.hot 0 [] = [(0, 0)] ∧ demoteAfter w04k false ≠ 0 ∧ 0 + demoteAfter w04k false ≤ now w04k
      ∧ u04j w04k = ctrAdd Ct.LY_DEMOTE_REQ_CNT 0 0 1 (hbmTouch 4 w04k) ∧ slotOf w04k 0 = sess0 ∧ sess0.part = 0 ∧ sess0.frozen
      = false ∧ moveFull w04k = false ∧ outToT2 0 sess0 MvWhy.demotion none (farChoices (u04j w04k) 0 15) (u04j w04k) = none) :=
  ⟨⟨by decide +kernel, by decide +kernel, by decide +kernel, by decide +kernel, by decide +kernel, by decide +kernel,
     by decide +kernel, by decide +kernel, by decide +kernel, by decide +kernel,
     by intro e he; have he : e ∈ [0] := he; rw [List.mem_singleton.mp he]; exact ⟨_, _, rfl, rfl⟩⟩,
   by decide +kernel,
   by decide +kernel⟩

def hbmAx : NMap W32 := axAll [0x70, 0x90, 0xA0, 0xA3]
def eng0 (x : EngSt) (w : Nat) : Eng := ⟨x, w, false, 0, false, 0, false⟩
def w05 : State := { host (polAt 0x1000) with lay.img.ax := hbmAx, engs := [(4096, eng0 .enabled 0)] }
def dCopy : BitVec 512 := desc [(16, 0x10), (18, 1 + 8), (20, 64), (24, 0x400000), (32, 0x500000)]
def job05 : SpJob := ⟨0, dCopy, 0, 0, [0], false, 0⟩
def w05b : State := { w05 with sp.jobs := [job05], engs := [(4096, eng0 .enabled 1)] }
def dSwap : BitVec 512 := desc [(16, 0x12), (20, 1), (24, 0x300000)]
def w05c : State := { w05 with mem := [(0x300000, 4), (0x300004, 1), (0x300012, 1), (0x300018, 1)] }
def dFar : BitVec 512 := desc [(16, 0x10), (18, 1 + 16), (20, 64), (24, 0x400000), (32, farBase)]
def job05f : SpJob := ⟨0, dFar, 0, 0, [0], false, 0⟩
def w05d : State := { w05 with sp.jobs := [job05f], sp.far := [(0, far0)] }
def w05e (k : Nat) : State := { w05 with ht.pages := [(7, ⟨.torn, 0, 0, 0, 0xFFFF⟩)], sp.scrubFail := [(7, k)] }
def w05f (x : FarDev) : State := { laid with sp.far := [(3, x)] }
def w05g : State := w05f { far0 with removing := true }
def w05h : State := w05f { far0 with admitted := false }
def w05i : State := w05f { far0 with walking := true }
def dPark5 : BitVec 512 := desc [(16, 3), (24, 1), (32, 5), (40, hostA 0x2000)]
def mov05 : Move := { move0 0 with dir := .out, tier := 5, cmd := some (0, dPark5), persist := some 77, asked := some 0 }
def w05j : State := { withSess (movingS .out) with ht.moves := [mov05] }
def w05k : State := { w05j with span := 10000000000000 }
def w05l : State := { w05 with regs := [(regOff .HT_PFX_CFG 0 0 0, 1)], pfx.member := [(0, 1)] }
def dLook : BitVec 512 := desc [(16, 0x20), (32, hostA 0x4000), (40, 1), (56, hostA 0x5000)]
def v05l : State := ctr .HT_PFX_LOOKUP_CNT 0 (seen 32 w05l)
def blk05 : Blk := ⟨1, false, 0, 100, false, none, none, [0]⟩
def sess05 : Slot := { sess0 with tokens := 128, blks := [blk05] }
def w05m : State := { w05l with ht.slots := [(0, sess05)], ht.slotNext := [(0, 1)], ht.pages := [(100, ⟨.allocated, 0, 0, 1, 0⟩)] }
def dPub : BitVec 512 := desc [(16, 0x21), (24, 1), (32, hostA 0x4000), (40, 1), (56, hostA 0x5000)]
def acc05 : PubAcc := (List.range 1).foldl (pubChunk 0 0 0 0 (hostA 0x4000)) { s := seen 33 w05m, x := sess05, prev := 0, parent := 0, adopted := 0, inserted := 0, hit := false, ok := true }
def dDrop : BitVec 512 := desc [(16, 0x22), (24, 1)]

/-- CopyAndZeroMoveTheirTiles: what meets the hypotheses of its clauses, in order. -/
theorem wit_CopyAndZeroMoveTheirTiles :
    ((16 = 16 ∨ 16 = 17) ∧ AtUnit 16 0 dCopy 0 w05 ∧ bit (rg w05 RegId.SP_CTL) 0 = false ∧ copyOk dCopy = true ∧ copyCheck w05
      (unitReq 112 0) dCopy = okV ∧ (sDstTier dCopy = 1 ∧ ((openCopies w05).any fun x => overlaps (sDst dCopy) (sLen dCopy)
      x.fst x.snd) = true → False) ∧ dSealed dCopy = false ∧ sDstTier dCopy ≤ 2 ∧ (16 = 16 → sSrcTier dCopy ≤ 2) ∧ engFree w05 4
      (spliceEngines w05) = some 0) ∧
    (jobOf w05b 0 dCopy = some job05 ∧ job05.pend = [0] ∧ dOp dCopy = 16 ∧ copyOk dCopy = true ∧ dSealed dCopy = false ∧
      sSrcTier dCopy ≤ 2 ∧ sDstTier dCopy ≤ 2 ∧ copySeals dCopy = false ∧ sXform dCopy = 0 ∧ poisoned w05b (sSrc dCopy + 0 *
      tileBytes) (min tileBytes (sLen dCopy - 0 * tileBytes)) = false ∧ 0 < tileCount (sLen dCopy) ∧ job05.eng < 34 ∧ (ringOf
      w05b (cqOf w05b 0)).held = []) :=
  ⟨⟨by decide +kernel, ⟨by decide, rfl, rfl⟩, by decide +kernel, by decide +kernel, by decide +kernel, by decide +kernel,
     by decide +kernel, by decide +kernel, by decide +kernel, by decide +kernel⟩,
   by decide +kernel⟩

/-- SwapPoolAndTornPages: what meets the hypotheses of its clauses, in order. -/
theorem wit_SwapPoolAndTornPages :
    (AtUnit 18 0 dSwap 0 w05c ∧ bit (rg w05c RegId.SP_CTL) 0 = false ∧ fld dSwap 44 20 = 0 ∧ fld dSwap 17 3 = 0 ∧ sDst dSwap = 0
      ∧ sDeadline dSwap = 0 ∧ sSrc dSwap < 2 ^ 48 ∧ inCheck w05c (unitReq 112 0) (sSrc dSwap) (16 + 16 * sLen dSwap) = okV ∧
      extentList w05c (sSrc dSwap) 4 = some (false, 0, [(1, 1)]) ∧ [(1, 1)].length = sLen dSwap) ∧
    (jobOf w05d 0 dFar = some job05f ∧ job05f.ring = 0 ∧ job05f.desc = dFar ∧ sDstTier dFar = 2 ∧ job05f.pend.contains 0 = true
      ∧ (true = true ∨ job05f.since + 1000 * rg w05d RegId.SP_T2_WR_TMO ≤ now w05d)) ∧
    ((pageOf (w05e 0) 7).st = PgSt.torn) ∧
    ((pageOf (w05e 2) 7).st = PgSt.torn ∧ ngetD (w05e 2).sp.scrubFail 7 0 = 2) ∧
    ((pageOf (w05e 1) 7).st = PgSt.torn ∧ ngetD (w05e 1).sp.scrubFail 7 0 < 2) :=
  ⟨⟨⟨by decide, rfl, rfl⟩, by decide +kernel, by decide +kernel, by decide +kernel, by decide +kernel, by decide +kernel,
     by decide +kernel, by decide +kernel, by decide +kernel, by decide +kernel⟩,
   by decide +kernel,
   by decide +kernel,
   by decide +kernel,
   by decide +kernel⟩

/-- FarMemoryIsEvictedAndAdmitted: what meets the hypotheses of its clauses, in order. -/
theorem wit_FarMemoryIsEvictedAndAdmitted :
    (Allowed Req.pf0 RegId.SP_T2_CTL 3 (w05f far0) ∧ (farOf (w05f far0) 3).admitted = true ∧ farSlots (w05f far0) 3 = []) ∧
    ((farOf w05g 3).removing = true ∧ farSlots w05g 3 = [] ∧ (w05g.ht.moves.any fun m => m.tier == 2 && m.dev == 3) = false) ∧
    (Allowed Req.pf0 RegId.SP_T2_CTL 3 w05h ∧ (farOf w05h 3).present = true ∧ (farOf w05h 3).admitted = false ∧ (farOf w05h
      3).walking = false ∧ (farOf w05h 3).removing = false ∧ (List.any w05h.ht.pages fun e => e.snd.st == PgSt.retired) = false
      ∧ 0 < (farOf w05h 3).pages) ∧
    (Allowed Req.pf0 RegId.SP_T2_CTL 3 laid ∧ (farOf laid 3).present = false) ∧
    ((farOf w05i 3).walking = true ∧ w05i = List.foldl (fun s k => faultSlot k 1 false s) w05i (List.map (fun x => x.fst)
      (List.filter (fun e => e.snd.st != SlotSt.free && e.snd.st != SlotSt.faulted && e.snd.blks.any (onFar 3)) w05i.ht.slots))) :=
  ⟨by decide +kernel,
   by decide +kernel,
   by decide +kernel,
   by decide +kernel,
   by decide +kernel⟩

/-- PersistenceCommitsOrAbandonsAMove: what meets the hypotheses of its clauses, in order. -/
theorem wit_PersistenceCommitsOrAbandonsAMove :
    (Allowed Req.pf0 RegId.SP_PART_PERSIST_ACK_HI 0 w05j ∧ w05j.ht.moves = [mov05] ∧ mov05.asked.isSome = true ∧ mov05.persist =
      some 77 ∧ mov05.pend = [] ∧ mov05.dir = MvDir.out ∧ mov05.tier = 5 ∧ mov05.why = MvWhy.command ∧ mov05.cmd = some (0,
      dPark5) ∧ mov05.also = [] ∧ (slotOf w05j mov05.slot).part = 0) ∧
    (moveOf w05k 0 = some mov05 ∧ mov05.slot = 0 ∧ mov05.asked = some 0 ∧ 0 + 1000000 * rg w05k RegId.SP_PART_PERSIST_TMO
      (slotOf w05k 0).part ≤ now w05k ∧ mov05.cmd = some (0, dPark5) ∧ mov05.also = []) :=
  ⟨by decide +kernel,
   by decide +kernel⟩

/-- ThePrefixTree: what meets the hypotheses of its clauses, in order. -/
theorem wit_ThePrefixTree :
    (AtHitch 32 0 dLook 0 w05l (seen 32 w05l) ∧ v05l = ctr Ct.HT_PFX_LOOKUP_CNT 0 (seen 32 w05l) ∧ xClean dLook = true ∧ xTarget
      dLook = 0 ∧ 1 ≤ xCount dLook ∧ xCount dLook ≤ 1048576 ∧ pfxOn v05l 0 = true ∧ acctHeld v05l 0 (xAccount dLook) = true ∧
      memberOf v05l (xAccount dLook) (xGroup dLook) = true ∧ inCheck v05l (hitchReq v05l 0) (xTokens dLook) (512 * xCount dLook)
      = okV ∧ longestPath 0 (xGroup dLook) (xContext dLook) (xTokens dLook) (xCount dLook) 0 0 0 v05l = ([], v05l) ∧ anyCheck
      v05l (hitchReq v05l 0) Acc.wr (xResult dLook) 64 = okV ∧ (ringOf w05l (cqOf w05l 0)).held = []) ∧
    (AtHitch 33 0 dPub 0 w05m (seen 33 w05m) ∧ xClean dPub = true ∧ xAccount dPub = 0 ∧ 1 ≤ xCount dPub ∧ xCount dPub ≤ 1048576
      ∧ pfxOn (seen 33 w05m) 0 = true ∧ Names (xTarget dPub) 0 false 0 sess05 (seen 33 w05m) ∧ sess05.frozen = false ∧
      (sess05.st = SlotSt.active ∨ sess05.st = SlotSt.parkedHot) ∧ memberOf (seen 33 w05m) sess05.acct (xGroup dPub) = true ∧
      sess05.chunks = 0 ∧ inCheck (seen 33 w05m) (hitchReq (seen 33 w05m) 0) (xTokens dPub) (512 * xCount dPub) = okV ∧
      (List.range (xCount dPub)).all (eligible (seen 33 w05m) sess05) = true ∧ (1, 1) = pubNeed (seen 33 w05m) sess05 0 (xGroup
      dPub) (xContext dPub) (xTokens dPub) (xCount dPub) 0 0 0 ∧ evictNodes 0 (1, 1).fst (1, 1).snd (treeNodes (seen 33 w05m)
      0).length (seen 33 w05m) = some (seen 33 w05m) ∧ acc05 = List.foldl (pubChunk 0 0 (xGroup dPub) (xContext dPub) (xTokens
      dPub)) { s := seen 33 w05m, x := sess05, prev := 0, parent := 0, adopted := 0, inserted := 0, hit := false, ok := true }
      (List.range (xCount dPub)) ∧ acc05.ok = true ∧ anyCheck acc05.s (hitchReq acc05.s 0) Acc.wr (xResult dPub) 64 = okV) ∧
    (AtHitch 34 0 dDrop 0 w03n (seen 34 w03n) ∧ xClean dDrop = true ∧ xGroup dDrop = 0 ∧ xAccount dDrop = 0 ∧ xTokens dDrop = 0
      ∧ xCount dDrop = 0 ∧ xContext dDrop = 0 ∧ xResult dDrop = 0 ∧ nodeOf (seen 34 w03n) 0 (xTarget dDrop) ≠ none) ∧
    (Allowed Req.pf0 RegId.HT_PFX_REKEY 0 laid) :=
  ⟨⟨⟨⟨by decide, by decide, by decide⟩, by decide, rfl⟩, by decide +kernel, by decide +kernel, by decide +kernel,
     by decide +kernel, by decide +kernel, by decide +kernel, by decide +kernel, by decide +kernel, by decide +kernel,
     by decide +kernel, by decide +kernel, by decide +kernel⟩,
   ⟨⟨⟨by decide, by decide, by decide⟩, by decide, rfl⟩, by decide +kernel, by decide +kernel, by decide +kernel,
     by decide +kernel, by decide +kernel, ⟨by decide, rfl, rfl⟩, by decide +kernel, by decide +kernel, by decide +kernel,
     by decide +kernel, by decide +kernel, by decide +kernel, by decide +kernel, by decide +kernel, rfl, by decide +kernel,
     by decide +kernel⟩,
   ⟨⟨⟨by decide, by decide, by decide⟩, by decide, rfl⟩, by decide +kernel, by decide +kernel, by decide +kernel,
     by decide +kernel, by decide +kernel, by decide +kernel, by decide +kernel, by decide +kernel⟩,
   by decide +kernel⟩

def hbmAx6 : NMap W32 := axAll [0x00, 0x30, 0x50, 0x70, 0x90, 0xA0, 0xA3]
def w06 : State := { withSess sess0 with lay.img.ax := hbmAx6, engs := [(6144, eng0 .enabled 0)] }
def dAtt6 : BitVec 512 := desc [(16, 0x30), (19, 1), (20, 1), (24, 1), (32, 0x300000), (40, 0x310000), (48, 0x3F800000), (58, 1)]
def st06 : Step := { step0 (aStep dAtt6) with deadline := none }
def w06r : State := { w06 with ht.runs := [(0, [(64, 64)])] }
def u06b : State := commitSlot 0 { sess0 with st := .stepping, step := some st06, revived := false, stepAt := none }
  (ctr .HT_STEP_ADMIT_CNT 0 (putSlot 0 { sess0 with revived := false } w06r))
def v06 : State := (stageRows 0 dAtt6 0 [0xFFFF] (newKv u06b dAtt6 pol0).1 (newKv u06b dAtt6 pol0).2 0 u06b).getD bare
def st06v : Step := (slotOf v06 0).step.getD st06
def areq06 (x : AqSt) : AReq := ⟨0, dAtt6, 0, 0, x, [0], [1, 2], 0, 0⟩
def w06c (x : AqSt) : State := { w06 with la.reqs := [areq06 x] }
def w06d : State := { w06c .running with regs := [(regOff .LG_PREEMPT_CTL 0 0 0, 1)] }
def w06d0 : State := { w06c .running with regs := [(regOff .LG_PREEMPT_CTL 0 0 0, 0)] }
def w06e : State := { w06c .preempted with la.spills := [⟨0, dAtt6, 0, 0, true, 1⟩] }
def tab06 : List Host.Cell := [(0x300000, 9), (0x300002, 2), (0x300009, 4), (0x300020, 1), (0x300022, 1), (0x300023, 4),
  (0x300040, 1), (0x300046, 1), (0x300048, 1), (0x30004E, 2)]
def spnRegs : NMap W32 := [(regOff .LG_SPN_TABLE_LO 0 0 0, 0x300000), (regOff .LG_SPN_BUF_SIZE 0 0 0, 64)]
def sessH1 : Slot := { sess0 with home := 1 }
def w06f : State :=
  { withSess sessH1 with lay.img.ax := hbmAx6, mem := tab06, hf.idValid := true, hf.devId := 1, hf.time.locked := true, regs := spnRegs }
def ctx06 (st : Nat) : SpnCtx :=
  { spn0 with st := st, n := 2, ringId := 9, table := [2 ^ 48 + 1, 2 ^ 49 + 1], period := 1024, digest := 77, dPred := some 77 }
def cand06 : SpnCtx := (readTable w06f 0).getD spn0
def w06g (x : SpnCtx) : State := { w06f with spn := [(0, x)] }
def ctx3 (st : Nat) : SpnCtx := { ctx06 st with n := 3, table := [2 ^ 48 + 1, 2 ^ 49 + 1, 3 * 2 ^ 48 + 1] }
def w06h (x : SpnCtx) : State := { w06g x with span := 10000000000 }
def dGath : BitVec 512 := desc [(16, 0x30), (19, 1), (20, 1), (24, 2 ^ 48 + 1), (32, 0x300000), (40, 0x310000), (48, 0x3F800000), (58, 1)]
def sreq06 : SpnReq := ⟨0, 1, dGath, 0, 200, [0xFFFF], [], [], [1, 2], 0, 0⟩
def ctx06q : SpnCtx := { ctx3 2 with reqs := [sreq06] }
def sessHs : Slot := { sessH1 with st := .stepping, step := some (step0 1) }
def w06i (x : SpnCtx) : State := { w06g x with ht.slots := [(0, sessHs)] }
def ctx06t : SpnCtx := { ctx06 2 with rank := 1 }
def dFill : BitVec 512 := desc [(16, 0x31), (19, 6), (20, 1), (24, 2 ^ 48 + 1), (32, 0x300000), (40, 0x310000), (48, 0x3F800000), (56, 1)]
def w06j : State := { w06g (ctx06 2) with ht.runs := [(0, [(64, 64)])] }
def u06j : State := ctr .LG_SPN_FILL_CNT 0 w06j
def v06j : State := (fillEncode 0 dFill (ctx06 2) u06j).getD bare
def fill06 : FillReq := ⟨0, dFill, [], [], true, 0⟩
def ctx06f : SpnCtx := { ctx06 2 with fills := [fill06] }
def shard06 : SpnCtx := { ctx06 2 with held := [(0, 0, 0)] }
def shard06t : SpnCtx := { shard06 with rank := 1 }
def sreqHome : SpnReq := { sreq06 with need := [1] }
def w06k : State := { w06i { ctx06 2 with reqs := [sreqHome] } with span := 100000000000 }
def cand06f : SpnCtx :=
  { cand06 with rank := 0, slot := hSlot (cand06.table.getD 0 0), formAt := now w06f, predAt := now w06f, succAt := now w06f }

/-- AttendStagesFoldsAndAnswers: what meets the hypotheses of its clauses, in order. -/
theorem wit_AttendStagesFoldsAndAnswers :
    (AtUnit 48 0 dAtt6 0 w06r ∧ bit (rg w06r RegId.LA_CTL) 0 = false ∧ Names (aHandle dAtt6) 0 false 0 sess0 w06r ∧ memberCtx
      w06r 0 = none ∧ sess0.st = SlotSt.active ∧ sess0.frozen = false ∧ stepEnded sess0 (aStep dAtt6) = false ∧ st06 = { step0
      (aStep dAtt6) with deadline := if pDeadline sess0.policy = 0 then none else some (now w06r + 1000 * pDeadline
      sess0.policy) } ∧ u06b = commitSlot 0
      { sess0 with st := SlotSt.stepping, step := some st06, revived := false, stepAt := none } (ctr Ct.HT_STEP_ADMIT_CNT 0
      (putSlot 0 { sess0 with revived := false } w06r)) ∧ attendOk dAtt6 sess0.policy = true ∧ (aVerify dAtt6 = true →
      genOpenNow w06r 0 = true) ∧ attendReach u06b (latheReq u06b 0) dAtt6 sess0.policy = okV ∧ [65535] = reqParents u06b dAtt6
      sess0.policy ∧ stageOk dAtt6 sess0.policy st06 [65535] sess0.tokens = true ∧ newKv u06b dAtt6 pol0 = newKv u06b dAtt6
      sess0.policy ∧ stageRows 0 dAtt6 0 [65535] (newKv u06b dAtt6 pol0).fst (newKv u06b dAtt6 pol0).snd sess0.tokens u06b =
      some v06 ∧ plainView (slotOf u06b 0) = plainView (slotOf u06b 0) ∧ (slotOf v06 0).step = some st06v ∧ aRowsOf dAtt6 0
      (stagedPar st06v 0) 0 1 = aRowsOf dAtt6 sess0.tokens (stagedPar st06v (aLayer dAtt6)) (aBase dAtt6) (aRows dAtt6) ∧
      poisonedEntry v06 (plainView (slotOf u06b 0)) (aLayer dAtt6) (aRowsOf dAtt6 0 (stagedPar st06v 0) 0 1) (unitsOf (plainView
      (slotOf u06b 0)) (aRowsOf dAtt6 0 (stagedPar st06v 0) 0 1) 0 (2 ^ 32)) = none ∧ enginesFor v06 sess0.part (diesOf v06
      (plainView (slotOf u06b 0)) st06v (aLayer dAtt6) (unitsOf (plainView (slotOf u06b 0)) (aRowsOf dAtt6 0 (stagedPar st06v 0)
      0 1) 0 (2 ^ 32))) = some [0]) ∧
    (areqOf (w06c AqSt.running) 0 dAtt6 = some (areq06 AqSt.running) ∧ (areq06 AqSt.running).st = AqSt.running ∧ dOp dAtt6 ≠ 98
      ∧ (∀ (e : Nat), e ∈ (areq06 AqSt.running).engs → e < 272) ∧ dSealed dAtt6 = false ∧ aOut dAtt6 < 2 ^ 64 ∧ (ringOf (w06c
      AqSt.running) (cqOf (w06c AqSt.running) 0)).held = []) :=
  ⟨⟨⟨by decide, rfl, rfl⟩, by decide +kernel, ⟨by decide, rfl, rfl⟩, by decide +kernel, by decide +kernel, by decide +kernel,
     by decide +kernel, by decide +kernel, by decide +kernel, by decide +kernel, by decide +kernel, by decide +kernel,
     by decide +kernel, by decide +kernel, by decide +kernel, by decide +kernel, rfl, by decide +kernel, rfl, by decide +kernel,
     by decide +kernel⟩,
   by decide +kernel⟩

/-- PreemptedRequestsSpillAndResume: what meets the hypotheses of its clauses, in order. -/
theorem wit_PreemptedRequestsSpillAndResume :
    (bit (rg w06d RegId.LG_PREEMPT_CTL) 0 = true ∧ w06d.la.reqs = [areq06 AqSt.running] ∧ (areq06 AqSt.running).st =
      AqSt.running ∧ ((areq06 AqSt.running).engs.any fun e => engGroup e == 0) = true) ∧
    (bit (rg w06d0 RegId.LG_PREEMPT_CTL) 0 = false) ∧
    (areqOf w06e 0 dAtt6 = some (areq06 AqSt.preempted) ∧ (areq06 AqSt.preempted).ring = 0 ∧ (areq06 AqSt.preempted).desc =
      dAtt6 ∧ (areq06 AqSt.preempted).st = AqSt.preempted ∧ ungranted w06e 0 dAtt6 = false ∧ enginesFor w06e (areq06
      AqSt.preempted).part (List.map (fun x => x / 4) (List.map (fun x => x.group) (List.filter (fun x => x.ring == 0 && x.desc
      == dAtt6) w06e.la.spills))).eraseDups = some [0]) :=
  ⟨by decide +kernel,
   by decide +kernel,
   by decide +kernel⟩

/-- SpindleContextsFormAndFall: what meets the hypotheses of its clauses, in order. -/
theorem wit_SpindleContextsFormAndFall :
    (Allowed Req.pf0 RegId.LG_SPN_CTL 0 w06f ∧ (ctxOf w06f 0).st = 0 ∧ inCheck w06f (spnReq w06f 0) (spnTable w06f 0) 64 = okV ∧
      readTable w06f 0 = some cand06 ∧ inCheck w06f (spnReq w06f 0) (spnTable w06f 0) (64 + 8 * cand06.n) = okV ∧ myRank w06f 0
      cand06.table = some 0 ∧ ((slotOf w06f (hSlot (cand06.table.getD 0 0))).st = SlotSt.active ∨ (slotOf w06f (hSlot
      (cand06.table.getD 0 0))).st = SlotSt.parkedHot) ∧ slotIn w06f (hPart (cand06.table.getD 0 0)) (hSlot (cand06.table.getD 0
      0)) = true ∧ (slotOf w06f (hSlot (cand06.table.getD 0 0))).gen = hGen (cand06.table.getD 0 0) ∧ rdNat w06f (spnTable w06f
      0 + 32) 12 = (slotOf w06f (hSlot (cand06.table.getD 0 0))).policy.toNat % 2 ^ 96 ∧ rankUnits cand06 ≤ 67108864 / pLayers
      (slotOf w06f (hSlot (cand06.table.getD 0 0))).policy ∧ bufOk w06f 0 cand06f (slotOf w06f (hSlot (cand06.table.getD 0
      0))).policy = true ∧ hfMember w06f = true ∧ isConf w06f (spnPart w06f 0) = false) ∧
    (ringCtx (w06g (ctx3 1)) 9 = some (0, ctx3 1) ∧ ctxOf (w06g (ctx3 1)) 0 = ctx3 1 ∧ (ctx3 1).st = 1 ∧ devOf (ctx3 1)
      (predRank (ctx3 1)) ≠ 2 ∧ devOf (ctx3 1) (succRank (ctx3 1)) = 2 ∧ (ctx3 1).dPred = some (ctx3 1).digest ∧ 77 = (ctx3
      1).digest) ∧
    (Allowed Req.pf0 RegId.LG_SPN_CTL 0 (w06g (ctx06 2)) ∧ (ctxOf (w06g (ctx06 2)) 0).reqs = [] ∧ (ctxOf (w06g (ctx06 2))
      0).fills = [] ∧ (ctxOf (w06g (ctx06 2)) 0).st = 2) ∧
    (Allowed Req.pf0 RegId.LG_SPN_CTL 0 (w06g (ctx06 1)) ∧ (ctxOf (w06g (ctx06 1)) 0).reqs = [] ∧ (ctxOf (w06g (ctx06 1))
      0).fills = [] ∧ (ctxOf (w06g (ctx06 1)) 0).st ≠ 0) ∧
    ((ctxOf (w06h (ctx06 1)) 0).st = 1 ∧ (ctxOf (w06h (ctx06 1)) 0).formAt + 1000 * rg (w06h (ctx06 1)) RegId.LG_SPN_FORM_TMO ≤
      now (w06h (ctx06 1))) ∧
    ((ctxOf (w06h (ctx06 2)) 0).st = 2 ∧ (if true = true then (ctxOf (w06h (ctx06 2)) 0).predAt else (ctxOf (w06h (ctx06 2))
      0).succAt) + 20000 ≤ now (w06h (ctx06 2)) ∧ (ctxOf (w06h (ctx06 2)) 0).reqs = [] ∧ (ctxOf (w06h (ctx06 2)) 0).fills = []) ∧
    (ringCtx (w06g (ctx06 2)) 9 = some (0, ctx06 2) ∧ ctxOf (w06g (ctx06 2)) 0 = ctx06 2 ∧ (ctx06 2).reqs = [] ∧ (ctx06 2).fills
      = []) :=
  ⟨by decide +kernel,
   by decide +kernel,
   by decide +kernel,
   by decide +kernel,
   by decide +kernel,
   by decide +kernel,
   by decide +kernel⟩

/-- SpindleRingsGatherAndRotate: what meets the hypotheses of its clauses, in order. -/
theorem wit_SpindleRingsGatherAndRotate :
    (ringCtx (w06g (ctx06 2)) 9 = some (0, ctx06 2) ∧ treeKids (ctx06 2) (aRowsOf dGath 200 [65535] (aBase dGath) (aRows dGath))
      200 ≠ [] ∧ ((ctx06 2).reqs.any fun y => y.layer == 0 && y.step == 1 && y.desc == dGath) = false) ∧
    (ringCtx (w06g ctx06q) 9 = some (0, ctx06q) ∧ ctxOf (w06g ctx06q) 0 = ctx06q ∧ ctx06q.reqs = [sreq06] ∧ sreq06.layer = 0 ∧
      sreq06.step = 1 ∧ sreq06.need = [1, 2] ∧ 2 ≠ 1) ∧
    (ringCtx (w06i (ctx06 2)) 9 = some (0, ctx06 2) ∧ (slotOf (w06i (ctx06 2)) (ctx06 2).slot).step = some (step0 1) ∧ (step0
      1).serial = 1) ∧
    (ringCtx (w06i ctx06t) 9 = some (0, ctx06t) ∧ (slotOf (w06i ctx06t) ctx06t.slot).step = some (step0 1) ∧ (step0 1).serial =
      1 ∧ ctx06t.rank ≠ 0) ∧
    (AtUnit 49 0 dFill 0 w06j ∧ bit (rg w06j RegId.LA_CTL) 0 = false ∧ Names (aHandle dFill) 0 false 0 sessH1 w06j ∧ sessH1.st ≠
      SlotSt.faulted ∧ sessH1.st ≠ SlotSt.evacuated ∧ sessH1.frozen = false ∧ memberCtx w06j 0 = some (0, ctx06 2) ∧ ctxOf w06j
      0 = ctx06 2 ∧ (ctx06 2).st = 2 ∧ (ctx06 2).disarm = false ∧ attendForm dFill sessH1.policy = true ∧ fld dFill 17 1 = 0 ∧ 6
      ≤ fLog dFill ∧ fLog dFill ≤ 16 ∧ fld dFill 62 2 = 0 ∧ (passRows (ctx06 2) dFill).snd ≠ 0 ∧ (ctx06 2).rank = 0 ∧
      sessH1.tokens = 0 ∧ passFits w06j 0 (ctx06 2) dFill sessH1.policy = true ∧ fillOp.attendReachFill w06j (latheReq w06j 0)
      dFill sessH1.policy (ctx06 2) = okV ∧ u06j = ctr Ct.LG_SPN_FILL_CNT 0 w06j ∧ (if fPass dFill = 0 then fillEncode 0 dFill
      (ctx06 2) u06j else some u06j) = some v06j) ∧
    ((ctxOf (w06g ctx06f) 0).fills.getLast? = some fill06 ∧ (ctxOf (w06g ctx06f) 0).rank = 0 ∧ ((ctxOf (w06g ctx06f)
      0).fills.all fun x => x.done) = true ∧ (ctxOf (w06g ctx06f) 0).disarm = false) ∧
    ((ctxOf (w06g shard06) 0).st = 2 ∧ (ctxOf (w06g shard06) 0).period ≠ 0 ∧ (ctxOf (w06g shard06) 0).t0 ≤ now (w06g shard06) ∧
      (now (w06g shard06) - (ctxOf (w06g shard06) 0).t0) % (ctxOf (w06g shard06) 0).period = 0 ∧ (ctxOf (w06g shard06) 0).held =
      [(0, 0, 0)] ∧ succRank (ctxOf (w06g shard06) 0) ≠ 0 ∧ (ctxOf (w06g shard06) 0).sent < 2) ∧
    ((ctxOf (w06g shard06t) 0).st = 2 ∧ (ctxOf (w06g shard06t) 0).period ≠ 0 ∧ (ctxOf (w06g shard06t) 0).t0 ≤ now (w06g
      shard06t) ∧ (now (w06g shard06t) - (ctxOf (w06g shard06t) 0).t0) % (ctxOf (w06g shard06t) 0).period = 0 ∧ (ctxOf (w06g
      shard06t) 0).held = [(0, 0, 0)] ∧ succRank (ctxOf (w06g shard06t) 0) = 0) ∧
    ((ctxOf w06k 0).reqs = [sreqHome] ∧ (ctxOf w06k 0).fills = [] ∧ (ctxOf w06k 0).rank = 0 ∧ sreqHome.since + 1000 * rg w06k
      RegId.LG_SPN_STALL_TMO ≤ now w06k ∧ sreqHome.ring = 0 ∧ (slotOf w06k (ctxOf w06k 0).slot).step = some (step0 1)) :=
  ⟨by decide +kernel,
   by decide +kernel,
   by decide +kernel,
   by decide +kernel,
   ⟨⟨by decide, rfl, rfl⟩, by decide +kernel, ⟨by decide, rfl, rfl⟩, by decide +kernel, by decide +kernel, by decide +kernel,
     by decide +kernel, by decide +kernel, by decide +kernel, by decide +kernel, by decide +kernel, by decide +kernel,
     by decide +kernel, by decide +kernel, by decide +kernel, by decide +kernel, by decide +kernel, by decide +kernel,
     by decide +kernel, by decide +kernel, by decide +kernel, by decide +kernel⟩,
   by decide +kernel,
   by decide +kernel,
   by decide +kernel,
   by decide +kernel⟩

def vocS (x : ImgSt) : ImgSlot :=
  { st := x, pages := 2, copies := [(0, [32, 33])], len := 273, digest := leBytes 48 vocDg, entries := 1, vocab := 0, owner := 0, cmd := none, failed := false }
def dTok : BitVec 512 := desc [(16, 0x40), (20, 1), (24, 0x300000), (32, 0x310000), (40, 1), (56, 0x320000)]
def w07 : State :=
  { laid with lay.img.ax := hbmAx6, mem := cells 0x200000 vocImg, wh.voc := [(0, vocS .ready)],
              engs := [(4096, eng0 .enabled 0), (9216, eng0 .enabled 0), (10240, eng0 .enabled 0), (11264, eng0 .enabled 0)] }
def voc07 : Voc := (parseVoc (copyBytes w07 (vocOf w07 0) 0)).getD ⟨0, 0, false, false, false, 0, 0, 0, 0, []⟩
def u07 : State := ctr .WH_TOK_CMD_CNT 0 (ctrAdd .WH_TOK_IN_BYTES 0 0 0 (ctrAdd .WH_ILLFORMED_IN_CNT 0 0 0 (ctrAdd .WH_CONTROL_TEXT_CNT 0 0 0 w07)))
def seg07 : Segm := ⟨0, 0, false, false⟩
def dDet : BitVec 512 := desc [(16, 0x41), (18, 1), (20, 1), (24, 0x300000), (32, 0x310000), (40, 64), (56, 0x320000)]
def rec07 : SRec := srecNew dDet
def run07 : List (Byte × Bool) × SRec × List Nat := detokRun voc07 64 [0] [] { rec07 with opened := true }
def chunk07 : Chunk := ⟨[1], some (leBytes 64 1), true⟩
def strm07 : Strm := ⟨0x330000, 2, 0, 0, 0, [], [chunk07], false⟩
def w07s : State := { w07 with wh.streams := [(0, strm07)] }
def dVl : BitVec 512 := desc [(16, 0x42), (18, 4), (20, 273), (24, 0x9000)]
def w07a : State := { w07 with hmem := cells 0x9000 vocImg, wh.voc := [] }
def dGl : BitVec 512 := desc [(16, 0x53), (18, 4), (24, 0x9000), (32, 384)]
def w07b : State := { w07 with hmem := cells 0x9000 gramImg }
def vocL (f : Bool) : ImgSlot := { vocS .loading with cmd := some (0, dVl), failed := f }
def w07c (x : ImgSlot) : State := { w07 with wh.voc := [(0, x)] }
def gramS (x : ImgSt) (f : Bool) : ImgSlot :=
  { st := x, pages := 1, copies := [(0, [34])], len := 384, digest := [], entries := 1, vocab := 0, owner := 0, cmd := some (0, dGl), failed := f }
def w07d (x : ImgSlot) : State := { w07 with mem := cells 0x220000 gramImg, bt.gram := [(0, x)] }
def vocBad : ImgSlot := { vocS .verifying with failed := true }
def dVu : BitVec 512 := desc [(16, 0x43)]
def dGu : BitVec 512 := desc [(16, 0x54)]
def gen07 : Gen := ⟨0, 0, 0, 1, 0, 0, bytesOf 256 [(2, 0x80)], [], [], 0, [], 0, 1, false, none, none, false, 0⟩
def w07g : State := { w07d (gramS .ready false) with bt.gens := [(0, gen07)] }

/-- TextIsTokenizedDetokenizedAndStreamed: what meets the hypotheses of its clauses, in order. -/
theorem wit_TextIsTokenizedDetokenizedAndStreamed :
    (AtUnit 64 0 dTok 0 w07 ∧ bit (rg w07 RegId.WH_CTL) 0 = false ∧ tokForm dTok = true ∧ fld dTok 17 1 < 16 ∧ fld dTok 48 8 = 0
      ∧ dSealed dTok = false ∧ vocBound w07 0 (fld dTok 17 1) = some (⟨0, 1, 64⟩ : VocPlan) ∧ (vocOf w07 (fld dTok 17 1)).st =
      ImgSt.ready ∧ textOn w07 0 9 (dieBits (⟨0, 1, 64⟩ : VocPlan).dies) = some (0, 0) ∧ copyPoison w07 (vocOf w07 (fld dTok 17
      1)) 0 = false ∧ parseVoc (copyBytes w07 (vocOf w07 (fld dTok 17 1)) 0) = some voc07 ∧ whReq 0 0 = whReq 0 0 ∧ readPlain
      (whReq 0 0) (fld dTok 24 8) (16 * fld dTok 20 4) w07 = (okV, List.replicate 16 0, w07) ∧ [seg07] = List.map segmOf
      (List.map (fun i => List.take 16 (List.drop (16 * i) (List.replicate 16 0))) (List.range (fld dTok 20 4))) ∧ (∀ (i : Nat),
      i < fld dTok 20 4 → segmOk voc07.entries (bit (rg w07 RegId.WH_PART_CFG) 0) (List.take 16 (List.drop (16 * i)
      (List.replicate 16 0))) = true) ∧ 0 = List.foldl (fun x1 x2 => x1 + x2) 0 (List.map (fun x => x.len) (List.filter (fun g
      => !g.literal) [seg07])) ∧ 0 ≤ 16777216 ∧ readSegs dTok (whReq 0 0) 0 [seg07] w07 = (okV, [(seg07, [])], w07) ∧ (([], 0,
      0) : List Tok × Nat × Nat) = segAll voc07 (bit (fld dTok 18 1) 3) true 0 [(seg07, [])] ∧ 0 = (if bits (fld dTok 18 1) 2 1
      = 0 then 0 else (([], 0, 0) : List Tok × Nat × Nat).snd.fst) ∧ (bits (fld dTok 18 1) 2 1 = 2 → 0 = 0) ∧ 1 = fld dTok 40 4
      ∧ (([], 0, 0) : List Tok × Nat × Nat).fst.length ≤ 1 ∧ u07 = ctr Ct.WH_TOK_CMD_CNT 0 (ctrAdd Ct.WH_TOK_IN_BYTES 0 0 0
      (ctrAdd Ct.WH_ILLFORMED_IN_CNT 0 0 (([], 0, 0) : List Tok × Nat × Nat).snd.snd (ctrAdd Ct.WH_CONTROL_TEXT_CNT 0 0 0 w07)))
      ∧ u07 = (if 0 < 0 then evt Ev.CONTROL_TEXT_FOUND (whReq 0 0) 0 u07 else u07) ∧ outCheck u07 (whReq 0 0) (fld dTok 32 8)
      (if bit (fld dTok 18 1) 0 = true then 4 * 1 + 4 * (([], 0, 0) : List Tok × Nat × Nat).fst.length else 4 * (([], 0, 0) :
      List Tok × Nat × Nat).fst.length) = okV ∧ outCheck u07 (whReq 0 0) (fld dTok 56 8) 32 = okV ∧ (ringOf w07 (cqOf w07
      0)).held = []) ∧
    (AtUnit 65 0 dDet 0 w07 ∧ bit (rg w07 RegId.WH_CTL) 0 = false ∧ detokForm dDet = true ∧ fld dDet 17 1 < 16 ∧ fld dDet 48 8 =
      0 ∧ dSealed dDet = false ∧ vocBound w07 0 (fld dDet 17 1) = some (⟨0, 1, 64⟩ : VocPlan) ∧ (vocOf w07 (fld dDet 17 1)).st =
      ImgSt.ready ∧ textOn w07 0 9 (dieBits (⟨0, 1, 64⟩ : VocPlan).dies) = some (0, 0) ∧ copyPoison w07 (vocOf w07 (fld dDet 17
      1)) 0 = false ∧ parseVoc (copyBytes w07 (vocOf w07 (fld dDet 17 1)) 0) = some voc07 ∧ whReq 0 0 = whReq 0 0 ∧ readPlain
      (whReq 0 0) (fld dDet 24 8) (4 * fld dDet 20 4) w07 = (okV, List.replicate 4 0, w07) ∧ (bit (fld dDet 18 1) 0 = false →
      readPlain (whReq 0 0) (fld dDet 56 8) 64 w07 = (okV, [], w07)) ∧ outCheck w07 (whReq 0 0) (fld dDet 56 8) 64 = okV ∧ rec07
      = (if bit (fld dDet 18 1) 0 = true then srecNew dDet else srecOf []) ∧ rec07.ended = false ∧ run07 = detokRun voc07 (fld
      dDet 40 4) (List.map (fun i => bAt (List.replicate 4 0) (4 * i) 4) (List.range (fld dDet 20 4))) []
      { rec07 with opened := true } ∧ run07.snd.snd = [] ∧ run07.fst = (if bit (fld dDet 18 1) 1 = true then run07.fst ++
      (srecClose voc07 run07.snd.fst).fst else run07.fst) ∧ run07.snd.fst = (if bit (fld dDet 18 1) 1 = true then (srecClose
      voc07 run07.snd.fst).snd else run07.snd.fst) ∧ run07.fst.length ≤ fld dDet 40 4 ∧ outCheck w07 (whReq 0 0) (fld dDet 32 8)
      run07.fst.length = okV ∧ (ringOf w07 (cqOf w07 0)).held = []) ∧
    (nget w07s.wh.streams 0 = some strm07 ∧ strm07.chunks = [chunk07] ∧ chunk07.written = true ∧ chunk07.record = some (leBytes
      64 1)) ∧
    (nget w07s.wh.streams 0 = some strm07 ∧ strm07.chunks = [chunk07] ∧ chunk07.written = true ∧ chunk07.record = some (leBytes
      64 1) ∧ (∀ (k : Chunk), k ∈ [] → k.written = true)) :=
  ⟨⟨⟨by decide, rfl, rfl⟩, by decide +kernel, by decide +kernel, by decide +kernel, by decide +kernel, by decide +kernel,
     by decide +kernel, by decide +kernel, by decide +kernel, by decide +kernel, by decide +kernel, by decide +kernel,
     by decide +kernel, by decide +kernel, by decide +kernel, by decide +kernel, by decide +kernel, by decide +kernel,
     by decide +kernel, by decide +kernel, by decide +kernel, by decide +kernel, by decide +kernel, by decide +kernel,
     by decide +kernel, by decide +kernel, by decide +kernel, by decide +kernel⟩,
   ⟨⟨by decide, rfl, rfl⟩, by decide +kernel, by decide +kernel, by decide +kernel, by decide +kernel, by decide +kernel,
     by decide +kernel, by decide +kernel, by decide +kernel, by decide +kernel, by decide +kernel, by decide +kernel,
     by decide +kernel, by decide +kernel, by decide +kernel, by decide +kernel, by decide +kernel, by decide +kernel,
     by decide +kernel, by decide +kernel, by decide +kernel, by decide +kernel, by decide +kernel, by decide +kernel⟩,
   by decide +kernel,
   by decide +kernel⟩

/-- VocabularyAndGrammarSlotsLoadVerifyAndEmpty: what meets the hypotheses of its clauses, in order. -/
theorem wit_VocabularyAndGrammarSlotsLoadVerifyAndEmpty :
    (AtUnit 66 0 dVl 0 w07a ∧ bit (rg w07a RegId.WH_CTL) 0 = false ∧ 0 = fld dVl 17 1 ∧ 0 < 16 ∧ (fld dVl 18 1 = 1 ∧ 2 ^ 63 +
      36864 = fld dVl 24 8 ∨ fld dVl 18 1 = 4 ∧ 2 ^ 63 + 36864 = 2 ^ 63 + fld dVl 24 8 % 2 ^ 63) ∧ fld dVl 19 1 = 0 ∧ fld dVl 32
      32 = 0 ∧ vocBound w07a 0 0 = some (⟨0, 1, 64⟩ : VocPlan) ∧ (vocOf w07a 0).st = ImgSt.empty ∧ inCheck w07a (spliceReqOf
      w07a 0) (2 ^ 63 + 36864) (fld dVl 20 4) = okV ∧ 256 ≤ fld dVl 20 4 ∧ vocPages (rdBytes w07a (2 ^ 63 + 36864) (fld dVl 20
      4)) ≤ (⟨0, 1, 64⟩ : VocPlan).ceil) ∧
    (AtUnit 83 0 dGl 0 w07b ∧ bit (rg w07b RegId.CL_CTL) 0 = false ∧ 0 = fld dGl 17 1 ∧ 0 < 16 ∧ 0 = fld dGl 19 1 ∧ 0 < 16 ∧
      partPlan w07b 0 = some plan0 ∧ (fld dGl 18 1 = 1 ∧ 2 ^ 63 + 36864 = fld dGl 24 8 ∨ fld dGl 18 1 = 4 ∧ 2 ^ 63 + 36864 = 2 ^
      63 + fld dGl 24 8 % 2 ^ 63) ∧ fld dGl 20 4 = 0 ∧ fld dGl 40 24 = 0 ∧ (vocBound w07b 0 0).isSome = true ∧ (gramOf w07b 0
      0).st = ImgSt.empty ∧ (vocOf w07b 0).st = ImgSt.ready ∧ 256 ≤ fld dGl 32 8 ∧ fld dGl 32 8 ≤ 2 ^ 40 ∧ inCheck w07b
      (spliceReqOf w07b 0) (2 ^ 63 + 36864) (fld dGl 32 8) = okV ∧ 1 = gramPages (rdBytes w07b (2 ^ 63 + 36864) 256) ∧ 1 +
      gramUsed w07b 0 ≤ plan0.gramCeil) ∧
    ((vocOf (w07c (vocL false)) 0).st = ImgSt.loading ∧ (vocOf (w07c (vocL false)) 0).cmd = some (0, dVl) ∧ vocCopiesOk (w07c
      (vocL false)) (vocOf (w07c (vocL false)) 0) = true) ∧
    ((vocOf (w07c (vocL true)) 0).st = ImgSt.loading ∧ (vocOf (w07c (vocL true)) 0).cmd = some (0, dVl) ∧ vocCopiesOk (w07c
      (vocL true)) (vocOf (w07c (vocL true)) 0) = false) ∧
    ((gramOf (w07d (gramS ImgSt.loading false)) 0 0).st = ImgSt.loading ∧ (gramOf (w07d (gramS ImgSt.loading false)) 0 0).cmd =
      some (0, dGl) ∧ gramCopiesOk (w07d (gramS ImgSt.loading false)) (gramOf (w07d (gramS ImgSt.loading false)) 0 0) = true) ∧
    ((gramOf (w07d (gramS ImgSt.loading true)) 0 0).st = ImgSt.loading ∧ (gramOf (w07d (gramS ImgSt.loading true)) 0 0).cmd =
      some (0, dGl) ∧ gramCopiesOk (w07d (gramS ImgSt.loading true)) (gramOf (w07d (gramS ImgSt.loading true)) 0 0) = false) ∧
    ((vocOf (w07c (vocS ImgSt.verifying)) 0).st = ImgSt.verifying ∧ vocCopiesOk (w07c (vocS ImgSt.verifying)) (vocOf (w07c (vocS
      ImgSt.verifying)) 0) = true) ∧
    ((vocOf (w07c vocBad) 0).st = ImgSt.verifying ∧ vocCopiesOk (w07c vocBad) (vocOf (w07c vocBad) 0) = false) ∧
    ((gramOf (w07d (gramS ImgSt.verifying false)) 0 0).st = ImgSt.verifying ∧ gramCopiesOk (w07d (gramS ImgSt.verifying false))
      (gramOf (w07d (gramS ImgSt.verifying false)) 0 0) = true) ∧
    (AtUnit 67 0 dVu 0 w07s ∧ bit (rg w07s RegId.WH_CTL) 0 = false ∧ 0 = fld dVu 17 1 ∧ 0 < 16 ∧ fld dVu 18 46 = 0 ∧ (vocBound
      w07s 0 0).isSome = true ∧ (vocOf w07s 0).st = ImgSt.ready ∧ vocBusy w07s 0 = true) ∧
    (AtUnit 67 0 dVu 0 w07 ∧ bit (rg w07 RegId.WH_CTL) 0 = false ∧ 0 = fld dVu 17 1 ∧ 0 < 16 ∧ fld dVu 18 46 = 0 ∧ (vocBound w07
      0 0).isSome = true ∧ (vocOf w07 0).st = ImgSt.ready ∧ vocBusy w07 0 = false) ∧
    (AtUnit 84 0 dGu 0 w07g ∧ 0 = fld dGu 17 1 ∧ 0 < 16 ∧ fld dGu 18 46 = 0 ∧ (gramOf w07g 0 0).st = ImgSt.ready ∧ gramGens w07g
      0 0 ≠ 0) ∧
    (AtUnit 84 0 dGu 0 (w07d (gramS ImgSt.ready false)) ∧ 0 = fld dGu 17 1 ∧ 0 < 16 ∧ fld dGu 18 46 = 0 ∧ (gramOf (w07d (gramS
      ImgSt.ready false)) 0 0).st = ImgSt.ready ∧ gramGens (w07d (gramS ImgSt.ready false)) 0 0 = 0) :=
  ⟨⟨⟨by decide, rfl, rfl⟩, by decide +kernel, by decide +kernel, by decide +kernel, by decide +kernel, by decide +kernel,
     by decide +kernel, by decide +kernel, by decide +kernel, by decide +kernel, by decide +kernel, by decide +kernel⟩,
   ⟨⟨by decide, rfl, rfl⟩, by decide +kernel, by decide +kernel, by decide +kernel, by decide +kernel, by decide +kernel,
     by decide +kernel, by decide +kernel, by decide +kernel, by decide +kernel, by decide +kernel, by decide +kernel,
     by decide +kernel, by decide +kernel, by decide +kernel, by decide +kernel, by decide +kernel, by decide +kernel⟩,
   by decide +kernel,
   by decide +kernel,
   by decide +kernel,
   by decide +kernel,
   by decide +kernel,
   by decide +kernel,
   by decide +kernel,
   ⟨⟨by decide, rfl, rfl⟩, by decide +kernel, by decide +kernel, by decide +kernel, by decide +kernel, by decide +kernel,
     by decide +kernel, by decide +kernel⟩,
   ⟨⟨by decide, rfl, rfl⟩, by decide +kernel, by decide +kernel, by decide +kernel, by decide +kernel, by decide +kernel,
     by decide +kernel, by decide +kernel⟩,
   ⟨⟨by decide, rfl, rfl⟩, by decide +kernel, by decide +kernel, by decide +kernel, by decide +kernel, by decide +kernel⟩,
   ⟨⟨by decide, rfl, rfl⟩, by decide +kernel, by decide +kernel, by decide +kernel, by decide +kernel, by decide +kernel⟩⟩

def ringsG : NMap W32 := [(regOff .DB_CFG 2 0 0, 0x10 + 4 * 32), (regOff .BT_PART_CFG 0 0 0, 1)]
def samp08 : List Byte := bytesOf 256 [(4, 10), (24, 0x3F800000), (32, 0x3F800000)]
def dGen : BitVec 512 := desc [(16, 0x50), (18, 2), (20, 0xFFFF), (24, 1), (32, 0x300000)]
def w08 (x : Slot) : State := { w07 with mem := cells 0x300000 samp08, regs := ringsG, ht.slots := [(0, x)], ht.slotNext := [(0, 1)] }
def stag08 : Staged := ⟨0, 0, 1, [0xFFFF], []⟩
def st08 : Step := { step0 1 with rows := 1, last := true, staged := [stag08] }
def sess08 : Slot := { sess0 with st := .stepping, step := some st08 }
def gen08 : Gen := ⟨0, dGen, 0, 1, 0, 0, samp08, [], [], 0, [], 0, 0, false, none, none, false, 0⟩
def w08g (x : Slot) (g : Gen) : State := { w08 x with bt.gens := [(0, g)] }
def dSam : BitVec 512 := desc [(16, 0x51), (18, 1), (20, 1), (24, 1), (32, 0x310000), (40, 0x320000)]
def s08 : State := w08g sess08 gen08
def u08 : State := ctr .BT_STEP_CNT 0 s08
def walk08 : Walk := ⟨0, [], [(0, 1)], [(0, 0)], [0], none⟩
def run08 : SampleRun := ⟨0, dSam, [(0, 0)], [0], false, 0, 0, none, 0, [], [(0, 1)]⟩
def w08c : State := w08g sess08 { gen08 with run := some run08 }
def dCan : BitVec 512 := desc [(16, 0x52), (24, 1)]
def gen08b : Gen := { gen08 with com := 5 }
def w08k (s : State) : State := { s with lay.img.ax := axAll [0x90] }
def u08k (s : State) : State := rp .BT_CANCEL_LO 0 0 0 1 s

/-- GenerationsOpenSampleAndCommit: what meets the hypotheses of its clauses, in order. -/
theorem wit_GenerationsOpenSampleAndCommit :
    (AtUnit 80 0 dGen 0 (w08 sess0) ∧ bit (rg (w08 sess0) RegId.BT_CTL) 0 = false ∧ Names (gHandle dGen) 0 false 0 sess0 (w08
      sess0) ∧ sess0.st ≠ SlotSt.faulted ∧ sess0.st ≠ SlotSt.evacuated ∧ sess0.frozen = false ∧ fld dGen 17 1 = 0 ∧ fld dGen 22
      2 = 0 ∧ fld dGen 48 16 = 0 ∧ ringOk (w08 sess0) (gTokRing dGen) 2 0 = true ∧ gParams dGen < hbmEnd ∧ (gStream dGen = 0 ∧
      gTextRing dGen = 65535 ∨ gStream dGen ≠ 0 ∧ gTextRing dGen ≠ 65535 ∧ gStream dGen < hbmEnd ∧ ringOk (w08 sess0) (gTextRing
      dGen) 2 0 = true ∧ readPlain (btReq 0 0) (gStream dGen) 64 (w08 sess0) = (okV, [], w08 sess0) ∧ (srecOf []).ended = false
      ∧ (textOn (w08 sess0) 0 9 [0]).isSome = true) ∧ genOf (w08 sess0) 0 = none ∧ 0 = dieOf (gParams dGen) ∧ btReq 0 0 = btReq
      (4 * 0) 0 ∧ readPlain (btReq 0 0) (gParams dGen) 256 (w08 sess0) = (okV, samp08, w08 sess0) ∧ 0 = bAt samp08 1 1 % 16 ∧ 0
      = bAt samp08 2 1 % 16 ∧ vocBound (w08 sess0) 0 0 = some (⟨0, 1, 64⟩ : VocPlan) ∧ (vocOf (w08 sess0) 0).st = ImgSt.ready ∧
      (bit (bAt samp08 2 1) 7 = true → bit (rg (w08 sess0) RegId.CL_CTL) 0 = false ∧ (gramOf (w08 sess0) 0 0).st = ImgSt.ready ∧
      (gramOf (w08 sess0) 0 0).vocab = 0 ∧ (nget (gramOf (w08 sess0) 0 0).copies 0).isSome = true) ∧ recordOk samp08 (vocOf (w08
      sess0) 0).entries = true ∧ classOk (w08 sess0) 0 samp08 = true ∧ bit (⟨0, 1, 64⟩ : VocPlan).dies 0 = true ∧ genLists
      (btReq 0 0) samp08 (w08 sess0) = (okV, [], [], w08 sess0) ∧ ascending [] = true ∧ ascending ([].map (Prod.fst : Nat × Nat
      → Nat)) = true ∧ (∀ (e : Nat × Nat), e ∈ [] → 1 ≤ e.snd ∧ e.snd ≤ 16777215) ∧ partPlan (w08 sess0) 0 = some plan0 ∧
      (List.filter (fun e => e.snd.part == 0) (w08 sess0).bt.gens).length < plan0.btCtx ∧ (⟨1, none, [], []⟩ : MaskCtx) =
      maskCtx (w08 sess0) 0 0 samp08 [] ∧ deadEnd (⟨1, none, [], []⟩ : MaskCtx)
      (match (⟨1, none, [], []⟩ : MaskCtx).gram with | some img => gramStart img | none => 0) [] = false) ∧
    (AtUnit 81 0 dSam 0 s08 ∧ Names (gHandle dSam) 0 false 0 sess08 s08 ∧ sess08.st ≠ SlotSt.faulted ∧ sess08.st ≠
      SlotSt.evacuated ∧ sess08.frozen = false ∧ genOf s08 0 = some gen08 ∧ gen08.endSt = none ∧ gen08.run = none ∧ 1 = (vocOf
      s08 (gVoc gen08)).entries ∧ sess08.step = some st08 ∧ fld dSam 17 1 = 0 ∧ fld dSam 19 1 = 0 ∧ fld dSam 22 2 = 0 ∧ fld dSam
      48 16 = 0 ∧ 1 ≤ sRows dSam ∧ sRows dSam ≤ 64 ∧ sLogits dSam % 64 = 0 ∧ sLogits dSam < billetEnd ∧ sRowTok dSam < hbmEnd ∧
      dieOf (sLogits dSam) = gen08.die ∧ dieOf (sRowTok dSam) = gen08.die ∧ sStep dSam = st08.serial ∧ sRows dSam = stagedRows
      st08 0 ∧ btReq 0 0 = btReq (4 * gen08.die) 0 ∧ readPlain (btReq 0 0) (sRowTok dSam) (4 * sRows dSam) s08 = (okV, [0, 0, 0,
      0], s08) ∧ inCheck s08 (btReq 0 0) (sLogits dSam) (sRows dSam * 4 * (16 * ceilDiv 1 16)) = okV ∧ (∀ (a : Nat × Nat), a ∈
      enum0 (stagedPar st08 0) → (a.snd = 65535 ↔ a.fst = 0)) ∧ bAt [0, 0, 0, 0] 0 4 = gen08.last ∧ (∀ (i : Nat), i < sRows dSam
      → bAt [0, 0, 0, 0] (4 * i) 4 < 1) ∧ textOn s08 0 11 [gen08.die] = some ((0, 0).fst, 0) ∧ textOn s08 0 10 [gen08.die] =
      some ((0, 0).snd, 0) ∧ u08 = ctr Ct.BT_STEP_CNT 0 s08 ∧ walkFrom u08 gen08 (genMask u08 gen08) dSam (stagedPar st08 0)
      (List.map (fun i => bAt [0, 0, 0, 0] (4 * i) 4) (List.range (sRows dSam))) (pWin sess08.policy != pBody sess08.policy)
      sess08.tokens 16 0 1 { q := gen08.gq, stack := gen08.stack, counts := gen08.counts, out := [], rows := [0], endSt := none
      } = some walk08) ∧
    (genOf w08c 0 = some ({ gen08 with run := some run08 }) ∧ (slotOf w08c 0).step = some st08 ∧
      ({ gen08 with run := some run08 }).run = some run08 ∧ ({ gen08 with run := some run08 }).endSt = none ∧ commitReady w08c 0
      = true) :=
  ⟨⟨⟨by decide, rfl, rfl⟩, by decide +kernel, ⟨by decide, rfl, rfl⟩, by decide +kernel, by decide +kernel, by decide +kernel,
     by decide +kernel, by decide +kernel, by decide +kernel, by decide +kernel, by decide +kernel, by decide +kernel,
     by decide +kernel, by decide +kernel, by decide +kernel, by decide +kernel, by decide +kernel, by decide +kernel,
     by decide +kernel, by decide +kernel, by decide +kernel, by decide +kernel, by decide +kernel, by decide +kernel,
     by decide +kernel, by decide +kernel, by decide +kernel, by decide +kernel, by decide +kernel, by decide +kernel, rfl,
     by decide +kernel⟩,
   ⟨⟨by decide, rfl, rfl⟩, ⟨by decide, rfl, rfl⟩, by decide +kernel, by decide +kernel, by decide +kernel, by decide +kernel,
     by decide +kernel, by decide +kernel, by decide +kernel, by decide +kernel, by decide +kernel, by decide +kernel,
     by decide +kernel, by decide +kernel, by decide +kernel, by decide +kernel, by decide +kernel, by decide +kernel,
     by decide +kernel, by decide +kernel, by decide +kernel, by decide +kernel, by decide +kernel, by decide +kernel,
     by decide +kernel, by decide +kernel, by decide +kernel, by decide +kernel, by decide +kernel, by decide +kernel,
     by decide +kernel, by decide +kernel, rfl⟩,
   by decide +kernel⟩

/-- CancelsAreClassified: what meets the hypotheses of its clauses, in order. -/
theorem wit_CancelsAreClassified :
    (AtUnit 82 0 dCan 0 (w08 sess0) ∧ fld dCan 17 7 = 0 ∧ fld dCan 32 32 = 0 ∧ Names (gHandle dCan) 0 false 0 sess0 (w08 sess0)
      ∧ genOf (w08 sess0) 0 = none) ∧
    (AtUnit 82 0 dCan 0 (w08g sess08 gen08) ∧ fld dCan 17 7 = 0 ∧ fld dCan 32 32 = 0 ∧ Names (gHandle dCan) 0 false 0 sess08
      (w08g sess08 gen08) ∧ genOf (w08g sess08 gen08) 0 = some gen08 ∧ gen08.handle = gHandle dCan ∧ gen08.natural = false ∧
      gen08.endSt = none ∧ gen08.run = none ∧ nget (w08g sess08 gen08).wh.streams 0 = none ∧ (∀ (i : Item), i ∈ (w08g sess08
      gen08).cp.items → fld i.desc 24 8 ≠ gHandle dCan) ∧ (∀ (a : AReq), a ∈ (w08g sess08 gen08).la.reqs → a.slot ≠ 0) ∧
      sess08.step = some st08 ∧ st08.accept = none ∧ st08.failed = false) ∧
    (AtUnit 82 0 dCan 0 (w08g sess0 gen08b) ∧ fld dCan 17 7 = 0 ∧ fld dCan 32 32 = 0 ∧ Names (gHandle dCan) 0 false 0 sess0
      (w08g sess0 gen08b) ∧ genOf (w08g sess0 gen08b) 0 = some gen08b ∧ gen08b.handle = gHandle dCan ∧ gen08b.natural = false ∧
      gen08b.endSt = none ∧ gen08b.run = none ∧ nget (w08g sess0 gen08b).wh.streams 0 = none ∧ (∀ (i : Item), i ∈ (w08g sess0
      gen08b).cp.items → fld i.desc 24 8 ≠ gHandle dCan) ∧ (∀ (a : AReq), a ∈ (w08g sess0 gen08b).la.reqs → a.slot ≠ 0) ∧
      sess0.step = none ∧ gen08b.com ≠ 0) ∧
    (Allowed Req.pf0 RegId.BT_CANCEL_HI 0 (w08k (w08 sess0)) ∧ w08k (w08 sess0) = w08k (w08 sess0) ∧ 0 = rg (w08k (w08 sess0))
      RegId.BT_CANCEL_LO + 2 ^ 32 * 0 ∧ handleCheck (w08k (w08 sess0)) 0 false false 0 ≠ stDone) ∧
    (Allowed Req.pf0 RegId.BT_CANCEL_HI 0 (w08k (w08 sess0)) ∧ u08k (w08k (w08 sess0)) = rp RegId.BT_CANCEL_LO 0 0 0 1 (w08k
      (w08 sess0)) ∧ 1 = rg (u08k (w08k (w08 sess0))) RegId.BT_CANCEL_LO + 2 ^ 32 * 0 ∧ handleCheck (u08k (w08k (w08 sess0))) 0
      false false 1 = stDone ∧ genOf (u08k (w08k (w08 sess0))) (hSlot 1) = none) ∧
    (Allowed Req.pf0 RegId.BT_CANCEL_HI 0 (w08k (w08g sess0 gen08b)) ∧ u08k (w08k (w08g sess0 gen08b)) = rp RegId.BT_CANCEL_LO 0
      0 0 1 (w08k (w08g sess0 gen08b)) ∧ 1 = rg (u08k (w08k (w08g sess0 gen08b))) RegId.BT_CANCEL_LO + 2 ^ 32 * 0 ∧ handleCheck
      (u08k (w08k (w08g sess0 gen08b))) 0 false false 1 = stDone ∧ genOf (u08k (w08k (w08g sess0 gen08b))) (hSlot 1) = some
      gen08b ∧ gen08b.endSt = none ∧ gen08b.natural = false ∧ gen08b.run = none ∧ gen08b.com ≠ 0 ∧ (slotOf (u08k (w08k (w08g
      sess0 gen08b))) (hSlot 1)).step = none ∧ nget (u08k (w08k (w08g sess0 gen08b))).wh.streams (hSlot 1) = none ∧ (∀ (i :
      Item), i ∈ (u08k (w08k (w08g sess0 gen08b))).cp.items → fld i.desc 24 8 ≠ gen08b.handle)) :=
  ⟨⟨⟨by decide, rfl, rfl⟩, by decide +kernel, by decide +kernel, ⟨by decide, rfl, rfl⟩, by decide +kernel⟩,
   ⟨⟨by decide, rfl, rfl⟩, by decide +kernel, by decide +kernel, ⟨by decide, rfl, rfl⟩, by decide +kernel, by decide +kernel,
     by decide +kernel, by decide +kernel, by decide +kernel, by decide +kernel, by decide +kernel, by decide +kernel,
     by decide +kernel, by decide +kernel, by decide +kernel⟩,
   ⟨⟨by decide, rfl, rfl⟩, by decide +kernel, by decide +kernel, ⟨by decide, rfl, rfl⟩, by decide +kernel, by decide +kernel,
     by decide +kernel, by decide +kernel, by decide +kernel, by decide +kernel, by decide +kernel, by decide +kernel,
     by decide +kernel, by decide +kernel⟩,
   by decide +kernel,
   by decide +kernel,
   by decide +kernel⟩

/-- A container of kind DRAFT: one stage, one engine, no weights; `act` bytes of activations and a staged section. -/
def progOf0 (act staged dg : Nat) : List Byte :=
  bytesOf 320 [(0, 0x4F545541), (4, 1), (9, 1), (28, 320), (48, dg), (128, 256), (256 + 16, staged), (256 + 20, act), (256 + 24, 64), (256 + 28, 1),
    (256 + 30, 1), (256 + 34, 1), (256 + 36, 64), (256 + 40, 64)]
def prog09 : List Byte := progOf0 0 65536 0
def w09 : State :=
  { laid with lay.img.ax := ([0, 1, 2, 320] ++ (List.range 21).map (352 + ·) ++ [384]).flatMap fun t =>
                [0x10, 0x50, 0x60, 0x70, 0x90].map fun x => (256 * t + x, 0xFFFFF),
              hmem := cells 0x9000 contImg ++ cells 0xA000 (progOf0 4096 0 0),
              regs := [(regOff .AD_PART_CFG 0 0 0, 1), (regOff .SK_PART_CFG 0 0 0, 3)],
              engs := [(4096, eng0 .enabled 0), (8192, eng0 .enabled 0), (12288, eng0 .enabled 0)] }
def dLd (mask len a : Nat) : BitVec 512 := desc [(16, 0x60), (18, 4), (19, mask), (20, len), (24, a), (32, 0x300000)]
def x09 : Prog := ⟨.loading, 0, contImg, [], [], ringBaseFor w09 0 (progRings contImg), 0, some (0, dLd 0 258 0x9000)⟩
def w09p (x : Prog) : State := { w09 with ad.progs := [(0, x)] }
def bad09 : Prog := { x09 with cont := contImg.take 256 ++ [1, 1] }
def dUn : BitVec 512 := desc [(16, 0x61)]
def run09 (st : RunSt) (dr : Option Nat) (d : BitVec 512) : Run := ⟨0, d, 0, 0, 0, st, if st = .running then [0] else [], [], 0, dr, false, false⟩
def w09r (r : List Run) (x : Prog) : State := { w09p x with ad.runs := r }
def ready09 : Prog := ⟨.ready, 1, prog09, [], [(0, 8)], 0, 0, none⟩
def dRun : BitVec 512 := desc [(16, 0x62), (32, 0x300000), (40, 2 ^ 63 + 0xB000), (56, 2 ^ 32 - 1)]
def dDr : BitVec 512 := desc [(16, 0x62), (18, 1), (20, 1), (24, 1), (32, 0x300000), (40, 2 ^ 63 + 0xB000), (48, 0x310000), (56, 2 ^ 32 - 1)]
def dLate : BitVec 512 := desc [(16, 0x10), (18, 1 + 8), (19, 1), (20, 64), (24, 0x400000), (32, 524288), (40, 1)]
def job09 : SpJob := ⟨0, dLate, 0, 0, [0], false, 0⟩
def w09d : State := { w09r [run09 .running (some 0) dDr] ready09 with sp.jobs := [job09], span := 10000000 }
def idxImg : List Byte :=
  bytesOf 640 [(0, 0x534B4E49), (4, 1), (8, 1), (12, 64), (14, 1), (15, 8), (16, 1), (56, 256), (72, 320), (80, 384), (88, 640)]
def dIo : BitVec 512 := desc [(16, 0x70), (18, 1), (24, 0x200000)]
def w09i : State := { w09 with mem := cells 0x200000 idxImg }
def idx09 (st : ImgSt) (h : List Byte) : IdxSlot := ⟨st, 1, false, [0x200000, 0, 0, 0], h, 0, some (0, dIo)⟩
def w09x (x : IdxSlot) : State := { w09i with sk.idx := [(0, x)] }
def hOk : List Byte := idxImg.take 256
def dIc : BitVec 512 := desc [(16, 0x71)]
def dSe : BitVec 512 := desc [(16, 0x72), (17, 0x80), (18, 1), (24, 0x300000), (32, 0x310000), (40, 2 ^ 63 + 0xB000)]
def dSh : BitVec 512 := desc [(16, 0x72), (17, 0x40), (18, 1), (24, 0x300000), (32, 0x310000), (40, 2 ^ 63 + 0xB000), (48, 0x320000)]
def shr09 (n : Nat) : ShardRun := ⟨0, dSh, 0, 5, n, 1, 1, 1000, 0, 0, 256, [], []⟩
def w09y (r : List ShardRun) : State := { w09x (idx09 .ready hOk) with sk.runs := r }
def rec09 : List Byte := bytesOf 128 [(0, 1), (2, 1)]
def tab09 : List Byte := bytesOf 48 [(0, 2), (16, 7), (32, 8)]
def w09z : State :=
  { w09y [] with mem := cells 0x200000 idxImg ++ cells 0x300000 rec09 ++ cells 0x320000 tab09,
                 regs := [(regOff .SK_PART_ANSWER_RING 0 0 0, 3), (regOff .SK_PART_CFG 0 0 0, 3)] }
def stg09 : Staging := (stageSearch dSe (skReq 0 0) (idx09 .ready hOk) w09z).2.1
def out09 : List QOut × Bool := (runQueries w09z dSe (idx09 .ready hOk) 0 stg09).getD ([], false)
def stg09s : Staging := (stageSearch dSh (skReq 0 0) (idx09 .ready hOk) w09z).2.1
def blk09 : List Byte := bytesOf 192 [(32, 5)]

def w09q : State := w09r [] ready09
theorem args_ok (n : Nat) (h : n < 2 ^ 32) : readPlain (unitReq 0x10 0) 0x300000 n w09q = (okV, rdBytes w09q 0x300000 n, w09q) := by
  have hp : ∀ x ∈ (probes 0x300000 n).map (placeOf w09q), x = .target 0 ∨ x = .target 1 ∨ x = .target 2 := by
    intro x hx
    obtain ⟨a, ha, rfl⟩ := List.mem_map.mp hx
    have hb : a < 3 * 0x60000000 := by
      simp only [probes, List.mem_append, List.mem_map, List.mem_range, List.mem_singleton] at ha
      omega
    have hc : chanOf a < 3 := by unfold chanOf; omega
    have : placeOf w09q a = .target (chanOf a) := if_pos (by unfold hbmEnd; omega)
    rw [this]
    have : chanOf a = 0 ∨ chanOf a = 1 ∨ chanOf a = 2 := by omega
    rcases this with h | h | h <;> simp [h]
  have key : ∀ ts : List Nat, (∀ t ∈ ts, t = 0 ∨ t = 1 ∨ t = 2) →
      (match ts.find? fun t => !axAdmits w09q (unitReq 0x10 0) .rd t with
        | some t => Verdict.mk stFaultAccess (detTarget (some t))
        | none => match ts.find? fun t => w09q.ax.inReset.contains (tgtBlock t) with
          | some t => ⟨stTargetReset, detReset (some t) (axEpochOf w09q t)⟩
          | none => okV) = okV := by
    intro ts ht
    have h2 : (ts.find? fun t => !axAdmits w09q (unitReq 0x10 0) .rd t) = none := by
      rw [List.find?_eq_none]
      intro t h; rcases ht t h with rfl | rfl | rfl <;> decide +kernel
    have h3 : (ts.find? fun t => w09q.ax.inReset.contains (tgtBlock t)) = none := by
      rw [List.find?_eq_none]
      intro t h; rcases ht t h with rfl | rfl | rfl <;> decide +kernel
    rw [h2, h3]
  have hv : accessCheck w09q (unitReq 0x10 0) .rd 0x300000 n = okV := by
    unfold accessCheck
    split
    · rfl
    · have h1 : ¬ ((probes 0x300000 n).map (placeOf w09q)).contains .hole = true := by
        rw [List.contains_iff_mem]
        intro hm; rcases hp _ hm with h | h | h <;> cases h
      refine (if_neg h1).trans (key _ fun t ht => ?_)
      obtain ⟨x, hx, hy⟩ := List.mem_filterMap.mp ht
      rcases hp x hx with rfl | rfl | rfl <;> cases hy <;> decide
  have ha : anyCheck w09q (unitReq 0x10 0) .rd 0x300000 n = okV := hv
  have hi : inCheck w09q (unitReq 0x10 0) 0x300000 n = okV := by
    unfold inCheck
    rw [ha]; rfl
  unfold readPlain; rw [hi]; rfl
theorem out_fits (c a : List Byte) : (runOut c a).length ≤ 4294967295 := by
  unfold runOut
  rw [List.length_map, List.length_range]
  omega

/-- ProgramSlotsLoadVerifyAndEmpty: what meets the hypotheses of its clauses, in order. -/
theorem wit_ProgramSlotsLoadVerifyAndEmpty :
    (AtUnit 96 0 (dLd 1 320 40960) 0 w09 ∧ bit (rg w09 RegId.AD_CTL) 0 = false ∧ 0 = fld (dLd 1 320 40960) 17 1 ∧ (0 < planNat
      w09 0 fun x => x.progMax) ∧ 1 = fld (dLd 1 320 40960) 19 1 ∧ 1 < 16 ∧ (fld (dLd 1 320 40960) 18 1 = 1 ∧ 2 ^ 63 + 40960 =
      fld (dLd 1 320 40960) 24 8 ∨ fld (dLd 1 320 40960) 18 1 = 4 ∧ 2 ^ 63 + 40960 = 2 ^ 63 + fld (dLd 1 320 40960) 24 8 % 2 ^
      63) ∧ fld (dLd 1 320 40960) 32 8 < hbmEnd ∧ fld (dLd 1 320 40960) 40 24 = 0 ∧ (progOf w09 0 0).st = ImgSt.empty ∧ inCheck
      w09 (spliceReqOf w09 0) (2 ^ 63 + 40960) (fld (dLd 1 320 40960) 20 4) = okV ∧ rdBytes w09 (2 ^ 63 + 40960) 320 = rdBytes
      w09 (2 ^ 63 + 40960) (fld (dLd 1 320 40960) 20 4) ∧ contOk (rdBytes w09 (2 ^ 63 + 40960) 320) (fld (dLd 1 320 40960) 20 4)
      w09.lay.img.conduct = true ∧ (cStages (rdBytes w09 (2 ^ 63 + 40960) 320) = 0 ∨ 1 ≠ 0 ∧ (dieBits 1).length % cStages
      (rdBytes w09 (2 ^ 63 + 40960) 320) = 0) ∧ kindNeeds w09 0 (rdBytes w09 (2 ^ 63 + 40960) 320) 1 = kindNeeds w09 0 (rdBytes
      w09 (2 ^ 63 + 40960) 320) 1 ∧ (fld (dLd 1 320 40960) 32 8 = 0 ∨ outCheck w09 (spliceReqOf w09 0) (fld (dLd 1 320 40960) 32
      8) 64 = okV) ∧ loadDetail (kindNeeds w09 0 (rdBytes w09 (2 ^ 63 + 40960) 320) 1) = some (detLoad 0 false 1) ∧ (ringOf w09
      (cqOf w09 0)).held = []) ∧
    (AtUnit 96 0 (dLd 0 258 36864) 0 w09 ∧ bit (rg w09 RegId.AD_CTL) 0 = false ∧ 0 = fld (dLd 0 258 36864) 17 1 ∧ (0 < planNat
      w09 0 fun x => x.progMax) ∧ 0 = fld (dLd 0 258 36864) 19 1 ∧ 0 < 16 ∧ (fld (dLd 0 258 36864) 18 1 = 1 ∧ 2 ^ 63 + 36864 =
      fld (dLd 0 258 36864) 24 8 ∨ fld (dLd 0 258 36864) 18 1 = 4 ∧ 2 ^ 63 + 36864 = 2 ^ 63 + fld (dLd 0 258 36864) 24 8 % 2 ^
      63) ∧ fld (dLd 0 258 36864) 32 8 < hbmEnd ∧ fld (dLd 0 258 36864) 40 24 = 0 ∧ (progOf w09 0 0).st = ImgSt.empty ∧ inCheck
      w09 (spliceReqOf w09 0) (2 ^ 63 + 36864) (fld (dLd 0 258 36864) 20 4) = okV ∧ rdBytes w09 (2 ^ 63 + 36864) 258 = rdBytes
      w09 (2 ^ 63 + 36864) (fld (dLd 0 258 36864) 20 4) ∧ contOk (rdBytes w09 (2 ^ 63 + 36864) 258) (fld (dLd 0 258 36864) 20 4)
      w09.lay.img.conduct = true ∧ (cStages (rdBytes w09 (2 ^ 63 + 36864) 258) = 0 ∨ 0 ≠ 0 ∧ (dieBits 0).length % cStages
      (rdBytes w09 (2 ^ 63 + 36864) 258) = 0) ∧ kindNeeds w09 0 (rdBytes w09 (2 ^ 63 + 36864) 258) 0 = kindNeeds w09 0 (rdBytes
      w09 (2 ^ 63 + 36864) 258) 0 ∧ (fld (dLd 0 258 36864) 32 8 = 0 ∨ outCheck w09 (spliceReqOf w09 0) (fld (dLd 0 258 36864) 32
      8) 64 = okV) ∧ loadDetail (kindNeeds w09 0 (rdBytes w09 (2 ^ 63 + 36864) 258) 0) = none ∧ (if cKey (rdBytes w09 (2 ^ 63 +
      36864) 258) = 0 then bit (rg w09 RegId.AD_PART_CFG) 0 = true else (nget w09.wkeys (2 ^ 32 * 0 + cKey (rdBytes w09 (2 ^ 63
      + 36864) 258))).isSome = true) ∧ copyStages 0 (⟨ImgSt.loading, 0, rdBytes w09 (2 ^ 63 + 36864) 258, [], [], ringBaseFor
      w09 0 (progRings (rdBytes w09 (2 ^ 63 + 36864) 258)), 0, some (0, dLd 0 258 36864)⟩ : Prog) (dieBits 0) w09 = some (x09,
      w09)) ∧
    (progOf (w09p x09) 0 0 = x09 ∧ x09.st = ImgSt.loading ∧ x09.cmd = some (0, dLd 0 258 36864) ∧ progChecks (w09p x09) x09 =
      true) ∧
    (progOf (w09p bad09) 0 0 = bad09 ∧ bad09.st = ImgSt.loading ∧ bad09.cmd = some (0, dLd 0 258 36864) ∧ progChecks (w09p
      bad09) bad09 = false) ∧
    ((progOf (w09p ({ x09 with st := ImgSt.verifying })) 0 0 = { x09 with st := ImgSt.verifying }) ∧
      (({ x09 with st := ImgSt.verifying }).st = ImgSt.verifying) ∧ (progChecks (w09p ({ x09 with st := ImgSt.verifying }))
      ({ x09 with st := ImgSt.verifying }) = true)) ∧
    ((progOf (w09p ({ bad09 with st := ImgSt.verifying })) 0 0 = { bad09 with st := ImgSt.verifying }) ∧
      (({ bad09 with st := ImgSt.verifying }).st = ImgSt.verifying) ∧ (progChecks (w09p ({ bad09 with st := ImgSt.verifying }))
      ({ bad09 with st := ImgSt.verifying }) = false)) ∧
    (AtUnit 97 0 dUn 0 (w09r [run09 RunSt.running none dRun] ready09) ∧ 0 = fld dUn 17 1 ∧ (0 < planNat (w09r [run09
      RunSt.running none dRun] ready09) 0 fun x => x.progMax) ∧ fld dUn 18 46 = 0 ∧ (progOf (w09r [run09 RunSt.running none
      dRun] ready09) 0 0).st = ImgSt.ready ∧ progRuns (w09r [run09 RunSt.running none dRun] ready09) 0 0 ≠ 0) ∧
    (AtUnit 97 0 dUn 0 (w09r [] ready09) ∧ 0 = fld dUn 17 1 ∧ (0 < planNat (w09r [] ready09) 0 fun x => x.progMax) ∧ fld dUn 18
      46 = 0 ∧ (progOf (w09r [] ready09) 0 0).st = ImgSt.ready ∧ progRuns (w09r [] ready09) 0 0 = 0) :=
  ⟨⟨⟨by decide, rfl, rfl⟩, by decide +kernel, by decide +kernel, by decide +kernel, by decide +kernel, by decide +kernel,
     by decide +kernel, by decide +kernel, by decide +kernel, by decide +kernel, by decide +kernel, by decide +kernel,
     by decide +kernel, by decide +kernel, by decide +kernel, by decide +kernel, by decide +kernel, by decide +kernel⟩,
   ⟨⟨by decide, rfl, rfl⟩, by decide +kernel, by decide +kernel, by decide +kernel, by decide +kernel, by decide +kernel,
     by decide +kernel, by decide +kernel, by decide +kernel, by decide +kernel, by decide +kernel, by decide +kernel,
     by decide +kernel, by decide +kernel, by decide +kernel, by decide +kernel, by decide +kernel, by decide +kernel, rfl⟩,
   ⟨rfl, by decide +kernel, by decide +kernel, by decide +kernel⟩,
   ⟨rfl, by decide +kernel, by decide +kernel, by decide +kernel⟩,
   ⟨rfl, by decide +kernel, by decide +kernel⟩,
   ⟨rfl, by decide +kernel, by decide +kernel⟩,
   ⟨⟨by decide, rfl, rfl⟩, by decide +kernel, by decide +kernel, by decide +kernel, by decide +kernel, by decide +kernel⟩,
   ⟨⟨by decide, rfl, rfl⟩, by decide +kernel, by decide +kernel, by decide +kernel, by decide +kernel, by decide +kernel⟩⟩

/-- RunsDraftsAndTheirPreemption: what meets the hypotheses of its clauses, in order. -/
theorem wit_RunsDraftsAndTheirPreemption :
    (AtUnit 98 0 dRun 0 w09q ∧ bit (rg w09q .AD_CTL) 0 = false ∧ 0 = fld dRun 17 1 ∧ (0 < planNat w09q 0 fun x => x.progMax) ∧
      progOf w09q 0 0 = ready09 ∧ ready09.st = .ready ∧ runForm dRun ready09 = true ∧ unitReq 0x10 0 = unitReq (BitVec.ofNat 8
      (0x10 + 8 * (dieBits ready09.mask).head?.getD 0)) 0 ∧ readPlain (unitReq 0x10 0) (fld dRun 32 8) (Config.argBytes
      ready09.cont).toNat w09q = (okV, rdBytes w09q 0x300000 (Config.argBytes ready09.cont).toNat, w09q) ∧ (runOutMax dRun = 0 ∨
      outCheck w09q (unitReq 0x10 0) (fld dRun 40 8) (runOutMax dRun) = okV) ∧ (runDraft dRun = false ∧ (none : Option Nat) =
      none) ∧ runOf w09q 0 dRun = none) ∧
    (runOf (w09r [run09 .running none dRun] ready09) 0 dRun = some (run09 .running none dRun) ∧ (run09 .running none dRun).st =
      .running ∧ (run09 .running none dRun).draft = none ∧ dOp dRun = 98 ∧ (progOf (w09r [run09 .running none dRun] ready09) 0
      0).st = .ready ∧ runTilesOk (w09r [run09 .running none dRun] ready09) (run09 .running none dRun) = true ∧ dSealed dRun =
      false ∧ (runOut ready09.cont []).length ≤ runOutMax dRun ∧ (ringOf (w09r [run09 .running none dRun] ready09) (cqOf (w09r
      [run09 .running none dRun] ready09) 0)).held = []) ∧
    (runOf w09d 0 dDr = some (run09 RunSt.running (some 0) dDr) ∧ (run09 RunSt.running (some 0) dDr).st = RunSt.running ∧ (run09
      RunSt.running (some 0) dDr).draft = some 0 ∧ (progOf w09d (run09 RunSt.running (some 0) dDr).part (run09 RunSt.running
      (some 0) dDr).k).st = ImgSt.ready ∧ dSealed dDr = false ∧ (ringOf w09d (cqOf w09d 0)).held = [] ∧ (waitJobs w09d (progOf
      w09d (run09 RunSt.running (some 0) dDr).part (run09 RunSt.running (some 0) dDr).k) (run09 RunSt.running (some 0)
      dDr).start).any (jobLate w09d) = true) ∧
    ((runOf ({ w09r [run09 RunSt.running none dRun] ready09 with regs := [(regOff RegId.AD_CTL 0 0 0, 2)] }) 0 dRun = some
      (run09 RunSt.running none dRun)) ∧ (run09 RunSt.running none dRun).st = RunSt.running ∧ (bit (rg ({ w09r [run09
      RunSt.running none dRun] ready09 with regs := [(regOff RegId.AD_CTL 0 0 0, 2)] }) RegId.AD_CTL) 1 = true) ∧ ((stageAt
      (progOf ({ w09r [run09 RunSt.running none dRun] ready09 with regs := [(regOff RegId.AD_CTL 0 0 0, 2)] }) (run09
      RunSt.running none dRun).part (run09 RunSt.running none dRun).k).cont 0).bound ≠ 0)) ∧
    (runOf (w09r [run09 RunSt.preempted none dRun] ready09) 0 dRun = some (run09 RunSt.preempted none dRun) ∧ (run09
      RunSt.preempted none dRun).st = RunSt.preempted ∧ ungranted (w09r [run09 RunSt.preempted none dRun] ready09) 0 dRun =
      false ∧ grantFor (w09r [run09 RunSt.preempted none dRun] ready09) (run09 RunSt.preempted none dRun).part (progOf (w09r
      [run09 RunSt.preempted none dRun] ready09) (run09 RunSt.preempted none dRun).part (run09 RunSt.preempted none dRun).k)
      (run09 RunSt.preempted none dRun).rep = some [0]) :=
  ⟨⟨⟨by decide, rfl, rfl⟩, by decide +kernel, by decide +kernel, by decide +kernel, by decide +kernel, by decide +kernel,
     by decide +kernel, by decide +kernel, args_ok _ (BitVec.isLt _), by decide +kernel, by decide +kernel, by decide +kernel⟩,
   ⟨by decide +kernel, by decide +kernel, by decide +kernel, by decide +kernel, by decide +kernel, by decide +kernel,
     by decide +kernel, out_fits _ _, by decide +kernel⟩,
   by decide +kernel,
   by decide +kernel,
   by decide +kernel⟩

/-- IndexSlotsAndSearches: what meets the hypotheses of its clauses, in order. -/
theorem wit_IndexSlotsAndSearches :
    (AtUnit 112 0 dIo 0 w09i ∧ bit (rg w09i RegId.SK_CTL) 0 = false ∧ 0 = fld dIo 17 1 ∧ 0 < 64 ∧ (0 < planNat w09i 0 fun x =>
      x.idxMax) ∧ 1 = fld dIo 18 1 ∧ 1 < 16 ∧ 1 ≠ 0 ∧ fld dIo 19 1 < 2 ∧ fld dIo 20 4 = 0 ∧ fld dIo 56 8 = 0 ∧ [2097152, 0, 0,
      0] = List.map (fun i => fld dIo (24 + 8 * i) 8) (List.range 4) ∧ (∀ (i : Nat), i < 4 → bit 1 i = false → fld dIo (24 + 8 *
      i) 8 = 0) ∧ (idxOf w09i 0 0).st = ImgSt.empty ∧ skReq 0 0 = skReq (4 * (dieBits 1).head?.getD 0) 0 ∧ (∀ (i : Nat), i ∈
      dieBits 1 → inCheck w09i (skReq 0 0) ([2097152, 0, 0, 0].getD i 0) 256 = okV) ∧ List.take 256 idxImg = rdBytes w09i
      ([2097152, 0, 0, 0].getD ((dieBits 1).head?.getD 0) 0) 256 ∧ (∀ (i : Nat), i ∈ dieBits 1 → copyPlaceOk w09i 0 i ([2097152,
      0, 0, 0].getD i 0) (max 256 (xTotal (List.take 256 idxImg))) = true)) ∧
    (idxOf (w09x (idx09 ImgSt.loading hOk)) 0 0 = idx09 ImgSt.loading hOk ∧ (idx09 ImgSt.loading hOk).st = ImgSt.loading ∧
      (idx09 ImgSt.loading hOk).cmd = some (0, dIo) ∧ idxChecks (w09x (idx09 ImgSt.loading hOk)) (idx09 ImgSt.loading hOk) =
      true) ∧
    (idxOf (w09x (idx09 ImgSt.loading (leBytes 256 0))) 0 0 = idx09 ImgSt.loading (leBytes 256 0) ∧ (idx09 ImgSt.loading
      (leBytes 256 0)).st = ImgSt.loading ∧ (idx09 ImgSt.loading (leBytes 256 0)).cmd = some (0, dIo) ∧ idxChecks (w09x (idx09
      ImgSt.loading (leBytes 256 0))) (idx09 ImgSt.loading (leBytes 256 0)) = false) ∧
    (idxOf (w09x (idx09 ImgSt.verifying hOk)) 0 0 = idx09 ImgSt.verifying hOk ∧ (idx09 ImgSt.verifying hOk).st =
      ImgSt.verifying) ∧
    (AtUnit 113 0 dIc 0 (w09y [shr09 2]) ∧ 0 = fld dIc 17 1 ∧ 0 < 64 ∧ fld dIc 18 46 = 0 ∧ (idxOf (w09y [shr09 2]) 0 0).st =
      ImgSt.ready ∧ idxSearches (w09y [shr09 2]) 0 0 ≠ 0) ∧
    (AtUnit 113 0 dIc 0 (w09y []) ∧ 0 = fld dIc 17 1 ∧ 0 < 64 ∧ fld dIc 18 46 = 0 ∧ (idxOf (w09y []) 0 0).st = ImgSt.ready ∧
      idxSearches (w09y []) 0 0 = 0) ∧
    (AtUnit 114 0 dSe 0 w09z ∧ bit (rg w09z RegId.SK_CTL) 0 = false ∧ searchForm w09z 0 dSe = true ∧ idx09 ImgSt.ready hOk =
      idxOf w09z 0 (fld dSe 17 1 % 64) ∧ (idx09 ImgSt.ready hOk).st = ImgSt.ready ∧ textOn w09z 0 12 (dieBits (idx09 ImgSt.ready
      hOk).mask) = some (0, 0) ∧ stageSearch dSe (skReq 0 0) (idx09 ImgSt.ready hOk) w09z = (okV, stg09, w09z) ∧ searchRecOk
      stg09.record (idx09 ImgSt.ready hOk).hdr = true ∧ bit (fld dSe 17 1) 6 = false ∧ dSealed dSe = false ∧ 1 = (searchCfg
      stg09.record (xDim (idx09 ImgSt.ready hOk).hdr)).k ∧ outCheck w09z (skReq 0 0) (fld dSe 40 8) (fld dSe 18 1 * blockBytes
      1) = okV ∧ runQueries w09z dSe (idx09 ImgSt.ready hOk) 0 stg09 = some (out09.fst, out09.snd) ∧ (ringOf w09z (cqOf w09z
      0)).held = []) ∧
    (AtUnit 114 0 dSh 0 w09z ∧ bit (rg w09z RegId.SK_CTL) 0 = false ∧ searchForm w09z 0 dSh = true ∧ idx09 ImgSt.ready hOk =
      idxOf w09z 0 (fld dSh 17 1 % 64) ∧ (idx09 ImgSt.ready hOk).st = ImgSt.ready ∧ textOn w09z 0 12 (dieBits (idx09 ImgSt.ready
      hOk).mask) = some (0, 0) ∧ stageSearch dSh (skReq 0 0) (idx09 ImgSt.ready hOk) w09z = (okV, stg09s, w09z) ∧ searchRecOk
      stg09s.record (idx09 ImgSt.ready hOk).hdr = true ∧ bit (fld dSh 17 1) 6 = true ∧ readPlain (skReq 0 0) (fld dSh 48 8) 16
      w09z = (okV, List.take 16 tab09, w09z) ∧ readPlain (skReq 0 0) (fld dSh 48 8) (16 + 16 * min 64 (bAt (List.take 16 tab09)
      0 2)) w09z = (okV, tab09, w09z) ∧ 2 = bAt tab09 0 2 ∧ shardTabOk tab09 = true ∧ rg w09z RegId.SK_PART_ANSWER_RING ≠ 65535
      ∧ partPlan w09z 0 = some plan0 ∧ 1 = (searchCfg stg09s.record (xDim (idx09 ImgSt.ready hOk).hdr)).k ∧ 2 * fld dSh 18 1 *
      blockBytes 1 + mergeUsed w09z 0 ≤ 65536 * plan0.mergePages ∧ shardOf w09z 0 (w09z.sk.serial % 65536) = none) ∧
    (shardOf w09z 0 9 = none) ∧
    (shardOf (w09y [shr09 2]) 0 5 = some (shr09 2) ∧ 0 < (shr09 2).n ∧ nget (shr09 2).status 0 = none ∧ blk09 = List.take
      ((shr09 2).queries * blockBytes (shr09 2).k) ((some blk09).getD []) ∧ true = (decide (0 < 2) && blk09.length == (shr09
      2).queries * blockBytes (shr09 2).k && (List.range (shr09 2).queries).all fun j => bAt blk09 (j * blockBytes (shr09 2).k +
      32) 8 == 5) ∧ (({ shr09 2 with status := [(0, 0)], blocks := [(0, blk09)] }) =
      { (shr09 2) with status := nset (shr09 2).status 0 0, blocks := if true = true then nset (shr09 2).blocks 0 blk09 else (shr09 2).blocks })
      ∧ (List.length ({ shr09 2 with status := [(0, 0)], blocks := [(0, blk09)] }).status ≠ (shr09 2).n)) ∧
    (shardOf (w09y [shr09 1]) 0 5 = some (shr09 1) ∧ 0 < (shr09 1).n ∧ nget (shr09 1).status 0 = none ∧ blk09 = List.take
      ((shr09 1).queries * blockBytes (shr09 1).k) ((some blk09).getD []) ∧ true = (decide (0 < 2) && blk09.length == (shr09
      1).queries * blockBytes (shr09 1).k && (List.range (shr09 1).queries).all fun j => bAt blk09 (j * blockBytes (shr09 1).k +
      32) 8 == 5) ∧ (({ shr09 1 with status := [(0, 0)], blocks := [(0, blk09)] }) =
      { (shr09 1) with status := nset (shr09 1).status 0 0, blocks := if true = true then nset (shr09 1).blocks 0 blk09 else (shr09 1).blocks })
      ∧ (List.length ({ shr09 1 with status := [(0, 0)], blocks := [(0, blk09)] }).status = (shr09 1).n) ∧ (idxOf (w09y [shr09
      1]) 0 (fld (shr09 1).desc 17 1 % 64)).st ≠ ImgSt.draining ∧ dSealed (shr09 1).desc = false ∧ (shr09 1).eng < 16 ∧ outCheck
      (w09y [shr09 1]) (skReq (shr09 1).eng 0) (fld (shr09 1).desc 40 8) ((shr09 1).queries * blockBytes (shr09 1).k) = okV) ∧
    ((shardOf ({ w09y [shr09 2] with span := 10000000 }) 0 5 = some (shr09 2)) ∧ ((shr09 2).start + 1000 * (shr09 2).tmo ≤ now
      ({ w09y [shr09 2] with span := 10000000 })) ∧ List.length (shr09 2).blocks < (shr09 2).n ∧ ((idxOf
      ({ w09y [shr09 2] with span := 10000000 }) 0 (fld (shr09 2).desc 17 1 % 64)).st ≠ ImgSt.draining) ∧ dSealed (shr09 2).desc
      = false ∧ (shr09 2).eng < 16 ∧ (outCheck ({ w09y [shr09 2] with span := 10000000 }) (skReq (shr09 2).eng 0) (fld (shr09
      2).desc 40 8) ((shr09 2).queries * blockBytes (shr09 2).k) = okV)) :=
  ⟨⟨⟨by decide, rfl, rfl⟩, by decide +kernel, by decide +kernel, by decide +kernel, by decide +kernel, by decide +kernel,
     by decide +kernel, by decide +kernel, by decide +kernel, by decide +kernel, by decide +kernel, by decide +kernel,
     by decide +kernel, by decide +kernel, by decide +kernel, by decide +kernel, by decide +kernel, by decide +kernel⟩,
   by decide +kernel,
   by decide +kernel,
   by decide +kernel,
   ⟨⟨by decide, rfl, rfl⟩, by decide +kernel, by decide +kernel, by decide +kernel, by decide +kernel, by decide +kernel⟩,
   ⟨⟨by decide, rfl, rfl⟩, by decide +kernel, by decide +kernel, by decide +kernel, by decide +kernel, by decide +kernel⟩,
   ⟨⟨by decide, rfl, rfl⟩, by decide +kernel, by decide +kernel, by decide +kernel, by decide +kernel, by decide +kernel, rfl,
     by decide +kernel, by decide +kernel, by decide +kernel, by decide +kernel, by decide +kernel, by decide +kernel,
     by decide +kernel⟩,
   ⟨⟨by decide, rfl, rfl⟩, by decide +kernel, by decide +kernel, by decide +kernel, by decide +kernel, by decide +kernel, rfl,
     by decide +kernel, by decide +kernel, by decide +kernel, by decide +kernel, by decide +kernel, by decide +kernel,
     by decide +kernel, by decide +kernel, by decide +kernel, by decide +kernel, by decide +kernel⟩,
   by decide +kernel,
   by decide +kernel,
   by decide +kernel,
   by decide +kernel⟩

def w10a : State := { laid with cp.accts := [(0, { acct0 with cfg := 0x50 })] }
def w10g : State :=
  { laid with regs := [(regOff .CP_GCL_COUNT 0 0 0, 1), (regOff .CP_GCL_STAGE_DUR 0 0 0, 5000), (regOff .CP_GCL_CYCLE 0 0 0, 5000)] }
def u10g : State := rp .CP_GCL_CTL 0 0 0 2 w10g
def w10b : State := { laid with cp.accts := [(0, { acct0 with cfg := 0x20, ms := 5 })] }
def dUl : BitVec 512 := desc [(0, 7), (3, 1), (16, 0x61)]
def item10 : Item := ⟨3, 0, dUl, 0, 0, 1, 5, false, true, none, 0, false, [⟨5, 5, false, 0, 0⟩], false, false, none, false, false, 0⟩
def w10i (l : List Item) : State := { laid with cp.items := l }
def gcl10 : Gcl := ⟨[(5000, 0)], 0, 5000⟩
def ring10 (st : RingSt) : Ring := ⟨st, 3, 1, 0, false, false, 0, 0, []⟩
def rregs : NMap W32 := [(regOff .DB_CFG 0 0 0, 0x480), (regOff .DB_CFG 1 0 0, 0x88), (regOff .DB_BASE_LO 0 0 0, 0x600000)]
def w10r (st : RingSt) : State := { laid with regs := rregs, hp.rings := [(0, ring10 st), (1, ring10 .enabled)] }
def w10f : State := { w10r .enabled with mem := cells 0x600040 (leBytes 64 dUl.toNat), lay.img.ax := axAll [0x90, 0xA3] }
def w10d (i : Item) : State :=
  { w10i [i] with regs := rregs ++ [(regOff .CP_CLASS_DEFER_US 1 0 0, 1), (regOff .CP_CLASS_YELLOW_MAX_US 1 0 0, 1)], span := 10000000,
                  hp.rings := [(0, ring10 .enabled), (1, ring10 .enabled)] }
def on16 (n c : Nat) (x : Bool) : Item := { item10 with id := n, cls := c, shares := [⟨16, 5, x, 0, 0⟩] }
def w10p : State :=
  { w10i [on16 3 1 false, on16 4 2 true] with span := 10000000, regs := [(regOff .CP_CLASS_CFG 1 0 0, 0x8)],
                                                        engs := [(8192, eng0 .enabled 1)] }

/-- AccountAndMeterWrites: what meets the hypotheses of its clauses, in order. -/
theorem wit_AccountAndMeterWrites :
    (Allowed Req.pf0 RegId.CP_ACCT_CREDIT_HI 0 laid) ∧
    (Allowed Req.pf0 RegId.CP_ACCT_REFILL_MS 0 laid) ∧
    (Allowed Req.pf0 RegId.CP_ACCT_CFG 0 laid ∧ metersFit laid (48 % 2 ^ 22) (acctOf laid (acctSel laid Req.pf0)).base = true) ∧
    (Allowed Req.pf0 RegId.CP_ACCT_METER_BASE 0 laid ∧ metersFit laid (BitVec.toNat (acctOf laid (acctSel laid Req.pf0)).cfg) (2
      % 2 ^ 18) = true) ∧
    (Allowed Req.pf0 RegId.CP_ACCT_METER_BASE 0 w10a ∧ metersFit w10a (BitVec.toNat (acctOf w10a (acctSel w10a Req.pf0)).cfg) (4
      % 2 ^ 18) = false) ∧
    (Allowed Req.pf0 RegId.CP_METER_CIR 0 laid) ∧
    (Allowed Req.pf0 RegId.CP_METER_CBS 0 laid) ∧
    (Allowed Req.pf0 RegId.CP_METER_PIR 0 laid) ∧
    (Allowed Req.pf0 RegId.CP_METER_PBS 0 laid) :=
  ⟨by decide +kernel,
   by decide +kernel,
   by decide +kernel,
   by decide +kernel,
   by decide +kernel,
   by decide +kernel,
   by decide +kernel,
   by decide +kernel,
   by decide +kernel⟩

/-- BindingsGateListsAndTheWheel: what meets the hypotheses of its clauses, in order. -/
theorem wit_BindingsGateListsAndTheWheel :
    (Allowed Req.pf0 RegId.CP_RING_CFG 0 laid ∧ (Nat.testBit 65 6 = false ∨ classPart laid (65 % 64) = ringPart laid 0 ∧
      classPart laid (65 % 64) ≠ none)) ∧
    (Allowed Req.pf0 RegId.CP_RING_CFG 0 laid ∧ Nat.testBit 68 6 = true ∧ classPart laid (68 % 64) ≠ ringPart laid 0) ∧
    (Allowed Req.pf0 RegId.CP_GCL_CTL 0 w10g ∧ Nat.testBit 2 1 = true ∧ u10g = rp RegId.CP_GCL_CTL 0 0 0 2 w10g ∧ stagedGcl u10g
      0 = some { entries := [(5000, 0)], base := 0, cycle := 5000 } ∧ (ngetD w10g.cp.gcl 0
      { active := none, pending := none }).pending = none) ∧
    (Allowed Req.pf0 RegId.CP_GCL_CTL 0 laid ∧ Nat.testBit 2 1 = true ∧ stagedGcl (rp RegId.CP_GCL_CTL 0 0 0 2 laid) 0 = none) ∧
    ((BitVec.toNat (acctOf w10b 0).cfg).testBit 5 = true ∧ (acctOf w10b 0).ms ≠ 0 ∧ (acctOf w10b 0).next ≤ now w10b) ∧
    ((itemById (w10i [{ item10 with release := some 0 }]) 3 = some ({ item10 with release := some 0 })) ∧
      (({ item10 with release := some 0 }).release = some 0) ∧ (0 ≤ now (w10i [{ item10 with release := some 0 }])) ∧
      (({ item10 with release := some 0 }).released = false)) ∧
    (partPlan laid 0 = some plan0) ∧
    ((ngetD ({ laid with cp.gcl := [(0, { active := none, pending := some (gcl10, 0) })] }).cp.gcl 0
      { active := none, pending := none } = { active := none, pending := some (gcl10, 0) }) ∧ (0 ≤ now ({ laid with cp.gcl :=
      [(0, { active := none, pending := some (gcl10, 0) })] }))) :=
  ⟨by decide +kernel,
   by decide +kernel,
   by decide +kernel,
   by decide +kernel,
   by decide +kernel,
   by decide +kernel,
   by decide +kernel,
   by decide +kernel⟩

/-- RingsTakeIndicesAndEnableDrainAndAbort: what meets the hypotheses of its clauses, in order. -/
theorem wit_RingsTakeIndicesAndEnableDrainAndAbort :
    (Allowed Req.pf0 RegId.DB_SW_IDX 0 (w10r RingSt.enabled) ∧ (ringOf (w10r RingSt.enabled) 0).st = RingSt.enabled ∧ ringKind
      (w10r RingSt.enabled) 0 = 0 ∧ BitVec.toNat (4 - (ringOf (w10r RingSt.enabled) 0).c) ≤ ringSize (w10r RingSt.enabled) 0 ∧
      BitVec.toNat (4 - (ringOf (w10r RingSt.enabled) 0).p) ≤ ringSize (w10r RingSt.enabled) 0) ∧
    (Allowed Req.pf0 RegId.DB_SW_IDX 0 (w10r RingSt.enabled) ∧ (ringOf (w10r RingSt.enabled) 0).st = RingSt.enabled ∧ ringKind
      (w10r RingSt.enabled) 0 = 0 ∧ ringSize (w10r RingSt.enabled) 0 < BitVec.toNat (100 - (ringOf (w10r RingSt.enabled) 0).c)) ∧
    (Allowed Req.pf0 RegId.DB_SW_IDX 0 (w10r RingSt.disabled) ∧ (ringOf (w10r RingSt.disabled) 0).st = RingSt.disabled) ∧
    (Allowed Req.pf0 RegId.DB_CFG 0 (w10r RingSt.disabled) ∧ (ringOf (w10r RingSt.disabled) 0).st = RingSt.disabled ∧
      Nat.testBit 1153 0 = true ∧ ringAligned (rp RegId.DB_CFG 0 0 0 (1153 / 2 * 2) (w10r RingSt.disabled)) 0 = true) ∧
    (Allowed Req.pf0 RegId.DB_CFG 0 (w10r RingSt.enabled) ∧ (ringOf (w10r RingSt.enabled) 0).st = RingSt.enabled ∧ ringKind
      (w10r RingSt.enabled) 0 = 0 ∧ (ringOf (w10r RingSt.enabled) 0).p ≠ (ringOf (w10r RingSt.enabled) 0).c) ∧
    (Allowed Req.pf0 RegId.DB_CFG 0 (w10r RingSt.enabled) ∧ (ringOf (w10r RingSt.enabled) 0).st ≠ RingSt.disabled) ∧
    (((ringOf ({ w10r RingSt.enabled with hp.rings := [(0, { ring10 RingSt.enabled with irqAcc := 1 })] }) 0).irqAcc ≠ 0) ∧
      ((ringOf ({ w10r RingSt.enabled with hp.rings := [(0, { ring10 RingSt.enabled with irqAcc := 1 })] }) 0).irqAt + 1000 *
      bits (rg ({ w10r RingSt.enabled with hp.rings := [(0, { ring10 RingSt.enabled with irqAcc := 1 })] }) RegId.DB_IRQ) 31 24
      ≤ now ({ w10r RingSt.enabled with hp.rings := [(0, { ring10 RingSt.enabled with irqAcc := 1 })] })) ∧ (bits (rg ({ w10r
      RingSt.enabled with hp.rings := [(0, { ring10 RingSt.enabled with irqAcc := 1 })] }) RegId.DB_IRQ) 11 0 < fnVectors (bits
      (rg ({ w10r RingSt.enabled with hp.rings := [(0, { ring10 RingSt.enabled with irqAcc := 1 })] }) RegId.DB_OWNER) 6 0))) :=
  ⟨by decide +kernel,
   by decide +kernel,
   by decide +kernel,
   by decide +kernel,
   by decide +kernel,
   by decide +kernel,
   by decide +kernel⟩

/-- FetchAndDispatch: what meets the hypotheses of its clauses, in order. -/
theorem wit_FetchAndDispatch :
    (ringOf w10f 0 = ring10 RingSt.enabled ∧ (ring10 RingSt.enabled).st ≠ RingSt.disabled ∧ ringKind w10f 0 = 0 ∧ (ring10
      RingSt.enabled).p ≠ (ring10 RingSt.enabled).c ∧ isHost (ringBase w10f 0) = false ∧ cqUsable w10f 0 = true ∧ ringRoom w10f
      (cqOf w10f 0) ≠ 0 ∧ takeEntry 0 w10f = (dUl, okV, false, (takeEntry 0 w10f).snd.snd.snd) ∧ ringPart w10f 0 = some 0 ∧
      headerOk w10f 0 dUl = true ∧ unmetered (dOp dUl) = true ∧ w10f.pm.recovery = false) ∧
    (canAccept (w10i [item10]) 0 5 = true ∧ readyClasses (w10i [item10]) 0 5 false = [1] ∧ (queueOf (w10i [item10]) 0 5 1
      false).head? = some item10) :=
  ⟨by decide +kernel,
   by decide +kernel⟩

/-- DeferralWithdrawalAndPreemptionRequests: what meets the hypotheses of its clauses, in order. -/
theorem wit_DeferralWithdrawalAndPreemptionRequests :
    (itemById (w10d item10) 3 = some item10 ∧ queuedItem item10 = true ∧ item10.deferred = false ∧ item10.preempted = false ∧ rg
      (w10d item10) RegId.CP_CLASS_DEFER_US item10.cls ≠ 0 ∧ item10.admAt + 1000 * rg (w10d item10) RegId.CP_CLASS_DEFER_US
      item10.cls ≤ now (w10d item10) ∧ ringRoom (w10d item10) (cqOf (w10d item10) item10.ring) ≠ 0) ∧
    ((itemById (w10d ({ item10 with yellow := true })) 3 = some ({ item10 with yellow := true })) ∧ (queuedItem
      ({ item10 with yellow := true }) = true) ∧ (({ item10 with yellow := true }).yellow = true) ∧
      (({ item10 with yellow := true }).preempted = false) ∧ (rg (w10d ({ item10 with yellow := true }))
      RegId.CP_CLASS_YELLOW_MAX_US ({ item10 with yellow := true }).cls ≠ 0) ∧ (({ item10 with yellow := true }).admAt + 1000 *
      rg (w10d ({ item10 with yellow := true })) RegId.CP_CLASS_YELLOW_MAX_US ({ item10 with yellow := true }).cls ≤ now (w10d
      ({ item10 with yellow := true }))) ∧ ((({ item10 with yellow := true }).shares.any fun x => x.sent) = false)) ∧
    (itemById w10p 3 = some (on16 3 1 false) ∧ (on16 3 1 false).yellow = false ∧ preemptLevel w10p (on16 3 1 false).cls ≠ 0 ∧
      (16 < 4 ∨ 16 = 16) ∧ Option.map (fun x => x.id) (queueOf w10p (on16 3 1 false).part 16 (on16 3 1 false).cls false).head? =
      some 3 ∧ dispatchable w10p (on16 3 1 false) = true ∧ canAccept w10p (on16 3 1 false).part 16 = false ∧ (on16 3 1
      false).admAt + rg w10p RegId.CP_PART_PREEMPT_WAIT_NS (on16 3 1 false).part ≤ now w10p ∧ nget w10p.cp.preempt ((on16 3 1
      false).part * 18 + 16) = none ∧ preemptVictim w10p (on16 3 1 false).part 16 (preemptLevel w10p (on16 3 1 false).cls) =
      some (on16 4 2 true)) :=
  ⟨by decide +kernel,
   by decide +kernel,
   by decide +kernel⟩

def eng11 (x : EngSt) (w : Nat) : State := { laid with engs := [(6144, eng0 x w)] }
/-- PF0 alone is admitted; the blocks of a lay that fits the rules on their entries. -/
def axDev : NMap W32 := ([0, 320] ++ (List.range 21).map (352 + ·)).map fun t => (256 * t + 0x90, 0xF0000)
def lay11 : Lay := { laid.lay.img with ax := axDev, parts := [], voc := [] }
def img11 (n : Nat) : LayImg :=
  { readable := true, wellFormed := true, keySlot := 0, sig := true, uidOk := true, serial := n, conduct := 0, raise := true,
    rules := true, lay := { lay11 with parts := [(0, plan0)], voc := [(0, ⟨0, 1, 64⟩)] } }
def w11 : State :=
  { laid with lay.img := lay11, hw.store := [(0, ⟨1, 7⟩)], hw.storeOk := true, regs := [(regOff .HW_PART_CTL 0 0 0, 1)] }

/-- EnginesByTheirStateTable: what meets the hypotheses of its clauses, in order. -/
theorem wit_EnginesByTheirStateTable :
    (0 < engCount (kindBlk EngKind.lathe) ∧ Allowed Req.pf0 (engCtl (kindBlk EngKind.lathe)) 0 (eng11 EngSt.disabled 0) ∧ (engOf
      (eng11 EngSt.disabled 0) (kindBlk EngKind.lathe) 0).st = EngSt.disabled ∧ (engOf (eng11 EngSt.disabled 0) (kindBlk
      EngKind.lathe) 0).retired = false ∧ (engOf (eng11 EngSt.disabled 0) (kindBlk EngKind.lathe) 0).subst = false) ∧
    (0 < engCount (kindBlk EngKind.lathe) ∧ Allowed Req.pf0 (engCtl (kindBlk EngKind.lathe)) 0 (eng11 EngSt.enabled 0) ∧ (engOf
      (eng11 EngSt.enabled 0) (kindBlk EngKind.lathe) 0).st = EngSt.enabled ∧ (engOf (eng11 EngSt.enabled 0) (kindBlk
      EngKind.lathe) 0).work = 0 ∧ engMoves (eng11 EngSt.enabled 0) (kindBlk EngKind.lathe) 0 = false ∧ (engOf (eng11
      EngSt.enabled 0) (kindBlk EngKind.lathe) 0).serves = 0) ∧
    (0 < engCount (kindBlk EngKind.lathe) ∧ Allowed Req.pf0 (engCtl (kindBlk EngKind.lathe)) 0 (eng11 EngSt.enabled 3) ∧ (engOf
      (eng11 EngSt.enabled 3) (kindBlk EngKind.lathe) 0).st = EngSt.enabled ∧ (engOf (eng11 EngSt.enabled 3) (kindBlk
      EngKind.lathe) 0).work ≠ 0) ∧
    (0 < engCount (kindBlk EngKind.lathe) ∧ Allowed Req.pf0 (engCtl (kindBlk EngKind.lathe)) 0 (eng11 EngSt.enabled 3) ∧ ((engOf
      (eng11 EngSt.enabled 3) (kindBlk EngKind.lathe) 0).st = EngSt.enabled ∨ (engOf (eng11 EngSt.enabled 3) (kindBlk
      EngKind.lathe) 0).st = EngSt.draining)) ∧
    (0 < engCount (kindBlk EngKind.lathe) ∧ (engOf (eng11 EngSt.enabled 3) (kindBlk EngKind.lathe) 0).st ≠ EngSt.fenced) ∧
    (Allowed Req.pf0 RegId.PM_INST_RESET 0 (eng11 EngSt.fenced 0) ∧ instBlocks.contains 6 = true ∧ (eng11 EngSt.fenced
      0).lay.instBusy = none ∧ instFenced (eng11 EngSt.fenced 0) 6 0 = true) ∧
    (Allowed Req.pf0 RegId.PM_INST_RESET 0 (eng11 EngSt.enabled 0) ∧ instFenced (eng11 EngSt.enabled 0) 6 0 = false) ∧
    ((({ eng11 EngSt.fenced 0 with lay.instBusy := some (6, 0) }).lay.instBusy = some (6, 0)) ∧ ((ngetD
      ({ eng11 EngSt.fenced 0 with lay.instBusy := some (6, 0) }).ax.owed 6 (0, 0)).fst = 0) ∧ 6 ≠ 19) ∧
    ((({ laid with lay.instBusy := some (19, 2), lay.chFenced := [2] }).lay.instBusy = some (19, 2)) ∧ ((ngetD
      ({ laid with lay.instBusy := some (19, 2), lay.chFenced := [2] }).ax.owed 19 (0, 0)).fst = 0) ∧ 19 = 19) ∧
    ((({ eng11 EngSt.fenced 0 with lay.instBusy := some (6, 0) }).lay.instBusy = some (6, 0)) ∧ ((ngetD
      ({ eng11 EngSt.fenced 0 with lay.instBusy := some (6, 0) }).ax.owed 6 (0, 0)).fst = 0)) ∧
    ((nget ({ laid with span := 100000000000, ax.owed := [(4, 2, 0)] }).ax.owed 4 = some (2, 0)) ∧ 0 < 2 ∧ (0 + 1000 * rg
      ({ laid with span := 100000000000, ax.owed := [(4, 2, 0)] }) RegId.PM_RSP_TMO ≤ now
      ({ laid with span := 100000000000, ax.owed := [(4, 2, 0)] }))) :=
  ⟨by decide +kernel,
   by decide +kernel,
   by decide +kernel,
   by decide +kernel,
   by decide +kernel,
   by decide +kernel,
   by decide +kernel,
   by decide +kernel,
   by decide +kernel,
   by decide +kernel,
   by decide +kernel⟩

/-- FaultsOfMemoryAndRegisters: what meets the hypotheses of its clauses, in order. -/
theorem wit_FaultsOfMemoryAndRegisters :
    ((slotOf (withSess sess0) 0).st ≠ SlotSt.free ∧ (slotOf (withSess sess0) 0).st ≠ SlotSt.faulted) ∧
    (nget laid.ax.armed 3 = none) ∧
    (regDecode 6292484 = some ((regDecode 6292484).getD (⟨RegId.LA_CTL, 0, 0, 0⟩ : RegAt)) ∧ regEngine ((regDecode 6292484).getD
      (⟨RegId.LA_CTL, 0, 0, 0⟩ : RegAt)) = some (6, 0) ∧ (engOf (eng11 EngSt.enabled 0) 6 0).st ≠ EngSt.fenced ∧ 0 < engCount 6) ∧
    (regDecode 14680324 = some (⟨RegId.HP_CPL_TMO, 0, 0, 0⟩ : RegAt) ∧ regEngine (⟨RegId.HP_CPL_TMO, 0, 0, 0⟩ : RegAt) = none ∧
      (⟨RegId.HP_CPL_TMO, 0, 0, 0⟩ : RegAt).id ≠ RegId.HM_CH_STAT ∧ offBlock (regOff RegId.HP_CPL_TMO 0 0 0) = offBlock 14680324
      ∧ offBlock (regOff RegId.HP_CPL_TMO 0 0 0) ∈ [13, 14, 15, 16, 18]) ∧
    (Allowed Req.pf0 RegId.HM_SPARE_CMD 0 laid ∧ 0 < spareLeft laid (3 / 32) ∧ laid.lay.copying.contains 3 = false ∧
      laid.lay.chFenced.contains 3 = false) ∧
    ((({ laid with lay.copying := [3] }).lay.copying.contains 3 = true)) ∧
    (((stackAt ({ laid with span := 36000000000000000, sp.hbm := [(0, { stack0 with ready := true })] }) 0).ready = true) ∧
      ((stackAt ({ laid with span := 36000000000000000, sp.hbm := [(0, { stack0 with ready := true })] }) 0).lastScrub +
      3600000000000 * rg ({ laid with span := 36000000000000000, sp.hbm := [(0, { stack0 with ready := true })] })
      RegId.HM_SCRUB_CFG ≤ now ({ laid with span := 36000000000000000, sp.hbm := [(0, { stack0 with ready := true })] }))) :=
  ⟨by decide +kernel,
   by decide +kernel,
   by decide +kernel,
   by decide +kernel,
   by decide +kernel,
   by decide +kernel,
   by decide +kernel⟩

/-- PartitionsAreLaidDrainedAndTornDown: what meets the hypotheses of its clauses, in order. -/
theorem wit_PartitionsAreLaidDrainedAndTornDown :
    (Allowed Req.pf0 RegId.HW_LAY_CTL 0 w11 ∧ w11.lay.busy = false ∧ w11.hw.restarting = none ∧ rp RegId.HW_LAY_CTL 0 0 0 0 w11
      = rp RegId.HW_LAY_CTL 0 0 0 0 w11 ∧ w11.lay.laid = true ∧ w11.pm.recovery = false ∧ layCause (rp RegId.HW_LAY_CTL 0 0 0 0
      w11) (some 0) (img11 5) = 0) ∧
    (Allowed Req.pf0 RegId.HW_LAY_CTL 0 w11 ∧ w11.lay.busy = false ∧ w11.hw.restarting = none ∧ rp RegId.HW_LAY_CTL 0 0 0 0 w11
      = rp RegId.HW_LAY_CTL 0 0 0 0 w11 ∧ w11.lay.laid = true ∧ w11.pm.recovery = false ∧ layCause (rp RegId.HW_LAY_CTL 0 0 0 0
      w11) (some 0) (img11 0) ≠ 0) ∧
    (Allowed Req.pf0 RegId.HW_PART_CTL 0 laid ∧ (partPlan laid 0).isSome = true) ∧
    (Allowed Req.pf0 RegId.HW_PART_CTL 0 laid) ∧
    (Allowed Req.pf0 (drainReg DrainUnit.ht) 0 laid) :=
  ⟨by decide +kernel,
   by decide +kernel,
   by decide +kernel,
   by decide +kernel,
   by decide +kernel⟩

/-- A queue-pair context: MTU 1, region 0 with key 5, read and write, 64 KiB at 0x300000, doorbell of ring 0. -/
def qpCtx : List Byte := bytesOf 128 [(4, 9), (30, 0x10), (64, 5), (68, 3), (72, 0x300000), (78, 1)]
def qp12 : Qp := ⟨.ready, 0, 9, qpCtx⟩
def w12 : State :=
  { laid with lay.img.ax := axAll [0x9E, 0x90, 0x91], hp.qps := [(3, qp12)], mem := cells 0x300180 qpCtx,
              regs := [(regOff .HP_QP_TABLE_LO 0 0 0, 0x300000)], hp.rings := [(0, ⟨.enabled, 0, 0, 0, false, false, 0, 0, []⟩)],
              lay.img.quads := [(0, .eth)] }
def w12e : State := { w12 with hp.eth := [(0, ⟨true, false, 0, false⟩)], regs := [(regOff .HP_ETH_IP4 0 0 0, 0x0A000001)] }
def sub12 : SubPort := ⟨true, true, 1, 4, true, false, some 0, 0⟩
def w12s : State := { w12 with hp.subs := [(1, sub12)], span := 100000000000, lay.img.farMode := true, lay.img.bifur := 3 }
def job12 : SpJob := ⟨0, dCopy, 0, 0, [0], false, 0⟩
def w12d : State := { laid with hp.dma := [⟨2, 0, dCopy, none, 0⟩], sp.jobs := [job12], span := 100000000000 }

/-- RdmaWritesReadsAndRefusals: what meets the hypotheses of its clauses, in order. -/
theorem wit_RdmaWritesReadsAndRefusals :
    (qpOf w12 3 = qp12 ∧ qp12.st = QpSt.ready ∧ 9 = qp12.epsn ∧ [1, 2] ≠ [] ∧ regionOk qp12 5 3145792 [1, 2].length true = true
      ∧ accessCheck (ctr Ct.HP_ROCE_RX_PKT_CNT ((ringPart w12 (qpRing qp12)).getD 16) w12) (qpReq (ctr Ct.HP_ROCE_RX_PKT_CNT
      ((ringPart w12 (qpRing qp12)).getD 16) w12) qp12) Acc.wr 3145792 [1, 2].length = okV) ∧
    (qpOf w12 3 = qp12 ∧ qp12.st = QpSt.ready ∧ 9 = qp12.epsn) ∧
    (qpOf w12 3 = qp12 ∧ qp12.st = QpSt.ready ∧ 9 = qp12.epsn ∧ regionOk qp12 5 3145792 64 false = true ∧ accessCheck (ctr
      Ct.HP_ROCE_RX_PKT_CNT ((ringPart w12 (qpRing qp12)).getD 16) w12) (qpReq (ctr Ct.HP_ROCE_RX_PKT_CNT ((ringPart w12 (qpRing
      qp12)).getD 16) w12) qp12) Acc.rd 3145792 64 = okV ∧ poisoned (ctr Ct.HP_ROCE_RX_PKT_CNT ((ringPart w12 (qpRing
      qp12)).getD 16) w12) 3145792 64 = false) ∧
    (qpOf w12 3 = qp12 ∧ qp12.st = QpSt.ready ∧ 9 = qp12.epsn) ∧
    (qpOf w12 3 = qp12 ∧ qp12.st = QpSt.ready ∧ 9 = qp12.epsn ∧ Allowed Req.pf0 RegId.HP_QP_CMD 0 w12) ∧
    (qpOf w12 3 = qp12 ∧ qp12.st = QpSt.ready ∧ 9 = qp12.epsn ∧ Allowed Req.pf0 RegId.HP_QP_CMD 0 w12 ∧ 3146112 = rg64 w12
      RegId.HP_QP_TABLE_LO RegId.HP_QP_TABLE_HI 0 + 128 * 3 ∧ 3146112 + 128 ≤ hbmEnd ∧ poisoned w12 3146112 128 = false ∧
      readPlain (unitReq 144 16) 3146112 128 w12 = (okV, qpCtx, w12) ∧ qpCtx = rdBytes w12 3146112 128 ∧ qpCause w12 qpCtx = 0 ∧
      qpCtx ≠ []) :=
  ⟨by decide +kernel,
   by decide +kernel,
   by decide +kernel,
   by decide +kernel,
   by decide +kernel,
   by decide +kernel⟩

/-- EthernetAndFarPortEvents: what meets the hypotheses of its clauses, in order. -/
theorem wit_EthernetAndFarPortEvents :
    (ethLaid w12e 0 = true ∧ (ethOf w12e 0).up = true ∧ rg w12e RegId.HP_ETH_IP4 ≠ 0 ∧ rg w12e RegId.HP_ETH_IP4 = 167772161) ∧
    ((ethOf w12e 0).up = true ∧ 3 = rg w12e RegId.HP_ETH_PFC_PRIO) ∧
    (ethLaid w12 0 = true) ∧
    ((subOf w12s 1).enumd = true) ∧
    (1 < subPorts w12s ∧ 2 ≠ 0 ∧ w12s.lay.img.farMode = true) ∧
    ((subOf w12s 1).wait = some 0 ∧ 0 + 1000000 * rg w12s RegId.FP_MEM_ACTIVE_TMO ≤ now w12s) ∧
    ((subOf w12s 1).up = true ∧ (farOf w12s 1).present = false) ∧
    (1 < subPorts w12s ∧ (subOf w12s 1).prsnt ≠ false ∧ (farOf w12s 1).present = false) ∧
    (Allowed Req.pf0 RegId.FP_RP_CFG_CTL 0 w12 ∧ w12.lay.laid = true ∧ w12.lay.img.farMode = false ∧ w12.hp.rpBusy = false) :=
  ⟨by decide +kernel,
   by decide +kernel,
   by decide +kernel,
   by decide +kernel,
   by decide +kernel,
   by decide +kernel,
   by decide +kernel,
   by decide +kernel,
   by decide +kernel⟩

/-- HostLinkAndFailedHostRequests: what meets the hypotheses of its clauses, in order. -/
theorem wit_HostLinkAndFailedHostRequests :
    (3 ≠ 0 ∧ (16 = 4 ∨ 16 = 8 ∨ 16 = 16) ∧ 8 ≤ laid.pm.step ∧ laid.pm.romRec = false ∧ laid.pm.sdDead = false ∧ laid.pm.role ≠ 1
      ∧ (∀ (e : Nat × Ring), e ∈ laid.hp.rings → e.snd.held = [])) ∧
    (laid.hp.dma = []) ∧
    (laid.hp.dma = [] ∧ laid.lay.img.perstReset = false) ∧
    ((({ laid with lay.img.perstReset := true }).lay.laid = true) ∧
      (({ laid with lay.img.perstReset := true }).lay.img.perstReset = true)) ∧
    (List.find? (fun x => x.id == 2) w12d.hp.dma = some (⟨2, 0, dCopy, none, 0⟩ : Dma) ∧ (⟨2, 0, dCopy, none, 0⟩ : Dma).slot =
      none ∧ List.find? (fun j => j.ring == (⟨2, 0, dCopy, none, 0⟩ : Dma).ring && j.desc == (⟨2, 0, dCopy, none, 0⟩ :
      Dma).desc) w12d.sp.jobs = some job12) ∧
    (List.find? (fun x => x.id == 2) w12d.hp.dma = some (⟨2, 0, dCopy, none, 0⟩ : Dma) ∧ (⟨2, 0, dCopy, none, 0⟩ : Dma).slot =
      none ∧ List.find? (fun j => j.ring == (⟨2, 0, dCopy, none, 0⟩ : Dma).ring && j.desc == (⟨2, 0, dCopy, none, 0⟩ :
      Dma).desc) w12d.sp.jobs = some job12 ∧ (⟨2, 0, dCopy, none, 0⟩ : Dma).start + 1000 * rg w12d RegId.HP_CPL_TMO ≤ now w12d) :=
  ⟨by decide +kernel,
   by decide +kernel,
   by decide +kernel,
   by decide +kernel,
   by decide +kernel,
   by decide +kernel⟩

/-- HostWindowAndConfigurationAccesses: what meets the hypotheses of its clauses, in order. -/
theorem wit_HostWindowAndConfigurationAccesses :
    (laid.hp.up = true ∧ laid.pm.recovery = false ∧ laid.pm.romRec = false ∧ 3145728 + [1, 2].length ≤ hbmEnd ∧ 3145728 < hbmEnd
      ∧ winVerdict laid Req.pf0 Acc.wr 3145728 [1, 2].length = okV) ∧
    (laid.hp.up = true ∧ laid.pm.recovery = false ∧ laid.pm.romRec = false ∧ 3145728 + 64 ≤ hbmEnd ∧ 3145728 < hbmEnd ∧
      winVerdict laid Req.pf0 Acc.rd 3145728 64 = okV ∧ poisoned laid 3145728 64 = false) ∧
    (w12.lay.laid = true ∧ w12.lay.img.farMode = false ∧ 3145728 < hbmEnd ∧ winVerdict w12
      { mst := 145, fn := 0, part := BitVec.ofNat 4 (rg w12 RegId.FP_RP_PART), dev := false } Acc.wr 3145728 [1, 2].length =
      okV) ∧
    (laid.lay.laid = true ∧ laid.lay.img.farMode = false ∧ 3145728 < hbmEnd ∧ winVerdict laid
      { mst := 145, fn := 0, part := BitVec.ofNat 4 (rg laid RegId.FP_RP_PART), dev := false } Acc.wr 3145728 [1, 2].length =
      { st := stFaultAccess, det := detTarget (some (chanOf 3145728)) }) ∧
    ((({ laid with pm.step := 5 }).pm.step < 8) ∧ (({ laid with pm.step := 5 }).pm.romRec = false)) ∧
    (8 ≤ laid.pm.step ∧ laid.hp.up = true ∧ fnExists laid 0 = true) :=
  ⟨by decide +kernel,
   by decide +kernel,
   by decide +kernel,
   by decide +kernel,
   by decide +kernel,
   by decide +kernel⟩

def upL : HLink := { link0 with st := .up, good := 15, lanes := 15, width := 3, rxSeq := 7 }
def hpk : HPkt := ⟨0, 1, none, 0, 5⟩
def w13 (l : HLink) : State :=
  { laid with lay.img.quads := [(2, .harah)], hf.links := [(2, l)], span := 100000000000000, hf.idValid := true, hf.devId := 1,
              hf.time.locked := true, lay.img.ax := axAll [0x90, 0x94] }
def upU : HLink := { upL with unacked := [hpk] }
def upR : HLink := { upU with runs := 200 }
def upN : HLink := { upL with naking := true, owed := true, ctl := [⟨Mk.harahAnswer, [2], []⟩] }
def trL : HLink := { link0 with st := .training, good := 15 }
def reL : HLink := { upU with st := .retraining }
def dnL : HLink := { link0 with st := .down }
def ownL : HLink := { upU with st := .widthChange, ownReq := some 0 }
def wcL : HLink := { upU with st := .widthChange, want := some (2, 3) }
def reqL : HLink := { upU with ownReq := some 1 }
def hd (a : BitVec 48) : HfHdr := ⟨0, 5, 1, a, 77, BitVec.ofNat 16 (100000000000000 / 1024), false⟩
def hreq (d : Nat) (hold : Bool) : HfReq := ⟨77, d, 1, 0, 100000000000000 / 1024, 2, 0, 8, .mailbox 0, hold, 0, []⟩
def w13r (r : HfReq) : State := { w13 upL with hf.reqs := [r], hf.box := [(0, ⟨true, 0, 0, none⟩)] }
def w13b : State :=
  { w13 upL with regs := [(regOff .HF_RA_ADDR_HI 0 0 0, 0x50000), (regOff .HF_RA_ADDR_LO 0 0 0, 0x300000)], hf.routes := [(5, 0x0042)] }
def w13t : State := { w13 upL with regs := [(regOff .HF_TIME_CFG 0 0 0, 4), (regOff .HF_TIME_LOCK_NS 0 0 0, 500)], hf.time.everLock := true }
def w13u : State := { w13t with hf.time.everLock := false, hf.time.inRow := 15, hf.time.last := 5 }
def w13p : State := { w13t with regs := [(regOff .HF_TIME_CFG 0 0 0, 1)], hf.time.t1 := some 5 }

def node13 : HNode := ⟨ownUid + 1, none, 9⟩
def w13y : State := { w13 upL with hf.marshal := true, hf.nodes := [node13] }
theorem best_of_two (a : HNode) (ha : a.uid = ownUid) :
    bestOf (((a :: [node13].filter fun n => n.uid != ownUid).filter fun n => n.prio != 0).filter fun n => n.uid != ownUid) =
      some node13 := by
  have h : (node13.uid != ownUid) = true := by simp [node13]
  have h2 : (a.uid != ownUid) = false := by simp [ha]
  have h3 : (node13.prio != 0) = true := rfl
  by_cases h4 : (a.prio != 0) = true <;> simp only [List.filter, h, h2, h3, h4, bestOf]
theorem span_yield : bestOf ((marshalCandidates w13y).filter fun n => n.uid != ownUid) = some node13 :=
  best_of_two (ownNode w13y) rfl

/-- HarahLinksCarryPackets: what meets the hypotheses of its clauses, in order. -/
theorem wit_HarahLinksCarryPackets :
    (isHarah (w13 upL) 2 = true ∧ linkOf (w13 upL) 2 = upL ∧ upL.st = LkSt.up ∧ upL.wait = [] ∧ upL.rxSeq = 7) ∧
    (isHarah (w13 upL) 2 = true ∧ linkOf (w13 upL) 2 = upL ∧ upL.st = LkSt.up ∧ upL.wait = [] ∧ (9 + 4096 - upL.rxSeq) % 4096 ≠
      0 ∧ (9 + 4096 - upL.rxSeq) % 4096 < 2049 ∧ upL.naking = false) ∧
    (isHarah (w13 upL) 2 = true ∧ linkOf (w13 upL) 2 = upL ∧ upL.st = LkSt.up ∧ upL.wait = [] ∧ upL.naking = false) ∧
    (linkOf (w13 upU) 2 = upU ∧ linkSends upU = true ∧ upU.unacked ≠ [] ∧ upU.ackAt + 4000 ≤ now (w13 upU) ∧ upU.runs + 1 < rg
      (w13 upU) RegId.HF_REPLAY_LIMIT) ∧
    (linkOf (w13 upR) 2 = upR ∧ upR.st = LkSt.up ∧ upR.unacked ≠ [] ∧ upR.ackAt + 4000 ≤ now (w13 upR) ∧ max 1 (rg (w13 upR)
      RegId.HF_REPLAY_LIMIT) ≤ upR.runs + 1) ∧
    (linkOf (w13 upN) 2 = upN ∧ linkHears upN = true ∧ upN.naking = true ∧ upN.nakAt + 2000 ≤ now (w13 upN)) ∧
    (linkOf (w13 upN) 2 = upN ∧ linkHears upN = true ∧ upN.owed = true ∧ upN.owedAt + 100 ≤ now (w13 upN)) ∧
    (linkOf (w13 upN) 2 = upN ∧ upN.st ≠ LkSt.disabled ∧ upN.st ≠ LkSt.down ∧ upN.ctl ≠ [] ∧ upN.ctlAt + 2000 ≤ now (w13 upN)) :=
  ⟨by decide +kernel,
   by decide +kernel,
   by decide +kernel,
   by decide +kernel,
   by decide +kernel,
   by decide +kernel,
   by decide +kernel,
   by decide +kernel⟩

/-- HarahLinksTrainChangeWidthAndFall: what meets the hypotheses of its clauses, in order. -/
theorem wit_HarahLinksTrainChangeWidthAndFall :
    (Allowed Req.pf0 RegId.HF_LK_CTL 2 (w13 link0) ∧ isHarah (w13 link0) 2 = true ∧ linkOf (w13 link0) 2 = link0 ∧ link0.st =
      LkSt.disabled ∧ link0.fenced = false) ∧
    (Allowed Req.pf0 RegId.HF_LK_CTL 2 (w13 upL) ∧ isHarah (w13 upL) 2 = true ∧ linkOf (w13 upL) 2 = upL ∧ upL.st = LkSt.up ∧
      upL.wait = [] ∧ upL.unacked = []) ∧
    (Allowed Req.pf0 RegId.HF_LK_CTL 2 (w13 upU) ∧ isHarah (w13 upU) 2 = true ∧ linkOf (w13 upU) 2 = upU ∧ upU.st = LkSt.up ∧
      upU.wait = [] ∧ upU.unacked ≠ []) ∧
    (Allowed Req.pf0 RegId.HF_LK_CTL 2 (w13 upU) ∧ isHarah (w13 upU) 2 = true ∧ linkOf (w13 upU) 2 = upU ∧ upU.st ≠
      LkSt.disabled) ∧
    (Allowed Req.pf0 RegId.HF_LK_CTL 2 (w13 upU) ∧ isHarah (w13 upU) 2 = true ∧ linkOf (w13 upU) 2 = upU ∧ (upU.st = LkSt.up ∨
      upU.st = LkSt.widthChange)) ∧
    (isHarah (w13 trL) 2 = true ∧ linkOf (w13 trL) 2 = trL ∧ (trL.st = LkSt.training ∨ trL.st = LkSt.retraining) ∧ (pickWidth
      (15 &&& 3)).fst ≠ 0 ∧ minWidth (w13 trL) 2 ≤ (pickWidth (15 &&& 3)).fst ∧ trL.again = none) ∧
    (linkOf (w13 trL) 2 = trL ∧ trL.st = LkSt.training ∧ trL.since + 10000000 ≤ now (w13 trL)) ∧
    (linkOf (w13 reL) 2 = reL ∧ reL.st = LkSt.retraining ∧ reL.since + 1000000 * rg (w13 reL) RegId.HF_LK_DOWN_MS 2 ≤ now (w13
      reL)) ∧
    (linkOf (w13 dnL) 2 = dnL ∧ dnL.st = LkSt.down ∧ dnL.since + 1000000 ≤ now (w13 dnL)) ∧
    (linkOf (w13 upU) 2 = upU ∧ upU.st = LkSt.up ∧ upU.lanes &&& 8 ≠ 0 ∧ upU.good &&& (15 ^^^ 8) ≠ 0) ∧
    (linkOf (w13 upU) 2 = upU ∧ upU.st = LkSt.up ∧ upU.lanes &&& 15 ≠ 0 ∧ upU.good &&& (15 ^^^ 15) = 0) ∧
    (linkOf (w13 ownL) 2 = ownL ∧ (ownL.st = LkSt.up ∨ ownL.st = LkSt.widthChange) ∧ (ownL.st = LkSt.up → pickWidth (ownL.good
      &&& 3) ≠ (ownL.width, ownL.lanes)) ∧ minWidth (w13 ownL) 2 ≤ (pickWidth (ownL.good &&& 3)).fst ∧ ownL.ownReq = some 0) ∧
    (linkOf (w13 upU) 2 = upU ∧ (upU.st = LkSt.up ∨ upU.st = LkSt.widthChange) ∧ (upU.st = LkSt.up → pickWidth (upU.good &&& 3)
      ≠ (upU.width, upU.lanes)) ∧ minWidth (w13 upU) 2 ≤ (pickWidth (upU.good &&& 3)).fst ∧ upU.ownReq = none) ∧
    (linkOf (w13 wcL) 2 = wcL ∧ wcL.want = some (2, 3) ∧ wcL.st = LkSt.widthChange ∧ wcL.again = none) ∧
    (linkOf (w13 upU) 2 = upU ∧ (upU.st = LkSt.up ∨ upU.st = LkSt.widthChange)) ∧
    (linkOf (w13 reqL) 2 = reqL ∧ reqL.ownReq = some 1) :=
  ⟨by decide +kernel,
   by decide +kernel,
   by decide +kernel,
   by decide +kernel,
   by decide +kernel,
   by decide +kernel,
   by decide +kernel,
   by decide +kernel,
   by decide +kernel,
   by decide +kernel,
   by decide +kernel,
   by decide +kernel,
   by decide +kernel,
   by decide +kernel,
   by decide +kernel,
   by decide +kernel⟩

/-- HarahRequestsAreServedAndAnswered: what meets the hypotheses of its clauses, in order. -/
theorem wit_HarahRequestsAreServedAndAnswered :
    (hfMember (w13 upL) = true ∧ hfAge (w13 upL) (hd 3145728).birth.toNat ≤ rg (w13 upL) RegId.HF_LIFE_US ∧ (hd
      3145728).dst.toNat = (w13 upL).hf.devId ∧ hfVerdict (w13 upL) 2 (hd 3145728) Acc.rd 64 = okV ∧ (hd 3145728).off.toNat <
      regBase ∧ poisoned (w13 upL) (hd 3145728).off.toNat 64 = false) ∧
    (hfMember (w13 upL) = true ∧ hfAge (w13 upL) (hd 3145728).birth.toNat ≤ rg (w13 upL) RegId.HF_LIFE_US ∧ (hd
      3145728).dst.toNat = (w13 upL).hf.devId ∧ hfVerdict (w13 upL) 2 (hd 3145728) Acc.wr [1, 2].length = okV ∧ (hd
      3145728).off.toNat < regBase) ∧
    (hfMember (w13 upL) = true ∧ hfAge (w13 upL) (hd 3145728).birth.toNat ≤ rg (w13 upL) RegId.HF_LIFE_US ∧ (hd
      3145728).dst.toNat = (w13 upL).hf.devId ∧ hfVerdict (w13 upL) 2 (hd 3145728) Acc.wr [1, 2].length = okV ∧ (hd
      3145728).off.toNat < regBase) ∧
    (hfMember (w13 upL) = true ∧ hfAge (w13 upL) (hd 3145728).birth.toNat ≤ rg (w13 upL) RegId.HF_LIFE_US ∧ (hd
      3145728).dst.toNat = (w13 upL).hf.devId ∧ 3145728 = (hd 3145728).off.toNat / 8 * 8 ∧ hfVerdict (w13 upL) 2
      { (hd 3145728) with off := 3145728#48 } Acc.at 8 = okV ∧ atomicBarred 3145728 = false ∧ atomicNew 1 (rdNat (w13 upL)
      3145728 8) 5 0 = some 5 ∧ poisoned (w13 upL) 3145728 8 = false) ∧
    (hfMember (w13 upL) = true ∧ hfAge (w13 upL) (hd 3145728).birth.toNat ≤ rg (w13 upL) RegId.HF_LIFE_US ∧ (hd
      3145728).dst.toNat = (w13 upL).hf.devId ∧ isConf (w13 upL) (hd 3145728).part.toNat = false ∧ axAdmits (w13 upL) (hfReq 2
      (hd 3145728)) Acc.wr 384 = true) ∧
    (hfMember (w13r (hreq 5 false)) = true ∧ (⟨0, 5, 1, 0, 77, BitVec.ofNat 16 (100000000000000 / 1024)⟩ : HfRsp).dst.toNat =
      (w13r (hreq 5 false)).hf.devId ∧ hfAge (w13r (hreq 5 false)) (⟨0, 5, 1, 0, 77, BitVec.ofNat 16 (100000000000000 / 1024)⟩ :
      HfRsp).birth.toNat ≤ 2 * rg (w13r (hreq 5 false)) RegId.HF_LIFE_US ∧ reqOf (w13r (hreq 5 false)) (⟨0, 5, 1, 0, 77,
      BitVec.ofNat 16 (100000000000000 / 1024)⟩ : HfRsp).tag.toNat = some (hreq 5 false) ∧ (hreq 5 false).dst = (⟨0, 5, 1, 0,
      77, BitVec.ofNat 16 (100000000000000 / 1024)⟩ : HfRsp).src.toNat ∧ (hreq 5 false).what = HfWhat.mailbox 0) ∧
    ((reqOf (w13r ({ hreq 5 false with birth := 0 })) 77 = some ({ hreq 5 false with birth := 0 })) ∧
      (({ hreq 5 false with birth := 0 }).held = false) ∧ (({ hreq 5 false with birth := 0 }).birth + e2eNs (w13r
      ({ hreq 5 false with birth := 0 })) ≤ now (w13r ({ hreq 5 false with birth := 0 }))) ∧
      (({ hreq 5 false with birth := 0 }).what = HfWhat.mailbox 0)) ∧
    ((({ w13r (hreq 5 true) with hf.holdDst := [5] }).hf.holdDst.contains 5 = true) ∧ (orderedOut
      ({ w13r (hreq 5 true) with hf.holdDst := [5] }) 5 = false)) ∧
    (Allowed Req.pf0 RegId.HF_RA_CMD 0 w13b ∧ isConf w13b 0 = false ∧ (boxOf w13b 0).busy = false ∧ hfMember w13b = true ∧
      boxAddr w13b 0 / 2 ^ 48 ≠ w13b.hf.devId ∧ escQuad w13b (boxAddr w13b 0 / 2 ^ 48) ≠ 15 ∧ 8 = (if true = true then 8 else 4)
      ∧ boxAddr w13b 0 % 2 ^ 48 % 8 = 0) ∧
    (Allowed Req.pf0 RegId.HF_RA_CMD 0 w13b ∧ isConf w13b 0 = false ∧ (boxOf w13b 0).busy = false ∧ hfMember w13b = true ∧
      boxAddr w13b 0 / 2 ^ 48 ≠ w13b.hf.devId ∧ escQuad w13b (boxAddr w13b 0 / 2 ^ 48) ≠ 15 ∧ boxAddr w13b 0 % 2 ^ 48 % 8 = 0) ∧
    (Allowed Req.pf0 RegId.HF_RA_CMD 0 w13b ∧ isConf w13b 0 = false ∧ (boxOf w13b 0).busy = false ∧ storesTo w13b (boxAddr w13b
      0 / 2 ^ 48) = []) :=
  ⟨by decide +kernel,
   by decide +kernel,
   by decide +kernel,
   by decide +kernel,
   by decide +kernel,
   by decide +kernel,
   by decide +kernel,
   by decide +kernel,
   by decide +kernel,
   by decide +kernel,
   by decide +kernel⟩

/-- TheSpanItsMarshalAndItsTime: what meets the hypotheses of its clauses, in order. -/
theorem wit_TheSpanItsMarshalAndItsTime :
    ((linkOf (w13 upL) 2).st = LkSt.up) ∧
    ((linkOf (w13 upL) 2).st = LkSt.up ∧ (w13 upL).hf.marshalId ≠ 9) ∧
    ((linkOf (w13 upL) 2).st = LkSt.up ∧ Config.uid.toNat = ownUid) ∧
    ((({ w13 upL with hf.standby := true }).hf.standby = true) ∧ (({ w13 upL with hf.standby := true }).hf.marshalAt + 10000000
      ≤ now ({ w13 upL with hf.standby := true }))) ∧
    ((Allowed Req.pf0 RegId.HF_CTL 0 ({ w13 upL with hf.marshal := true })) ∧ (({ w13 upL with hf.marshal := true }).hf.marshal
      = true)) ∧
    (Allowed .pf0 .HF_CTL 0 w13y ∧ w13y.hf.marshal = true ∧ bestOf ((marshalCandidates w13y).filter fun n => n.uid != ownUid) =
      some node13) ∧
    ((Allowed Req.pf0 RegId.HF_CTL 0 ({ w13 upL with hf.time.stopped := true })) ∧
      (({ w13 upL with hf.time.stopped := true }).hf.time.stopped = true)) ∧
    (timeSrc w13t = 4 ∧ w13t.hf.marshal = false ∧ (linkOf w13t 2).st = LkSt.up ∧ (nget w13t.hf.links 2).isSome = true ∧
      w13t.hf.time.everLock = true ∧ w13t.hf.time.stopped = false ∧ ((100000000000003 + (4 / 2 : Nat) : Int) - (now w13t :
      Int)).natAbs ≤ lockNs w13t ∧ ((100000000000003 + (4 / 2 : Nat) : Int) - (now w13t : Int)).natAbs ≤ 1000000) ∧
    (timeSrc w13t = 4 ∧ w13t.hf.marshal = false ∧ (linkOf w13t 2).st = LkSt.up ∧ (nget w13t.hf.links 2).isSome = true ∧
      w13t.hf.time.everLock = true ∧ w13t.hf.time.stopped = false ∧ 1000000 < ((100000002000003 + (4 / 2 : Nat) : Int) - (now
      w13t : Int)).natAbs) ∧
    (timeSrc w13u = 4 ∧ w13u.hf.marshal = false ∧ (linkOf w13u 2).st = LkSt.up ∧ (nget w13u.hf.links 2).isSome = true ∧
      w13u.hf.time.everLock = false ∧ w13u.hf.time.inRow = 15 ∧ ↑(↑100000000000003 + ↑(4 / 2) - ↑(now w13u) -
      w13u.hf.time.last).natAbs ≤ lockNs w13u) ∧
    (ptpPort (timeSrc w13p) = some 0) ∧
    (ptpPort (timeSrc w13p) = some 0 ∧ w13p.hf.time.t1 = some 5) ∧
    (w13t.hf.time.coarse = none) ∧
    ((({ w13t with regs := [(regOff RegId.HF_TIME_CFG 0 0 0, 8)] }).hf.time.locked = true) ∧ (bit (rg
      ({ w13t with regs := [(regOff RegId.HF_TIME_CFG 0 0 0, 8)] }) RegId.HF_TIME_CFG) 3 = true) ∧ (now
      ({ w13t with regs := [(regOff RegId.HF_TIME_CFG 0 0 0, 8)] }) % 1000000000 = 0)) :=
  ⟨by decide +kernel,
   by decide +kernel,
   ⟨by decide +kernel, rfl⟩,
   by decide +kernel,
   by decide +kernel,
   ⟨by decide +kernel, by decide +kernel, span_yield⟩,
   by decide +kernel,
   by decide +kernel,
   by decide +kernel,
   by decide +kernel,
   by decide +kernel,
   by decide +kernel,
   by decide +kernel,
   by decide +kernel⟩

/-- A signed command for any device of the test: OP 3 (its UID is 0, so the checks refuse it). -/
def w14 : State := { laid with hmem := cells 0x5000 (bytesOf 280 [(0, 0x48574331), (4, 3)]), regs := [(regOff .HW_CMD_ADDR_LO 0 0 0, 0x5000)] }
def w14r : State := { laid with hw.restarting := some 0, hw.ready := false }
def hs14 : HwSess := ⟨1, true, some 99, false, 0⟩
def w14s : State := { laid with hw.sess := [hs14], hw.stage := [(0, 3)], plog := [(0, ⟨leBytes 48 7, [], false⟩)] }
def kr14 (op : Nat) : List Byte := bytesOf (if op = 1 then 104 else 64) [(0, op), (3, 1), (4, 9), (16, if op = 1 then 7 else 0)]
def w14o : State := { w14s with hw.owner := [(0, leafHash 99)] }
def w14n (n : Nat) : State := { laid with hw.stage := [(1, n)] }
def w14c : State := { w14n 3 with hw.chunk := [(1, [1])], hw.chunkOut := [(1, [2, 3])] }
def w14f : State := { w14n 3 with hw.sess := (List.range 8).map fun i => ⟨i, true, none, false, 1⟩ }
def ks14 : HwSess := ⟨1, false, none, false, 1⟩

/-- SignedCommandsChangeTheStoreOrNothing: what meets the hypotheses of its clause. -/
theorem wit_SignedCommandsChangeTheStoreOrNothing :
    Allowed Req.pf0 RegId.HW_CMD_CTL 0 w14 ∧ cmdBusy w14 = false ∧ w14.hw.restarting = none ∧ w14.hp.up = true ∧ memRead
      w14.hmem 20480 280 = memRead w14.hmem (rg64 w14 RegId.HW_CMD_ADDR_LO RegId.HW_CMD_ADDR_HI 0 % 2 ^ 63) 280 ∧ (3,
      Instr.injAuthorise Req.pf0 true, true) ∈ [(1, Instr.hwCmdEnrol Req.pf0 true, true), (1, Instr.hwCmdFreshEnrol Req.pf0,
      false), (2, Instr.hwCmdRemove Req.pf0 true, true), (3, Instr.injAuthorise Req.pf0 true, true), (4, Instr.injRevoke Req.pf0
      true, true)] :=
  by decide +kernel

/-- SpdmRequestsAreAnswered: what meets the hypotheses of its clauses, in order. -/
theorem wit_SpdmRequestsAreAnswered :
    (viaOpen laid Via.mctp = true ∧ laid.hw.ready = true) ∧
    (viaOpen (w14n 1) Via.mctp = true ∧ (w14n 1).hw.ready = true ∧ 1 ≤ ngetD (w14n 1).hw.stage (viaCode Via.mctp) 0) ∧
    (viaOpen (w14n 0) Via.mctp = true ∧ (w14n 0).hw.ready = true ∧ ngetD (w14n 0).hw.stage (viaCode Via.mctp) 0 < 1) ∧
    (viaOpen (w14n 2) Via.mctp = true ∧ (w14n 2).hw.ready = true ∧ 2 ≤ ngetD (w14n 2).hw.stage (viaCode Via.mctp) 0) ∧
    (viaOpen (w14n 2) Via.mctp = true ∧ (w14n 2).hw.ready = true ∧ ngetD (w14n 2).hw.stage (viaCode Via.mctp) 0 < 3) ∧
    (viaOpen (w14n 3) Via.mctp = true ∧ (w14n 3).hw.ready = true ∧ 3 ≤ ngetD (w14n 3).hw.stage (viaCode Via.mctp) 0) ∧
    (viaOpen (w14n 3) Via.mctp = true ∧ (w14n 3).hw.ready = true ∧ 3 ≤ ngetD (w14n 3).hw.stage (viaCode Via.mctp) 0) ∧
    (viaOpen (w14n 3) Via.mctp = true ∧ (w14n 3).hw.ready = true ∧ 3 ≤ ngetD (w14n 3).hw.stage (viaCode Via.mctp) 0 ∧ 1 ≠ 0) ∧
    (viaOpen (w14n 3) Via.mctp = true ∧ (w14n 3).hw.ready = true ∧ 3 ≤ ngetD (w14n 3).hw.stage (viaCode Via.mctp) 0) ∧
    (viaOpen (w14n 3) Via.mctp = true ∧ (w14n 3).hw.ready = true ∧ 3 ≤ ngetD (w14n 3).hw.stage (viaCode Via.mctp) 0 ∧ (1 ≤ 2 ∧ 2
      ≤ 11 ∨ 16 ≤ 2 ∧ 2 < 32)) ∧
    (viaOpen w14c Via.mctp = true ∧ w14c.hw.ready = true ∧ 3 ≤ ngetD w14c.hw.stage (viaCode Via.mctp) 0) ∧
    (viaOpen w14c Via.mctp = true ∧ w14c.hw.ready = true ∧ 3 ≤ ngetD w14c.hw.stage (viaCode Via.mctp) 0 ∧ ngetD w14c.hw.chunkOut
      (viaCode Via.mctp) [] ≠ []) ∧
    (viaOpen (w14n 3) Via.mctp = true ∧ (w14n 3).hw.ready = true ∧ 3 ≤ ngetD (w14n 3).hw.stage (viaCode Via.mctp) 0 ∧ (w14n
      3).hw.sess.length < 8) ∧
    (viaOpen w14f Via.mctp = true ∧ w14f.hw.ready = true ∧ 3 ≤ ngetD w14f.hw.stage (viaCode Via.mctp) 0 ∧ 8 ≤
      w14f.hw.sess.length) ∧
    ((viaOpen ({ w14n 3 with hw.sess := [ks14] }) Via.mctp = true) ∧ (({ w14n 3 with hw.sess := [ks14] }).hw.ready = true) ∧ (3
      ≤ ngetD ({ w14n 3 with hw.sess := [ks14] }).hw.stage (viaCode Via.mctp) 0) ∧ (List.find? (fun x => x.id == 1 && !x.live &&
      x.via == viaCode Via.mctp) ({ w14n 3 with hw.sess := [ks14] }).hw.sess = some ks14)) ∧
    (viaOpen w14s Via.doe = true ∧ w14s.hw.ready = true ∧ sessOf w14s 1 = some hs14 ∧ hs14.via = viaCode Via.doe) ∧
    (viaOpen w14s Via.mctp = true ∧ w14s.hw.ready = true ∧ sessOf w14s 1 = some hs14 ∧ hs14.via ≠ viaCode Via.mctp) :=
  ⟨by decide +kernel,
   by decide +kernel,
   by decide +kernel,
   by decide +kernel,
   by decide +kernel,
   by decide +kernel,
   by decide +kernel,
   by decide +kernel,
   by decide +kernel,
   by decide +kernel,
   by decide +kernel,
   by decide +kernel,
   by decide +kernel,
   by decide +kernel,
   by decide +kernel,
   by decide +kernel,
   by decide +kernel⟩

/-- A plan at 0x300000: key 9, ten targets at T3, two with a manifest extent list; the lists at 0x301000. -/
def plan15 : List Host.Cell :=
  cells 0x300000 (bytesOf 16 [(0, 9), (4, 10), (5, 1)]) ++
  (List.range 10).flatMap (fun i => cells (0x300010 + 32 * i) (bytesOf 32 [(0, 3), (8, 0x301000), (16, if i < 2 then 0x301000 else 0)])) ++
  cells 0x301000 (bytesOf 32 [(0, 3), (4, 1), (24, 16)])
def ckp : CkPlan := (readPlan { laid with mem := plan15, lay.img.ax := axAll [0x90, 0xA0] } 0 0x300000).getD ⟨0, 0, []⟩
def w15 (x : Ck) : State :=
  { laid with mem := plan15, lay.img.ax := axAll [0x90, 0xA0], regs := [(regOff .CK_PLAN_LO 0 0 0, 0x300000)],
              wkeys := [(9, 5)], ck := [(0, x)], ht.slots := [(0, sess0)] }
def shard15 (st tr vf : Nat) : CkShard := ⟨3, false, st, tr, vf, 0, [1, 2]⟩
def ck15 (st tr vf : Nat) : Ck :=
  { ck0 with phase := 2, serial := 1, plan := some ckp, groups := [⟨3, 1, 0, 1, (List.range 10).map fun _ => shard15 st tr vf⟩] }
def ckS : CkSess := ⟨0, true, [], [], [], 0, 1, 0⟩
def ck15m : Ck := { ck15 2 0 0 with phase := 3, evac := true, sess := [ckS] }
/-- A restore record at 0x302000 that names a manifest of one group in host memory. -/
def man15 (n : Nat) (kek : Nat) : List Byte :=
  bytesOf 40 [(0, 0x434B4D31), (4, 1), (24, 6), (36, 9)] ++ keyWrap kek 77 ++ bytesOf 48 [(20, n)] ++ shapeBytes laid 0 ++
    List.replicate (656 * n + 104) 0
def w15r (n : Nat) : State :=
  { w15 ck0 with mem := plan15 ++ cells 0x302000 (bytesOf 44 [(0, 4), (8, 0x8000), (16, (man15 n 5).length), (24, 0x300000), (32, 0x303000), (40, 64)]),
                 regs := [(regOff .CK_RESTORE_LO 0 0 0, 0x302000)], hmem := cells 0x8000 (man15 n 5) }
def rst15 (n : Nat) : CkRestore := ⟨man15 n 5, ckp, (0x303000, 64), 77, 0, [], [], [], 0, 0, [], 0, []⟩
def ck15r (n : Nat) : Ck := { ck0 with phase := 4, restore := some (rst15 n) }

/-- CheckpointsCaptureStoreCommitAndRestore: what meets the hypotheses of its clauses, in order. -/
theorem wit_CheckpointsCaptureStoreCommitAndRestore_1 :
    (Allowed Req.pf0 RegId.CK_CTL 0 (w15 ck0) ∧ (w15 ck0).pm.recovery = false ∧ (ckOf (w15 ck0) 0).phase = 0 ∧ (partPlan (w15
      ck0) 0).isSome = true ∧ readPlan (w15 ck0) 0 (rg64 (w15 ck0) RegId.CK_PLAN_LO RegId.CK_PLAN_HI 0) = some ckp ∧ (nget (w15
      ck0).wkeys (0 * 2 ^ 32 + ckp.key)).isSome = true ∧ (∀ (e : Nat × Slot), e ∈ (w15 ck0).ht.slots → slotOf (w15 ck0) e.fst =
      e.snd) ∧ (Instr.ckStart Req.pf0 0 true, false) ∈ [(Instr.ckStart Req.pf0 0 true, false), (Instr.ckEvacuate Req.pf0 0 true,
      true)]) ∧
    (Allowed Req.pf0 RegId.CK_CTL 0 (w15 (ck15 0 0 0)) ∧ (ckOf (w15 (ck15 0 0 0)) 0).phase ≠ 0 ∧ (w15 (ck15 0 0 0)).pm.recovery
      = false) ∧
    ((ckOf (w15 (ck15 0 0 0)) 0).phase = 2 ∧ shardOfCk (ckOf (w15 (ck15 0 0 0)) 0) 0 1 = some (shard15 0 0 0) ∧ (shard15 0 0
      0).st = 0) :=
  ⟨by decide +kernel,
   by decide +kernel,
   by decide +kernel⟩

/-- CheckpointsCaptureStoreCommitAndRestore: what meets the hypotheses of its clauses, in order. -/
theorem wit_CheckpointsCaptureStoreCommitAndRestore_2 :
    ((ckOf (w15 (ck15 0 1 0)) 0).phase = 2 ∧ shardOfCk (ckOf (w15 (ck15 0 1 0)) 0) 0 1 = some (shard15 0 1 0) ∧ (shard15 0 1
      0).st = 0 ∧ (shard15 0 1 0).tries ≠ 0) ∧
    ((ckOf (w15 (ck15 0 0 0)) 0).phase = 2 ∧ shardOfCk (ckOf (w15 (ck15 0 0 0)) 0) 0 1 = some (shard15 0 0 0) ∧ (shard15 0 0
      0).st = 0 ∧ (shard15 0 0 0).tries = 0) ∧
    ((ckOf (w15 (ck15 1 0 0)) 0).phase = 2 ∧ shardOfCk (ckOf (w15 (ck15 1 0 0)) 0) 0 1 = some (shard15 1 0 0) ∧ (shard15 1 0
      0).st = 1 ∧
      7917167166630664257461392329446718702234817834031192842198210337872600001040427673817041976997521936389237994856220 =
      beNat (sha384 (shard15 1 0 0).bytes)) :=
  ⟨by decide +kernel,
   by decide +kernel,
   by decide +kernel⟩

/-- CheckpointsCaptureStoreCommitAndRestore: what meets the hypotheses of its clauses, in order. -/
theorem wit_CheckpointsCaptureStoreCommitAndRestore_3 :
    ((ckOf (w15 (ck15 1 0 1)) 0).phase = 2 ∧ shardOfCk (ckOf (w15 (ck15 1 0 1)) 0) 0 1 = some (shard15 1 0 1) ∧ (shard15 1 0
      1).st = 1 ∧ (shard15 1 0 1).vfails ≠ 0 ∧ 7 ≠ beNat (sha384 (shard15 1 0 1).bytes)) ∧
    ((ckOf (w15 ck15m) 0).phase = 3) ∧
    (Allowed Req.pf0 RegId.CK_CTL 0 (w15r 1) ∧ (w15r 1).pm.recovery = false ∧ (ckOf (w15r 1) 0).phase = 0 ∧ restoreRec (w15r 1)
      0 = some (4, 32768, (man15 1 5).length, 3145728, 3158016, 64) ∧ (partPlan (w15r 1) 0).isSome = true ∧ readPlan (w15r 1) 0
      3145728 = some ckp ∧ man15 1 5 = (if 4 = 4 then memRead (w15r 1).hmem 32768 (man15 1 5).length else List.take (man15 1
      5).length []) ∧ (manifestOk (man15 1 5) = false ∨ false = false)) :=
  ⟨by decide +kernel,
   by decide +kernel,
   by decide +kernel⟩

/-- CheckpointsCaptureStoreCommitAndRestore: what meets the hypotheses of its clauses, in order. -/
theorem wit_CheckpointsCaptureStoreCommitAndRestore_4 :
    (Allowed Req.pf0 RegId.CK_CTL 0 (w15r 1) ∧ (w15r 1).pm.recovery = false ∧ (ckOf (w15r 1) 0).phase = 0 ∧ restoreRec (w15r 1)
      0 = some (4, 32768, (man15 1 5).length, 3145728, 3158016, 64) ∧ (partPlan (w15r 1) 0).isSome = true ∧ readPlan (w15r 1) 0
      3145728 = some ckp ∧ man15 1 5 = (if 4 = 4 then memRead (w15r 1).hmem 32768 (man15 1 5).length else List.take (man15 1
      5).length []) ∧ manifestOk (man15 1 5) = true ∧ true = true ∧ nget (w15r 1).wkeys (0 * 2 ^ 32 + bAt (man15 1 5) 36 4) =
      some 5 ∧ keyUnwrap 5 (List.take 40 (List.drop 40 (man15 1 5))) = some 77 ∧ List.take 128 (List.drop 128 (man15 1 5)) =
      shapeBytes (w15r 1) 0 ∧ bAt (man15 1 5) 34 1 = (w15r 1).lay.img.conduct ∧ mPages (man15 1 5) ≤ freeT1 (w15r 1) 0 255 ∧
      mGroups (man15 1 5) ≠ 0) ∧
    ((ckOf (w15 (ck15r 2)) 0).phase = 4 ∧ (ckOf (w15 (ck15r 2)) 0).restore = some (rst15 2) ∧ (rst15 2).next < mGroups (rst15
      2).man ∧ (rst15 2).next + 1 < mGroups (rst15 2).man) ∧
    ((ckOf (w15 (ck15r 1)) 0).phase = 4 ∧ (ckOf (w15 (ck15r 1)) 0).restore = some (rst15 1) ∧ (rst15 1).next < mGroups (rst15
      1).man ∧ (rst15 1).next + 1 = mGroups (rst15 1).man) :=
  ⟨by decide +kernel,
   by decide +kernel,
   by decide +kernel⟩

def flt16 (b : Option Nat) : LyFilter := ⟨100, 5, b, false, 0, false, 0⟩
def w16 (src : Nat) (b : Option Nat) : State :=
  { laid with regs := [(regOff .LY_FLT_CFG 3 0 0, 9), (regOff .LY_FLT_SRC 3 0 0, src), (regOff .LY_FLT_HI 3 0 0, 500)], ly.flt := [(3, flt16 b)],
              span := 5000000 }
def grp16 (st : Nat) : LyGroup := { grp0 with st := st, idleAt := some 0, queue := [0] }
def offEngs (w : Nat) : NMap Eng := (List.range 16).map fun i => (6144 + i, { eng0 .disabled (if i = 0 then w else 0) with serves := i })
def w16g (st w : Nat) : State :=
  { laid with lay.img.grpDom := [(2, 1)], ly.grp := [(2, grp16 st)], span := 1000000000000000, engs := offEngs w }
def inp16 : LyInput := ⟨false, 0, false, 0, 0⟩
def w16i (rate cnt : Nat) : State :=
  { laid with regs := [(regOff .LY_IN_CFG 5 0 0, 0x8000 + 0x20000), (regOff .LY_IN_RATE 5 0 0, rate)], ly.ins := [(5, { inp16 with cnt := cnt })] }
def fwTop : FwImg := ⟨true, Config.svnFloor, 0, 9⟩
def w16m : State := { laid with hw.sess := [⟨1, true, some 99, true, 1⟩] }

/-- FiltersGroupsAndWatchMode: what meets the hypotheses of its clauses, in order. -/
theorem wit_FiltersGroupsAndWatchMode :
    (lyRuns (w16 65536 none) = true ∧ fltOf (w16 65536 none) 3 = flt16 none ∧ (flt16 none).due ≤ now (w16 65536 none) ∧ fltKind
      (w16 65536 none) 3 = 1 ∧ fltCounter (w16 65536 none) 3 300 = none) ∧
    (lyRuns (w16 77825 none) = true ∧ fltOf (w16 77825 none) 3 = flt16 none ∧ (flt16 none).due ≤ now (w16 77825 none) ∧ (fltKind
      (w16 77825 none) 3 = 1 ∨ fltKind (w16 77825 none) 3 = 2) ∧ fltCounter (w16 77825 none) 3 300 = some 0 ∧ (flt16 none).base
      = none) ∧
    (Allowed Req.pf0 RegId.LY_FLT_CFG 3 laid) ∧
    (lyRuns laid = true ∧ laid.ly.teleAt ≤ now laid) ∧
    (grpOf (w16g 0 0) 2 = grp16 0 ∧ grpDoms (w16g 0 0) 2 ≠ [] ∧ lyServes (w16g 0 0) = true ∧ (grp16 0).st = 0 ∧ grpIdle (w16g 0
      0) 2 = true ∧ (grp16 0).idleAt = some 0 ∧ 0 + watchIdleNs (w16g 0 0) ≤ now (w16g 0 0)) ∧
    (grpOf (w16g 1 0) 2 = grp16 1 ∧ grpDoms (w16g 1 0) 2 ≠ [] ∧ (grp16 1).st = 1 ∧ (grpDoms (w16g 1 0) 2).all (domQuiet (w16g 1
      0)) = true ∧ grpIdle (w16g 1 0) 2 = true) ∧
    (grpOf (w16g 1 1) 2 = grp16 1 ∧ grpDoms (w16g 1 1) 2 ≠ [] ∧ (grp16 1).st = 1 ∧ (grpDoms (w16g 1 1) 2).all (domQuiet (w16g 1
      1)) = true ∧ grpIdle (w16g 1 1) 2 = false) ∧
    (grpOf (w16g 3 0) 2 = grp16 3 ∧ grpDoms (w16g 3 0) 2 ≠ [] ∧ (grp16 3).st = 3 ∧ (grp16 3).queue = [0] ∧ (grp16 3).lastAt + rg
      (w16g 3 0) RegId.LY_WAKE_STAGGER_NS ≤ now (w16g 3 0)) ∧
    (lyRuns (w16g 2 0) = true) ∧
    ((lyRuns ({ w16g 2 0 with regs := [(regOff RegId.LY_WAKE_AT_LO 0 0 0, 77)] }) = true) ∧ (rg64
      ({ w16g 2 0 with regs := [(regOff RegId.LY_WAKE_AT_LO 0 0 0, 77)] }) RegId.LY_WAKE_AT_LO RegId.LY_WAKE_AT_HI 0 = 77) ∧ 77
      ≠ 0 ∧ (77 ≤ now ({ w16g 2 0 with regs := [(regOff RegId.LY_WAKE_AT_LO 0 0 0, 77)] }))) ∧
    ((lyServes ({ w16g 2 0 with regs := [(regOff RegId.LY_CTL 0 0 0, 1)] }) = true) ∧
      (({ w16g 2 0 with regs := [(regOff RegId.LY_CTL 0 0 0, 1)] }).ly.watch = false) ∧ (bit (rg
      ({ w16g 2 0 with regs := [(regOff RegId.LY_CTL 0 0 0, 1)] }) RegId.LY_CTL) 0 = true) ∧ (∀ (g : Nat), g ∈ groups
      ({ w16g 2 0 with regs := [(regOff RegId.LY_CTL 0 0 0, 1)] }) → (grpOf
      ({ w16g 2 0 with regs := [(regOff RegId.LY_CTL 0 0 0, 1)] }) g).st = 2) ∧
      (({ w16g 2 0 with regs := [(regOff RegId.LY_CTL 0 0 0, 1)] }).ht.moves = []) ∧
      (({ w16g 2 0 with regs := [(regOff RegId.LY_CTL 0 0 0, 1)] }).sp.jobs = []) ∧
      (({ w16g 2 0 with regs := [(regOff RegId.LY_CTL 0 0 0, 1)] }).ly.hbmAt + watchIdleNs
      ({ w16g 2 0 with regs := [(regOff RegId.LY_CTL 0 0 0, 1)] }) ≤ now
      ({ w16g 2 0 with regs := [(regOff RegId.LY_CTL 0 0 0, 1)] }))) ∧
    (((domOf ({ laid with pm.doms := [(0, { st := 0, goal := some 1, ready := false, defer := false })] }) 0).goal = some 1) ∧
      ((domOf ({ laid with pm.doms := [(0, { st := 0, goal := some 1, ready := false, defer := false })] }) 0).defer = false)) :=
  ⟨by decide +kernel,
   by decide +kernel,
   by decide +kernel,
   by decide +kernel,
   by decide +kernel,
   by decide +kernel,
   by decide +kernel,
   by decide +kernel,
   by decide +kernel,
   by decide +kernel,
   by decide +kernel,
   by decide +kernel⟩

/-- InputsPinsAndLanyardFirmware: what meets the hypotheses of its clauses, in order. -/
theorem wit_InputsPinsAndLanyardFirmware :
    ((inOf (w16i 4 0) 5).level ≠ true ∧ lyRuns (w16i 4 0) = true ∧ isInput (w16i 4 0) 5 = true ∧ (inOf (w16i 4 0) 5).stuck =
      false ∧ bit (rg (w16i 4 0) RegId.LY_IN_CFG 5) 15 = true ∧ (w16i 4 0).uptime / 100000000 = (w16i 4 0).ly.win ∧ (rg (w16i 4
      0) RegId.LY_IN_RATE 5 = 0 ∨ (inOf (w16i 4 0) 5).cnt < rg (w16i 4 0) RegId.LY_IN_RATE 5)) ∧
    ((inOf (w16i 4 4) 5).level ≠ true ∧ lyRuns (w16i 4 4) = true ∧ isInput (w16i 4 4) 5 = true ∧ (inOf (w16i 4 4) 5).stuck =
      false ∧ bit (rg (w16i 4 4) RegId.LY_IN_CFG 5) 15 = true ∧ (w16i 4 4).uptime / 100000000 = (w16i 4 4).ly.win ∧ rg (w16i 4
      4) RegId.LY_IN_RATE 5 ≠ 0 ∧ rg (w16i 4 4) RegId.LY_IN_RATE 5 ≤ (inOf (w16i 4 4) 5).cnt) ∧
    ((lyRuns ({ w16i 4 0 with uptime := 5000000 }) = true) ∧ (inActive ({ w16i 4 0 with uptime := 5000000 }) 5 = true) ∧ ((inOf
      ({ w16i 4 0 with uptime := 5000000 }) 5).stuck = false) ∧ (bits (rg ({ w16i 4 0 with uptime := 5000000 }) RegId.LY_IN_CFG
      5) 31 16 = 2) ∧ 2 ≠ 0 ∧ ((inOf ({ w16i 4 0 with uptime := 5000000 }) 5).since + 1000000 * 2 ≤
      ({ w16i 4 0 with uptime := 5000000 }).uptime)) ∧
    ((({ laid with uptime := 300000000 }).uptime / 100000000 ≠ ({ laid with uptime := 300000000 }).ly.win)) ∧
    (Allowed Req.pf0 RegId.LY_PIN_CFG 5 laid ∧ (pinOf laid 5).sw = none ∧ bits 1 2 0 ≠ bits (rg laid RegId.LY_PIN_CFG 5) 2 0) ∧
    (Allowed Req.pf0 RegId.LY_PIN_CFG 5 laid ∧ (pinOf laid 5).sw = none ∧ bits 256 2 0 = bits (rg laid RegId.LY_PIN_CFG 5) 2 0) ∧
    ((Allowed Req.pf0 RegId.LY_PIN_CFG 5 ({ laid with ly.pins := [(5, { sw := some 3, held := none })] })) ∧ ((pinOf ({ laid
      with ly.pins := [(5, { sw := some 3, held := none })] }) 5).sw = some 3)) ∧
    ((Allowed Req.pf0 RegId.LY_CTL 0 ({ laid with pm.chipB := { chip0 with ly := fwTop } })) ∧ (lyRuns ({ laid with pm.chipB :=
      { chip0 with ly := fwTop } }) = true) ∧ (({ laid with pm.chipB := { chip0 with ly := fwTop } }).ly.upd = none) ∧ (fwOk
      (lyStaged ({ laid with pm.chipB := { chip0 with ly := fwTop } })) = true)) ∧
    ((({ laid with ly.upd := some (0, fw0) }).ly.upd = some (0, fw0))) ∧
    ((({ laid with ly.upd := some (0, fw0) }).ly.upd = some (0, fw0)) ∧ (lyRuns ({ laid with ly.upd := some (0, fw0) }) = true)) ∧
    (laid.ly.upd = none ∧ lyRuns laid = true) ∧
    ((({ laid with uptime := 5000000000 }).ly.secAt ≤ ({ laid with uptime := 5000000000 }).uptime) ∧
      (({ laid with uptime := 5000000000 }).evtSupp = [])) ∧
    ((({ laid with uptime := 5000000000, evtSupp := [(3, 4)] }).ly.secAt ≤
      ({ laid with uptime := 5000000000, evtSupp := [(3, 4)] }).uptime) ∧
      (({ laid with uptime := 5000000000, evtSupp := [(3, 4)] }).evtSupp = [(3, 4)]) ∧ 4 ≠ 0) :=
  ⟨by decide +kernel,
   by decide +kernel,
   by decide +kernel,
   by decide +kernel,
   by decide +kernel,
   by decide +kernel,
   by decide +kernel,
   ⟨by decide +kernel, by decide +kernel, by decide +kernel, fwOk_top _ _⟩,
   by decide +kernel,
   by decide +kernel,
   by decide +kernel,
   by decide +kernel,
   by decide +kernel⟩

/-- PldmRequestsAreAnswered: what meets the hypotheses of its clauses, in order. -/
theorem wit_PldmRequestsAreAnswered :
    (viaOpen w16m Via.mctp = true ∧ Via.mctp ≠ Via.doe ∧ inMgmt w16m Via.mctp (some 1) = true) ∧
    (viaOpen w16m Via.mctp = true ∧ Via.mctp ≠ Via.doe ∧ inMgmt w16m Via.mctp (some 1) = true) ∧
    (viaOpen w16m Via.mctp = true ∧ Via.mctp ≠ Via.doe ∧ inMgmt w16m Via.mctp (some 1) = true) ∧
    ((viaOpen ({ w16m with ly.bankB := true }) Via.mctp = true) ∧ Via.mctp ≠ Via.doe ∧ (inMgmt ({ w16m with ly.bankB := true })
      Via.mctp (some 1) = true) ∧ (({ w16m with ly.bankB := true }).ly.bankB = true)) ∧
    (viaOpen w16m Via.mctp = true ∧ Via.mctp ≠ Via.doe ∧ inMgmt w16m Via.mctp (some 1) = true ∧ w16m.ly.bankB = false) ∧
    (viaOpen w16m Via.mctp = true ∧ Via.mctp ≠ Via.doe ∧ inMgmt w16m Via.mctp (some 1) = true) ∧
    (viaOpen w16m Via.mctp = true ∧ Via.mctp ≠ Via.doe ∧ inMgmt w16m Via.mctp (some 1) = true ∧ w16m.hw.restarting = none) ∧
    (viaOpen w16m Via.mctp = true ∧ Via.mctp ≠ Via.doe ∧ inMgmt w16m Via.mctp (some 1) = true ∧ w16m.pm.stbyOk = true ∧
      w16m.pm.rstLow = false) ∧
    (viaOpen laid Via.mctp = true) ∧
    (viaOpen laid Via.mctp = true) ∧
    (Via.mctp ≠ Via.doe ∧ (({ laid with pm.offHold := true }).pm.offHold = true)) :=
  ⟨by decide +kernel,
   by decide +kernel,
   by decide +kernel,
   by decide +kernel,
   by decide +kernel,
   by decide +kernel,
   by decide +kernel,
   by decide +kernel,
   by decide +kernel,
   by decide +kernel,
   by decide +kernel⟩

def chipTop : FlashChip := { chip0 with hw := fwTop, spine := fwTop, serdes := fwTop, ly := fwTop }
def w17 : State := { State.reset with pm.stbyOk := true, pm.mainEn := true, pm.step := 1, pm.chipA := chipTop }
def w17c (n : Nat) : State := { laid with pm.coreCnt := n, regs := [(regOff .PM_CORE_LIMIT 0 0 0, 3)] }
def w17f : State := { laid with pm.chipB := chipTop, ht.inStep := true }
def w17p (a n : Nat) : State :=
  { laid with regs := [(regOff .PM_FLASH_ADDR 0 0 0, a), (regOff .PM_FLASH_LEN 0 0 0, n)], pm.erased := [(0x30000, 0x10000)] }
def doms17 : NMap Dom := [(0, ⟨0, none, false, false⟩), (5, ⟨1, none, true, false⟩), (6, ⟨1, none, true, false⟩)]
def w17t : State := { laid with pm.rstLow := true }
def w17d : State := { laid with engs := offEngs 0, pm.doms := [(0, ⟨1, none, true, false⟩)] }
def w17e : State := { laid with engs := [(6144, eng0 .enabled 1)], pm.doms := [(0, ⟨1, none, true, false⟩)] }

/-- AHeartwoodFaultResetsTheSystem: what meets the hypotheses of its clauses, in order. -/
theorem wit_AHeartwoodFaultResetsTheSystem :
    (laid.pm.stbyOk = true ∧ regDecode 1048856 = some (⟨RegId.HW_CMD_CTL, 0, 0, 0⟩ : RegAt) ∧ offBlock 1048856 = 1 ∧ regEngine
      (⟨RegId.HW_CMD_CTL, 0, 0, 0⟩ : RegAt) = none ∧ (⟨RegId.HW_CMD_CTL, 0, 0, 0⟩ : RegAt).id ≠ RegId.HM_CH_STAT) ∧
    (laid.pm.stbyOk = true ∧ laid.hw.ready = true) ∧
    (laid.pm.stbyOk = true) :=
  ⟨by decide +kernel,
   by decide +kernel,
   by decide +kernel⟩

/-- ResetsAndTheStart: what meets the hypotheses of its clauses, in order. -/
theorem wit_ResetsAndTheStart :
    (State.reset.pm.stbyOk = false ∧ State.reset.pm.rstLow = false ∧ State.reset.pm.offHold = false ∧ State.reset.pm.tripLow =
      false ∧ State.reset.pm.lowTo ≤ State.reset.uptime ∧ State.reset.pm.mainOk = false) ∧
    (w17.pm.mainOk = false ∧ w17.pm.mainEn = true ∧ w17.pm.step = 1 ∧ w17.pm.stbyOk = true ∧ w17.pm.rstLow = false ∧
      w17.pm.offHold = false ∧ w17.pm.tripLow = false ∧ w17.pm.lowTo ≤ w17.uptime ∧ fwOk (chipOf w17 w17.pm.slot).hw = true ∧
      fwOk (chipOf w17 w17.pm.slot).spine = true ∧ fwOk (chipOf w17 w17.pm.slot).serdes = true) ∧
    (laid.pm.mainOk = true ∧ laid.pm.mainEn = true) ∧
    ((({ w17 with uptime := 900000000 }).pm.mainEn = true) ∧ (({ w17 with uptime := 900000000 }).pm.mainOk = false) ∧
      (({ w17 with uptime := 900000000 }).pm.enAt + 500000000 ≤ ({ w17 with uptime := 900000000 }).uptime)) ∧
    (laid.pm.stbyOk = true ∧ 50 < 100) ∧
    (laid.pm.stbyOk = true ∧ 100 ≤ 150) ∧
    ((({ laid with pm.rstLow := true }).pm.rstLow = true) ∧ (tapDrives ({ laid with pm.rstLow := true }).tap.ins = false)) ∧
    (Allowed Req.pf0 RegId.PM_BOOT_CTL 0 laid) ∧
    ((Allowed Req.pf0 RegId.PM_BOOT_CTL 0 ({ laid with pm.step := 9 })) ∧ (Instr.spineWatchdog, 33) ∈ [(Instr.coreResetWrite
      Req.pf0, 32), (Instr.spineWatchdog, 33)] ∧ (({ laid with pm.step := 9 }).pm.step ≠ 11) ∧
      (({ laid with pm.step := 9 }).pm.step ≠ 0)) ∧
    (Allowed Req.pf0 RegId.PM_BOOT_CTL 0 (w17c 3) ∧ (Instr.spineWatchdog, 33) ∈ [(Instr.coreResetWrite Req.pf0, 32),
      (Instr.spineWatchdog, 33)] ∧ (w17c 3).pm.step = 11 ∧ bits (rg (w17c 3) RegId.PM_CORE_LIMIT) 7 0 = 3 ∧ (w17c 3).pm.coreCnt
      = 3 ∧ 3 ≠ 0 ∧ (w17c 3).uptime < (w17c 3).pm.coreWin + 60000000000 ∧ 3 ≠ 0 ∧ 3 ≤ 3) ∧
    (Allowed Req.pf0 RegId.PM_BOOT_CTL 0 (w17c 2) ∧ (Instr.spineWatchdog, 33) ∈ [(Instr.coreResetWrite Req.pf0, 32),
      (Instr.spineWatchdog, 33)] ∧ (w17c 2).pm.step = 11 ∧ bits (rg (w17c 2) RegId.PM_CORE_LIMIT) 7 0 = 3 ∧ (w17c 2).pm.coreCnt
      = 2 ∧ 2 ≠ 0 ∧ (w17c 2).uptime < (w17c 2).pm.coreWin + 60000000000 ∧ (3 = 0 ∨ 2 < 3)) ∧
    (laid.pm.tripLow = false ∧ laid.pm.stbyOk = true) ∧
    ((({ State.reset with pm.stbyOk := true, pm.tripLow := true, pm.step := 1 }).pm.tripLow = true) ∧
      (({ State.reset with pm.stbyOk := true, pm.tripLow := true, pm.step := 1 }).pm.step = 1) ∧
      (({ State.reset with pm.stbyOk := true, pm.tripLow := true, pm.step := 1 }).pm.offHold = false) ∧
      (({ State.reset with pm.stbyOk := true, pm.tripLow := true, pm.step := 1 }).pm.lowTo ≤
      ({ State.reset with pm.stbyOk := true, pm.tripLow := true, pm.step := 1 }).uptime) ∧
      (({ State.reset with pm.stbyOk := true, pm.tripLow := true, pm.step := 1 }).pm.mainEn = false) ∧
      (({ State.reset with pm.stbyOk := true, pm.tripLow := true, pm.step := 1 }).pm.mainOk = false)) ∧
    (Allowed Req.pf0 RegId.PM_BOOT_CTL 0 laid ∧ laid.pm.step = 11 ∧ laidBit laid = true ∧ selfTestOk laid = true ∧
      laid.pm.lyDead = false ∧ laid.pm.good = false) ∧
    (Allowed Req.pf0 RegId.PM_BOOT_CTL 0 bare ∧ laidBit bare = false) ∧
    ((Allowed Req.pf0 RegId.PM_BOOT_CTL 0 ({ bare with pm.recovery := true })) ∧
      (({ bare with pm.recovery := true }).pm.recovery = true) ∧ (bit (backup0 ({ bare with pm.recovery := true })) 3 = false)) :=
  ⟨by decide +kernel,
   ⟨by decide +kernel, by decide +kernel, by decide +kernel, by decide +kernel, by decide +kernel, by decide +kernel,
     by decide +kernel, by decide +kernel, fwOk_top _ _, fwOk_top _ _, fwOk_top _ _⟩,
   by decide +kernel,
   by decide +kernel,
   by decide +kernel,
   by decide +kernel,
   by decide +kernel,
   by decide +kernel,
   by decide +kernel,
   by decide +kernel,
   by decide +kernel,
   by decide +kernel,
   by decide +kernel,
   by decide +kernel,
   by decide +kernel,
   by decide +kernel⟩

def w14q : State := { laid with hw.ready := false, hw.restarting := some 0, pm.chipA := chipTop }

/-- HeartwoodRestartsReleasesAndRevokes: what meets the hypotheses of its clauses, in order. -/
theorem wit_HeartwoodRestartsReleasesAndRevokes :
    (Allowed Req.pf0 RegId.HW_FW_CTL 0 laid ∧ laid.hw.restarting = none) ∧
    (((w14q).hw.restarting = some 0) ∧ ((w14q).hw.held = []) ∧ (fwOk (chipOf (w14q) 0).hw = true)) ∧
    (w14r.hw.restarting = some 0 ∧ w14r.hw.held = [] ∧ fwOk (chipOf w14r 0).hw = false) ∧
    (viaOpen w14s Via.doe = true ∧ w14s.hw.ready = true ∧ sessOf w14s 1 = some hs14 ∧ hs14.via = viaCode Via.doe ∧ hs14.leaf =
      some 99 ∧ krOk 1 (kr14 1) = true ∧ releaseCode w14s 99 (kr14 1) (some 5) = 0) ∧
    (viaOpen w14s Via.doe = true ∧ w14s.hw.ready = true ∧ sessOf w14s 1 = some hs14 ∧ hs14.via = viaCode Via.doe ∧ hs14.leaf =
      some 99 ∧ krOk 1 (kr14 1) = true ∧ releaseCode w14s 99 (kr14 1) none = 4 ∧ 4 ≠ 0) ∧
    (viaOpen w14o Via.doe = true ∧ w14o.hw.ready = true ∧ sessOf w14o 1 = some hs14 ∧ hs14.via = viaCode Via.doe ∧ hs14.leaf =
      some 99 ∧ krOk 2 (kr14 2) = true ∧ (partPlan w14o (krPart (kr14 2))).isSome = true ∧ ownerHash w14o (krPart (kr14 2)) =
      some (leafHash 99)) ∧
    (viaOpen w14s Via.doe = true ∧ w14s.hw.ready = true ∧ sessOf w14s 1 = some hs14 ∧ hs14.via = viaCode Via.doe ∧ hs14.leaf =
      some 99 ∧ krOk 2 (kr14 2) = true ∧ (partPlan w14s (krPart (kr14 2))).isSome = true ∧ ownerHash w14s (krPart (kr14 2)) ≠
      some (leafHash 99)) ∧
    (viaOpen w14s Via.doe = true ∧ w14s.hw.ready = true ∧ sessOf w14s 1 = some hs14 ∧ hs14.via = viaCode Via.doe ∧ hs14.leaf =
      some 99 ∧ krOk 3 (kr14 3) = true ∧ (partPlan w14s (krPart (kr14 3))).isSome = true) :=
  ⟨by decide +kernel,
   ⟨by decide +kernel, by decide +kernel, fwOk_top _ _⟩,
   by decide +kernel,
   by decide +kernel,
   by decide +kernel,
   by decide +kernel,
   by decide +kernel,
   by decide +kernel⟩

/-- FirmwareFlashDomainsAndTestPort: what meets the hypotheses of its clauses, in order. -/
theorem wit_FirmwareFlashDomainsAndTestPort :
    (Allowed Req.pf0 RegId.PM_FW_CTL 0 w17f ∧ fwOk (chipOf w17f (if true = true then 1 else 0)).spine = true ∧ ((chipOf w17f (if
      true = true then 1 else 0)).spine.journal = w17f.hw.spine.journal ∨ (chipOf w17f (if true = true then 1 else
      0)).spine.journal = w17f.hw.spine.journal + 1) ∧ hasStandby w17f = true) ∧
    (Allowed Req.pf0 RegId.PM_FW_CTL 0 laid ∧ fwOk (chipOf laid (if true = true then 1 else 0)).spine = false) ∧
    (Allowed Req.pf0 RegId.PM_FW_CTL 0 w17f ∧ fwOk (chipOf w17f (if true = true then 1 else 0)).serdes = true) ∧
    (Allowed Req.pf0 RegId.PM_FW_CTL 0 w17f) ∧
    (Allowed Req.pf0 RegId.PM_FLASH_CMD 0 (w17p 196608 8) ∧ faLen (w17p 196608 8) ≠ 0 ∧ ceilDiv (min (faOff (w17p 196608 8) +
      faLen (w17p 196608 8)) flashSize) 65536 * 65536 - faOff (w17p 196608 8) / 65536 * 65536 ≠ 0 ∧ flashProtected (w17p 196608
      8) (faOff (w17p 196608 8) / 65536 * 65536) (ceilDiv (min (faOff (w17p 196608 8) + faLen (w17p 196608 8)) flashSize) 65536
      * 65536 - faOff (w17p 196608 8) / 65536 * 65536) = false) ∧
    (Allowed Req.pf0 RegId.PM_FLASH_CMD 0 (w17p 0 8) ∧ faLen (w17p 0 8) ≠ 0 ∧ ceilDiv (min (faOff (w17p 0 8) + faLen (w17p 0 8))
      flashSize) 65536 * 65536 - faOff (w17p 0 8) / 65536 * 65536 ≠ 0 ∧ flashProtected (w17p 0 8) (faOff (w17p 0 8) / 65536 *
      65536) (ceilDiv (min (faOff (w17p 0 8) + faLen (w17p 0 8)) flashSize) 65536 * 65536 - faOff (w17p 0 8) / 65536 * 65536) =
      true) ∧
    (Allowed Req.pf0 RegId.PM_FLASH_CMD 0 (w17p 196608 8) ∧ (w17p 196608 8).hp.up = true ∧ faLen (w17p 196608 8) ≠ 0 ∧ faOff
      (w17p 196608 8) + faLen (w17p 196608 8) ≤ flashSize ∧ flashProtected (w17p 196608 8) (faOff (w17p 196608 8)) (faLen (w17p
      196608 8)) = false ∧ (∀ (i : Nat), i < faLen (w17p 196608 8) → flashByte (w17p 196608 8) (flashKey (faChip (w17p 196608
      8)) (faOff (w17p 196608 8)) + i) = 255)) ∧
    (Allowed Req.pf0 RegId.PM_FLASH_CMD 0 (w17p 196608 8) ∧ (w17p 196608 8).hp.up = true) ∧
    ((Allowed Req.pf0 RegId.PM_FLASH_CMD 0 ({ w17p 196608 8 with hp.up := false })) ∧
      (({ w17p 196608 8 with hp.up := false }).hp.up = false)) ∧
    ((Allowed Req.pf0 RegId.PM_DOM_REQ 0 ({ laid with pm.doms := doms17 })) ∧ 0 < 45 ∧ 0 ≠ 43 ∧ ((domOf
      ({ laid with pm.doms := doms17 }) 0).goal = none) ∧ ((domOf ({ laid with pm.doms := doms17 }) 0).st = 0) ∧ (∀ (k : Nat), k
      ∈ domDeps 0 → (domOf ({ laid with pm.doms := doms17 }) k).ready = true ∧ (domOf ({ laid with pm.doms := doms17 }) k).st ≠
      0)) ∧
    ((Allowed Req.pf0 RegId.PM_DOM_REQ 0 (w17d)) ∧ 0 < 45 ∧ 0 ≠ 43 ∧ ((domOf (w17d) 0).goal = none) ∧ ((domOf (w17d) 0).st ≠ 0)
      ∧ (domMayOff (rp RegId.PM_DOM_REQ 0 0 0 0 (w17d)) 0 = true)) ∧
    ((Allowed Req.pf0 RegId.PM_DOM_REQ 0 (w17e)) ∧ 0 < 45 ∧ 0 ≠ 43 ∧ ((domOf (w17e) 0).goal = none) ∧ ((domOf (w17e) 0).st ≠ 0)
      ∧ (domMayOff (rp RegId.PM_DOM_REQ 0 0 0 0 (w17e)) 0 = false)) ∧
    (105 ≤ 110) ∧
    ((throttleC ({ laid with regs := [(regOff RegId.PM_THROTTLE_C 0 0 0, 100)] }) ≤ 104) ∧ 104 < 105) ∧
    ((60 + 3 ≤ throttleC ({ laid with span := 5000000 })) ∧ (({ laid with span := 5000000 }).pm.excess = false) ∧ ((thermOf
      ({ laid with span := 5000000 }) 1).temp + 3 ≤ throttleC ({ laid with span := 5000000 })) ∧ ((thermOf
      ({ laid with span := 5000000 }) 1).coolAt + 1000000 ≤ now ({ laid with span := 5000000 }))) ∧
    (1000 ≤ 1800 ∧ 900 ≤ powerCap laid) ∧
    ((1800 < 1900 ∨ powerCap laid < 900)) ∧
    (tapLive w17t = true ∧ (Instr.extest [true] [false, true], TapIns.extest) ∈ [(Instr.samplePreload [true] [false, true],
      TapIns.samplePreload), (Instr.extest [true] [false, true], TapIns.extest), (Instr.extestPulse [true] [false, true],
      TapIns.extestPulse), (Instr.extestTrain [true] [false, true], TapIns.extestTrain)]) ∧
    (tapLive w17t = true ∧ (Instr.highz [false, true], TapIns.highz) ∈ [(Instr.bypass [false, true], TapIns.bypass),
      (Instr.clamp [false, true], TapIns.clamp), (Instr.highz [false, true], TapIns.highz)]) ∧
    (tapLive w17t = true) ∧
    (tapLive laid = false) :=
  ⟨⟨by decide +kernel, fwOk_top _ _, by decide +kernel, by decide +kernel⟩,
   by decide +kernel,
   ⟨by decide +kernel, fwOk_top _ _⟩,
   by decide +kernel,
   by decide +kernel,
   by decide +kernel,
   by decide +kernel,
   by decide +kernel,
   by decide +kernel,
   by decide +kernel,
   by decide +kernel,
   by decide +kernel,
   by decide +kernel,
   by decide +kernel,
   by decide +kernel,
   by decide +kernel,
   by decide +kernel,
   by decide +kernel,
   by decide +kernel,
   by decide +kernel,
   by decide +kernel⟩

end Sys2Proof.Tests
end

section
/-! SUPPORT. Register reads that break the size rules (chapter 02). -/

namespace Sys2Proof.Machine

@[simp] theorem leBytes_zero_value (n : Nat) : leBytes n 0 = List.replicate n 0 := by
  induction n with
  | zero => rfl
  | succ n ih => simp [leBytes, ih, List.replicate_succ]

/-- The dispatch of a read at an offset: what `regRead` answers goes out to the reader (R45). -/
theorem exec_registerRead_off (q : Req) (o : BitVec 26) (len : Nat) (s : State) :
    exec (.registerRead q (.off o) len) s =
      .next (send Mk.regData [o.toNat] (regRead q o.toNat len s).1 (regRead q o.toNat len s).2) := rfl

/-- The size rule comes before the access table: R48 decides whatever the reader may see. -/
theorem regRead_wrong_size {off len : Nat} (q : Req) (s : State)
    (h : ¬ ((len = 1 ∨ len = 2 ∨ len = 4 ∨ len = 8) ∧ off % len = 0)) :
    regRead q off len s = (List.replicate len 0, evt Ev.READ_SIZE_VIOLATION q off s) := by
  have hok : ([1, 2, 4, 8].contains len && off % len == 0) = true ↔
      (len = 1 ∨ len = 2 ∨ len = 4 ∨ len = 8) ∧ off % len = 0 := by
    simp only [Bool.and_eq_true, List.contains_iff_mem, List.mem_cons, List.not_mem_nil, or_false, beq_iff_eq]
  have hbad : ([1, 2, 4, 8].contains len && off % len == 0) = false := eq_false_of_ne_true (mt hok.mp h)
  have hrefused : (!([1, 2, 4, 8].contains len && off % len == 0)) = true := congrArg Bool.not hbad
  rw [regRead, if_pos hrefused, leBytes_zero_value]

/-- Settles O5: the size check of `regRead` answers before anything else is looked at. -/
theorem readOfAWrongSizeReturnsZeros : Obligations.ReadOfAWrongSizeReturnsZeros := by
  intro q o len s h
  rw [exec_registerRead_off, regRead_wrong_size q s h]

end Sys2Proof.Machine
end

section
/-! SUPPORT. What a start leaves alone (R540, R554): the cause that the reset recorded, SPDM sessions, fuses and uptime; no start
brings a weight key back. -/

namespace Sys2Proof.Machine

/-- What the release sequence carries from `s` to `t` unchanged; of the weight keys it may only take some away. -/
structure StartKeeps (s t : State) : Prop where
  level : t.pm.level = s.pm.level
  source : t.pm.source = s.pm.source
  sess : t.hw.sess = s.hw.sess
  fuses : t.hw.fuses = s.hw.fuses
  uptime : t.uptime = s.uptime
  wkeys : t.wkeys ⊆ s.wkeys

namespace StartKeeps

theorem refl (s : State) : StartKeeps s s := ⟨rfl, rfl, rfl, rfl, rfl, List.Subset.refl _⟩

theorem trans {s t u : State} (h : StartKeeps s t) (k : StartKeeps t u) : StartKeeps s u :=
  ⟨k.level.trans h.level, k.source.trans h.source, k.sess.trans h.sess, k.fuses.trans h.fuses, k.uptime.trans h.uptime,
    List.Subset.trans k.wkeys h.wkeys⟩

/-- A record update of other fields: each equation holds by definition. -/
theorem of_fields {s t : State} (level : t.pm.level = s.pm.level := by rfl) (source : t.pm.source = s.pm.source := by rfl)
    (sess : t.hw.sess = s.hw.sess := by rfl) (fuses : t.hw.fuses = s.hw.fuses := by rfl) (uptime : t.uptime = s.uptime := by rfl)
    (wkeys : t.wkeys = s.wkeys := by rfl) : StartKeeps s t :=
  ⟨level, source, sess, fuses, uptime, wkeys ▸ List.Subset.refl _⟩

/-- An operation that touches neither the reset's record nor Heartwood, the uptime or the weight keys. -/
theorem of_parts {s t : State} (pm : t.pm = s.pm) (hw : t.hw = s.hw) (uptime : t.uptime = s.uptime) (wkeys : t.wkeys = s.wkeys) :
    StartKeeps s t :=
  of_fields (by rw [pm]) (by rw [pm]) (by rw [hw]) (by rw [hw]) uptime wkeys

theorem ite {c : Prop} [Decidable c] {s t u : State} (ht : StartKeeps s t) (hu : StartKeeps s u) :
    StartKeeps s (if c then t else u) := by
  split
  · exact ht
  · exact hu

theorem foldl {α : Type} {f : State → α → State} (h : ∀ s x, StartKeeps s (f s x)) (l : List α) (s : State) :
    StartKeeps s (l.foldl f s) := by
  induction l generalizing s with
  | nil => exact refl s
  | cons x xs ih => exact (h s x).trans (ih (f s x))

end StartKeeps

/-! The shared operations. -/

theorem evt_startKeeps (e : Ev) (q : Req) (pay : Nat) (s : State) : StartKeeps s (evt e q pay s) :=
  .of_parts (evt_pm ..) (evt_hw ..) (evt_uptime ..) (evt_wkeys ..)

theorem ctrAdd_startKeeps (c : Ct) (i p n : Nat) (s : State) : StartKeeps s (ctrAdd c i p n s) :=
  .of_parts (ctrAdd_pm ..) (ctrAdd_hw ..) (ctrAdd_uptime ..) (ctrAdd_wkeys ..)

theorem ctr_startKeeps (c : Ct) (p : Nat) (s : State) : StartKeeps s (ctr c p s) :=
  .of_parts (ctr_pm ..) (ctr_hw ..) (ctr_uptime ..) (ctr_wkeys ..)

theorem rp_startKeeps (id : RegId) (i j k v : Nat) (s : State) : StartKeeps s (rp id i j k v s) :=
  .of_parts (rp_pm ..) (rp_hw ..) (rp_uptime ..) (rp_wkeys ..)

theorem putBackup_startKeeps (k v : Nat) (s : State) : StartKeeps s (putBackup k v s) := .of_fields

theorem histPut_startKeeps (t : Nat) (s : State) : StartKeeps s (histPut t s) := by
  unfold histPut
  exact .of_fields

/-! Steps 1 and 2: CFG_SEL and firmware. -/

theorem step1_startKeeps (s : State) : StartKeeps s (step1 s) := by
  unfold step1
  extract_lets band unstable s1 r0 r1 rcv s2 s3
  have h1 : StartKeeps s s1 := .ite (evt_startKeeps ..) (.refl s)
  have h2 : StartKeeps s1 s2 := putBackup_startKeeps ..
  have h3 : StartKeeps s2 s3 := .ite (ctr_startKeeps ..) (ctr_startKeeps ..)
  refine ((h1.trans h2).trans h3).trans (.trans ?_ (ctr_startKeeps ..))
  exact .of_fields

theorem fwFail_startKeeps (kind : Nat) (places : List Nat) (s : State) : StartKeeps s (fwFail kind places s) :=
  .foldl (fun s _ => .trans (.ite (.refl s) (evt_startKeeps ..)) (histPut_startKeeps (now s) _)) places s

theorem loadStore_startKeeps (s : State) : StartKeeps s (loadStore s) := by
  unfold loadStore
  split <;> exact .of_fields

theorem romRecovery_startKeeps (s : State) : StartKeeps s (romRecovery s) := by
  unfold romRecovery
  extract_lets s1
  have h1 : StartKeeps s s1 := .ite (putBackup_startKeeps ..) (.refl s)
  exact h1.trans .of_fields

theorem bootLanyard_startKeeps (s : State) : StartKeeps s (bootLanyard s).1 := by
  unfold bootLanyard
  extract_lets a b t
  split <;> exact .of_fields

/-! Steps 3 to 11: power, the lay, links and retired engines. -/

theorem powerDoms_startKeeps (s : State) : StartKeeps s (powerDoms s) := by
  refine .foldl (fun s i => ?_) _ s
  extract_lets s1
  have h1 : StartKeeps s s1 := .trans (t := putDom i ⟨1, none, true, false⟩ s) .of_fields (ctrAdd_startKeeps ..)
  exact h1.trans (.ite .of_fields (.refl s1))

/-- The keys that go are the partition's weight keys; the fresh ones are keys of tiers and of trees (R371 step 3). -/
theorem freshKeys_startKeeps (p : Nat) (s : State) : StartKeeps s (freshKeys p s) := by
  unfold freshKeys
  extract_lets a b _ _ _ s1 s2
  have h1 : StartKeeps s s1 := .of_fields
  have h2 : StartKeeps s1 s2 := .foldl (fun _ _ => .of_fields) _ s1
  exact (h1.trans h2).trans ⟨rfl, rfl, rfl, rfl, rfl, List.filter_sublist.subset⟩

theorem layRefuse_startKeeps (cause p : Nat) (s : State) : StartKeeps s (layRefuse cause p s) :=
  .trans (.trans (t := { s with lay.cause := cause }) .of_fields (ctr_startKeeps ..)) (evt_startKeeps ..)

theorem layBoot_startKeeps (x : LayImg) (s : State) : StartKeeps s (layBoot x s) := by
  unfold layBoot
  extract_lets c l _ _ s1 s2
  have h1 : StartKeeps s s1 := .of_fields
  have h2 : StartKeeps s1 s2 := .foldl (fun s e => (freshKeys_startKeeps e.1 s).trans .of_fields) _ s1
  exact .ite (layRefuse_startKeeps ..) (((h1.trans h2).trans (ctr_startKeeps ..)).trans (evt_startKeeps ..))

theorem linksUp_startKeeps (s : State) : StartKeeps s (linksUp s) := by
  unfold linksUp
  extract_lets _ s1
  have h1 : StartKeeps s s1 := .of_fields
  exact h1.trans (.foldl (fun s _ => .ite .of_fields (.refl s)) _ s1)

theorem substitute_startKeeps (b e : Nat) (s : State) : StartKeeps s (substitute b e s) := by
  unfold substitute
  split
  · exact .refl s
  · exact .trans (t := putEng b e _ (putEng b _ _ s)) .of_fields (ctr_startKeeps ..)

theorem applyRetired_startKeeps (s : State) : StartKeeps s (applyRetired s) := by
  unfold applyRetired
  extract_lets engs s1 s2
  have h1 : StartKeeps s s1 := .foldl (fun _ _ => .of_fields) _ s
  have h2 : StartKeeps s1 s2 := .foldl (fun _ _ => substitute_startKeeps ..) _ s1
  exact (h1.trans h2).trans (.foldl (fun _ _ => .of_fields) _ s2)

theorem recoveryRings_startKeeps (s : State) : StartKeeps s (recoveryRings s) :=
  ((rp_startKeeps ..).trans (rp_startKeeps ..)).trans (rp_startKeeps ..)

theorem bootRest_startKeeps (s : State) : StartKeeps s (bootRest s) := by
  unfold bootRest
  extract_lets s1 _ s2 _ s3 s4 _ s5 s6 _ s7 s8
  have h1 : StartKeeps s s1 := .trans (t := freshScratch (freshNonce s)) .of_fields (powerDoms_startKeeps _)
  have h2 : StartKeeps s1 s2 := .of_fields
  have h3 : StartKeeps s2 s3 := .of_fields
  have h4 : StartKeeps s2 s4 := .ite (h3.trans (.ite (.refl s3) (recoveryRings_startKeeps s3))) (layBoot_startKeeps ..)
  have h5 : StartKeeps s4 s5 := .of_fields
  have h6 : StartKeeps s5 s6 := .trans (.ite (.refl s5) (linksUp_startKeeps s5)) .of_fields
  have h7 : StartKeeps s6 s7 := .ite .of_fields (.refl s6)
  have h8 : StartKeeps s7 s8 := applyRetired_startKeeps s7
  exact ((((((h1.trans h2).trans h4).trans h5).trans h6).trans h7).trans h8).trans .of_fields

/-! The whole start. -/

theorem boot_startKeeps (s : State) : StartKeeps s (boot s) := by
  unfold boot
  extract_lets sel both one hw rom _ sp sd
  split
  · exact (romRecovery_startKeeps s).trans (fwFail_startKeeps ..)
  · next x _ =>
    extract_lets s1 ly s2 s3 _ _ s4 _ _ s5
    have h1 : StartKeeps s s1 :=
      .trans (t := { s with hw.ready := true, hw.fw := x.2, hw.fwSlot := x.1 }) .of_fields (loadStore_startKeeps _)
    have h2 : StartKeeps s1 s2 :=
      .trans (.trans (bootLanyard_startKeeps s1) (fwFail_startKeeps ..)) (fwFail_startKeeps ..)
    have h3 : StartKeeps s2 s3 := .trans (fwFail_startKeeps ..) (fwFail_startKeeps ..)
    have h4 : StartKeeps s3 s4 := by
      unfold s4
      split <;> exact .of_fields
    have h5 : StartKeeps s4 s5 := by
      unfold s5
      split <;> exact .of_fields
    exact ((h1.trans h2).trans h3).trans (.ite (.refl s3) ((h4.trans h5).trans (bootRest_startKeeps s5)))

theorem powerUp_startKeeps (s : State) : StartKeeps s (powerUp s) := by
  unfold powerUp
  extract_lets _ s1
  have h1 : StartKeeps s s1 := .ite (.refl s) .of_fields
  exact .ite (.refl s) (h1.trans (.ite (boot_startKeeps s1) (.refl s1)))

theorem start_startKeeps (s : State) : StartKeeps s (start s) :=
  .ite (.refl s) (.ite .of_fields ((step1_startKeeps s).trans (powerUp_startKeeps _)))

end Sys2Proof.Machine
end

section
/-! SUPPORT. A fault of Heartwood (R468). -/

namespace Sys2Proof.Machine

theorem exec_registerParityFault_detected (off : BitVec 26) (s : State) :
    exec (.registerParityFault off none) s = .next (after s (parityOp off.toNat s)) := rfl

theorem exec_heartwoodWatchdog (s : State) :
    exec .heartwoodWatchdog s = .next (if s.hw.ready then sysReset 0x14 s else s) := rfl

/-- A reset, while standby power is there, is a start from the state at its assertion (R538). -/
theorem sysReset_of_stbyOk {s : State} (src : Nat) (h : s.pm.stbyOk = true) :
    sysReset src s = start (newCause 2 src (now s) (sysState s)) := by
  simp [sysReset, h]

/-- The parity mark of a block does not outlive the reset that its fault causes (R537). -/
theorem sysReset_parityMark {s : State} (src off : Nat) (h : s.pm.stbyOk = true) :
    sysReset src (parityMark off s) = sysReset src s := by
  rw [sysReset_of_stbyOk src (s := parityMark off s) h, sysReset_of_stbyOk src h]
  rfl

/-- A register of Heartwood's block that is no engine's and no channel's: the whole unit is fenced, which resets the system. -/
theorem parityOp_heartwood {s : State} {off : Nat} {ra : RegAt} (hs : s.pm.stbyOk = true) (hd : regDecode off = some ra)
    (hb : offBlock off = 1) (he : regEngine ra = none) (hc : ra.id ≠ .HM_CH_STAT) :
    parityOp off s = sysReset 0x14 (evt Ev.REG_PARITY lyReq off s) := by
  have hop : parityOp off s = unitFence 1 (parityMark off (evt Ev.REG_PARITY lyReq off s)) := by
    simp only [parityOp, hd, he, hb, if_neg hc]
  have hfence (t : State) : unitFence 1 t = sysReset 0x14 t := rfl
  rw [hop, hfence, sysReset_parityMark 0x14 off (by rw [evt_pm]; exact hs)]

/-- What a system reset records, clears and spares (R537, R538). -/
theorem sysReset_effect {s : State} (src : Nat) (h : s.pm.stbyOk = true) :
    (sysReset src s).pm.level = 2 ∧ (sysReset src s).pm.source = src ∧ (sysReset src s).wkeys = [] ∧
    (sysReset src s).hw.sess = [] ∧ (sysReset src s).hw.fuses = s.hw.fuses ∧ (sysReset src s).uptime = s.uptime := by
  rw [sysReset_of_stbyOk src h]
  have k := start_startKeeps (newCause 2 src (now s) (sysState s))
  exact ⟨k.level, k.source, List.eq_nil_of_subset_nil k.wkeys, k.sess, k.fuses, k.uptime⟩

/-- Settles O58: a parity fault of Heartwood's block fences the unit by a reset that forgets the mark, and a start keeps what the
reset recorded. -/
theorem aHeartwoodFaultResetsTheSystem : Obligations.AHeartwoodFaultResetsTheSystem := by
  intro s hs
  refine ⟨fun off ra hd hb he hc => ?_, fun hr => ?_, fun src => sysReset_effect src hs⟩
  · rw [exec_registerParityFault_detected, parityOp_heartwood hs hd hb he hc]
  · rw [exec_heartwoodWatchdog, if_pos hr]

end Sys2Proof.Machine
end
